-- ==== Sys2Proof/Word.lean ====
section
/-!
DEFINITION. The machine word, the byte, and their plainest arithmetic.
-/

namespace Sys2Proof

/-- A 64-bit register or memory word (R1: bit 0 is the least significant). -/
abbrev Word := BitVec 64

/-- One byte of memory. -/
abbrev Byte := BitVec 8

/-- The 512 bits of a v register or of a 64-byte record. -/
abbrev Vec := BitVec 512

/-- A register number. -/
abbrev Reg := BitVec 5

/-- `lo`-based slice of `n` bits of a natural number. -/
def bits (w lo n : Nat) : Nat := w / 2 ^ lo % 2 ^ n

end Sys2Proof
end

