-- ==== Sys2Proof/Syntax.lean ====
section
/-!
DEFINITION. The instructions and the indivisible events of the S9: one constructor of `Instr` per row of the opcode
table. Rows with an encoding are what a compute hart or a director core executes; the other rows are acts of engines,
units, Stagehouse, the host and the debugger, whose parameters say which unit acts (log 1).
-/

namespace Sys2Proof

/-- The integer operations of RV64I_ALU (R123). -/
inductive AluOp where
  | add | sub | sll | slt | sltu | xor | srl | sra | or | and | addw | subw | sllw | srlw | sraw
deriving DecidableEq, Repr

/-- The second operand: a register, or the 12-bit immediate (a shift amount for the shifts). -/
inductive AluSrc where
  | reg (r : Reg)
  | imm (i : BitVec 12)
deriving DecidableEq, Repr

inductive MulOp where
  | mul | mulh | mulhsu | mulhu | mulw
deriving DecidableEq, Repr

inductive DivOp where
  | div | divu | rem | remu | divw | divuw | remw | remuw
deriving DecidableEq, Repr

inductive BrOp where
  | beq | bne | blt | bge | bltu | bgeu
deriving DecidableEq, Repr

inductive LdOp where
  | lb | lh | lw | ld | lbu | lhu | lwu
deriving DecidableEq, Repr

inductive StOp where
  | sb | sh | sw | sd
deriving DecidableEq, Repr

/-- The Zca instructions (R45, R123). A three-bit register `r` names x(8 + r). -/
inductive ZcaOp where
  | addi4spn (rd : BitVec 3) (imm : BitVec 8)      -- imm[9:2]
  | lw (rd rs1 : BitVec 3) (imm : BitVec 5)        -- imm[6:2]
  | ld (rd rs1 : BitVec 3) (imm : BitVec 5)        -- imm[7:3]
  | sw (rs2 rs1 : BitVec 3) (imm : BitVec 5)
  | sd (rs2 rs1 : BitVec 3) (imm : BitVec 5)
  | addi (rd : Reg) (imm : BitVec 6)               -- c.nop when rd is x0
  | addiw (rd : Reg) (imm : BitVec 6)
  | li (rd : Reg) (imm : BitVec 6)
  | addi16sp (imm : BitVec 6)                      -- imm[9:4]
  | lui (rd : Reg) (imm : BitVec 6)                -- imm[17:12]
  | srli (rd : BitVec 3) (sh : BitVec 6)
  | srai (rd : BitVec 3) (sh : BitVec 6)
  | andi (rd : BitVec 3) (imm : BitVec 6)
  | sub (rd rs2 : BitVec 3)
  | xor (rd rs2 : BitVec 3)
  | or (rd rs2 : BitVec 3)
  | and (rd rs2 : BitVec 3)
  | subw (rd rs2 : BitVec 3)
  | addw (rd rs2 : BitVec 3)
  | j (imm : BitVec 11)                            -- imm[11:1]
  | beqz (rs1 : BitVec 3) (imm : BitVec 8)         -- imm[8:1]
  | bnez (rs1 : BitVec 3) (imm : BitVec 8)
  | slli (rd : Reg) (sh : BitVec 6)
  | lwsp (rd : Reg) (imm : BitVec 6)               -- imm[7:2]
  | ldsp (rd : Reg) (imm : BitVec 6)               -- imm[8:3]
  | jr (rs1 : Reg)
  | mv (rd rs2 : Reg)
  | ebreak
  | jalr (rs1 : Reg)
  | add (rd rs2 : Reg)
  | swsp (rs2 : Reg) (imm : BitVec 6)
  | sdsp (rs2 : Reg) (imm : BitVec 6)
deriving DecidableEq, Repr

/-- The optional fields of a long-format word (R51, R53). With `ed1` the fields `la`, `fi` and `fo` are carried and
never looked at (R54). `m` is the mask register of classes 1 to 6. -/
structure LOpts where
  ed1 : Bool := false
  la : BitVec 4 := 0
  fi : Bool := false
  fo : Bool := false
  rm : BitVec 3 := 0
  sat : Bool := false
  m : BitVec 3 := 0
deriving DecidableEq, Repr

/-- An element format code, the tag codes of R27, and the signedness bit aux[3] (R66). -/
structure Elem where
  code : BitVec 4
  uns : Bool := false
deriving DecidableEq, Repr

/-- The atomic memory operations of RV64A, which only a director core has. -/
inductive RvAmo where
  | swap | add | xor | and | or | min | max | minu | maxu
deriving DecidableEq, Repr

/-- The computational F and D operations of RV64GC on registers of one precision. -/
inductive RvFp where
  | add | sub | mul | div | sqrt | sgnj | sgnjn | sgnjx | min | max
deriving DecidableEq, Repr

/-- What RV64GC has beyond RV64I and M (RV64GC_INSTRUCTION); `dbl` selects D. -/
inductive RvgOp where
  | lr (dw : Bool) (aq rl : Bool) (rd rs1 : Reg)
  | sc (dw : Bool) (aq rl : Bool) (rd rs1 rs2 : Reg)
  | amo (op : RvAmo) (dw : Bool) (aq rl : Bool) (rd rs1 rs2 : Reg)
  | fload (dbl : Bool) (rd rs1 : Reg) (imm : BitVec 12)
  | fstore (dbl : Bool) (rs2 rs1 : Reg) (imm : BitVec 12)
  | fma (neg sub dbl : Bool) (rm : BitVec 3) (rd rs1 rs2 rs3 : Reg)
  | fop (op : RvFp) (dbl : Bool) (rm : BitVec 3) (rd rs1 rs2 : Reg)
  | fcmp (k : BitVec 2) (dbl : Bool) (rd rs1 rs2 : Reg)          -- 0 le, 1 lt, 2 eq
  | fclass (dbl : Bool) (rd rs1 : Reg)
  | fcvtToInt (dbl : Bool) (k : BitVec 2) (rm : BitVec 3) (rd rs1 : Reg)     -- k: w, wu, l, lu
  | fcvtFromInt (dbl : Bool) (k : BitVec 2) (rm : BitVec 3) (rd rs1 : Reg)
  | fcvtFF (toDbl : Bool) (rm : BitVec 3) (rd rs1 : Reg)
  | fmvToX (dbl : Bool) (rd rs1 : Reg)
  | fmvFromX (dbl : Bool) (rd rs1 : Reg)
  | fenceI (imm : BitVec 12) (rd rs1 : Reg)
  | sret | wfi
  | sfenceVma (rs1 rs2 : Reg)
  | cfld (rd rs1 : BitVec 3) (imm : BitVec 5)
  | cfsd (rs2 rs1 : BitVec 3) (imm : BitVec 5)
  | cfldsp (rd : Reg) (imm : BitVec 6)
  | cfsdsp (rs2 : Reg) (imm : BitVec 6)
deriving DecidableEq, Repr

/-- One constructor per row of the opcode table. -/
inductive Instr where
  -- RV64I, M, Zicsr and Zca (R44, R45, R121-R129)
  | rv64iAlu (op : AluOp) (rd rs1 : Reg) (src : AluSrc)
  | lui (rd : Reg) (imm : BitVec 20)
  | auipc (rd : Reg) (imm : BitVec 20)
  | mul (op : MulOp) (rd rs1 rs2 : Reg)
  | div (op : DivOp) (rd rs1 rs2 : Reg)
  | branch (op : BrOp) (rs1 rs2 : Reg) (off : BitVec 12)
  | jal (rd : Reg) (off : BitVec 20)
  | jalr (rd rs1 : Reg) (imm : BitVec 12)
  | scalarLoad (op : LdOp) (rd rs1 : Reg) (imm : BitVec 12)
  | scalarStore (op : StOp) (rs2 rs1 : Reg) (imm : BitVec 12)
  | fence (fm pred succ : BitVec 4) (rs1 rd : Reg)
  | csrrw (rd : Reg) (csr : BitVec 12) (rs1 : Reg)
  | csrrs (rd : Reg) (csr : BitVec 12) (rs1 : Reg)
  | csrrc (rd : Reg) (csr : BitVec 12) (rs1 : Reg)
  | csrrwi (rd : Reg) (csr : BitVec 12) (z : BitVec 5)
  | csrrsi (rd : Reg) (csr : BitVec 12) (z : BitVec 5)
  | csrrci (rd : Reg) (csr : BitVec 12) (z : BitVec 5)
  | zcaInstruction (c : ZcaOp)
  | illegalInstruction (w : BitVec 64)
  -- custom-0 (R47)
  | lpSet (n : BitVec 1) (cnt fin : Reg)
  | lpOff (n : BitVec 1)
  | lpSetup (n : BitVec 1) (cnt : Reg) (imm : BitVec 12)
  | lpSetupi (n : BitVec 1) (cnt : BitVec 5) (imm : BitVec 12)
  | killX (a b : Reg)
  | killV (a b : Reg)
  | jalD (rd : Reg) (imm : BitVec 17)
  | jalrD (rd rs1 : Reg) (imm : BitVec 12)
  | chorusForm (rd : Reg) (size : BitVec 2)
  | chorusId (rd : Reg)
  | safept (n : BitVec 16)
  | cueResume (rd rs1 : Reg)
  | cueYield (rs1 : Reg)
  | cueSpawn (rd rs1 rs2 : Reg)
  | cueWait (rd rs1 rs2 : Reg)
  | cueSelf (rd : Reg)
  | salloc (rd rs1 rs2 : Reg)
  | sallocA (rd rs1 rs2 : Reg)
  | sfree (rd rs1 : Reg)
  | genRd (rd rs1 : Reg) (sel : BitVec 2)
  | lookaheadCompletion (hart k : Nat)
  -- custom-1 (R48)
  | amoAdd (acq rel : Bool) (sc : BitVec 3) (rd rs1 rs2 : Reg)
  | amoSwap (acq rel : Bool) (sc : BitVec 3) (rd rs1 rs2 : Reg)
  | amoCas (acq rel : Bool) (sc : BitVec 3) (rd rs1 rs2 : Reg)
  | amoMin (acq rel : Bool) (sc : BitVec 3) (rd rs1 rs2 : Reg)
  | amoMax (acq rel : Bool) (sc : BitVec 3) (rd rs1 rs2 : Reg)
  | amoMinu (acq rel : Bool) (sc : BitVec 3) (rd rs1 rs2 : Reg)
  | amoMaxu (acq rel : Bool) (sc : BitVec 3) (rd rs1 rs2 : Reg)
  | amoAnd (acq rel : Bool) (sc : BitVec 3) (rd rs1 rs2 : Reg)
  | amoOr (acq rel : Bool) (sc : BitVec 3) (rd rs1 rs2 : Reg)
  | amoXor (acq rel : Bool) (sc : BitVec 3) (rd rs1 rs2 : Reg)
  | amoAddb (acq rel : Bool) (sc : BitVec 3) (rd rs1 rs2 : Reg)
  | sbind (s : BitVec 2) (rs1 : Reg)
  | sunbind (s : BitVec 2)
  | sstat (rd : Reg) (s : BitVec 2)
  | seal (rd rs1 rs2 : Reg)
  | unseal (rd rs1 rs2 : Reg)
  | streamReadAhead (hart s : Nat)
  | streamCsrBind (hart s : Nat) (v : BitVec 64)
  -- custom-2 (R49)
  | msgRecv (rd rs1 : Reg)
  | msgPoll (rd rs1 : Reg)
  | msgPut (n rs1 rs2 : Reg)
  | dqPush (rd vs rs2 : Reg)
  | dqPop (vd rs1 : Reg)
  | qPushX (n : BitVec 2) (rs1 : Reg)
  | qPushV (n : BitVec 2) (vs : Reg)
  | qPopX (rd : Reg)
  | qPopV (vd : Reg)
  | qStat (rd : Reg) (n : BitVec 2)
  | svcCall (rd rs1 : Reg)
  | qkSet (rs1 : Reg)
  | qkScan (rd rs1 : Reg)
  | jlPut (rd rs1 rs2 : Reg)
  | barInit (rs1 rs2 : Reg)
  | publish (sc : BitVec 3)
  | refresh (sc : BitVec 3)
  | msgSend (rs1 rs2 : Reg)
  | msgSendRel (sc : BitVec 3) (rs1 rs2 : Reg)
  | barBind (b : BitVec 6) (rs1 : Reg)
  | barArrive (rd rs1 : Reg) (b : BitVec 6)
  | barWait (rd rs1 : Reg) (b : BitVec 6)
  | messageDelivery (k : Nat)
  | depositArrival (sender receiver : Nat) (n : Reg) (v : BitVec 64)
  -- long format, class 1 (R67)
  | vaddFp (o : LOpts) (f : BitVec 4) (vd va vb : Reg)
  | vsubFp (o : LOpts) (f : BitVec 4) (vd va vb : Reg)
  | vmulFp (o : LOpts) (f : BitVec 4) (vd va vb : Reg)
  | vfma (o : LOpts) (f : BitVec 4) (vd va vb vc : Reg)
  | vfms (o : LOpts) (f : BitVec 4) (vd va vb vc : Reg)
  | vdiv (o : LOpts) (f : BitVec 4) (vd va vb : Reg)
  | vsqrt (o : LOpts) (f : BitVec 4) (vd va : Reg)
  | vminFp (o : LOpts) (f : BitVec 4) (vd va vb : Reg)
  | vmaxFp (o : LOpts) (f : BitVec 4) (vd va vb : Reg)
  | vcmpFp (o : LOpts) (f : BitVec 4) (cond : BitVec 3) (md : BitVec 3) (va vb : Reg)
  | vlmul (o : LOpts) (vd va vb : Reg)
  | vldot (o : LOpts) (g : BitVec 2) (vd va vb : Reg)
  | vgumbel (o : LOpts) (vd va xs xb : Reg)
  -- class 2 (R68)
  | vaddInt (o : LOpts) (e : Elem) (vd va vb : Reg)
  | vsubInt (o : LOpts) (e : Elem) (vd va vb : Reg)
  | vmulInt (o : LOpts) (e : Elem) (vd va vb : Reg)
  | vminInt (o : LOpts) (e : Elem) (vd va vb : Reg)
  | vmaxInt (o : LOpts) (e : Elem) (vd va vb : Reg)
  | vsll (o : LOpts) (f : BitVec 4) (vd va vb : Reg)
  | vsrl (o : LOpts) (f : BitVec 4) (vd va vb : Reg)
  | vsra (o : LOpts) (f : BitVec 4) (vd va vb : Reg)
  | vand (o : LOpts) (f : BitVec 4) (vd va vb : Reg)
  | vor (o : LOpts) (f : BitVec 4) (vd va vb : Reg)
  | vxor (o : LOpts) (f : BitVec 4) (vd va vb : Reg)
  | vcmpInt (o : LOpts) (e : Elem) (cond : BitVec 3) (md : BitVec 3) (va vb : Reg)
  | vsel (o : LOpts) (f : BitVec 4) (vd va vb : Reg) (ms : BitVec 3)
  | vmlog (o : LOpts) (op : BitVec 3) (md ma mb : BitVec 3)
  | vmpop (o : LOpts) (xd : Reg) (ma : BitVec 3)
  -- class 3 (R69)
  | vcvt (o : LOpts) (d s : Elem) (vd va : Reg) (p : BitVec 5)
  | vtag (o : LOpts) (f : BitVec 4) (vd va : Reg)
  | vpackt (o : LOpts) (vd va : Reg)
  | vunpackt (o : LOpts) (vd va : Reg)
  | vosplit (o : LOpts) (f s : BitVec 4) (vd va : Reg) (j : BitVec 2)
  -- class 4 (R70)
  | vrcp (o : LOpts) (f : BitVec 4) (vd va : Reg)
  | vrsqrt (o : LOpts) (f : BitVec 4) (vd va : Reg)
  | vexp2 (o : LOpts) (f : BitVec 4) (vd va : Reg)
  | vlog2 (o : LOpts) (f : BitVec 4) (vd va : Reg)
  -- class 5 (R71)
  | vredsum (o : LOpts) (e : Elem) (vd va : Reg)
  | vredmax (o : LOpts) (e : Elem) (vd va : Reg)
  | vredmin (o : LOpts) (e : Elem) (vd va : Reg)
  | vargmax (o : LOpts) (e : Elem) (vd va xb : Reg)
  | vperm (o : LOpts) (f : BitVec 4) (vd va vi : Reg)
  | vslide (o : LOpts) (f : BitVec 4) (vd va xs : Reg)
  | vbcast (o : LOpts) (f : BitVec 4) (vd va xs : Reg)
  | vins (o : LOpts) (f : BitVec 4) (vd xv xi : Reg)
  | vext (o : LOpts) (f : BitVec 4) (xd va xi : Reg)
  -- class 6 (R72, R183)
  | vld (o : LOpts) (e : Elem) (vd xa : Reg) (off : BitVec 5)
  | vldDiag (o : LOpts) (e : Elem) (vd xt : Reg)
  | vst (o : LOpts) (e : Elem) (vs xa : Reg) (off : BitVec 5)
  | vstDiag (o : LOpts) (e : Elem) (vs xt : Reg)
  | vlds (o : LOpts) (e : Elem) (vd xa xs : Reg)
  | vsts (o : LOpts) (e : Elem) (vs xa xs : Reg)
  | vldx (o : LOpts) (e : Elem) (vd xa vi : Reg)
  | vstx (o : LOpts) (e : Elem) (vs xa vi : Reg)
  | tdecl (o : LOpts) (xt xb xs : Reg)
  -- class 7 (R324)
  | mxMma (o : LOpts) (zero cmpl : Bool) (xd xa xb xc xn : Reg)
  | mxMmsp (o : LOpts) (zero cmpl : Bool) (xd xa xb xc xn : Reg)
  | mxZero (o : LOpts) (xc xn : Reg)
  | mxLd (o : LOpts) (raw : Bool) (g : BitVec 2) (vd xc : Reg)
  | mxSt (o : LOpts) (g : BitVec 2) (vs xc : Reg)
  | mxCfg (o : LOpts) (xa : Reg)
  | mxTask (o : LOpts) (xd xa : Reg)
  | taskIssue (slice k cluster : Nat)
  | taskCompletion (slice k : Nat)
  -- class 8 (R352)
  | slCfg (o : LOpts) (xa : Reg)
  | slCfgClose (o : LOpts)
  | slRun (o : LOpts) (xd : Reg)
  | slPassCount (o : LOpts) (xd xa : Reg)
  | slPassDecide (o : LOpts) (xd xa : Reg)
  | slGet (o : LOpts) (sel : BitVec 3) (xd : Reg)
  | slMask (o : LOpts) (mode : BitVec 2) (xd xa xq : Reg)
  | selectionJob (cluster : Nat)
  -- classes 9 and 10 (R74, R75)
  | phase (o : LOpts) (op : BitVec 2) (sc : BitVec 3) (b : BitVec 6) (xd xv : Reg)
  | netRedMaxi (o : LOpts) (sc : BitVec 3) (ctx : BitVec 8) (vd va : Reg)
  | netRedSum (o : LOpts) (sc : BitVec 3) (ctx : BitVec 8) (xd xa : Reg)
  | netRedSumv (o : LOpts) (sc : BitVec 3) (ctx : BitVec 8) (xd xa : Reg)
  | netRedAnd (o : LOpts) (sc : BitVec 3) (ctx : BitVec 8) (xd xa : Reg)
  | netRedOr (o : LOpts) (sc : BitVec 3) (ctx : BitVec 8) (xd xa : Reg)
  -- the copy engine (R302-R318); `n` is how many further units of the command are done
  | copy1d (cluster slot n : Nat)
  | copy2d (cluster slot n : Nat)
  | gather (cluster slot n : Nat)
  | fill (cluster slot n : Nat)
  | decompress (cluster slot : Nat)
  | decompressBlock (cluster slot : Nat)
  | winstore (cluster slot n : Nat)
  | landingBufferDelivery (cluster slot n : Nat)
  | copyCompletion (cluster slot : Nat)
  -- custom-3 (R50)
  | bcNext (rd rs1 rs2 : Reg)
  | icInv (rs1 : Reg)
  | txIssue (rd rs1 : Reg)
  | txWait (rd rs1 : Reg)
  | rcInc (rd rs1 : Reg)
  | rcDec (rd rs1 : Reg)
  | icLd (rd rs1 : Reg) (site : BitVec 12)
  | icSt (rs2 rs1 : Reg) (site : BitVec 12)
  | gdShape (rs1 rs2 : Reg) (off : BitVec 12)
  | gdTag (rs1 rs2 : Reg) (off : BitVec 12)
  | obLd (rd rs1 : Reg) (slot : BitVec 12)
  | obSt (rs2 rs1 : Reg) (slot : BitVec 12)
  | exceptionEntryRegister (dc : Nat)
  | storageReleaseEcall (dc : Nat)
  | holdRelease (dc seq status : Nat)
  | heldRingDrain (dc : Nat)
  -- the casting unit and Stagehouse's acts on harts (R255-R261, R145)
  | castDispatch (slice : Nat)
  | vacateWatchdogExpiry (hart : Nat)
  | helperVacateTimeout (hart : Nat)
  | castingControlWrite (slice : Nat) (w : BitVec 64)
  | sweeperVisit (cluster unit : Nat)
  -- queues, plays and scheduler threads (R409-R425)
  | playLaunch (q : Nat) (harts : List Nat) (pool : BitVec 64) (share : Nat) (recs : BitVec 64)
  | seedPortStore (dc entry : Nat) (v : BitVec 64)
  | queueSlotSignalCheck (k : Nat)
  | waitCycleTimeout (members : List Nat)
  | playCompletion (entry : Nat)
  | playCompletionDelivery (entry : Nat)
  | qsetWrite (dc csr : Nat) (v : BitVec 64)
  | imemMachineCheck (dc : Nat)
  | heartbeatTimeout (n : Nat)
  | takeOver (n : Nat)
  | serviceCallReply (svc k status : Nat) (result : List (BitVec 64))
  | attestationService (k : Nat)
  | firmwareSwitch (svc ver : Nat)
  | faultBatch (k : Nat) (pte : BitVec 64) (resolved : Bool)
  | tenantEnd (p : Nat)
  | partitionMapChange (p : Nat) (mask : List Nat) (ranges : List (Nat × Nat)) (root : BitVec 64) (pasid : Nat)
      (queues : List Nat) (dcs : BitVec 16) (dbg : BitVec 3) (svcs : List Nat)
  -- the host (R431-R434, R439)
  | shootdownRequest (root : Option (BitVec 64)) (lo len : Nat)
  | hostMemoryWrite (pa : Nat) (data : List (BitVec 8))
  | hostMemoryRead (pa len : Nat)
  | doorbell (v : BitVec 64)
  | capWrite (v : BitVec 64)
  | hostRegisterWrite (off : Nat) (v : BitVec 64)
  -- start-up, power and background (R442-R449)
  | powerUp (temp : Nat)
  | powerSample (watts tj : Nat)
  | hbmScrub (pa : Nat) (bad : Bool)
  | sramScrub (core gran : Nat) (bad : Bool)
  | fatalError (cause unit : Nat)
  -- ixdb (R39, R40, R284, R296, R371, R406-R408, R430)
  | ixdbRun (q : Nat) (desc : BitVec 64) (args : List (BitVec 64)) (harts : List Nat) (blk signal : BitVec 64)
  | ixdbBreak (pc : BitVec 64)
  | ixdbStep (n : Nat)
  | ixdbHart (hart : Nat)
  | ixdbFollow (cue : BitVec 64)
  | ixdbRegs (ids : List Nat)
  | ixdbMem (addr : BitVec 64) (n : Nat) (f : BitVec 5)
  | ixdbBank (core off n : Nat)
  | ixdbCue (addr : BitVec 64)
  | ixdbExplain (w : BitVec 64)
  | ixdbCall (dc : Nat) (pc : BitVec 64) (args : List (BitVec 64))
  | ixdbEngineHold (cluster : Nat)
  | ixdbEngineRelease (cluster : Nat)
  | ixdbTakeover (dc set : Nat) (pc : BitVec 64)
  | ixdbInject (dc : Nat)
  | ixdbJournal (set : Nat)
  | ixdbPtab (entry : Nat)
  | ixdbQueue (q : Nat)
  | ixdbWatch (addr : BitVec 64)
  | debuggerWrite (hart : Nat) (what : Nat) (v : BitVec 512) (f : BitVec 4)
  | localInterrupt17Service (set : Nat)
  | forensicEntryRelease (cluster table index : Nat)
  | hostLinkRetrain (width rate : Nat)
  | hartReset (hart : Nat)
  | stagehouseUnpark (hart : Nat) (v : BitVec 64)
  | rv64gcInstruction (op : RvgOp)
  | interpreterContextSwitch (dc : Nat) (pc : BitVec 64) (regs : List (BitVec 64))
  -- the rows without operands: they stand last, because Lean numbers only so many constructors with fields
  | ecall
  | ebreak
  | chorusLeave
  | cueExit
  | tret
  | reset
  | configRequest
  | dumpAck
  | readWearCounters
  | attestationReport
  | readFatalRecord
  | stopQueue
  | resumeQueue
  | mailboxUnknownCommand
  | clockStepUp
  | recalibration
  | wearCheckpoint
  | telemetrySample
  | ixdbCont
  | ixdbStepi
  | ixdbList
  | ixdbQuit
  | ixdbKicks
  | powerLoss
  | orderlyShutdown
  | refreshManagement
deriving DecidableEq, Repr

end Sys2Proof
end

