-- ==== Sys2Proof/WellFormed.lean ====
section
/-!
DEFINITION. Which instructions have an encoding: the value checks that decoding makes (R47-R79, R111, R152, R167,
R170, R298, R324, R352). Reserved bits are no field of `Instr`; the decoder refuses them by encoding again.
-/

namespace Sys2Proof

/-- The scope codes of R5 that exist (R58). -/
def scopeOk (s : BitVec 3) : Bool := s.toNat ≤ 5

/-- The fields of R53 an instruction takes. A field it does not take is zero; `la`, `fi` and `fo` are free in edition
1 (R54). rm 5 and 6 are illegal (R56). -/
def LOpts.ok (o : LOpts) (la ff rm sat mask : Bool) : Bool :=
  (la || o.ed1 || o.la == 0) && (ff || o.ed1 || (!o.fi && !o.fo)) && (rm || o.rm == 0)
    && (o.rm != 5 && o.rm != 6) && (sat || !o.sat) && (mask || o.m == 0)

/-- As `ok` for the forms that take fi and not fo (R152). -/
def LOpts.okFi (o : LOpts) (mask : Bool) : Bool :=
  o.rm == 0 && !o.sat && (o.ed1 || !o.fo) && (mask || o.m == 0)

/-- Format codes `lo` to `hi`. -/
def fmtIn (f : BitVec 4) (lo hi : Nat) : Bool := lo ≤ f.toNat && f.toNat ≤ hi

/-- The integer codes 9 to 12, the only ones that take aux[3] (R66). -/
def fmtInt (f : BitVec 4) : Bool := fmtIn f 9 12

def Elem.intOk (e : Elem) : Bool := fmtInt e.code
/-- Signedness only with an integer code. -/
def Elem.unsOk (e : Elem) : Bool := !e.uns || fmtInt e.code

/-- Elements of a register in conversion: the lanes of R149, log6 counted in elements (R167). -/
def convLanes (f : BitVec 4) : Nat :=
  match f.toNat with
  | 1 => 8 | 2 => 16 | 3 => 32 | 4 => 32 | 5 => 64 | 6 => 64 | 7 => 80
  | 9 => 8 | 10 => 16 | 11 => 32 | 12 => 64 | _ => 0

/-- The pairs of R111. -/
def cvtPairOk (d s : BitVec 4) : Bool :=
  convLanes d != 0 && convLanes s != 0 && !(d == 7 && fmtInt s) && !(s == 7 && fmtInt d)

/-- The part count of R167. -/
def cvtParts (d s : BitVec 4) : Nat :=
  let nd := convLanes d
  let ns := convLanes s
  if nd ≤ ns then (ns + nd - 1) / nd else (nd + ns - 1) / ns

/-- Bits of an element of a float format. -/
def fmtBits (f : BitVec 4) : Nat :=
  match f.toNat with
  | 1 => 64 | 2 => 32 | 3 => 16 | 4 => 16 | 5 => 8 | 6 => 8 | 9 => 64 | 10 => 32 | 11 => 16 | 12 => 8 | 7 => 6 | _ => 8

/-- Group size of a code 0 to 3 (R77). -/
def groupSize (g : BitVec 2) : Nat := 2 ^ g.toNat

/-- Group `b` of size `g` is aligned (R77). -/
def groupOk (b : Reg) (g : Nat) : Bool := b.toNat % g == 0

/-- Groups (a, n) and (b, k) overlap partly: they share a register and are not the same group (R78). -/
def partOverlap (a n b k : Nat) : Bool := (a < b + k && b < a + n) && !(a == b && n == k)

def ZcaOp.wf : ZcaOp → Bool
  | .addi4spn _ imm => imm != 0
  | .addiw rd _ => rd != 0
  | .addi16sp imm => imm != 0
  | .lui rd imm => rd != 2 && imm != 0
  | .lwsp rd _ => rd != 0
  | .ldsp rd _ => rd != 0
  | .jr r => r != 0
  | .mv _ rs2 => rs2 != 0
  | .jalr r => r != 0
  | .add _ rs2 => rs2 != 0
  | _ => true

/-- Floating-point rounding fields of RV64GC: 5 and 6 are reserved. -/
def rvRmOk (rm : BitVec 3) : Bool := rm != 5 && rm != 6

def RvgOp.wf : RvgOp → Bool
  | .fma _ _ _ rm _ _ _ _ => rvRmOk rm
  | .fop op _ rm _ _ rs2 =>
    match op with
    | .add | .sub | .mul | .div => rvRmOk rm
    | .sqrt => rvRmOk rm && rs2 == 0
    | _ => rm == 0
  | .fcmp k _ _ _ _ => k != 3
  | .fcvtToInt _ _ rm _ _ => rvRmOk rm
  | .fcvtFromInt _ _ rm _ _ => rvRmOk rm
  | .fcvtFF _ rm _ _ => rvRmOk rm
  | _ => true

/-- The instruction has an encoding: every field holds a value that decoding accepts. The rows without an encoding
(events, and the illegal instruction) have none. -/
def Instr.wf : Instr → Bool
  | .rv64iAlu op _ _ src =>
    match src with
    | .reg _ => true
    | .imm i =>
      match op with
      | .sub | .subw => false
      | .sll | .srl | .sra => i.toNat < 64
      | .sllw | .srlw | .sraw => i.toNat < 32
      | _ => true
  | .lui .. | .auipc .. | .mul .. | .div .. | .branch .. | .jal .. | .jalr .. | .scalarLoad .. | .scalarStore ..
  | .fence .. | .ecall | .ebreak | .csrrw .. | .csrrs .. | .csrrc .. | .csrrwi .. | .csrrsi .. | .csrrci .. => true
  | .zcaInstruction c => c.wf
  | .illegalInstruction _ => false
  | .lpSet .. | .lpOff _ => true
  | .lpSetup _ _ imm => 3 ≤ imm.toNat
  | .lpSetupi _ _ imm => 3 ≤ imm.toNat
  | .killX a b => a.toNat ≤ b.toNat
  | .killV a b => a.toNat ≤ b.toNat
  | .jalD .. | .jalrD .. => true
  | .chorusForm _ size => size != 0
  | .chorusLeave | .chorusId _ | .safept _ | .cueResume .. | .cueYield _ | .cueSpawn .. | .cueWait .. | .cueExit
  | .cueSelf _ | .salloc .. | .sallocA .. | .sfree .. => true
  | .genRd _ rs1 sel => sel != 2 || rs1 == 0
  | .tret => true
  | .amoAdd _ _ sc _ _ _ | .amoSwap _ _ sc _ _ _ | .amoCas _ _ sc _ _ _ | .amoMin _ _ sc _ _ _
  | .amoMax _ _ sc _ _ _ | .amoMinu _ _ sc _ _ _ | .amoMaxu _ _ sc _ _ _ | .amoAnd _ _ sc _ _ _
  | .amoOr _ _ sc _ _ _ | .amoXor _ _ sc _ _ _ | .amoAddb _ _ sc _ _ _ => scopeOk sc
  | .sbind .. | .sunbind _ | .sstat .. | .seal .. | .unseal .. => true
  | .msgRecv .. | .msgPoll .. | .msgPut .. | .dqPush .. | .dqPop .. => true
  | .qPushX n _ => n != 3
  | .qPushV n _ => n != 3
  | .qPopX _ | .qPopV _ | .qStat .. | .svcCall .. | .qkSet _ | .qkScan .. | .jlPut .. | .barInit .. => true
  | .publish sc => scopeOk sc
  | .refresh sc => scopeOk sc
  | .msgSend .. => true
  | .msgSendRel sc _ _ => scopeOk sc
  | .barBind .. | .barArrive .. | .barWait .. => true
  | .vaddFp o f _ _ _ | .vsubFp o f _ _ _ | .vmulFp o f _ _ _ => fmtIn f 1 6 && o.ok true true true true true
  | .vfma o f _ _ _ _ | .vfms o f _ _ _ _ => fmtIn f 1 6 && o.ok true true true true true
  | .vdiv o f _ _ _ => fmtIn f 1 4 && o.ok true true true true true
  | .vsqrt o f _ _ => fmtIn f 1 4 && o.ok true true true true true
  | .vminFp o f _ _ _ | .vmaxFp o f _ _ _ => fmtIn f 1 6 && o.okFi true
  | .vcmpFp o f _ md _ _ => fmtIn f 1 7 && o.okFi true && md != 0
  | .vlmul o _ _ _ => o.ok true false true true true
  | .vldot o g vd va vb =>
    o.ok true false false false true && groupOk va (groupSize g) && groupOk vb (groupSize g)
      && !partOverlap vd.toNat 1 va.toNat (groupSize g) && !partOverlap vd.toNat 1 vb.toNat (groupSize g)
  | .vgumbel o _ _ _ _ => o.ok true true true true true
  | .vaddInt o e _ _ _ | .vsubInt o e _ _ _ | .vmulInt o e _ _ _ => e.intOk && o.ok true false false true true
  | .vminInt o e _ _ _ | .vmaxInt o e _ _ _ => e.intOk && o.ok true false false false true
  | .vsll o f _ _ _ | .vsrl o f _ _ _ | .vsra o f _ _ _ => fmtInt f && o.ok true false false false true
  | .vand o f _ _ _ | .vor o f _ _ _ | .vxor o f _ _ _ => (f == 0 || fmtInt f) && o.ok true false false false true
  | .vcmpInt o e cond md _ _ => e.intOk && o.ok true false false false true && md != 0 && cond.toNat < 6
  | .vsel o f _ _ _ _ => fmtIn f 0 13 && o.ok true false false false true
  | .vmlog o _ md _ _ => o.ok true false false false false && md != 0
  | .vmpop o _ _ => o.ok true false false false false
  | .vcvt o d s _ _ p =>
    cvtPairOk d.code s.code && d.unsOk && s.unsOk && p.toNat < cvtParts d.code s.code && o.ok true true true true true
  | .vtag o f _ _ => fmtIn f 0 13 && o.ok true false false false false
  | .vpackt o vd va => o.ok true false false true true && groupOk va 8 && !partOverlap vd.toNat 1 va.toNat 8
  | .vunpackt o vd va => o.ok true false false false true && groupOk vd 8 && !partOverlap vd.toNat 8 va.toNat 1
  | .vosplit o f s _ _ j => fmtIn f 1 6 && fmtIn s 1 4 && fmtBits f < fmtBits s && j != 3 && o.okFi true
  | .vrcp o f _ _ | .vrsqrt o f _ _ | .vexp2 o f _ _ | .vlog2 o f _ _ => fmtIn f 1 4 && o.ok true true true false true
  | .vredsum o e _ _ => (fmtIn e.code 1 4 || fmtInt e.code) && e.unsOk && o.ok true true true false true
  | .vredmax o e _ _ | .vredmin o e _ _ => (fmtIn e.code 1 6 || fmtInt e.code) && e.unsOk && o.okFi true
  | .vargmax o e _ _ _ => (fmtIn e.code 1 6 || fmtInt e.code) && e.unsOk && o.okFi true
  | .vperm o f _ _ _ | .vslide o f _ _ _ | .vbcast o f _ _ _ => fmtIn f 0 13 && o.ok true false false false true
  | .vins o f _ _ _ | .vext o f _ _ _ => fmtIn f 0 13 && o.ok true false false false false
  | .vld o e _ _ _ | .vst o e _ _ _ | .vldDiag o e _ _ | .vstDiag o e _ _ | .vlds o e _ _ _ | .vsts o e _ _ _
  | .vldx o e _ _ _ | .vstx o e _ _ _ => fmtIn e.code 0 13 && e.unsOk && o.ok true false false false true
  | .tdecl o _ _ _ => o.ok true false false false false
  | .mxMma o .. | .mxMmsp o .. | .mxZero o .. | .mxCfg o .. | .mxTask o .. => o.ok true false false false false
  | .mxLd o _ g vd _ => o.ok true false false false false && groupOk vd (groupSize g)
  | .mxSt o g vs _ => o.ok true false false false false && groupOk vs (groupSize g)
  | .slCfg o .. | .slCfgClose o | .slRun o .. | .slPassCount o .. | .slPassDecide o .. | .slGet o .. =>
    o.ok true false false false false
  | .slMask o mode _ _ _ => mode != 3 && o.ok true false false false false
  | .phase o _ sc _ _ _ => scopeOk sc && o.ok false false false false false
  | .netRedMaxi o sc _ _ _ | .netRedSum o sc _ _ _ | .netRedSumv o sc _ _ _ | .netRedAnd o sc _ _ _
  | .netRedOr o sc _ _ _ => scopeOk sc && o.ok true false false false false
  | .bcNext .. | .icInv _ | .txIssue .. | .txWait .. | .rcInc .. | .rcDec .. | .icLd .. | .icSt .. | .gdShape ..
  | .gdTag .. | .obLd .. | .obSt .. => true
  | .rv64gcInstruction op => op.wf
  -- the rows without an encoding
  | .lookaheadCompletion .. | .streamReadAhead .. | .streamCsrBind .. | .messageDelivery _ | .depositArrival ..
  | .taskIssue .. | .taskCompletion .. | .selectionJob _ | .copy1d .. | .copy2d .. | .gather .. | .fill ..
  | .decompress .. | .decompressBlock .. | .winstore .. | .landingBufferDelivery .. | .copyCompletion ..
  | .exceptionEntryRegister _ | .storageReleaseEcall _ | .holdRelease .. | .heldRingDrain _ | .castDispatch _
  | .vacateWatchdogExpiry _ | .helperVacateTimeout _ | .castingControlWrite .. | .sweeperVisit .. | .reset
  | .playLaunch .. | .seedPortStore .. | .queueSlotSignalCheck _ | .waitCycleTimeout _ | .playCompletion _
  | .playCompletionDelivery _ | .qsetWrite .. | .imemMachineCheck _ | .heartbeatTimeout _ | .takeOver _
  | .serviceCallReply .. | .attestationService _ | .firmwareSwitch .. | .faultBatch .. | .tenantEnd _
  | .partitionMapChange .. | .shootdownRequest .. | .hostMemoryWrite .. | .hostMemoryRead .. | .configRequest
  | .doorbell _ | .capWrite _ | .dumpAck | .readWearCounters | .attestationReport | .readFatalRecord | .stopQueue
  | .resumeQueue | .mailboxUnknownCommand | .hostRegisterWrite .. | .powerUp _ | .powerSample .. | .clockStepUp
  | .hbmScrub .. | .sramScrub .. | .recalibration | .wearCheckpoint | .telemetrySample | .fatalError .. | .ixdbRun ..
  | .ixdbBreak _ | .ixdbCont | .ixdbStep _ | .ixdbStepi | .ixdbHart _ | .ixdbFollow _ | .ixdbRegs _ | .ixdbMem ..
  | .ixdbBank .. | .ixdbCue _ | .ixdbExplain _ | .ixdbList | .ixdbQuit | .ixdbCall .. | .ixdbEngineHold _
  | .ixdbEngineRelease _ | .ixdbTakeover .. | .ixdbInject _ | .ixdbJournal _ | .ixdbPtab _ | .ixdbQueue _ | .ixdbKicks
  | .ixdbWatch _ | .debuggerWrite .. | .localInterrupt17Service _ | .forensicEntryRelease .. | .powerLoss
  | .orderlyShutdown | .hostLinkRetrain .. | .hartReset _ | .stagehouseUnpark .. | .refreshManagement
  | .interpreterContextSwitch .. => false

/-- Legal on a compute core (R14, R44, R49). -/
def Instr.onCompute : Instr → Bool
  | .qkScan .. | .jlPut .. => false
  | .bcNext .. | .icInv _ | .txIssue .. | .txWait .. | .rcInc .. | .rcDec .. | .icLd .. | .icSt .. | .gdShape ..
  | .gdTag .. | .obLd .. | .obSt .. | .rv64gcInstruction _ => false
  | _ => true

/-- Legal on a director core (R14, R49). -/
def Instr.onDirector : Instr → Bool
  | .rv64iAlu .. | .lui .. | .auipc .. | .mul .. | .div .. | .branch .. | .jal .. | .jalr .. | .scalarLoad ..
  | .scalarStore .. | .fence .. | .ecall | .ebreak | .csrrw .. | .csrrs .. | .csrrc .. | .csrrwi .. | .csrrsi ..
  | .csrrci .. | .zcaInstruction _ => true
  | .msgRecv .. | .msgPoll .. | .svcCall .. | .qkSet _ | .qkScan .. | .jlPut .. | .publish _ | .refresh _
  | .msgSend .. | .msgSendRel .. => true
  | .bcNext .. | .icInv _ | .txIssue .. | .txWait .. | .rcInc .. | .rcDec .. | .icLd .. | .icSt .. | .gdShape ..
  | .gdTag .. | .obLd .. | .obSt .. | .rv64gcInstruction _ => true
  | _ => false

/-- Length in bytes (R41). -/
def Instr.len : Instr → Nat
  | .zcaInstruction _ => 2
  | .rv64gcInstruction (.cfld ..) | .rv64gcInstruction (.cfsd ..) | .rv64gcInstruction (.cfldsp ..)
  | .rv64gcInstruction (.cfsdsp ..) => 2
  | .vaddFp .. | .vsubFp .. | .vmulFp .. | .vfma .. | .vfms .. | .vdiv .. | .vsqrt .. | .vminFp .. | .vmaxFp ..
  | .vcmpFp .. | .vlmul .. | .vldot .. | .vgumbel .. | .vaddInt .. | .vsubInt .. | .vmulInt .. | .vminInt ..
  | .vmaxInt .. | .vsll .. | .vsrl .. | .vsra .. | .vand .. | .vor .. | .vxor .. | .vcmpInt .. | .vsel .. | .vmlog ..
  | .vmpop .. | .vcvt .. | .vtag .. | .vpackt .. | .vunpackt .. | .vosplit .. | .vrcp .. | .vrsqrt .. | .vexp2 ..
  | .vlog2 .. | .vredsum .. | .vredmax .. | .vredmin .. | .vargmax .. | .vperm .. | .vslide .. | .vbcast .. | .vins ..
  | .vext .. | .vld .. | .vldDiag .. | .vst .. | .vstDiag .. | .vlds .. | .vsts .. | .vldx .. | .vstx .. | .tdecl ..
  | .mxMma .. | .mxMmsp .. | .mxZero .. | .mxLd .. | .mxSt .. | .mxCfg .. | .mxTask .. | .slCfg .. | .slCfgClose ..
  | .slRun .. | .slPassCount .. | .slPassDecide .. | .slGet .. | .slMask .. | .phase .. | .netRedMaxi ..
  | .netRedSum .. | .netRedSumv .. | .netRedAnd .. | .netRedOr .. => 8
  | _ => 4

end Sys2Proof
end

