-- ==== Sys2Proof/Decode.lean ====
section
/-!
DEFINITION. The decoder and the encoder, from the encoding tables of R41-R79 (and the RISC-V base formats that R44
names). A word is taken apart into the fields of its format; the fields name one candidate instruction, and the
candidate stands only if it is well formed and encodes to the same fields, so that a nonzero reserved bit is refused
(R79).
-/

namespace Sys2Proof

/-- The fields of a 32-bit instruction in the R layout of R46; the other types put their immediates in the same
places. -/
structure R32 where
  op : BitVec 7
  rd : Reg := 0
  f3 : BitVec 3 := 0
  rs1 : Reg := 0
  rs2 : Reg := 0
  f7 : BitVec 7 := 0
deriving DecidableEq, Repr

/-- The fields of a 16-bit Zca instruction. -/
structure C16 where
  op : BitVec 2
  f3 : BitVec 3
  b : BitVec 1 := 0
  r1 : Reg := 0
  r2 : Reg := 0
deriving DecidableEq, Repr

/-- The fields of a long-format word (R51). -/
structure F64 where
  rd : Reg := 0
  cls : BitVec 5
  rs1 : Reg := 0
  rs2 : Reg := 0
  rs3 : Reg := 0
  rs4 : Reg := 0
  f8 : BitVec 8
  ed : BitVec 2 := 0
  la : BitVec 4 := 0
  fi : BitVec 1 := 0
  fo : BitVec 1 := 0
  rm : BitVec 3 := 0
  sat : BitVec 1 := 0
  sc : BitVec 3 := 0
  aux : BitVec 4 := 0
deriving DecidableEq, Repr

/-- The encoding of an instruction; `none` for the rows that have no encoding. -/
inductive Code where
  | c16 (c : C16)
  | w32 (r : R32)
  | w64 (f : F64)
  | none
deriving DecidableEq, Repr

/-- Why a bit pattern is no instruction (R41, R43-R45, R79). -/
inductive Reject where
  | length          -- a first parcel of 48, 80 or more bits (R41)
  | unknownOpcode   -- no row of the opcode map
  | reserved        -- a reserved bit or an illegal field value (R79)
  | otherCore       -- an instruction of the other kind of core (R14)
deriving DecidableEq, Repr

/-! ### Words of fields -/

def R32.toNat (r : R32) : Nat :=
  r.op.toNat + 2 ^ 7 * (r.rd.toNat + 2 ^ 5 * (r.f3.toNat + 2 ^ 3 * (r.rs1.toNat + 2 ^ 5 * (r.rs2.toNat
    + 2 ^ 5 * r.f7.toNat))))

def R32.ofNat (w : Nat) : R32 where
  op := BitVec.ofNat 7 w
  rd := BitVec.ofNat 5 (w / 2 ^ 7)
  f3 := BitVec.ofNat 3 (w / 2 ^ 12)
  rs1 := BitVec.ofNat 5 (w / 2 ^ 15)
  rs2 := BitVec.ofNat 5 (w / 2 ^ 20)
  f7 := BitVec.ofNat 7 (w / 2 ^ 25)

def C16.toNat (c : C16) : Nat :=
  c.op.toNat + 2 ^ 2 * (c.r2.toNat + 2 ^ 5 * (c.r1.toNat + 2 ^ 5 * (c.b.toNat + 2 * c.f3.toNat)))

def C16.ofNat (w : Nat) : C16 where
  op := BitVec.ofNat 2 w
  r2 := BitVec.ofNat 5 (w / 2 ^ 2)
  r1 := BitVec.ofNat 5 (w / 2 ^ 7)
  b := BitVec.ofNat 1 (w / 2 ^ 12)
  f3 := BitVec.ofNat 3 (w / 2 ^ 13)

/-- The length marker 0b011_1111 of R41. -/
def longMarker : Nat := 0x3F

def F64.toNat (f : F64) : Nat :=
  longMarker + 2 ^ 7 * (f.rd.toNat + 2 ^ 5 * (f.cls.toNat + 2 ^ 5 * (f.rs1.toNat + 2 ^ 5 * (f.rs2.toNat
    + 2 ^ 5 * (f.rs3.toNat + 2 ^ 5 * (f.rs4.toNat + 2 ^ 5 * (f.f8.toNat + 2 ^ 8 * (f.ed.toNat + 2 ^ 2 * (f.la.toNat
    + 2 ^ 4 * (f.fi.toNat + 2 * (f.fo.toNat + 2 * (f.rm.toNat + 2 ^ 3 * (f.sat.toNat + 2 * (f.sc.toNat
    + 2 ^ 3 * f.aux.toNat))))))))))))))

def F64.ofNat (w : Nat) : F64 where
  rd := BitVec.ofNat 5 (w / 2 ^ 7)
  cls := BitVec.ofNat 5 (w / 2 ^ 12)
  rs1 := BitVec.ofNat 5 (w / 2 ^ 17)
  rs2 := BitVec.ofNat 5 (w / 2 ^ 22)
  rs3 := BitVec.ofNat 5 (w / 2 ^ 27)
  rs4 := BitVec.ofNat 5 (w / 2 ^ 32)
  f8 := BitVec.ofNat 8 (w / 2 ^ 37)
  ed := BitVec.ofNat 2 (w / 2 ^ 45)
  la := BitVec.ofNat 4 (w / 2 ^ 47)
  fi := BitVec.ofNat 1 (w / 2 ^ 51)
  fo := BitVec.ofNat 1 (w / 2 ^ 52)
  rm := BitVec.ofNat 3 (w / 2 ^ 53)
  sat := BitVec.ofNat 1 (w / 2 ^ 56)
  sc := BitVec.ofNat 3 (w / 2 ^ 57)
  aux := BitVec.ofNat 4 (w / 2 ^ 60)

/-- Length in bytes from the first parcel (R41); 6 and 10 stand for the lengths that are illegal. -/
def parcelLen (p : Nat) : Nat :=
  if p % 4 ≠ 3 then 2
  else if p / 4 % 8 ≠ 7 then 4
  else if p % 64 = 31 then 6
  else if p % 128 = 63 then 8
  else 10

/-- Length in bytes of an encoding. -/
def Code.len : Code → Nat
  | .c16 _ => 2
  | .w32 _ => 4
  | .w64 _ => 8
  | .none => 0

/-- The word of an encoding, its first parcel in the low bits. -/
def Code.toNat : Code → Nat
  | .c16 c => c.toNat
  | .w32 r => r.toNat
  | .w64 f => f.toNat
  | .none => 0

/-- The low `n` bytes of a word, lowest first (R1). -/
def leBytes : Nat → Nat → List Byte
  | 0, _ => []
  | n + 1, w => BitVec.ofNat 8 w :: leBytes n (w / 256)

/-- A word from its bytes, lowest first. -/
def leNat : List Byte → Nat
  | [] => 0
  | b :: t => b.toNat + 256 * leNat t

/-- The bytes of an encoding as they lie in memory. -/
def Code.bytes (c : Code) : List Byte := leBytes c.len c.toNat

/-! ### Immediates -/

/-- Bit `i` of a vector, as one bit. -/
def bitAt {n : Nat} (v : BitVec n) (i : Nat) : BitVec 1 := v.extractLsb' i 1

def immI (r : R32) : BitVec 12 := r.f7 ++ r.rs2
def immS (r : R32) : BitVec 12 := r.f7 ++ r.rd
/-- Offset bits [12:1] of type B. -/
def immB (r : R32) : BitVec 12 :=
  bitAt r.f7 6 ++ bitAt r.rd 0 ++ r.f7.extractLsb' 0 6 ++ r.rd.extractLsb' 1 4
def immU (r : R32) : BitVec 20 := r.f7 ++ r.rs2 ++ r.rs1 ++ r.f3
/-- Offset bits [20:1] of type J. -/
def immJ (r : R32) : BitVec 20 :=
  bitAt r.f7 6 ++ r.rs1 ++ r.f3 ++ bitAt r.rs2 0 ++ r.f7.extractLsb' 0 6 ++ r.rs2.extractLsb' 1 4
def immL (r : R32) : BitVec 17 := r.f7 ++ r.rs2 ++ r.rs1

def encI (op : BitVec 7) (f3 : BitVec 3) (rd rs1 : Reg) (i : BitVec 12) : R32 :=
  ⟨op, rd, f3, rs1, i.extractLsb' 0 5, i.extractLsb' 5 7⟩
def encS (op : BitVec 7) (f3 : BitVec 3) (rs1 rs2 : Reg) (i : BitVec 12) : R32 :=
  ⟨op, i.extractLsb' 0 5, f3, rs1, rs2, i.extractLsb' 5 7⟩
def encB (op : BitVec 7) (f3 : BitVec 3) (rs1 rs2 : Reg) (o : BitVec 12) : R32 :=
  ⟨op, o.extractLsb' 0 4 ++ bitAt o 10, f3, rs1, rs2, bitAt o 11 ++ o.extractLsb' 4 6⟩
def encU (op : BitVec 7) (rd : Reg) (i : BitVec 20) : R32 :=
  ⟨op, rd, i.extractLsb' 0 3, i.extractLsb' 3 5, i.extractLsb' 8 5, i.extractLsb' 13 7⟩
def encJ (op : BitVec 7) (rd : Reg) (o : BitVec 20) : R32 :=
  ⟨op, rd, o.extractLsb' 11 3, o.extractLsb' 14 5, o.extractLsb' 0 4 ++ bitAt o 10, bitAt o 19 ++ o.extractLsb' 4 6⟩
def encL (op : BitVec 7) (f3 : BitVec 3) (rd : Reg) (i : BitVec 17) : R32 :=
  ⟨op, rd, f3, i.extractLsb' 0 5, i.extractLsb' 5 5, i.extractLsb' 10 7⟩

/-! ### Codes of the operation fields -/

/-- funct3, funct7 and the 32-bit bit of an RV64I operation. -/
def AluOp.f3 : AluOp → BitVec 3
  | .add | .sub | .addw | .subw => 0
  | .sll | .sllw => 1
  | .slt => 2
  | .sltu => 3
  | .xor => 4
  | .srl | .sra | .srlw | .sraw => 5
  | .or => 6
  | .and => 7

def AluOp.alt : AluOp → Bool
  | .sub | .subw | .sra | .sraw => true
  | _ => false

def AluOp.isW : AluOp → Bool
  | .addw | .subw | .sllw | .srlw | .sraw => true
  | _ => false

def AluOp.ofCodes (w : Bool) (f3 : BitVec 3) (alt : Bool) : Option AluOp :=
  match w, f3.toNat, alt with
  | false, 0, false => some .add
  | false, 0, true => some .sub
  | false, 1, false => some .sll
  | false, 2, false => some .slt
  | false, 3, false => some .sltu
  | false, 4, false => some .xor
  | false, 5, false => some .srl
  | false, 5, true => some .sra
  | false, 6, false => some .or
  | false, 7, false => some .and
  | true, 0, false => some .addw
  | true, 0, true => some .subw
  | true, 1, false => some .sllw
  | true, 5, false => some .srlw
  | true, 5, true => some .sraw
  | _, _, _ => none

def MulOp.codes : MulOp → BitVec 7 × BitVec 3
  | .mul => (0x33, 0) | .mulh => (0x33, 1) | .mulhsu => (0x33, 2) | .mulhu => (0x33, 3) | .mulw => (0x3B, 0)

def DivOp.codes : DivOp → BitVec 7 × BitVec 3
  | .div => (0x33, 4) | .divu => (0x33, 5) | .rem => (0x33, 6) | .remu => (0x33, 7)
  | .divw => (0x3B, 4) | .divuw => (0x3B, 5) | .remw => (0x3B, 6) | .remuw => (0x3B, 7)

def BrOp.f3 : BrOp → BitVec 3
  | .beq => 0 | .bne => 1 | .blt => 4 | .bge => 5 | .bltu => 6 | .bgeu => 7

def LdOp.f3 : LdOp → BitVec 3
  | .lb => 0 | .lh => 1 | .lw => 2 | .ld => 3 | .lbu => 4 | .lhu => 5 | .lwu => 6

def StOp.f3 : StOp → BitVec 3
  | .sb => 0 | .sh => 1 | .sw => 2 | .sd => 3

def RvAmo.f5 : RvAmo → BitVec 5
  | .swap => 1 | .add => 0 | .xor => 4 | .and => 12 | .or => 8 | .min => 16 | .max => 20 | .minu => 24 | .maxu => 28

/-- One bit of a Boolean. -/
def bit1 (b : Bool) : BitVec 1 := if b then 1 else 0

/-! ### The encoder -/

def ZcaOp.enc : ZcaOp → C16
  | .addi4spn rd v => ⟨0, 0, bitAt v 3, bitAt v 2 ++ v.extractLsb' 4 4, bitAt v 0 ++ bitAt v 1 ++ rd⟩
  | .lw rd rs1 v => ⟨0, 2, bitAt v 3, v.extractLsb' 1 2 ++ rs1, bitAt v 0 ++ bitAt v 4 ++ rd⟩
  | .ld rd rs1 v => ⟨0, 3, bitAt v 2, v.extractLsb' 0 2 ++ rs1, v.extractLsb' 3 2 ++ rd⟩
  | .sw rs2 rs1 v => ⟨0, 6, bitAt v 3, v.extractLsb' 1 2 ++ rs1, bitAt v 0 ++ bitAt v 4 ++ rs2⟩
  | .sd rs2 rs1 v => ⟨0, 7, bitAt v 2, v.extractLsb' 0 2 ++ rs1, v.extractLsb' 3 2 ++ rs2⟩
  | .addi rd v => ⟨1, 0, bitAt v 5, rd, v.extractLsb' 0 5⟩
  | .addiw rd v => ⟨1, 1, bitAt v 5, rd, v.extractLsb' 0 5⟩
  | .li rd v => ⟨1, 2, bitAt v 5, rd, v.extractLsb' 0 5⟩
  | .addi16sp v => ⟨1, 3, bitAt v 5, 2, bitAt v 0 ++ bitAt v 2 ++ v.extractLsb' 3 2 ++ bitAt v 1⟩
  | .lui rd v => ⟨1, 3, bitAt v 5, rd, v.extractLsb' 0 5⟩
  | .srli rd v => ⟨1, 4, bitAt v 5, (0 : BitVec 2) ++ rd, v.extractLsb' 0 5⟩
  | .srai rd v => ⟨1, 4, bitAt v 5, (1 : BitVec 2) ++ rd, v.extractLsb' 0 5⟩
  | .andi rd v => ⟨1, 4, bitAt v 5, (2 : BitVec 2) ++ rd, v.extractLsb' 0 5⟩
  | .sub rd rs2 => ⟨1, 4, 0, (3 : BitVec 2) ++ rd, (0 : BitVec 2) ++ rs2⟩
  | .xor rd rs2 => ⟨1, 4, 0, (3 : BitVec 2) ++ rd, (1 : BitVec 2) ++ rs2⟩
  | .or rd rs2 => ⟨1, 4, 0, (3 : BitVec 2) ++ rd, (2 : BitVec 2) ++ rs2⟩
  | .and rd rs2 => ⟨1, 4, 0, (3 : BitVec 2) ++ rd, (3 : BitVec 2) ++ rs2⟩
  | .subw rd rs2 => ⟨1, 4, 1, (3 : BitVec 2) ++ rd, (0 : BitVec 2) ++ rs2⟩
  | .addw rd rs2 => ⟨1, 4, 1, (3 : BitVec 2) ++ rd, (1 : BitVec 2) ++ rs2⟩
  | .j v => ⟨1, 5, bitAt v 10, bitAt v 3 ++ v.extractLsb' 7 2 ++ bitAt v 9 ++ bitAt v 5,
      bitAt v 6 ++ v.extractLsb' 0 3 ++ bitAt v 4⟩
  | .beqz rs1 v => ⟨1, 6, bitAt v 7, v.extractLsb' 2 2 ++ rs1, v.extractLsb' 5 2 ++ v.extractLsb' 0 2 ++ bitAt v 4⟩
  | .bnez rs1 v => ⟨1, 7, bitAt v 7, v.extractLsb' 2 2 ++ rs1, v.extractLsb' 5 2 ++ v.extractLsb' 0 2 ++ bitAt v 4⟩
  | .slli rd v => ⟨2, 0, bitAt v 5, rd, v.extractLsb' 0 5⟩
  | .lwsp rd v => ⟨2, 2, bitAt v 3, rd, v.extractLsb' 0 3 ++ v.extractLsb' 4 2⟩
  | .ldsp rd v => ⟨2, 3, bitAt v 2, rd, v.extractLsb' 0 2 ++ v.extractLsb' 3 3⟩
  | .jr rs1 => ⟨2, 4, 0, rs1, 0⟩
  | .mv rd rs2 => ⟨2, 4, 0, rd, rs2⟩
  | .ebreak => ⟨2, 4, 1, 0, 0⟩
  | .jalr rs1 => ⟨2, 4, 1, rs1, 0⟩
  | .add rd rs2 => ⟨2, 4, 1, rd, rs2⟩
  | .swsp rs2 v => ⟨2, 6, bitAt v 3, v.extractLsb' 0 3 ++ v.extractLsb' 4 2, rs2⟩
  | .sdsp rs2 v => ⟨2, 7, bitAt v 2, v.extractLsb' 0 2 ++ v.extractLsb' 3 3, rs2⟩

def RvFp.f7f3 : RvFp → BitVec 5 × Option (BitVec 3)
  | .add => (0, none) | .sub => (1, none) | .mul => (2, none) | .div => (3, none) | .sqrt => (11, none)
  | .sgnj => (4, some 0) | .sgnjn => (4, some 1) | .sgnjx => (4, some 2) | .min => (5, some 0) | .max => (5, some 1)

/-- The 2-bit fmt field of RISC-V: 0 single, 1 double. -/
def fmt2 (dbl : Bool) : BitVec 2 := if dbl then 1 else 0

def amoF3 (dw : Bool) : BitVec 3 := if dw then 3 else 2

def RvgOp.enc : RvgOp → Code
  | .lr dw aq rl rd rs1 => .w32 ⟨0x2F, rd, amoF3 dw, rs1, 0, (2 : BitVec 5) ++ bit1 aq ++ bit1 rl⟩
  | .sc dw aq rl rd rs1 rs2 => .w32 ⟨0x2F, rd, amoF3 dw, rs1, rs2, (3 : BitVec 5) ++ bit1 aq ++ bit1 rl⟩
  | .amo op dw aq rl rd rs1 rs2 => .w32 ⟨0x2F, rd, amoF3 dw, rs1, rs2, op.f5 ++ bit1 aq ++ bit1 rl⟩
  | .fload dbl rd rs1 i => .w32 (encI 0x07 (amoF3 dbl) rd rs1 i)
  | .fstore dbl rs2 rs1 i => .w32 (encS 0x27 (amoF3 dbl) rs1 rs2 i)
  | .fma neg sub dbl rm rd rs1 rs2 rs3 =>
    .w32 ⟨(8 : BitVec 3) ++ bit1 neg ++ bit1 sub ++ (3 : BitVec 2) ||| 0x40, rd, rm, rs1, rs2, rs3 ++ fmt2 dbl⟩
  | .fop op dbl rm rd rs1 rs2 => .w32 ⟨0x53, rd, op.f7f3.2.getD rm, rs1, rs2, op.f7f3.1 ++ fmt2 dbl⟩
  | .fcmp k dbl rd rs1 rs2 => .w32 ⟨0x53, rd, (0 : BitVec 1) ++ k, rs1, rs2, (20 : BitVec 5) ++ fmt2 dbl⟩
  | .fclass dbl rd rs1 => .w32 ⟨0x53, rd, 1, rs1, 0, (28 : BitVec 5) ++ fmt2 dbl⟩
  | .fcvtToInt dbl k rm rd rs1 => .w32 ⟨0x53, rd, rm, rs1, (0 : BitVec 3) ++ k, (24 : BitVec 5) ++ fmt2 dbl⟩
  | .fcvtFromInt dbl k rm rd rs1 => .w32 ⟨0x53, rd, rm, rs1, (0 : BitVec 3) ++ k, (26 : BitVec 5) ++ fmt2 dbl⟩
  | .fcvtFF toDbl rm rd rs1 =>
    .w32 ⟨0x53, rd, rm, rs1, if toDbl then 0 else 1, (8 : BitVec 5) ++ fmt2 toDbl⟩
  | .fmvToX dbl rd rs1 => .w32 ⟨0x53, rd, 0, rs1, 0, (28 : BitVec 5) ++ fmt2 dbl⟩
  | .fmvFromX dbl rd rs1 => .w32 ⟨0x53, rd, 0, rs1, 0, (30 : BitVec 5) ++ fmt2 dbl⟩
  | .fenceI i rd rs1 => .w32 (encI 0x0F 1 rd rs1 i)
  | .sret => .w32 ⟨0x73, 0, 0, 0, 2, 8⟩
  | .wfi => .w32 ⟨0x73, 0, 0, 0, 5, 8⟩
  | .sfenceVma rs1 rs2 => .w32 ⟨0x73, 0, 0, rs1, rs2, 9⟩
  | .cfld rd rs1 v => .c16 ⟨0, 1, bitAt v 2, v.extractLsb' 0 2 ++ rs1, v.extractLsb' 3 2 ++ rd⟩
  | .cfsd rs2 rs1 v => .c16 ⟨0, 5, bitAt v 2, v.extractLsb' 0 2 ++ rs1, v.extractLsb' 3 2 ++ rs2⟩
  | .cfldsp rd v => .c16 ⟨2, 1, bitAt v 2, rd, v.extractLsb' 0 2 ++ v.extractLsb' 3 3⟩
  | .cfsdsp rs2 v => .c16 ⟨2, 5, bitAt v 2, v.extractLsb' 0 2 ++ v.extractLsb' 3 3, rs2⟩

/-- A custom-0 R form (R47). -/
def c0 (f7 : BitVec 7) (rd rs1 rs2 : Reg) : Code := .w32 ⟨0x0B, rd, 0, rs1, rs2, f7⟩
/-- A custom-1 atomic (R48). -/
def c1a (op : BitVec 5) (acq rel : Bool) (sc : BitVec 3) (rd rs1 rs2 : Reg) : Code :=
  .w32 ⟨0x2B, rd, sc, rs1, rs2, op ++ bit1 acq ++ bit1 rel⟩
/-- A custom-2 R form (R49). -/
def c2 (f7 : BitVec 7) (rd rs1 rs2 : Reg) : Code := .w32 ⟨0x5B, rd, 0, rs1, rs2, f7⟩
/-- A custom-2 P form. -/
def c2p (op : BitVec 4) (sc : BitVec 3) (rd rs1 rs2 : Reg) : Code := .w32 ⟨0x5B, rd, 1, rs1, rs2, op ++ sc⟩
/-- A custom-2 W form. -/
def c2w (op : BitVec 4) (b : BitVec 6) (rd rs1 : Reg) : Code :=
  .w32 ⟨0x5B, rd, 2, rs1, b.extractLsb' 0 5, op ++ (0 : BitVec 2) ++ bitAt b 5⟩
/-- A custom-3 R form (R50). -/
def c3 (f7 : BitVec 7) (rd rs1 rs2 : Reg) : Code := .w32 ⟨0x7B, rd, 0, rs1, rs2, f7⟩

/-- A long-format word from its class, function code, optional fields and registers. -/
def lng (cls : BitVec 5) (f8 : BitVec 8) (o : LOpts) (aux : BitVec 4) (rd rs1 rs2 rs3 rs4 : Reg)
    (sc : BitVec 3 := 0) : Code :=
  .w64 ⟨rd, cls, rs1, rs2, rs3, rs4, f8, if o.ed1 then 1 else 0, o.la, bit1 o.fi, bit1 o.fo, o.rm, bit1 o.sat, sc, aux⟩

/-- A mask register number in a five-bit field. -/
def mreg (m : BitVec 3) : Reg := (0 : BitVec 2) ++ m

/-- Class `cls` operation `op` on format `f`: funct8 is `op ++ f` (R66). -/
def lngF (cls : BitVec 5) (op f : BitVec 4) (o : LOpts) (aux : BitVec 4) (rd rs1 rs2 rs3 : Reg) : Code :=
  lng cls (op ++ f) o aux rd rs1 rs2 rs3 (mreg o.m)

/-- aux with the signedness bit. -/
def auxU (e : Elem) (low : BitVec 3 := 0) : BitVec 4 := bit1 e.uns ++ low

/-- The encoding of an instruction. -/
def encode : Instr → Code
  | .rv64iAlu op rd rs1 src =>
    match src with
    | .reg rs2 => .w32 ⟨if op.isW then 0x3B else 0x33, rd, op.f3, rs1, rs2, if op.alt then 0x20 else 0⟩
    | .imm i => .w32 (encI (if op.isW then 0x1B else 0x13) op.f3 rd rs1 (if op.alt then i ||| 0x400 else i))
  | .lui rd i => .w32 (encU 0x37 rd i)
  | .auipc rd i => .w32 (encU 0x17 rd i)
  | .mul op rd rs1 rs2 => .w32 ⟨op.codes.1, rd, op.codes.2, rs1, rs2, 1⟩
  | .div op rd rs1 rs2 => .w32 ⟨op.codes.1, rd, op.codes.2, rs1, rs2, 1⟩
  | .branch op rs1 rs2 o => .w32 (encB 0x63 op.f3 rs1 rs2 o)
  | .jal rd o => .w32 (encJ 0x6F rd o)
  | .jalr rd rs1 i => .w32 (encI 0x67 0 rd rs1 i)
  | .scalarLoad op rd rs1 i => .w32 (encI 0x03 op.f3 rd rs1 i)
  | .scalarStore op rs2 rs1 i => .w32 (encS 0x23 op.f3 rs1 rs2 i)
  | .fence fm pred succ rs1 rd => .w32 (encI 0x0F 0 rd rs1 (fm ++ pred ++ succ))
  | .ecall => .w32 ⟨0x73, 0, 0, 0, 0, 0⟩
  | .ebreak => .w32 ⟨0x73, 0, 0, 0, 1, 0⟩
  | .csrrw rd c rs1 => .w32 (encI 0x73 1 rd rs1 c)
  | .csrrs rd c rs1 => .w32 (encI 0x73 2 rd rs1 c)
  | .csrrc rd c rs1 => .w32 (encI 0x73 3 rd rs1 c)
  | .csrrwi rd c z => .w32 (encI 0x73 5 rd z c)
  | .csrrsi rd c z => .w32 (encI 0x73 6 rd z c)
  | .csrrci rd c z => .w32 (encI 0x73 7 rd z c)
  | .zcaInstruction c => .c16 c.enc
  | .illegalInstruction _ => .none
  | .lpSet n cnt fin => c0 0 ((0 : BitVec 4) ++ n) cnt fin
  | .lpOff n => c0 1 ((0 : BitVec 4) ++ n) 0 0
  | .lpSetup n cnt i => .w32 (encI 0x0B 1 ((0 : BitVec 4) ++ n) cnt i)
  | .lpSetupi n cnt i => .w32 (encI 0x0B 2 ((0 : BitVec 4) ++ n) cnt i)
  | .killX a b => c0 2 0 a b
  | .killV a b => c0 3 0 a b
  | .jalD rd i => .w32 (encL 0x0B 4 rd i)
  | .jalrD rd rs1 i => .w32 (encI 0x0B 3 rd rs1 i)
  | .chorusForm rd size => c0 4 rd 0 ((0 : BitVec 3) ++ size)
  | .chorusLeave => c0 5 0 0 0
  | .chorusId rd => c0 6 rd 0 0
  | .safept n => .w32 (encL 0x0B 5 0 ((0 : BitVec 1) ++ n))
  | .cueResume rd rs1 => c0 8 rd rs1 0
  | .cueYield rs1 => c0 9 0 rs1 0
  | .cueSpawn rd rs1 rs2 => c0 10 rd rs1 rs2
  | .cueWait rd rs1 rs2 => c0 11 rd rs1 rs2
  | .cueExit => c0 12 0 0 0
  | .cueSelf rd => c0 13 rd 0 0
  | .salloc rd rs1 rs2 => c0 16 rd rs1 rs2
  | .sallocA rd rs1 rs2 => c0 17 rd rs1 rs2
  | .sfree rd rs1 => c0 18 rd rs1 0
  | .genRd rd rs1 sel => c0 19 rd rs1 ((0 : BitVec 3) ++ sel)
  | .tret => c0 24 0 0 0
  | .amoAdd acq rel sc rd rs1 rs2 => c1a 0 acq rel sc rd rs1 rs2
  | .amoSwap acq rel sc rd rs1 rs2 => c1a 1 acq rel sc rd rs1 rs2
  | .amoCas acq rel sc rd rs1 rs2 => c1a 2 acq rel sc rd rs1 rs2
  | .amoMin acq rel sc rd rs1 rs2 => c1a 3 acq rel sc rd rs1 rs2
  | .amoMax acq rel sc rd rs1 rs2 => c1a 4 acq rel sc rd rs1 rs2
  | .amoMinu acq rel sc rd rs1 rs2 => c1a 5 acq rel sc rd rs1 rs2
  | .amoMaxu acq rel sc rd rs1 rs2 => c1a 6 acq rel sc rd rs1 rs2
  | .amoAnd acq rel sc rd rs1 rs2 => c1a 7 acq rel sc rd rs1 rs2
  | .amoOr acq rel sc rd rs1 rs2 => c1a 8 acq rel sc rd rs1 rs2
  | .amoXor acq rel sc rd rs1 rs2 => c1a 9 acq rel sc rd rs1 rs2
  | .amoAddb acq rel sc rd rs1 rs2 => c1a 10 acq rel sc rd rs1 rs2
  | .sbind s rs1 => .w32 ⟨0x2B, 0, 6, rs1, (0 : BitVec 3) ++ s, 0⟩
  | .sunbind s => .w32 ⟨0x2B, 0, 6, 0, (0 : BitVec 3) ++ s, 1⟩
  | .sstat rd s => .w32 ⟨0x2B, rd, 6, 0, (0 : BitVec 3) ++ s, 2⟩
  | .seal rd rs1 rs2 => .w32 ⟨0x2B, rd, 6, rs1, rs2, 3⟩
  | .unseal rd rs1 rs2 => .w32 ⟨0x2B, rd, 6, rs1, rs2, 4⟩
  | .msgRecv rd rs1 => c2 0 rd rs1 0
  | .msgPoll rd rs1 => c2 1 rd rs1 0
  | .msgPut n rs1 rs2 => c2 2 n rs1 rs2
  | .dqPush rd vs rs2 => c2 3 rd vs rs2
  | .dqPop vd rs1 => c2 4 vd rs1 0
  | .qPushX n rs1 => c2 5 0 rs1 ((0 : BitVec 3) ++ n)
  | .qPushV n vs => c2 5 1 vs ((0 : BitVec 3) ++ n)
  | .qPopX rd => c2 6 rd 0 3
  | .qPopV vd => c2 6 vd 1 3
  | .qStat rd n => c2 7 rd 0 ((0 : BitVec 3) ++ n)
  | .svcCall rd rs1 => c2 8 rd rs1 0
  | .qkSet rs1 => c2 9 0 rs1 0
  | .qkScan rd rs1 => c2 10 rd rs1 0
  | .jlPut rd rs1 rs2 => c2 11 rd rs1 rs2
  | .barInit rs1 rs2 => c2 12 0 rs1 rs2
  | .publish sc => c2p 0 sc 0 0 0
  | .refresh sc => c2p 1 sc 0 0 0
  | .msgSend rs1 rs2 => c2p 2 0 0 rs1 rs2
  | .msgSendRel sc rs1 rs2 => c2p 3 sc 0 rs1 rs2
  | .barBind b rs1 => c2w 0 b 0 rs1
  | .barArrive rd rs1 b => c2w 1 b rd rs1
  | .barWait rd rs1 b => c2w 2 b rd rs1
  | .vaddFp o f vd va vb => lngF 1 0 f o 0 vd va vb 0
  | .vsubFp o f vd va vb => lngF 1 1 f o 0 vd va vb 0
  | .vmulFp o f vd va vb => lngF 1 2 f o 0 vd va vb 0
  | .vfma o f vd va vb vc => lngF 1 3 f o 0 vd va vb vc
  | .vfms o f vd va vb vc => lngF 1 4 f o 0 vd va vb vc
  | .vdiv o f vd va vb => lngF 1 5 f o 0 vd va vb 0
  | .vsqrt o f vd va => lngF 1 6 f o 0 vd va 0 0
  | .vminFp o f vd va vb => lngF 1 7 f o 0 vd va vb 0
  | .vmaxFp o f vd va vb => lngF 1 8 f o 0 vd va vb 0
  | .vcmpFp o f c md va vb => lngF 1 9 f o ((0 : BitVec 1) ++ c) (mreg md) va vb 0
  | .vlmul o vd va vb => lngF 1 10 7 o 0 vd va vb 0
  | .vldot o g vd va vb => lngF 1 11 7 o 0 vd va vb ((0 : BitVec 3) ++ g)
  | .vgumbel o vd va xs xb => lngF 1 12 2 o 0 vd va xs xb
  | .vaddInt o e vd va vb => lngF 2 0 e.code o (auxU e) vd va vb 0
  | .vsubInt o e vd va vb => lngF 2 1 e.code o (auxU e) vd va vb 0
  | .vmulInt o e vd va vb => lngF 2 2 e.code o (auxU e) vd va vb 0
  | .vminInt o e vd va vb => lngF 2 3 e.code o (auxU e) vd va vb 0
  | .vmaxInt o e vd va vb => lngF 2 4 e.code o (auxU e) vd va vb 0
  | .vsll o f vd va vb => lngF 2 5 f o 0 vd va vb 0
  | .vsrl o f vd va vb => lngF 2 6 f o 0 vd va vb 0
  | .vsra o f vd va vb => lngF 2 7 f o 0 vd va vb 0
  | .vand o f vd va vb => lngF 2 8 f o 0 vd va vb 0
  | .vor o f vd va vb => lngF 2 9 f o 0 vd va vb 0
  | .vxor o f vd va vb => lngF 2 10 f o 0 vd va vb 0
  | .vcmpInt o e c md va vb => lngF 2 11 e.code o (auxU e c) (mreg md) va vb 0
  | .vsel o f vd va vb ms => lngF 2 12 f o 0 vd va vb (mreg ms)
  | .vmlog o op md ma mb => lngF 2 13 0 o ((0 : BitVec 1) ++ op) (mreg md) (mreg ma) (mreg mb) 0
  | .vmpop o xd ma => lngF 2 14 0 o 0 xd (mreg ma) 0 0
  | .vcvt o d s vd va p => lngF 3 0 d.code o (auxU d) vd va (bit1 s.uns ++ s.code) p
  | .vtag o f vd va => lngF 3 1 f o 0 vd va 0 0
  | .vpackt o vd va => lngF 3 2 8 o 0 vd va 0 0
  | .vunpackt o vd va => lngF 3 3 8 o 0 vd va 0 0
  | .vosplit o f s vd va j => lngF 3 4 f o 0 vd va ((0 : BitVec 1) ++ s) ((0 : BitVec 3) ++ j)
  | .vrcp o f vd va => lngF 4 0 f o 0 vd va 0 0
  | .vrsqrt o f vd va => lngF 4 1 f o 0 vd va 0 0
  | .vexp2 o f vd va => lngF 4 2 f o 0 vd va 0 0
  | .vlog2 o f vd va => lngF 4 3 f o 0 vd va 0 0
  | .vredsum o e vd va => lngF 5 0 e.code o (auxU e) vd va 0 0
  | .vredmax o e vd va => lngF 5 1 e.code o (auxU e) vd va 0 0
  | .vredmin o e vd va => lngF 5 2 e.code o (auxU e) vd va 0 0
  | .vargmax o e vd va vb => lngF 5 3 e.code o (auxU e) vd va vb 0
  | .vperm o f vd va vb => lngF 5 4 f o 0 vd va vb 0
  | .vslide o f vd va vb => lngF 5 5 f o 0 vd va vb 0
  | .vbcast o f vd va vb => lngF 5 6 f o 0 vd va vb 0
  | .vins o f vd va vb => lngF 5 7 f o 0 vd va vb 0
  | .vext o f vd va vb => lngF 5 8 f o 0 vd va vb 0
  | .vld o e vd xa off => lngF 6 0 e.code o (auxU e) vd xa 0 off
  | .vldDiag o e vd xt => lngF 6 0 e.code o (auxU e 1) vd xt 0 0
  | .vst o e vd xa off => lngF 6 1 e.code o (auxU e) vd xa 0 off
  | .vstDiag o e vd xt => lngF 6 1 e.code o (auxU e 1) vd xt 0 0
  | .vlds o e vd va vb => lngF 6 2 e.code o (auxU e) vd va vb 0
  | .vsts o e vd va vb => lngF 6 3 e.code o (auxU e) vd va vb 0
  | .vldx o e vd va vb => lngF 6 4 e.code o (auxU e) vd va vb 0
  | .vstx o e vd va vb => lngF 6 5 e.code o (auxU e) vd va vb 0
  | .tdecl o xt xb xs => lngF 6 6 0 o 0 0 xt xb xs
  | .mxMma o z c xd xa xb xc xn => lng 7 0x00 o ((0 : BitVec 2) ++ bit1 c ++ bit1 z) xd xa xb xc xn
  | .mxMmsp o z c xd xa xb xc xn => lng 7 0x10 o ((0 : BitVec 2) ++ bit1 c ++ bit1 z) xd xa xb xc xn
  | .mxZero o xc xn => lng 7 0x20 o 0 0 xc xn 0 0
  | .mxLd o raw g vd xc => lng 7 0x30 o ((0 : BitVec 3) ++ bit1 raw) vd xc 0 ((0 : BitVec 3) ++ g) 0
  | .mxSt o g vs xc => lng 7 0x40 o 0 vs xc 0 ((0 : BitVec 3) ++ g) 0
  | .mxCfg o xa => lng 7 0x50 o 0 0 xa 0 0 0
  | .mxTask o xd xa => lng 7 0x60 o 0 xd xa 0 0 0
  | .slCfg o xa => lng 8 0 o 0 0 xa 0 0 0
  | .slCfgClose o => lng 8 0 o 1 0 0 0 0 0
  | .slRun o xd => lng 8 0x10 o 0 xd 0 0 0 0
  | .slPassCount o xd xa => lng 8 0x20 o 0 xd xa 0 0 0
  | .slPassDecide o xd xa => lng 8 0x20 o 1 xd xa 0 0 0
  | .slGet o sel xd => lng 8 0x30 o ((0 : BitVec 1) ++ sel) xd 0 0 0 0
  | .slMask o mode xd xa xq => lng 8 0x40 o ((0 : BitVec 2) ++ mode) xd xa xq 0 0
  | .phase o op sc b xd xv => lng 9 ((0 : BitVec 2) ++ b) o ((0 : BitVec 2) ++ op) xd xv 0 0 0 sc
  | .netRedMaxi o sc ctx vd va => lng 10 ctx o 0 vd va 0 0 0 sc
  | .netRedSum o sc ctx xd xa => lng 10 ctx o 1 xd xa 0 0 0 sc
  | .netRedSumv o sc ctx xd xa => lng 10 ctx o 2 xd xa 0 0 0 sc
  | .netRedAnd o sc ctx xd xa => lng 10 ctx o 3 xd xa 0 0 0 sc
  | .netRedOr o sc ctx xd xa => lng 10 ctx o 4 xd xa 0 0 0 sc
  | .bcNext rd rs1 rs2 => c3 0 rd rs1 rs2
  | .icInv rs1 => c3 1 0 rs1 0
  | .txIssue rd rs1 => c3 2 rd rs1 0
  | .txWait rd rs1 => c3 3 rd rs1 0
  | .rcInc rd rs1 => c3 4 rd rs1 0
  | .rcDec rd rs1 => c3 5 rd rs1 0
  | .icLd rd rs1 i => .w32 (encI 0x7B 1 rd rs1 i)
  | .icSt rs2 rs1 i => .w32 (encS 0x7B 2 rs1 rs2 i)
  | .gdShape rs1 rs2 o => .w32 (encB 0x7B 3 rs1 rs2 o)
  | .gdTag rs1 rs2 o => .w32 (encB 0x7B 4 rs1 rs2 o)
  | .obLd rd rs1 i => .w32 (encI 0x7B 5 rd rs1 i)
  | .obSt rs2 rs1 i => .w32 (encS 0x7B 6 rs1 rs2 i)
  | .rv64gcInstruction op => op.enc
  | .lookaheadCompletion .. | .streamReadAhead .. | .streamCsrBind .. | .messageDelivery _ | .depositArrival ..
  | .taskIssue .. | .taskCompletion .. | .selectionJob _ | .copy1d .. | .copy2d .. | .gather .. | .fill ..
  | .decompress .. | .decompressBlock .. | .winstore .. | .landingBufferDelivery .. | .copyCompletion ..
  | .exceptionEntryRegister _ | .storageReleaseEcall _ | .holdRelease .. | .heldRingDrain _ | .castDispatch _
  | .vacateWatchdogExpiry _ | .helperVacateTimeout _ | .castingControlWrite .. | .sweeperVisit .. | .reset
  | .playLaunch .. | .seedPortStore .. | .queueSlotSignalCheck _ | .waitCycleTimeout _ | .playCompletion _
  | .playCompletionDelivery _ | .qsetWrite .. | .imemMachineCheck _ | .heartbeatTimeout _ | .takeOver _
  | .serviceCallReply .. | .attestationService _ | .firmwareSwitch .. | .faultBatch .. | .tenantEnd _
  | .partitionMapChange .. | .shootdownRequest .. | .hostMemoryWrite .. | .hostMemoryRead .. | .configRequest
  | .doorbell _ | .capWrite _ | .dumpAck | .readWearCounters | .attestationReport | .readFatalRecord | .stopQueue
  | .resumeQueue | .mailboxUnknownCommand | .hostRegisterWrite .. | .powerUp _ | .powerSample .. | .clockStepUp
  | .hbmScrub .. | .sramScrub .. | .recalibration | .wearCheckpoint | .telemetrySample | .fatalError .. | .ixdbRun ..
  | .ixdbBreak _ | .ixdbCont | .ixdbStep _ | .ixdbStepi | .ixdbHart _ | .ixdbFollow _ | .ixdbRegs _ | .ixdbMem ..
  | .ixdbBank .. | .ixdbCue _ | .ixdbExplain _ | .ixdbList | .ixdbQuit | .ixdbCall .. | .ixdbEngineHold _
  | .ixdbEngineRelease _ | .ixdbTakeover .. | .ixdbInject _ | .ixdbJournal _ | .ixdbPtab _ | .ixdbQueue _ | .ixdbKicks
  | .ixdbWatch _ | .debuggerWrite .. | .localInterrupt17Service _ | .forensicEntryRelease .. | .powerLoss
  | .orderlyShutdown | .hostLinkRetrain .. | .hartReset _ | .stagehouseUnpark .. | .refreshManagement
  | .interpreterContextSwitch .. => .none

/-! ### Candidates -/

/-- The Zca candidate of a parcel. -/
def ZcaOp.cand (c : C16) : Option ZcaOp :=
  match c.op.toNat, c.f3.toNat with
  | 0, 0 => some (.addi4spn (c.r2.extractLsb' 0 3)
      (c.r1.extractLsb' 0 4 ++ c.b ++ bitAt c.r1 4 ++ bitAt c.r2 3 ++ bitAt c.r2 4))
  | 0, 2 => some (.lw (c.r2.extractLsb' 0 3) (c.r1.extractLsb' 0 3)
      (bitAt c.r2 3 ++ c.b ++ c.r1.extractLsb' 3 2 ++ bitAt c.r2 4))
  | 0, 3 => some (.ld (c.r2.extractLsb' 0 3) (c.r1.extractLsb' 0 3) (c.r2.extractLsb' 3 2 ++ c.b ++ c.r1.extractLsb' 3 2))
  | 0, 6 => some (.sw (c.r2.extractLsb' 0 3) (c.r1.extractLsb' 0 3)
      (bitAt c.r2 3 ++ c.b ++ c.r1.extractLsb' 3 2 ++ bitAt c.r2 4))
  | 0, 7 => some (.sd (c.r2.extractLsb' 0 3) (c.r1.extractLsb' 0 3) (c.r2.extractLsb' 3 2 ++ c.b ++ c.r1.extractLsb' 3 2))
  | 1, 0 => some (.addi c.r1 (c.b ++ c.r2))
  | 1, 1 => some (.addiw c.r1 (c.b ++ c.r2))
  | 1, 2 => some (.li c.r1 (c.b ++ c.r2))
  | 1, 3 =>
    if c.r1 = 2 then
      some (.addi16sp (c.b ++ c.r2.extractLsb' 1 2 ++ bitAt c.r2 3 ++ bitAt c.r2 0 ++ bitAt c.r2 4))
    else some (.lui c.r1 (c.b ++ c.r2))
  | 1, 4 =>
    let rd := c.r1.extractLsb' 0 3
    let rs2 := c.r2.extractLsb' 0 3
    match (c.r1.extractLsb' 3 2).toNat, c.b.toNat, (c.r2.extractLsb' 3 2).toNat with
    | 0, _, _ => some (.srli rd (c.b ++ c.r2))
    | 1, _, _ => some (.srai rd (c.b ++ c.r2))
    | 2, _, _ => some (.andi rd (c.b ++ c.r2))
    | 3, 0, 0 => some (.sub rd rs2)
    | 3, 0, 1 => some (.xor rd rs2)
    | 3, 0, 2 => some (.or rd rs2)
    | 3, 0, 3 => some (.and rd rs2)
    | 3, 1, 0 => some (.subw rd rs2)
    | 3, 1, 1 => some (.addw rd rs2)
    | _, _, _ => none
  | 1, 5 => some (.j (c.b ++ bitAt c.r1 1 ++ c.r1.extractLsb' 2 2 ++ bitAt c.r2 4 ++ bitAt c.r1 0 ++ bitAt c.r2 0
      ++ bitAt c.r1 4 ++ c.r2.extractLsb' 1 3))
  | 1, 6 => some (.beqz (c.r1.extractLsb' 0 3) (c.b ++ c.r2.extractLsb' 3 2 ++ bitAt c.r2 0 ++ c.r1.extractLsb' 3 2
      ++ c.r2.extractLsb' 1 2))
  | 1, 7 => some (.bnez (c.r1.extractLsb' 0 3) (c.b ++ c.r2.extractLsb' 3 2 ++ bitAt c.r2 0 ++ c.r1.extractLsb' 3 2
      ++ c.r2.extractLsb' 1 2))
  | 2, 0 => some (.slli c.r1 (c.b ++ c.r2))
  | 2, 2 => some (.lwsp c.r1 (c.r2.extractLsb' 0 2 ++ c.b ++ c.r2.extractLsb' 2 3))
  | 2, 3 => some (.ldsp c.r1 (c.r2.extractLsb' 0 3 ++ c.b ++ c.r2.extractLsb' 3 2))
  | 2, 4 =>
    if c.b = 0 then (if c.r2 = 0 then some (.jr c.r1) else some (.mv c.r1 c.r2))
    else if c.r2 = 0 then (if c.r1 = 0 then some .ebreak else some (.jalr c.r1))
    else some (.add c.r1 c.r2)
  | 2, 6 => some (.swsp c.r2 (c.r1.extractLsb' 0 2 ++ c.b ++ c.r1.extractLsb' 2 3))
  | 2, 7 => some (.sdsp c.r2 (c.r1.extractLsb' 0 3 ++ c.b ++ c.r1.extractLsb' 3 2))
  | _, _ => none

/-- The 16-bit candidate: Zca, or a compressed floating-point form of RV64GC. -/
def cand16 (c : C16) : Option Instr :=
  match c.op.toNat, c.f3.toNat with
  | 0, 1 => some (.rv64gcInstruction (.cfld (c.r2.extractLsb' 0 3) (c.r1.extractLsb' 0 3)
      (c.r2.extractLsb' 3 2 ++ c.b ++ c.r1.extractLsb' 3 2)))
  | 0, 5 => some (.rv64gcInstruction (.cfsd (c.r2.extractLsb' 0 3) (c.r1.extractLsb' 0 3)
      (c.r2.extractLsb' 3 2 ++ c.b ++ c.r1.extractLsb' 3 2)))
  | 2, 1 => some (.rv64gcInstruction (.cfldsp c.r1 (c.r2.extractLsb' 0 3 ++ c.b ++ c.r2.extractLsb' 3 2)))
  | 2, 5 => some (.rv64gcInstruction (.cfsdsp c.r2 (c.r1.extractLsb' 0 3 ++ c.b ++ c.r1.extractLsb' 3 2)))
  | _, _ => (ZcaOp.cand c).map .zcaInstruction

def BrOp.ofF3 (f : BitVec 3) : Option BrOp :=
  match f.toNat with
  | 0 => some .beq | 1 => some .bne | 4 => some .blt | 5 => some .bge | 6 => some .bltu | 7 => some .bgeu | _ => none

def LdOp.ofF3 (f : BitVec 3) : Option LdOp :=
  match f.toNat with
  | 0 => some .lb | 1 => some .lh | 2 => some .lw | 3 => some .ld | 4 => some .lbu | 5 => some .lhu | 6 => some .lwu
  | _ => none

def StOp.ofF3 (f : BitVec 3) : Option StOp :=
  match f.toNat with
  | 0 => some .sb | 1 => some .sh | 2 => some .sw | 3 => some .sd | _ => none

/-- OP and OP-32. -/
def candOp (w : Bool) (r : R32) : Option Instr :=
  if r.f7 = 1 then
    match w, r.f3.toNat with
    | false, 0 => some (.mul .mul r.rd r.rs1 r.rs2)
    | false, 1 => some (.mul .mulh r.rd r.rs1 r.rs2)
    | false, 2 => some (.mul .mulhsu r.rd r.rs1 r.rs2)
    | false, 3 => some (.mul .mulhu r.rd r.rs1 r.rs2)
    | false, 4 => some (.div .div r.rd r.rs1 r.rs2)
    | false, 5 => some (.div .divu r.rd r.rs1 r.rs2)
    | false, 6 => some (.div .rem r.rd r.rs1 r.rs2)
    | false, 7 => some (.div .remu r.rd r.rs1 r.rs2)
    | true, 0 => some (.mul .mulw r.rd r.rs1 r.rs2)
    | true, 4 => some (.div .divw r.rd r.rs1 r.rs2)
    | true, 5 => some (.div .divuw r.rd r.rs1 r.rs2)
    | true, 6 => some (.div .remw r.rd r.rs1 r.rs2)
    | true, 7 => some (.div .remuw r.rd r.rs1 r.rs2)
    | _, _ => none
  else (AluOp.ofCodes w r.f3 (r.f7 == 0x20)).map fun op => .rv64iAlu op r.rd r.rs1 (.reg r.rs2)

/-- OP-IMM and OP-IMM-32. Bit 10 of the immediate tells the arithmetic shift right. -/
def candImm (w : Bool) (r : R32) : Option Instr :=
  let i := immI r
  let alt := r.f3 == 5 && i.getLsbD 10
  (AluOp.ofCodes w r.f3 alt).map fun op => .rv64iAlu op r.rd r.rs1 (.imm (if alt then i &&& 0xBFF else i))

def candSystem (r : R32) : Option Instr :=
  match r.f3.toNat with
  | 0 =>
    match r.f7.toNat, r.rs2.toNat with
    | 0, 0 => some .ecall
    | 0, 1 => some .ebreak
    | 8, 2 => some (.rv64gcInstruction .sret)
    | 8, 5 => some (.rv64gcInstruction .wfi)
    | 9, _ => some (.rv64gcInstruction (.sfenceVma r.rs1 r.rs2))
    | _, _ => none
  | 1 => some (.csrrw r.rd (immI r) r.rs1)
  | 2 => some (.csrrs r.rd (immI r) r.rs1)
  | 3 => some (.csrrc r.rd (immI r) r.rs1)
  | 5 => some (.csrrwi r.rd (immI r) r.rs1)
  | 6 => some (.csrrsi r.rd (immI r) r.rs1)
  | 7 => some (.csrrci r.rd (immI r) r.rs1)
  | _ => none

def candC0 (r : R32) : Option Instr :=
  match r.f3.toNat with
  | 0 =>
    match r.f7.toNat with
    | 0 => some (.lpSet (bitAt r.rd 0) r.rs1 r.rs2)
    | 1 => some (.lpOff (bitAt r.rd 0))
    | 2 => some (.killX r.rs1 r.rs2)
    | 3 => some (.killV r.rs1 r.rs2)
    | 4 => some (.chorusForm r.rd (r.rs2.extractLsb' 0 2))
    | 5 => some .chorusLeave
    | 6 => some (.chorusId r.rd)
    | 8 => some (.cueResume r.rd r.rs1)
    | 9 => some (.cueYield r.rs1)
    | 10 => some (.cueSpawn r.rd r.rs1 r.rs2)
    | 11 => some (.cueWait r.rd r.rs1 r.rs2)
    | 12 => some .cueExit
    | 13 => some (.cueSelf r.rd)
    | 16 => some (.salloc r.rd r.rs1 r.rs2)
    | 17 => some (.sallocA r.rd r.rs1 r.rs2)
    | 18 => some (.sfree r.rd r.rs1)
    | 19 => some (.genRd r.rd r.rs1 (r.rs2.extractLsb' 0 2))
    | 24 => some .tret
    | _ => none
  | 1 => some (.lpSetup (bitAt r.rd 0) r.rs1 (immI r))
  | 2 => some (.lpSetupi (bitAt r.rd 0) r.rs1 (immI r))
  | 3 => some (.jalrD r.rd r.rs1 (immI r))
  | 4 => some (.jalD r.rd (immL r))
  | 5 => some (.safept ((immL r).extractLsb' 0 16))
  | _ => none

def candC1 (r : R32) : Option Instr :=
  if r.f3 = 6 then
    match r.f7.toNat with
    | 0 => some (.sbind (r.rs2.extractLsb' 0 2) r.rs1)
    | 1 => some (.sunbind (r.rs2.extractLsb' 0 2))
    | 2 => some (.sstat r.rd (r.rs2.extractLsb' 0 2))
    | 3 => some (.seal r.rd r.rs1 r.rs2)
    | 4 => some (.unseal r.rd r.rs1 r.rs2)
    | _ => none
  else
    let q := bitAt r.f7 1 == 1
    let l := bitAt r.f7 0 == 1
    match (r.f7.extractLsb' 2 5).toNat with
    | 0 => some (.amoAdd q l r.f3 r.rd r.rs1 r.rs2)
    | 1 => some (.amoSwap q l r.f3 r.rd r.rs1 r.rs2)
    | 2 => some (.amoCas q l r.f3 r.rd r.rs1 r.rs2)
    | 3 => some (.amoMin q l r.f3 r.rd r.rs1 r.rs2)
    | 4 => some (.amoMax q l r.f3 r.rd r.rs1 r.rs2)
    | 5 => some (.amoMinu q l r.f3 r.rd r.rs1 r.rs2)
    | 6 => some (.amoMaxu q l r.f3 r.rd r.rs1 r.rs2)
    | 7 => some (.amoAnd q l r.f3 r.rd r.rs1 r.rs2)
    | 8 => some (.amoOr q l r.f3 r.rd r.rs1 r.rs2)
    | 9 => some (.amoXor q l r.f3 r.rd r.rs1 r.rs2)
    | 10 => some (.amoAddb q l r.f3 r.rd r.rs1 r.rs2)
    | _ => none

def candC2 (r : R32) : Option Instr :=
  match r.f3.toNat with
  | 0 =>
    let n := r.rs2.extractLsb' 0 2
    match r.f7.toNat with
    | 0 => some (.msgRecv r.rd r.rs1)
    | 1 => some (.msgPoll r.rd r.rs1)
    | 2 => some (.msgPut r.rd r.rs1 r.rs2)
    | 3 => some (.dqPush r.rd r.rs1 r.rs2)
    | 4 => some (.dqPop r.rd r.rs1)
    | 5 => if r.rd = 1 then some (.qPushV n r.rs1) else some (.qPushX n r.rs1)
    | 6 => if r.rs1 = 1 then some (.qPopV r.rd) else some (.qPopX r.rd)
    | 7 => some (.qStat r.rd n)
    | 8 => some (.svcCall r.rd r.rs1)
    | 9 => some (.qkSet r.rs1)
    | 10 => some (.qkScan r.rd r.rs1)
    | 11 => some (.jlPut r.rd r.rs1 r.rs2)
    | 12 => some (.barInit r.rs1 r.rs2)
    | _ => none
  | 1 =>
    let sc := r.f7.extractLsb' 0 3
    match (r.f7.extractLsb' 3 4).toNat with
    | 0 => some (.publish sc)
    | 1 => some (.refresh sc)
    | 2 => some (.msgSend r.rs1 r.rs2)
    | 3 => some (.msgSendRel sc r.rs1 r.rs2)
    | _ => none
  | 2 =>
    let b := bitAt r.f7 0 ++ r.rs2
    match (r.f7.extractLsb' 3 4).toNat with
    | 0 => some (.barBind b r.rs1)
    | 1 => some (.barArrive r.rd r.rs1 b)
    | 2 => some (.barWait r.rd r.rs1 b)
    | _ => none
  | _ => none

def candC3 (r : R32) : Option Instr :=
  match r.f3.toNat with
  | 0 =>
    match r.f7.toNat with
    | 0 => some (.bcNext r.rd r.rs1 r.rs2)
    | 1 => some (.icInv r.rs1)
    | 2 => some (.txIssue r.rd r.rs1)
    | 3 => some (.txWait r.rd r.rs1)
    | 4 => some (.rcInc r.rd r.rs1)
    | 5 => some (.rcDec r.rd r.rs1)
    | _ => none
  | 1 => some (.icLd r.rd r.rs1 (immI r))
  | 2 => some (.icSt r.rs2 r.rs1 (immS r))
  | 3 => some (.gdShape r.rs1 r.rs2 (immB r))
  | 4 => some (.gdTag r.rs1 r.rs2 (immB r))
  | 5 => some (.obLd r.rd r.rs1 (immI r))
  | 6 => some (.obSt r.rs2 r.rs1 (immS r))
  | _ => none

/-- OP-FP of RV64GC. -/
def candFp (r : R32) : Option Instr :=
  let dbl := bitAt r.f7 0 == 1
  let k := r.rs2.extractLsb' 0 2
  (match (r.f7.extractLsb' 2 5).toNat, r.f3.toNat with
  | 0, _ => some (RvgOp.fop .add dbl r.f3 r.rd r.rs1 r.rs2)
  | 1, _ => some (.fop .sub dbl r.f3 r.rd r.rs1 r.rs2)
  | 2, _ => some (.fop .mul dbl r.f3 r.rd r.rs1 r.rs2)
  | 3, _ => some (.fop .div dbl r.f3 r.rd r.rs1 r.rs2)
  | 11, _ => some (.fop .sqrt dbl r.f3 r.rd r.rs1 r.rs2)
  | 4, 0 => some (.fop .sgnj dbl 0 r.rd r.rs1 r.rs2)
  | 4, 1 => some (.fop .sgnjn dbl 0 r.rd r.rs1 r.rs2)
  | 4, 2 => some (.fop .sgnjx dbl 0 r.rd r.rs1 r.rs2)
  | 5, 0 => some (.fop .min dbl 0 r.rd r.rs1 r.rs2)
  | 5, 1 => some (.fop .max dbl 0 r.rd r.rs1 r.rs2)
  | 8, _ => some (.fcvtFF dbl r.f3 r.rd r.rs1)
  | 20, _ => some (.fcmp (r.f3.extractLsb' 0 2) dbl r.rd r.rs1 r.rs2)
  | 24, _ => some (.fcvtToInt dbl k r.f3 r.rd r.rs1)
  | 26, _ => some (.fcvtFromInt dbl k r.f3 r.rd r.rs1)
  | 28, 0 => some (.fmvToX dbl r.rd r.rs1)
  | 28, 1 => some (.fclass dbl r.rd r.rs1)
  | 30, _ => some (.fmvFromX dbl r.rd r.rs1)
  | _, _ => none).map Instr.rv64gcInstruction

/-- AMO of RV64GC. -/
def candAmo (r : R32) : Option Instr :=
  let dw := r.f3 == 3
  let aq := bitAt r.f7 1 == 1
  let rl := bitAt r.f7 0 == 1
  (match (r.f7.extractLsb' 2 5).toNat with
  | 2 => some (RvgOp.lr dw aq rl r.rd r.rs1)
  | 3 => some (.sc dw aq rl r.rd r.rs1 r.rs2)
  | 1 => some (.amo .swap dw aq rl r.rd r.rs1 r.rs2)
  | 0 => some (.amo .add dw aq rl r.rd r.rs1 r.rs2)
  | 4 => some (.amo .xor dw aq rl r.rd r.rs1 r.rs2)
  | 12 => some (.amo .and dw aq rl r.rd r.rs1 r.rs2)
  | 8 => some (.amo .or dw aq rl r.rd r.rs1 r.rs2)
  | 16 => some (.amo .min dw aq rl r.rd r.rs1 r.rs2)
  | 20 => some (.amo .max dw aq rl r.rd r.rs1 r.rs2)
  | 24 => some (.amo .minu dw aq rl r.rd r.rs1 r.rs2)
  | 28 => some (.amo .maxu dw aq rl r.rd r.rs1 r.rs2)
  | _ => none).map Instr.rv64gcInstruction

def candFma (neg sub : Bool) (r : R32) : Option Instr :=
  some (.rv64gcInstruction (.fma neg sub (bitAt r.f7 0 == 1) r.f3 r.rd r.rs1 r.rs2 (r.f7.extractLsb' 2 5)))

/-- The 32-bit candidate (R44). -/
def cand32 (r : R32) : Option Instr :=
  match r.op.toNat with
  | 0x03 => (LdOp.ofF3 r.f3).map fun op => .scalarLoad op r.rd r.rs1 (immI r)
  | 0x07 => some (.rv64gcInstruction (.fload (r.f3 == 3) r.rd r.rs1 (immI r)))
  | 0x0B => candC0 r
  | 0x0F =>
    if r.f3 = 0 then
      some (.fence ((immI r).extractLsb' 8 4) ((immI r).extractLsb' 4 4) ((immI r).extractLsb' 0 4) r.rs1 r.rd)
    else some (.rv64gcInstruction (.fenceI (immI r) r.rd r.rs1))
  | 0x13 => candImm false r
  | 0x17 => some (.auipc r.rd (immU r))
  | 0x1B => candImm true r
  | 0x23 => (StOp.ofF3 r.f3).map fun op => .scalarStore op r.rs2 r.rs1 (immS r)
  | 0x27 => some (.rv64gcInstruction (.fstore (r.f3 == 3) r.rs2 r.rs1 (immS r)))
  | 0x2B => candC1 r
  | 0x2F => candAmo r
  | 0x33 => candOp false r
  | 0x37 => some (.lui r.rd (immU r))
  | 0x3B => candOp true r
  | 0x43 => candFma false false r
  | 0x47 => candFma false true r
  | 0x4B => candFma true false r
  | 0x4F => candFma true true r
  | 0x53 => candFp r
  | 0x5B => candC2 r
  | 0x63 => (BrOp.ofF3 r.f3).map fun op => .branch op r.rs1 r.rs2 (immB r)
  | 0x67 => some (.jalr r.rd r.rs1 (immI r))
  | 0x6F => some (.jal r.rd (immJ r))
  | 0x73 => candSystem r
  | 0x7B => candC3 r
  | _ => none

/-- The optional fields of a word; the mask field of classes 1 to 6. -/
def F64.opts (x : F64) (mask : Bool) : LOpts where
  ed1 := x.ed == 1
  la := x.la
  fi := x.fi == 1
  fo := x.fo == 1
  rm := x.rm
  sat := x.sat == 1
  m := if mask then x.rs4.extractLsb' 0 3 else 0

/-- Class 1 (R66-R73). -/
def candClass1 (x : F64) : Option Instr :=
  let o := x.opts true
  let f := x.f8.extractLsb' 0 4
  match (x.f8.extractLsb' 4 4).toNat with
  | 0 => some (.vaddFp o f x.rd x.rs1 x.rs2)
  | 1 => some (.vsubFp o f x.rd x.rs1 x.rs2)
  | 2 => some (.vmulFp o f x.rd x.rs1 x.rs2)
  | 3 => some (.vfma o f x.rd x.rs1 x.rs2 x.rs3)
  | 4 => some (.vfms o f x.rd x.rs1 x.rs2 x.rs3)
  | 5 => some (.vdiv o f x.rd x.rs1 x.rs2)
  | 6 => some (.vsqrt o f x.rd x.rs1)
  | 7 => some (.vminFp o f x.rd x.rs1 x.rs2)
  | 8 => some (.vmaxFp o f x.rd x.rs1 x.rs2)
  | 9 => some (.vcmpFp o f (x.aux.extractLsb' 0 3) (x.rd.extractLsb' 0 3) x.rs1 x.rs2)
  | 10 => some (.vlmul o x.rd x.rs1 x.rs2)
  | 11 => some (.vldot o (x.rs3.extractLsb' 0 2) x.rd x.rs1 x.rs2)
  | 12 => some (.vgumbel o x.rd x.rs1 x.rs2 x.rs3)
  | _ => none

/-- Class 2 (R66-R73). -/
def candClass2 (x : F64) : Option Instr :=
  let o := x.opts true
  let f := x.f8.extractLsb' 0 4
  let e : Elem := ⟨x.f8.extractLsb' 0 4, bitAt x.aux 3 == 1⟩
  match (x.f8.extractLsb' 4 4).toNat with
  | 0 => some (.vaddInt o e x.rd x.rs1 x.rs2)
  | 1 => some (.vsubInt o e x.rd x.rs1 x.rs2)
  | 2 => some (.vmulInt o e x.rd x.rs1 x.rs2)
  | 3 => some (.vminInt o e x.rd x.rs1 x.rs2)
  | 4 => some (.vmaxInt o e x.rd x.rs1 x.rs2)
  | 5 => some (.vsll o f x.rd x.rs1 x.rs2)
  | 6 => some (.vsrl o f x.rd x.rs1 x.rs2)
  | 7 => some (.vsra o f x.rd x.rs1 x.rs2)
  | 8 => some (.vand o f x.rd x.rs1 x.rs2)
  | 9 => some (.vor o f x.rd x.rs1 x.rs2)
  | 10 => some (.vxor o f x.rd x.rs1 x.rs2)
  | 11 => some (.vcmpInt o e (x.aux.extractLsb' 0 3) (x.rd.extractLsb' 0 3) x.rs1 x.rs2)
  | 12 => some (.vsel o f x.rd x.rs1 x.rs2 (x.rs3.extractLsb' 0 3))
  | 13 => some (.vmlog o (x.aux.extractLsb' 0 3) (x.rd.extractLsb' 0 3) (x.rs1.extractLsb' 0 3) (x.rs2.extractLsb' 0 3))
  | 14 => some (.vmpop o x.rd (x.rs1.extractLsb' 0 3))
  | _ => none

/-- Class 3 (R66-R73). -/
def candClass3 (x : F64) : Option Instr :=
  let o := x.opts true
  let f := x.f8.extractLsb' 0 4
  let e : Elem := ⟨x.f8.extractLsb' 0 4, bitAt x.aux 3 == 1⟩
  match (x.f8.extractLsb' 4 4).toNat with
  | 0 => some (.vcvt o e ⟨x.rs2.extractLsb' 0 4, bitAt x.rs2 4 == 1⟩ x.rd x.rs1 x.rs3)
  | 1 => some (.vtag o f x.rd x.rs1)
  | 2 => some (.vpackt o x.rd x.rs1)
  | 3 => some (.vunpackt o x.rd x.rs1)
  | 4 => some (.vosplit o f (x.rs2.extractLsb' 0 4) x.rd x.rs1 (x.rs3.extractLsb' 0 2))
  | _ => none

/-- Class 4 (R66-R73). -/
def candClass4 (x : F64) : Option Instr :=
  let o := x.opts true
  let f := x.f8.extractLsb' 0 4
  match (x.f8.extractLsb' 4 4).toNat with
  | 0 => some (.vrcp o f x.rd x.rs1)
  | 1 => some (.vrsqrt o f x.rd x.rs1)
  | 2 => some (.vexp2 o f x.rd x.rs1)
  | 3 => some (.vlog2 o f x.rd x.rs1)
  | _ => none

/-- Class 5 (R66-R73). -/
def candClass5 (x : F64) : Option Instr :=
  let o := x.opts true
  let f := x.f8.extractLsb' 0 4
  let e : Elem := ⟨x.f8.extractLsb' 0 4, bitAt x.aux 3 == 1⟩
  match (x.f8.extractLsb' 4 4).toNat with
  | 0 => some (.vredsum o e x.rd x.rs1)
  | 1 => some (.vredmax o e x.rd x.rs1)
  | 2 => some (.vredmin o e x.rd x.rs1)
  | 3 => some (.vargmax o e x.rd x.rs1 x.rs2)
  | 4 => some (.vperm o f x.rd x.rs1 x.rs2)
  | 5 => some (.vslide o f x.rd x.rs1 x.rs2)
  | 6 => some (.vbcast o f x.rd x.rs1 x.rs2)
  | 7 => some (.vins o f x.rd x.rs1 x.rs2)
  | 8 => some (.vext o f x.rd x.rs1 x.rs2)
  | _ => none

/-- Class 6 (R66-R73). -/
def candClass6 (x : F64) : Option Instr :=
  let o := x.opts true
  let e : Elem := ⟨x.f8.extractLsb' 0 4, bitAt x.aux 3 == 1⟩
  match (x.f8.extractLsb' 4 4).toNat with
  | 0 => if bitAt x.aux 0 = 1 then some (.vldDiag o e x.rd x.rs1) else some (.vld o e x.rd x.rs1 x.rs3)
  | 1 => if bitAt x.aux 0 = 1 then some (.vstDiag o e x.rd x.rs1) else some (.vst o e x.rd x.rs1 x.rs3)
  | 2 => some (.vlds o e x.rd x.rs1 x.rs2)
  | 3 => some (.vsts o e x.rd x.rs1 x.rs2)
  | 4 => some (.vldx o e x.rd x.rs1 x.rs2)
  | 5 => some (.vstx o e x.rd x.rs1 x.rs2)
  | 6 => some (.tdecl o x.rs1 x.rs2 x.rs3)
  | _ => none

/-- Class 7 (R66-R73). -/
def candClass7 (x : F64) : Option Instr :=
  let o := x.opts false
  match (x.f8.extractLsb' 4 4).toNat with
  | 0 => some (.mxMma o (bitAt x.aux 0 == 1) (bitAt x.aux 1 == 1) x.rd x.rs1 x.rs2 x.rs3 x.rs4)
  | 1 => some (.mxMmsp o (bitAt x.aux 0 == 1) (bitAt x.aux 1 == 1) x.rd x.rs1 x.rs2 x.rs3 x.rs4)
  | 2 => some (.mxZero o x.rs1 x.rs2)
  | 3 => some (.mxLd o (bitAt x.aux 0 == 1) (x.rs3.extractLsb' 0 2) x.rd x.rs1)
  | 4 => some (.mxSt o (x.rs3.extractLsb' 0 2) x.rd x.rs1)
  | 5 => some (.mxCfg o x.rs1)
  | 6 => some (.mxTask o x.rd x.rs1)
  | _ => none

/-- Class 8 (R66-R73). -/
def candClass8 (x : F64) : Option Instr :=
  let o := x.opts false
  match (x.f8.extractLsb' 4 4).toNat with
  | 0 => if bitAt x.aux 0 = 1 then some (.slCfgClose o) else some (.slCfg o x.rs1)
  | 1 => some (.slRun o x.rd)
  | 2 => if bitAt x.aux 0 = 1 then some (.slPassDecide o x.rd x.rs1) else some (.slPassCount o x.rd x.rs1)
  | 3 => some (.slGet o (x.aux.extractLsb' 0 3) x.rd)
  | 4 => some (.slMask o (x.aux.extractLsb' 0 2) x.rd x.rs1 x.rs2)
  | _ => none

/-- The long-format candidate (R52). -/
def cand64 (x : F64) : Option Instr :=
  match x.cls.toNat with
  | 1 => candClass1 x
  | 2 => candClass2 x
  | 3 => candClass3 x
  | 4 => candClass4 x
  | 5 => candClass5 x
  | 6 => candClass6 x
  | 7 => candClass7 x
  | 8 => candClass8 x
  | 9 => some (.phase (x.opts false) (x.aux.extractLsb' 0 2) x.sc (x.f8.extractLsb' 0 6) x.rd x.rs1)
  | 10 =>
    match (x.aux.extractLsb' 0 3).toNat with
    | 0 => some (.netRedMaxi (x.opts false) x.sc x.f8 x.rd x.rs1)
    | 1 => some (.netRedSum (x.opts false) x.sc x.f8 x.rd x.rs1)
    | 2 => some (.netRedSumv (x.opts false) x.sc x.f8 x.rd x.rs1)
    | 3 => some (.netRedAnd (x.opts false) x.sc x.f8 x.rd x.rs1)
    | 4 => some (.netRedOr (x.opts false) x.sc x.f8 x.rd x.rs1)
    | _ => none
  | _ => none

/-! ### The decoder -/

/-- The candidate stands if it is well formed and encodes to the same fields. -/
def accept (dir : Bool) (c : Code) (cand : Option Instr) : Except Reject Instr :=
  match cand with
  | none => .error .unknownOpcode
  | some i =>
    if (if dir then i.onDirector else i.onCompute) = true then
      if i.wf = true ∧ encode i = c then .ok i else .error .reserved
    else .error .otherCore

/-- The instruction of `n` bytes whose word is `w` (its first parcel in the low bits), on a director core or on a
compute core. -/
def decode (dir : Bool) (n w : Nat) : Except Reject Instr :=
  match n with
  | 2 => accept dir (.c16 (C16.ofNat w)) (cand16 (C16.ofNat w))
  | 4 => accept dir (.w32 (R32.ofNat w)) (cand32 (R32.ofNat w))
  | 8 => accept dir (.w64 (F64.ofNat w)) (cand64 (F64.ofNat w))
  | _ => .error .length

/-- The instruction a word of the opcode table decodes to: on a compute core, or on a director core where only that
has it. Bits the table does not give are zero. -/
def decodeTableWord (nbits w : Nat) : Option Instr :=
  let v := w % 2 ^ nbits
  let n := parcelLen (v % 65536)
  match decode false n v with
  | .ok i => some i
  | .error _ =>
    match decode true n v with
    | .ok i => some i
    | .error _ => none

end Sys2Proof
end

