-- ==== Sys2Proof/Config.lean ====
section
/-!
DEFINITION. What one S9 fixes, and the free values the manual leaves open. A free value has no body: no proof can
learn what it is.
-/

namespace Sys2Proof.Config

/-- Compute harts of the package, core × 4 + hart (R4). -/
def harts : Nat := 49152
/-- Compute cores (R4). -/
def cores : Nat := 12288
/-- Clusters (R4). -/
def clusters : Nat := 768
/-- Slices (R4). -/
def slices : Nat := 48
/-- Director cores (R4). -/
def directors : Nat := 16

/-- A choice among `n + 1` outcomes the manual allows (which value of R211's range a load returns, which TLB entry is
replaced, which elements of a stopped task were written): the `k`-th choice of a run. Log 8. -/
opaque pick : Nat → Nat

/-- A fresh byte the manual leaves open, by the counter of the state (the signature of an attestation report, R443).
Log 10. -/
opaque freeByte : Nat → BitVec 8

/-- SHA-256 of a list of bytes (R442, R443 name the function and do not define it). Log 10. -/
opaque sha256 : List Byte → BitVec 256

/-- HMAC-SHA-256 of a list of bytes under the device key (R444 names the function and does not give the key). Log 10. -/
opaque hmac : List Byte → BitVec 256

/-- The reason word of a value the manual gives no number for, by the counter of the state. Log 10. -/
opaque freeWord : Nat → BitVec 64

end Sys2Proof.Config
end

