-- ==== Sys2Proof/Machine/KMap.lean ====
section
/-!
DEFINITION. The sparse map every part of the state is held in: a list of (number, value) pairs with strictly rising
numbers, none of which holds the value an unlisted number reads as. Equal maps are equal lists.
-/

namespace Sys2Proof.Machine

/-- A sparse map from numbers to values. -/
abbrev KMap (α : Type) := List (Nat × α)

/-- What the map holds at `k`, `d` being what an unlisted number reads as. -/
def KMap.get {α : Type} (d : α) : KMap α → Nat → α
  | [], _ => d
  | (k, v) :: t, n => if n = k then v else KMap.get d t n

/-- The map without an entry at `n`. -/
def KMap.erase {α : Type} : KMap α → Nat → KMap α
  | [], _ => []
  | (k, v) :: t, n => if n = k then KMap.erase t n else (k, v) :: KMap.erase t n

/-- The map with an entry at `n`, kept in rising order. -/
def KMap.insert {α : Type} : KMap α → Nat → α → KMap α
  | [], n, x => [(n, x)]
  | (k, v) :: t, n, x =>
    if n < k then (n, x) :: (k, v) :: t
    else if n = k then (n, x) :: t
    else (k, v) :: KMap.insert t n x

/-- Write `x` at `n`: an entry equal to the default is removed, so that the form stays canonical. -/
def KMap.set {α : Type} [DecidableEq α] (d : α) (m : KMap α) (n : Nat) (x : α) : KMap α :=
  if x = d then KMap.erase m n else KMap.insert (KMap.erase m n) n x

/-- All numbers of the map are above `b`, rising, and no value is the default. -/
def KMap.wfFrom {α : Type} [DecidableEq α] (d : α) : Nat → KMap α → Bool
  | _, [] => true
  | b, (k, v) :: t => decide (b ≤ k) && decide (v ≠ d) && KMap.wfFrom d (k + 1) t

/-- The canonical form. -/
def KMap.wf {α : Type} [DecidableEq α] (d : α) (m : KMap α) : Bool := KMap.wfFrom d 0 m

end Sys2Proof.Machine
end

