-- ==== Sys2Proof/Machine/State.lean ====
section
/-!
DEFINITION. The state of the S9: every register, memory, table and queue the manual names, as plain data. Parts that
exist many times are sparse maps by their number (R4); an unlisted number is at its reset value.
-/

namespace Sys2Proof.Machine

/-- Why a run stops with a fault. -/
inductive Fault where
  /-- Raised by `step` when `State.cur` or a turn names a hart or director core outside R4. Safe: no such agent
  exists, so nothing is claimed of it. -/
  | noSuchUnit
deriving DecidableEq, Repr

/-- Why an instruction is refused. -/
inductive Refusal where
  /-- Raised by `exec` for an instruction without a meaning yet. Safe. -/
  | notModelled (mnemonic : String)
deriving DecidableEq, Repr

/-! ### A compute hart -/

/-- An x or m register: value, generation tag, poison (R266). -/
structure XReg where
  val : Word := 0
  gen : BitVec 8 := 0
  poison : Bool := false
deriving DecidableEq, Repr

/-- A v register: value, generation tag, poison, format tag (R97, R266). -/
structure VReg where
  val : Vec := 0
  gen : BitVec 8 := 0
  poison : Bool := false
  fmt : BitVec 4 := 0
deriving DecidableEq, Repr

/-- One hardware loop set (R127, R130). -/
structure LoopSet where
  lps : Word := 0
  lpe : Word := 0
  lpc : Word := 0
deriving DecidableEq, Repr

/-- An element a stream fetched ahead: its bytes, their poison, or the latent trap of R192 (cause code and tval). -/
structure Ahead where
  bytes : List Byte
  poison : Bool := false
  trap : Option (BitVec 8 × Word) := none
deriving DecidableEq, Repr

/-- A stream (R191), the count of R196, the elements fetched ahead (R192), the last element appended (R194) and the pin
a landing-buffer stream holds (R197). -/
structure Stream where
  base : Word := 0
  stra : Word := 0
  strb : Word := 0
  cnt : Word := 0
  ctl : Word := 0
  pos : Word := 0
  moved : Nat := 0
  ahead : List Ahead := []
  last : Option (List Byte) := none
  pin : Option (Nat × Word) := none
deriving DecidableEq, Repr

/-- Part of a store inside one granule: where, the first byte, the bytes, the generation its check found (R278),
whether it is an own-bank store, whether the whole store covered its 64-byte line (R179), whether it carries poison
(R305), and the root and virtual page it was translated under (R439). -/
structure Chunk where
  loc : Nat
  off : Nat
  bytes : List Byte
  gen : BitVec 16 := 0
  own : Bool := false
  line : Bool := false
  poison : Bool := false
  page : Word × Nat := (0, 0)
deriving DecidableEq, Repr

/-- A pending lookahead result (R59-R65): instructions left in its window, destinations, events, the address for the
event message, stores, the combine context it waits for, whether it is a direct accumulator access (R335), the engine
writes of an sl.mask, and whether that closes the session (R346, R357). -/
structure Pending where
  window : Nat
  xs : List (Reg × XReg) := []
  vs : List (Reg × VReg) := []
  ms : List (Reg × XReg) := []
  events : BitVec 5 := 0
  pc : Word := 0
  stores : List Chunk := []
  accs : List Chunk := []
  net : Option (Nat × Nat) := none
  netDest : Reg := 0
  mx : Bool := false
  engs : List Chunk := []
  closes : Bool := false
deriving DecidableEq, Repr

/-- A pin counter (R252). -/
structure Pin where
  cue : Word
  count : Nat
deriving DecidableEq, Repr

/-- A word of q3 with its poison and the writes its pop captures (R361). -/
structure ResWord where
  val : Word
  poison : Bool := false
  cover : List Nat := []
deriving DecidableEq, Repr

/-- An inbox entry: payload and sideband (R226); a wake entry goes ahead of other kind-5 entries (R241); `cover` are
the writes a completion captures (R210); `helper` marks the completion of a helper's command (R254). -/
structure Entry where
  payload : BitVec 512
  side : Word
  wake : Bool := false
  cover : List Nat := []
  helper : Bool := false
deriving DecidableEq, Repr

/-- What a hart is doing: running, parked with the address and the events that parked it (R292), halted by a double
trap (R291), or stopped by ixdb. -/
inductive Run where
  | active
  | parked (pc : Word) (raised : BitVec 5)
  | halted
  | stopped
deriving DecidableEq, Repr

/-- A hart's place in a chorus (R139-R142). A draining follower finishes the instructions it was sent, as the member it
was: leader, base, size and members. -/
inductive Role where
  | solo
  | leader (base size : Nat) (members : List Nat)
  | follower (lead : Nat) (base size : Nat)
  | draining (lead base size : Nat) (members : List Nat)
deriving DecidableEq, Repr

/-- A decoded instruction in a follower's queue (R140): its address and the leader's next pc. -/
structure Followed where
  instr : Instr
  pc : Word
  next : Word
deriving DecidableEq, Repr

/-- A compute hart (R127, R266 and the rules named at each structure). `rewait` is the wait a resumed cue goes on with
(R247); `net` is the net.red that stalls the hart until its round ends, with what it read at issue (R235, R236);
`curPlay`, `curAct` and `curLat` repeat the record of the cue it runs; `svcWait` is the service call the house
code waits for (R452); `trapped` holds from a trap entry until the house code has disposed of the trap. -/
structure Hart where
  pc : Word := 0
  house : Bool := true
  run : Run := .active
  x : KMap XReg := []
  v : KMap VReg := []
  m : KMap XReg := []
  rgen : BitVec 8 := 1
  vflags : BitVec 5 := 0
  venab : BitVec 5 := 0
  vrm : BitVec 3 := 0
  dmask : Word := 0
  depmask : BitVec 32 := 0
  gmode : BitVec 2 := 0
  fpsup : BitVec 18 := 0
  lp0 : LoopSet := {}
  lp1 : LoopSet := {}
  streams : KMap Stream := []
  tcause : BitVec 8 := 0
  tepc : Word := 0
  tval : Word := 0
  tvec : Word := 0
  cueptr : Word := 0
  instret : Word := 0
  pending : List Pending := []
  pins : List Pin := []
  q0 : List Word := []
  q1 : List Word := []
  q2 : List Word := []
  q3 : List ResWord := []
  mxcfg : Option (BitVec 512) := none
  ticket : BitVec 32 := 0
  svcCount : BitVec 32 := 0
  role : Role := .solo
  fqueue : List Followed := []
  helper : Option (Nat × Word) := none
  inbox : List Entry := []
  ring : List Entry := []
  ringSize : Nat := 256
  ringBase : Word := 0
  pflow : Bool := false
  view : KMap Nat := []
  captured : List Nat := []
  resume : Option (Word × Reg) := none
  trapped : Bool := false
  vacate : Option Nat := none
  vacateDue : Bool := false
  waiting : Bool := false
  net : Option Pending := none
  rewait : Option (Nat × Nat) := none
  curPlay : Nat := 0
  curAct : Nat := 0
  curLat : Bool := false
  svcWait : Option (BitVec 32) := none
  stopAfter : Option Nat := none
deriving DecidableEq, Repr

/-! ### A core and a cluster -/

/-- A 32-byte granule: bytes by their place (unlisted: zero), generation tag, poison (R277). -/
structure Gran where
  data : KMap Byte := []
  tag : BitVec 16 := 0
  poison : Bool := false
deriving DecidableEq, Repr

inductive AllocSt where
  | free
  | live
  | retired
deriving DecidableEq, Repr

/-- An allocation entry (R272, R285): first byte, length in granules, generation, seal, forensic. -/
structure Alloc where
  st : AllocSt := .free
  base : Nat := 0
  len : Nat := 0
  gen : BitVec 16 := 0
  sealed : Bool := false
  forensic : Bool := false
deriving DecidableEq, Repr

/-- A diagonal tile (R186): first byte, rows, columns, element size; none when not declared. -/
structure Tile where
  base : Nat
  rows : Nat
  cols : Nat
  esz : Nat
deriving DecidableEq, Repr

/-- An entry of the phase store buffer (R207): granule, the bytes held, who stored into it (bit j: hart j of the core,
or director core j), the recorded generation (R278), a whole-line store (R179), and the roots and virtual pages it was
made under (R439). -/
structure SbEntry where
  loc : Nat
  bytes : KMap (Option Byte) := []
  makers : Nat := 0
  gen : BitVec 16 := 0
  line : Bool := false
  pages : List (Word × Nat) := []
deriving DecidableEq, Repr

/-- A watch of a suspended cue (R247): its hart, its home record and what it waits for. -/
inductive WatchFor where
  | inbox
  | barrier (slot : Nat) (gen : BitVec 4)
  | word (loc : Nat)
deriving DecidableEq, Repr

structure Watch where
  hart : Nat
  cue : Word
  play : Nat
  on : WatchFor
deriving DecidableEq, Repr

/-- A compute core; `cache` are the lines its read cache holds (R19), each with whether the copy has an uncorrectable
error (R282); `castPlay` is the play last cast on it (R308). -/
structure Core where
  castPlay : Option Nat := none
  cache : List (Nat × Bool) := []
  gran : KMap Gran := []
  alloc : KMap Alloc := []
  tiles : KMap (Option Tile) := []
  bars : KMap (Option Word) := []
  psb : List SbEntry := []
  landing : KMap (List (Byte × Bool)) := []
  watch : List Watch := []
  sweep : Nat := 0
deriving DecidableEq, Repr

/-- A translation held in a TLB (R435, R437): root, virtual base, log2 of the size, physical base, permission bits. -/
structure TlbEntry where
  root : Word
  vbase : Nat
  size : Nat
  pbase : Nat
  r : Bool
  w : Bool
  x : Bool
  dirty : Bool
  user : Bool := true
deriving DecidableEq, Repr

/-- A copy-engine command (R302-R306) and its progress: who issued it, its words, recorded generations by granule,
the units done, bytes read and not yet written, bytes written, poison copied, status, failing address, the blocks of
a decompress (next header, blocks done, first failing, failing), the writes made, the pin and whether its reads are
done (R224), the generation of the barrier slot, whether a helper issued it, and the stack and turn of a decompress
(R310, R316), and whether a decrement of the slot found its count at zero (R224). A director's command carries its
ticket (R394). -/
structure CopyCmd where
  hart : Nat
  dir : Option (Nat × Nat) := none
  root : Word
  words : List Word
  gens : KMap (BitVec 16) := []
  slot : Option Nat := none
  barScope : Nat := 0
  barGen : BitVec 16 := 0
  helper : Bool := false
  stack : Option Nat := none
  turn : Nat := 0
  started : Bool := false
  unit : Nat := 0
  buf : List (Byte × Bool) := []
  land : List (Byte × Bool) := []
  written : Nat := 0
  poisoned : Bool := false
  status : Nat := 0
  addr : Word := 0
  next : Word := 0
  block : Nat := 0
  firstBad : Nat := 0
  bad : Nat := 0
  commit : Word := 0
  cover : List Nat := []
  pin : Option (Nat × Word) := none
  outDone : Bool := false
  under : Bool := false
  finished : Bool := false
deriving DecidableEq, Repr

/-- A matrix task of a slice's scheduler (R338): who issued it, operation (1 mx.mma, 2 mx.mmsp, 3 a record), operands,
configuration, tokens, ticket and tag, recorded generations; the engine it runs on, the duplication map it has read (an
entry read through poison carries bit 32), the
chunk steps taken of each element (and, from M × N on, the output elements written), and what its completion will
report. -/
structure Task where
  hart : Nat
  dir : Option (Nat × Nat) := none
  root : Word
  core : Nat
  cluster : Nat
  op : Nat
  a : Word
  b : Word
  dst : Word
  dims : Word
  zero : Bool := false
  sparse : Bool := false
  area : Bool := false
  pub : Nat := 0
  cmpl : Bool := false
  helper : Bool := false
  cfg : BitVec 512 := 0
  waits : List (Nat × Nat) := []
  sig : Option Nat := none
  tag : Nat := 0
  ticket : Nat := 0
  play : Option Nat := none
  gens : KMap (BitVec 16) := []
  accGen : BitVec 16 := 0
  anywhere : Bool := false
  pin : Option (Nat × Word) := none
  engine : Option Nat := none
  started : Bool := false
  dmap : List Nat := []
  steps : KMap Nat := []
  events : BitVec 5 := 0
  poisoned : Bool := false
  status : Nat := 0
  addr : Nat := 0
  cover : List Nat := []
deriving DecidableEq, Repr

/-- A selection session or job (R346-R361): owner, record and its address, candidates, the candidates at the start,
the values between steps (R351), the local counts, and the candidates' digits at the last count step. -/
structure Session where
  hart : Nat
  root : Word
  core : Nat
  rcd : BitVec 512
  gens : KMap (BitVec 16) := []
  cand : List Nat := []
  start : List Nat := []
  ready : Bool := false
  rem : Nat := 0
  above : Nat := 0
  wabove : Nat := 0
  pre : Nat := 0
  passes : Nat := 0
  eq : Nat := 0
  weq : Nat := 0
  leq : Nat := 0
  lweq : Nat := 0
  cnts : List Nat := []
  wts : List Nat := []
  digs : List Nat := []
  counted : Bool := false
  done : Bool := false
  short : Bool := false
  empty : Bool := false
  poison : Bool := false
  invalid : Bool := false
  pin : Option (Nat × Word) := none
deriving DecidableEq, Repr

/-- A request for the selection engine in its order (R346): a queued selection (R361), whose status other than 0 was
decided before it ran, and the session it runs; or, where `cfg` is set, the place of a waiting sl.cfg. -/
structure SelJob where
  hart : Nat
  root : Word
  core : Nat
  words : List Word
  status : Nat := 0
  cfg : Bool := false
  helper : Bool := false
  sess : Option Session := none
  pin : Option (Nat × Word) := none
deriving DecidableEq, Repr

/-- A generation value under the reuse rule (R280): for each of the 17 sweepers, 0 before its next pass begins, 1
during that pass, 2 after it. -/
structure Reuse where
  gen : BitVec 16
  passes : List Nat
deriving DecidableEq, Repr

/-- A cluster; `wrote` are the writes of the completed copy commands of each issuer (R306). -/
structure Cluster where
  wrote : KMap (List Nat) := []
  kgen : BitVec 16 := 0
  acc : KMap Gran := []
  accAlloc : KMap Alloc := []
  accSweep : Nat := 0
  reuse : List Reuse := []
  copy : List CopyCmd := []
  copyHold : Bool := false
  sess : Option Session := none
  jobs : List SelJob := []
  utlb : List TlbEntry := []
deriving DecidableEq, Repr

/-! ### A slice -/

/-- A record in an act queue or return list: the 64 bytes and when it arrived. -/
structure CueRec where
  rcd : BitVec 512
  at_ : Nat := 0
deriving DecidableEq, Repr

/-- An act's queue and return list in a slice (R255), and its last dispatch (R258). -/
structure ActQ where
  queue : List CueRec := []
  back : List CueRec := []
  last : Option Nat := none
deriving DecidableEq, Repr

/-- A slice; `l2` are the lines its L2 slice holds (R16, R19). -/
structure Slice where
  l2 : List Nat := []
  borrow : Bool := true
  rsv : BitVec 5 := 2
  acts : KMap ActQ := []
  rr : Option Nat := none
  tasks : List Task := []
  tokens : KMap Nat := []
  tlb : List TlbEntry := []
  pools : KMap (List Word) := []
deriving DecidableEq, Repr

/-! ### A director core -/

/-- An inline-cache entry (R387). -/
structure IcEntry where
  site : BitVec 12
  shape : BitVec 32
  cls : BitVec 32
  result : Word
deriving DecidableEq, Repr

/-- A set of the inline cache store: four ways and the replacement counter. -/
structure IcSet where
  ways : List (Option IcEntry) := [none, none, none, none]
  ctr : BitVec 2 := 0
deriving DecidableEq, Repr

/-- An in-flight entry (R400): sequence number, handles, the root they are translated under, and the status of a failed
one. -/
structure InFlight where
  seq : Nat
  handles : List Word
  root : Option Word := none
  failed : Option Nat := none
deriving DecidableEq, Repr

/-- A body in the tensor issue buffer (R396, R402): kind, cluster or queue, sequence number, words and the root it is
translated under. -/
structure TxBody where
  kind : Nat
  dst : Nat
  seq : Nat
  words : List Word
  root : Word
deriving DecidableEq, Repr

/-- What an engine has reported to the hold unit (R398): who reports, sequence number, status, payload and the writes it
covers. -/
structure Report where
  sender : Nat
  seq : Nat
  status : Nat
  payload : BitVec 512
  cover : List Nat := []
deriving DecidableEq, Repr

/-- An interpreter context that is not on its core (R402): pc, x and f registers, exception entry, and whether ixdb's call
started it (R406). -/
structure Context where
  pc : Word
  x : KMap Word
  f : KMap Word
  entry : Option Word := none
  called : Bool := false
deriving DecidableEq, Repr

/-- What a take-over routine's caller saved (R429): the set and its failed owner, the context, the mode and the S-mode
registers. -/
structure Routine where
  set : Nat
  failed : Nat
  ctx : Context
  user : Bool
  frm : BitVec 3
  fflags : BitVec 5
  sstatus : Word
  sepc : Word
  scause : Word
  stval : Word
  sscratch : Word
  sie : Word
  satp : Word
  scounteren : Word
  senvcfg : Word
  sip : Word
  stvec : Word
  fillSite : BitVec 12
  fillShape : BitVec 32
  trapped : Bool
  resv : Option (Nat × Nat)
deriving DecidableEq, Repr

/-- A director core (R402, and the RISC-V state of log 6). The floating-point unit is on at
reset (sstatus.FS = 3). `trapped` holds from a thread's exception until Stagehouse has
disposed of it (R451); `called` while ixdb's call started the thread on it (R406); `routine` while a take-over routine
runs: the core as its caller had it, and the address it returns to (R429). -/
structure Dir where
  pc : Word := 0
  user : Bool := false
  x : KMap Word := []
  f : KMap Word := []
  frm : BitVec 3 := 0
  fflags : BitVec 5 := 0
  sstatus : Word := 0x6000
  stvec : Word := 0
  sepc : Word := 0
  scause : Word := 0
  stval : Word := 0
  sscratch : Word := 0
  sie : Word := 0
  sip : Word := 0
  satp : Word := 0
  scounteren : Word := 0
  senvcfg : Word := 0
  instret : Word := 0
  resv : Option (Nat × Nat) := none
  txseq : BitVec 32 := 0
  permit : Bool := false
  fillSite : BitVec 12 := 0
  fillShape : BitVec 32 := 0
  ic : KMap IcSet := []
  flight : List InFlight := []
  tib : List TxBody := []
  reports : List Report := []
  appends : List Word := []
  hrbase : Word := 0
  hrsize : BitVec 5 := 8
  hrhead : BitVec 16 := 0
  hrtail : BitVec 16 := 0
  inbox : List Entry := []
  ring : List Entry := []
  ringSize : Nat := 256
  ringBase : Word := 0
  svcCount : BitVec 32 := 0
  run : Run := .active
  injected : Bool := false
  view : KMap Nat := []
  captured : List Nat := []
  excEntry : Option Word := none
  takeover : List (Nat × Word) := []
  tlb : List TlbEntry := []
  trapped : Bool := false
  called : Bool := false
  contexts : List Context := []
  routine : Option (Routine × Word) := none
  stopAfter : Option Nat := none
deriving DecidableEq, Repr

/-! ### The package -/

/-- Who made a write: a core's harts, the director cores, an engine or unit of a cluster, slice or domain, or the
host (R11). -/
inductive Writer where
  | core (n : Nat)
  | dirs
  | cluster (n : Nat)
  | slice (n : Nat)
  | domain (n : Nat)
  | host
deriving DecidableEq, Repr

/-- One write of a granule's coherence order (R206): its place, the granule before it, who made it (for a core, which
of its harts; for a director, which core), the scope it is published at, and whether it was made in place (R207). -/
structure WriteRec where
  seq : Nat
  loc : Nat
  before : Gran
  writer : Writer
  makers : Nat := 0
  pub : Option Nat
  place : Bool := false
deriving DecidableEq, Repr

/-- A partition (R440): clusters, memory ranges as base and size, root, PASID, queues, director cores, debug word and
configured services; and the .text regions of the images loaded for it, as address and length (R124). -/
structure Partition where
  clusters : List Nat := []
  ranges : List (Nat × Nat) := []
  root : Word := 0
  pasid : Nat := 0
  queues : List Nat := []
  dcs : BitVec 16 := 0
  dbg : BitVec 3 := 0
  svcs : List Nat := []
  text : List (Nat × Nat) := []
deriving DecidableEq, Repr

/-- An act of a play (R454). -/
structure Act where
  entry : Word
  latency : Bool
  depth : Nat
  down : List Nat := []
deriving DecidableEq, Repr

/-- A launched play (R255, R421, R453); `image`: offset and length of its scratchpad image, and the allocations made for
it as core, entry and generation (R28); `pool`: where its save areas lie, as address and length (R256). -/
structure Play where
  part : Nat
  acts : List Act
  lives : KMap (Option (BitVec 128)) := []
  clusters : List Nat
  image : Option (Nat × Nat) := none
  imageAllocs : List (Nat × Nat × BitVec 16) := []
  pool : Nat × Nat := (0, 0)
  entry : Nat := 0
  error : Option Nat := none
  ended : Bool := false
deriving DecidableEq, Repr

/-- A die queue (R231): entries with their sequence numbers, tail and expected number. -/
structure DieQ where
  ents : List (Vec × BitVec 32) := []
  tail : BitVec 32 := 0
  want : BitVec 32 := 0
deriving DecidableEq, Repr

/-- A combine context (R234): operation, scope, group at that scope, members, partition, contributions so far, rounds
ended, and the results not yet taken as (hart, round, result). -/
structure Combine where
  op : Nat
  scope : Nat
  group : Nat
  n : Nat
  part : Nat := 0
  got : List (Nat × BitVec 1024) := []
  round : Nat := 0
  results : List (Nat × Nat × BitVec 1024) := []
deriving DecidableEq, Repr

/-- A queue set's registers (R418), the next completion number (R423), and its take-over: whether its standby has the
message of R424, whether a take-over is under way (R425), and another standby than the first one. -/
structure QSet where
  hold : Bool := false
  owner : BitVec 4 := 0
  jsize : BitVec 5 := 12
  jtail : BitVec 32 := 0
  jlbase : Word := 0
  jlhead : BitVec 32 := 0
  compSeq : BitVec 32 := 0
  alarm : Bool := false
  taking : Bool := false
  standby : Option Nat := none
deriving DecidableEq, Repr

/-- A play-table entry (R421): words 0 to 4. -/
structure PEntry where
  w0 : Word := 0
  w1 : Word := 0
  w2 : Word := 0
  w3 : Word := 0
  w4 : Word := 0
deriving DecidableEq, Repr

/-- A queue slot (R419): queue, the wait conditions of its head packet as signal and value, whether it also waits for the
delivery of the earlier packets, and when it began to wait. -/
structure QSlot where
  queue : Nat
  conds : List (Nat × Int)
  order : Bool
  since : Nat
deriving DecidableEq, Repr

/-- A packet that its thread has begun to serve (R417), or keeps by its position (R425, R428). Its stage: 0 nothing done,
1 journaled fetched, 2 read index stored, 3 launch intent journaled for `entry`, 4 entry created, 5 seeded, 6 journaled
launched. `replay` until the take-over that found it has served it. -/
structure Kept where
  queue : Nat
  pos : Nat
  packet : BitVec 128
  replay : Bool := false
  stage : Nat := 2
  entry : Nat := 0
deriving DecidableEq, Repr

/-- A pending service call (R426): packet, caller id, call number. -/
structure Call where
  packet : BitVec 256
  caller : Nat
  n : BitVec 32
deriving DecidableEq, Repr

/-- A service's call ring and firmware version (R426, R427). -/
structure Svc where
  size : Nat := 256
  calls : List Call := []
  version : Nat := 0
deriving DecidableEq, Repr

/-- A fault-buffer entry (R438), with the cues that wait on it, first to last: hart, play and home of each; and the
director cores whose threads wait on it (R451). -/
structure FaultEnt where
  page : Word
  part : Nat
  kinds : BitVec 3
  cues : List (Nat × Nat × Word)
  dcs : List Nat := []
  at_ : Nat
deriving DecidableEq, Repr

/-- A queue packet a director core issued (R394, R398): queue, position, core and sequence number. -/
structure Issued where
  queue : Nat
  pos : Nat
  dc : Nat
  seq : Nat
deriving DecidableEq, Repr

/-- A message of an engine, unit or Stagehouse on its way: sender, receiver, entry. -/
structure Transit where
  sender : Nat
  receiver : Nat
  entry : Entry
deriving DecidableEq, Repr

/-- The host registers of R433, with what the last read of the host, of a register and of configuration space gave, the
CXL error interrupt (R449), whether a start left a dump unzeroed (R449), and the error of a start that halted (R442). -/
structure HostRegs where
  step : Nat := 0
  mbfree : Bool := true
  dump : Bool := false
  dumpKept : Bool := false
  fatal : Bool := false
  ready : Bool := false
  cap : Nat := 1800
  tj : Nat := 0
  power : Nat := 0
  cmd : Word := 0
  mbstat : Word := 0
  data : KMap Word := []
  width : Nat := 16
  rate : Nat := 128
  lastRead : List Byte := []
  lastConfig : Bool := false
  lastReg : Word := 0
  errIrq : Bool := false
  ioError : Bool := false
  acked : Nat := 0
deriving DecidableEq, Repr

/-- A training record (R444): the unit (a stack, a die link or a Glenal port), its settings, and the temperature,
voltage in millivolts, serial number and training-firmware version it was trained at, signed. -/
structure TrainRec where
  unit : Nat
  settings : Word := 0
  temp : Nat
  volt : Nat := 0
  serial : Word := 0
  version : Nat := 0
  mac : BitVec 256 := 0
deriving DecidableEq, Repr

/-- What a start meets outside (R442, R444): the voltage, the stacks' and links' serial numbers, the version of the
training firmware, the units that fail the pattern test, and the firmware images whose signature fails. -/
structure Outside where
  volt : Nat := 0
  serials : KMap Word := []
  version : Nat := 0
  badPattern : List Nat := []
  badImages : List Nat := []
deriving DecidableEq, Repr

/-- A base die (R6): rows repaired as (row, spare), its training result, refreshes managed, and the turns its decompressor
has given (R316). -/
structure BaseDie where
  repaired : List (Nat × Nat) := []
  trained : Option TrainRec := none
  refreshes : Nat := 0
  turns : Nat := 0
deriving DecidableEq, Repr

/-- A Glenal port under its controller (R9): its training result, credits, and routes as (package, next port). -/
structure Glenal where
  trained : Option TrainRec := none
  credits : Nat := 0
  routes : List (Nat × Nat) := []
deriving DecidableEq, Repr

/-- What the module flash keeps (R444): training records, wear counters, leaf index, fatal record, checkpointed peak and
lowest temperature. -/
structure Flash where
  training : List TrainRec := []
  wear : List Nat := [0, 0, 0, 0, 0]
  leaf : Nat := 0
  fatal : Option (Word × Word) := none
  peak : Nat := 0
  low : Nat := 0
deriving DecidableEq, Repr

/-- One piece of ixdb output, with its numbers (R39, R40). An element of memory carries its format, from which R344 gives
the form of the number: bits [3:0] the code of R27, bit 4 an nN format; .nN and raw stand in hexadecimal, others in
decimal. -/
inductive DbgOut where
  | stop (unit : Nat) (pc : Word) (reason : Nat)
  | reg (id : Nat) (val : Vec) (gen : BitVec 8) (state : Nat) (poison : Bool) (fmt : BitVec 4)
  | word (addr : Nat) (fmt : BitVec 5) (val : Word)
  | granule (off : Nat) (tag : BitVec 16) (state : Nat) (poison : Bool) (words : List Nat)
  | rcd (addr : Word) (val : BitVec 512)
  | entry (index : Nat) (words : List Word)
  | instr (i : Option Instr) (width : Nat) (bits : Word)
  | line (pc : Word)
  | done (play : Nat) (error : Option Nat)
  | changed (addr : Nat) (old new : Word)
  | refused
deriving DecidableEq, Repr

/-- The debugger (R39, R40, R125): attached or not and to which partition, selected unit (a hart number, or 49152 + a
director core), the queue Stagehouse reserves for it (R371), followed cue, breakpoints, units that pass the breakpoint they stand at with its address, watched words, plays it
started, its runs by packet position with the harts they list (R371), threads it started, output newest first. -/
structure Debugger where
  attached : Bool := false
  part : Nat := 0
  queue : Option Nat := none
  sel : Option Nat := none
  follow : Option Word := none
  breaks : List Word := []
  skip : List (Nat × Word) := []
  watches : List (Nat × Word) := []
  plays : List Nat := []
  runs : List (Nat × List Nat) := []
  threads : List Nat := []
  out : List DbgOut := []
deriving DecidableEq, Repr

/-- The agent whose turn it is when the agenda names none. -/
inductive Agent where
  | hart (n : Nat)
  | dir (n : Nat)
deriving DecidableEq, Repr

/-- Where Stagehouse's tables and routines lie in its address space (R428). -/
structure Symbols where
  qtab : Word
  ptab : Word
  launch : Word
  reseed : Word
deriving DecidableEq, Repr

/-- An act of Stagehouse, the host or the world that no row of the opcode table stands for (log 103). -/
inductive Setup where
  /-- The host assigns HBASE at enumeration (R15). -/
  | hbase (base : Nat)
  /-- What the next start meets outside (R442, R444). -/
  | outside (o : Outside)
  /-- Stagehouse configures a combine context (R234). -/
  | combine (ctx : Nat) (c : Option Combine)
  /-- Stagehouse sets a receiver's overflow ring (R228). -/
  | ring (id size : Nat) (base : Word)
  /-- A service's call ring (R426). -/
  | callRing (svc size : Nat)
  /-- Where the queue table lies in HBM (R409), and the descriptor of a queue. -/
  | queueTable (base : Word)
  | queueInit (q : Nat) (base : Word) (size : Nat)
  /-- The queue reserved for ixdb (R371). -/
  | ixdbQueue (q : Nat)
  /-- A slice's token counters `lo` to `hi` are a play's (R339). -/
  | tokens (slice play lo hi : Nat)
  /-- Stagehouse resets a core's in-flight table (R400). -/
  | flight (dc : Nat)
  /-- Stagehouse has loaded an image with director code (R405). -/
  | loadDirector
  /-- Stagehouse maps its own tables and routines (R428). -/
  | symbols (y : Symbols)
  /-- A scheduler thread writes its heartbeat word (R417). -/
  | heartbeat (n : Nat)
  /-- An uncorrectable error: an x, v or m register, an accumulator granule, a line of a read cache, of an L2 slice
  (R282). -/
  | softX (hart reg : Nat)
  | softV (hart reg : Nat)
  | softM (hart reg : Nat)
  | softAcc (cluster gran : Nat)
  | softCache (core line : Nat)
  | softL2 (line : Nat)
  /-- A line enters or leaves a read cache, or an L2 slice (R16, R19). -/
  | cacheFill (core line : Nat)
  | cacheDrop (core line : Nat)
  | l2Fill (line : Nat)
  | l2Drop (line : Nat)
  /-- A base die repairs a row (R6); a Glenal controller sets a route or grants credits (R9). -/
  | rowRepair (stack row spare : Nat)
  | glenalRoute (port package next : Nat)
  | glenalCredit (port n : Nat)
  /-- The host reads `len` bytes of its registers (R433). -/
  | regRead (off len : Nat)
  /-- Stagehouse maps a stack for a thread on a director core (R406). -/
  | threadStack (dc : Nat) (top : Word)
  /-- The loader reports a .text region of an image of a partition (R124). -/
  | text (part base len : Nat)
  /-- The configured window of the fault buffer, and timeout of wait cycles, in the time base (R438, R419). -/
  | faultWindow (n : Nat)
  | waitTimeout (n : Nat)
  /-- Stagehouse notices a wait cycle (R419). -/
  | waitCycle (members : List Nat)
  /-- A receiver's ring entries reach global memory (R228). -/
  | ringStore (id : Nat)
  /-- A scheduler thread takes one step of serving a queue (R417), with the choices of a play launch. -/
  | launchStep (q : Nat) (harts : List Nat) (pool : BitVec 64) (share : Nat) (recs : BitVec 64)
  /-- Stagehouse serves a call of stg.launch or stg.reseed on a director core (R428), with the choices of a launch. -/
  | stgCall (dc : Nat) (harts : List Nat) (pool : BitVec 64) (share : Nat) (recs : BitVec 64)
deriving DecidableEq, Repr

/-- What happens next (log 1): an agent runs one instruction (`part` publishes only that many of a release's entries,
R209); an event row of the opcode table happens; cycles pass; the house code of a hart makes one turn of the house
loop (R240-R242) or disposes of the trap it was entered with (R452, R145); Stagehouse disposes of the exception of a
thread on a director core (R451); an act of `Setup`. -/
inductive Turn where
  | run (a : Agent) (part : Option Nat)
  | event (i : Instr)
  | elapse (n : Nat)
  | houseLoop (hart : Nat)
  | houseTrap (hart : Nat)
  | dirTrap (dc : Nat)
  | taskWork (slice k elem n : Nat)
  | txSend (dc : Nat)
  | setup (c : Setup)
deriving DecidableEq, Repr

/-- The machine. `seals` are the regions sealed by seal, each by its physical runs (R198); `beats` the heartbeat words of
the scheduler threads and when each was written (R417); `targets` the harts chosen for the seeds of a play-table entry
(R428); `ranges` the token counters of plays as slice, play, first and
last (R339); `threadStacks` the stacks Stagehouse has provided to threads: core, top, and whether a thread has it (R406);
`cycles` the wait cycles Stagehouse has noticed, and when (R419);
`trapTimes` the harts and times of double traps (R449); `warm` says that the module has kept its power since the last
reset (R446, R449). -/
structure State where
  cur : Agent := .hart 0
  agenda : List Turn := []
  picks : Nat := 0
  part : Option Nat := none
  harts : KMap Hart := []
  cores : KMap Core := []
  clusters : KMap Cluster := []
  slices : KMap Slice := []
  dirs : KMap Dir := []
  dirBuf : List SbEntry := []
  mem : KMap Byte := []
  memPoison : KMap Bool := []
  hbase : Nat := 0x8000000000
  online : Bool := true
  log : List WriteRec := []
  seq : Nat := 0
  cycle : Word := 0
  time : Word := 0
  tfrac : Nat := 0
  mhz : Nat := 1200
  sealTable : List (Nat × Nat × Bool) := []
  seals : List (List (Nat × Nat)) := []
  parts : KMap Partition := []
  plays : KMap Play := []
  dieqs : KMap DieQ := []
  combine : KMap (Option Combine) := []
  kicks : BitVec 256 := 0
  qsets : KMap QSet := []
  ptab : KMap PEntry := []
  targets : KMap (List Nat) := []
  serving : List Nat := []
  kept : List Kept := []
  qslots : List QSlot := []
  evicted : List QSlot := []
  qtable : Word := 0
  svcs : KMap Svc := []
  faults : KMap (Option FaultEnt) := []
  faultOver : List FaultEnt := []
  faultWindow : Nat := 2000
  waitTimeout : Nat := 100000000
  cycles : List (List Nat × Nat) := []
  transit : List Transit := []
  issued : List Issued := []
  symbols : Option Symbols := none
  beats : KMap (Word × Nat) := []
  ranges : List (Nat × Nat × Nat × Nat) := []
  threadStacks : List (Nat × Word × Bool) := []
  bases : KMap BaseDie := []
  glenal : KMap Glenal := []
  outside : Outside := {}
  host : HostRegs := {}
  flash : Flash := {}
  meas : List (BitVec 256) := [0, 0, 0, 0]
  tempPeak : Nat := 0
  tempLow : Nat := 0
  clearSince : Option Nat := none
  doubleTraps : List Nat := []
  trapTimes : List (Nat × Nat) := []
  warm : Bool := false
  dbg : Debugger := {}
  freeCount : Nat := 0
deriving DecidableEq, Repr

/-- The machine right after reset (R281 and the reset columns of R127, R191, R237, R260, R402, R418, R433): nothing is
listed anywhere, so every numbered part reads as its reset record. Values the manual does not give: log 3, 4, 5, 6. -/
def State.reset : State := {}

end Sys2Proof.Machine
end

