-- ==== Sys2Proof/Machine/Memory.lean ====
section
/-!
DEFINITION. Memory as the agents see it: the parts of the machine by number, the address spaces of R175, allocations
and granules (R277, R278), the coherence order (R206), store buffers, release, refresh and the value of a load
(R207-R211).
-/

namespace Sys2Proof.Machine

/-! ### Parts by number (R4, R10) -/

def coreOf (h : Nat) : Nat := h / 4
def clusterOf (core : Nat) : Nat := core / 16
def sliceOf (cluster : Nat) : Nat := cluster / 16
def domainOf (slice : Nat) : Nat := slice / 6
def dieOf (domain : Nat) : Nat := domain / 2
/-- The cluster of a hart. -/
def hartCluster (h : Nat) : Nat := clusterOf (coreOf h)
def hartSlice (h : Nat) : Nat := sliceOf (hartCluster h)
def hartDie (h : Nat) : Nat := dieOf (domainOf (hartSlice h))

def State.hart (s : State) (n : Nat) : Hart := KMap.get {} s.harts n
def State.setHart (s : State) (n : Nat) (h : Hart) : State := { s with harts := KMap.set {} s.harts n h }
def State.core (s : State) (n : Nat) : Core := KMap.get {} s.cores n
def State.setCore (s : State) (n : Nat) (c : Core) : State := { s with cores := KMap.set {} s.cores n c }
def State.cluster (s : State) (n : Nat) : Cluster := KMap.get {} s.clusters n
def State.setCluster (s : State) (n : Nat) (c : Cluster) : State := { s with clusters := KMap.set {} s.clusters n c }
def State.slice (s : State) (n : Nat) : Slice := KMap.get {} s.slices n
def State.setSlice (s : State) (n : Nat) (c : Slice) : State := { s with slices := KMap.set {} s.slices n c }
def State.dir (s : State) (n : Nat) : Dir := KMap.get {} s.dirs n
def State.setDir (s : State) (n : Nat) (d : Dir) : State := { s with dirs := KMap.set {} s.dirs n d }
/-- A queue set's registers; its reset owner is director core 4n (R418). -/
def State.qset (s : State) (n : Nat) : QSet := KMap.get { owner := BitVec.ofNat 4 (4 * n) } s.qsets n
def State.setQset (s : State) (n : Nat) (q : QSet) : State :=
  { s with qsets := KMap.set { owner := BitVec.ofNat 4 (4 * n) } s.qsets n q }

/-- The partition whose cluster mask holds the cluster (R440). -/
def State.partOfCluster (s : State) (k : Nat) : Option (Nat × Partition) := s.parts.find? fun p => p.2.clusters.contains k
/-- The partition whose director-core mask names the core (R440). -/
def State.partOfDir (s : State) (d : Nat) : Option (Nat × Partition) := s.parts.find? fun p => p.2.dcs.getLsbD d

/-! ### Scopes (R10-R12) -/

/-- The group of an agent at a scope, where it belongs to one. -/
def Writer.group (w : Writer) (scope : Nat) : Option Nat :=
  match w with
  | .core n =>
    match scope with
    | 0 => some n
    | 1 => some (n / 16)
    | 2 => some (n / 256)
    | 3 => some (n / 1536)
    | _ => some 0
  | .cluster n =>
    match scope with
    | 0 => none
    | 1 => some n
    | 2 => some (n / 16)
    | 3 => some (n / 96)
    | _ => some 0
  | .slice n =>
    match scope with
    | 0 | 1 => none
    | 2 => some n
    | 3 => some (n / 6)
    | _ => some 0
  | .domain n =>
    match scope with
    | 0 | 1 | 2 => none
    | 3 => some n
    | _ => some 0
  | .dirs => if scope < 4 then none else some 0
  | .host => if scope < 5 then none else some 0

/-- The narrowest scope an agent belongs to. -/
def Writer.narrowest : Writer → Nat
  | .core _ => 0
  | .cluster _ => 1
  | .slice _ => 2
  | .domain _ => 3
  | .dirs => 4
  | .host => 5

/-- A named scope, widened for the naming agent (R12). -/
def Writer.widen (w : Writer) (scope : Nat) : Nat := max scope w.narrowest

/-- Two agents belong to one group at a scope (R12). -/
def sameGroup (a b : Writer) (scope : Nat) : Bool :=
  match a.group scope, b.group scope with
  | some x, some y => x == y
  | _, _ => false

/-! ### Address spaces (R175, R177, R450) -/

/-- Where an address lies. -/
inductive Space where
  | bank (core off : Nat)
  | global
  | reserved
  | none
deriving DecidableEq, Repr

def ownBase : Nat := 0xFFFFFFFFFFFE0000
def reservedBase : Nat := 0xFFFFFFFFFFE00000
def windowBase : Nat := 0xFFFFFFFFFFC00000

/-- Bits [63:57] equal bit 56 (R175). -/
def canonical (a : Nat) : Bool := a < 2 ^ 56 || 2 ^ 64 - 2 ^ 56 ≤ a

/-- The space of an address for an agent whose own bank is that of `core`. -/
def spaceOf (core a : Nat) : Space :=
  if ownBase ≤ a then .bank core (a - ownBase)
  else if reservedBase ≤ a then .reserved
  else if windowBase ≤ a then .bank (clusterOf core * 16 + (a - windowBase) / 2 ^ 17) ((a - windowBase) % 2 ^ 17)
  else if canonical a then .global
  else .none

/-- The row of R175 an address lies in. -/
def rowOf (a : Nat) : Nat :=
  if ownBase ≤ a then 0
  else if reservedBase ≤ a then 1
  else if windowBase ≤ a then 2
  else if canonical a then 3
  else 4

/-- Address arithmetic is modulo 2^64 (R184). -/
def addrAdd (a i : Nat) : Nat := (a + i) % 2 ^ 64

/-- The first byte of an access that lies outside the first byte's row (R177). -/
def rowBreak (a n : Nat) : Option Nat :=
  ((List.range n).find? fun i => rowOf (addrAdd a i) != rowOf a).map (addrAdd a)

/-! ### Granules -/

/-- The key of a memory granule: physical address / 32. -/
def locMem (g : Nat) : Nat := 2 * g
/-- The key of a bank granule. -/
def locBank (core gran : Nat) : Nat := 2 * (core * 4096 + gran) + 1
def locIsMem (l : Nat) : Bool := l % 2 == 0
def locGran (l : Nat) : Nat := l / 2
def locCore (l : Nat) : Nat := l / 2 / 4096
def locIdx (l : Nat) : Nat := l / 2 % 4096

/-- A physical address in local HBM (R15); no address is, while the host has not brought it online. -/
def State.inHbm (s : State) (pa : Nat) : Bool := s.online && decide (s.hbase ≤ pa ∧ pa < s.hbase + 2 ^ 39)
/-- The slice whose L2 holds the home copy of the line of an HBM address, and where its atomics are performed (R16). -/
def State.homeSlice (s : State) (pa : Nat) : Nat :=
  let o := pa - s.hbase
  6 * (o / 2 ^ 36 % 8) + o % 2 ^ 36 / 64 % 6
/-- A granule of host memory (R15). -/
def State.hostLoc (s : State) (loc : Nat) : Bool := locIsMem loc && !s.inHbm (32 * locGran loc)
/-- The 64-byte line of a memory granule, which carries the poison mark (R179). -/
def lineOf (loc : Nat) : Nat := locGran loc / 2

/-- What an unlisted byte of memory reads as (log 4). -/
def Memory.blank : Byte := 0
/-- The canonical form of memory: rising addresses, no entry equal to what an unlisted one reads as. -/
def Memory.wf (m : KMap Byte) : Bool := KMap.wf Memory.blank m
/-- The byte at a physical address. -/
def Memory.byte (m : KMap Byte) (a : Nat) : Byte := KMap.get Memory.blank m a
/-- Memory with one byte written. -/
def Memory.setByte (m : KMap Byte) (a : Nat) (b : Byte) : KMap Byte := KMap.set Memory.blank m a b
/-- Memory with bytes written from `a` upwards. -/
def Memory.setBytes (m : KMap Byte) (a : Nat) : List Byte → KMap Byte
  | [] => m
  | b :: t => Memory.setBytes (Memory.setByte m a b) (a + 1) t

/-- Bytes of a map from `a` upwards. -/
def getBytes (m : KMap Byte) : Nat → Nat → List Byte
  | _, 0 => []
  | a, n + 1 => KMap.get 0 m a :: getBytes m (a + 1) n

/-- A map with bytes written from `a` upwards. -/
def putBytes (m : KMap Byte) : Nat → List Byte → KMap Byte
  | _, [] => m
  | a, b :: t => putBytes (KMap.set 0 m a b) (a + 1) t

/-- The granule a key names, at its home now. -/
def State.homeGran (s : State) (loc : Nat) : Gran :=
  if locIsMem loc then
    { data := putBytes [] 0 (getBytes s.mem (32 * locGran loc) 32), poison := KMap.get false s.memPoison (lineOf loc) }
  else KMap.get {} (s.core (locCore loc)).gran (locIdx loc)

/-- A sealed memory range covers the physical address (R199). -/
def State.sealedAt (s : State) (pa : Nat) : Bool := s.sealTable.any fun e => e.1 ≤ pa && pa < e.1 + e.2.1

/-- The live allocation that covers a byte offset. -/
def covering (t : KMap Alloc) (off : Nat) : Option (Nat × Alloc) :=
  t.find? fun e => e.2.st == .live && e.2.base ≤ off && off < e.2.base + 32 * e.2.len

/-- The generation that covers a bank granule now. -/
def State.coverGen (s : State) (loc : Nat) : Option (BitVec 16) :=
  (covering (s.core (locCore loc)).alloc (32 * locIdx loc)).map fun e => e.2.gen

/-- A granule is current under a covering generation (R277). -/
def Gran.current (g : Gran) (cover : Option (BitVec 16)) : Bool := cover == some g.tag

/-- A write of bytes to a tagged granule under the covering generation `gen` (R277): a whole write replaces bytes, tag
and poison; a partial write keeps the poison of a current granule and zeroes a stale one first. -/
def Gran.write (g : Gran) (gen : BitVec 16) (off : Nat) (bytes : List Byte) (poison : Bool) : Gran :=
  if bytes.length = 32 then { data := putBytes [] 0 bytes, tag := gen, poison := poison }
  else if g.tag = gen then { g with data := putBytes g.data off bytes, poison := g.poison || poison }
  else { data := putBytes [] off bytes, tag := gen, poison := poison }

/-- What a read of a tagged granule sees: a granule that is not current is zero and not poisoned (R277). -/
def Gran.seen (g : Gran) (cover : Option (BitVec 16)) : Gran := if g.current cover then g else { tag := g.tag }

/-! ### Writes at the home -/

/-- Wake the watches on a granule: mark them; the wake itself is in Ops. -/
def State.watchers (s : State) (loc : Nat) : List (Nat × Watch) :=
  s.cores.flatMap fun c => (c.2.watch.filter fun w => w.on == .word loc).map fun w => (c.1, w)

/-- One write takes its place in the coherence order of its granule (R206). A scratchpad write whose recorded
generation no longer covers the granule is discarded (R278). -/
def State.writeHome (s : State) (w : Writer) (makers : Nat) (pub : Option Nat) (place : Bool) (c : Chunk) : State :=
  let before := s.homeGran c.loc
  let rcd : WriteRec := ⟨s.seq + 1, c.loc, before, w, makers, pub, place⟩
  if locIsMem c.loc then
    let g := locGran c.loc
    let p := if c.line then c.poison else before.poison || c.poison
    { s with
      mem := Memory.setBytes s.mem (32 * g + c.off) c.bytes
      memPoison := KMap.set false s.memPoison (lineOf c.loc) p
      log := rcd :: s.log
      seq := s.seq + 1 }
  else if s.coverGen c.loc = some c.gen then
    let k := locCore c.loc
    let co := s.core k
    let s := s.setCore k { co with gran := KMap.set {} co.gran (locIdx c.loc) (before.write c.gen c.off c.bytes c.poison) }
    { s with log := rcd :: s.log, seq := s.seq + 1 }
  else s

/-- A run of bytes at rising offsets, from the bytes an entry holds. -/
def SbEntry.runs (e : SbEntry) : List (Nat × List Byte) :=
  let step (acc : List (Nat × List Byte)) (i : Nat) : List (Nat × List Byte) :=
    match KMap.get none e.bytes i with
    | none => acc
    | some b =>
      match acc with
      | (o, bs) :: t => if o + bs.length = i then (o, bs ++ [b]) :: t else (i, [b]) :: acc
      | [] => [(i, [b])]
  ((List.range 32).foldl step []).reverse

/-- A store-buffer entry overlaid on a granule (R211). -/
def SbEntry.over (e : SbEntry) (g : Gran) : Gran :=
  e.runs.foldl (fun g r => if locIsMem e.loc then { g with data := putBytes g.data r.1 r.2, poison := g.poison && !e.line }
    else g.write e.gen r.1 r.2 false) g

/-- A buffer entry is published whole: one write of its granule (R207, R206). -/
def State.publishEntry (s : State) (w : Writer) (scope : Nat) (e : SbEntry) : State :=
  let before := s.homeGran e.loc
  let rcd : WriteRec := ⟨s.seq + 1, e.loc, before, w, e.makers, some scope, false⟩
  if locIsMem e.loc then
    let g := locGran e.loc
    { s with
      mem := e.runs.foldl (fun m r => Memory.setBytes m (32 * g + r.1) r.2) s.mem
      memPoison := KMap.set false s.memPoison (lineOf e.loc) (before.poison && !e.line)
      log := rcd :: s.log
      seq := s.seq + 1 }
  else if s.coverGen e.loc = some e.gen then
    let k := locCore e.loc
    let co := s.core k
    let s := s.setCore k { co with gran := KMap.set {} co.gran (locIdx e.loc) (e.over before) }
    { s with log := rcd :: s.log, seq := s.seq + 1 }
  else s

/-! ### Store buffers (R207, R208) -/

/-- Bytes into a buffer entry. -/
def putSb (m : KMap (Option Byte)) : Nat → List Byte → KMap (Option Byte)
  | _, [] => m
  | a, b :: t => putSb (KMap.set none m a (some b)) (a + 1) t

/-- A store enters a buffer that has an entry for its granule, or has room: it merges, or takes a new entry at the
end. An entry recorded under another generation is started afresh, since its bytes can never land (R278). -/
def sbStore (b : List SbEntry) (maker : Nat) (c : Chunk) : List SbEntry :=
  let fresh : SbEntry := ⟨c.loc, putSb [] c.off c.bytes, 2 ^ maker, c.gen, c.line, [c.page]⟩
  if b.any fun e => e.loc == c.loc then
    b.map fun e =>
      if e.loc = c.loc then
        if e.gen = c.gen then
          { e with bytes := putSb e.bytes c.off c.bytes, makers := e.makers ||| 2 ^ maker, line := e.line || c.line
                   pages := if e.pages.contains c.page then e.pages else e.pages ++ [c.page] }
        else fresh
      else e
  else b ++ [fresh]

/-- Set pflow in every hart of a core (R208). -/
def State.setPflow (s : State) (core : Nat) : State :=
  [0, 1, 2, 3].foldl (fun s j => s.setHart (core * 4 + j) { s.hart (core * 4 + j) with pflow := true }) s

/-- Entries of a phase store buffer (R207). -/
def psbSize : Nat := 512

/-- Publish the oldest entry early, at system scope (R208). -/
def State.earlyPublish (s : State) (core : Nat) : State :=
  match (s.core core).psb with
  | [] => s
  | e :: t =>
    let s := s.setCore core { s.core core with psb := t }
    (s.publishEntry (.core core) 5 e).setPflow core

/-- One part of a hart's store (R207): in place in its own bank, else into the phase store buffer. -/
def State.hartStore (s : State) (h : Nat) (c : Chunk) : State :=
  let k := coreOf h
  if c.own then s.writeHome (.core k) (2 ^ (h % 4)) none true c
  else
    let b := (s.core k).psb
    let s := if psbSize ≤ b.length && !(b.any fun e => e.loc == c.loc) then s.earlyPublish k else s
    s.setCore k { s.core k with psb := sbStore (s.core k).psb (h % 4) c }

/-- One part of a director core's store: the director cores share what they have not yet published (R212). -/
def State.dirStore (s : State) (d : Nat) (c : Chunk) : State := { s with dirBuf := sbStore s.dirBuf d c }

/-! ### Release and refresh (R209, R210) -/

/-- A reader or releaser: a hart or a director core. -/
def Agent.writer : Agent → Writer
  | .hart n => .core (coreOf n)
  | .dir _ => .dirs
/-- Its bit among the makers of a write. -/
def Agent.maker : Agent → Nat
  | .hart n => 2 ^ (n % 4)
  | .dir n => 2 ^ n

def State.captured (s : State) (a : Agent) : List Nat :=
  match a with
  | .hart n => (s.hart n).captured
  | .dir n => (s.dir n).captured
def State.view (s : State) (a : Agent) : KMap Nat :=
  match a with
  | .hart n => (s.hart n).view
  | .dir n => (s.dir n).view
def State.setView (s : State) (a : Agent) (v : KMap Nat) : State :=
  match a with
  | .hart n => s.setHart n { s.hart n with view := v }
  | .dir n => s.setDir n { s.dir n with view := v }
def State.setCaptured (s : State) (a : Agent) (l : List Nat) : State :=
  match a with
  | .hart n => s.setHart n { s.hart n with captured := l }
  | .dir n => s.setDir n { s.dir n with captured := l }

/-- The buffer an agent's stores wait in. -/
def State.buffer (s : State) (a : Agent) : List SbEntry :=
  match a with
  | .hart n => (s.core (coreOf n)).psb
  | .dir _ => s.dirBuf
def State.setBuffer (s : State) (a : Agent) (b : List SbEntry) : State :=
  match a with
  | .hart n => s.setCore (coreOf n) { s.core (coreOf n) with psb := b }
  | .dir _ => { s with dirBuf := b }

/-- The entry holds a store of the agent. -/
def SbEntry.madeBy (e : SbEntry) (a : Agent) : Bool := e.makers &&& a.maker != 0

/-- The entries a release of the agent publishes, in order of allocation. -/
def State.ownEntries (s : State) (a : Agent) : List SbEntry := (s.buffer a).filter fun e => e.madeBy a

/-- Publish the agent's entry at place `k` of its entries at a scope; nothing if there is none. -/
def State.publishOne (s : State) (a : Agent) (scope k : Nat) : State :=
  match (s.ownEntries a)[k]? with
  | none => s
  | some e => (s.setBuffer a ((s.buffer a).filter fun x => x.loc != e.loc)).publishEntry a.writer scope e

/-- Publish every entry that holds a store of the agent. That other harts' bytes go with them (R207) sets no pflow bit: R208
sets it where the buffer is full (log 122). -/
def State.publishAll (s : State) (a : Agent) (scope : Nat) : State :=
  let own := s.ownEntries a
  let s := s.setBuffer a ((s.buffer a).filter fun e => !e.madeBy a)
  own.foldl (fun s e => s.publishEntry a.writer scope e) s

/-- The scope a write is published at, raised. -/
def raisePub (p : Option Nat) (scope : Nat) : Option Nat :=
  match p with
  | none => some scope
  | some q => some (max q scope)

/-- Raise what the agent made and captured to a scope (R209). -/
def State.raise (s : State) (a : Agent) (scope : Nat) : State :=
  let cap := s.captured a
  { s with log := s.log.map fun r =>
      if (r.writer == a.writer && r.makers &&& a.maker != 0) || cap.contains r.seq then { r with pub := raisePub r.pub scope }
      else r }

/-- A whole release at a named scope. -/
def State.release (s : State) (a : Agent) (scope : Nat) : State :=
  let sc := a.writer.widen scope
  (s.publishAll a sc).raise a sc

/-- The write is published to a group that holds the reader (R211). -/
def WriteRec.reaches (r : WriteRec) (w : Writer) : Bool :=
  match r.pub with
  | some p => sameGroup r.writer w p
  | none => false

/-- Move a view forward to a write. -/
def advance (v : KMap Nat) (loc seq : Nat) : KMap Nat := if KMap.get 0 v loc < seq then KMap.set 0 v loc seq else v

/-- Capture the given writes for an agent (R210). -/
def State.capture (s : State) (a : Agent) (rs : List WriteRec) : State :=
  let v := rs.foldl (fun v r => advance v r.loc r.seq) (s.view a)
  let new := (rs.map (·.seq)).filter fun q => !(s.captured a).contains q
  (s.setView a v).setCaptured a (new ++ s.captured a)

/-- Whether the copy of a granule's line in an agent's read cache has an uncorrectable error (R282). -/
def State.badCopy (s : State) (a : Agent) (loc : Nat) : Bool :=
  match a with
  | .hart n => locIsMem loc && (s.core (coreOf n)).cache.contains (lineOf loc, true)
  | .dir _ => false

/-- A refresh leaves only sealed lines in the read cache of a hart's core (R201). -/
def State.dropLines (s : State) (a : Agent) : State :=
  match a with
  | .hart n =>
    let c := s.core (coreOf n)
    if c.cache.isEmpty then s
    else s.setCore (coreOf n) { c with cache := c.cache.filter fun l => s.sealedAt (64 * l.1) }
  | .dir _ => s

/-- The granules a test names keep their contents and nothing older: every copy of them is gone, so no load sees an
earlier value (R201, R278). -/
def State.forget (s : State) (out : Nat → Bool) : State := { s with log := s.log.filter fun r => !out r.loc }

/-- A refresh at a named scope (R210). -/
def State.refresh (s : State) (a : Agent) (scope : Nat) : State :=
  let sc := a.writer.widen scope
  (s.dropLines a).capture a (s.log.filter fun r => r.reaches a.writer && sameGroup r.writer a.writer sc)

/-- Capture the writes a completion covers (R210). -/
def State.captureCover (s : State) (a : Agent) (cover : List Nat) : State :=
  s.capture a (s.log.filter fun r => cover.contains r.seq)

/-! ### What a load returns (R211, R214) -/

/-- The writes of a granule, oldest first. -/
def State.order (s : State) (loc : Nat) : List WriteRec := (s.log.filter fun r => r.loc == loc).reverse

/-- The granule after a prefix of its coherence order: before write `k` of those after the floor, or as it is now. -/
def prefixGran (home : Gran) (later : List WriteRec) (k : Nat) : Gran :=
  match later[k]? with
  | some r => r.before
  | none => home

/-- Choose one of `n + 1` outcomes; no choice is made where there is only one (log 8). -/
def State.choose (s : State) (n : Nat) : Nat × State :=
  if n = 0 then (0, s) else (Config.pick s.picks % (n + 1), { s with picks := s.picks + 1 })

/-- The bank granule belongs to the agent's own core: its reads see it as it is (R207). -/
def ownLoc (a : Agent) (loc : Nat) : Bool :=
  match a with
  | .hart n => !locIsMem loc && locCore loc == coreOf n
  | .dir _ => false

/-- The last write the agent must see: captured, read before, or made by its own core. -/
def State.floor (s : State) (a : Agent) (loc : Nat) : Nat :=
  (s.order loc).foldl (fun m r => if r.writer == a.writer then max m r.seq else m) (KMap.get 0 (s.view a) loc)

/-- A later write the prefix may include (R211). -/
def WriteRec.eligible (r : WriteRec) (a : Agent) : Bool :=
  r.reaches a.writer || (r.place && r.writer == .core (locCore r.loc))

/-- The granule an agent's load reads, overlaid with its buffered stores (R211). -/
def State.loadGran (s : State) (a : Agent) (loc : Nat) : Gran × State :=
  let laid (g : Gran) : Gran :=
    let g := if s.badCopy a loc then { g with poison := true } else g
    match (s.buffer a).find? fun e => e.loc == loc with
    | some e => if locIsMem loc || s.coverGen loc == some e.gen then e.over g else g
    | none => g
  if ownLoc a loc || (locIsMem loc && s.sealedAt (32 * locGran loc)) then (laid (s.homeGran loc), s)
  else
    let later := (s.order loc).filter fun r => s.floor a loc < r.seq
    let can := later.takeWhile fun r => r.eligible a
    let (k, s') := s.choose can.length
    let last := if k = 0 then s.floor a loc else ((can[k - 1]?).map (·.seq)).getD 0
    (laid (prefixGran (s.homeGran loc) later k), s'.setView a (advance (s'.view a) loc last))

/-- The granule an engine or walker reads: at least the writes published to its group, its own and those of `must`, at
most what has reached the home (R214). -/
def State.engineGran (s : State) (w : Writer) (loc : Nat) (must : List Nat := []) : Gran × State :=
  let ord := s.order loc
  let flr := ord.foldl (fun m r => if r.reaches w || r.writer == w || must.contains r.seq then max m r.seq else m) 0
  let later := ord.filter fun r => flr < r.seq
  let (k, s') := s.choose later.length
  (prefixGran (s.homeGran loc) later k, s')

end Sys2Proof.Machine
end

