-- ==== Sys2Proof/Machine/Translate.lean ====
section
/-!
DEFINITION. Translation (R435-R437): the Sv57 walk, the leaves of R435, the leaf checks of R436, and the micro-TLBs
and slice TLBs. The bits of a table entry are those of RISC-V (log 6).
-/

namespace Sys2Proof.Machine

/-- What an access does (R436). -/
inductive Acc where
  | read
  | write
  | fetch
deriving DecidableEq, Repr

/-- A leaf as the walk found it, with the bits R436 checks. -/
structure Leaf where
  vbase : Nat
  size : Nat
  pbase : Nat
  r : Bool
  w : Bool
  x : Bool
  u : Bool
  a : Bool
  d : Bool
deriving DecidableEq, Repr

/-- The leaf of R435 at a level, or none where its encoding is refused. -/
def leafOf (lvl va pte : Nat) : Option Leaf :=
  let ppn := bits pte 10 44
  let n := bits pte 63 1 == 1
  let pa := ppn * 4096
  let mk (size pbase : Nat) : Option Leaf :=
    some ⟨va / 2 ^ size * 2 ^ size, size, pbase, bits pte 1 1 == 1, bits pte 2 1 == 1, bits pte 3 1 == 1,
      bits pte 4 1 == 1, bits pte 6 1 == 1, bits pte 7 1 == 1⟩
  match lvl with
  | 0 => if n then (if ppn % 16 = 8 then mk 16 (pa / 2 ^ 16 * 2 ^ 16) else none) else mk 12 pa
  | 1 => if n || pa % 2 ^ 21 != 0 then none else mk 21 pa
  | 2 =>
    if pa % 2 ^ 30 ≠ 0 then none
    else if n then (if pa / 2 ^ 30 % 64 = 32 then mk 36 (pa / 2 ^ 36 * 2 ^ 36) else none)
    else mk 30 pa
  | 3 => if n || pa % 2 ^ 39 != 0 then none else mk 36 (pa + va % 2 ^ 39 / 2 ^ 36 * 2 ^ 36)
  | _ => if n || pa % 2 ^ 48 != 0 then none else mk 36 (pa + va % 2 ^ 48 / 2 ^ 36 * 2 ^ 36)

/-- A table entry at a level: a leaf, the next table, or neither. A non-leaf entry with N set, and one at level 0, are
refused. -/
def pteKind (lvl va pte : Nat) : Option (Leaf ⊕ Nat) :=
  let r := bits pte 1 1 == 1
  let w := bits pte 2 1 == 1
  let x := bits pte 3 1 == 1
  if bits pte 0 1 = 0 || (!r && w) || bits pte 54 7 != 0 then none
  else if r || x then (leafOf lvl va pte).map .inl
  else if lvl = 0 || bits pte 63 1 == 1 then none
  else some (.inr (bits pte 10 44 * 4096))

/-- An 8-byte table entry, read as an agent of system scope (R437). -/
def State.readPte (s : State) (pa : Nat) : Nat × State :=
  let g := s.engineGran .host (locMem (pa / 32))
  (leNat (getBytes g.1.data (pa % 32) 8), g.2)

/-- The walk of a 57-bit address from level `lvl` of the table at `table`. -/
def walk : Nat → State → Nat → Nat → Option Leaf × State
  | lvl, s, table, va =>
    let p := s.readPte (table + 8 * (va / 2 ^ (12 + 9 * lvl) % 512))
    match lvl with
    | 0 =>
      match pteKind 0 va p.1 with
      | some (.inl l) => (some l, p.2)
      | _ => (none, p.2)
    | l + 1 =>
      match pteKind (l + 1) va p.1 with
      | some (.inl lf) => (some lf, p.2)
      | some (.inr t) => walk l p.2 t va
      | none => (none, p.2)

/-- The permission of a cached translation for an access; D is needed for a write (R436). -/
def TlbEntry.allows (e : TlbEntry) (k : Acc) : Bool :=
  match k with
  | .read => e.r
  | .write => e.w && e.dirty
  | .fetch => e.x

def Leaf.toTlb (l : Leaf) (root : Word) : TlbEntry := ⟨root, l.vbase, l.size, l.pbase, l.r, l.w, l.x, l.d, l.u⟩

/-- The entry translates the address under the root. -/
def TlbEntry.hits (e : TlbEntry) (root : Word) (va : Nat) : Bool :=
  e.root == root && e.vbase ≤ va && va < e.vbase + 2 ^ e.size

def TlbEntry.pa (e : TlbEntry) (va : Nat) : Nat := e.pbase + (va - e.vbase)

/-- Put an entry into a TLB of `cap` entries; which one is replaced is open (log 8). -/
def State.tlbPut (s : State) (t : List TlbEntry) (cap : Nat) (e : TlbEntry) : List TlbEntry × State :=
  if t.length < cap then (e :: t, s)
  else
    let (k, s) := s.choose (t.length - 1)
    (e :: t.eraseIdx k, s)

/-- A 57-bit virtual address as the walk and the TLBs take it. -/
def va57 (a : Nat) : Nat := a % 2 ^ 57

/-- The translation of a cluster's access under a root whose partition owns the physical addresses `own`: micro-TLB,
slice TLB, walk (R437). An entry that faults, for its permissions or its address, is not cached. -/
def State.lookup (s : State) (cluster : Nat) (root : Word) (own : Nat → Bool) (va : Nat) (k : Acc) : Option TlbEntry × State :=
  let fits (e : TlbEntry) : Bool := e.allows k && own (e.pa (va57 va))
  let va := va57 va
  match (s.cluster cluster).utlb.find? fun e => e.hits root va with
  | some e => (if fits e then some e else none, s)
  | none =>
    match (s.slice (sliceOf cluster)).tlb.find? fun e => e.hits root va with
    | some e =>
      if fits e then
        let (t, s) := s.tlbPut (s.cluster cluster).utlb 64 e
        (some e, s.setCluster cluster { s.cluster cluster with utlb := t })
      else (none, s)
    | none =>
      let (l, s) := walk 4 s root.toNat va
      match l with
      | none => (none, s)
      | some l =>
        let e := l.toTlb root
        if l.u && l.a && fits e then
          let (t, s) := s.tlbPut (s.cluster cluster).utlb 64 e
          let s := s.setCluster cluster { s.cluster cluster with utlb := t }
          let (t, s) := s.tlbPut (s.slice (sliceOf cluster)).tlb 2048 e
          (some e, s.setSlice (sliceOf cluster) { s.slice (sliceOf cluster) with tlb := t })
        else (none, s)

/-- The physical address lies in the partition's ranges (R436). -/
def Partition.owns (p : Partition) (pa : Nat) : Bool := p.ranges.any fun r => r.1 ≤ pa && pa < r.1 + r.2

/-- Translate a global address for an agent of a cluster under the root of its partition; none is a page fault. -/
def State.translate (s : State) (cluster : Nat) (va : Nat) (k : Acc) : Option Nat × State :=
  match s.partOfCluster cluster with
  | none => (none, s)
  | some (_, p) =>
    let (e, s) := s.lookup cluster p.root p.owns va k
    (e.map fun e => e.pa (va57 va), s)

end Sys2Proof.Machine
end

