-- ==== Sys2Proof/Machine/Inbox.lean ====
section
/-!
DEFINITION. Messages: the sideband and sender ids of R226, delivery into inbox and ring (R228), posts of engines and
units, and the wakes of suspended cues (R247).
-/

namespace Sys2Proof.Machine

/-- A sideband word (R226). -/
def sideWord (kind scope reg sender : Nat) : Word :=
  BitVec.ofNat 64 (kind * 0x1000000000000000 + scope * 0x200000000000000 + reg * 0x10000000000000 + sender)

def Entry.kind (e : Entry) : Nat := bits e.side.toNat 60 4
def Entry.scope (e : Entry) : Nat := bits e.side.toNat 57 3
def Entry.sender (e : Entry) : Nat := bits e.side.toNat 0 20

/-- The sender id of a director core, and of the engines and units (R226). -/
def dirId (d : Nat) : Nat := 0x10000 + d
def engineId (cluster e : Nat) : Nat := 0x20000 + 4 * cluster + e
def castId (s : Nat) : Nat := 0x30000 + 2 * s
def schedId (s : Nat) : Nat := 0x30001 + 2 * s

/-- The id names a compute hart, or a director core (R227). -/
def isHartId (r : Nat) : Bool := decide (r < Config.harts)
def isDirId (r : Nat) : Bool := decide (0x10000 ≤ r ∧ r < 0x10000 + Config.directors)

/-- A receiver's inbox, ring and ring size. -/
structure Box where
  inbox : List Entry
  ring : List Entry
  size : Nat
deriving DecidableEq, Repr

def State.box (s : State) (r : Nat) : Box :=
  if isDirId r then
    let d := s.dir (r - 0x10000)
    ⟨d.inbox, d.ring, d.ringSize⟩
  else
    let h := s.hart r
    ⟨h.inbox, h.ring, h.ringSize⟩

def State.setBox (s : State) (r : Nat) (b : Box) : State :=
  if isDirId r then s.setDir (r - 0x10000) { s.dir (r - 0x10000) with inbox := b.inbox, ring := b.ring }
  else s.setHart r { s.hart r with inbox := b.inbox, ring := b.ring }

/-- Entries an inbox holds (R228). -/
def inboxSize : Nat := 16

/-- Refill the inbox from the head of the ring (R228). -/
def Box.refill (b : Box) : Box :=
  let k := inboxSize - b.inbox.length
  { b with inbox := b.inbox ++ b.ring.take k, ring := b.ring.drop k }

/-- A new arrival: to the inbox while it has room and the ring is empty, else to the ring while more than `keep` of its
entries are free (16 for a hart sender, 0 for a unit); none is a refusal (R228). -/
def Box.accept (b : Box) (keep : Nat) (e : Entry) : Option Box :=
  if b.inbox.length < inboxSize && b.ring.isEmpty then some { b with inbox := b.inbox ++ [e] }
  else if keep < b.size - b.ring.length then some { b with ring := b.ring ++ [e] }
  else none

/-- A wake entry goes ahead of every other kind-5 entry; an inbox it overfills spills its last entry to the head of
the ring (R241, R228). -/
def Box.acceptWake (b : Box) (e : Entry) : Option Box :=
  if inboxSize ≤ b.inbox.length && b.size ≤ b.ring.length then none
  else
    let pre := b.inbox.takeWhile fun x => x.kind != 5
    let all := pre ++ e :: b.inbox.drop pre.length
    if all.length ≤ inboxSize then some { b with inbox := all }
    else some { b with inbox := all.take inboxSize, ring := all.drop inboxSize ++ b.ring }

/-- The receiver accepts an entry, or refuses it. -/
def State.accept (s : State) (r keep : Nat) (e : Entry) : Option State :=
  ((if e.wake then (s.box r).acceptWake e else (s.box r).accept keep e)).map fun b => s.setBox r b

/-- A message of an engine, unit, core or Stagehouse: delivered at once, or kept on its way, behind the sender's
earlier messages to that receiver (R228). -/
def State.post (s : State) (sender r : Nat) (e : Entry) : State :=
  let later : State := { s with transit := s.transit ++ [⟨sender, r, e⟩] }
  if s.transit.any fun t => t.sender == sender && t.receiver == r then later
  else (s.accept r 0 e).getD later

/-- Take the oldest entry that satisfies `p`, and refill. -/
def State.take (s : State) (r : Nat) (p : Entry → Bool) : Option (Entry × State) :=
  let b := (s.box r).refill
  match b.inbox.find? p with
  | some e => some (e, s.setBox r { b with inbox := b.inbox.eraseIdx (b.inbox.findIdx p) }.refill)
  | none =>
    match b.ring.find? p with
    | some e => some (e, s.setBox r { b with ring := b.ring.eraseIdx (b.ring.findIdx p) })
    | none => none

/-- Some entry of the inbox or ring satisfies `p`. -/
def State.holds (s : State) (r : Nat) (p : Entry → Bool) : Bool := (s.box r).inbox.any p || (s.box r).ring.any p

/-! ### Records in memory, as hardware reads and writes them -/

/-- 512 bits of 64 bytes, and back. -/
def vecOf (bs : List Byte) : Vec := BitVec.ofNat 512 (leNat bs)
def vecBytes (v : Vec) : List Byte := leBytes 64 v.toNat

/-- A byte of a virtual address as a core's hardware sees it at its home: the granule's key and the offset. -/
def State.homePlace (s : State) (core va : Nat) (k : Acc) : Option (Nat × Nat) × State :=
  match spaceOf core va with
  | .bank c off => (if off < 2 ^ 17 then some (locBank c (off / 32), off % 32) else none, s)
  | .global =>
    let (pa, s) := s.translate (clusterOf core) va k
    (pa.map fun p => (locMem (p / 32), p % 32), s)
  | _ => (none, s)

/-- The 64 bytes of a record at its home. -/
def State.homeRecord (s : State) (core va : Nat) : Option Vec × State :=
  let (a, s) := s.homePlace core va .read
  let (b, s) := s.homePlace core (addrAdd va 32) .read
  match a, b with
  | some x, some y =>
    (some (vecOf (getBytes (s.homeGran x.1).data 0 32 ++ getBytes (s.homeGran y.1).data 0 32)), s)
  | _, _ => (none, s)

/-- Bytes of one granule written at their home by a core, at package scope. -/
def State.homeWrite (s : State) (core va : Nat) (bytes : List Byte) : State :=
  let (a, s) := s.homePlace core va .write
  match a with
  | some x => s.writeHome (.core core) 0 (some 4) false ⟨x.1, x.2, bytes, (s.coverGen x.1).getD 0, false, false, false, (0, 0)⟩
  | none => s

/-- The record's state field (R237). -/
def recState (v : Vec) : Nat := (v.extractLsb' 160 4).toNat
/-- The record's save kind. -/
def recSave (v : Vec) : Nat := (v.extractLsb' 172 2).toNat
/-- Replace the field of `n` bits at `lo`. -/
def setField (v : Vec) (lo n x : Nat) : Vec :=
  BitVec.ofNat 512 (v.toNat % 2 ^ lo + x % 2 ^ n * 2 ^ lo + v.toNat / 2 ^ (lo + n) * 2 ^ (lo + n))

/-- Wake a waiting cue: its home record becomes ready and goes to its hart as a wake entry (R247). A record that is not
waiting, or that its home does not show, is left alone. The entry's sender is the waiting hart: R226 has no id for the core
(log 123). -/
def State.wake (s : State) (core : Nat) (w : Watch) : State :=
  let (r, s) := s.homeRecord core w.cue.toNat
  match r with
  | none => s
  | some v =>
    if recState v = 2 then
      let v := setField v 160 4 0
      let s := s.homeWrite core (addrAdd w.cue.toNat 20) [BitVec.ofNat 8 (v.extractLsb' 160 8).toNat]
      s.post w.hart w.hart { payload := v, side := sideWord 5 0 0 w.hart, wake := true }
    else s

/-- The generation field of the barrier slot at a granule, as its home holds it (R218). -/
def State.barGen (s : State) (loc : Nat) : Nat :=
  bits (leNat (getBytes ((s.homeGran loc).seen (if locIsMem loc then some 0 else s.coverGen loc)).data 7 1)) 4 4

/-- What the watch waits for has happened since write number `seq` (R247). -/
def State.fires (s : State) (seq : Nat) (w : Watch) : Bool :=
  match w.on with
  | .inbox => s.holds w.hart fun e => e.kind != 5
  | .barrier slot gen => s.barGen slot != gen.toNat
  | .word loc => (s.log.takeWhile fun r => seq < r.seq).any fun r => r.loc == loc

/-- Wake every cue whose watched event has happened since write number `seq`. -/
def State.settle (s : State) (seq : Nat) : State :=
  s.cores.foldl (fun t c =>
    let due := c.2.watch.filter fun w => s.fires seq w
    if due.isEmpty then t
    else
      let t := t.setCore c.1 { t.core c.1 with watch := (t.core c.1).watch.filter fun w => !due.contains w }
      due.foldl (fun t w => t.wake c.1 w) t) s

/-! ### Pins (R252) -/

/-- Take a pin count for a cue on a hart; none when its eight counters are held by other cues. -/
def Hart.pin (h : Hart) (cue : Word) : Option Hart :=
  if h.pins.any fun p => p.cue == cue then
    some { h with pins := h.pins.map fun p => if p.cue = cue then { p with count := p.count + 1 } else p }
  else if h.pins.length < 8 then some { h with pins := h.pins ++ [⟨cue, 1⟩] }
  else none

/-- The cue is pinned on the hart. -/
def Hart.pinned (h : Hart) (cue : Word) : Bool := h.pins.any fun p => p.cue == cue

/-- Release a pin count; at zero, a waiting cue's home record loses its pinned flag. -/
def State.unpin (s : State) (p : Option (Nat × Word)) : State :=
  match p with
  | none => s
  | some (n, cue) =>
    let h := s.hart n
    let pins := (h.pins.map fun q => if q.cue = cue then { q with count := q.count - 1 } else q).filter fun q => q.count != 0
    let s := s.setHart n { h with pins := pins }
    if pins.any fun q => q.cue == cue then s
    else
      let (r, s) := s.homeRecord (coreOf n) cue.toNat
      match r with
      | some v =>
        if recState v = 2 && (v.extractLsb' 175 1 == 1) then
          s.homeWrite (coreOf n) (addrAdd cue.toNat 21) [BitVec.ofNat 8 ((setField v 175 1 0).extractLsb' 168 8).toNat]
        else s
      | none => s

end Sys2Proof.Machine
end

