-- ==== Sys2Proof/Machine/Operands.lean ====
section
/-!
DEFINITION. The operand forms: expansions of Zca, immediates as words, which registers an instruction names as sources
(they pop streams, R193) and as destinations (D of R60), and which instructions an interlock treats specially.
-/

namespace Sys2Proof

/-- x(8 + r), the registers of a three-bit field of Zca. -/
def creg (r : BitVec 3) : Reg := (1 : BitVec 2) ++ r

/-- The 32-bit instruction a Zca instruction stands for (R123). `ebreak` keeps its own length. -/
def ZcaOp.expand : ZcaOp → Instr
  | .addi4spn rd v => .rv64iAlu .add (creg rd) 2 (.imm ((0 : BitVec 2) ++ v ++ (0 : BitVec 2)))
  | .lw rd rs1 v => .scalarLoad .lw (creg rd) (creg rs1) ((0 : BitVec 5) ++ v ++ (0 : BitVec 2))
  | .ld rd rs1 v => .scalarLoad .ld (creg rd) (creg rs1) ((0 : BitVec 4) ++ v ++ (0 : BitVec 3))
  | .sw rs2 rs1 v => .scalarStore .sw (creg rs2) (creg rs1) ((0 : BitVec 5) ++ v ++ (0 : BitVec 2))
  | .sd rs2 rs1 v => .scalarStore .sd (creg rs2) (creg rs1) ((0 : BitVec 4) ++ v ++ (0 : BitVec 3))
  | .addi rd v => .rv64iAlu .add rd rd (.imm (v.signExtend 12))
  | .addiw rd v => .rv64iAlu .addw rd rd (.imm (v.signExtend 12))
  | .li rd v => .rv64iAlu .add rd 0 (.imm (v.signExtend 12))
  | .addi16sp v => .rv64iAlu .add 2 2 (.imm ((v ++ (0 : BitVec 4)).signExtend 12))
  | .lui rd v => .lui rd (v.signExtend 20)
  | .srli rd v => .rv64iAlu .srl (creg rd) (creg rd) (.imm (v.zeroExtend 12))
  | .srai rd v => .rv64iAlu .sra (creg rd) (creg rd) (.imm (v.zeroExtend 12))
  | .andi rd v => .rv64iAlu .and (creg rd) (creg rd) (.imm (v.signExtend 12))
  | .sub rd rs2 => .rv64iAlu .sub (creg rd) (creg rd) (.reg (creg rs2))
  | .xor rd rs2 => .rv64iAlu .xor (creg rd) (creg rd) (.reg (creg rs2))
  | .or rd rs2 => .rv64iAlu .or (creg rd) (creg rd) (.reg (creg rs2))
  | .and rd rs2 => .rv64iAlu .and (creg rd) (creg rd) (.reg (creg rs2))
  | .subw rd rs2 => .rv64iAlu .subw (creg rd) (creg rd) (.reg (creg rs2))
  | .addw rd rs2 => .rv64iAlu .addw (creg rd) (creg rd) (.reg (creg rs2))
  | .j v => .jal 0 (v.signExtend 20)
  | .beqz rs1 v => .branch .beq (creg rs1) 0 (v.signExtend 12)
  | .bnez rs1 v => .branch .bne (creg rs1) 0 (v.signExtend 12)
  | .slli rd v => .rv64iAlu .sll rd rd (.imm (v.zeroExtend 12))
  | .lwsp rd v => .scalarLoad .lw rd 2 ((0 : BitVec 4) ++ v ++ (0 : BitVec 2))
  | .ldsp rd v => .scalarLoad .ld rd 2 ((0 : BitVec 3) ++ v ++ (0 : BitVec 3))
  | .jr rs1 => .jalr 0 rs1 0
  | .mv rd rs2 => .rv64iAlu .add rd 0 (.reg rs2)
  | .ebreak => .ebreak
  | .jalr rs1 => .jalr 1 rs1 0
  | .add rd rs2 => .rv64iAlu .add rd rd (.reg rs2)
  | .swsp rs2 v => .scalarStore .sw rs2 2 ((0 : BitVec 4) ++ v ++ (0 : BitVec 2))
  | .sdsp rs2 v => .scalarStore .sd rs2 2 ((0 : BitVec 3) ++ v ++ (0 : BitVec 3))

/-- Lookahead the hart honours (R54). -/
def LOpts.window (o : LOpts) : Nat := if o.ed1 then 0 else o.la.toNat

/-- fi and fo the hart honours (R54). -/
def LOpts.flushIn (o : LOpts) : Bool := !o.ed1 && o.fi
def LOpts.flushOut (o : LOpts) : Bool := !o.ed1 && o.fo

/-- The bits of an instruction, as the illegal-instruction trap records them (R43). -/
def Instr.bits (i : Instr) : Nat :=
  match i with
  | .illegalInstruction w => w.toNat
  | i => (encode i).toNat

/-- The encodings that RV64I and Zca define as HINTs and that would otherwise name a register: they are no-operations
(R45). -/
def ZcaOp.hint : ZcaOp → Bool
  | .addi rd v => rd == 0 || v == 0
  | .slli rd v => rd == 0 || v == 0
  | .srli _ v | .srai _ v => v == 0
  | .li rd _ | .lui rd _ | .mv rd _ | .add rd _ => rd == 0
  | _ => false
def Instr.hint : Instr → Bool
  | .rv64iAlu _ rd _ _ => rd == 0
  | .zcaInstruction c => c.hint
  | _ => false

namespace Machine

/-- A sign-extended immediate. -/
def sx {n : Nat} (v : BitVec n) : Word := v.signExtend 64
/-- A branch or jump offset in halfwords, as a signed byte offset. -/
def sxHalf {n : Nat} (v : BitVec n) : Word := v.signExtend 64 <<< 1
/-- A 20-bit upper immediate (lui, auipc). -/
def sxUpper (v : BitVec 20) : Word := (v ++ (0 : BitVec 12)).signExtend 64

/-- A register an instruction names: x, v or m. -/
inductive RegId where
  | x (r : Reg)
  | v (r : Reg)
  | m (r : BitVec 3)
deriving DecidableEq, Repr

/-- The registers of a group of `g` from `b` (R77). -/
def group (b : Reg) (g : Nat) : List Reg := (List.range g).map fun i => b + BitVec.ofNat 5 i

/-- x and v registers a 32-bit instruction names as sources. -/
def scalarSources : Instr → List RegId
  | .rv64iAlu _ _ rs1 (.reg rs2) => [.x rs1, .x rs2]
  | .rv64iAlu _ _ rs1 (.imm _) => [.x rs1]
  | .mul _ _ a b | .div _ _ a b => [.x a, .x b]
  | .branch _ a b _ => [.x a, .x b]
  | .jalr _ a _ | .jalrD _ a _ => [.x a]
  | .scalarLoad _ _ a _ => [.x a]
  | .scalarStore _ b a _ => [.x a, .x b]
  | .csrrw _ _ a | .csrrs _ _ a | .csrrc _ _ a => [.x a]
  | .lpSet _ a b => [.x a, .x b]
  | .lpSetup _ a _ => [.x a]
  | .cueResume _ a | .cueYield a => [.x a]
  | .cueSpawn _ a b | .cueWait _ a b => [.x a, .x b]
  | .salloc _ a b | .sallocA _ a b => [.x a, .x b]
  | .sfree _ a => [.x a]
  | .genRd _ a _ => [.x a]
  | .amoAdd _ _ _ _ a b | .amoSwap _ _ _ _ a b | .amoMin _ _ _ _ a b | .amoMax _ _ _ _ a b
  | .amoMinu _ _ _ _ a b | .amoMaxu _ _ _ _ a b | .amoAnd _ _ _ _ a b | .amoOr _ _ _ _ a b
  | .amoXor _ _ _ _ a b => [.x a, .x b]
  | .amoCas _ _ _ d a b | .amoAddb _ _ _ d a b => [.x a, .x b, .x d]
  | .sbind _ a => [.x a]
  | .seal _ a b | .unseal _ a b => [.x a, .x b]
  | .msgRecv _ a | .msgPoll _ a => [.x a]
  | .msgPut _ a b => [.x a, .x b]
  | .dqPush _ v b => [.v v, .x b]
  | .dqPop _ a => [.x a]
  | .qPushX _ a => [.x a]
  | .qPushV _ v => [.v v]
  | .svcCall _ a | .qkSet a | .qkScan _ a => [.x a]
  | .jlPut _ a b => [.x a, .x b]
  | .barInit a b => [.x a, .x b]
  | .msgSend a b | .msgSendRel _ a b => [.x a, .x b]
  | .barBind _ a | .barArrive _ a _ | .barWait _ a _ => [.x a]
  | _ => []

/-- The mask register of an instruction, where it is not m0. -/
def maskUse (o : LOpts) : List RegId := if o.m = 0 then [] else [.m o.m]

/-- Registers a long-format instruction names as sources. -/
def longSources : Instr → List RegId
  | .vaddFp o _ _ a b | .vsubFp o _ _ a b | .vmulFp o _ _ a b | .vdiv o _ _ a b | .vminFp o _ _ a b
  | .vmaxFp o _ _ a b | .vlmul o _ a b | .vsll o _ _ a b | .vsrl o _ _ a b | .vsra o _ _ a b
  | .vand o _ _ a b | .vor o _ _ a b | .vxor o _ _ a b | .vperm o _ _ a b => .v a :: .v b :: maskUse o
  | .vaddInt o _ _ a b | .vsubInt o _ _ a b | .vmulInt o _ _ a b | .vminInt o _ _ a b | .vmaxInt o _ _ a b =>
    .v a :: .v b :: maskUse o
  | .vfma o _ _ a b c | .vfms o _ _ a b c => .v a :: .v b :: .v c :: maskUse o
  | .vsqrt o _ _ a | .vrcp o _ _ a | .vrsqrt o _ _ a | .vexp2 o _ _ a | .vlog2 o _ _ a => .v a :: maskUse o
  | .vredsum o _ _ a | .vredmax o _ _ a | .vredmin o _ _ a => .v a :: maskUse o
  | .vcmpFp o _ _ _ a b => .v a :: .v b :: maskUse o
  | .vcmpInt o _ _ _ a b => .v a :: .v b :: maskUse o
  | .vldot o g d a b =>
    (group a (groupSize g)).map .v ++ (group b (groupSize g)).map .v ++ [.v d] ++ maskUse o
  | .vgumbel o _ a xs xb => .v a :: .x xs :: .x xb :: maskUse o
  | .vsel o _ _ a b ms => .v a :: .v b :: .m ms :: maskUse o
  | .vmlog _ _ _ ma mb => [.m ma, .m mb]
  | .vmpop _ _ ma => [.m ma]
  | .vcvt o _ _ _ a _ => .v a :: maskUse o
  | .vtag _ _ _ a => [.v a]
  | .vpackt o _ a => (group a 5).map .v ++ maskUse o
  | .vunpackt o _ a => .v a :: maskUse o
  | .vosplit o _ _ _ a _ => .v a :: maskUse o
  | .vargmax o _ _ a xb => .v a :: .x xb :: maskUse o
  | .vslide o _ _ a xs | .vbcast o _ _ a xs => .v a :: .x xs :: maskUse o
  | .vins _ _ _ xv xi => [.x xv, .x xi]
  | .vext _ _ _ a xi => [.v a, .x xi]
  | .vld o _ _ xa _ => .x xa :: maskUse o
  | .vldDiag o _ _ xt => .x xt :: maskUse o
  | .vst o _ vs xa _ => .v vs :: .x xa :: maskUse o
  | .vstDiag o _ vs xt => .v vs :: .x xt :: maskUse o
  | .vlds o _ _ xa xs => .x xa :: .x xs :: maskUse o
  | .vsts o _ vs xa xs => .v vs :: .x xa :: .x xs :: maskUse o
  | .vldx o _ _ xa vi => .v vi :: .x xa :: maskUse o
  | .vstx o _ vs xa vi => .v vs :: .v vi :: .x xa :: maskUse o
  | .tdecl _ a b c => [.x a, .x b, .x c]
  | .mxMma _ _ _ _ a b c n | .mxMmsp _ _ _ _ a b c n => [.x a, .x b, .x c, .x n]
  | .mxZero _ c n => [.x c, .x n]
  | .mxLd _ _ _ _ c => [.x c]
  | .mxSt _ g vs c => .x c :: (group vs (groupSize g)).map .v
  | .mxCfg _ a | .mxTask _ _ a | .slCfg _ a | .slPassCount _ _ a | .slPassDecide _ _ a => [.x a]
  | .slMask _ _ _ a q => [.x a, .x q]
  | .phase _ _ _ _ _ a => [.x a]
  | .netRedMaxi _ _ _ _ a => [.v a]
  | .netRedSum _ _ _ _ a | .netRedSumv _ _ _ _ a | .netRedAnd _ _ _ _ a | .netRedOr _ _ _ _ a => [.x a]
  | _ => []

/-- The registers an instruction names as sources; a HINT uses none. -/
def sources (i : Instr) : List RegId :=
  if i.hint then [] else
  match i with
  | .zcaInstruction c => scalarSources c.expand
  | i => scalarSources i ++ longSources i

/-- The registers an instruction writes. -/
def scalarDests : Instr → List RegId
  | .rv64iAlu _ d _ _ | .lui d _ | .auipc d _ | .mul _ d _ _ | .div _ d _ _ | .jal d _ | .jalr d _ _
  | .scalarLoad _ d _ _ | .csrrw d _ _ | .csrrs d _ _ | .csrrc d _ _ | .csrrwi d _ _ | .csrrsi d _ _
  | .csrrci d _ _ | .jalD d _ | .jalrD d _ _ | .chorusForm d _ | .chorusId d | .cueResume d _ | .cueSpawn d _ _
  | .cueWait d _ _ | .cueSelf d | .salloc d _ _ | .sallocA d _ _ | .sfree d _ | .genRd d _ _ => [.x d]
  | .amoAdd _ _ _ d _ _ | .amoSwap _ _ _ d _ _ | .amoCas _ _ _ d _ _ | .amoMin _ _ _ d _ _
  | .amoMax _ _ _ d _ _ | .amoMinu _ _ _ d _ _ | .amoMaxu _ _ _ d _ _ | .amoAnd _ _ _ d _ _
  | .amoOr _ _ _ d _ _ | .amoXor _ _ _ d _ _ | .amoAddb _ _ _ d _ _ => [.x d]
  | .sstat d _ | .seal d _ _ | .unseal d _ _ | .msgRecv d _ | .msgPoll d _ | .dqPush d _ _ | .qPopX d | .qStat d _
  | .svcCall d _ | .qkScan d _ | .jlPut d _ _ | .barArrive d _ _ | .barWait d _ _ => [.x d]
  | .dqPop d _ | .qPopV d => [.v d]
  | _ => []

def longDests : Instr → List RegId
  | .vaddFp _ _ d _ _ | .vsubFp _ _ d _ _ | .vmulFp _ _ d _ _ | .vfma _ _ d _ _ _ | .vfms _ _ d _ _ _
  | .vdiv _ _ d _ _ | .vsqrt _ _ d _ | .vminFp _ _ d _ _ | .vmaxFp _ _ d _ _ | .vlmul _ d _ _ | .vldot _ _ d _ _
  | .vgumbel _ d _ _ _ | .vaddInt _ _ d _ _ | .vsubInt _ _ d _ _ | .vmulInt _ _ d _ _ | .vminInt _ _ d _ _
  | .vmaxInt _ _ d _ _ | .vsll _ _ d _ _ | .vsrl _ _ d _ _ | .vsra _ _ d _ _ | .vand _ _ d _ _ | .vor _ _ d _ _
  | .vxor _ _ d _ _ | .vsel _ _ d _ _ _ | .vcvt _ _ _ d _ _ | .vtag _ _ d _ | .vpackt _ d _
  | .vosplit _ _ _ d _ _ | .vrcp _ _ d _ | .vrsqrt _ _ d _ | .vexp2 _ _ d _ | .vlog2 _ _ d _ | .vredsum _ _ d _
  | .vredmax _ _ d _ | .vredmin _ _ d _ | .vargmax _ _ d _ _ | .vperm _ _ d _ _ | .vslide _ _ d _ _
  | .vbcast _ _ d _ _ | .vins _ _ d _ _ | .vld _ _ d _ _ | .vldDiag _ _ d _ | .vlds _ _ d _ _ | .vldx _ _ d _ _
  | .netRedMaxi _ _ _ d _ => [.v d]
  | .vunpackt _ d _ => (group d 5).map .v
  | .mxLd _ _ g d _ => (group d (groupSize g)).map .v
  | .vcmpFp _ _ _ md _ _ | .vcmpInt _ _ _ md _ _ | .vmlog _ _ md _ _ => [.m md]
  | .vmpop _ d _ | .vext _ _ d _ _ | .mxMma _ _ _ d _ _ _ _ | .mxMmsp _ _ _ d _ _ _ _ | .mxTask _ d _ | .slRun _ d
  | .slPassCount _ d _ | .slPassDecide _ d _ | .slGet _ _ d | .slMask _ _ d _ _ | .phase _ _ _ _ d _
  | .netRedSum _ _ _ d _ | .netRedSumv _ _ _ d _ | .netRedAnd _ _ _ d _ | .netRedOr _ _ _ d _ => [.x d]
  | _ => []

/-- The registers an instruction names as destinations. -/
def dests (i : Instr) : List RegId :=
  if i.hint then [] else
  match i with
  | .zcaInstruction c => scalarDests c.expand
  | i => scalarDests i ++ longDests i

/-- The optional fields of a long-format instruction. -/
def optsOf : Instr → LOpts
  | .vaddFp o .. | .vsubFp o .. | .vmulFp o .. | .vfma o .. | .vfms o .. | .vdiv o .. | .vsqrt o .. | .vminFp o ..
  | .vmaxFp o .. | .vcmpFp o .. | .vlmul o .. | .vldot o .. | .vgumbel o .. | .vaddInt o .. | .vsubInt o ..
  | .vmulInt o .. | .vminInt o .. | .vmaxInt o .. | .vsll o .. | .vsrl o .. | .vsra o .. | .vand o .. | .vor o ..
  | .vxor o .. | .vcmpInt o .. | .vsel o .. | .vmlog o .. | .vmpop o .. | .vcvt o .. | .vtag o .. | .vpackt o ..
  | .vunpackt o .. | .vosplit o .. | .vrcp o .. | .vrsqrt o .. | .vexp2 o .. | .vlog2 o .. | .vredsum o ..
  | .vredmax o .. | .vredmin o .. | .vargmax o .. | .vperm o .. | .vslide o .. | .vbcast o .. | .vins o .. | .vext o ..
  | .vld o .. | .vldDiag o .. | .vst o .. | .vstDiag o .. | .vlds o .. | .vsts o .. | .vldx o .. | .vstx o ..
  | .tdecl o .. | .mxMma o .. | .mxMmsp o .. | .mxZero o .. | .mxLd o .. | .mxSt o .. | .mxCfg o .. | .mxTask o ..
  | .slCfg o .. | .slCfgClose o | .slRun o .. | .slPassCount o .. | .slPassDecide o .. | .slGet o .. | .slMask o ..
  | .phase o .. | .netRedMaxi o .. | .netRedSum o .. | .netRedSumv o .. | .netRedAnd o .. | .netRedOr o .. => o
  | _ => {}

/-- A class 6 load (R61). -/
def isVectorLoad : Instr → Bool
  | .vld .. | .vldDiag .. | .vlds .. | .vldx .. => true
  | _ => false

/-- Registers an instruction marks dead: a range, or those dmask names (R136, R137). -/
def marked (i : Instr) (dmask : Word) : List RegId :=
  let span (a b : Reg) : List Reg := (List.range 32).filterMap fun k =>
    if a.toNat ≤ k ∧ k ≤ b.toNat then some (BitVec.ofNat 5 k) else none
  match i with
  | .killX a b => (span a b).map .x
  | .killV a b => (span a b).map .v
  | .jalD .. | .jalrD .. =>
    (List.range 32).filterMap (fun k => if dmask.getLsbD k then some (.x (BitVec.ofNat 5 k)) else none) ++
      (List.range 32).filterMap (fun k => if dmask.getLsbD (32 + k) then some (.v (BitVec.ofNat 5 k)) else none)
  | _ => []

/-- Instructions that may end or suspend the cue: they wait for every pending result (R62, R243). -/
def mayLeave : Instr → Bool
  | .safept _ | .cueYield _ | .cueWait .. | .cueExit | .cueResume .. | .msgRecv .. | .barWait .. | .phase .. | .tret =>
    true
  | _ => false

/-- Instructions that neither touch memory, queues, messages nor read the floating-point CSRs: only register
interlocks hold them against a pending result. -/
def registersOnly : Instr → Bool
  | .rv64iAlu .. | .lui .. | .auipc .. | .mul .. | .div .. | .branch .. | .jal .. | .jalr .. | .lpSet .. | .lpOff _
  | .lpSetup .. | .lpSetupi .. | .killX .. | .killV .. | .jalD .. | .jalrD .. | .chorusId _ | .cueSelf _ => true
  | .zcaInstruction c => match c with
    | .lw .. | .ld .. | .sw .. | .sd .. | .lwsp .. | .ldsp .. | .swsp .. | .sdsp .. => false
    | _ => true
  | .vaddFp .. | .vsubFp .. | .vmulFp .. | .vfma .. | .vfms .. | .vdiv .. | .vsqrt .. | .vminFp ..
  | .vmaxFp .. | .vcmpFp .. | .vlmul .. | .vldot .. | .vgumbel .. | .vaddInt .. | .vsubInt ..
  | .vmulInt .. | .vminInt .. | .vmaxInt .. | .vsll .. | .vsrl .. | .vsra .. | .vand .. | .vor ..
  | .vxor .. | .vcmpInt .. | .vsel .. | .vmlog .. | .vmpop .. | .vcvt .. | .vtag .. | .vpackt ..
  | .vunpackt .. | .vosplit .. | .vrcp .. | .vrsqrt .. | .vexp2 .. | .vlog2 .. | .vredsum ..
  | .vredmax .. | .vredmin .. | .vargmax .. | .vperm .. | .vslide .. | .vbcast .. | .vins .. | .vext .. => true
  | _ => false

end Machine
end Sys2Proof
end

