-- ==== Sys2Proof/Machine/Access.lean ====
section
/-!
DEFINITION. Memory accesses of a compute hart: the checks of R175-R180, R200 and R450 in order, reading and writing
bytes, and what keeps an instruction from completing.
-/

namespace Sys2Proof.Machine

/-- Why an instruction does not complete. -/
inductive Stop where
  /-- A compute trap of R287. -/
  | trap (code tval : Nat)
  /-- A compute trap of a pop or an append, taken before the instruction changes anything but what it has popped
  (R193-R195, R343). -/
  | undo (code tval : Nat)
  /-- A director-core exception of R376. -/
  | exc (code tval : Nat)
  /-- The illegal-instruction trap, with the instruction's own bits (R43). -/
  | illegal
  /-- The hart waits and nothing has happened; the instruction issues again. -/
  | stall
  /-- The hart waits; what the instruction has done to memory so far stands (R209), and it issues again. -/
  | hold
deriving DecidableEq, Repr

/-- An instruction's actions: they change the state, and may stop. What stood before a stop stands (R38). -/
abbrev Ins := ExceptT Stop (StateM State)

def Ins.stop {α : Type} (e : Stop) : Ins α := throw e
def Ins.trap {α : Type} (code tval : Nat) : Ins α := throw (.trap code tval)
/-- An action whose traps leave nothing of the instruction behind. -/
def Ins.precise {α : Type} (x : Ins α) : Ins α :=
  tryCatch x fun e => match e with | .trap c v => throw (.undo c v) | e => throw e
/-- Run a state change that also answers. -/
def Ins.act {α : Type} (f : State → α × State) : Ins α := fun s => let r := f s; (.ok r.1, r.2)
/-- Run a state change. -/
def Ins.upd (f : State → State) : Ins Unit := fun s => (.ok (), f s)
/-- A part of the state. -/
def Ins.get {α : Type} (f : State → α) : Ins α := fun s => (.ok (f s), s)
/-- Require, or trap. -/
def Ins.need (b : Bool) (code tval : Nat) : Ins Unit := if b then pure () else .trap code tval
/-- Trap when. -/
def Ins.deny (b : Bool) (code tval : Nat) : Ins Unit := if b then .trap code tval else pure ()

/-! ### Cause codes (R287) -/

def cIllegal : Nat := 1
def cFormat : Nat := 2
def cStale : Nat := 3
def cPoison : Nat := 4
def cAlign : Nat := 5
def cUnalloc : Nat := 6
def cSealed : Nat := 7
def cDiag : Nat := 8
def cRecord : Nat := 9
def cInbox : Nat := 10
def cStream : Nat := 11
def cPage : Nat := 12
def cFetch : Nat := 13
def cVacate : Nat := 14
def cEcall : Nat := 15
def cBreak : Nat := 16

/-- The register id of R287. -/
def RegId.id : RegId → Nat
  | .x r => r.toNat
  | .v r => 32 + r.toNat
  | .m r => 64 + r.toNat

/-- The accumulator id of R287. -/
def accId (off : Nat) : Nat := 0x100000000 + off % 2 ^ 17

/-! ### Places -/

/-- Where a piece of an access lies: granule key, offset, length, virtual address, the hart's own bank or not, the
generation its check found, and root and virtual page. -/
structure Place where
  loc : Nat
  off : Nat
  len : Nat
  addr : Nat
  own : Bool := false
  gen : BitVec 16 := 0
  page : Word × Nat := (0, 0)
deriving DecidableEq, Repr

/-- The pieces of `n` bytes at `a`, one per granule touched, as address and length; `k` bounds their number. -/
def splitRange : Nat → Nat → Nat → List (Nat × Nat)
  | 0, _, _ => []
  | k + 1, a, n =>
    if n = 0 then []
    else
      let m := min n (32 - a % 32)
      (a, m) :: splitRange k (addrAdd a m) (n - m)

def pieces (a n : Nat) : List (Nat × Nat) := splitRange (n / 32 + 2) a n

/-- The root a hart translates under: its partition's (R436, R440). -/
def State.rootOf (s : State) (cluster : Nat) : Word := ((s.partOfCluster cluster).map (·.2.root)).getD 0

/-- The place of one piece (R175, R178, R450): in the bank the first byte selects, at its distance from it, under a live
allocation; or translated. -/
def hartPlace (n : Nat) (k : Acc) (a : Nat) (p : Nat × Nat) : Ins Place :=
  match spaceOf (coreOf n) a with
  | .bank c off => do
    let o := off + (p.1 + 2 ^ 64 - a) % 2 ^ 64
    let loc := locBank c (o / 32)
    match ← Ins.get fun s => if o < 2 ^ 17 then s.coverGen loc else none with
    | some g => pure { loc := loc, off := o % 32, len := p.2, addr := p.1, own := c == coreOf n, gen := g }
    | none => .trap cUnalloc p.1
  | .global => do
    if rowOf p.1 ≠ 3 then .trap cPage p.1
    let root ← Ins.get fun s => s.rootOf (hartCluster n)
    match ← Ins.act fun s => s.translate (hartCluster n) p.1 k with
    | some pa => pure { loc := locMem (pa / 32), off := pa % 32, len := p.2, addr := p.1, page := (root, p.1 / 4096) }
    | none => .trap cPage p.1
  | _ => .trap cPage a

/-- A place lies in a sealed region (R199, R200). -/
def State.placeSealed (s : State) (p : Place) : Bool :=
  if locIsMem p.loc then s.sealedAt (32 * locGran p.loc + p.off)
  else ((covering (s.core (locCore p.loc)).alloc (32 * locIdx p.loc)).map fun e => e.2.sealed).getD false

/-- The checks of a hart access in their order: page fault, unallocated scratchpad, and for a store the seal. -/
def hartPlaces (n : Nat) (k : Acc) (a len : Nat) : Ins (List Place) := do
  match (pieces a len).find? fun p => rowOf a == 0 && rowOf p.1 != 0 with
  | some p => .trap cPage p.1
  | none => pure ()
  let ps ← (pieces a len).mapM (hartPlace n k a)
  -- one live allocation covers the whole access (R178)
  match ps.find? fun p => !locIsMem p.loc && p.gen != (ps.headD p).gen with
  | some p => .trap cUnalloc p.addr
  | none => pure ()
  if k = .write then
    let s ← Ins.get id
    if ps.any s.placeSealed then .trap cSealed a
  pure ps

/-- The hart reads stale granules as traps (gmode.smem, R277). -/
def Hart.staleTraps (h : Hart) : Bool := !h.house && h.gmode.getLsbD 1

/-- A granule for one place of a load: with the stale-read check, and zero where stale (R277). -/
def loadPlace (n : Nat) (p : Place) : Ins Gran := do
  let g ← Ins.act fun s => s.loadGran (.hart n) p.loc
  if locIsMem p.loc then pure g
  else
    let s ← Ins.get id
    let c := s.coverGen p.loc
    if (s.hart n).staleTraps && !g.current c then .trap cStale p.addr
    pure (g.seen c)

/-- Bytes with their poison. -/
abbrev PBytes := List (Byte × Bool)

def PBytes.bytes (b : PBytes) : List Byte := b.map (·.1)
def PBytes.poisoned (b : PBytes) : Bool := b.any (·.2)
/-- The place of the first poisoned byte. -/
def PBytes.firstPoison (b : PBytes) : Option Nat := b.findIdx? (·.2)

/-- A load of `len` bytes by a hart. -/
def hartLoad (n a len : Nat) : Ins PBytes := do
  let ps ← hartPlaces n .read a len
  let bs ← ps.mapM fun p => do
    let g ← loadPlace n p
    pure ((getBytes g.data p.off p.len).map fun b => (b, g.poison))
  pure bs.flatten

/-- The chunks of bytes written at places, in order; `line` marks whole 64-byte lines (R179). -/
def chunksOf : List Place → List Byte → List Chunk
  | [], _ => []
  | p :: t, bs => ⟨p.loc, p.off, bs.take p.len, p.gen, p.own, false, false, p.page⟩ :: chunksOf t (bs.drop p.len)

/-- The chunk covers its whole granule. -/
def Chunk.whole (c : Chunk) : Bool := c.bytes.length == 32

/-- Mark the chunks whose whole 64-byte line the store writes. -/
def markLines (cs : List Chunk) : List Chunk :=
  cs.map fun c =>
    let g := locGran c.loc
    let other := locMem (if g % 2 = 0 then g + 1 else g - 1)
    { c with line := locIsMem c.loc && c.whole && cs.any fun d => d.loc == other && d.whole }

/-- Make the parts of a store. -/
def hartStores (n : Nat) (cs : List Chunk) : Ins Unit := Ins.upd fun s => cs.foldl (fun s c => s.hartStore n c) s

/-- A store of bytes by a hart, with its checks. -/
def hartWrite (n a : Nat) (bytes : List Byte) : Ins Unit := do
  let ps ← hartPlaces n .write a bytes.length
  hartStores n (markLines (chunksOf ps bytes))

/-! ### Stores of hardware sequences (saves, records) -/

/-- Bytes as the hart's hardware reads them in a save or restore: what cannot be read is zero (log 20). -/
def hwRead (n a len : Nat) : Ins PBytes := do
  let bs ← (pieces a len).mapM fun p => do
    match ← Ins.act fun s => s.homePlace (coreOf n) p.1 .read with
    | some (loc, off) => do
      let g ← Ins.act fun s => s.loadGran (.hart n) loc
      let c ← Ins.get fun s => if locIsMem loc then some g.tag else s.coverGen loc
      pure ((getBytes (g.seen c).data off p.2).map fun b => (b, (g.seen c).poison))
    | none => pure (List.replicate p.2 (0, false))
  pure bs.flatten

/-- Bytes as the hart's hardware stores them in a save: what cannot be stored is dropped (log 20). -/
def hwWrite (n : Nat) (a : Nat) (bytes : List Byte) : State → State := fun s =>
  let go (acc : State × List Byte) (p : Nat × Nat) : State × List Byte :=
    let (pl, s) := acc.1.homePlace (coreOf n) p.1 .write
    match pl with
    | some (loc, off) =>
      let c : Chunk := ⟨loc, off, acc.2.take p.2, (s.coverGen loc).getD 0, ownLoc (.hart n) loc, false, false,
        (s.rootOf (hartCluster n), p.1 / 4096)⟩
      (s.hartStore n c, acc.2.drop p.2)
    | none => (s, acc.2.drop p.2)
  ((pieces a bytes.length).foldl go (s, bytes)).1

/-- A 64-bit word as eight bytes, and back. -/
def wordBytes (w : Word) : List Byte := leBytes 8 w.toNat
def wordOf (bs : List Byte) : Word := BitVec.ofNat 64 (leNat bs)

end Sys2Proof.Machine
end

