-- ==== Sys2Proof/Machine/Float.lean ====
section
/-!
DEFINITION. Floating-point formats and exact arithmetic (R82 to R87, R112 to R118): an exact result is kept as an
integer times a power of two, with a mark for a part below it, and rounded once.
-/

namespace Sys2Proof.Machine

/-- The rounding modes of R51 and R127. -/
inductive RM where
  | rne | rtz | rdn | rup | rmm
  deriving DecidableEq, Repr

/-- The five events of R119. -/
structure Events where
  nv : Bool := false
  dz : Bool := false
  of : Bool := false
  uf : Bool := false
  nx : Bool := false
  deriving DecidableEq, Repr

/-- The union of two sets of events. -/
def Events.or (a b : Events) : Events :=
  ⟨a.nv || b.nv, a.dz || b.dz, a.of || b.of, a.uf || b.uf, a.nx || b.nx⟩

/-- The events as the bits of vflags (R119). -/
def Events.toBits (e : Events) : BitVec 5 :=
  BitVec.ofNat 5 ((if e.nv then 1 else 0) + (if e.dz then 2 else 0) + (if e.of then 4 else 0) +
    (if e.uf then 8 else 0) + (if e.nx then 16 else 0))

/-- No event. -/
def Events.none : Events := {}

/-- A binary floating-point format (R82): widths of exponent and fraction, and whether it has infinities (E4M3 has
none, R83). -/
structure FFmt where
  ebits : Nat
  mbits : Nat
  hasInf : Bool
  deriving DecidableEq, Repr

/-- The bias of the format. -/
def FFmt.bias (f : FFmt) : Nat := 2 ^ (f.ebits - 1) - 1
/-- The width of the format. -/
def FFmt.width (f : FFmt) : Nat := 1 + f.ebits + f.mbits
/-- The exponent of the smallest normal. -/
def FFmt.emin (f : FFmt) : Int := 1 - (f.bias : Int)
/-- The bits of the largest finite magnitude. -/
def FFmt.maxBits (f : FFmt) : Nat :=
  if f.hasInf then (2 ^ f.ebits - 1) * 2 ^ f.mbits - 1 else 2 ^ (f.ebits + f.mbits) - 2
/-- The bits of +∞, for a format that has it. -/
def FFmt.infBits (f : FFmt) : Nat := (2 ^ f.ebits - 1) * 2 ^ f.mbits
/-- The canonical NaN (R82). -/
def FFmt.nanBits (f : FFmt) : Nat :=
  if f.hasInf then f.infBits + 2 ^ (f.mbits - 1) else 2 ^ (f.ebits + f.mbits) - 1
/-- The sign bit of a negative value. -/
def FFmt.signBit (f : FFmt) (neg : Bool) : Nat := if neg then 2 ^ (f.ebits + f.mbits) else 0

/-- FP64. -/
def fp64 : FFmt := ⟨11, 52, true⟩
/-- FP32. -/
def fp32 : FFmt := ⟨8, 23, true⟩
/-- FP16. -/
def fp16 : FFmt := ⟨5, 10, true⟩
/-- BF16. -/
def bf16 : FFmt := ⟨8, 7, true⟩
/-- E4M3. -/
def e4m3 : FFmt := ⟨4, 3, false⟩
/-- E5M2. -/
def e5m2 : FFmt := ⟨5, 2, true⟩

/-- What a word of a float format stands for: a NaN, an infinity, or sign and `sig` × 2^`exp`. -/
inductive FVal where
  | nan
  | inf (neg : Bool)
  | fin (neg : Bool) (sig : Nat) (exp : Int)
  deriving DecidableEq, Repr

/-- R82 and R83: the value of a word. -/
def FFmt.decode (f : FFmt) (w : Nat) : FVal :=
  let neg := bits w (f.ebits + f.mbits) 1 = 1
  let e := bits w f.mbits f.ebits
  let m := bits w 0 f.mbits
  if f.hasInf && e == 2 ^ f.ebits - 1 then (if m = 0 then .inf neg else .nan)
  else if !f.hasInf && bits w 0 (f.ebits + f.mbits) == 2 ^ (f.ebits + f.mbits) - 1 then .nan
  else if e = 0 then .fin neg m (f.emin - f.mbits)
  else .fin neg (m + 2 ^ f.mbits) ((e : Int) - f.bias - f.mbits)

/-- Is the word a subnormal of the format? -/
def FFmt.isSubnormal (f : FFmt) (w : Nat) : Bool :=
  bits w f.mbits f.ebits == 0 && bits w 0 f.mbits != 0

/-- fi of R55: a subnormal word becomes the zero of its sign; no flag. -/
def FFmt.flushIn (f : FFmt) (fi : Bool) (w : Nat) : Nat :=
  if fi && f.isSubnormal w then bits w (f.ebits + f.mbits) 1 * 2 ^ (f.ebits + f.mbits) else w

/-- An exact finite result: sign, `sig` × 2^`exp`, and `sticky` when the magnitude lies strictly between `sig` and
`sig + 1` units. A sticky result has more significant bits than any format's precision plus one. -/
structure Exact where
  neg : Bool
  sig : Nat
  exp : Int
  sticky : Bool := false
  deriving DecidableEq, Repr

/-- Bit length. -/
def bitLen (n : Nat) : Nat := if n = 0 then 0 else Nat.log2 n + 1

/-- Does a magnitude whose discarded part compares with one half as `half` (less, equal, greater) round up? `any` says
that some part is discarded, `odd` that the kept part is odd. -/
def roundsUp (rm : RM) (neg odd any : Bool) (half : Ordering) : Bool :=
  match rm with
  | .rne => half == .gt || (half == .eq && odd)
  | .rmm => half != .lt
  | .rtz => false
  | .rdn => neg && any
  | .rup => !neg && any

/-- Shift a magnitude right by `n` and round it to an integer: the rounded value and whether anything was lost. -/
def roundShift (rm : RM) (neg : Bool) (sig n : Nat) (sticky : Bool) : Nat × Bool :=
  let q := sig / 2 ^ n
  let r := sig % 2 ^ n
  let any := r != 0 || sticky
  let half : Ordering :=
    if n = 0 then (if sticky then .lt else .lt)
    else
      let h := 2 ^ (n - 1)
      if r < h then .lt else if r = h && !sticky then .eq else .gt
  (if any && roundsUp rm neg (q % 2 == 1) any half then (q + 1, true) else (q, any))

/-- The columns of R86's table: what an overflow delivers. -/
def overflowBits (f : FFmt) (rm : RM) (sat neg : Bool) : Nat :=
  let big := if f.hasInf then f.signBit neg + f.infBits else f.signBit neg + f.nanBits
  let max := f.signBit neg + f.maxBits
  if sat then max
  else match rm with
    | .rne | .rmm => big
    | .rtz => max
    | .rdn => if neg then big else max
    | .rup => if neg then max else big

/-- The options every rounded result depends on (R54 to R57); `after` finds tininess after rounding, as RISC-V does on
a director core. -/
structure ROpts where
  rm : RM := .rne
  sat : Bool := false
  fi : Bool := false
  fo : Bool := false
  after : Bool := false
  deriving DecidableEq, Repr

/-- One rounding of a nonzero exact result under R85, R86, R87 and fo of R55. -/
def roundNonzero (f : FFmt) (o : ROpts) (x : Exact) : Nat × Events :=
  let e : Int := x.exp + (bitLen x.sig : Int) - 1
  let low : Bool := decide (e < f.emin)
  -- rounded to full precision with an unbounded exponent, it would reach the smallest normal
  let grows : Bool :=
    let up : Int := e - f.mbits - x.exp
    decide (e = f.emin - 1 ∧ 0 < up ∧ (roundShift o.rm x.neg x.sig up.toNat x.sticky).1 = 2 ^ (f.mbits + 1))
  let tiny : Bool := low && !(o.after && grows)
  if o.fo && tiny then (f.signBit x.neg, { uf := true, nx := true })
  else
    let qmin : Int := f.emin - f.mbits
    let q : Int := if e < f.emin then qmin else e - f.mbits
    let sh : Int := q - x.exp
    let (m, lost) :=
      if sh < 0 then (x.sig * 2 ^ (-sh).toNat, x.sticky)
      else roundShift o.rm x.neg x.sig sh.toNat x.sticky
    -- a carry to the next power of two keeps the same value
    let mag : Nat := (q - qmin).toNat * 2 ^ f.mbits + m
    if mag > f.maxBits then (overflowBits f o.rm o.sat x.neg, { of := true, nx := true })
    else (f.signBit x.neg + mag, { uf := tiny && lost, nx := lost })

/-- One rounding of an exact result; a zero keeps its sign and raises nothing. -/
def roundExact (f : FFmt) (o : ROpts) (x : Exact) : Nat × Events :=
  if x.sig = 0 && !x.sticky then (f.signBit x.neg, Events.none) else roundNonzero f o x

/-- The exact sum of two finite values; the sign of an exact zero follows R153. -/
def exactAdd (rm : RM) (an : Bool) (as : Nat) (ae : Int) (bn : Bool) (bs : Nat) (be : Int) : Exact :=
  let e := if ae ≤ be then ae else be
  let a : Int := (if an then -1 else 1) * (as * 2 ^ (ae - e).toNat : Nat)
  let b : Int := (if bn then -1 else 1) * (bs * 2 ^ (be - e).toNat : Nat)
  let s := a + b
  if s = 0 then
    -- both zeros of one sign keep it; any other exact zero is +0, or −0 under rdn
    let keep := as = 0 && bs = 0 && an == bn
    ⟨if keep then an else rm == .rdn, 0, e, false⟩
  else ⟨decide (s < 0), s.natAbs, e, false⟩

/-- a + b of R153, on words of the format. -/
def fAdd (f : FFmt) (o : ROpts) (a b : Nat) : Nat × Events :=
  match f.decode (f.flushIn o.fi a), f.decode (f.flushIn o.fi b) with
  | .nan, _ => (f.nanBits, Events.none)
  | _, .nan => (f.nanBits, Events.none)
  | .inf x, .inf y => if x = y then (f.signBit x + f.infBits, Events.none) else (f.nanBits, { nv := true })
  | .inf x, _ => (f.signBit x + f.infBits, Events.none)
  | _, .inf y => (f.signBit y + f.infBits, Events.none)
  | .fin an as ae, .fin bn bs be => roundExact f o (exactAdd o.rm an as ae bn bs be)

/-- The word with its sign turned. -/
def fNeg (f : FFmt) (a : Nat) : Nat :=
  let s := 2 ^ (f.ebits + f.mbits)
  if bits a (f.ebits + f.mbits) 1 = 1 then a - s else a + s

/-- a − b of R153. -/
def fSub (f : FFmt) (o : ROpts) (a b : Nat) : Nat × Events :=
  match f.decode b with
  | .nan => (f.nanBits, Events.none)
  | _ => fAdd f o a (fNeg f b)

/-- a × b of R153. -/
def fMul (f : FFmt) (o : ROpts) (a b : Nat) : Nat × Events :=
  match f.decode (f.flushIn o.fi a), f.decode (f.flushIn o.fi b) with
  | .nan, _ => (f.nanBits, Events.none)
  | _, .nan => (f.nanBits, Events.none)
  | .inf x, .inf y => (f.signBit (x != y) + f.infBits, Events.none)
  | .inf x, .fin bn bs _ =>
    if bs = 0 then (f.nanBits, { nv := true }) else (f.signBit (x != bn) + f.infBits, Events.none)
  | .fin an as _, .inf y =>
    if as = 0 then (f.nanBits, { nv := true }) else (f.signBit (an != y) + f.infBits, Events.none)
  | .fin an as ae, .fin bn bs be => roundExact f o ⟨an != bn, as * bs, ae + be, false⟩

/-- a × b + c of R153, with one rounding; `negC` gives a × b − c. 0 × ∞ raises invalid even when c is NaN. -/
def fFma (f : FFmt) (o : ROpts) (negC : Bool) (a b c : Nat) : Nat × Events :=
  let c' := if negC then (match f.decode c with | .nan => c | _ => fNeg f c) else c
  let add (pn : Bool) (ps : Nat) (pe : Int) : Nat × Events :=
    match f.decode (f.flushIn o.fi c') with
    | .nan => (f.nanBits, Events.none)
    | .inf y => (f.signBit y + f.infBits, Events.none)
    | .fin cn cs ce => roundExact f o (exactAdd o.rm pn ps pe cn cs ce)
  let addInf (pn : Bool) : Nat × Events :=
    match f.decode (f.flushIn o.fi c') with
    | .nan => (f.nanBits, Events.none)
    | .inf y => if y = pn then (f.signBit y + f.infBits, Events.none) else (f.nanBits, { nv := true })
    | .fin _ _ _ => (f.signBit pn + f.infBits, Events.none)
  match f.decode (f.flushIn o.fi a), f.decode (f.flushIn o.fi b) with
  | .nan, _ => (f.nanBits, Events.none)
  | _, .nan => (f.nanBits, Events.none)
  | .inf x, .inf y => addInf (x != y)
  | .inf x, .fin bn bs _ => if bs = 0 then (f.nanBits, { nv := true }) else addInf (x != bn)
  | .fin an as _, .inf y => if as = 0 then (f.nanBits, { nv := true }) else addInf (an != y)
  | .fin an as ae, .fin bn bs be => add (an != bn) (as * bs) (ae + be)

/-- The quotient of two magnitudes with at least 140 bits, and a mark for a remainder. -/
def exactDiv (neg : Bool) (as : Nat) (ae : Int) (bs : Nat) (be : Int) : Exact :=
  let k := bitLen bs + 140
  let n := as * 2 ^ k
  ⟨neg, n / bs, ae - be - k, n % bs != 0⟩

/-- a / b of R153. -/
def fDiv (f : FFmt) (o : ROpts) (a b : Nat) : Nat × Events :=
  match f.decode (f.flushIn o.fi a), f.decode (f.flushIn o.fi b) with
  | .nan, _ => (f.nanBits, Events.none)
  | _, .nan => (f.nanBits, Events.none)
  | .inf _, .inf _ => (f.nanBits, { nv := true })
  | .inf x, .fin bn _ _ => (f.signBit (x != bn) + f.infBits, Events.none)
  | .fin an _ _, .inf y => (f.signBit (an != y), Events.none)
  | .fin an as ae, .fin bn bs be =>
    if bs = 0 then
      if as = 0 then (f.nanBits, { nv := true })
      else if f.hasInf then (f.signBit (an != bn) + f.infBits, { dz := true })
      else (f.signBit (an != bn) + f.nanBits, { dz := true })
    else if as = 0 then (f.signBit (an != bn), Events.none)
    else roundExact f o (exactDiv (an != bn) as ae bs be)

/-- Integer square root by bisection over the bits from `k` down; the largest `r` with r × r ≤ n. -/
def isqrtAux (n : Nat) : Nat → Nat → Nat
  | 0, r => r
  | k + 1, r =>
    let t := r + 2 ^ k
    isqrtAux n k (if t * t ≤ n then t else r)

/-- Integer square root. -/
def isqrt (n : Nat) : Nat := isqrtAux n ((bitLen n + 1) / 2 + 1) 0

/-- √(sig × 2^exp) with many bits and a mark for the rest. -/
def exactSqrt (sig : Nat) (exp : Int) : Exact :=
  let odd := exp % 2 != 0
  let s := (if odd then sig * 2 else sig) * 2 ^ 240
  let e := (if odd then exp - 1 else exp) - 240
  let r := isqrt s
  ⟨false, r, e / 2, r * r != s⟩

/-- √a of R153. -/
def fSqrt (f : FFmt) (o : ROpts) (a : Nat) : Nat × Events :=
  match f.decode (f.flushIn o.fi a) with
  | .nan => (f.nanBits, Events.none)
  | .inf neg => if neg then (f.nanBits, { nv := true }) else (f.infBits, Events.none)
  | .fin neg s e =>
    if s = 0 then (f.signBit neg, Events.none)
    else if neg then (f.nanBits, { nv := true })
    else roundExact f o (exactSqrt s e)

/-- Numeric order of two words that are not NaN, −0 equal to +0. -/
def fCmp (f : FFmt) (a b : Nat) : Ordering :=
  match f.decode a, f.decode b with
  | .nan, _ => .eq
  | _, .nan => .eq
  | .inf x, .inf y => if x = y then .eq else if x then .lt else .gt
  | .inf x, _ => if x then .lt else .gt
  | _, .inf y => if y then .gt else .lt
  | .fin an as ae, .fin bn bs be =>
    let e := if ae ≤ be then ae else be
    let a : Int := (if an then -1 else 1) * (as * 2 ^ (ae - e).toNat : Nat)
    let b : Int := (if bn then -1 else 1) * (bs * 2 ^ (be - e).toNat : Nat)
    compare a b

/-- Is the word a NaN? -/
def FFmt.isNan (f : FFmt) (w : Nat) : Bool := f.decode w == .nan

/-- vmin and vmax of R154 on words of the format: one operand unchanged, −0 below +0, no flag. -/
def fMinMax (f : FFmt) (max : Bool) (fi : Bool) (a b : Nat) : Nat :=
  let a := f.flushIn fi a
  let b := f.flushIn fi b
  match f.isNan a, f.isNan b with
  | true, true => f.nanBits
  | true, false => b
  | false, true => a
  | false, false =>
    let sa := bits a (f.ebits + f.mbits) 1 = 1
    let less : Bool := match fCmp f a b with
      | .lt => true
      | .gt => false
      | .eq => decide (sa = true ∧ ¬ bits b (f.ebits + f.mbits) 1 = 1)
    if max then (if less then b else a) else (if less then a else
      match fCmp f a b with
      | .eq => if bits b (f.ebits + f.mbits) 1 = 1 then b else a
      | _ => b)

/-- A value rounded to a float format (R112). -/
def valToF (dst : FFmt) (o : ROpts) (v : FVal) : Nat × Events :=
  match v with
  | .nan => (dst.nanBits, Events.none)
  | .inf neg =>
    if dst.hasInf then (dst.signBit neg + dst.infBits, Events.none)
    else if o.sat then (dst.signBit neg + dst.maxBits, Events.none)
    else (dst.signBit neg + dst.nanBits, { nv := true })
  | .fin neg s e => roundExact dst o ⟨neg, s, e, false⟩

/-- Float to float of R112. -/
def fToF (src dst : FFmt) (o : ROpts) (a : Nat) : Nat × Events := valToF dst o (src.decode (src.flushIn o.fi a))

/-- Round an exact value to an integer under `rm`: magnitude and whether anything was lost. -/
def Exact.toInt (rm : RM) (x : Exact) : Int × Bool :=
  let (m, lost) :=
    if 0 ≤ x.exp then (x.sig * 2 ^ x.exp.toNat, x.sticky)
    else roundShift rm x.neg x.sig (-x.exp).toNat x.sticky
  ((if x.neg then -(m : Int) else m), lost)

/-- The range of a w-bit integer format. -/
def intMin (w : Nat) (unsigned : Bool) : Int := if unsigned then 0 else -((2 ^ (w - 1) : Nat) : Int)
/-- The range of a w-bit integer format. -/
def intMax (w : Nat) (unsigned : Bool) : Int :=
  if unsigned then ((2 ^ w : Nat) : Int) - 1 else ((2 ^ (w - 1) : Nat) : Int) - 1
/-- The low w bits of an integer. -/
def wrapInt (w : Nat) (v : Int) : Nat := (v % ((2 ^ w : Nat) : Int)).toNat
/-- Clamp to the range of a w-bit integer format. -/
def clampInt (w : Nat) (unsigned : Bool) (v : Int) : Int :=
  if v < intMin w unsigned then intMin w unsigned
  else if intMax w unsigned < v then intMax w unsigned else v
/-- The value of a w-bit integer word. -/
def intOf (w : Nat) (unsigned : Bool) (n : Nat) : Int :=
  if unsigned || n < 2 ^ (w - 1) then (n : Int) else (n : Int) - ((2 ^ w : Nat) : Int)

/-- The result of R113 for a value that has no place in the destination. -/
def intInvalid (w : Nat) (unsigned sat : Bool) (v : Option Int) : Nat × Events :=
  let r : Nat :=
    if sat then
      match v with
      | none => 0
      | some x => wrapInt w (clampInt w unsigned x)
    else if unsigned then 2 ^ w - 1 else 2 ^ (w - 1)
  (r, { nv := true })

/-- An exact value to an integer under R113. -/
def exactToInt (w : Nat) (unsigned : Bool) (rm : RM) (sat : Bool) (x : Exact) : Nat × Events :=
  let (v, lost) := x.toInt rm
  if v < intMin w unsigned ∨ intMax w unsigned < v then intInvalid w unsigned sat (some v)
  else (wrapInt w v, { nx := lost })

/-- A value to an integer (R113). -/
def valToInt (w : Nat) (unsigned : Bool) (o : ROpts) (v : FVal) : Nat × Events :=
  match v with
  | .nan => intInvalid w unsigned o.sat none
  | .inf neg => intInvalid w unsigned o.sat (some (if neg then intMin w unsigned - 1 else intMax w unsigned + 1))
  | .fin neg s e => exactToInt w unsigned o.rm o.sat ⟨neg, s, e, false⟩

/-- Float to integer of R113. -/
def fToInt (src : FFmt) (w : Nat) (unsigned : Bool) (o : ROpts) (a : Nat) : Nat × Events :=
  valToInt w unsigned o (src.decode (src.flushIn o.fi a))

/-- Integer to float of R114; zero gives +0. -/
def intToF (dst : FFmt) (o : ROpts) (v : Int) : Nat × Events :=
  roundExact dst o ⟨decide (v < 0), v.natAbs, 0, false⟩

/-- Integer to integer of R115. -/
def intToInt (w : Nat) (unsigned sat : Bool) (v : Int) : Nat :=
  wrapInt w (if sat then clampInt w unsigned v else v)

end Sys2Proof.Machine
end

