-- ==== Sys2Proof/Machine/Flags.lean ====
section
/-!
DEFINITION. Flags: the floating-point events of R119 and the park of R120, and what a park does to a chorus (R142).
-/

namespace Sys2Proof.Machine

/-- Leave a chorus at its end: a follower with instructions still queued finishes them (R142). -/
def Hart.release (h : Hart) (lead base size : Nat) (ms : List Nat) : Hart :=
  { h with role := if h.fqueue.isEmpty then .solo else .draining lead base size ms }

/-- Disband the chorus the hart belongs to; the hart itself drops what it was still to follow (R142). -/
def State.disband (s : State) (n : Nat) : State :=
  let lead : Option (Nat × Nat × Nat × List Nat) :=
    match (s.hart n).role with
    | .leader b z ms => some (n, b, z, ms)
    | .follower l _ _ =>
      match (s.hart l).role with
      | .leader b z ms => some (l, b, z, ms)
      | _ => none
    | _ => none
  match lead with
  | none =>
    match (s.hart n).role with
    | .solo => s
    | _ => s.setHart n { s.hart n with role := .solo, fqueue := [] }
  | some (l, b, z, ms) =>
    let s := ms.foldl (fun s m => s.setHart m ((s.hart m).release l b z (l :: ms))) s
    let s := s.setHart l { s.hart l with role := .solo }
    if l = n then s else s.setHart n { s.hart n with role := .solo, fqueue := [] }

/-- The payload of the event message of R292. -/
def eventPayload (pc : Word) (raised venab : BitVec 5) : Vec :=
  BitVec.ofNat 512 (pc.toNat + 2 ^ 64 * (raised.toNat + 256 * venab.toNat))

/-- The hart belongs to the partition the debugger is attached to (R39). -/
def State.inDebug (s : State) (n : Nat) : Bool :=
  s.dbg.attached && (s.partOfCluster (hartCluster n)).map (·.1) == some s.dbg.part

/-- The debugger has selected the hart, or follows the cue it runs (R125, R344). -/
def State.watched (s : State) (n : Nat) : Bool :=
  s.inDebug n &&
    (match s.dbg.follow with
    | some cue => cue == (s.hart n).cueptr && !(s.hart n).house
    | none => s.dbg.sel == some n)

/-- Print a stop; the unit that stopped is the selected one, unless a cue is followed (R40, log 25). -/
def Debugger.stopped (d : Debugger) (unit : Nat) (pc : Word) (reason : Nat) : Debugger :=
  { d with out := .stop unit pc reason :: d.out, sel := if d.follow.isNone then some unit else d.sel }

/-- The stop reason of a parked hart (R292). -/
def whyParked : Nat := 516

/-- Park a hart on an enabled event: the message to its supervisor, the end of its chorus, the parked state (R120,
R142, R292). -/
def State.park (s : State) (n : Nat) (pc : Word) (raised : BitVec 5) : State :=
  let h := s.hart n
  let s := s.post n h.fpsup.toNat { payload := eventPayload pc raised h.venab, side := sideWord 7 0 0 n }
  let s := s.disband n
  let s := s.setHart n { s.hart n with run := .parked pc raised }
  if s.watched n then { s with dbg := s.dbg.stopped n pc whyParked } else s

/-- Raise the events of an instruction at `pc`: sticky flags, and the park when one of them is enabled (R119, R120). -/
def State.raiseEvents (s : State) (n : Nat) (pc : Word) (ev : BitVec 5) : State :=
  let s := s.setHart n { s.hart n with vflags := (s.hart n).vflags ||| ev }
  if ev &&& (s.hart n).venab != 0 then s.park n pc ev else s

/-- The rounding mode of a field, or none where the hart takes the illegal-instruction trap (R56). -/
def rmOf (rm vrm : BitVec 3) : Option RM :=
  match (if rm = 7 then vrm else rm).toNat with
  | 0 => some .rne
  | 1 => some .rtz
  | 2 => some .rdn
  | 3 => some .rup
  | 4 => some .rmm
  | _ => none

end Sys2Proof.Machine
end

