-- ==== Sys2Proof/Machine/Ops.lean ====
section
/-!
DEFINITION. The named operations of a compute hart: registers and their tags, streams, pending lookahead results,
save and restore, taking a trap and returning from it, and the frame around every instruction.
-/

namespace Sys2Proof.Machine

/-! ### Registers (R266-R268, R135) -/

/-- The register's tag is the current generation (R266). -/
def Hart.xLive (h : Hart) (r : Reg) : Bool := r == 0 || (KMap.get {} h.x r.toNat).gen == h.rgen
def Hart.vLive (h : Hart) (r : Reg) : Bool := (KMap.get {} h.v r.toNat).gen == h.rgen
def Hart.mLive (h : Hart) (r : Reg) : Bool := r == 0 || (KMap.get {} h.m r.toNat).gen == h.rgen

/-- Reads of registers that are not live trap (gmode.reg in cue mode, R267). -/
def Hart.regTraps (h : Hart) : Bool := !h.house && h.gmode.getLsbD 0

/-- Write a whole register: the current generation (R268). x0 is not written. -/
def Hart.putX (h : Hart) (r : Reg) (val : Word) (poison : Bool) : Hart :=
  if r = 0 then h else { h with x := KMap.set {} h.x r.toNat ⟨val, h.rgen, poison⟩ }
def Hart.putV (h : Hart) (r : Reg) (val : Vec) (fmt : BitVec 4) (poison : Bool) : Hart :=
  { h with v := KMap.set {} h.v r.toNat ⟨val, h.rgen, poison, fmt⟩ }
def Hart.putM (h : Hart) (r : Reg) (val : Word) (poison : Bool) : Hart :=
  if r = 0 then h else { h with m := KMap.set {} h.m r.toNat ⟨val, h.rgen, poison⟩ }

/-- Mark a register dead: tag 0, no poison, raw; its data bits are undefined and held as 0 (R135, log 7). -/
def Hart.killX (h : Hart) (r : Reg) : Hart := { h with x := KMap.set {} h.x r.toNat {} }
def Hart.killV (h : Hart) (r : Reg) : Hart := { h with v := KMap.set {} h.v r.toNat {} }

/-- Advance rgen; at its wrap every tag becomes 0 (R269). -/
def Hart.advance (h : Hart) : Hart :=
  if h.rgen = 255 then
    { h with
      rgen := 1
      x := h.x.map fun p => (p.1, { p.2 with gen := 0 })
      v := h.v.map fun p => (p.1, { p.2 with gen := 0 })
      m := h.m.map fun p => (p.1, { p.2 with gen := 0 }) }
  else { h with rgen := h.rgen + 1 }

/-! ### Streams: fields and bindings (R191) -/

def Stream.act (t : Stream) : Bool := t.ctl.getLsbD 31
def Stream.write (t : Stream) : Bool := t.ctl.getLsbD 6
def Stream.isV (t : Stream) : Bool := t.ctl.getLsbD 5
def Stream.landing (t : Stream) : Bool := t.ctl.getLsbD 12
def Stream.ovtrap (t : Stream) : Bool := t.ctl.getLsbD 11
def Stream.sx (t : Stream) : Bool := t.ctl.getLsbD 10
def Stream.fmt (t : Stream) : BitVec 4 := t.ctl.extractLsb' 16 4
def Stream.reg (t : Stream) : Reg := t.ctl.extractLsb' 0 5
/-- Bytes of an element: 64 for a v register. -/
def Stream.size (t : Stream) : Nat := if t.isV then 64 else 2 ^ (t.ctl.extractLsb' 8 2).toNat
def Stream.setAct (t : Stream) (b : Bool) : Stream :=
  { t with ctl := if b then t.ctl ||| 0x80000000 else t.ctl &&& ~~~0x80000000#64 }
def Stream.setOvf (t : Stream) (b : Bool) : Stream :=
  { t with ctl := if b then t.ctl ||| 0x40000000 else t.ctl &&& ~~~0x40000000#64 }
/-- Elements of the stream. -/
def Stream.total (t : Stream) : Nat := (t.cnt.extractLsb' 0 32).toNat * (t.cnt.extractLsb' 32 32).toNat
/-- The index of the next element. -/
def Stream.index (t : Stream) : Nat :=
  (t.pos.extractLsb' 0 32).toNat + (t.pos.extractLsb' 32 32).toNat * (t.cnt.extractLsb' 0 32).toNat
/-- The last element has been popped or appended; a zero count is an empty stream (R192). -/
def Stream.atEnd (t : Stream) : Bool := t.total == 0 || decide (t.total ≤ t.index)
/-- The address of element number `k` (R192). -/
def Stream.addrOf (t : Stream) (k : Nat) : Nat :=
  let inner := (t.cnt.extractLsb' 0 32).toNat
  (t.base + BitVec.ofNat 64 (k % inner) * t.stra + BitVec.ofNat 64 (k / inner) * t.strb).toNat
/-- The position after one more element. -/
def Stream.step (t : Stream) : Stream :=
  let inner := (t.cnt.extractLsb' 0 32).toNat
  let k := t.index + 1
  { t with pos := BitVec.ofNat 64 (k % inner + 2 ^ 32 * (k / inner)), moved := t.moved + 1 }

def Hart.stream (h : Hart) (k : Nat) : Stream := KMap.get {} h.streams k
def Hart.setStream (h : Hart) (k : Nat) (t : Stream) : Hart := { h with streams := KMap.set {} h.streams k t }

/-- The active stream bound to a register. -/
def Hart.bound (h : Hart) (isV : Bool) (r : Reg) : Option (Nat × Stream) :=
  h.streams.find? fun p => p.2.act && p.2.isV == isV && p.2.reg == r
/-- A register bound to a write stream, or a read stream. -/
def Hart.boundWrite (h : Hart) (isV : Bool) (r : Reg) : Option (Nat × Stream) :=
  match h.bound isV r with
  | some p => if p.2.write then some p else none
  | none => none
def Hart.boundRead (h : Hart) (isV : Bool) (r : Reg) : Option (Nat × Stream) :=
  match h.bound isV r with
  | some p => if p.2.write then none else some p
  | none => none

/-- An x element extended to a word (R193, R194). -/
def Stream.extend (t : Stream) (bs : List Byte) : Word :=
  let w := 8 * bs.length
  let v := leNat bs
  if t.sx && v.testBit (w - 1) then BitVec.ofNat 64 (v + 2 ^ 64 - 2 ^ w) else BitVec.ofNat 64 v

/-- Who holds a pin for what the hart has outstanding: the running cue, or a helper's leader (R252, R254). -/
def Hart.pinOwner (h : Hart) (n : Nat) : Option (Nat × Word) :=
  match h.helper with
  | some l => some l
  | none => if h.house || h.cueptr = 0 then none else some (n, h.cueptr)

/-- Take a pin count for the hart's owner; none where it must wait. A hart without an owner needs none. -/
def State.takePin (s : State) (n : Nat) : Option (Option (Nat × Word) × State) :=
  match (s.hart n).pinOwner n with
  | none => some (none, s)
  | some (l, cue) => ((s.hart l).pin cue).map fun h => (some (l, cue), s.setHart l h)

/-! ### Register reads and writes of an instruction -/

def hartOf (n : Nat) : Ins Hart := Ins.get fun s => s.hart n
def setHartOf (n : Nat) (f : Hart → Hart) : Ins Unit := Ins.upd fun s => s.setHart n (f (s.hart n))

/-- Read an x register: a write-bound one gives the last element appended (R194), one that is not live reads as zero or
traps (R267). -/
def readX (n : Nat) (r : Reg) : Ins XReg := do
  let h ← hartOf n
  if r = 0 then pure {}
  else
    match h.boundWrite false r with
    | some (_, t) => pure ⟨((t.last.map t.extend).getD 0), h.rgen, false⟩
    | none =>
      if h.xLive r then pure (KMap.get {} h.x r.toNat)
      else if h.regTraps then .trap cStale (RegId.x r).id
      else pure {}

/-- Read an x register that must not be poisoned (R283). -/
def useX (n : Nat) (r : Reg) : Ins Word := do
  let x ← readX n r
  if x.poison then .trap cPoison (RegId.x r).id
  pure x.val

/-- Read two x registers that must not be poisoned: the generation checks come first (R288). -/
def useX2 (n : Nat) (r q : Reg) : Ins (Word × Word) := do
  let x ← readX n r
  let y ← readX n q
  if x.poison then .trap cPoison (RegId.x r).id
  if y.poison then .trap cPoison (RegId.x q).id
  pure (x.val, y.val)

/-- The same of three. -/
def useX3 (n : Nat) (r q p : Reg) : Ins (Word × Word × Word) := do
  let x ← readX n r
  let y ← readX n q
  let z ← readX n p
  if x.poison then .trap cPoison (RegId.x r).id
  if y.poison then .trap cPoison (RegId.x q).id
  if z.poison then .trap cPoison (RegId.x p).id
  pure (x.val, y.val, z.val)

/-- Read a v register under the generation check only. -/
def readV (n : Nat) (r : Reg) : Ins VReg := do
  let h ← hartOf n
  match h.boundWrite true r with
  | some (_, t) => pure ⟨vecOf (t.last.getD []), h.rgen, false, t.fmt⟩
  | none =>
    if h.vLive r then pure (KMap.get {} h.v r.toNat)
    else if h.regTraps then .trap cStale (RegId.v r).id
    else pure {}

/-- Read a v register as a source that must be raw or carry one of the tags (R98, R100). -/
def readVAs (n : Nat) (r : Reg) (tags : List Nat) : Ins VReg := do
  let v ← readV n r
  if v.fmt ≠ 0 && !tags.contains v.fmt.toNat then .trap cFormat (RegId.v r).id
  pure v

/-- Read a mask register; m0 reads as all ones (R150). -/
def readM (n : Nat) (m : BitVec 3) : Ins XReg := do
  let h ← hartOf n
  let r : Reg := (0 : BitVec 2) ++ m
  if r = 0 then pure ⟨BitVec.allOnes 64, h.rgen, false⟩
  else if h.mLive r then pure (KMap.get {} h.m r.toNat)
  else if h.regTraps then .trap cStale (RegId.m m).id
  else pure {}

/-- Append an element to a write stream (R194, R195): a poisoned one traps before any check of the address (R180), and a
trap undoes what the instruction has done. Past the last element the append is an overrun or is discarded, its element
poisoned or not (log 120). -/
def append (n k : Nat) (t : Stream) (bytes : List Byte) (poison : Bool) (id : Nat) : Ins Unit := Ins.precise do
  if t.atEnd then
    if t.ovtrap then .trap cStream k
    setHartOf n fun h => h.setStream k (t.setOvf true)
  else
    if poison then .trap cPoison id
    let a := t.addrOf t.index
    Ins.deny (a % t.size != 0) cAlign a
    hartWrite n a bytes
    setHartOf n fun h => h.setStream k { t.step with last := some bytes }

/-- Write an x register: discarded on a read-bound one (R193), appended on a write-bound one (R194). -/
def writeXP (n : Nat) (r : Reg) (val : Word) (poison : Bool) : Ins Unit := do
  let h ← hartOf n
  if r = 0 then pure ()
  else
    match h.bound false r with
    | none => setHartOf n fun h => h.putX r val poison
    | some (k, t) => if t.write then append n k t (leBytes t.size val.toNat) poison (RegId.x r).id else pure ()

/-- Write an x register with no poison. -/
def writeX (n : Nat) (r : Reg) (val : Word) : Ins Unit := writeXP n r val false

/-- Write a v register. -/
def writeV (n : Nat) (r : Reg) (x : VReg) : Ins Unit := do
  let h ← hartOf n
  match h.bound true r with
  | none => setHartOf n fun h => h.putV r x.val x.fmt x.poison
  | some (k, t) => if t.write then append n k t (vecBytes x.val) x.poison (RegId.v r).id else pure ()

/-- Write a mask register. -/
def writeM (n : Nat) (r : Reg) (x : XReg) : Ins Unit := setHartOf n fun h => h.putM r x.val x.poison

/-! ### Pops (R193, R195) -/

/-- The landing buffer a stream reads. -/
def State.landingOf (s : State) (n : Nat) (t : Stream) : List (Byte × Bool) :=
  KMap.get [] (s.core (coreOf n)).landing (t.base.toNat % 16)

/-- The next element, and the state without it; a landing element that has not arrived stalls. -/
def nextElement (n k : Nat) (t : Stream) : Ins PBytes := do
  if t.landing then
    let b ← Ins.get fun s => s.landingOf n t
    if b.length < t.size then .stop .stall
    Ins.upd fun s =>
      let c := s.core (coreOf n)
      s.setCore (coreOf n) { c with landing := KMap.set [] c.landing (t.base.toNat % 16) (b.drop t.size) }
    pure (b.take t.size)
  else
    match t.ahead with
    | e :: rest => do
      setHartOf n fun h => h.setStream k { t with ahead := rest }
      match e.trap with
      | some (c, v) => .trap c.toNat v.toNat
      | none => pure (e.bytes.map fun b => (b, e.poison))
    | [] => do
      let a := t.addrOf t.index
      Ins.deny (a % t.size != 0) cAlign a
      tryCatch (hartLoad n a t.size) fun e =>
        match e with
        | .trap c _ => .trap c a
        | e => .stop e

/-- Pop one element of a read stream into its register. A landing stream keeps its pin until the instruction has
completed or trapped. -/
def pop (n k : Nat) : Ins Unit := do
  let t := (← hartOf n).stream k
  if t.atEnd then
    if t.ovtrap then .trap cStream k
    setHartOf n fun h =>
      let h := h.setStream k { t.setOvf true with last := some (List.replicate t.size 0) }
      if t.isV then h.putV t.reg 0 t.fmt false else h.putX t.reg 0 false
  else
    let e ← nextElement n k t
    let bs := PBytes.bytes e
    setHartOf n fun h =>
      let t := { (h.stream k).step with last := some bs }
      let h := h.setStream k t
      if t.isV then h.putV t.reg (vecOf bs) t.fmt (PBytes.poisoned e)
      else h.putX t.reg (t.extend bs) (PBytes.poisoned e)

/-- The read streams an instruction names as sources; a net.red that stalls has popped them at its issue (R236). -/
def Hart.popped (h : Hart) (i : Instr) : List (Nat × Stream) :=
  if h.net.isSome then [] else h.streams.filter fun p => p.2.act && (!p.2.write && (sources i).contains (if p.2.isV then .v p.2.reg else .x p.2.reg))

/-- Pop the read streams an instruction names as sources, once each; a trap of one undoes the others (R193, R195). -/
def popSources (n : Nat) (i : Instr) : Ins Unit := do
  let h ← hartOf n
  (h.popped i).forM fun p => (pop n p.1).precise

/-- The instruction has completed or trapped: landing streams it popped to their end release their pins (R197). -/
def State.popEnd (s : State) (n : Nat) (ks : List (Nat × Stream)) : State :=
  ks.foldl (fun s p =>
    let t := (s.hart n).stream p.1
    if t.pin.isSome && t.atEnd then (s.setHart n ((s.hart n).setStream p.1 { t with pin := none })).unpin t.pin else s) s

/-! ### Pending lookahead results (R59-R65) -/

/-- A write of accumulator bytes under a recorded generation (R278); `loc` is the granule in the cluster's store. -/
def State.accWrite (s : State) (cluster : Nat) (c : Chunk) : State :=
  let k := s.cluster cluster
  match covering k.accAlloc (32 * c.loc) with
  | some (_, a) =>
    if a.gen = c.gen then
      s.setCluster cluster { k with
        acc := KMap.set {} k.acc c.loc ((KMap.get {} k.acc c.loc).write c.gen c.off c.bytes c.poison) }
    else s
  | none => s

/-- The engine writes of an sl.mask (R357): published at cluster scope, and captured for the hart. -/
def State.maskWrites (s : State) (n : Nat) (cs : List Chunk) : State :=
  if cs.isEmpty then s
  else
    let seq := s.seq
    let s := cs.foldl (fun s c => s.writeHome (.cluster (hartCluster n)) 0 (some 1) false c) s
    s.captureCover (.hart n) ((s.log.takeWhile fun r => seq < r.seq).map (·.seq))

/-- Close the selection session a hart has open (R346): its pin is released, and no pending sl.mask closes a later
one. -/
def State.closeSession (s : State) (n : Nat) : State :=
  let k := s.cluster (hartCluster n)
  match k.sess with
  | some x =>
    if x.hart = n then
      let s := s.setHart n { s.hart n with pending := (s.hart n).pending.map fun p => { p with closes := false } }
      (s.setCluster (hartCluster n) { k with sess := none }).unpin x.pin
    else s
  | none => s

/-- The result of a combine round for a hart, and the state that no longer holds it. -/
def State.takeCombine (s : State) (n ctx round : Nat) : Option ((Combine × BitVec 1024) × State) :=
  match KMap.get none s.combine ctx with
  | none => none
  | some c =>
    let mine (r : Nat × Nat × BitVec 1024) : Bool := r.1 == n && r.2.1 == round
    (c.results.find? mine).map fun r =>
      ((c, r.2.2), { s with combine := KMap.set none s.combine ctx (some { c with results := c.results.eraseIdx (c.results.findIdx mine) }) })

/-- The bytes of a store, replaced in order. -/
def fillChunks : List Chunk → List Byte → List Chunk
  | [], _ => []
  | c :: t, bs => { c with bytes := bs.take c.bytes.length } :: fillChunks t (bs.drop c.bytes.length)

/-- The pending result with what its combine round gave (R235). -/
def Pending.combined (p : Pending) (c : Combine) (r : BitVec 1024) : Pending :=
  match c.op with
  | 0 => { p with vs := [(p.netDest, { val := BitVec.ofNat 512 (r.toNat % 2 ^ 128), fmt := 13 })] }
  | 2 => { p with
      xs := [(p.netDest, { val := BitVec.ofNat 64 c.n })]
      stores := fillChunks p.stores (leBytes 128 r.toNat) }
  | _ => { p with xs := [(p.netDest, { val := r.extractLsb' 0 64 })] }

/-- A result that waits for a combine round takes it, and releases its pin; none while the round is open. -/
def State.netReady (s : State) (n : Nat) (p : Pending) : Option (Pending × State) :=
  match p.net with
  | none => some (p, s)
  | some (ctx, round) =>
    match s.takeCombine n ctx round with
    | none => none
    | some ((c, r), s) => some (p.combined c r, s.unpin ((s.hart n).pinOwner n))

/-- Everything a result writes, as it stands at completion: registers, stores, accumulator cells, events. A write to a
read-bound register is discarded. -/
def State.finish (s : State) (n : Nat) (p : Pending) : State :=
  let h := s.hart n
  let h := p.xs.foldl (fun h q => if (h.boundRead false q.1).isSome then h else h.putX q.1 q.2.val q.2.poison) h
  let h := p.vs.foldl (fun h q => if (h.boundRead true q.1).isSome then h else h.putV q.1 q.2.val q.2.fmt q.2.poison) h
  let h := p.ms.foldl (fun h q => h.putM q.1 q.2.val q.2.poison) h
  let s := s.setHart n h
  let s := p.stores.foldl (fun s c => s.hartStore n c) s
  let s := p.accs.foldl (fun s c => s.accWrite (hartCluster n) c) s
  let s := s.maskWrites n p.engs
  let s := if p.closes then s.closeSession n else s
  if p.events = 0 then s else s.raiseEvents n p.pc p.events

/-- Complete the pending result at place `k`; none while it waits for others. -/
def State.completeAt (s : State) (n k : Nat) : Option State :=
  match (s.hart n).pending[k]? with
  | none => some s
  | some p =>
    match s.netReady n p with
    | none => none
    | some (p, s) =>
      let h := s.hart n
      some ((s.setHart n { h with pending := h.pending.eraseIdx k }).finish n p)

/-- Complete the first pending results, in order of issue, while `want` holds of one; none if one of them waits. -/
def State.completeWhere (s : State) (n : Nat) (want : Hart → Pending → Bool) : Nat → Option State
  | 0 => some s
  | fuel + 1 =>
    match (s.hart n).pending.findIdx? (want (s.hart n)) with
    | none => some s
    | some k =>
      match s.completeAt n k with
      | none => none
      | some s => s.completeWhere n want fuel

/-- Complete every pending result. -/
def State.completeAll (s : State) (n : Nat) : Option State :=
  s.completeWhere n (fun _ _ => true) (s.hart n).pending.length

/-- D: the registers a pending result will write. -/
def Pending.dests (p : Pending) : List RegId :=
  p.xs.map (fun q => .x q.1) ++ p.vs.map (fun q => .v q.1) ++ p.ms.map (fun q => .m (q.1.extractLsb' 0 3)) ++
    (if p.net.isSome then [.x p.netDest, .v p.netDest] else [])

/-- The result reaches memory or the flags. -/
def Pending.beyond (p : Pending) : Bool := !p.stores.isEmpty || !p.accs.isEmpty || !p.engs.isEmpty || p.net.isSome || p.events != 0

/-- The lookahead an instruction runs with: none in edition 1, nor when D is bound to a write stream (R54, R64). -/
def Hart.window (h : Hart) (i : Instr) : Nat :=
  if (dests i).any fun d =>
    match d with
    | .x r => (h.boundWrite false r).isSome
    | .v r => (h.boundWrite true r).isSome
    | .m _ => false
  then 0 else (optsOf i).window

/-- The instruction waits for the pending result: it may leave the cue (R62); it seals, and the result writes memory (R200); the
window is closed and it uses what the result will write; or it is one of the two kinds of R61. A release inside the
window of a store does not wait for it, and does not cover it (log 52). -/
def mustWait (i : Instr) (h : Hart) (p : Pending) : Bool :=
  let d := p.dests
  mayLeave i
    || (match i with | .seal .. => !p.stores.isEmpty || !p.engs.isEmpty | _ => false)
    || (p.window == 0 && ((sources i ++ dests i ++ marked i h.dmask).any d.contains || (p.beyond && !registersOnly i)))
    || ((dests i).any d.contains && (decide (0 < h.window i) || isVectorLoad i))

/-- Write a result: at once, or as a pending one with its window (R59). Its registers go through `writeX` and
`writeV`, so that streams see them. -/
def commit (n : Nat) (i : Instr) (p : Pending) : Ins Unit := do
  let h ← hartOf n
  let la := h.window i
  if la = 0 then
    p.xs.forM fun q => writeXP n q.1 q.2.val q.2.poison
    p.vs.forM fun q => writeV n q.1 q.2
    p.ms.forM fun q => writeM n q.1 q.2
    hartStores n p.stores
    Ins.upd fun s => (p.accs.foldl (fun s c => s.accWrite (hartCluster n) c) s).maskWrites n p.engs
    if p.closes then Ins.upd fun s => s.closeSession n
    if p.events ≠ 0 then Ins.upd fun s => s.raiseEvents n h.pc p.events
  else setHartOf n fun h => { h with pending := h.pending ++ [{ p with window := la + 1, pc := h.pc }] }

/-! ### Loop sets (R133) -/

/-- The hart after an instruction of `len` bytes that did not redirect control; a set just armed is skipped. -/
def Hart.evalLoops (h : Hart) (len : Nat) (skip : Option Nat) : Hart :=
  let next := h.pc + BitVec.ofNat 64 len
  let set0 (h : Hart) : Hart :=
    if skip ≠ some 0 ∧ h.lp0.lpc ≠ 0 ∧ next = h.lp0.lpe then
      if h.lp0.lpc = 1 then { h with lp0 := { h.lp0 with lpc := 0 }, pc := next }
      else { h with lp0 := { h.lp0 with lpc := h.lp0.lpc - 1 }, pc := h.lp0.lps }
    else { h with pc := next }
  if skip ≠ some 1 ∧ h.lp1.lpc ≠ 0 ∧ next = h.lp1.lpe then
    if h.lp1.lpc = 1 then set0 { h with lp1 := { h.lp1 with lpc := 0 } }
    else { h with lp1 := { h.lp1 with lpc := h.lp1.lpc - 1 }, pc := h.lp1.lps }
  else set0 h

/-! ### Partly pushed commands (R306, R361) -/

/-- A waiting sl.cfg that does not issue again gives up its place in the order of requests (R346). -/
def State.dropRequest (s : State) (n : Nat) : State :=
  let k := s.cluster (hartCluster n)
  let mine (j : SelJob) : Bool := j.cfg && j.hart == n
  if k.jobs.any mine then s.setCluster (hartCluster n) { k with jobs := k.jobs.filter fun j => !mine j } else s

/-- Discard what q0, q1 and q2 hold of a command; the engines will post status 8, each in its order. -/
def State.discardPartial (s : State) (n : Nat) : State :=
  let k := hartCluster n
  let h := s.hart n
  let help := h.helper.isSome
  let s := s.dropRequest n
  let s := if h.q0.isEmpty then s
    else
      let s := s.setCluster k { s.cluster k with
        copy := (s.cluster k).copy ++ [{ hart := n, root := s.rootOf k, words := h.q0, status := 8, finished := true, helper := help }] }
      s.setHart n { s.hart n with q0 := [] }
  let s := if h.q1.isEmpty then s
    else
      let t : Task := {
        hart := n, root := s.rootOf k, core := coreOf n, cluster := k, op := 3, a := 0, b := 0, dst := 0, dims := 0
        tag := bits (h.q1.headD 0).toNat 32 32, status := 8, helper := help }
      let s := s.setSlice (sliceOf k) { s.slice (sliceOf k) with tasks := (s.slice (sliceOf k)).tasks ++ [t] }
      s.setHart n { s.hart n with q1 := [] }
  if h.q2.isEmpty then s
  else
    let s := s.setCluster k { s.cluster k with
      jobs := (s.cluster k).jobs ++ [{ hart := n, root := s.rootOf k, core := coreOf n, words := h.q2, status := 8, helper := help }] }
    s.setHart n { s.hart n with q2 := [] }

/-! ### Save (R238, R245, R270) -/

/-- The tag byte of a register (R238). -/
def tagByte (live poison : Bool) (fmt : BitVec 4) : Byte :=
  if live then BitVec.ofNat 8 (128 + (if poison then 64 else 0) + fmt.toNat) else 0

/-- x10 to x13, carried in the record. -/
def inlineX (i : Nat) : Bool := decide (10 ≤ i ∧ i ≤ 13)

/-- The tags of a save: live for the registers named that are live, and a0 to a3 whenever they are live; x0 and m0 are
always live, whatever the map says of them (R239, R266, R270). -/
def Hart.saveTags (h : Hart) (map : BitVec 72) : List Byte :=
  (List.range 32).map (fun i =>
    let r := KMap.get {} h.x i
    tagByte (i == 0 || (r.gen == h.rgen && (inlineX i || map.getLsbD i))) (i != 0 && r.poison) 0) ++
  (List.range 32).map (fun i =>
    let r := KMap.get {} h.v i
    tagByte (r.gen == h.rgen && map.getLsbD (32 + i)) r.poison r.fmt) ++
  (List.range 8).map (fun i =>
    let r := KMap.get {} h.m i
    tagByte (i == 0 || (r.gen == h.rgen && map.getLsbD (64 + i))) (i != 0 && r.poison) 0)

/-- Register slots of a save, each as address and bytes. -/
def Hart.saveSlots (h : Hart) (map : BitVec 72) : List (Nat × List Byte) :=
  (h.x.filter fun p => p.2.gen == h.rgen && !inlineX p.1 && map.getLsbD p.1).map (fun p => (64 + 8 * p.1, wordBytes p.2.val)) ++
  (h.v.filter fun p => p.2.gen == h.rgen && map.getLsbD (32 + p.1)).map (fun p => (320 + 64 * p.1, vecBytes p.2.val)) ++
  (h.m.filter fun p => p.2.gen == h.rgen && map.getLsbD (64 + p.1)).map (fun p => (2368 + 8 * p.1, wordBytes p.2.val))

def LoopSet.bytes (l : LoopSet) : List Byte := wordBytes l.lps ++ wordBytes l.lpe ++ wordBytes l.lpc

def Stream.csrs (t : Stream) : List Word := [t.base, t.stra, t.strb, t.cnt, t.ctl, t.pos]

/-- The loop sets a save names, each as address and bytes; one that is not named is not written (R245). -/
def Hart.saveLoops (h : Hart) (l0 l1 : Bool) : List (Nat × List Byte) :=
  (if l0 then [(2560, h.lp0.bytes)] else []) ++ (if l1 then [(2584, h.lp1.bytes)] else [])

/-- The six CSRs and the stream CSRs, bytes 2608 to 2847. -/
def Hart.saveCsrs (h : Hart) : List Byte :=
  leBytes 8 h.vflags.toNat ++ leBytes 8 h.venab.toNat ++ leBytes 8 h.vrm.toNat ++ wordBytes h.dmask ++
  leBytes 8 h.depmask.toNat ++ leBytes 8 h.gmode.toNat ++
  ([0, 1, 2, 3].flatMap fun k => (h.stream k).csrs.flatMap wordBytes)

/-- What a save puts into the record: kind, state, live map, pc and wait word. -/
structure SaveAs where
  full : Bool
  state : Nat
  live : Nat := 0
  pc : Word
  reason : Nat := 0
  object : Nat := 0

/-- The saved record of a cue (R237), from its home record; an argument register that is not live is not written (R245,
R270). -/
def Hart.saveRecord (h : Hart) (n : Nat) (old : Vec) (a : SaveAs) : Vec :=
  let arg (v : Vec) (i : Nat) : Vec :=
    let r := KMap.get {} h.x (10 + i)
    if r.gen = h.rgen then setField v (256 + 64 * i) 64 r.val.toNat else v
  let v := arg (arg (arg (arg old 0) 1) 2) 3
  let v := setField v 0 64 a.pc.toNat
  let v := setField v 160 4 a.state
  let v := setField v 172 2 (if a.full then 2 else 1)
  let v := setField v 175 1 (if h.pinned h.cueptr then 1 else 0)
  let v := setField v 176 16 a.live
  let v := setField v 192 26 a.object
  let v := setField v 218 2 (if a.state = 2 then n % 4 else 0)
  setField v 220 4 a.reason

/-- Write-bound registers hold the last element appended, as ordinary registers of a save do (R194, R196). -/
def Hart.withLast (h : Hart) : Hart :=
  h.streams.foldl (fun h p =>
    let t := p.2
    if t.act && t.write then
      let bs := t.last.getD []
      if t.isV then h.putV t.reg (vecOf bs) t.fmt false else h.putX t.reg (t.extend (if bs.isEmpty then [0] else bs)) false
    else h) h

/-- A save into the area at cueptr, without its closing release. -/
def State.saveArea (s : State) (n : Nat) (map : BitVec 72) (l0 l1 : Bool) (a : SaveAs) : State :=
  let s := s.discardPartial n
  let s := s.setHart n (s.hart n).withLast
  let h := s.hart n
  let p := h.cueptr.toNat
  let (old, s) := (hwRead n p 64) s
  let old := match old with | .ok b => vecOf (PBytes.bytes b) | .error _ => 0
  let s := hwWrite n p (vecBytes (h.saveRecord n old a)) s
  let s := (h.saveSlots map ++ h.saveLoops l0 l1).foldl (fun s q => hwWrite n (addrAdd p q.1) q.2 s) s
  let s := hwWrite n (addrAdd p 2432) (h.saveTags map) s
  let s := hwWrite n (addrAdd p 2608) h.saveCsrs s
  let s := if h.pinned h.cueptr then hwWrite n (addrAdd p 2864) (leBytes 4 n) s else s
  -- a saved stream is bound again at restore; until then its registers are ordinary ones
  s.setHart n { s.hart n with streams := h.streams.map fun t => (t.1, { t.2.setAct false with ahead := [] }) }

/-- All registers. -/
def fullMap : BitVec 72 := BitVec.allOnes 72

/-- A full save, and a live save under a map, each with the closing release at package scope (R245). -/
def State.saveFull (s : State) (n : Nat) (a : SaveAs) : State :=
  (s.saveArea n fullMap true true { a with full := true }).release (.hart n) 4
def State.saveLive (s : State) (n : Nat) (map : BitVec 128) (a : SaveAs) : State :=
  (s.saveArea n (map.extractLsb' 0 72) (map.getLsbD 72) (map.getLsbD 73) { a with full := false }).release (.hart n) 4

/-! ### Restore (R244, R197) -/

/-- Load the registers a map names and whose tag byte is live; a0 to a3 come from the record. -/
def State.restoreRegs (s : State) (n : Nat) (area : Nat) (map : BitVec 72) (rcd : Vec) : State :=
  let rd (s : State) (a len : Nat) : List Byte :=
    match (hwRead n (addrAdd area a) len s).1 with | .ok b => PBytes.bytes b | .error _ => []
  let tags := rd s 2432 72
  let tag (i : Nat) : Byte := tags.getD i 0
  let live (i : Nat) : Bool := (tag i).getLsbD 7
  let pois (i : Nat) : Bool := (tag i).getLsbD 6
  let h := s.hart n
  let h := (List.range 32).foldl (fun h i =>
    if inlineX i then
      if live i then h.putX (BitVec.ofNat 5 i) (rcd.extractLsb' (256 + 64 * (i - 10)) 64) (pois i) else h
    else if map.getLsbD i && live i then h.putX (BitVec.ofNat 5 i) (wordOf (rd s (64 + 8 * i) 8)) (pois i) else h) h
  let h := (List.range 32).foldl (fun h i =>
    if map.getLsbD (32 + i) && live (32 + i) then
      h.putV (BitVec.ofNat 5 i) (vecOf (rd s (320 + 64 * i) 64)) ((tag (32 + i)).extractLsb' 0 4) (pois (32 + i))
    else h) h
  let h := (List.range 8).foldl (fun h i =>
    if map.getLsbD (64 + i) && live (64 + i) then
      h.putM (BitVec.ofNat 5 i) (wordOf (rd s (2368 + 8 * i) 8)) (pois (64 + i)) else h) h
  s.setHart n h

/-- The last element of a restored stream: what its register holds, where an element was moved and the register is live
(R194, R196). -/
def Hart.lastOf (h : Hart) (t : Stream) : Option (List Byte) :=
  if !t.act || t.index = 0 then none
  else if t.isV then (if h.vLive t.reg then some (vecBytes (KMap.get {} h.v t.reg.toNat).val) else none)
  else if h.xLive t.reg then some (leBytes t.size (KMap.get {} h.x t.reg.toNat).val.toNat) else none

/-- The writable bits of sctl (R191). -/
def ctlMask : Word := 0xC00F1F7F

/-- Restore loop sets, the six CSRs and the streams from the area, after the registers; reserved bits are ignored (R80). -/
def State.restoreCsrs (s : State) (n : Nat) (area : Nat) (l0 l1 : Bool) : State :=
  let w (k : Nat) : Word :=
    match (hwRead n (addrAdd area (2560 + 8 * k)) 8 s).1 with | .ok b => wordOf (PBytes.bytes b) | .error _ => 0
  let lp (on : Bool) (k : Nat) : LoopSet := if on then ⟨w k &&& ~~~1#64, w (k + 1) &&& ~~~1#64, w (k + 2)⟩ else {}
  let strm (h : Hart) (j : Nat) : Hart :=
    let k := 12 + 6 * j
    let t : Stream := { base := w k, stra := w (k + 1), strb := w (k + 2), cnt := w (k + 3), ctl := w (k + 4) &&& ctlMask, pos := w (k + 5) }
    h.setStream j { t with
      moved := t.index
      last := h.lastOf t
      pin := if t.act && t.landing && !t.atEnd then h.pinOwner n else none }
  let h := s.hart n
  let h := { h with
    lp0 := lp l0 0, lp1 := lp l1 3
    vflags := (w 6).extractLsb' 0 5, venab := (w 7).extractLsb' 0 5, vrm := (w 8).extractLsb' 0 3
    dmask := w 9 &&& 0xFFFFFFFFFFFFFFFE, depmask := (w 10).extractLsb' 0 32 &&& 0xFFFFFFFE
    gmode := (w 11).extractLsb' 0 2 }
  s.setHart n ([0, 1, 2, 3].foldl strm h)

/-- The CSRs a fresh cue starts with: all zero, no stream bound. -/
def Hart.freshCsrs (h : Hart) : Hart :=
  { h with lp0 := {}, lp1 := {}, vflags := 0, venab := 0, vrm := 0, dmask := 0, depmask := 0, gmode := 0, streams := [] }

/-! ### Leaving the cue -/

/-- The hart leaves cue mode at the instruction after the cue.resume that started the cue, whose rd becomes 0 (R244,
R250). A pending vacate request lapses (R261). -/
def State.leaveCue (s : State) (n : Nat) : State :=
  let h := s.hart n
  let ret := h.resume.getD (h.tvec, 0)
  s.setHart n (({ h with
    house := true, pc := ret.1, resume := none, vacate := none, vacateDue := false, rewait := none, trapped := false }).putX ret.2 0 false)

/-! ### Taking a trap (R289, R291) -/

/-- The double trap: the hart halts with the trap registers as they stood, and Stagehouse is told (R291). -/
def State.doubleTrap (s : State) (n : Nat) : State :=
  let s := (s.setHart n { s.hart n with run := .halted }).dropRequest n
  { s with doubleTraps := s.doubleTraps ++ [n], trapTimes := s.trapTimes ++ [(n, s.time.toNat)] }

/-- Stop a hart for the debugger and print the stop (R40). -/
def State.stopHart (s : State) (n : Nat) (pc : Word) (reason : Nat) : State :=
  let s := s.setHart n { s.hart n with run := .stopped, stopAfter := none }
  { s with dbg := s.dbg.stopped n pc reason }

/-- Trap entry on a compute hart: `code` and `tval` of R287, `pc` of the trapping instruction. While a lookahead result
waits for others the trap waits too; one that parks the hart leaves the trap to the reissue after the unpark (R62). -/
def State.takeTrap (s : State) (n code tval : Nat) (pc : Word) : State :=
  if (s.hart n).house then s.doubleTrap n
  else
    match s.completeAll n with
    | none => s
    | some s =>
      if (s.hart n).run ≠ .active then s else
      let stop := s.watched n
      let s := s.disband n
      let s := s.discardPartial n
      let s := s.setHart n { s.hart n with
        tcause := BitVec.ofNat 8 code, tepc := pc &&& ~~~1#64, tval := BitVec.ofNat 64 tval, pc := pc }
      let h := s.hart n
      let s := if h.cueptr = 0 then s
        else
          let w := h.rewait.getD (0, 0)
          let s := s.saveArea n fullMap true true { full := true, state := 1, pc := pc, reason := w.1, object := w.2 }
          let p := h.cueptr.toNat
          hwWrite n (addrAdd p 2872) (leBytes 8 code ++ wordBytes h.tepc ++ wordBytes h.tval) s
      let s := s.setHart n { s.hart n with house := true, pc := (s.hart n).tvec, run := .active, trapped := true }
      if stop then s.stopHart n pc code else s

/-- The wait a record carries to the instruction that re-executes (R247). -/
def recWait (rcd : Vec) : Option (Nat × Nat) :=
  let r := (rcd.extractLsb' 220 4).toNat
  if r = 2 ∨ r = 3 then some (r, (rcd.extractLsb' 192 26).toNat) else none

/-- tret (R290): the saved cue is restored under a new generation, and the hart goes on in cue mode at tepc. -/
def State.tret (s : State) (n : Nat) : State :=
  let h := s.hart n
  if h.cueptr = 0 then s.setHart n { h with house := false, trapped := false, pc := h.tepc }
  else
    let p := h.cueptr.toNat
    let (r, s) := (hwRead n p 64) s
    let rcd := match r with | .ok b => vecOf (PBytes.bytes b) | .error _ => 0
    if recState rcd ≠ 1 ∨ recSave rcd ≠ 2 then s.doubleTrap n
    else
      let s := s.setHart n { (s.hart n).advance with house := false }
      let s := s.restoreRegs n p fullMap rcd
      let s := s.restoreCsrs n p true true
      s.setHart n { s.hart n with pc := h.tepc, trapped := false, rewait := recWait rcd }

/-! ### The frame around an instruction -/

/-- How a completed instruction moves the pc: to the next one by the loop rules, to a target, or as the instruction
itself has set it. -/
inductive Ctl where
  | seq (skip : Option Nat := none)
  | jump (t : Word)
  | gone
deriving DecidableEq, Repr

/-- Count the instruction, close windows by one, and move on. -/
def Hart.retire (h : Hart) (i : Instr) (c : Ctl) : Hart :=
  let h := { h with
    instret := h.instret + 1
    rewait := match c with | .gone => h.rewait | _ => none
    pending := h.pending.map fun p => { p with window := p.window - 1 } }
  match c with
  | .seq skip => h.evalLoops i.len skip
  | .jump t => { h with pc := t }
  | .gone => h

/-- The members of the chorus the hart leads. -/
def Hart.members (h : Hart) : List Nat :=
  match h.role with
  | .leader _ _ ms => ms
  | _ => []

/-- Send a decoded instruction to a member of a chorus (R140); one that the instruction has disbanded still runs it. -/
def Hart.follow (h : Hart) (f : Followed) (was : Role) : Hart :=
  { h with fqueue := h.fqueue ++ [f], role := if h.role = .solo then was else h.role }

/-- The role of the chorus's members that still have instructions to run when it is disbanded. -/
def Hart.drains (h : Hart) (n : Nat) : Role :=
  match h.role with
  | .leader b z ms => .draining n b z (n :: ms)
  | r => r

/-- After an instruction of a follower: it drops the entry it ran; on another path than its leader it leaves the
chorus (R141). -/
def State.followed (s : State) (n : Nat) : State :=
  let h := s.hart n
  match h.role, h.fqueue with
  | .follower l _ _, f :: t =>
    if h.pc = f.next then s.setHart n { h with fqueue := t }
    else
      let s := s.setHart n { h with fqueue := [], role := .solo }
      match (s.hart l).role with
      | .leader b z ms => s.setHart l { s.hart l with role := .leader b z (ms.filter fun m => m != n) }
      | _ => s
  | .draining .., f :: t =>
    if h.pc = f.next ∧ t ≠ [] then s.setHart n { h with fqueue := t }
    else s.setHart n { h with fqueue := [], role := .solo }
  | _, _ => s

/-- The registers a hart had before an instruction that waits: it will issue again. -/
def Hart.reissue (h old : Hart) : Hart :=
  { h with x := old.x, v := old.v, m := old.m, streams := old.streams, pending := old.pending, pc := old.pc }

/-- The instruction is illegal whatever its streams deliver: that comes before every pop (R43). -/
def illegalFirst (n : Nat) (i : Instr) (body : Nat → Ins Ctl) (s : State) : Bool :=
  !((s.hart n).popped i).isEmpty && (match (body n s).1 with | .error .illegal => true | _ => false)

/-- Run an instruction on a hart that is free to issue: legality, interlocks, pops, effect, retirement (R43, R59-R64,
R133, R193), and the trap it may take. A trap of an element undoes every pop; in any other the pops stand (R343). -/
def runOn (n : Nat) (i : Instr) (body : Nat → Ins Ctl) (s : State) : State :=
  let pc := (s.hart n).pc
  let ms := (s.hart n).members
  let ks := (s.hart n).popped i
  -- where the leader goes; one that leaves cue mode leaves its members at the next instruction
  let next (t : State) : Word := if (t.hart n).house && !(s.hart n).house then pc + BitVec.ofNat 64 i.len else (t.hart n).pc
  let tell (t : State) : State := ms.foldl (fun t m => t.setHart m ((t.hart m).follow ⟨i, pc, next t⟩ ((s.hart n).drains n))) t
  let trapped (t : State) (c v : Nat) : State :=
    if (t.hart n).house then tell (t.takeTrap n c v pc)
    else
      match s.completeAll n with
      | none => s
      | some u => if (u.hart n).run = .active then tell (t.takeTrap n c v pc) else u
  if !i.onCompute || illegalFirst n i body s then trapped s cIllegal i.bits
  else
    match popSources n i s with
    | (.error (.undo c v), _) => trapped s c v
    | (.error _, _) => s
    | (.ok _, p) =>
      match (do let c ← body n; Ins.upd fun s => s.popEnd n ks; setHartOf n fun h => h.retire i c : Ins Unit) p with
      | (.ok _, t) => tell (t.followed n)
      | (.error (.trap c v), t) => trapped (t.popEnd n ks) c v
      | (.error (.undo c v), _) => trapped (p.popEnd n ks) c v
      | (.error .illegal, _) => trapped s cIllegal i.bits
      | (.error .hold, t) =>
        -- a net.red that has contributed keeps what it popped and read at issue (R235, R236)
        if (t.hart n).net.isSome then t.popEnd n ks else
        let k := coreOf n
        (t.setCore k { t.core k with landing := (s.core k).landing }).setHart n ((t.hart n).reissue (s.hart n))
      | (.error _, _) => s

/-- Run an instruction on a compute hart: it waits while a follower's queue is full (R140) and for the pending results
that hold it; it does not issue once one of them has parked the hart. An instruction in the window of a result that was
committed before its window closed reads the new value (log 110). -/
def runHart (n : Nat) (i : Instr) (body : Nat → Ins Ctl) (s : State) : State :=
  if (s.hart n).members.any fun m => decide (4 ≤ (s.hart m).fqueue.length) then s
  else
    match s.completeWhere n (mustWait i) (s.hart n).pending.length with
    | none => s
    | some t => if (t.hart n).run = .active then runOn n i body t else t

/-- The outcome of an act that no agent executes as an instruction. -/
def happen (s : State) : Host.Outcome State Fault Refusal := .next s

/-- A release of an agent at a scope: whole; or, in a turn that publishes in parts, one entry, and the agent waits
(R209, log 9). -/
def releaseAt (a : Agent) (scope : Nat) : Ins Unit := do
  let s ← Ins.get id
  match s.part with
  | some k =>
    if k < (s.ownEntries a).length then
      Ins.upd fun s => s.publishOne a (a.writer.widen scope) k
      .stop .hold
    else Ins.upd fun s => s.release a scope
  | none => Ins.upd fun s => s.release a scope

/-- A refresh of an agent at a scope (R210). -/
def refreshAt (a : Agent) (scope : Nat) : Ins Unit := Ins.upd fun s => s.refresh a scope

end Sys2Proof.Machine
end

