-- ==== Sys2Proof/Machine/PlayTable.lean ====
section
/-!
DEFINITION. The play table and its seed ports (R421, R422), and memory as Stagehouse and the director die's units reach
it (R436).
-/

namespace Sys2Proof.Machine

/-! ### Memory of the director die -/

/-- A virtual address under a root, as hardware reaches it for a thread (`user`) or for Stagehouse; none where nothing maps
it so, or, for a thread, outside the ranges of its partition (R436). -/
def State.rootPlace (s : State) (root : Option Word) (user : Bool) (k : Acc) (va : Nat) : Option Nat × State :=
  match root with
  | none => (some va, s)
  | some r =>
    let (l, s) := walk 4 s r.toNat (va57 va)
    let owns (pa : Nat) : Bool := ((s.parts.find? fun p => p.2.root == r).map fun p => p.2.owns pa).getD true
    let fits (l : Leaf) : Bool :=
      l.a && (l.toTlb r).allows k && (!user || (l.u && owns ((l.toTlb r).pa (va57 va))))
    (l.bind fun l => if fits l then some ((l.toTlb r).pa (va57 va)) else none, s)

/-- The root a director core translates under; none in Bare mode. -/
def Dir.root (d : Dir) : Option Word :=
  if (d.satp.extractLsb' 60 4).toNat = 10 then some (BitVec.ofNat 64 ((d.satp.extractLsb' 0 44).toNat * 4096)) else none

/-- Memory as Stagehouse on the director cores has it: the home, overlaid with what the cores have not yet published. -/
def State.stgRead (s : State) (pa n : Nat) : List Byte :=
  (pieces pa n).flatMap fun p =>
    let loc := locMem (p.1 / 32)
    let g := s.homeGran loc
    let g := match s.dirBuf.find? fun e => e.loc == loc with
      | some e => e.over g
      | none => g
    getBytes g.data (p.1 % 32) p.2
/-- Publish what the director cores hold of a granule. -/
def State.stgPublish (s : State) (loc scope : Nat) : State :=
  let own := s.dirBuf.filter fun e => e.loc == loc
  own.foldl (fun s e => s.publishEntry .dirs scope e) { s with dirBuf := s.dirBuf.filter fun e => e.loc != loc }
/-- Stagehouse writes memory and publishes it. -/
def State.stgWrite (s : State) (scope pa : Nat) (bytes : List Byte) : State :=
  let go (acc : State × List Byte) (p : Nat × Nat) : State × List Byte :=
    let loc := locMem (p.1 / 32)
    let c : Chunk := { loc := loc, off := p.1 % 32, bytes := acc.2.take p.2 }
    ((acc.1.dirStore 0 c).stgPublish loc scope, acc.2.drop p.2)
  ((pieces pa bytes.length).foldl go (s, bytes)).1

/-! ### Entries (R421) -/

def State.pentry (s : State) (e : Nat) : PEntry := KMap.get {} s.ptab e
def State.setPentry (s : State) (e : Nat) (x : PEntry) : State := { s with ptab := KMap.set {} s.ptab e x }

/-- A field of a word replaced. -/
def setWordField (w : Word) (lo n x : Nat) : Word :=
  BitVec.ofNat 64 (w.toNat % 2 ^ lo + x % 2 ^ n * 2 ^ lo + w.toNat / 2 ^ (lo + n) * 2 ^ (lo + n))

/-- The state field of a play-table entry (R421). -/
def PEntry.state (e : PEntry) : Nat := bits e.w0.toNat 0 3
/-- The queue set of an entry. -/
def PEntry.set (e : PEntry) : Nat := bits e.w0.toNat 19 2
def PEntry.pos (e : PEntry) : Nat := bits e.w0.toNat 32 32
def PEntry.queue (e : PEntry) : Nat := bits e.w0.toNat 24 8
def PEntry.rel (e : PEntry) : Nat := bits e.w0.toNat 21 3
def PEntry.play (e : PEntry) : Nat := bits e.w0.toNat 3 16
def PEntry.declared (e : PEntry) : Nat := bits e.w3.toNat 0 16
def PEntry.accepted (e : PEntry) : Nat := bits e.w3.toNat 16 16
def PEntry.live (e : PEntry) : Nat := bits e.w3.toNat 32 16
def PEntry.number (e : PEntry) : BitVec 32 := e.w4.extractLsb' 0 32
def PEntry.setState (e : PEntry) (st : Nat) : PEntry := { e with w0 := setWordField e.w0 0 3 st }
/-- Word 0 of an entry. -/
def entryKey (pos queue rel set play st : Nat) : Word :=
  BitVec.ofNat 64 (pos % 2 ^ 32 * 2 ^ 32 + queue * 2 ^ 24 + rel * 2 ^ 21 + set * 2 ^ 19 + play * 8 + st)

/-- Entries of the play table. -/
def ptabSize : Nat := 1024

/-! ### Seed ports (R422) -/

/-- The core owns the set. -/
def State.owns (s : State) (d set : Nat) : Bool := (s.qset set).owner.toNat == d

/-- The play-table unit acts on a store to a seed port. -/
def State.seedPort (s : State) (entry j hart : Nat) : State :=
  let e := s.pentry entry
  if e.state ≠ 1 ∨ j ≠ e.accepted ∨ hart ≥ Config.harts then s
  else
    let owner := (s.qset e.set).owner.toNat
    let (pa, s) := s.rootPlace (s.dir owner).root false .read (addrAdd e.w1.toNat (64 * j))
    match pa with
    | none => s
    | some pa =>
      let v := vecOf (s.stgRead pa 64)
      let w3 := setWordField (setWordField e.w3 16 16 (e.accepted + 1)) 32 16 (e.live + 1)
      let s := s.setPentry entry { e with w3 := w3 }
      s.post (dirId owner) hart { payload := v, side := sideWord 5 0 0 (dirId owner) }

/-! ### The table in Stagehouse's address space (R421, R428; log 82) -/

/-- Bytes of the table, and of the ports that lie behind it, entry by entry. -/
def ptabBytes : Nat := 64 * ptabSize
def portBytes : Nat := 8 * ptabSize

/-- The distance of an address of a core in S-mode from the table's start, where it lies in the table or its ports. -/
def State.ptabOff (s : State) (d a : Nat) : Option Nat :=
  match s.symbols with
  | some y =>
    if !(s.dir d).user && decide (y.ptab.toNat ≤ a ∧ a < y.ptab.toNat + ptabBytes + portBytes) then some (a - y.ptab.toNat) else none
  | none => none

/-- The 64 bytes of an entry. -/
def PEntry.bytes (e : PEntry) : List Byte :=
  wordBytes e.w0 ++ wordBytes e.w1 ++ wordBytes e.w2 ++ wordBytes e.w3 ++ wordBytes e.w4 ++ List.replicate 24 0

/-- A load of the table: the words of an entry; a port reads as zero. -/
def State.ptabLoad (s : State) (o len : Nat) : List Byte :=
  (List.range len).map fun i =>
    if o + i < ptabBytes then ((s.pentry ((o + i) / 64)).bytes).getD ((o + i) % 64) 0 else 0

/-- A store into an entry; the hardware's word 4 and the reserved words keep their contents. -/
def State.ptabStore (s : State) (o : Nat) (bytes : List Byte) : State :=
  let i := o / 64
  let old := (s.pentry i).bytes
  let b := old.take (o % 64) ++ bytes ++ old.drop (o % 64 + bytes.length)
  let w (k : Nat) : Word := wordOf ((b.drop (8 * k)).take 8)
  s.setPentry i { w0 := w 0, w1 := w 1, w2 := w 2, w3 := w 3, w4 := (s.pentry i).w4 }

/-- The word a store of eight bytes writes to a port, with the entry the port belongs to. -/
def portStore (o : Nat) (bytes : List Byte) : Option (Nat × Nat) :=
  if ptabBytes ≤ o ∧ (o - ptabBytes) % 8 = 0 ∧ bytes.length = 8 then some ((o - ptabBytes) / 8, leNat bytes) else none

/-- A store of a core in S-mode to the table or to a port: none where the port refuses it. -/
def State.tableStore (s : State) (d o : Nat) (bytes : List Byte) : Option State :=
  if o < ptabBytes then some (s.ptabStore o bytes)
  else
    match portStore o bytes with
    | none => some s
    | some (e, w) => if s.owns d (s.pentry e).set then some (s.seedPort e (bits w 0 16) (bits w 16 18)) else none

end Sys2Proof.Machine
end

