-- ==== Sys2Proof/Machine/DirOps.lean ====
section
/-!
DEFINITION. The named operations of a director core: registers, its own Sv57 accesses (R437, R375), taking an
exception into S-mode and returning from one (R376), the frame around an instruction, and the operations a hart and a
director core share.
-/

namespace Sys2Proof.Machine

def dirOf (d : Nat) : Ins Dir := Ins.get fun s => s.dir d
def setDirOf (d : Nat) (f : Dir → Dir) : Ins Unit := Ins.upd fun s => s.setDir d (f (s.dir d))

def Dir.getX (d : Dir) (r : Reg) : Word := if r = 0 then 0 else KMap.get 0 d.x r.toNat
def Dir.putX (d : Dir) (r : Reg) (v : Word) : Dir := if r = 0 then d else { d with x := KMap.set 0 d.x r.toNat v }
def Dir.getF (d : Dir) (r : Reg) : Word := KMap.get 0 d.f r.toNat

/-! ### sstatus (log 6: the RISC-V layout) -/

def Dir.sieBit (d : Dir) : Bool := d.sstatus.getLsbD 1
def Dir.sum (d : Dir) : Bool := d.sstatus.getLsbD 18
def Dir.mxr (d : Dir) : Bool := d.sstatus.getLsbD 19
/-- Write one bit of a word. -/
def setBit (w : Word) (i : Nat) (b : Bool) : Word :=
  let one : Word := 1#64 <<< i
  if b then w ||| one else w &&& ~~~one

/-! ### Exception codes (R376, and the RISC-V causes) -/

def eAccess : Acc → Nat
  | .fetch => 1
  | .read => 5
  | .write => 7
def eMisaligned : Acc → Nat
  | .fetch => 0
  | .read => 4
  | .write => 6
def ePage : Acc → Nat
  | .fetch => 12
  | .read => 13
  | .write => 15

def Ins.exc {α : Type} (code tval : Nat) : Ins α := throw (.exc code tval)

/-- The director exception that stands for a compute trap in an instruction both kinds of core have (R376). -/
def excOf (code : Nat) (k : Acc) : Nat :=
  if code = cRecord then 28
  else if code = cInbox then 29
  else if code = cAlign then eMisaligned k
  else if code = cPage then ePage k
  else if code = cPoison then 5
  else 2

/-- Trap or exception of the agent. -/
def Agent.fail {α : Type} (a : Agent) (code : Nat) (k : Acc) (v : Nat) : Ins α :=
  match a with
  | .hart _ => .trap code v
  | .dir _ => .exc (excOf code k) v

def Agent.deny (a : Agent) (b : Bool) (code : Nat) (k : Acc) (v : Nat) : Ins Unit := if b then a.fail code k v else pure ()

/-! ### Director accesses -/

/-- The permission of a leaf for a director core: R436's bits, and the U bit by privilege as RISC-V has it. -/
def Dir.allows (d : Dir) (e : TlbEntry) (k : Acc) : Bool :=
  let mode := if d.user then e.user else !e.user || (d.sum && k != .fetch)
  let bits :=
    match k with
    | .read => e.r || (d.mxr && e.x)
    | .write => e.w && e.dirty
    | .fetch => e.x
  mode && bits

/-- The place of an address in the queue table as Stagehouse has it mapped (R409, R428). -/
def State.qtabPlace (s : State) (d va : Nat) : Option Nat :=
  match s.symbols with
  | some y =>
    if !(s.dir d).user && decide (y.qtab.toNat ≤ va ∧ va < y.qtab.toNat + 32 * 256) then some (s.qtable.toNat + (va - y.qtab.toNat)) else none
  | none => none

/-- Translate for a director core (R437): its own entries, else a walk; the partition's ranges bind a thread (R436). -/
def State.dirTranslate (s : State) (d va : Nat) (k : Acc) : Option Nat × State :=
  let c := s.dir d
  match s.qtabPlace d va with
  | some pa => (some pa, s)
  | none =>
  match c.root with
  | none => (some va, s)
  | some root =>
    if rowOf va ≠ 3 then (none, s)
    else
      let v := va57 va
      let owns (pa : Nat) : Bool := !c.user || ((s.partOfDir d).map fun p => p.2.owns pa).getD true
      let fits (e : TlbEntry) : Bool := c.allows e k && owns (e.pa v)
      match c.tlb.find? fun e => e.hits root v with
      | some e => (if fits e then some (e.pa v) else none, s)
      | none =>
        let (l, s) := walk 4 s root.toNat v
        match l with
        | none => (none, s)
        | some l =>
          let e := l.toTlb root
          if l.a && fits e then
            let (t, s) := s.tlbPut c.tlb 64 e
            (some (e.pa v), s.setDir d { s.dir d with tlb := t })
          else (none, s)

def dirPlace (d : Nat) (k : Acc) (p : Nat × Nat) : Ins Place := do
  match ← Ins.act fun s => s.dirTranslate d p.1 k with
  | some pa =>
    let root ← Ins.get fun s => ((s.dir d).root).getD 0
    pure { loc := locMem (pa / 32), off := pa % 32, len := p.2, addr := p.1, page := (root, p.1 / 4096) }
  | none => .exc (ePage k) p.1

/-- The places of a director access; a store into a sealed region is an access fault (R199, R200). -/
def dirPlaces (d : Nat) (k : Acc) (a len : Nat) : Ins (List Place) := do
  let ps ← (pieces a len).mapM (dirPlace d k)
  if k = .write then
    let s ← Ins.get id
    if ps.any s.placeSealed then .exc 7 a
  pure ps

/-- A load of memory by a director core; a poisoned byte is a load access fault (R375). -/
def dirMemLoad (d a len : Nat) : Ins (List Byte) := do
  let ps ← dirPlaces d .read a len
  let bs ← ps.mapM fun p => do
    let g ← Ins.act fun s => s.loadGran (.dir d) p.loc
    if g.poison then .exc 5 a
    pure (getBytes g.data p.off p.len)
  pure bs.flatten

/-- A load by a director core; the play table is mapped for S-mode (R421). -/
def dirLoad (d a len : Nat) : Ins (List Byte) := do
  match ← Ins.get fun s => s.ptabOff d a with
  | some o => Ins.get fun s => s.ptabLoad o len
  | none => dirMemLoad d a len

/-- Stores of a director core; they end the reservations of the others. -/
def State.dirStores (s : State) (d : Nat) (cs : List Chunk) : State :=
  let s := cs.foldl (fun s c => s.dirStore d c) s
  { s with dirs := s.dirs.map fun p =>
      if p.1 ≠ d && (match p.2.resv with | some r => cs.any fun c => c.loc == locMem (r.1 / 32) | none => false)
      then (p.1, { p.2 with resv := none }) else p }

def dirMemWrite (d a : Nat) (bytes : List Byte) : Ins Unit := do
  let ps ← dirPlaces d .write a bytes.length
  Ins.upd fun s => s.dirStores d (markLines (chunksOf ps bytes))

/-- A store by a director core: to memory, or in S-mode to the play table; a port of a set it does not own is a store
access fault (R422). -/
def dirWrite (d a : Nat) (bytes : List Byte) : Ins Unit := do
  match ← Ins.get fun s => s.ptabOff d a with
  | some o =>
    match ← Ins.get fun s => s.tableStore d o bytes with
    | some s' => Ins.upd fun _ => s'
    | none => .exc 7 a
  | none => dirMemWrite d a bytes

/-! ### Exceptions of a director core -/

/-- Enter S-mode (the standard trap rules, R376): cause, pc and value saved; the old privilege and interrupt enable
stacked in sstatus; on to the handler. An interrupt in vectored mode goes to its own entry. -/
def State.enterS (s : State) (d : Nat) (interrupt : Bool) (code tval : Nat) (pc : Word) : State :=
  let c := s.dir d
  let st := setBit (setBit (setBit c.sstatus 8 (!c.user)) 5 c.sieBit) 1 false
  let base := c.stvec &&& ~~~3#64
  s.setDir d { c with
    sstatus := st
    sepc := pc
    scause := BitVec.ofNat 64 (code + if interrupt then 2 ^ 63 else 0)
    stval := BitVec.ofNat 64 tval
    user := false
    resv := none
    trapped := false
    pc := if interrupt && c.stvec.getLsbD 0 then base + BitVec.ofNat 64 (4 * code) else base }

/-- The core belongs to the partition the debugger is attached to (R39). -/
def State.dirInDebug (s : State) (d : Nat) : Bool := s.dbg.attached && (s.partOfDir d).map (·.1) == some s.dbg.part

/-- Stop a director core for the debugger. -/
def State.stopDir (s : State) (d : Nat) (pc : Word) (reason : Nat) : State :=
  let s := s.setDir d { s.dir d with run := .stopped, stopAfter := none }
  { s with dbg := s.dbg.stopped (49152 + d) pc reason }

/-- Take a synchronous exception; a thread on the core the debugger has selected stops first (R451). -/
def State.takeExc (s : State) (d code tval : Nat) (pc : Word) : State :=
  let user := (s.dir d).user
  let s := s.enterS d false code tval pc
  let s := if user then s.setDir d { s.dir d with trapped := true } else s
  if user && s.dirInDebug d && s.dbg.sel == some (49152 + d) then s.stopDir d pc (256 + code) else s

/-- Return from S-mode (sret). -/
def Dir.sret (c : Dir) : Dir :=
  let st := setBit (setBit (setBit c.sstatus 1 (c.sstatus.getLsbD 5)) 5 true) 8 false
  { c with sstatus := st, user := !c.sstatus.getLsbD 8, pc := c.sepc, resv := none }

/-- Local interrupt 16: entries wait in the held-release ring (R402). -/
def Dir.ringPending (c : Dir) : Bool := c.hrhead != c.hrtail

/-- Local interrupt 17: an entry of a set the core owns is delivered (R423). -/
def State.deliveryPending (s : State) (d : Nat) : Bool :=
  s.ptab.any fun e => e.2.state == 4 && (s.qset e.2.set).owner.toNat == d

/-- sip as software reads it. -/
def State.pendingIrq (s : State) (d : Nat) : Word :=
  setBit (setBit (s.dir d).sip 16 (s.dir d).ringPending) 17 (s.deliveryPending d)

/-- The interrupt a core takes before its next instruction. -/
def State.irq (s : State) (d : Nat) : Option Nat :=
  let c := s.dir d
  let w := s.pendingIrq d &&& c.sie
  if (c.user || c.sieBit) && w != 0 then (List.range 64).find? fun i => w.getLsbD i else none

/-- Move on after an instruction. -/
def Dir.retire (c : Dir) (i : Instr) (k : Ctl) : Dir :=
  let c := { c with instret := c.instret + 1, trapped := false }
  match k with
  | .seq _ => { c with pc := c.pc + BitVec.ofNat 64 i.len }
  | .jump t => { c with pc := t }
  | .gone => c

/-- Run an instruction on a director core. -/
def runDir (d : Nat) (i : Instr) (body : Nat → Ins Ctl) (s : State) : State :=
  let pc := (s.dir d).pc
  if !i.onDirector then s.takeExc d 2 i.bits pc
  else
    match (do let c ← body d; setDirOf d fun x => x.retire i c : Ins Unit) s with
    | (.ok _, t) => t
    | (.error (.exc c v), t) => t.takeExc d c v pc
    | (.error (.trap c v), t) | (.error (.undo c v), t) => t.takeExc d (excOf c .read) v pc
    | (.error .illegal, _) => s.takeExc d 2 i.bits pc
    | (.error .hold, t) => t.setDir d { t.dir d with x := (s.dir d).x, f := (s.dir d).f, pc := pc }
    | (.error .stall, _) => s

/-! ### What harts and director cores share -/

/-- Read an x register of the agent. -/
def Agent.readX (a : Agent) (r : Reg) : Ins XReg :=
  match a with
  | .hart n => Machine.readX n r
  | .dir d => do pure { val := (← dirOf d).getX r }
/-- Read an x register that must not be poisoned. -/
def Agent.useX (a : Agent) (r : Reg) : Ins Word :=
  match a with
  | .hart n => Machine.useX n r
  | .dir d => do pure ((← dirOf d).getX r)
/-- Read two x registers that must not be poisoned. -/
def Agent.useX2 (a : Agent) (r q : Reg) : Ins (Word × Word) :=
  match a with
  | .hart n => Machine.useX2 n r q
  | .dir d => do
    let c ← dirOf d
    pure (c.getX r, c.getX q)
/-- Write an x register of the agent. -/
def Agent.writeX (a : Agent) (r : Reg) (v : Word) (poison : Bool := false) : Ins Unit :=
  match a with
  | .hart n => writeXP n r v poison
  | .dir d => setDirOf d fun c => c.putX r v
/-- A load by the agent. -/
def Agent.load (a : Agent) (addr len : Nat) : Ins PBytes :=
  match a with
  | .hart n => hartLoad n addr len
  | .dir d => do pure ((← dirLoad d addr len).map fun b => (b, false))
/-- A store by the agent. -/
def Agent.store (a : Agent) (addr : Nat) (bytes : List Byte) : Ins Unit :=
  match a with
  | .hart n => hartWrite n addr bytes
  | .dir d => dirWrite d addr bytes
/-- The checks of a store, without it. -/
def Agent.checkStore (a : Agent) (addr len : Nat) : Ins Unit := do
  match a with
  | .hart n => let _ ← hartPlaces n .write addr len; pure ()
  | .dir d => let _ ← dirPlaces d .write addr len; pure ()
def Agent.pc (a : Agent) : Ins Word :=
  match a with
  | .hart n => do pure (← hartOf n).pc
  | .dir d => do pure (← dirOf d).pc
/-- The id of R226. -/
def Agent.id : Agent → Nat
  | .hart n => n
  | .dir d => dirId d

/-- The agent exists (R4). -/
def Agent.ok : Agent → Bool
  | .hart n => decide (n < Config.harts)
  | .dir d => decide (d < Config.directors)

/-- An instruction that both kinds of core have, run by the agent whose turn it is. -/
def runBoth (i : Instr) (body : Agent → Ins Ctl) (s : State) : Host.Outcome State Fault Refusal :=
  if s.cur.ok then
    .next (match s.cur with
      | .hart n => runHart n i (fun n => body (.hart n)) s
      | .dir d => runDir d i (fun d => body (.dir d)) s)
  else .fault .noSuchUnit

/-- An instruction only compute harts have; a director core finds it illegal (R14). -/
def runCompute (i : Instr) (body : Nat → Ins Ctl) (s : State) : Host.Outcome State Fault Refusal :=
  runBoth i (fun a => match a with | .hart n => body n | .dir _ => .stop .illegal) s

/-- An instruction only director cores have. -/
def runDirector (i : Instr) (body : Nat → Ins Ctl) (s : State) : Host.Outcome State Fault Refusal :=
  runBoth i (fun a => match a with | .dir d => body d | .hart _ => .stop .illegal) s

end Sys2Proof.Machine
end

