-- ==== Sys2Proof/Machine/Atomics.lean ====
section
/-!
DEFINITION. The atomics (R202-R204).
-/

namespace Sys2Proof.Machine

/-- The new value of an atomic from the old one, v and c (R202). -/
inductive AmoOp where
  | add | swap | cas | min | max | minu | maxu | and | or | xor | addb
deriving DecidableEq, Repr

def AmoOp.eval (o : AmoOp) (old v c : Word) : Word :=
  match o with
  | .add => old + v
  | .swap => v
  | .cas => if old = c then v else old
  | .min => if old.slt v then old else v
  | .max => if old.slt v then v else old
  | .minu => if old < v then old else v
  | .maxu => if old < v then v else old
  | .and => old &&& v
  | .or => old ||| v
  | .xor => old ^^^ v
  | .addb => if old.toNat + v.toNat ≤ c.toNat then old + v else old

/-- The operation reads its destination as c. -/
def AmoOp.readsC : AmoOp → Bool
  | .cas | .addb => true
  | _ => false

/-- The granule an atomic or barrier finds at a place of a hart's access, at its home (R203): a stale one reads as
zero, or traps. -/
def homeSeen (n : Nat) (p : Place) : Ins Gran := do
  let s ← Ins.get id
  let g := s.homeGran p.loc
  if locIsMem p.loc then pure g
  else
    if (s.hart n).staleTraps && !g.current (some p.gen) then .trap cStale p.addr
    pure (g.seen (some p.gen))

/-- A write of the hart made at the home, published at a scope. -/
def State.atomicWrite (s : State) (n scope : Nat) (p : Place) (bytes : List Byte) : State :=
  let w : Writer := .core (coreOf n)
  s.writeHome w (2 ^ (n % 4)) (some (w.widen scope)) false ⟨p.loc, p.off, bytes, p.gen, false, false, false, p.page⟩

/-- An atomic (R202). -/
def amoBody (o : AmoOp) (acq rel : Bool) (sc : BitVec 3) (rd rs1 rs2 : Reg) (n : Nat) : Ins Ctl := do
  let a ← readX n rs1
  let v ← readX n rs2
  let c ← if o.readsC then readX n rd else pure {}
  Ins.deny a.poison cPoison (RegId.x rs1).id
  Ins.deny v.poison cPoison (RegId.x rs2).id
  Ins.deny c.poison cPoison (RegId.x rd).id
  let addr := a.val.toNat
  Ins.deny (addr % 8 != 0) cAlign addr
  let p := (← hartPlaces n .write addr 8).headD { loc := 0, off := 0, len := 0, addr := 0 }
  let g ← homeSeen n p
  Ins.deny g.poison cPoison addr
  if rel then releaseAt (.hart n) sc.toNat
  let g ← homeSeen n p
  let old := wordOf (getBytes g.data p.off 8)
  Ins.upd fun s => s.atomicWrite n sc.toNat p (wordBytes (o.eval old v.val c.val))
  if rd ≠ 0 then writeX n rd old
  if acq then refreshAt (.hart n) sc.toNat
  pure (.seq)

def execAmoAdd (acq rel : Bool) (sc : BitVec 3) (rd rs1 rs2 : Reg) (s : State) : Host.Outcome State Fault Refusal :=
  runCompute (.amoAdd acq rel sc rd rs1 rs2) (amoBody .add acq rel sc rd rs1 rs2) s
def execAmoSwap (acq rel : Bool) (sc : BitVec 3) (rd rs1 rs2 : Reg) (s : State) : Host.Outcome State Fault Refusal :=
  runCompute (.amoSwap acq rel sc rd rs1 rs2) (amoBody .swap acq rel sc rd rs1 rs2) s
def execAmoCas (acq rel : Bool) (sc : BitVec 3) (rd rs1 rs2 : Reg) (s : State) : Host.Outcome State Fault Refusal :=
  runCompute (.amoCas acq rel sc rd rs1 rs2) (amoBody .cas acq rel sc rd rs1 rs2) s
def execAmoMin (acq rel : Bool) (sc : BitVec 3) (rd rs1 rs2 : Reg) (s : State) : Host.Outcome State Fault Refusal :=
  runCompute (.amoMin acq rel sc rd rs1 rs2) (amoBody .min acq rel sc rd rs1 rs2) s
def execAmoMax (acq rel : Bool) (sc : BitVec 3) (rd rs1 rs2 : Reg) (s : State) : Host.Outcome State Fault Refusal :=
  runCompute (.amoMax acq rel sc rd rs1 rs2) (amoBody .max acq rel sc rd rs1 rs2) s
def execAmoMinu (acq rel : Bool) (sc : BitVec 3) (rd rs1 rs2 : Reg) (s : State) : Host.Outcome State Fault Refusal :=
  runCompute (.amoMinu acq rel sc rd rs1 rs2) (amoBody .minu acq rel sc rd rs1 rs2) s
def execAmoMaxu (acq rel : Bool) (sc : BitVec 3) (rd rs1 rs2 : Reg) (s : State) : Host.Outcome State Fault Refusal :=
  runCompute (.amoMaxu acq rel sc rd rs1 rs2) (amoBody .maxu acq rel sc rd rs1 rs2) s
def execAmoAnd (acq rel : Bool) (sc : BitVec 3) (rd rs1 rs2 : Reg) (s : State) : Host.Outcome State Fault Refusal :=
  runCompute (.amoAnd acq rel sc rd rs1 rs2) (amoBody .and acq rel sc rd rs1 rs2) s
def execAmoOr (acq rel : Bool) (sc : BitVec 3) (rd rs1 rs2 : Reg) (s : State) : Host.Outcome State Fault Refusal :=
  runCompute (.amoOr acq rel sc rd rs1 rs2) (amoBody .or acq rel sc rd rs1 rs2) s
def execAmoXor (acq rel : Bool) (sc : BitVec 3) (rd rs1 rs2 : Reg) (s : State) : Host.Outcome State Fault Refusal :=
  runCompute (.amoXor acq rel sc rd rs1 rs2) (amoBody .xor acq rel sc rd rs1 rs2) s
def execAmoAddb (acq rel : Bool) (sc : BitVec 3) (rd rs1 rs2 : Reg) (s : State) : Host.Outcome State Fault Refusal :=
  runCompute (.amoAddb acq rel sc rd rs1 rs2) (amoBody .addb acq rel sc rd rs1 rs2) s

end Sys2Proof.Machine
end

