-- ==== Sys2Proof/Machine/Chorus.lean ====
section
/-!
DEFINITION. The chorus (R139-R143) and helpers (R144, R145, R254).
-/

namespace Sys2Proof.Machine

/-- Idle (R242): in house mode waiting in msg.recv, no kind-5 entry to take, neither parked nor a helper. -/
def State.idle (s : State) (n : Nat) : Bool :=
  let h := s.hart n
  h.house && h.waiting && h.run == .active && h.helper.isNone && !(s.holds n fun e => e.kind == 5) &&
    !(s.transit.any fun t => t.receiver == n && t.entry.kind == 5)

/-- A core's hart joins a chorus led by `n` (R139). -/
def State.joins (s : State) (n m : Nat) : Bool :=
  s.idle m && (s.hart m).pins.isEmpty &&
    ((s.partOfCluster (hartCluster m)).map (·.1) == (s.partOfCluster (hartCluster n)).map (·.1))

/-- A follower as it joins (R140): a new generation, the leader's live x registers with their poison, its loop
registers, vrm, gmode and dmask; no cue. It will return to where it waited. -/
def Hart.joined (m lead : Hart) (n base size : Nat) : Hart :=
  let h := m.advance
  let h := lead.x.foldl (fun h p => if p.2.gen = lead.rgen then h.putX (BitVec.ofNat 5 p.1) p.2.val p.2.poison else h) h
  { h with
    lp0 := lead.lp0, lp1 := lead.lp1, vrm := lead.vrm, gmode := lead.gmode, dmask := lead.dmask
    house := false, waiting := false, cueptr := 0, helper := some (n, lead.cueptr), resume := some (m.pc, 0)
    curPlay := lead.curPlay, curAct := lead.curAct, curLat := lead.curLat
    mxcfg := none, pc := lead.pc, role := .follower n base size, fqueue := [] }

/-- The mask of R139: bit i for core base + i. -/
def chorusMask (base : Nat) (ms : List Nat) : Word :=
  BitVec.ofNat 64 ((ms.map fun m => 2 ^ (coreOf m - base)).sum)

/-- The chorus a hart is in: leader, base core, size, members with the leader. -/
def State.chorus (s : State) (n : Nat) : Option (Nat × Nat × Nat × List Nat) :=
  let of (l : Nat) : Option (Nat × Nat × Nat × List Nat) :=
    match (s.hart l).role with
    | .leader b z ms => some (l, b, z, l :: ms)
    | _ => none
  match (s.hart n).role with
  | .leader .. => of n
  | .follower l _ _ => of l
  | .draining l b z ms => some (l, b, z, ms)
  | .solo => none

/-- chorus.form: the mask is in rd and the leader's loop ends are evaluated before the copies are taken, so the followers
have both (log 119). -/
def execChorusForm (rd : Reg) (size : BitVec 2) (s : State) : Host.Outcome State Fault Refusal :=
  runCompute (.chorusForm rd size) (fun n => do
    match ← Ins.get fun s => s.chorus n with
    | some (_, b, _, ms) => writeX n rd (chorusMask b ms)
    | none =>
      let z := 2 ^ size.toNat
      let b := coreOf n / z * z
      let ms ← Ins.get fun s =>
        (((List.range z).map fun i => (b + i) * 4 + n % 4).filter fun m => m != n && s.joins n m)
      writeX n rd (chorusMask b (n :: ms))
      if ms ≠ [] then
        Ins.upd fun s =>
          let lead := (s.hart n).evalLoops 4 none
          let s := ms.foldl (fun s m => s.setHart m ((s.hart m).joined lead n b z)) s
          s.setHart n { s.hart n with role := .leader b z ms }
    pure (.seq)) s

def execChorusLeave (s : State) : Host.Outcome State Fault Refusal :=
  runCompute .chorusLeave (fun n => do
    Ins.upd fun s => s.disband n
    pure (.seq)) s

/-- chorus.id (R143): index, size and leader's index; a solo hart is a chorus of one. -/
def execChorusId (rd : Reg) (s : State) : Host.Outcome State Fault Refusal :=
  runCompute (.chorusId rd) (fun n => do
    let w ← Ins.get fun s =>
      match s.chorus n with
      | some (l, b, z, _) => (coreOf n - b) + 2 ^ 8 * z + 2 ^ 16 * (coreOf l - b)
      | none => 2 ^ 8
    writeX n rd (BitVec.ofNat 64 w)
    pure (.seq)) s

/-! ### The end of a helper (R144, R145, R254) -/

/-- The hart has commands, tasks, sessions, contributions or landing streams outstanding. -/
def State.busy (s : State) (n : Nat) : Bool :=
  let k := s.cluster (hartCluster n)
  (k.copy.any fun c => c.hart == n && c.dir.isNone)
    || (k.jobs.any fun j => j.hart == n && !j.cfg)
    || ((k.sess.map fun x => x.hart == n).getD false)
    || ((s.slice (hartSlice n)).tasks.any fun t => t.hart == n && t.dir.isNone)
    || (s.hart n).net.isSome
    || ((s.hart n).pending.any fun p => p.net.isSome)
    || ((s.hart n).streams.any fun t => t.2.pin.isSome)

/-- A helper ends once nothing of its is in flight: the completions of its commands are discarded, those on their way
too, and it returns to the house loop. -/
def State.endHelper (s : State) (n : Nat) : State :=
  let b := s.box n
  let mine (e : Entry) : Bool := e.kind == 4 && e.helper
  let keep (l : List Entry) : List Entry := l.filter fun e => !mine e
  let s := { s with transit := s.transit.filter fun t => !(t.receiver == n && mine t.entry) }
  let s := s.setBox n (Box.refill { b with inbox := keep b.inbox, ring := keep b.ring })
  let s := s.disband n
  let h := s.hart n
  let ret := h.resume.getD (h.tvec, 0)
  s.setHart n { h with
    house := true, pc := ret.1, resume := none, helper := none, vacate := none, vacateDue := false, run := .active
    trapped := false
    streams := h.streams.map fun t => (t.1, { t.2.setAct false with ahead := [] }) }

/-- The helper-fault message of R145 to the leader's hart. -/
def State.helperFault (s : State) (n cause : Nat) (tepc tval : Word) : State :=
  match (s.hart n).helper with
  | none => s
  | some (l, _) =>
    let bytes := leBytes 4 (coreOf n) ++ leBytes 1 (n % 4) ++ leBytes 1 cause ++ leBytes 2 0 ++ wordBytes tepc ++
      wordBytes tval ++ wordBytes s.time
    s.post n l { payload := vecOf bytes, side := sideWord 6 0 0 n }

end Sys2Proof.Machine
end

