-- ==== Sys2Proof/Machine/Plays.lean ====
section
/-!
DEFINITION. Plays, act queues and save areas (R255, R256), the casting unit (R257-R260), vacate requests (R261), and a
play's end in error (R453).
-/

namespace Sys2Proof.Machine

/-! ### Plays -/

def State.play? (s : State) (p : Nat) : Option Play := (s.plays.find? fun q => q.1 == p).map (·.2)
def State.setPlay (s : State) (p : Nat) (x : Play) : State := { s with plays := KMap.insert s.plays p x }
/-- The play is live: launched, not ended, not in error (R244, R453). -/
def State.playLive (s : State) (p : Nat) : Bool :=
  match s.play? p with
  | some x => !x.ended && x.error.isNone
  | none => false

/-- The live map of a number in a play's table (R239). -/
def State.liveMap? (s : State) (p n : Nat) : Option (BitVec 128) := (s.play? p).bind fun x => KMap.get none x.lives n

/-- Add to the live count of a play's entry (R421, R422). -/
def State.addLive (s : State) (p : Nat) (d : Int) : State :=
  match s.play? p with
  | none => s
  | some x =>
    let e := s.pentry x.entry
    let live : Int := ((e.w3.extractLsb' 32 16).toNat : Int) + d
    s.setPentry x.entry { e with w3 := setWordField e.w3 32 16 live.toNat }

/-- A cue home lies in the play's pool of save areas. -/
def Play.home (x : Play) (cue : Word) : Bool := decide (x.pool.1 ≤ cue.toNat ∧ cue.toNat < x.pool.1 + x.pool.2)
/-- A pin holds a cue of the play. -/
def Play.pins (x : Play) (p : Option (Nat × Word)) : Bool :=
  match p with
  | some (n, cue) => x.clusters.contains (hartCluster n) && x.home cue
  | none => false

/-! ### Act queues (R255) -/

def actKey (play act : Nat) : Nat := play * 16 + act
def State.actq (s : State) (k key : Nat) : ActQ := KMap.get {} (s.slice k).acts key
def State.setActq (s : State) (k key : Nat) (q : ActQ) : State :=
  s.setSlice k { s.slice k with acts := KMap.set {} (s.slice k).acts key q }

/-- The clusters of a slice that are reserved (R259). -/
def Slice.reserved (x : Slice) (cluster : Nat) : Bool := decide (16 ≤ cluster % 16 + x.rsv.toNat)

/-- Harts that are idle in a slice. -/
def State.idleIn (s : State) (k : Nat) : List Nat :=
  (s.harts.map (·.1)).filter fun n => hartSlice n == k && s.idle n

/-- A vacate request (R261): to a hart that runs a bulk cue, or helps one; further requests merge. -/
def State.requestVacate (s : State) (n : Nat) : State :=
  let h := s.hart n
  if h.house || h.curLat || h.run == .halted || h.vacate.isSome then s
  else s.setHart n { h with vacate := some s.cycle.toNat }

/-- Latency work has come to the slice: with no idle hart in a reserved cluster, the bulk cues there are asked to
vacate (R261). -/
def State.latencyArrived (s : State) (k : Nat) : State :=
  let x := s.slice k
  if (s.idleIn k).any fun n => x.reserved (hartCluster n) then s
  else
    ((s.harts.map (·.1)).filter fun n => hartSlice n == k && x.reserved (hartCluster n)).foldl (fun s n => s.requestVacate n) s

/-- The record's act, play and class. -/
def recPlay (v : Vec) : Nat := (v.extractLsb' 128 16).toNat
def recAct (v : Vec) : Nat := (v.extractLsb' 144 16).toNat
def recLat (v : Vec) : Bool := v.extractLsb' 174 1 == 1

/-- A record at the tail of its act's queue or return list in a slice. -/
def State.enqueue (s : State) (k : Nat) (back : Bool) (v : Vec) : State :=
  let key := actKey (recPlay v) (recAct v)
  let q := s.actq k key
  let c : CueRec := ⟨v, s.cycle.toNat⟩
  let s := s.setActq k key (if back then { q with back := q.back ++ [c] } else { q with queue := q.queue ++ [c] })
  if recLat v then s.latencyArrived k else s

/-! ### Save areas (R256) -/

def State.takeArea (s : State) (k p : Nat) : Option (Word × State) :=
  match KMap.get [] (s.slice k).pools p with
  | [] => none
  | a :: t => some (a, s.setSlice k { s.slice k with pools := KMap.set [] (s.slice k).pools p t })
def State.giveArea (s : State) (k p : Nat) (a : Word) : State :=
  let l := KMap.get [] (s.slice k).pools p
  s.setSlice k { s.slice k with pools := KMap.set [] (s.slice k).pools p (l ++ [a]) }

/-- What a core still buffers of a save area is published before the area goes back to its pool (log 21). -/
def State.flushArea (s : State) (core : Nat) (area : Word) : State :=
  if (s.core core).psb.isEmpty then s
  else
    (pieces area.toNat 3072).foldl (fun s p =>
      let (pl, s) := s.homePlace core p.1 .write
      match pl with
      | none => s
      | some (loc, _) =>
        match (s.core core).psb.find? fun e => e.loc == loc with
        | none => s
        | some e =>
          (s.setCore core { s.core core with psb := (s.core core).psb.filter fun x => x.loc != loc }).publishEntry (.core core) 4 e) s

/-- What a cue that ends here had outstanding reaches nobody: the results it waited for, its landing streams and its
session pin it no longer. -/
def State.dropPins (s : State) (n : Nat) : State :=
  let h := s.hart n
  let nets := (h.pending.filter fun p => p.net.isSome).length + (if h.net.isSome then 1 else 0)
  let s := (List.range nets).foldl (fun s _ => s.unpin (h.pinOwner n)) s
  let s := h.streams.foldl (fun s t => s.unpin t.2.pin) s
  s.closeSession n

/-- A running cue ends (R250, R453): its home record becomes ended, its area returns to the pool, the live count drops,
and the hart leaves it. -/
def State.endCue (s : State) (n : Nat) : State :=
  let h := s.hart n
  let core := coreOf n
  let s := s.flushArea core h.cueptr
  let (r, s) := s.homeRecord core h.cueptr.toNat
  let s := match r with
    | some v => s.homeWrite core (addrAdd h.cueptr.toNat 20) [BitVec.ofNat 8 ((setField v 160 4 3).extractLsb' 160 8).toNat]
    | none => s
  let s := s.giveArea (hartSlice n) h.curPlay h.cueptr
  let s := s.addLive h.curPlay (-1)
  let s := s.dropPins n
  ((s.setHart n { s.hart n with pending := [], net := none, streams := [], run := .active }).disband n).leaveCue n

/-! ### The casting unit (R257-R259) -/

/-- The record an act dispatches next: the head of its return list, else of its queue. -/
def ActQ.next (q : ActQ) : Option CueRec :=
  match q.back with
  | c :: _ => some c
  | [] => q.queue.head?

/-- The pin hart a record names in its save area. -/
def State.pinHart (s : State) (core : Nat) (v : Vec) : Option Nat :=
  let a := (addrAdd (v.extractLsb' 64 64).toNat 2864)
  let (p, s) := s.homePlace core a .read
  p.map fun x => leNat (getBytes (s.homeGran x.1).data x.2 4)

/-- The hart a record would go to (R257, R259); the pin hart of a pinned one stands in its save area, read under the root
of its play's partition. -/
def State.castHart (s : State) (k : Nat) (p : Play) (c : CueRec) : Option Nat :=
  let x := s.slice k
  let harts := (s.idleIn k).filter fun n => p.clusters.contains (hartCluster n)
  if c.rcd.extractLsb' 175 1 == 1 then
    match s.pinHart (16 * (((p.clusters.find? fun c => sliceOf c == k)).getD 0)) c.rcd with
    | some n => if s.idle n then some n else none
    | none => none
  else
    let rsv := harts.find? fun n => x.reserved (hartCluster n)
    let free := harts.find? fun n => !x.reserved (hartCluster n)
    if recLat c.rcd then (match rsv with | some n => some n | none => harts.head?)
    else match free with
      | some n => some n
      | none => if x.borrow then rsv else none

/-- An act that can dispatch: its key, class, the record and the hart. -/
structure Cast where
  key : Nat
  latency : Bool
  rcd : CueRec
  hart : Nat
deriving DecidableEq, Repr

/-- The eligible acts of a slice, in ascending (play, act). -/
def State.eligible (s : State) (k : Nat) : List Cast :=
  (s.slice k).acts.filterMap fun a =>
    match s.play? (a.1 / 16), a.2.next with
    | some p, some c =>
      if s.playLive (a.1 / 16) then
        (s.castHart k p c).map fun n => ⟨a.1, ((p.acts[a.1 % 16]?).map (·.latency)).getD false, c, n⟩
      else none
    | _, _ => none

/-- A declared next act of the act has a full queue (R258). -/
def State.blocked (s : State) (k key : Nat) : Bool :=
  match s.play? (key / 16) with
  | none => false
  | some p =>
    (((p.acts[key % 16]?).map (·.down)).getD []).any fun d =>
      decide (((p.acts[d]?).map (·.depth)).getD 0 ≤ (s.actq k (key / 16 * 16 + d)).queue.length)

/-- Cycles after which a bulk act goes first (R258). -/
def castAge : Nat := 65536

/-- When the act last dispatched, or its oldest record came. -/
def ActQ.since (q : ActQ) : Option Nat :=
  match q.last with
  | some t => some t
  | none => (q.back ++ q.queue).foldl (fun m c => match m with | none => some c.at_ | some t => some (min t c.at_)) none

/-- The choice of R258; of several aged acts, the one that has waited longest (R263, log 35). -/
def State.castChoice (s : State) (k : Nat) : Option Cast :=
  let el := s.eligible k
  let since (c : Cast) : Nat := ((s.actq k c.key).since).getD s.cycle.toNat
  let aged := (el.filter fun c => !c.latency && decide (castAge ≤ s.cycle.toNat - since c)).foldl (fun m c =>
    match m with | none => some c | some b => if since c < since b then some c else some b) none
  let lat := el.filter fun c => c.latency
  let next := match (s.slice k).rr with
    | none => lat.head?
    | some r => (match lat.find? fun (c : Cast) => decide (r < c.key) with | some c => some c | none => lat.head?)
  let size (c : Cast) : Nat := let q := s.actq k c.key; q.queue.length + q.back.length
  let bulk := (el.filter fun c => !c.latency && !s.blocked k c.key).foldl (fun m c =>
    match m with | none => some c | some b => if size b < size c then some c else some b) none
  aged.orElse fun _ => next.orElse fun _ => bulk

/-- Before another play is cast on a core, its landing buffers are cleared (R308, log 113). -/
def State.castOn (s : State) (core play : Nat) : State :=
  let c := s.core core
  if c.castPlay = some play then s
  else s.setCore core { c with castPlay := some play, landing := if c.castPlay.isNone then c.landing else [] }

/-- Dispatch one cue. -/
def State.cast (s : State) (k : Nat) : State :=
  match s.castChoice k with
  | none => s
  | some c =>
    let q := s.actq k c.key
    let q := match q.back with
      | _ :: t => { q with back := t }
      | [] => { q with queue := q.queue.drop 1 }
    let s := s.setActq k c.key { q with last := some s.cycle.toNat }
    let s := if c.latency then s.setSlice k { s.slice k with rr := some c.key } else s
    let s := s.castOn (coreOf c.hart) (c.key / 16)
    s.post (castId k) c.hart { payload := c.rcd.rcd, side := sideWord 5 0 0 (castId k) }

/-- The casting unit of a slice dispatches; after a fatal error every play is halted (R449). -/
def execCastDispatch (slice : Nat) (s : State) : Host.Outcome State Fault Refusal :=
  happen (if slice < Config.slices ∧ s.host.fatal = false then s.cast slice else s)

/-- Stagehouse writes the casting control word (R260): raising rsv asks the bulk cues now in reserved clusters to
vacate. -/
def execCastingControlWrite (slice : Nat) (w : BitVec 64) (s : State) : Host.Outcome State Fault Refusal :=
  happen (
    if slice < Config.slices then
      let x := s.slice slice
      let r := (w.extractLsb' 0 5).toNat
      let rsv := if r ≤ 16 then w.extractLsb' 0 5 else x.rsv
      let s' := s.setSlice slice { x with borrow := w.getLsbD 5, rsv := rsv }
      if x.rsv.toNat < rsv.toNat then s'.latencyArrived slice else s'
    else s)

/-! ### The end of a play in error (R453) -/

/-- The task waits for a token (R338). -/
def Slice.waiting (x : Slice) (t : Task) : Bool := t.waits.any fun w => decide (KMap.get 0 x.tokens w.1 < w.2)

/-- The tasks of a play that still wait are discarded without a completion (R339, R342). -/
def State.dropTasks (s : State) (p k : Nat) : State :=
  let x := s.slice k
  let gone := x.tasks.filter fun t => t.play == some p && t.engine.isNone && x.waiting t
  gone.foldl (fun s t => s.unpin t.pin) (s.setSlice k { x with
    tasks := x.tasks.filter fun t => !(t.play == some p && t.engine.isNone && x.waiting t) })

/-- Drop the records of a play from a slice's queues and return lists; the answer counts them. -/
def State.dropQueues (s : State) (p k : Nat) : Nat × State :=
  let gone := (s.slice k).acts.filter fun a => a.1 / 16 == p
  let n := (gone.map fun a => a.2.queue.length + a.2.back.length).sum
  (n, (s.setSlice k { s.slice k with acts := (s.slice k).acts.filter fun a => a.1 / 16 != p }).dropTasks p k)

/-- Drop its watches and its cues in the fault buffer. -/
def State.dropWaits (s : State) (p : Nat) : Nat × State :=
  let watches := (s.cores.map fun c => (c.2.watch.filter fun w => w.play == p).length).sum
  let mine (e : FaultEnt) : Nat := (e.cues.filter fun c => c.2.1 == p).length
  let faults := (s.faults.map fun f => (f.2.map mine).getD 0).sum + (s.faultOver.map mine).sum
  let drop (e : FaultEnt) : FaultEnt := { e with cues := e.cues.filter fun c => c.2.1 != p }
  (watches + faults, { s with
    cores := s.cores.map fun c => (c.1, { c.2 with watch := c.2.watch.filter fun w => w.play != p })
    faults := s.faults.map fun f => (f.1, f.2.map drop)
    faultOver := s.faultOver.map drop })

/-- The hart runs the cue whose home this is. -/
def Hart.runs (h : Hart) (cue : Word) : Bool := h.cueptr == cue && (!h.house || h.trapped)
/-- The selection sessions of cues whose records are discarded are closed. -/
def State.dropSessions (s : State) (x : Play) : State :=
  x.clusters.foldl (fun s k =>
    match (s.cluster k).sess with
    | some w =>
      match w.pin with
      | some (n, cue) => if x.home cue && w.hart == n && !(s.hart n).runs cue then s.closeSession n else s
      | none => s
    | none => s) s

/-- The physical address of a queue's descriptor (R409). -/
def State.queueAddr (s : State) (q : Nat) : Nat := s.qtable.toNat + 32 * q

/-- The host and the host controller write memory as agents of system scope. -/
def State.sysWrite (s : State) (pa : Nat) (bytes : List Byte) : State :=
  let go (acc : State × List Byte) (p : Nat × Nat) : State × List Byte :=
    (acc.1.writeHome .host 0 (some 5) false ⟨locMem (p.1 / 32), p.1 % 32, acc.2.take p.2, 0, false, false, false, (0, 0)⟩, acc.2.drop p.2)
  ((pieces pa bytes.length).foldl go (s, bytes)).1
/-- Memory as it lies at its home. -/
def State.sysRead (s : State) (pa n : Nat) : List Byte := getBytes s.mem pa n

/-- Set a queue's status, the position it names and the cause (R409). -/
def State.queueStatus (s : State) (q status pos cause : Nat) : State :=
  s.stgWrite 5 (s.queueAddr q + 9) (leBytes 1 status ++ leBytes 2 cause ++ leBytes 4 pos)

/-- The packet is one that ixdb submitted with `run` (R371). -/
def Debugger.ran (d : Debugger) (q pos : Nat) : Bool := d.runs.any fun r => r.1 == q * 2 ^ 32 + pos
/-- A play that ixdb ran is over: it prints so, and forgets the run (R372). -/
def Debugger.ended (d : Debugger) (q pos play : Nat) (error : Option Nat) : Debugger :=
  if d.ran q pos then { d with out := .done play error :: d.out, runs := d.runs.filter fun r => r.1 != q * 2 ^ 32 + pos } else d

/-- A play ends in error with a cause: dispatch stops, its records and waits are dropped, its queue is stopped. Its
running cues end at their next boundary. -/
def State.playError (s : State) (p cause : Nat) : State :=
  match s.play? p with
  | none => s
  | some x =>
    if x.error.isSome || x.ended then s
    else
      let s := s.setPlay p { x with error := some cause }
      let (n, s) := (List.range Config.slices).foldl (fun acc k => let r := acc.2.dropQueues p k; (acc.1 + r.1, r.2)) (0, s)
      let (m, s) := s.dropWaits p
      let s := s.dropSessions x
      let s := s.addLive p (-((n + m : Nat) : Int))
      let e := s.pentry x.entry
      s.queueStatus ((e.w0.extractLsb' 24 8).toNat) 4 ((e.w0.extractLsb' 32 32).toNat) cause

/-- The hart runs a cue of a play in error and has no result pending: the cue must end here (R453). -/
def State.mustEnd (s : State) (n : Nat) : Bool :=
  let h := s.hart n
  !h.house && h.helper.isNone && h.cueptr != 0 && h.pending.isEmpty && h.run != .halted &&
    (match s.play? h.curPlay with | some p => p.error.isSome | none => false)

end Sys2Proof.Machine
end

