-- ==== Sys2Proof/Machine/Cues.lean ====
section
/-!
DEFINITION. Cues: starting one from its record (R244), suspending (R247), the six cue instructions (R243-R251), safept
(R146), tret (R290), and the watchdog of a vacate request (R261, R145).
-/

namespace Sys2Proof.Machine

/-! ### The record (R237) -/

def recSap (v : Vec) : Word := v.extractLsb' 64 64
def recPc (v : Vec) : Word := v.extractLsb' 0 64
def recPinned (v : Vec) : Bool := v.extractLsb' 175 1 == 1
def recLive (v : Vec) : Nat := (v.extractLsb' 176 16).toNat

/-- The record is faulty (R237). -/
def recFaulty (v : Vec) : Bool :=
  v.extractLsb' 224 32 != 0 || v.extractLsb' 164 8 != 0 || decide (3 < recState v) || recSave v == 3 ||
    decide (6 < (v.extractLsb' 220 4).toNat) || v.extractLsb' 0 1 == 1 || (recSap v).toNat % 64 != 0

/-- What cue.resume makes of a record: it starts, is refused, or is a record fault. -/
inductive Start where
  | ok
  | refused
  | fault
deriving DecidableEq, Repr

/-- The pin hart in a save area, as a hart reads it. -/
def pinOf (n : Nat) (sap : Word) (s : State) : Nat × State :=
  let (r, s) := hwRead n (addrAdd sap.toNat 2864) 4 s
  (match r with | .ok b => leNat (PBytes.bytes b) | .error _ => 0, s)

def State.startOf (s : State) (n : Nat) (c : Vec) : Start × State :=
  if recFaulty c || recState c != 0 then (.fault, s)
  else if !s.playLive (recPlay c) then (.refused, s)
  else if recPinned c then
    let (p, s) := pinOf n (recSap c) s
    (if p = n then .ok else .fault, s)
  else (.ok, s)

/-- The registers and CSRs of a record that starts, under a new generation. -/
def State.loadCue (s : State) (n : Nat) (c : Vec) : State :=
  let sap := (recSap c).toNat
  match recSave c with
  | 0 =>
    let h := (s.hart n).freshCsrs
    let a (i : Nat) : Word := c.extractLsb' (256 + 64 * i) 64
    s.setHart n ((((h.putX 10 (a 0) false).putX 11 (a 1) false).putX 12 (a 2) false).putX 13 (a 3) false)
  | 1 =>
    let m := (s.liveMap? (recPlay c) (recLive c)).getD 0
    (s.restoreRegs n sap (m.extractLsb' 0 72) c).restoreCsrs n sap (m.getLsbD 72) (m.getLsbD 73)
  | _ => (s.restoreRegs n sap fullMap c).restoreCsrs n sap true true

/-- Start the cue of a record (R244); it will leave to `ret`. -/
def State.resumeCue (s : State) (n : Nat) (c : Vec) (ret : Word × Reg) : State :=
  let s := s.refresh (.hart n) 4
  let h := (s.hart n).advance
  let s := s.setHart n { h with
    house := false, waiting := false, trapped := false, cueptr := recSap c, resume := some ret, mxcfg := none
    curPlay := recPlay c, curAct := recAct c, curLat := recLat c, vacate := none, vacateDue := false }
  let s := s.loadCue n c
  let s := hwWrite n (recSap c).toNat (vecBytes (setField c 160 4 1)) s
  s.setHart n { s.hart n with pc := recPc c, rewait := if recSave c = 2 then recWait c else none }

/-- A record in memory, as an instruction reads it. -/
def readRecord (n a len : Nat) : Ins (List Byte) := do
  let b ← hartLoad n a len
  match PBytes.firstPoison b with
  | some k => .trap cPoison (addrAdd a k)
  | none => pure (PBytes.bytes b)

/-- cue.resume (R244). -/
def execCueResume (rd rs1 : Reg) (s : State) : Host.Outcome State Fault Refusal :=
  runCompute (.cueResume rd rs1) (fun n => do
    let h ← hartOf n
    if !h.house then .stop .illegal
    let a ← useX n rs1
    let c := vecOf (← readRecord n a.toNat 64)
    match ← Ins.act fun s => s.startOf n c with
    | .fault => .trap cRecord a.toNat
    | .refused => do writeX n rd 1; pure (.seq)
    | .ok => do
      Ins.upd fun s => s.resumeCue n c (h.pc + 4, rd)
      pure .gone) s

/-! ### Leaving a cue -/

/-- The record of a saved cue goes to the tail of its act's return list (R246, R261). -/
def State.toReturnList (s : State) (n : Nat) : State :=
  let h := s.hart n
  let (r, s) := hwRead n h.cueptr.toNat 64 s
  match r with
  | .ok b =>
    let v := vecOf (PBytes.bytes b)
    if s.playLive (recPlay v) then s.enqueue (hartSlice n) true v else s.addLive (recPlay v) (-1)
  | .error _ => s

/-- Save and yield: live under a map, or full; the loop sets are evaluated first (R294). -/
def yieldCue (n : Nat) (map : Option (Nat × BitVec 128)) : Ins Ctl := do
  releaseAt (.hart n) 4
  Ins.upd fun s =>
    let s := s.disband n
    let s := s.setHart n ((s.hart n).evalLoops 4 none)
    let a : SaveAs := { full := map.isNone, state := 0, live := (map.map (·.1)).getD 0, pc := (s.hart n).pc, reason := 6 }
    let s := match map with
      | some (_, m) => s.saveLive n m a
      | none => s.saveFull n a
    (s.toReturnList n).leaveCue n
  pure .gone

/-- safept (R146): it acts on a vacate request that reached the hart in an earlier cycle (R295). -/
def execSafept (k : BitVec 16) (s : State) : Host.Outcome State Fault Refusal :=
  runCompute (.safept k) (fun n => do
    let h ← hartOf n
    let due ← Ins.get fun s => match h.vacate with | some t => decide (t < s.cycle.toNat) | none => false
    if h.house || h.helper.isSome || !due || h.pinned h.cueptr || h.depmask != 0 then pure (.seq)
    else do
      let m ← Ins.get fun s => (s.liveMap? h.curPlay k.toNat).getD 0
      yieldCue n (some (k.toNat, m))) s

/-- cue.yield (R246). -/
def execCueYield (rs1 : Reg) (s : State) : Host.Outcome State Fault Refusal :=
  runCompute (.cueYield rs1) (fun n => do
    let h ← hartOf n
    if h.house || h.helper.isSome then .stop .illegal
    if h.pinned h.cueptr then .stop .stall
    if rs1 = 0 then yieldCue n none
    else do
      let k := ((← readX n rs1).val.extractLsb' 0 16).toNat
      match ← Ins.get fun s => s.liveMap? h.curPlay k with
      | some m => yieldCue n (some (k, m))
      | none => .trap cRecord h.cueptr.toNat) s

/-- The cue can suspend on an event; a helper, the house code, and a cue without room for its watch stall instead
(R144, R247, R229). -/
def State.canSuspend (s : State) (n : Nat) (on : WatchFor) : Bool :=
  let h := s.hart n
  let w := (s.core (coreOf n)).watch
  !h.house && h.helper.isNone && decide (w.length < 64) && !(on == .inbox && w.any fun x => x.hart == n && x.on == .inbox)

/-- Wait for an event (R247): suspend, or stall with the wait kept for the instruction that issues again. -/
def suspend (n reason object : Nat) (on : WatchFor) (block : List Byte) : Ins Ctl := do
  let h ← hartOf n
  if !(← Ins.get fun s => s.canSuspend n on) then
    setHartOf n fun h => { h with rewait := some (reason, object) }
    .stop .hold
  releaseAt (.hart n) 4
  Ins.upd fun s =>
    let s := s.disband n
    let s := if block.isEmpty then s else hwWrite n (addrAdd h.cueptr.toNat 2848) block s
    let s := s.saveFull n { full := true, state := 2, pc := h.pc, reason := reason, object := object }
    let c := s.core (coreOf n)
    let s := s.setCore (coreOf n) { c with watch := c.watch ++ [⟨n, h.cueptr, h.curPlay, on⟩] }
    s.leaveCue n
  pure .gone

/-- cue.wait (R248). -/
def execCueWait (rd rs1 rs2 : Reg) (s : State) : Host.Outcome State Fault Refusal :=
  runCompute (.cueWait rd rs1 rs2) (fun n => do
    let h ← hartOf n
    if h.house || h.helper.isSome then .stop .illegal
    let (x, v) ← useX2 n rs1 rs2
    let a := x.toNat
    Ins.deny (a % 8 != 0) cAlign a
    let ps ← hartPlaces n .read a 8
    let s0 ← Ins.get id
    if ps.any fun p => s0.hostLoc p.loc then .trap cPage a
    let gs ← ps.mapM fun p => do
      if locIsMem p.loc then Ins.get fun s => (s.homeGran p.loc, p)
      else do
        let s ← Ins.get id
        let c := s.coverGen p.loc
        let g := s.homeGran p.loc
        if h.staleTraps && !g.current c then .trap cStale p.addr
        pure (g.seen c, p)
    let w := wordOf (gs.flatMap fun g => getBytes g.1.data g.2.off g.2.len)
    let poison := gs.any fun g => g.1.poison
    if w ≠ v then do
      writeXP n rd w poison
      pure (.seq)
    else suspend n 4 0 (.word ((ps.map (·.loc)).headD 0)) (wordBytes (BitVec.ofNat 64 a) ++ wordBytes v)) s

/-- The fields of a template that must be zero: all but pc and a0 to a3 (R249). -/
def templateBad (v : Vec) : Bool := v.extractLsb' 64 192 != 0 || v.extractLsb' 0 1 == 1

/-- The fresh record of cue.spawn, in its save area. -/
def freshRecord (v : Vec) (sap : Word) (play act : Nat) (latency : Bool) : Vec :=
  setField (setField (setField (setField v 64 64 sap.toNat) 128 16 play) 144 16 act) 174 1 (if latency then 1 else 0)

/-- cue.spawn (R249). -/
def execCueSpawn (rd rs1 rs2 : Reg) (s : State) : Host.Outcome State Fault Refusal :=
  runCompute (.cueSpawn rd rs1 rs2) (fun n => do
    let h ← hartOf n
    if h.house then .stop .illegal
    let (xa, xq) ← useX2 n rs1 rs2
    let (a, q) := (xa.toNat, xq.toNat)
    let p ← Ins.get fun s => (s.play? h.curPlay).getD { part := 0, acts := [], clusters := [] }
    match (if q < 16 then p.acts[q]? else none) with
    | none =>
      -- of the template's load, all but a page fault comes before the record fault (R288)
      tryCatch (do let _ ← readRecord n a 64; pure ()) fun e =>
        match e with
        | .trap c _ => if c = cPage then pure () else throw e
        | e => throw e
      .trap cRecord q
    | some act =>
      let v := vecOf (← readRecord n a 64)
      Ins.deny (templateBad v) cRecord a
      let k := hartSlice n
      let full ← Ins.get fun s => decide (act.depth ≤ (s.actq k (actKey h.curPlay q)).queue.length)
      if full then writeX n rd 1
      else
        match ← Ins.get fun s => s.takeArea k h.curPlay with
        | none => writeX n rd 2
        | some (area, s') => do
          writeX n rd 0
          let live ← Ins.get fun s => s.playLive h.curPlay
          if live then
            Ins.upd fun s =>
              let s := s.setSlice k (s'.slice k)
              (s.addLive h.curPlay 1).enqueue k false (freshRecord v area h.curPlay q act.latency)
      pure (.seq)) s

/-- cue.exit (R250); on a helper, its end (R144, R254). It closes the hart's selection session first (R346). -/
def execCueExit (s : State) : Host.Outcome State Fault Refusal :=
  runCompute .cueExit (fun n => do
    if (← hartOf n).house then .stop .illegal
    Ins.upd fun s => s.closeSession n
    let h ← hartOf n
    if h.helper.isSome then
      if ← Ins.get fun s => s.busy n then .stop .hold
      Ins.upd fun s => s.endHelper n
    else
      if h.pinned h.cueptr then .stop .hold
      Ins.upd fun s => s.endCue n
    pure .gone) s

/-- cue.self (R251). -/
def execCueSelf (rd : Reg) (s : State) : Host.Outcome State Fault Refusal :=
  runCompute (.cueSelf rd) (fun n => do
    writeX n rd (← hartOf n).cueptr
    pure (.seq)) s

/-- tret, in house mode only (R290). -/
def execTret (s : State) : Host.Outcome State Fault Refusal :=
  runCompute .tret (fun n => do
    if !(← hartOf n).house then .stop .illegal
    Ins.upd fun s => s.tret n
    pure .gone) s

/-! ### The watchdog of a vacate request (R261) -/

/-- Cycles from a vacate request to the trap. -/
def vacateLimit : Nat := 65536

/-- The hart may take the vacate trap now. -/
def Hart.vacates (h : Hart) : Bool := h.run == .active && !h.house && h.helper.isNone && !h.pinned h.cueptr && h.depmask == 0

/-- The request of a hart has gone unanswered for the limit. -/
def State.overdue (s : State) (n : Nat) : Bool :=
  match (s.hart n).vacate with
  | some t => decide (vacateLimit ≤ s.cycle.toNat - t)
  | none => false

/-- The trap, now or once the cue is no longer pinned. -/
def execVacateWatchdogExpiry (hart : Nat) (s : State) : Host.Outcome State Fault Refusal :=
  happen (
    if hart < Config.harts ∧ s.overdue hart = true then
      let h := s.hart hart
      if h.house || h.helper.isSome then s
      else
        let s := s.setHart hart { h with vacateDue := true }
        if h.vacates then s.takeTrap hart cVacate 0 h.pc else s
    else s)

/-- A helper that has not ended in time is ended by the house code (R145); one that is parked, halted or stopped is
not, until it runs again (R291, R292). -/
def execHelperVacateTimeout (hart : Nat) (s : State) : Host.Outcome State Fault Refusal :=
  happen (
    if hart < Config.harts ∧ s.overdue hart = true ∧ (s.hart hart).helper.isSome = true ∧ (s.hart hart).run = .active then
      match (s.closeSession hart).completeAll hart with
      | some t => if t.busy hart then s else if (t.hart hart).run ≠ .active then t else (t.helperFault hart cVacate 0 0).endHelper hart
      | none => s
    else s)

end Sys2Proof.Machine
end

