-- ==== Sys2Proof/Machine/Sync.lean ====
section
/-!
DEFINITION. publish and refresh (R216), barriers (R218-R223), phase (R225), die queues (R231-R233) and the combine
network (R234-R236).
-/

namespace Sys2Proof.Machine

def execPublish (sc : BitVec 3) (s : State) : Host.Outcome State Fault Refusal :=
  runBoth (.publish sc) (fun a => do
    releaseAt a sc.toNat
    pure (.seq)) s
def execRefresh (sc : BitVec 3) (s : State) : Host.Outcome State Fault Refusal :=
  runBoth (.refresh sc) (fun a => do
    refreshAt a sc.toNat
    pure (.seq)) s

/-! ### Barrier slots (R218) -/

/-- A barrier slot's fields. -/
structure Slot where
  result : Word
  cfg : Word
  vote : Word
  gen : Nat
  pending : Nat
  inbound : Nat
  outbound : Nat
  init : Bool
  pflow : Bool
  /-- bits [5:0], kept as an ordinary store left them -/
  rest : Nat
deriving DecidableEq, Repr

def Slot.ofNat (w : Nat) : Slot :=
  { result := BitVec.ofNat 64 (bits w 192 64), cfg := BitVec.ofNat 64 (bits w 128 64), vote := BitVec.ofNat 64 (bits w 64 64)
    gen := bits w 60 4, pending := bits w 40 20, inbound := bits w 24 16, outbound := bits w 8 16
    init := bits w 7 1 == 1, pflow := bits w 6 1 == 1, rest := bits w 0 6 }

def Slot.toNat (b : Slot) : Nat :=
  b.result.toNat * 2 ^ 192 + b.cfg.toNat * 2 ^ 128 + b.vote.toNat * 2 ^ 64 + b.gen % 16 * 2 ^ 60 +
    b.pending % 2 ^ 20 * 2 ^ 40 + b.inbound % 2 ^ 16 * 2 ^ 24 + b.outbound % 2 ^ 16 * 2 ^ 8 +
    (if b.init then 128 else 0) + (if b.pflow then 64 else 0) + b.rest % 64

def Slot.bytes (b : Slot) : List Byte := leBytes 32 b.toNat

def cfgOp (c : Word) : Nat := bits c.toNat 24 2
def cfgScope (c : Word) : Nat := bits c.toNat 20 3
def cfgCount (c : Word) : Nat := bits c.toNat 0 20

/-- The reset value of a vote: all ones for AND, else zero. -/
def voteReset (op : Nat) : Word := if op = 0 then BitVec.allOnes 64 else 0

/-- The vote operations. -/
def voteOp (op : Nat) (a b : Word) : Word :=
  match op with
  | 0 => a &&& b
  | 1 => a ||| b
  | 2 => a + b
  | _ => if a < b then b else a

/-- The home completes a generation once nothing is missing (R223). -/
def Slot.complete (b : Slot) : Slot :=
  if b.pending = 0 ∧ b.inbound = 0 ∧ b.outbound = 0 then
    { b with
      result := b.vote
      cfg := setBit b.cfg 63 b.pflow
      pflow := false
      vote := voteReset (cfgOp b.cfg)
      pending := cfgCount b.cfg
      gen := (b.gen + 1) % 16 }
  else b

/-- The slot at a granule, as its home holds it; a stale granule reads as zero. -/
def State.slotAt (s : State) (loc : Nat) : Slot :=
  let g := s.homeGran loc
  let g := if locIsMem loc then g else g.seen (s.coverGen loc)
  .ofNat (leNat (getBytes g.data 0 32))

/-- Write a slot at its home by an agent, at a scope. -/
def State.putSlot (s : State) (w : Writer) (makers : Nat) (pub : Option Nat) (loc : Nat) (gen : BitVec 16) (b : Slot) : State :=
  s.writeHome w makers pub false ⟨loc, 0, b.bytes, gen, false, false, false, (0, 0)⟩

def State.hartSlot (s : State) (n : Nat) (pub : Option Nat) (p : Place) (b : Slot) : State :=
  let w : Writer := .core (coreOf n)
  s.putSlot w (2 ^ (n % 4)) (pub.map w.widen) p.loc p.gen b

/-- The place of a slot in an access of a hart; host memory is a record fault (R218). -/
def slotPlace (n a : Nat) (k : Acc) : Ins Place := do
  let p := (← hartPlaces n k a 32).headD { loc := 0, off := 0, len := 0, addr := 0 }
  if ← Ins.get fun s => s.hostLoc p.loc then .trap cRecord a
  pure p

/-- The slot bound to a named barrier of the hart's core: its address and place (R220). -/
def boundSlot (n : Nat) (b : BitVec 6) (k : Acc) : Ins (Nat × Place) := do
  match ← Ins.get fun s => KMap.get none (s.core (coreOf n)).bars b.toNat with
  | none => .trap cRecord b.toNat
  | some a => do pure (a.toNat, ← slotPlace n a.toNat k)

/-- Bits of a configuration word that may be set (R218). -/
def cfgMask : Word := 0x37FFFFF

/-- bar.init (R219): one write of the slot at its home, not published by itself; an address that is no multiple of 32 is
misaligned (log 54). -/
def execBarInit (rs1 rs2 : Reg) (s : State) : Host.Outcome State Fault Refusal :=
  runCompute (.barInit rs1 rs2) (fun n => do
    let (a, c) ← useX2 n rs1 rs2
    let a := a.toNat
    Ins.deny (a % 32 != 0) cAlign a
    let p ← slotPlace n a .write
    Ins.deny ((c &&& ~~~cfgMask) != 0 || cfgCount c == 0 || decide (6 ≤ cfgScope c)) cRecord a
    Ins.upd fun s => s.hartSlot n none p
      { result := 0, cfg := c, vote := voteReset (cfgOp c), gen := 0, pending := cfgCount c, inbound := 0, outbound := 0
        init := true, pflow := false, rest := 0 }
    pure (.seq)) s

def execBarBind (b : BitVec 6) (rs1 : Reg) (s : State) : Host.Outcome State Fault Refusal :=
  runCompute (.barBind b rs1) (fun n => do
    let a ← useX n rs1
    Ins.deny (a.toNat % 32 != 0) cAlign a.toNat
    Ins.upd fun s =>
      let c := s.core (coreOf n)
      s.setCore (coreOf n) { c with bars := KMap.set none c.bars b.toNat (some a) }
    pure (.seq)) s

/-- One arrival with a vote (R221), refused on a slot that takes none, or whose operation is not the one asked for
(R225): the generation joined, and whether it was the last. -/
def arriveAt (n a : Nat) (p : Place) (vote : Word) (op : Option Nat) (scope : Option Nat) : Ins (Nat × Bool) := do
  let b ← Ins.get fun s => s.slotAt p.loc
  Ins.deny (!b.init || b.pending == 0 || (op.isSome && op != some (cfgOp b.cfg))) cRecord a
  let h ← hartOf n
  let b' := { b with vote := voteOp (cfgOp b.cfg) b.vote vote, pending := b.pending - 1, pflow := b.pflow || h.pflow }
  Ins.upd fun s => s.hartSlot n (some (scope.getD (cfgScope b.cfg))) p b'.complete
  setHartOf n fun h => { h with pflow := false }
  pure (b.gen, b.pending == 1)

def execBarArrive (rd rs1 : Reg) (b : BitVec 6) (s : State) : Host.Outcome State Fault Refusal :=
  runCompute (.barArrive rd rs1 b) (fun n => do
    let v ← useX n rs1
    let (a, p) ← boundSlot n b .write
    let c ← Ins.get fun s => (s.slotAt p.loc).cfg
    releaseAt (.hart n) (cfgScope c)
    let (g, last) ← arriveAt n a p v none none
    writeX n rd (BitVec.ofNat 64 (g + if last then 16 else 0))
    pure (.seq)) s

/-- Wait until the generation of the slot at `a` differs from `g`, then refresh and give the result; a slot that is not
initialised when the wait uses it is a record fault (R218). -/
def awaitSlot (n : Nat) (rd : Reg) (b : BitVec 6) (a : Nat) (p : Place) (g reason : Nat) (scope : Option Nat) : Ins Ctl := do
  let sl ← Ins.get fun s => s.slotAt p.loc
  Ins.deny (!sl.init) cRecord a
  if sl.gen = g then suspend n reason (16 * b.toNat + g) (.barrier p.loc (BitVec.ofNat 4 g)) []
  else do
    refreshAt (.hart n) (scope.getD (cfgScope sl.cfg))
    writeX n rd sl.result
    pure (.seq)

/-- The generation a wait that issues again still waits on (R247). -/
def Hart.stillWaits (h : Hart) (reason : Nat) (b : BitVec 6) : Option Nat :=
  match h.rewait with
  | some (r, o) => if r = reason ∧ o / 16 % 64 = b.toNat then some (o % 16) else none
  | none => none

def execBarWait (rd rs1 : Reg) (b : BitVec 6) (s : State) : Host.Outcome State Fault Refusal :=
  runCompute (.barWait rd rs1 b) (fun n => do
    let g ← readX n rs1
    let (a, p) ← boundSlot n b .read
    let g := ((← hartOf n).stillWaits 2 b).getD (g.val.toNat % 16)
    awaitSlot n rd b a p g 2 none) s

/-- phase (R225): a wait that issues again does not arrive again. -/
def execPhase (o : LOpts) (op : BitVec 2) (sc : BitVec 3) (b : BitVec 6) (xd xv : Reg) (s : State) : Host.Outcome State Fault Refusal :=
  runCompute (.phase o op sc b xd xv) (fun n => do
    let v ← useX n xv
    let (a, p) ← boundSlot n b .write
    let g ← match (← hartOf n).stillWaits 3 b with
      | some g => pure g
      | none => do
        releaseAt (.hart n) sc.toNat
        let (g, _) ← arriveAt n a p v (some op.toNat) (some sc.toNat)
        pure g
    awaitSlot n xd b a p g 3 (some sc.toNat)) s

/-! ### Die queues (R231-R233) -/

/-- The queue between two dies for a partition. -/
def dieKey (fro til part : Nat) : Nat := (4 * fro + til) * 16 + part

/-- The other die a queue instruction names, and the hart's partition; the record fault of a bad die number, or of a hart in
no partition, has the operand as its tval (log 114). -/
def dieOperand (n : Nat) (x : Word) : Ins Nat := do
  Ins.deny (decide (4 ≤ x.toNat) || x.toNat == hartDie n) cRecord x.toNat
  match ← Ins.get fun s => (s.partOfCluster (hartCluster n)).map (·.1) with
  | some p => pure p
  | none => .trap cRecord x.toNat

def State.dieq (s : State) (k : Nat) : DieQ := KMap.get {} s.dieqs k
def State.setDieq (s : State) (k : Nat) (q : DieQ) : State := { s with dieqs := KMap.set {} s.dieqs k q }

def execDqPush (rd vs rs2 : Reg) (s : State) : Host.Outcome State Fault Refusal :=
  runCompute (.dqPush rd vs rs2) (fun n => do
    let v ← readV n vs
    let t ← readX n rs2
    Ins.deny v.poison cPoison (RegId.v vs).id
    Ins.deny t.poison cPoison (RegId.x rs2).id
    let t := t.val
    let k := dieKey (hartDie n) t.toNat (← dieOperand n t)
    let q ← Ins.get fun s => s.dieq k
    if 256 ≤ q.ents.length then .stop .stall
    Ins.upd fun s => s.setDieq k { q with ents := q.ents ++ [(v.val, q.tail)], tail := q.tail + 1 }
    writeX n rd (q.tail.zeroExtend 64)
    pure (.seq)) s

def execDqPop (vd rs1 : Reg) (s : State) : Host.Outcome State Fault Refusal :=
  runCompute (.dqPop vd rs1) (fun n => do
    let t ← useX n rs1
    let k := dieKey t.toNat (hartDie n) (← dieOperand n t)
    let q ← Ins.get fun s => s.dieq k
    match q.ents with
    | [] => .stop .stall
    | (v, num) :: rest =>
      Ins.deny (num != q.want) cRecord (q.want.toNat * 2 ^ 32 + num.toNat)
      Ins.upd fun s => s.setDieq k { q with ents := rest, want := q.want + 1 }
      writeV n vd { val := v }
      pure (.seq)) s

/-! ### The combine network (R234-R236) -/

/-- The greater of two index pairs (R101). -/
def pairMax (a b : Nat) : Nat :=
  let k (p : Nat) : Nat := bits p 0 64
  let i (p : Nat) : Nat := bits p 64 64
  if k a < k b ∨ (k a = k b ∧ i b < i a) then b else a

/-- Sixteen sums modulo 2^64. -/
def lanesAdd (a b : Nat) : Nat :=
  ((List.range 16).map fun i => (bits a (64 * i) 64 + bits b (64 * i) 64) % 2 ^ 64 * 2 ^ (64 * i)).sum

/-- Combine two contributions. -/
def combineOp (op a b : Nat) : Nat :=
  match op with
  | 0 => pairMax a b
  | 1 => (a + b) % 2 ^ 64
  | 2 => lanesAdd a b
  | 3 => a &&& b
  | _ => a ||| b

/-- A contribution; with the last one the round ends and every contributor has its result (R234). -/
def Combine.contribute (c : Combine) (n : Nat) (v : BitVec 1024) : Combine :=
  let got := c.got ++ [(n, v)]
  if got.length < c.n then { c with got := got }
  else
    let r := match got with
      | [] => v
      | x :: t => BitVec.ofNat 1024 (t.foldl (fun a y => combineOp c.op a y.2.toNat) x.2.toNat)
    { c with got := [], round := c.round + 1, results := c.results ++ got.map fun y => (y.1, c.round, r) }

/-- The context takes a contribution of the hart for an operation and scope (R235). -/
def Combine.takes (c : Combine) (s : State) (n op scope : Nat) : Bool :=
  c.op == op && c.scope == scope && (Writer.core (coreOf n)).group scope == some c.group &&
    (s.partOfCluster (hartCluster n)).map (·.1) == some c.part

/-- net.red: read what it contributes, contribute, and go on when the round has ended, with what it read at issue; under
lookahead the window issues meanwhile (R235, R236). -/
def netRed (n : Nat) (i : Instr) (op scope ctx : Nat) (read : Ins (BitVec 1024 × Pending)) : Ins Ctl := do
  let h ← hartOf n
  match h.net with
  | some p =>
    match ← Ins.get fun s => s.netReady n p with
    | none => .stop .stall
    | some (p, s') => do
      Ins.upd fun _ => s'.setHart n { s'.hart n with net := none }
      p.xs.forM fun q => writeXP n q.1 q.2.val q.2.poison
      p.vs.forM fun q => writeV n q.1 q.2
      hartStores n p.stores
      pure (.seq)
  | none =>
    let (v, p) ← read
    match ← Ins.get fun s => KMap.get none s.combine ctx with
    | none => .trap cRecord 0
    | some c =>
      Ins.deny (!c.takes (← Ins.get id) n op scope) cRecord 0
      match ← Ins.get fun s => s.takePin n with
      | none => .stop .stall
      | some (_, s') => do
        Ins.upd fun _ => { s' with combine := KMap.set none s'.combine ctx (some (c.contribute n v)) }
        let la := h.window i
        let p := { p with pc := h.pc, net := some (ctx, c.round) }
        if la = 0 then
          setHartOf n fun h => { h with net := some p }
          .stop .hold
        else
          setHartOf n fun h => { h with pending := h.pending ++ [{ p with window := la + 1 }] }
          pure (.seq)

def execNetRedMaxi (o : LOpts) (sc : BitVec 3) (ctx : BitVec 8) (vd va : Reg) (s : State) : Host.Outcome State Fault Refusal :=
  let i : Instr := .netRedMaxi o sc ctx vd va
  runCompute i (fun n => netRed n i 0 sc.toNat ctx.toNat do
    let v ← readVAs n va [13]
    Ins.deny v.poison cPoison (RegId.v va).id
    pure (BitVec.ofNat 1024 (bits v.val.toNat 0 128), { window := 0, netDest := vd })) s

/-- The scalar forms. -/
def netRedX (i : Instr) (op : Nat) (sc : BitVec 3) (ctx : BitVec 8) (xd xa : Reg) (n : Nat) : Ins Ctl :=
  netRed n i op sc.toNat ctx.toNat do
    let v ← useX n xa
    pure (v.zeroExtend 1024, { window := 0, netDest := xd })

def execNetRedSum (o : LOpts) (sc : BitVec 3) (ctx : BitVec 8) (xd xa : Reg) (s : State) : Host.Outcome State Fault Refusal :=
  runCompute (.netRedSum o sc ctx xd xa) (netRedX (.netRedSum o sc ctx xd xa) 1 sc ctx xd xa) s
def execNetRedAnd (o : LOpts) (sc : BitVec 3) (ctx : BitVec 8) (xd xa : Reg) (s : State) : Host.Outcome State Fault Refusal :=
  runCompute (.netRedAnd o sc ctx xd xa) (netRedX (.netRedAnd o sc ctx xd xa) 3 sc ctx xd xa) s
def execNetRedOr (o : LOpts) (sc : BitVec 3) (ctx : BitVec 8) (xd xa : Reg) (s : State) : Host.Outcome State Fault Refusal :=
  runCompute (.netRedOr o sc ctx xd xa) (netRedX (.netRedOr o sc ctx xd xa) 4 sc ctx xd xa) s

/-- net.red.sumv: sixteen sums, written back over the contributions in the own bank; an address outside the own bank's
range is unallocated scratchpad, also one that reaches the bank through the cluster window (log 55). -/
def execNetRedSumv (o : LOpts) (sc : BitVec 3) (ctx : BitVec 8) (xd xa : Reg) (s : State) : Host.Outcome State Fault Refusal :=
  let i : Instr := .netRedSumv o sc ctx xd xa
  runCompute i (fun n => netRed n i 2 sc.toNat ctx.toNat do
    let a := (← useX n xa).toNat
    Ins.deny (a % 128 != 0) cAlign a
    Ins.deny (rowOf a != 0) cUnalloc a
    let ps ← hartPlaces n .write a 128
    let b ← readRecord n a 128
    pure (BitVec.ofNat 1024 (leNat b), { window := 0, netDest := xd, stores := chunksOf ps b })) s

end Sys2Proof.Machine
end

