-- ==== Sys2Proof/Machine/Engine.lean ====
section
/-!
DEFINITION. How the engines of a cluster read and write (R214, R277, R278, R305, R450): places, checks, bytes with
their poison, and the barrier counts and completions they all share.
-/

namespace Sys2Proof.Machine

/-- Why an engine access fails: a status of R309 and the address. -/
abbrev EngFail := Nat × Nat

/-- A byte of a range that begins at `a`, at distance `d`, as an engine of a cluster finds it for a core: the granule's
key and the offset. -/
def State.engPlace (s : State) (core : Nat) (root : Word) (a d : Nat) (k : Acc) : Except EngFail (Nat × Nat) × State :=
  let at_ := addrAdd a d
  match spaceOf core a with
  | .bank b o => (if o + d < 2 ^ 17 then .ok (locBank b ((o + d) / 32), (o + d) % 32) else .error (3, at_), s)
  | .global =>
    if rowOf at_ ≠ 3 then (.error (2, at_), s)
    else
      let cl := clusterOf core
      let (e, s) := s.lookup cl root (fun pa => ((s.partOfCluster cl).map fun p => p.2.owns pa).getD false) at_ k
      match e with
      | some e => (.ok (locMem (e.pa (va57 at_) / 32), e.pa (va57 at_) % 32), s)
      | none => (.error (2, at_), s)
  | _ => (.error (2, at_), s)

/-- The granules of a scratchpad range, with their covering generations; the first uncovered byte where there is one. -/
def State.bankRange (s : State) (core a len : Nat) : Except EngFail (KMap (BitVec 16)) :=
  match spaceOf core a with
  | .bank b o =>
    if len = 0 then .ok []
    else
      (List.range ((o % 32 + len + 31) / 32)).foldl (fun acc g =>
        match acc with
        | .error e => .error e
        | .ok m =>
          let off := (o / 32 + g) * 32
          let loc := locBank b (o / 32 + g)
          match (if off < 2 ^ 17 then s.coverGen loc else none) with
          | some gen => .ok (KMap.insert m loc gen)
          | none => .error (3, addrAdd a (max off o - o))) (.ok [])
  | _ => .ok []

/-- Merge recorded generations. -/
def mergeGens (a b : KMap (BitVec 16)) : KMap (BitVec 16) := b.foldl (fun m p => KMap.insert m p.1 p.2) a

/-- The generation recorded for a granule. -/
def genOf (m : KMap (BitVec 16)) (loc : Nat) : Option (BitVec 16) := (m.find? fun p => p.1 == loc).map (·.2)

/-- How an engine read treats scratchpad: against recorded generations (R305), or by a check at the read. -/
inductive Recorded where
  | gens (m : KMap (BitVec 16))
  | now

/-- What an engine reads of a granule: zero where stale, or where its allocation is no longer the one recorded. -/
def State.engGran (s : State) (w : Writer) (loc : Nat) (rec_ : Recorded) (must : List Nat := []) : Option Gran × State :=
  if locIsMem loc then
    if s.sealedAt (32 * locGran loc) then (some (s.homeGran loc), s)
    else let (g, s) := s.engineGran w loc must; (some g, s)
  else
    let (g, s) := s.engineGran w loc must
    let c := s.coverGen loc
    match rec_ with
    | .gens m => (some (if (genOf m loc) == c then g.seen c else {}), s)
    | .now => (if c.isSome then some (g.seen c) else none, s)

/-- Read `len` bytes at distance `d` of a range; the bytes read before a failure are kept. The writes of `must` are among
what it sees. -/
def State.engRead (s : State) (w : Writer) (core : Nat) (root : Word) (rec_ : Recorded) (a d len : Nat) (must : List Nat := []) :
    PBytes × Option EngFail × State :=
  (pieces (addrAdd a d) len).foldl (fun acc p =>
    match acc with
    | (bs, some e, s) => (bs, some e, s)
    | (bs, none, s) =>
      let (pl, s) := s.engPlace core root a (d + bs.length) .read
      match pl with
      | .error e => (bs, some e, s)
      | .ok (loc, off) =>
        let (g, s) := s.engGran w loc rec_ must
        match g with
        | none => (bs, some (3, p.1), s)
        | some g => (bs ++ (getBytes g.data off p.2).map fun b => (b, g.poison), none, s)) ([], none, s)

/-- The granule is sealed (R199, R200). -/
def State.locSealed (s : State) (loc : Nat) : Bool :=
  if locIsMem loc then s.sealedAt (32 * locGran loc)
  else ((covering (s.core (locCore loc)).alloc (32 * locIdx loc)).map fun e => e.2.sealed).getD false

/-- Write bytes at distance `d` of a range, granule by granule: how many were written, and the failure that stopped it
(R309). The writes carry the recorded generations, and the covering ones where nothing was recorded. A whole 64-byte line
of global memory is replaced with its poison, a part of one only adds poison (R179, R305). -/
def State.engWrite (s : State) (w : Writer) (core : Nat) (root : Word) (gens : KMap (BitVec 16)) (a d : Nat) (bs : PBytes) :
    Nat × Option EngFail × State :=
  let global := match spaceOf core a with | .global => true | _ => false
  (pieces (addrAdd a d) bs.length).foldl (fun acc p =>
    match acc with
    | (n, some e, s) => (n, some e, s)
    | (n, none, s) =>
      let (pl, s) := s.engPlace core root a (d + n) .write
      match pl with
      | .error e => (n, some e, s)
      | .ok (loc, off) =>
        if s.locSealed loc then (n, some (4, p.1), s)
        else
          let part := (bs.drop n).take p.2
          -- bytes of the line before this piece
          let o := p.1 % 64
          let whole := global && decide (o ≤ n ∧ n - o + 64 ≤ bs.length)
          let bad := PBytes.poisoned ((bs.drop (n - o)).take 64)
          let gen := (genOf gens loc).getD ((s.coverGen loc).getD 0)
          let s := s.writeHome w 0 none false ⟨loc, off, PBytes.bytes part, gen, false, whole, if whole then bad else PBytes.poisoned part, (0, 0)⟩
          (n + p.2, none, s)) (0, none, s)

/-- The sequence numbers of the writes made since `seq`. -/
def State.writesSince (s : State) (seq : Nat) : List Nat := (s.log.takeWhile fun r => seq < r.seq).map (·.seq)

/-- Publish given writes at a scope. -/
def State.publishSeqs (s : State) (l : List Nat) (scope : Nat) : State :=
  if l.isEmpty then s
  else { s with log := s.log.map fun r => if l.contains r.seq then { r with pub := raisePub r.pub scope } else r }

/-! ### Barrier counts (R224) -/

/-- Both counts of a slot go up by one; none where one would pass its limit. The slot's generation is `gen`. -/
def State.barCount (s : State) (w : Writer) (scope loc : Nat) (gen : BitVec 16) : Option State :=
  let b := s.slotAt loc
  if b.inbound = 65535 ∨ b.outbound = 65535 then none
  else some (s.putSlot w 0 (some (w.widen scope)) loc gen
    { b with inbound := b.inbound + 1, outbound := b.outbound + 1 })

/-- One count goes down; false where it stood at zero. The home may then complete a generation. A scratchpad slot whose
allocation is no longer the one recorded at acceptance takes no write (R278). -/
def State.barDrop (s : State) (w : Writer) (scope loc : Nat) (gen : BitVec 16) (outbound : Bool) : Bool × State :=
  if !locIsMem loc && s.coverGen loc != some gen then (true, s) else
  let b := s.slotAt loc
  let ok := if outbound then b.outbound != 0 else b.inbound != 0
  let b := if outbound then { b with outbound := b.outbound - 1 } else { b with inbound := b.inbound - 1 }
  (ok, s.putSlot w 0 (some (w.widen scope)) loc gen b.complete)

/-- The scope of the slot at a granule. -/
def State.slotScope (s : State) (loc : Nat) : Nat := cfgScope (s.slotAt loc).cfg

/-! ### Completions (R309) -/

/-- A 64-byte completion payload. -/
def completionPayload (tag poison status op : Nat) (written addr extra : Nat) : Vec :=
  BitVec.ofNat 512 (op % 256 + 256 * (status % 256) + 2 ^ 16 * (poison % 2) + 2 ^ 32 * (tag % 2 ^ 32) +
    2 ^ 64 * (written % 2 ^ 64) + 2 ^ 128 * (addr % 2 ^ 64) + 2 ^ 192 * (extra % 2 ^ 64))

/-- Post a completion of engine `e` of a cluster to a hart; dequeuing it captures the covered writes (R210). -/
def State.complete (s : State) (cluster e hart : Nat) (payload : Vec) (cover : List Nat) (helper : Bool := false) : State :=
  s.post (engineId cluster e) hart
    { payload := payload, side := sideWord 4 0 0 (engineId cluster e), cover := cover, helper := helper }

/-- A report to the hold unit (R398). -/
def State.report (s : State) (d : Nat) (r : Report) : State := s.setDir d { s.dir d with reports := (s.dir d).reports ++ [r] }

end Sys2Proof.Machine
end

