-- ==== Sys2Proof/Machine/Copy.lean ====
section
/-!
DEFINITION. The copy engine: acceptance (R302-R305), the commands' work (R303, R308, R310-R318), landing buffers (R308)
and completions (R309).
-/

namespace Sys2Proof.Machine

/-! ### Commands (R302, R303) -/

def CopyCmd.word (c : CopyCmd) (k : Nat) : Nat := (c.words.getD k 0).toNat
def CopyCmd.op (c : CopyCmd) : Nat := bits (c.word 0) 0 8
def CopyCmd.tag (c : CopyCmd) : Nat := bits (c.word 0) 32 32
def CopyCmd.pub (c : CopyCmd) : Nat := bits (c.word 0) 20 3
def CopyCmd.btag (c : CopyCmd) : Bool := bits (c.word 0) 19 1 == 1
def CopyCmd.cmpl (c : CopyCmd) : Bool := bits (c.word 0) 18 1 == 1
def CopyCmd.lands (c : CopyCmd) : Bool := bits (c.word 0) 23 1 == 1
def CopyCmd.core (c : CopyCmd) : Nat := coreOf c.hart

/-- Words of a command with this header: one where the op is reserved. -/
def cmdWords (header : Word) : Nat :=
  let b := if header.getLsbD 19 then 1 else 0
  match bits header.toNat 0 8 with
  | 1 | 4 => 4 + b
  | 2 | 3 | 5 | 6 => 5 + b
  | _ => 1

/-- The header or a field is out of range (R302, R303). -/
def CopyCmd.faulty (c : CopyCmd) : Bool :=
  let h := c.word 0
  let landWord (k : Nat) : Bool := c.lands && bits (c.word k) 8 56 != 0
  bits h 24 8 != 0 || decide (6 ≤ c.pub) || bits h 8 10 != 0 ||
  match c.op with
  | 1 => bits (c.word 3) 32 32 != 0 || landWord 2
  | 2 => landWord 2
  | 3 => bits (c.word 4) 48 16 != 0 || bits (c.word 4) 0 16 == 0 || decide (4096 < bits (c.word 4) 0 16) || landWord 3
  | 4 => bits (c.word 3) 32 32 != 0 || c.lands
  | 5 => bits (c.word 3) 0 16 == 0 || bits (c.word 3) 16 48 != 0 || landWord 2
  | 6 => bits (c.word 4) 0 16 == 0 || bits (c.word 4) 16 48 != 0 || c.lands
  | _ => true

/-- A signed 32-bit stride as a distance modulo 2^64. -/
def stride32 (x : Nat) : Nat := ((BitVec.ofNat 32 x).signExtend 64).toNat

/-- The window of a winstore, from the descriptor read at acceptance (R317). -/
def CopyCmd.ring (c : CopyCmd) : Nat := leNat (PBytes.bytes (c.buf.take 8))

/-- Rows and bytes of a row of the block-moving commands. -/
def CopyCmd.shape (c : CopyCmd) : Nat × Nat :=
  match c.op with
  | 1 => (1, bits (c.word 3) 0 32)
  | 2 => (bits (c.word 3) 32 32, bits (c.word 3) 0 32)
  | 3 => (bits (c.word 4) 16 32, bits (c.word 4) 0 16)
  | 4 => (1, bits (c.word 3) 0 32)
  | 6 => (bits (c.word 4) 0 16, c.block)
  | _ => (0, 0)

/-- Bytes a block-moving command moves in all. -/
def CopyCmd.total (c : CopyCmd) : Nat := c.shape.1 * c.shape.2

/-- Where row i begins at the source, and at the destination. A winstore keeps ring base in `next`, row bytes in `block`
and ring rows in `bad`. -/
def CopyCmd.srcRow (c : CopyCmd) (i : Nat) : Nat :=
  match c.op with
  | 1 => c.word 1
  | 2 => addrAdd (c.word 1) (i * stride32 (bits (c.word 4) 0 32))
  | 6 => addrAdd (c.word 2) (i * c.block)
  | _ => c.word 1
def CopyCmd.dstRow (c : CopyCmd) (i : Nat) : Nat :=
  match c.op with
  | 2 => addrAdd (c.word 2) (i * stride32 (bits (c.word 4) 32 32))
  | 3 => addrAdd (c.word 3) (i * c.shape.2)
  | 4 => c.word 1
  | 6 => addrAdd c.next.toNat ((c.word 3 + i) % 2 ^ 64 % c.bad * c.block)
  | _ => c.word 2

/-- The range a row's byte is checked in begins here: a whole contiguous range, or the row (R450). -/
def CopyCmd.srcBase (c : CopyCmd) (i : Nat) : Nat × Nat :=
  if c.op = 6 then (c.word 2, i * c.block) else (c.srcRow i, 0)
def CopyCmd.dstBase (c : CopyCmd) (i : Nat) : Nat × Nat :=
  if c.op = 3 then (c.word 3, i * c.shape.2) else (c.dstRow i, 0)

/-- An own-bank address. -/
def isOwn (a : Nat) : Bool := rowOf a == 0

/-! ### Acceptance (R304) -/

/-- Scratchpad ranges a command names, each as first address and length (R304). -/
def CopyCmd.ranges (c : CopyCmd) : List (Nat × Nat) :=
  let (rows, len) := c.shape
  let dst (l : List (Nat × Nat)) : List (Nat × Nat) := if c.lands then [] else l
  match c.op with
  | 1 => [(c.word 1, len)] ++ dst [(c.word 2, len)]
  | 2 => (List.range rows).flatMap fun i => [(c.srcRow i, len)] ++ dst [(c.dstRow i, len)]
  | 3 => [(c.word 1, 4 * rows)] ++ dst [(c.word 3, rows * len)]
  | 4 => [(c.word 1, len)]
  | 5 => [(c.word 4, 0)] ++ dst [(c.word 2, 1)]
  | 6 => [(c.word 2, rows * len)] ++ (List.range rows).map fun i => (c.dstRow i, len)
  | _ => []

/-- An address of the command lies in its own bank: a director's command may not name one (R394). -/
def CopyCmd.namesOwn (c : CopyCmd) : Bool :=
  (c.ranges.any fun r => isOwn r.1) || (c.op == 3 && isOwn (c.word 2)) || ((c.op == 5 || c.op == 6) && isOwn (c.word 1)) ||
    (c.btag && isOwn (c.word (c.words.length - 1)))

/-- Check the ranges and record their generations. -/
def State.recordRanges (s : State) (core : Nat) : List (Nat × Nat) → KMap (BitVec 16) → Except EngFail (KMap (BitVec 16))
  | [], m => .ok m
  | r :: t, m =>
    match s.bankRange core r.1 r.2 with
    | .error e => .error e
    | .ok g => s.recordRanges core t (mergeGens m g)

/-- A command that failed: nothing more happens but its completion. -/
def CopyCmd.failed (c : CopyCmd) (status addr : Nat) : CopyCmd :=
  { c with status := status, addr := BitVec.ofNat 64 addr, finished := true, outDone := true, slot := none }

/-- The barrier slot of a command: its granule where it passes the checks of R224. -/
def State.barSlot (s : State) (core : Nat) (root : Word) (a : Nat) : Option Nat × State :=
  if a % 32 ≠ 0 then (none, s)
  else
    let (p, s) := s.engPlace core root a 0 .write
    match p with
    | .ok (loc, _) =>
      let covered := locIsMem loc || (s.coverGen loc).isSome
      (if covered && !s.hostLoc loc && (s.slotAt loc).init then some loc else none, s)
    | .error _ => (none, s)

/-- The issuer of a command, as a key. -/
def CopyCmd.issuer (c : CopyCmd) : Nat := match c.dir with | none => c.hart | some (d, _) => 2 ^ 20 + d

/-- Two commands of one issuer: they start and complete in order (R306). -/
def CopyCmd.sameIssuer (c d : CopyCmd) : Bool := c.hart == d.hart && c.dir.map (·.1) == d.dir.map (·.1)

/-- The writes of the earlier commands of a command's issuer: its reads see them (R306). -/
def State.earlierCmds (s : State) (cluster : Nat) (c : CopyCmd) : List Nat :=
  KMap.get [] (s.cluster cluster).wrote c.issuer ++
    ((s.cluster cluster).copy.filter fun d => d.sameIssuer c).flatMap (·.cover)

/-- A winstore reads its descriptor and takes its window from it (R317, R318). -/
def State.readWindow (s : State) (w : Writer) (c : CopyCmd) : CopyCmd × State :=
  let a := c.word 1
  if a % 32 ≠ 0 ∨ rowOf a ≠ 3 then (c.failed 1 0, s)
  else
    let (b, e, s) := s.engRead w c.core c.root .now a 0 32 (s.earlierCmds (clusterOf c.core) c)
    match e with
    | some e => (c.failed e.1 e.2, s)
    | none =>
      let d := leNat (PBytes.bytes b)
      let row := bits d 64 32
      let n := bits d 96 32
      let win := bits d 128 32
      let dep := bits d 160 32
      let commit := bits d 192 64
      let p := c.word 3
      let k := bits (c.word 4) 0 16
      let c := { c with poisoned := c.poisoned || PBytes.poisoned b }
      let c := { c with next := BitVec.ofNat 64 (bits d 0 64), block := row, bad := n, commit := BitVec.ofNat 64 commit }
      if row % 64 ≠ 0 ∨ row < 64 ∨ 65536 < row ∨ win = 0 ∨ dep = 0 ∨ n < win + dep then (c.failed 1 0, s)
      else if c.dir.isSome && c.namesOwn then (c.failed 1 0, s)
      else if p < commit ∨ commit + dep < p + k then (c.failed 7 0, s)
      else (c, s)

/-- Steps 1 and 2 of acceptance. -/
def State.checkCmd (s : State) (w : Writer) (c : CopyCmd) : CopyCmd × State :=
  if c.faulty then (c.failed 1 0, s)
  else
    let (slot, s) := if c.btag then s.barSlot c.core c.root (c.word (c.words.length - 1)) else (none, s)
    if (c.btag && slot.isNone) || (c.dir.isSome && c.namesOwn) then (c.failed 1 0, s)
    else
      let (c, s) := if c.op = 6 then s.readWindow w c else (c, s)
      if c.finished then (c, s)
      else
        match s.recordRanges c.core c.ranges [] with
        | .error e => (c.failed e.1 e.2, s)
        | .ok g =>
          ({ c with
            gens := g, slot := slot, barScope := (slot.map s.slotScope).getD 0
            barGen := ((slot.map s.coverGen).join).getD 0 }, s)

/-- A decompress begins at its first header. -/
def CopyCmd.begin (c : CopyCmd) : CopyCmd := if c.op = 5 then { c with next := BitVec.ofNat 64 (c.word 1) } else c

/-- Accept a command (R304): none where it must wait for a pin or a barrier count. `pin` takes the pin. -/
def State.acceptCmd (s : State) (cluster : Nat) (c : CopyCmd) (pin : State → Option (Option (Nat × Word) × State)) : Option State :=
  let w : Writer := .cluster cluster
  let (c, s) := s.checkCmd w c
  let put (s : State) (c : CopyCmd) : State := s.setCluster cluster { s.cluster cluster with copy := (s.cluster cluster).copy ++ [c] }
  if c.finished then some (put s c)
  else
    match (match c.slot with | some l => s.barCount w c.barScope l c.barGen | none => some s) with
    | none => none
    | some s =>
      match pin s with
      | none => none
      | some (p, s) => some (put s { c.begin with pin := p })

/-! ### The command slots -/

def State.copyCmd (s : State) (cluster k : Nat) : Option CopyCmd := if k < 16 then (s.cluster cluster).copy[k]? else none
def State.setCopy (s : State) (cluster k : Nat) (c : CopyCmd) : State :=
  s.setCluster cluster { s.cluster cluster with copy := (s.cluster cluster).copy.set k c }

/-- The command may work: a held engine starts none (R407), it is not finished, and every earlier one of its issuer is,
or delivers to a landing buffer and has started: such a one holds no other (R306, R308). -/
def State.mayWork (s : State) (cluster k : Nat) (c : CopyCmd) : Bool :=
  (!(s.cluster cluster).copyHold || c.started) && !c.finished &&
    !(((s.cluster cluster).copy.take k).any fun d => d.sameIssuer c && !d.finished && !(d.lands && d.started))

/-- The outbound count drops once the last source byte is read (R224); an underflow is noted for the completion. -/
def State.outDone (s : State) (cluster : Nat) (c : CopyCmd) : CopyCmd × State :=
  if c.outDone then (c, s)
  else
    match c.slot with
    | none => ({ c with outDone := true }, s)
    | some l =>
      let (ok, s) := s.barDrop (.cluster cluster) c.barScope l c.barGen true
      ({ c with outDone := true, under := !ok }, s)

/-- A command stops at a failure; what it has read is still written when the failure was a read. -/
def CopyCmd.stop (c : CopyCmd) (e : EngFail) : CopyCmd := { c with status := e.1, addr := BitVec.ofNat 64 e.2, finished := true }

/-- The generation recorded for a command, as reads see it. -/
def CopyCmd.recorded (c : CopyCmd) : Recorded := .gens c.gens

/-- Write a piece of the destination of row i at distance d. -/
def State.copyOut (s : State) (cluster : Nat) (c : CopyCmd) (i d : Nat) (bs : PBytes) : CopyCmd × State :=
  let (b, o) := c.dstBase i
  let seq := s.seq
  let (n, e, s) := s.engWrite (.cluster cluster) c.core c.root c.gens b (o + d) bs
  let c := { c with
    written := c.written + n
    cover := c.cover ++ s.writesSince seq }
  (match e with | some e => c.stop e | none => c, s)

/-- One unit of copy1d, copy2d or winstore: a row is read whole, then written; a landing buffer takes its bytes as they
are read. A read that fails ends the command after the bytes read before it. -/
def State.blockUnit (s : State) (cluster : Nat) (c : CopyCmd) : CopyCmd × State :=
  let len := c.shape.2
  let row := if c.lands then c.unit / len else c.written / len
  let got := c.unit - row * len
  if c.unit < c.total ∧ c.status = 0 ∧ (c.lands ∨ c.unit < (row + 1) * len) then
    let (b, o) := c.srcBase row
    let m := min (64 - addrAdd b (o + got) % 64) (len - got)
    let (bs, e, s) := s.engRead (.cluster cluster) c.core c.root c.recorded b (o + got) m (s.earlierCmds cluster c)
    let c := { c with unit := c.unit + bs.length, started := true, poisoned := c.poisoned || PBytes.poisoned bs }
    let c := if c.lands then { c with land := c.land ++ bs } else { c with buf := c.buf ++ bs }
    let c := match e with | some e => { c with status := e.1, addr := BitVec.ofNat 64 e.2 } | none => c
    let (c, s) := if c.unit = c.total ∨ c.status ≠ 0 then s.outDone cluster c else (c, s)
    let left := if c.lands then c.land.isEmpty else c.buf.isEmpty
    ({ c with finished := decide (c.status ≠ 0) && left }, s)
  else if c.lands then (c, s)
  else
    let d := c.written - row * len
    let (b, o) := c.dstBase row
    let m := 64 - addrAdd b (o + d) % 64
    let (c', s) := s.copyOut cluster c row d (c.buf.take m)
    let c := { c' with buf := c.buf.drop m }
    ({ c with finished := c.finished || c.written == c.total || (c.status != 0 && c.buf.isEmpty) }, s)

/-- A read of a gather has failed: no later element is read, and what a landing buffer has not yet taken of the elements
read before is still delivered (R308, R309). -/
def CopyCmd.readFails (c : CopyCmd) (e : EngFail) : CopyCmd :=
  { c with status := e.1, addr := BitVec.ofNat 64 e.2, finished := c.land.isEmpty }

/-- One element of a gather, as long as one is left and none has failed: read, then written. -/
def State.gatherUnit (s : State) (cluster : Nat) (c : CopyCmd) : CopyCmd × State :=
  if c.shape.1 ≤ c.unit ∨ c.status ≠ 0 then (c, s) else
  let w : Writer := .cluster cluster
  let z := c.shape.2
  let k := c.unit
  let must := s.earlierCmds cluster c
  let (ib, e, s) := s.engRead w c.core c.root c.recorded (c.word 1) (4 * k) 4 must
  match e with
  | some e => (c.readFails e, s)
  | none =>
    let idx := leNat (PBytes.bytes ib)
    let (bs, e, s) := s.engRead w c.core c.root .now (addrAdd (c.word 2) (idx * z)) 0 z must
    let c := { c with
      unit := k + 1, started := true, poisoned := c.poisoned || PBytes.poisoned ib || PBytes.poisoned bs }
    let (c, s) := if c.unit = c.shape.1 ∨ e.isSome then s.outDone cluster c else (c, s)
    let bs := bs.map fun b => (b.1, b.2 || PBytes.poisoned ib)
    if c.lands then
      let c := { c with land := c.land ++ bs }
      (match e with | some e => c.readFails e | none => c, s)
    else
      let (c, s) := if bs.isEmpty then (c, s) else s.copyOut cluster c k 0 bs
      match e with
      | some e => (if c.finished then c else c.stop e, s)
      | none => ({ c with finished := c.finished || c.unit == c.shape.1 }, s)

/-- One 64-byte unit of a fill. -/
def State.fillUnit (s : State) (cluster : Nat) (c : CopyCmd) : CopyCmd × State :=
  let (c, s) := s.outDone cluster c
  let d := c.written
  let m := min (64 - addrAdd (c.word 1) d % 64) (c.total - d)
  let bs := (List.range m).map fun i => (BitVec.ofNat 8 (bits (c.word 2) (8 * ((d + i) % 8)) 8), false)
  let (c, s) := s.copyOut cluster { c with started := true } 0 d bs
  ({ c with finished := c.finished || c.written == c.total }, s)

/-- `n` units of the command in a slot, if it has the op and may work; one of nothing to do is done when it starts. -/
def State.copyWork (s : State) (cluster k op : Nat) (unit : State → CopyCmd → CopyCmd × State) : Nat → State
  | 0 => s
  | n + 1 =>
    match s.copyCmd cluster k with
    | some c =>
      if c.op = op ∧ s.mayWork cluster k c = true then
        let (c, s) := if c.total = 0 then ({ c with started := true, finished := true }, s) else unit s c
        (s.setCopy cluster k c).copyWork cluster k op unit n
      else s
    | none => s

def execCopy1d (cluster slot n : Nat) (s : State) : Host.Outcome State Fault Refusal :=
  happen (if cluster < Config.clusters then s.copyWork cluster slot 1 (fun s c => s.blockUnit cluster c) n else s)
def execCopy2d (cluster slot n : Nat) (s : State) : Host.Outcome State Fault Refusal :=
  happen (if cluster < Config.clusters then s.copyWork cluster slot 2 (fun s c => s.blockUnit cluster c) n else s)
def execGather (cluster slot n : Nat) (s : State) : Host.Outcome State Fault Refusal :=
  happen (if cluster < Config.clusters then s.copyWork cluster slot 3 (fun s c => s.gatherUnit cluster c) n else s)
def execFill (cluster slot n : Nat) (s : State) : Host.Outcome State Fault Refusal :=
  happen (if cluster < Config.clusters then s.copyWork cluster slot 4 (fun s c => s.fillUnit cluster c) n else s)
def execWinstore (cluster slot n : Nat) (s : State) : Host.Outcome State Fault Refusal :=
  happen (if cluster < Config.clusters then s.copyWork cluster slot 6 (fun s c => s.blockUnit cluster c) n else s)

/-! ### Landing buffers (R308) -/

/-- The destination word that names a landing buffer. -/
def CopyCmd.landWord (c : CopyCmd) : Nat := if c.op = 3 then c.word 3 else c.word 2

/-- The core and number of the buffer. -/
def CopyCmd.landAt (c : CopyCmd) (cluster : Nat) : Nat × Nat := (16 * cluster + bits c.landWord 4 4, bits c.landWord 0 4)

/-- Everything of the source has been read. -/
def CopyCmd.readAll (c : CopyCmd) : Bool :=
  c.status != 0 && c.status != 5 && c.status != 6 ||
  (match c.op with
  | 5 => c.block == bits (c.word 3) 0 16
  | 3 => c.unit == c.shape.1
  | _ => c.unit == c.total)

/-- `n` bytes of a command enter its buffer, as far as it has room and no earlier command to it is under way. -/
def State.landBytes (s : State) (cluster k n : Nat) : State :=
  match s.copyCmd cluster k with
  | none => s
  | some c =>
    let (core, b) := c.landAt cluster
    if !c.lands || !c.started || c.finished || (((s.cluster cluster).copy.take k).any fun d => d.lands && !d.finished && d.landAt cluster == (core, b)) then s
    else
      let co := s.core core
      let have_ := KMap.get [] co.landing b
      let m := min n (min c.land.length (512 - have_.length))
      let s := s.setCore core { co with landing := KMap.set [] co.landing b (have_ ++ c.land.take m) }
      let c := { c with written := c.written + m, land := c.land.drop m }
      s.setCopy cluster k { c with finished := c.land.isEmpty && c.readAll }

def execLandingBufferDelivery (cluster slot n : Nat) (s : State) : Host.Outcome State Fault Refusal :=
  happen (if cluster < Config.clusters then s.landBytes cluster slot n else s)

/-! ### The decompressor (R310-R316) -/

/-- The length of symbol b in a code table (R311). -/
def codeLen (t : List Byte) (b : Nat) : Nat := let x := (t.getD (b / 2) 0).toNat; if b % 2 = 0 then x % 16 else x / 16

/-- The codes of a table as (symbol, length, code); none where it is faulty. -/
def codeTable (t : List Byte) : Option (List (Nat × Nat × Nat)) :=
  let lens := (List.range 256).map (codeLen t)
  let used := lens.filter (· != 0)
  let weight := (used.map fun l => 2 ^ (12 - l)).sum
  if used.isEmpty || used.any (decide <| 12 < ·) || decide (4096 < weight) then none
  else
    let count (n : Nat) : Nat := if n = 0 then 0 else (lens.filter (· == n)).length
    let first := (List.range 12).foldl (fun (acc : List Nat × Nat) n =>
      let code := (acc.2 + count n) * 2
      (acc.1 ++ [code], code)) ([], 0)
    some ((List.range 256).filterMap fun b =>
      let l := lens.getD b 0
      if l = 0 then none
      else some (b, l, first.1.getD (l - 1) 0 + ((lens.take b).filter (· == l)).length))

/-- Bit i of the coded stream (R312). -/
def streamBit (coded : List Byte) (i : Nat) : Nat := if (coded.getD (i / 8) 0).getLsbD (i % 8) then 1 else 0

/-- The symbol whose code starts at a bit: symbol and length. -/
def nextSymbol (codes : List (Nat × Nat × Nat)) (coded : List Byte) (pos left : Nat) : Option (Nat × Nat) :=
  (List.range 12).findSome? fun k =>
    let l := k + 1
    if left < l then none
    else
      let v := (List.range l).foldl (fun a i => 2 * a + streamBit coded (pos + i)) 0
      (codes.find? fun c => c.2.1 == l && c.2.2 == v).map fun c => (c.1, l)

/-- Decode `k` symbols from a bit on: the bytes, and whether a decode error ended them (R315). -/
def decodeSymbols (codes : List (Nat × Nat × Nat)) (coded : List Byte) (total : Nat) : Nat → Nat → List Byte × Bool
  | 0, _ => ([], false)
  | k + 1, pos =>
    match nextSymbol codes coded pos (total - pos) with
    | none => (List.replicate (k + 1) 0, true)
    | some (b, l) => let r := decodeSymbols codes coded total k (pos + l); (BitVec.ofNat 8 b :: r.1, r.2)

/-- One byte of the CRC-32C (R313). -/
def crcByte (crc : BitVec 32) (b : Byte) : BitVec 32 :=
  (List.range 8).foldl (fun (c : BitVec 32) _ => if c.getLsbD 0 then (c >>> 1) ^^^ 0x82F63B78#32 else c >>> 1) (crc ^^^ b.zeroExtend 32)

def crc32c (bs : List Byte) : BitVec 32 := (bs.foldl crcByte 0xFFFFFFFF#32) ^^^ 0xFFFFFFFF#32

/-- The header of a block (R310). -/
structure BlockHead where
  codec : Nat
  table : Nat
  raw : Nat
  coded : Nat
  crc : Nat
deriving DecidableEq, Repr

def blockHead (b : List Byte) : Option BlockHead :=
  let w := leNat b
  let h : BlockHead := ⟨bits w 32 8, bits w 40 8, bits w 64 32, bits w 96 32, bits w 128 32⟩
  if bits w 0 32 ≠ 0x4B4C4243 ∨ bits w 48 16 ≠ 0 ∨ bits w 160 96 ≠ 0 ∨ 1 < h.codec ∨ h.raw = 0 ∨ 4096 < h.raw then none
  else if h.codec = 0 ∧ h.coded ≠ h.raw then none
  else if h.codec = 1 ∧ (h.coded = 0 ∨ 6144 < h.coded) then none
  else some h

/-- The stack of a physical address (R15). -/
def State.stackOf (s : State) (pa : Nat) : Option Nat := if s.inHbm pa then some ((pa - s.hbase) / 2 ^ 36) else none

/-- The stack a global address lies in for an engine. -/
def State.engStack (s : State) (c : CopyCmd) (a : Nat) : Option Nat × State :=
  let (p, s) := s.engPlace c.core c.root a 0 .read
  match p with
  | .ok (loc, off) => (if locIsMem loc then s.stackOf (32 * locGran loc + off) else none, s)
  | .error _ => (none, s)

/-- A block at which the command stops, or fails its decoding or checksum, is counted (R314, R315). -/
def CopyCmd.countBad (c : CopyCmd) : CopyCmd := { c with bad := c.bad + 1, firstBad := if c.bad = 0 then c.block else c.firstBad }

def CopyCmd.stopBlock (c : CopyCmd) (e : EngFail) : CopyCmd := c.countBad.stop e

/-- The block's destination bytes lie in the allocation recorded at acceptance; else the first that does not. -/
def State.blockFits (s : State) (c : CopyCmd) (len : Nat) : Option Nat :=
  match spaceOf c.core (c.word 2) with
  | .bank b o =>
    let base := o + c.unit
    let gen := genOf c.gens (locBank b (o / 32))
    match (s.core b).alloc.find? fun a => a.2.st == .live && some a.2.gen == gen with
    | none => some (addrAdd (c.word 2) c.unit)
    | some (_, a) =>
      if a.base ≤ base ∧ base + len ≤ a.base + 32 * a.len then none
      else some (addrAdd (c.word 2) (c.unit + (a.base + 32 * a.len - base)))
  | _ => none

/-- The generation recorded at the first byte governs every granule of the destination. -/
def State.blockGens (_s : State) (c : CopyCmd) (len : Nat) : KMap (BitVec 16) :=
  match spaceOf c.core (c.word 2) with
  | .bank b o =>
    match genOf c.gens (locBank b (o / 32)) with
    | some g => (List.range ((len + 63) / 32)).foldl (fun m i => KMap.insert m (locBank b ((o + c.unit) / 32 + i)) g) c.gens
    | none => c.gens
  | _ => c.gens

/-- Bytes at `a` that are mapped to another stack or to none: every block lies in the command's stack (R310). -/
def State.strays (s : State) (c : CopyCmd) (a len : Nat) : Bool × State :=
  (pieces a len).foldl (fun acc p =>
    if acc.1 then acc
    else
      let (pl, s) := acc.2.engPlace c.core c.root p.1 0 .read
      (match pl with
        | .ok (loc, off) => !locIsMem loc || s.stackOf (32 * locGran loc + off) != c.stack
        | .error _ => false, s)) (false, s)

/-- Write a block's bytes in pieces of at most 64, as the decompressor (R11). -/
def State.blockOut (s : State) (w : Writer) (gens : KMap (BitVec 16)) : Nat → CopyCmd → PBytes → CopyCmd × State
  | 0, c, _ => (c, s)
  | k + 1, c, bs =>
    if bs.isEmpty || c.finished then (c, s)
    else
      let a := c.word 2
      let m := min (64 - addrAdd a c.written % 64) bs.length
      let seq := s.seq
      let (n, e, s) := s.engWrite w c.core c.root gens a c.written (bs.take m)
      let c := { c with written := c.written + n, cover := c.cover ++ s.writesSince seq }
      match e with
      | some e => (c.stopBlock e, s)
      | none => s.blockOut w gens k c (bs.drop m)

/-- The decompressor of a command: a unit of its stack's domain (R11, R310). -/
def CopyCmd.unit5 (c : CopyCmd) : Writer := .domain (c.stack.getD 0)

/-- One block: header, destination check, code table, decoding, checksum, delivery (R304, R310-R315). `unit` counts the
bytes delivered so far. -/
def State.blockStep (s : State) (cluster : Nat) (c : CopyCmd) : CopyCmd × State :=
  let w := c.unit5
  let must := s.earlierCmds cluster c
  let at_ := c.next.toNat
  let (here, s) := s.engStack c at_
  let (hb, e, s) := s.engRead w c.core c.root .now at_ 0 32 must
  match e with
  | some e => (c.stopBlock e, s)
  | none =>
    match (if at_ % 32 = 0 ∧ here.isSome = true ∧ here = c.stack then blockHead (PBytes.bytes hb) else none) with
    | none => (c.stopBlock (1, 0), s)
    | some h =>
      match (if c.lands then none else s.blockFits c h.raw) with
      | some a => (c.stopBlock (3, a), s)
      | none =>
      let (stray, s) := s.strays c (addrAdd at_ 32) h.coded
      if stray then (c.stopBlock (1, 0), s) else
      let (cb, e, s) := s.engRead w c.core c.root .now (addrAdd at_ 32) 0 h.coded must
      match e with
      | some e => (c.stopBlock e, s)
      | none =>
        let (tb, e, s) := if h.codec = 0 then ([], none, s) else s.engRead w c.core c.root .now (addrAdd (c.word 4) (128 * h.table)) 0 128 must
        match e with
        | some e => (c.stopBlock e, s)
        | none =>
          let codes := if h.codec = 0 then some [] else codeTable (PBytes.bytes tb)
          match codes with
          | none => (c.stopBlock (1, 0), s)
          | some codes =>
            let coded := PBytes.bytes cb
            let (out, err) := if h.codec = 0 then (coded, false) else decodeSymbols codes coded (8 * coded.length) h.raw 0
            let wrong := !err && (crc32c out).toNat != h.crc
            let read := PBytes.poisoned hb || PBytes.poisoned cb || PBytes.poisoned tb
            let c := { c with poisoned := c.poisoned || read }
            let bs : PBytes := out.map fun b => (b, err || wrong || read)
            let gens := s.blockGens c h.raw
            let (c', s) := if c.lands then ({ c with land := c.land ++ bs }, s) else s.blockOut w gens 130 c bs
            if c'.finished then (c', s)
            else
              let c' := if err || wrong then c'.countBad else c'
              let c' := { c' with
                status := if err then 6 else if wrong && c'.status != 6 then 5 else c'.status
                block := c.block + 1
                unit := c.unit + h.raw
                next := BitVec.ofNat 64 (addrAdd at_ (32 + (h.coded + 31) / 32 * 32)) }
              let last := c'.block == bits (c.word 3) 0 16
              let (c', s) := if last then s.outDone cluster c' else (c', s)
              ({ c' with finished := last && c'.land.isEmpty }, s)

/-- A command a decompressor works on. -/
def CopyCmd.inStack (c : CopyCmd) (st : Option Nat) : Bool := c.op == 5 && c.started && !c.finished && c.stack == st

/-- The commands a stack's decompressor works on. -/
def State.unpacking (s : State) (st : Option Nat) : List CopyCmd :=
  s.clusters.flatMap fun k => (k.2.copy.take 16).filter fun c => c.inStack st

/-- Commands a decompressor shares its cycles among (R316). -/
def unpackMax : Nat := 16

/-- Of the commands of its stack whose destination does not stall, none has waited longer for its turn (R316). -/
def State.myTurn (s : State) (c : CopyCmd) : Bool :=
  !(s.unpacking c.stack).any fun d => d.land.isEmpty && decide (d.block < bits (d.word 3) 0 16 ∧ d.turn < c.turn)

/-- A base die. -/
def State.base (s : State) (n : Nat) : BaseDie := KMap.get {} s.bases n
def State.setBase (s : State) (n : Nat) (b : BaseDie) : State := { s with bases := KMap.set {} s.bases n b }

/-- The next turn of a stack's decompressor. -/
def State.nextBlock (s : State) (st : Option Nat) : Nat × State :=
  let n := st.getD 0
  let t := (s.base n).turns + 1
  (t, s.setBase n { s.base n with turns := t })

/-- The copy engine hands the command to the decompressor of the stack (R310), one of at most 16 (R316). -/
def execDecompress (cluster slot : Nat) (s : State) : Host.Outcome State Fault Refusal :=
  happen (
    if cluster < Config.clusters then
      match s.copyCmd cluster slot with
      | some c =>
        if c.op = 5 ∧ c.started = false ∧ s.mayWork cluster slot c = true then
          let (st, s) := s.engStack c (c.word 1)
          if unpackMax ≤ (s.unpacking st).length then s
          else
            let (t, s) := s.nextBlock st
            s.setCopy cluster slot { c with started := true, stack := st, turn := t }
        else s
      | none => s
    else s)

/-- One block of a command handed over, in turn; a command whose landing bytes wait holds its context (R316). -/
def execDecompressBlock (cluster slot : Nat) (s : State) : Host.Outcome State Fault Refusal :=
  happen (
    if cluster < Config.clusters then
      match s.copyCmd cluster slot with
      | some c =>
        if c.op = 5 ∧ c.started = true ∧ c.land = [] ∧ c.block < bits (c.word 3) 0 16 ∧ s.mayWork cluster slot c = true ∧ s.myTurn c = true then
          let (t, s) := s.nextBlock c.stack
          let (c, s) := s.blockStep cluster { c with turn := t }
          s.setCopy cluster slot c
        else s
      | none => s
    else s)

/-! ### Completion (R309, R305, R224, R252) -/

/-- Bytes 24 to 31. -/
def CopyCmd.extra (c : CopyCmd) : Nat :=
  match c.op with
  | 5 => c.firstBad + 2 ^ 32 * c.bad
  | 6 => c.commit.toNat
  | _ => 0

def CopyCmd.payload (c : CopyCmd) : Vec :=
  completionPayload c.tag (if c.poisoned then 1 else 0) c.status c.op c.written
    (if c.status = 2 ∨ c.status = 3 ∨ c.status = 4 then c.addr.toNat else 0) c.extra

/-- The scope its writes are published at; a director's, at package or wider (R305, R398). -/
def CopyCmd.pubScope (c : CopyCmd) : Nat := max (max c.pub c.barScope) (if c.dir.isSome then 4 else 0)

/-- A finished command completes, in the order of its issuer's commands: its writes are published, the inbound count
drops, the pin is released, and the completion is posted; with status 1 where a decrement found its count at zero (R224). -/
def State.copyEnd (s : State) (cluster k : Nat) : State :=
  match s.copyCmd cluster k with
  | none => s
  | some c =>
    if !c.finished || (((s.cluster cluster).copy.take k).any fun d => d.sameIssuer c) then s
    else
      let w : Writer := .cluster cluster
      let s := s.publishSeqs c.cover ((if c.op = 5 then c.unit5 else w).widen c.pubScope)
      let (c, s) := s.outDone cluster c
      let (ok, s) := match c.slot with
        | some l => s.barDrop w c.barScope l c.barGen false
        | none => (true, s)
      let c := { c with status := if ok && !c.under then c.status else 1 }
      let s := s.unpin c.pin
      let s := s.setCluster cluster { s.cluster cluster with
        copy := (s.cluster cluster).copy.eraseIdx k
        wrote := KMap.set [] (s.cluster cluster).wrote c.issuer (KMap.get [] (s.cluster cluster).wrote c.issuer ++ c.cover) }
      match c.dir with
      | some (d, seq) => s.report d { sender := engineId cluster 0, seq := seq, status := c.status, payload := c.payload, cover := c.cover }
      | none => if c.cmpl || c.status != 0 then s.complete cluster 0 c.hart c.payload c.cover c.helper else s

def execCopyCompletion (cluster slot : Nat) (s : State) : Host.Outcome State Fault Refusal :=
  happen (if cluster < Config.clusters then s.copyEnd cluster slot else s)

end Sys2Proof.Machine
end

