-- ==== Sys2Proof/Machine/HeldRing.lean ====
section
/-!
DEFINITION. Object headers as the hold unit and Stagehouse reach them (R379), hold counts (R396, R399), the
held-release ring (R399, R402) and the reclamation of storage (R401, R405).
-/

namespace Sys2Proof.Machine

/-! ### Values and handles (R377, R378) -/

/-- The word `none` of Marnor. -/
def marnorNone : Word := 2
/-- The address a handle names. -/
def handleAddr (v : Word) : Nat := bits v.toNat 3 54 * 8
/-- The generation a handle carries. -/
def handleGen (v : Word) : Nat := bits v.toNat 57 7
/-- A word of kind handle that is well-formed. -/
def wellFormed (v : Word) : Bool :=
  bits v.toNat 0 2 == 0 && !v.getLsbD 56 && bits v.toNat 3 2 == 0 && handleAddr v != 0
/-- A small integer or an immediate. -/
def notHandle (v : Word) : Bool := v.getLsbD 0 || v.getLsbD 1
/-- The class of a value that gd.tag tests. -/
def classOf (v : Word) : Nat :=
  if v.getLsbD 0 then 0
  else if v.getLsbD 1 then
    if v = 2 then 2 else if v = 6 then 3 else if v = 10 then 4 else if bits v.toNat 0 32 = 14 then 5 else 6
  else if wellFormed v then 1 else 7

/-! ### Headers (R379) -/

/-- The first 16 bytes of an object: gen, flags, shape, refs, hold. -/
abbrev Header := Nat

def Header.gen (h : Header) : Nat := bits h 48 7
def Header.held (h : Header) : Bool := bits h 36 1 == 1
def Header.storage (h : Header) : Bool := bits h 33 1 == 1
def Header.shape (h : Header) : Nat := bits h 0 32
def Header.refs (h : Header) : Nat := bits h 64 32
def Header.hold (h : Header) : Nat := bits h 96 32
/-- Header word 1. -/
def Header.word1 (h : Header) : Nat := bits h 64 64
/-- The header with a field of `n` bits at `lo` replaced. -/
def Header.put (h : Header) (lo n x : Nat) : Header := h % 2 ^ lo + x % 2 ^ n * 2 ^ lo + h / 2 ^ (lo + n) * 2 ^ (lo + n)
def Header.setHold (h : Header) (x : Nat) : Header := h.put 96 32 x
def Header.setRefs (h : Header) (x : Nat) : Header := h.put 64 32 x
def Header.setHeld (h : Header) (b : Bool) : Header := h.put 36 1 (if b then 1 else 0)
def Header.setGen (h : Header) (x : Nat) : Header := h.put 48 7 x

/-- The stores that turn one header into another: the byte of flags.held, gen's two bytes, word 1. -/
def headerWrites (a : Nat) (old new : Header) : List (Nat × List Byte) :=
  (if bits old 32 8 = bits new 32 8 then [] else [(a + 4, [BitVec.ofNat 8 (bits new 32 8)])]) ++
  (if bits old 48 16 = bits new 48 16 then [] else [(a + 6, leBytes 2 (bits new 48 16))]) ++
  (if bits old 64 64 = bits new 64 64 then [] else [(a + 8, leBytes 8 (bits new 64 64))])

/-! ### Memory of the director die -/

/-- Bytes inside one granule, as the director cores see them. -/
def State.dieRead (s : State) (d pa len : Nat) : List Byte × State :=
  let (g, s) := s.loadGran (.dir d) (locMem (pa / 32))
  (getBytes g.data (pa % 32) len, s)
/-- Bytes inside one granule, stored as the director cores store. -/
def State.dieWrite (s : State) (d pa : Nat) (bytes : List Byte) : State :=
  s.dirStores d [{ loc := locMem (pa / 32), off := pa % 32, bytes := bytes }]
/-- The header of an object under a root, with its physical address. -/
def State.header (s : State) (d : Nat) (root : Option Word) (h : Word) : Option (Nat × Header) × State :=
  let (pa, s) := s.rootPlace root true .write (handleAddr h)
  match pa with
  | none => (none, s)
  | some pa => let (b, s) := s.dieRead d pa 16; (some (pa, leNat b), s)

/-- Change a header. -/
def State.putHeader (s : State) (d pa : Nat) (old new : Header) : State :=
  (headerWrites pa old new).foldl (fun s w => s.dieWrite d w.1 w.2) s

/-! ### The held-release ring -/

def Dir.ringEntries (c : Dir) : Nat := 2 ^ c.hrsize.toNat
/-- The ring is full (R402). -/
def Dir.ringFull (c : Dir) : Bool := (c.hrtail.toNat + 1) % c.ringEntries == c.hrhead.toNat

/-- Append a handle: write and publish the entry, then advance the tail. -/
def State.ringWrite (s : State) (d : Nat) (h : Word) : State :=
  let c := s.dir d
  let a := c.hrbase.toNat + 8 * c.hrtail.toNat
  let s := (s.dieWrite d a (wordBytes h)).stgPublish (locMem (a / 32)) 4
  s.setDir d { s.dir d with hrtail := BitVec.ofNat 16 ((c.hrtail.toNat + 1) % c.ringEntries) }

/-- The appends that waited, as far as the ring has room. -/
def State.flushRing (s : State) (d : Nat) : Nat → State
  | 0 => s
  | k + 1 =>
    match (s.dir d).appends with
    | [] => s
    | h :: t => if (s.dir d).ringFull then s else ((s.setDir d { s.dir d with appends := t }).ringWrite d h).flushRing d k

/-- Append a handle, behind those that wait (R399: a full ring delays appends). -/
def State.ringAppend (s : State) (d : Nat) (h : Word) : State :=
  let s := s.setDir d { s.dir d with appends := (s.dir d).appends ++ [h] }
  s.flushRing d (s.dir d).appends.length

/-! ### Holds (R399) -/

/-- Drop one hold of a handle that core d issued with. -/
def State.holdDrop (s : State) (d : Nat) (root : Option Word) (h : Word) : State :=
  match s.header d root h with
  | (none, s) => s
  | (some (pa, x), s) =>
    let y := x.setHold (x.hold - 1)
    if y.hold = 0 ∧ y.held = true then
      (s.putHeader d pa x (y.setHeld false)).ringAppend d
        (BitVec.ofNat 64 (h.toNat % 2 ^ 57 + y.gen * 2 ^ 57))
    else s.putHeader d pa x y

/-! ### Reclamation (R401, R405) -/

/-- A raw slot of an object under a root. -/
def State.slotWord (s : State) (d : Nat) (root : Option Word) (h : Word) (k : Nat) : Option Word × State :=
  let (pa, s) := s.rootPlace root true .read (handleAddr h + 32 + 8 * k)
  match pa with
  | none => (none, s)
  | some pa => let (b, s) := s.dieRead d pa 8; (some (wordOf b), s)

end Sys2Proof.Machine
end

