-- ==== Sys2Proof/Machine/Csr.lean ====
section
/-!
DEFINITION. The CSRs of compute harts (R126, R127, R191) and of director cores (R402, R418, and the RISC-V ones of the
F extension and S-mode, log 6), read and written; and the six csr forms.
-/

namespace Sys2Proof.Machine

/-! ### Compute harts -/

/-- The stream and the field of a stream CSR number (R191). -/
def streamCsr (c : Nat) : Option (Nat × Nat) :=
  if 0x820 ≤ c ∧ c ≤ 0x83F ∧ (c - 0x820) % 8 ≤ 5 then some ((c - 0x820) / 8, (c - 0x820) % 8) else none

/-- A house CSR (R126). -/
def houseCsr (c : Nat) : Bool := c == 0x806 || decide (0x840 ≤ c ∧ c ≤ 0x844)

/-- What a CSR reads as on a hart; none where the number is not implemented. -/
def csrGet (s : State) (n c : Nat) : Option Word :=
  let h := s.hart n
  match c with
  | 0x800 => some (h.vflags.zeroExtend 64)
  | 0x801 => some (h.venab.zeroExtend 64)
  | 0x802 => some (h.vrm.zeroExtend 64)
  | 0x803 => some h.dmask
  | 0x804 => some (h.depmask.zeroExtend 64)
  | 0x805 => some (h.gmode.zeroExtend 64)
  | 0x806 => some (h.fpsup.zeroExtend 64)
  | 0x810 => some h.lp0.lps
  | 0x811 => some h.lp0.lpe
  | 0x812 => some h.lp0.lpc
  | 0x813 => some h.lp1.lps
  | 0x814 => some h.lp1.lpe
  | 0x815 => some h.lp1.lpc
  | 0x840 => some (h.tcause.zeroExtend 64)
  | 0x841 => some h.tepc
  | 0x842 => some h.tval
  | 0x843 => some h.tvec
  | 0x844 => some h.cueptr
  | 0xC00 => some s.cycle
  | 0xC01 => some s.time
  | 0xC02 => some h.instret
  | 0xCC0 => some (h.rgen.zeroExtend 64)
  | c => (streamCsr c).map fun p => ((h.stream p.1).csrs).getD p.2 0

/-- The number may be written in the hart's mode (R126, R191). -/
def csrWritable (h : Hart) (c : Nat) : Bool :=
  if c = 0xC00 ∨ c = 0xC01 ∨ c = 0xC02 ∨ c = 0xCC0 then false
  else if (streamCsr c).isSome then h.house
  else true

/-- Clear the low `n` bits. -/
def clearLow (w : Word) (n : Nat) : Word := (w >>> n) <<< n

/-- The checks of R190 that concern the values a stream holds: not x0, no other active stream on the register, and a
landing-buffer source has no strides and reads. -/
def Hart.bindOk (h : Hart) (k : Nat) (t : Stream) : Bool :=
  !(t.reg == 0 && !t.isV)
    && !(h.streams.any fun p => p.1 != k && p.2.act && p.2.isV == t.isV && p.2.reg == t.reg)
    && !(t.landing && (t.stra != 0 || t.strb != 0 || t.write))

/-- Unbind a stream: its pin is released, its read-ahead dropped, act and ovf cleared, and its register holds the last
element moved, or zero (R196). An inactive stream is left alone. -/
def State.unbind (s : State) (n k : Nat) : State :=
  let h := s.hart n
  let t := h.stream k
  if !t.act then s
  else
    let last := t.last.getD []
    let h := h.setStream k { (t.setAct false).setOvf false with ahead := [], pin := none }
    let h := if t.isV then h.putV t.reg (vecOf last) t.fmt false else h.putX t.reg (t.extend last) false
    -- a poisoned last element keeps its poison in a read-bound register
    let h := if t.write || t.last.isNone then h
      else if t.isV then { h with v := KMap.set {} h.v t.reg.toNat (KMap.get {} (s.hart n).v t.reg.toNat) }
      else { h with x := KMap.set {} h.x t.reg.toNat (KMap.get {} (s.hart n).x t.reg.toNat) }
    (s.setHart n h).unpin t.pin

/-- A house-mode write of a stream CSR (R191): the fields take their values; a write of 1 to sctl.act binds the stream
if the checks pass, and a write of 0 unbinds it. -/
def State.writeStreamCsr (s : State) (n k f : Nat) (v : Word) : State :=
  let set (g : Stream → Stream) : State := s.setHart n ((s.hart n).setStream k (g ((s.hart n).stream k)))
  match f with
  | 0 => set fun t => { t with base := v }
  | 1 => set fun t => { t with stra := v }
  | 2 => set fun t => { t with strb := v }
  | 3 => set fun t => { t with cnt := v }
  | 4 =>
    let s := s.unbind n k
    let h := s.hart n
    let t := { h.stream k with ctl := v &&& ctlMask, moved := 0, last := none }
    let t := t.setAct (v.getLsbD 31 && h.bindOk k t)
    s.setHart n (h.setStream k t)
  | _ => set fun t => { t with pos := v }

/-- Write a CSR of a hart; reserved bits are ignored (R80). -/
def State.csrPut (s : State) (n c : Nat) (v : Word) : State :=
  let set (g : Hart → Hart) : State := s.setHart n (g (s.hart n))
  match c with
  | 0x800 => set fun h => { h with vflags := v.extractLsb' 0 5 }
  | 0x801 => set fun h => { h with venab := v.extractLsb' 0 5 }
  | 0x802 => set fun h => { h with vrm := v.extractLsb' 0 3 }
  | 0x803 => set fun h => { h with dmask := v &&& ~~~1#64 }
  | 0x804 => set fun h => { h with depmask := v.extractLsb' 0 32 &&& ~~~1#32 }
  | 0x805 => set fun h => { h with gmode := v.extractLsb' 0 2 }
  | 0x806 => if (v.extractLsb' 0 18).toNat < Config.harts then set fun h => { h with fpsup := v.extractLsb' 0 18 } else s
  | 0x810 => set fun h => { h with lp0 := { h.lp0 with lps := clearLow v 1 } }
  | 0x811 => set fun h => { h with lp0 := { h.lp0 with lpe := clearLow v 1 } }
  | 0x812 => set fun h => { h with lp0 := { h.lp0 with lpc := v } }
  | 0x813 => set fun h => { h with lp1 := { h.lp1 with lps := clearLow v 1 } }
  | 0x814 => set fun h => { h with lp1 := { h.lp1 with lpe := clearLow v 1 } }
  | 0x815 => set fun h => { h with lp1 := { h.lp1 with lpc := v } }
  | 0x840 => set fun h => { h with tcause := v.extractLsb' 0 8 }
  | 0x841 => set fun h => { h with tepc := clearLow v 1 }
  | 0x842 => set fun h => { h with tval := v }
  | 0x843 => set fun h => { h with tvec := clearLow v 2 }
  | 0x844 => set fun h => { h with cueptr := clearLow v 6 }
  | c =>
    match streamCsr c with
    | some (k, f) => s.writeStreamCsr n k f v
    | none => s

/-! ### Director cores -/

/-- txstat: in-flight entries, failed ones among them, and bodies in the tensor issue buffer (R402). -/
def Dir.txstat (c : Dir) : Word :=
  BitVec.ofNat 64 (c.flight.length * 0x10000 + (c.flight.filter fun e => e.failed.isSome).length * 0x80 +
    c.tib.length)

/-- sstatus as software reads it: SD from FS, UXL 2 (log 6). -/
def Dir.sstatusOut (c : Dir) : Word :=
  let w := c.sstatus ||| 0x200000000
  if (c.sstatus.extractLsb' 13 2) == 3 then w ||| 0x8000000000000000 else w

/-- The writable bits of sstatus: SIE, SPIE, SPP, FS, SUM, MXR. -/
def sstatusMask : Word := 0xC6122

/-- The implemented bits of sie: the family's software, timer and external interrupts, and 16 and 17 of R402 and
R423; and of senvcfg, the family's FIOM (R80, log 6). -/
def sieMask : Word := 0x30222
def senvcfgMask : Word := 1

/-- A number of S-mode only. -/
def sOnlyCsr (c : Nat) : Bool :=
  [0x100, 0x104, 0x105, 0x106, 0x10A, 0x140, 0x141, 0x142, 0x143, 0x144, 0x180, 0x5C0, 0x5C1, 0xDC0].contains c
    || decide (0x5D0 ≤ c ∧ c ≤ 0x5DB)

/-- The floating-point unit is on (sstatus.FS, log 6). -/
def Dir.fpOn (c : Dir) : Bool := c.sstatus.extractLsb' 13 2 != 0
def Dir.fpDirty (c : Dir) : Dir := { c with sstatus := c.sstatus ||| 0x6000 }

/-- What a CSR reads as on director core `d` in its mode; none where it is illegal. Number 0xC00 counts the cycles of the
counter a hart reads (log 115). -/
def dirCsrGet (s : State) (d c : Nat) : Option Word :=
  let x := s.dir d
  if x.user && sOnlyCsr c then none
  else
    let counter (bit : Nat) (v : Word) : Option Word := if x.user && !x.scounteren.getLsbD bit then none else some v
    let fp (v : Word) : Option Word := if x.fpOn then some v else none
    match c with
    | 0x001 => fp (x.fflags.zeroExtend 64)
    | 0x002 => fp (x.frm.zeroExtend 64)
    | 0x003 => fp ((x.frm ++ x.fflags).zeroExtend 64)
    | 0x100 => some x.sstatusOut
    | 0x104 => some x.sie
    | 0x105 => some x.stvec
    | 0x106 => some x.scounteren
    | 0x10A => some x.senvcfg
    | 0x140 => some x.sscratch
    | 0x141 => some x.sepc
    | 0x142 => some x.scause
    | 0x143 => some x.stval
    | 0x144 => some (s.pendingIrq d)
    | 0x180 => some x.satp
    | 0xC00 => counter 0 s.cycle
    | 0xC01 => counter 1 s.time
    | 0xC02 => counter 2 x.instret
    | 0xCC1 => some (BitVec.ofNat 64 (d * 2 ^ 32 + x.txseq.toNat))
    | 0xCC2 => some (BitVec.ofNat 64 ((if x.permit then 2 ^ 63 else 0) + x.fillSite.toNat * 2 ^ 32 + x.fillShape.toNat))
    | 0x5C0 => some x.hrbase
    | 0x5C1 => some (BitVec.ofNat 64 (x.hrsize.toNat * 2 ^ 32 + x.hrhead.toNat * 2 ^ 16 + x.hrtail.toNat))
    | 0xDC0 => some x.txstat
    | c =>
      if 0x5D0 ≤ c ∧ c ≤ 0x5D3 then
        let q := s.qset (c - 0x5D0)
        some (BitVec.ofNat 64 ((if q.hold then 2 ^ 63 else 0) + q.owner.toNat * 2 ^ 56 + q.jsize.toNat * 2 ^ 32 + q.jtail.toNat))
      else if 0x5D4 ≤ c ∧ c ≤ 0x5D7 then some (s.qset (c - 0x5D4)).jlbase
      else if 0x5D8 ≤ c ∧ c ≤ 0x5DB then some ((s.qset (c - 0x5D8)).jlhead.zeroExtend 64)
      else none

def dirCsrWritable (c : Nat) : Bool := !([0xC00, 0xC01, 0xC02, 0xCC1, 0xCC2, 0xDC0].contains c)

/-- A set gets an owner: what another thread had begun to serve, it serves no more (R425). -/
def State.newOwner (s : State) (set : Nat) (d : BitVec 4) : State :=
  if (s.qset set).owner = d then s
  else { s with
    kept := s.kept.filter fun k => k.queue / 64 != set
    serving := s.serving.filter fun q => q / 64 != set }
/-- Write a queue-set CSR (R418); reserved bits and out-of-range sizes leave their fields. -/
def State.qsetPut (s : State) (c : Nat) (v : Word) : State :=
  if 0x5D0 ≤ c ∧ c ≤ 0x5D3 then
    let q := s.qset (c - 0x5D0)
    let z := (v.extractLsb' 32 5).toNat
    (s.newOwner (c - 0x5D0) (v.extractLsb' 56 4)).setQset (c - 0x5D0) { q with
      hold := v.getLsbD 63
      owner := v.extractLsb' 56 4
      jsize := if 6 ≤ z ∧ z ≤ 16 then v.extractLsb' 32 5 else q.jsize }
  else if 0x5D4 ≤ c ∧ c ≤ 0x5D7 then s.setQset (c - 0x5D4) { s.qset (c - 0x5D4) with jlbase := clearLow v 5 }
  else if 0x5D8 ≤ c ∧ c ≤ 0x5DB then s.setQset (c - 0x5D8) { s.qset (c - 0x5D8) with jlhead := v.extractLsb' 0 32 }
  else s

/-- Write a CSR of a director core. -/
def State.dirCsrPut (s : State) (d c : Nat) (v : Word) : State :=
  let set (g : Dir → Dir) : State := s.setDir d (g (s.dir d))
  match c with
  | 0x001 => set fun x => { x with fflags := v.extractLsb' 0 5 }.fpDirty
  | 0x002 => set fun x => { x with frm := v.extractLsb' 0 3 }.fpDirty
  | 0x003 => set fun x => { x with fflags := v.extractLsb' 0 5, frm := v.extractLsb' 5 3 }.fpDirty
  | 0x100 => set fun x => { x with sstatus := v &&& sstatusMask }
  | 0x104 => set fun x => { x with sie := v &&& sieMask }
  | 0x105 => set fun x => { x with stvec := v &&& ~~~2#64 }
  | 0x106 => set fun x => { x with scounteren := v &&& 0xFFFFFFFF }
  | 0x10A => set fun x => { x with senvcfg := v &&& senvcfgMask }
  | 0x140 => set fun x => { x with sscratch := v }
  | 0x141 => set fun x => { x with sepc := clearLow v 1 }
  | 0x142 => set fun x => { x with scause := v }
  | 0x143 => set fun x => { x with stval := v }
  | 0x144 => set fun x => { x with sip := (x.sip &&& ~~~2#64) ||| (v &&& 2) }
  | 0x180 =>
    let mode := (v.extractLsb' 60 4).toNat
    if mode = 0 ∨ mode = 10 then set fun x => { x with satp := v } else s
  | 0x5C0 => set fun x => { x with hrbase := clearLow v 3 }
  | 0x5C1 =>
    let z := (v.extractLsb' 32 5).toNat
    let s := set fun x => { x with
      hrsize := if 4 ≤ z ∧ z ≤ 16 then v.extractLsb' 32 5 else x.hrsize
      hrhead := v.extractLsb' 16 16 }
    s.flushRing d (s.dir d).appends.length
  | c => s.qsetPut c v

/-! ### The csr forms (R45, R126, R128) -/

/-- What a csr form writes, from the old value and its operand. -/
inductive CsrOp where
  | write
  | set
  | clear
deriving DecidableEq, Repr

def CsrOp.new (o : CsrOp) (old v : Word) : Word :=
  match o with
  | .write => v
  | .set => old ||| v
  | .clear => old &&& ~~~v

/-- A csr form: the old value, or none where it is illegal. -/
def csrRead (s : State) (a : Agent) (c : Nat) (writes : Bool) : Option Word :=
  match a with
  | .hart n =>
    if (!(s.hart n).house && houseCsr c) || (writes && !csrWritable (s.hart n) c) then none else csrGet s n c
  | .dir d => if writes && !dirCsrWritable c then none else dirCsrGet s d c

/-- A csr form: legality, the operand, the write, then rd := the old value. -/
def csrForm (o : CsrOp) (rd : Reg) (c : BitVec 12) (writes : Bool) (operand : Ins Word) (a : Agent) : Ins Ctl := do
  match ← Ins.get fun s => csrRead s a c.toNat writes with
  | none => .stop .illegal
  | some old =>
    let v ← operand
    if writes then
      Ins.upd fun s =>
        match a with
        | .hart n => s.csrPut n c.toNat (o.new old v)
        | .dir d => s.dirCsrPut d c.toNat (o.new old v)
    a.writeX rd old
    pure (.seq)

def execCsrrw (rd : Reg) (csr : BitVec 12) (rs1 : Reg) (s : State) : Host.Outcome State Fault Refusal :=
  runBoth (.csrrw rd csr rs1) (fun a => csrForm .write rd csr true (a.useX rs1) a) s
def execCsrrs (rd : Reg) (csr : BitVec 12) (rs1 : Reg) (s : State) : Host.Outcome State Fault Refusal :=
  runBoth (.csrrs rd csr rs1) (fun a => csrForm .set rd csr (rs1 != 0) (a.useX rs1) a) s
def execCsrrc (rd : Reg) (csr : BitVec 12) (rs1 : Reg) (s : State) : Host.Outcome State Fault Refusal :=
  runBoth (.csrrc rd csr rs1) (fun a => csrForm .clear rd csr (rs1 != 0) (a.useX rs1) a) s
def execCsrrwi (rd : Reg) (csr : BitVec 12) (z : BitVec 5) (s : State) : Host.Outcome State Fault Refusal :=
  runBoth (.csrrwi rd csr z) (fun a => csrForm .write rd csr true (pure (z.zeroExtend 64)) a) s
def execCsrrsi (rd : Reg) (csr : BitVec 12) (z : BitVec 5) (s : State) : Host.Outcome State Fault Refusal :=
  runBoth (.csrrsi rd csr z) (fun a => csrForm .set rd csr (z != 0) (pure (z.zeroExtend 64)) a) s
def execCsrrci (rd : Reg) (csr : BitVec 12) (z : BitVec 5) (s : State) : Host.Outcome State Fault Refusal :=
  runBoth (.csrrci rd csr z) (fun a => csrForm .clear rd csr (z != 0) (pure (z.zeroExtend 64)) a) s

/-- The house code writes sctl of a stream (R191). -/
def execStreamCsrBind (hart k : Nat) (v : BitVec 64) (s : State) : Host.Outcome State Fault Refusal :=
  happen (if hart < Config.harts ∧ k < 4 ∧ (s.hart hart).house = true then s.writeStreamCsr hart k 4 v else s)

end Sys2Proof.Machine
end

