-- ==== Sys2Proof/Machine/Protection.lean ====
section
/-!
DEFINITION. Allocation (R271-R276), the reuse rule and the sweepers (R279, R280), and the release of forensic entries
(R285).
-/

namespace Sys2Proof.Machine

/-! ### The generation counter (R271, R280) -/

/-- Tables of a cluster: banks 0 to 15, then the accumulator store. -/
def State.table (s : State) (cluster unit : Nat) : KMap Alloc :=
  if unit < 16 then (s.core (16 * cluster + unit)).alloc else (s.cluster cluster).accAlloc
def State.setTable (s : State) (cluster unit : Nat) (t : KMap Alloc) : State :=
  if unit < 16 then s.setCore (16 * cluster + unit) { s.core (16 * cluster + unit) with alloc := t }
  else s.setCluster cluster { s.cluster cluster with accAlloc := t }

/-- The value is held by an entry, live or forensic-retired. -/
def State.held (s : State) (cluster : Nat) (g : BitVec 16) : Bool :=
  (List.range 17).any fun u => (s.table cluster u).any fun e => e.2.st != .free && e.2.gen == g

/-- The next value upwards. -/
def nextValue (g : BitVec 16) : BitVec 16 := if g = 65535 then 1 else g + 1

/-- The next value upwards that is not held: no more entries hold one than the tables have. -/
def State.nextFree (s : State) (cluster : Nat) : Nat → BitVec 16 → BitVec 16
  | 0, g => nextValue g
  | k + 1, g => if s.held cluster (nextValue g) then s.nextFree cluster k (nextValue g) else nextValue g

/-- Entries of the 17 tables of a cluster. -/
def allEntries : Nat := 16 * 16 + 8

def State.nextGen (s : State) (cluster : Nat) : BitVec 16 := s.nextFree cluster allEntries (s.cluster cluster).kgen

/-- The reuse rule admits the value (R280): no sweeper still owes it a pass. -/
def State.admits (s : State) (cluster : Nat) (g : BitVec 16) : Bool :=
  !((s.cluster cluster).reuse.any fun r => r.gen == g && r.passes.any fun p => p != 2)

/-- The allocation that held a value has ended: every sweeper must make a pass that begins after now. -/
def State.endGen (s : State) (cluster : Nat) (g : BitVec 16) : State :=
  let k := s.cluster cluster
  s.setCluster cluster { k with reuse := (k.reuse.filter fun r => r.gen != g) ++ [⟨g, List.replicate 17 0⟩] }

/-! ### Handles (R272) -/

def handle (unit index : Nat) (a : Alloc) : Word :=
  BitVec.ofNat 64 (a.gen.toNat * 2 ^ 48 + index * 2 ^ 44 + (if unit = 16 then 2 ^ 43 else 0) +
    (if a.sealed then 2 ^ 42 else 0) + (if a.forensic then 2 ^ 41 else 0) +
    (if unit = 16 then 0 else unit * 2 ^ 37) + a.len * 2 ^ 17 + a.base)

/-- The table and entry a handle names, where all its fields match a live one (R275). -/
def State.named (s : State) (cluster : Nat) (h : Word) : Option (Nat × Nat × Alloc) :=
  let acc := h.getLsbD 43
  let bank := bits h.toNat 37 4
  let unit := if acc then 16 else bank
  let i := bits h.toNat 44 4
  let a := KMap.get {} (s.table cluster unit) i
  if a.st == .live && a.gen.toNat == bits h.toNat 48 16 && a.base == bits h.toNat 0 17 && a.len == bits h.toNat 17 13
      && (!acc || bank == 0) then some (unit, i, a) else none

/-! ### salloc and salloc.a (R274) -/

/-- Entry `a` overlaps the range of `len` granules at `base`. -/
def Alloc.overlaps (a : Alloc) (base len : Nat) : Bool :=
  a.st != .free && decide (a.base < base + 32 * len ∧ base < a.base + 32 * a.len)

/-- The partition permits forensic allocation (R440). -/
def State.forensicOk (s : State) (cluster : Nat) : Bool :=
  ((s.partOfCluster cluster).map fun p => p.2.dbg.getLsbD 0).getD false

/-- Take an entry of a table for a range: the status codes of R274, or the handle. `size` is the entries of the table;
its last entry is never taken in cue mode. -/
def allocate (n unit size : Nat) (ok forensic : Bool) (base len : Nat) (rd : Reg) : Ins Ctl := do
  let k := hartCluster n
  let s ← Ins.get id
  let t := s.table k unit
  let last := if (s.hart n).house then size else size - 1
  if !ok then writeX n rd 3
  else if forensic && !s.forensicOk k then writeX n rd 4
  else if t.any fun e => e.2.overlaps base len then writeX n rd 2
  else
    match (List.range last).find? fun i => (KMap.get {} t i).st == .free with
    | none => writeX n rd 1
    | some i => do
      let g := s.nextGen k
      if !s.admits k g then .stop .stall
      let a : Alloc := ⟨.live, base, len, g, false, forensic⟩
      Ins.upd fun s =>
        let s := s.setTable k unit (KMap.set {} t i a)
        s.setCluster k { s.cluster k with kgen := g }
      writeX n rd (handle unit i a)
  pure (.seq)

def execSalloc (rd rs1 rs2 : Reg) (s : State) : Host.Outcome State Fault Refusal :=
  runCompute (.salloc rd rs1 rs2) (fun n => do
    let (b, l) ← useX2 n rs1 rs2
    let b := b.toNat
    let l := l.toNat
    let len := bits l 0 18
    let ok := b % 32 == 0 && len % 32 == 0 && decide (32 ≤ len ∧ len ≤ 131072 ∧ b + len ≤ 0x20000) && bits l 18 45 == 0
    allocate n (coreOf n % 16) 16 ok (bits l 63 1 == 1) b (len / 32) rd) s

def execSallocA (rd rs1 rs2 : Reg) (s : State) : Host.Outcome State Fault Refusal :=
  runCompute (.sallocA rd rs1 rs2) (fun n => do
    let (b, l) ← useX2 n rs1 rs2
    let b := b.toNat
    let l := l.toNat
    let rows := bits l 0 9
    let ok := decide (1 ≤ rows ∧ rows ≤ 256 ∧ b + rows ≤ 256) && bits l 9 54 == 0
    allocate n 16 8 ok (bits l 63 1 == 1) (512 * b) (16 * rows) rd) s

/-! ### sfree (R275) -/

/-- A tile lies in an allocation. -/
def Tile.inside (t : Tile) (a : Alloc) : Bool := decide (a.base ≤ t.base ∧ t.base < a.base + 32 * a.len)

/-- The bank granules of an allocation. -/
def Alloc.holds (a : Alloc) (core loc : Nat) : Bool :=
  !locIsMem loc && locCore loc == core && decide (a.base ≤ 32 * locIdx loc ∧ 32 * locIdx loc < a.base + 32 * a.len)

/-- Free a live entry: its tiles go, its seal is cleared, a forensic one is retired, and kgen moves on. No copy made under
the allocation outlives it, so that none is read under a later one with the same value (R278). -/
def State.freeEntry (s : State) (cluster unit i : Nat) (a : Alloc) : State :=
  let s :=
    if unit < 16 then
      let c := s.core (16 * cluster + unit)
      (s.setCore (16 * cluster + unit) { c with
        tiles := c.tiles.filter fun t => !((t.2.map fun x => x.inside a).getD false) }).forget (a.holds (16 * cluster + unit))
    else s
  let t := s.table cluster unit
  let s := s.setTable cluster unit (KMap.set {} t i (if a.forensic then { a with st := .retired, sealed := false } else {}))
  let s := if a.forensic then s else s.endGen cluster a.gen
  s.setCluster cluster { s.cluster cluster with kgen := s.nextGen cluster }

def execSfree (rd rs1 : Reg) (s : State) : Host.Outcome State Fault Refusal :=
  runCompute (.sfree rd rs1) (fun n => do
    let h ← useX n rs1
    let k := hartCluster n
    match ← Ins.get fun s => s.named k h with
    | none => writeX n rd 1
    | some (unit, i, a) =>
      if !(← hartOf n).house && i == (if unit = 16 then 7 else 15) then writeX n rd 2
      else do
        Ins.upd fun s => s.freeEntry k unit i a
        writeX n rd 0
    pure (.seq)) s

/-! ### gen.rd (R276) -/

def State.genRd (s : State) (n : Nat) (x : Word) (sel : Nat) : Word :=
  let k := hartCluster n
  let covered (unit off : Nat) : Word :=
    match covering (s.table k unit) off with
    | some (i, a) => handle unit i a
    | none => 0
  match sel, spaceOf (coreOf n) x.toNat with
  | 0, .bank c off => covered (c % 16) off
  | 1, .bank c off =>
    let loc := locBank c (off / 32)
    let g := s.homeGran loc
    BitVec.ofNat 64 (g.tag.toNat + (if g.poison then 2 ^ 16 else 0) + (if g.current (s.coverGen loc) then 2 ^ 17 else 0))
  | 2, _ => (s.cluster k).kgen.zeroExtend 64
  | 3, _ => if x.toNat < 0x20000 then covered 16 x.toNat else 0
  | _, _ => 0

def execGenRd (rd rs1 : Reg) (sel : BitVec 2) (s : State) : Host.Outcome State Fault Refusal :=
  runCompute (.genRd rd rs1 sel) (fun n => do
    let x ← useX n rs1
    writeX n rd (← Ins.get fun s => s.genRd n x sel.toNat)
    pure (.seq)) s

/-! ### The sweepers (R279, R280) -/

/-- A pass of sweeper `u` begins, or is complete, for the values that wait for it. -/
def Reuse.mark (r : Reuse) (u fro til : Nat) : Reuse :=
  { r with passes := r.passes.mapIdx fun i p => if i = u ∧ p = fro then til else p }

/-- A granule as the sweeper leaves it: cleared unless current, or in a forensic-retired entry. -/
def sweepGran (t : KMap Alloc) (off : Nat) (g : Gran) : Gran :=
  let live := (covering t off).map fun e => e.2.gen
  let kept := t.any fun e => e.2.st == .retired && decide (e.2.base ≤ off ∧ off < e.2.base + 32 * e.2.len)
  if g.current live || kept then g else {}

/-- One visit of sweeper `u` of a cluster (16: the accumulator store). -/
def State.sweep (s : State) (cluster u : Nat) : State :=
  let t := s.table cluster u
  let at_ := if u < 16 then (s.core (16 * cluster + u)).sweep else (s.cluster cluster).accSweep
  let k := s.cluster cluster
  let reuse := if at_ = 0 then k.reuse.map fun r => r.mark u 0 1 else k.reuse
  let reuse := if at_ = 4095 then (reuse.map fun r => r.mark u 1 2).filter fun r => r.passes.any fun p => p != 2 else reuse
  let s := s.setCluster cluster { k with reuse := reuse }
  if u < 16 then
    let c := s.core (16 * cluster + u)
    s.setCore (16 * cluster + u) { c with
      gran := KMap.set {} c.gran at_ (sweepGran t (32 * at_) (KMap.get {} c.gran at_))
      sweep := (at_ + 1) % 4096 }
  else
    let k := s.cluster cluster
    s.setCluster cluster { k with
      acc := KMap.set {} k.acc at_ (sweepGran t (32 * at_) (KMap.get {} k.acc at_))
      accSweep := (at_ + 1) % 4096 }

def execSweeperVisit (cluster unit : Nat) (s : State) : Host.Outcome State Fault Refusal :=
  happen (if cluster < Config.clusters ∧ unit < 17 then s.sweep cluster unit else s)

/-- Stagehouse releases a forensic-retired entry (R285). -/
def State.releaseForensic (s : State) (cluster table index : Nat) : State :=
  let t := s.table cluster table
  let a := KMap.get {} t index
  if a.st = .retired then (s.setTable cluster table (KMap.set {} t index {})).endGen cluster a.gen else s

def execForensicEntryRelease (cluster table index : Nat) (s : State) : Host.Outcome State Fault Refusal :=
  happen (if cluster < Config.clusters ∧ table < 17 ∧ index < 16 then s.releaseForensic cluster table index else s)

end Sys2Proof.Machine
end

