-- ==== Sys2Proof/Machine/Special.lean ====
section
/-!
DEFINITION. The class 4 functions (R161, R162), vgumbel's noise (R173), log6 (R90 to R93, R118), ternary bytes (R94),
and the splitting of R109.

A logarithm or a power of two of a number that is not a special case is irrational. It is bounded between two
fixed-point numbers from a series with truncated terms; when both bounds round alike, that is the correctly rounded
result. Log 11.
-/

namespace Sys2Proof.Machine

/-! ### Logarithms and powers of two in fixed point with `p` fraction bits -/

/-- Σ over j < n of z^(2j+1) / (2j+1) in fixed point, from the term `t` and the square `z2`. -/
def atanhAux (p z2 : Nat) : Nat → Nat → Nat → Nat → Nat
  | 0, _, _, acc => acc
  | n + 1, t, d, acc => atanhAux p z2 n (t * z2 / 2 ^ p) (d + 2) (acc + t / d)

/-- 2 · atanh(num / den), truncated, for 0 ≤ num / den ≤ 1/3. -/
def atanh2 (p num den : Nat) : Nat :=
  let z := num * 2 ^ p / den
  2 * atanhAux p (z * z / 2 ^ p) (p / 3 + 8) z 1 0

/-- ln 2 in fixed point. -/
def ln2Fix (p : Nat) : Nat := atanh2 p 1 3

/-- log2 of m / 2^s for 2^s ≤ m < 2^(s+1), in fixed point, within `slack` of the exact value. -/
def log2Fix (p s m : Nat) : Nat := atanh2 p (m - 2 ^ s) (m + 2 ^ s) * 2 ^ p / ln2Fix p

/-- More than the error of `log2Fix` and `exp2Fix`, in units of the last place. -/
def slack : Nat := 2 ^ 14

/-- Σ of y^j / j! in fixed point. -/
def expAux (p y : Nat) : Nat → Nat → Nat → Nat → Nat
  | 0, _, _, acc => acc
  | n + 1, t, d, acc => expAux p y n (t * y / 2 ^ p / d) (d + 1) (acc + t)

/-- 2^(f / 2^p) for 0 ≤ f < 2^p, in fixed point. -/
def exp2Fix (p f : Nat) : Nat := expAux p (f * ln2Fix p / 2 ^ p) (p / 3 + 8) (2 ^ p) 1 0

/-- Round an irrational known to lie strictly between `lo` and `hi` units of 2^exp: `some` when both ends agree. -/
def roundBetween (f : FFmt) (o : ROpts) (neg : Bool) (lo hi : Nat) (exp : Int) : Option (Nat × Events) :=
  let a := roundExact f o ⟨neg, lo, exp, true⟩
  let b := roundExact f o ⟨neg, hi, exp, true⟩
  if a = b then some a else none

/-- log2 of sig × 2^exp, not a power of two: sign and bounds in units of 2^-p. -/
def log2Bounds (p sig : Nat) (exp : Int) : Bool × Nat × Nat :=
  let s := bitLen sig - 1
  let k : Int := exp + s
  let l : Int := log2Fix p s sig
  let v : Int := k * ((2 ^ p : Nat) : Int) + l
  if 0 ≤ v then (false, v.natAbs - slack, v.natAbs + slack) else (true, v.natAbs - slack, v.natAbs + slack)

/-- Is the number a power of two? -/
def isPow2 (n : Nat) : Bool := n != 0 && n == 2 ^ (bitLen n - 1)

/-- log2 of a positive finite value, correctly rounded. -/
def log2Round (f : FFmt) (o : ROpts) (sig : Nat) (exp : Int) : Nat × Events :=
  if isPow2 sig then intToF f o (exp + ((bitLen sig : Int) - 1))
  else
    let go (p : Nat) : Option (Nat × Events) :=
      let (neg, lo, hi) := log2Bounds p sig exp
      roundBetween f o neg lo hi (-(p : Int))
    match go 240 with
    | some r => r
    | none =>
      match go 480 with
      | some r => r
      | none =>
        let (neg, lo, _) := log2Bounds 480 sig exp
        roundExact f o ⟨neg, lo, -480, true⟩

/-- A dyadic value as an integer part (floor) and a fraction in units of 2^-p, with a mark for what lies below. -/
def splitFloor (p : Nat) (neg : Bool) (sig : Nat) (exp : Int) : Int × Nat × Bool :=
  if 0 ≤ exp then
    let v : Int := sig * 2 ^ exp.toNat
    ((if neg then -v else v), 0, false)
  else
    let n := (-exp).toNat
    let q := sig / 2 ^ n
    let r := sig % 2 ^ n
    if r = 0 then ((if neg then -(q : Int) else q), 0, false)
    else
      let r' := if neg then 2 ^ n - r else r
      let q' : Int := if neg then -(q : Int) - 1 else q
      (q', r' * 2 ^ p / 2 ^ n, r' * 2 ^ p % 2 ^ n != 0)

/-- 2^a for a finite nonzero a, correctly rounded. A magnitude of a above 2^14 is far past every format's range. -/
def exp2Round (f : FFmt) (o : ROpts) (neg : Bool) (sig : Nat) (exp : Int) : Nat × Events :=
  if (bitLen sig : Int) + exp > 14 then
    roundExact f o ⟨false, 2 ^ 200 + 1, (if neg then -20000 else 20000) - 200, true⟩
  else if (bitLen sig : Int) + exp < -190 then
    -- 2^a is 1 plus or minus less than any format can show
    if neg then roundExact f o ⟨false, 2 ^ 200 - 1, -200, true⟩ else roundExact f o ⟨false, 2 ^ 200, -200, true⟩
  else
    let (k, _, _) := splitFloor 0 neg sig exp
    let go (p : Nat) : Nat × Nat :=
      let (_, fr, _) := splitFloor p neg sig exp
      let e := exp2Fix p fr
      (e - slack, e + slack)
    let (_, fr, rest) := splitFloor 240 neg sig exp
    if fr = 0 && !rest then roundExact f o ⟨false, 1, k, false⟩
    else
      let (lo, hi) := go 240
      match roundBetween f o false lo hi (k - 240) with
      | some r => r
      | none =>
        let (lo, hi) := go 480
        match roundBetween f o false lo hi (k - 480) with
        | some r => r
        | none => roundExact f o ⟨false, lo, k - 480, true⟩

/-- 1/√a for a positive finite a: many bits and a mark for the rest. -/
def exactRsqrt (sig : Nat) (exp : Int) : Exact :=
  let odd := exp % 2 != 0
  let s := if odd then sig * 2 else sig
  let e := if odd then exp - 1 else exp
  let k := 120 + bitLen s
  let n := 2 ^ k * 2 ^ k
  let q := n / s
  let r := isqrt q
  ⟨false, r, -(e / 2) - k, r * r != q || n % s != 0⟩

/-! ### The class 4 functions -/

/-- vrcp of R161 and R162. -/
def fRcp (f : FFmt) (o : ROpts) (a : Nat) : Nat × Events :=
  match f.decode (f.flushIn o.fi a) with
  | .nan => (f.nanBits, Events.none)
  | .inf neg => (f.signBit neg, Events.none)
  | .fin neg s e =>
    if s = 0 then (f.signBit neg + f.infBits, { dz := true }) else roundExact f o (exactDiv neg 1 0 s e)

/-- Rounding to nearest even in the format, with no flag kept: an intermediate step of R162. -/
def stepRne (f : FFmt) (r : Nat × Events) : FVal := f.decode r.1

/-- vrsqrt of R161 and R162. -/
def fRsqrt (f : FFmt) (o : ROpts) (a : Nat) : Nat × Events :=
  match f.decode (f.flushIn o.fi a) with
  | .nan => (f.nanBits, Events.none)
  | .inf neg => if neg then (f.nanBits, { nv := true }) else (0, Events.none)
  | .fin neg s e =>
    if s = 0 then (f.signBit neg + f.infBits, { dz := true })
    else if neg then (f.nanBits, { nv := true })
    else if f.ebits = 11 then
      match stepRne f (roundExact f {} (exactSqrt s e)) with
      | .fin _ s1 e1 => roundExact f o (exactDiv false 1 0 s1 e1)
      | _ => (f.nanBits, Events.none)
    else roundExact f o (exactRsqrt s e)

/-- vexp2 of R161 and R162. -/
def fExp2 (f : FFmt) (o : ROpts) (a : Nat) : Nat × Events :=
  match f.decode (f.flushIn o.fi a) with
  | .nan => (f.nanBits, Events.none)
  | .inf neg => if neg then (0, Events.none) else (f.infBits, Events.none)
  | .fin neg s e =>
    if s = 0 then roundExact f o ⟨false, 1, 0, false⟩
    else if f.ebits = 11 then
      if (bitLen s : Int) + e > 14 then exp2Round f o neg s e
      else
        -- k is a rounded to the nearest integer, ties to even; a − k is exact
        let (k, _) := Exact.toInt .rne ⟨neg, s, e, false⟩
        let d := exactAdd .rne neg s e (decide (0 < k)) k.natAbs 0
        let t := if d.sig = 0 then roundExact f {} ⟨false, 1, 0, false⟩ else exp2Round f {} d.neg d.sig d.exp
        match f.decode t.1 with
        | .fin _ ts te => roundExact f o ⟨false, ts, te + k, false⟩
        | _ => (f.nanBits, Events.none)
    else exp2Round f o neg s e

/-- m × 2^k with √½ ≤ m < √2 of R162: is the fraction sig / 2^(len-1) at least √2? -/
def aboveSqrt2 (sig : Nat) : Bool :=
  let s := bitLen sig - 1
  decide (2 * (2 ^ s * 2 ^ s) ≤ sig * sig)

/-- vlog2 of R161 and R162. -/
def fLog2 (f : FFmt) (o : ROpts) (a : Nat) : Nat × Events :=
  match f.decode (f.flushIn o.fi a) with
  | .nan => (f.nanBits, Events.none)
  | .inf neg => if neg then (f.nanBits, { nv := true }) else (f.infBits, Events.none)
  | .fin neg s e =>
    if s = 0 then (f.signBit true + f.infBits, { dz := true })
    else if neg then (f.nanBits, { nv := true })
    else if f.ebits = 11 then
      let l : Int := (bitLen s : Int) - 1
      let k : Int := if aboveSqrt2 s then e + l + 1 else e + l
      match f.decode (log2Round f {} s (e - k)).1 with
      | .fin tn ts te => roundExact f o (exactAdd o.rm (decide (k < 0)) k.natAbs 0 tn ts te)
      | _ => (f.nanBits, Events.none)
    else log2Round f o s e

/-! ### Gumbel noise (R173) -/

/-- The hash of R173 on seed XOR index × constant. -/
def gumbelHash (seed index : Word) : Nat :=
  let x := seed ^^^ (index * 0x9E3779B97F4A7C15#64)
  let x := (x ^^^ (x >>> 30)) * 0xBF58476D1CE4E5B9#64
  let x := (x ^^^ (x >>> 27)) * 0x94D049BB133111EB#64
  let x := x ^^^ (x >>> 31)
  (x >>> 40).toNat

/-- The noise g of R173 as an FP32 word. -/
def gumbel (seed index : Word) : Nat :=
  let h := gumbelHash seed index
  -- u = (2h + 1) / 2^25
  let t := (log2Round fp32 {} (2 * h + 1) (-25)).1
  match fp32.decode (fNeg fp32 t) with
  | .fin _ s e => fNeg fp32 (log2Round fp32 {} s e).1
  | _ => fp32.nanBits

/-! ### log6 -/

/-- T of R90. -/
def log6T (f : Nat) : Nat := if f = 0 then 0x10000 else if f = 1 then 0x13070 else if f = 2 then 0x16A0A else 0x1AE8A

/-- L(c) of R90, for any integer code. -/
def log6L (c : Int) : Exact :=
  let e := c - 16
  ⟨false, log6T (e % 4).toNat, e / 4 - 16, false⟩

/-- Is the element the NaN of R90? -/
def log6IsNan (x : Nat) : Bool := x == 0x20
/-- The code k. -/
def log6K (x : Nat) : Nat := x % 32
/-- The sign. -/
def log6Neg (x : Nat) : Bool := x / 32 % 2 == 1
/-- An element of sign and code; a zero result is the one zero of R90. -/
def log6Mk (neg : Bool) (k : Nat) : Nat := if k = 0 then 0 else (if neg then 32 else 0) + k

/-- Compare two exact magnitudes. -/
def magCmp (a b : Exact) : Ordering :=
  let e := if a.exp ≤ b.exp then a.exp else b.exp
  let x := a.sig * 2 ^ (a.exp - e).toNat
  let y := b.sig * 2 ^ (b.exp - e).toNat
  if x < y then .lt else if y < x then .gt else if a.sticky then .gt else .eq

/-- The member c of R118's ordered set. -/
def log6Member (c : Nat) : Exact := if c = 0 then ⟨false, 0, 0, false⟩ else log6L c

/-- The largest member code not above `m`, from `n` down. -/
def log6Floor (m : Exact) : Nat → Nat
  | 0 => 0
  | n + 1 => if magCmp (log6Member (n + 1)) m != .gt then n + 1 else log6Floor m n

/-- What an overflow of log6 delivers (R86). -/
def log6Overflow (rm : RM) (sat neg : Bool) : Nat :=
  let max := log6Mk neg 31
  if sat then max
  else match rm with
    | .rne | .rmm => 0x20
    | .rtz => max
    | .rdn => if neg then 0x20 else max
    | .rup => if neg then max else 0x20

/-- Round a magnitude to log6 (R118, R86, R87). -/
def log6Round (rm : RM) (sat : Bool) (m : Exact) : Nat × Events :=
  if m.sig = 0 then (0, Events.none)
  else
    let c := log6Floor { m with neg := false } 40
    let lo := log6Member c
    let hi := log6Member (c + 1)
    let exact := magCmp m lo == .eq
    let s := exactAdd .rne false lo.sig lo.exp false hi.sig hi.exp
    let half := magCmp m ⟨false, s.sig, s.exp - 1, false⟩
    let up := !exact && roundsUp rm m.neg (c % 2 == 1) true half
    let r := if up then c + 1 else c
    let tiny := magCmp m (log6L 1) == .lt
    if r ≥ 32 then (log6Overflow rm sat m.neg, { of := true, nx := true })
    else (log6Mk m.neg r, { uf := tiny && !exact, nx := !exact })

/-- The product of R92. -/
def log6Mul (rm : RM) (sat : Bool) (a b : Nat) : Nat × Events :=
  let neg := log6Neg a != log6Neg b
  if log6IsNan a || log6IsNan b then (0x20, Events.none)
  else if log6K a = 0 || log6K b = 0 then (0, Events.none)
  else
    let c : Int := (log6K a : Int) + log6K b - 16
    if c ≥ 32 then (log6Overflow rm sat neg, { of := true, nx := true })
    else if c ≥ 1 then (log6Mk neg c.toNat, Events.none)
    else
      let r := log6Round rm sat { log6L c with neg := neg }
      (r.1, { uf := true, nx := true })

/-- The five elements of a packed word; a word with bits [31:30] nonzero reads as zeros and raises invalid (R91). -/
def log6Elem (w e : Nat) : Nat := if w / 2 ^ 30 % 4 = 0 then bits w (6 * e) 6 else 0
/-- Is the word reserved content (R91)? -/
def log6Bad (w : Nat) : Bool := w / 2 ^ 30 % 4 != 0

/-- The signed term of R93 for a pair of elements, none for a NaN pair. -/
def log6Term (x y : Nat) : Option Int :=
  if log6IsNan x || log6IsNan y then none
  else if log6K x = 0 || log6K y = 0 then some 0
  else
    let e : Int := (log6K x : Int) + log6K y - 32
    let t : Nat := log6T (e % 4).toNat * 2 ^ (e / 4 + 8).toNat
    some (if log6Neg x != log6Neg y then -(t : Int) else t)

/-- The value of an element: none for NaN. -/
def log6Val (x : Nat) : Option Exact :=
  if log6IsNan x then none
  else if log6K x = 0 then some ⟨false, 0, 0, false⟩
  else some { log6L (log6K x) with neg := log6Neg x }

/-- log6 to float of R116. -/
def log6ToF (dst : FFmt) (o : ROpts) (x : Nat) : Nat × Events :=
  match log6Val x with
  | none => (dst.nanBits, Events.none)
  | some v => roundExact dst o v

/-- Float to log6 of R116. -/
def fToLog6 (src : FFmt) (o : ROpts) (a : Nat) : Nat × Events :=
  match src.decode (src.flushIn o.fi a) with
  | .nan => (0x20, Events.none)
  | .inf neg => if o.sat then (log6Mk neg 31, Events.none) else (0x20, { nv := true })
  | .fin neg s e => log6Round o.rm o.sat ⟨neg, s, e, false⟩

/-! ### Ternary bytes (R94, R95) -/

/-- Digit i of a ternary byte. -/
def tritDigit (b i : Nat) : Nat := b / 3 ^ i % 3
/-- Is the byte reserved (R95)? -/
def tritBad (b : Nat) : Bool := decide (243 ≤ b)
/-- Trit i of a ternary byte as −1, 0 or 1; a reserved byte reads as zeros. -/
def tritVal (b i : Nat) : Int :=
  if tritBad b then 0 else
  match tritDigit b i with
  | 1 => 1
  | 2 => -1
  | _ => 0
/-- The digit of a trit. -/
def tritDigitOf (v : Int) : Nat := if v = 1 then 1 else if v = -1 then 2 else 0

/-! ### Outlier splitting (R109, R170) -/

/-- One part of R109: the value truncated to the format, saturating, and the exact residual. -/
def splitPart (f : FFmt) (x : Exact) : Nat × Exact :=
  let (w, _) := roundExact f { rm := .rtz, sat := true } x
  match f.decode w with
  | .fin n s e => (w, exactAdd .rne x.neg x.sig x.exp (!n) s e)
  | _ => (w, x)

/-- Part j (0, 1, 2) of the split, and the residual after it. -/
def splitAt (f : FFmt) : Nat → Exact → Nat × Exact
  | 0, x => splitPart f x
  | j + 1, x => splitAt f j (splitPart f x).2

end Sys2Proof.Machine
end

