-- ==== Sys2Proof/Machine/Vector.lean ====
section
/-!
DEFINITION. What every vector form shares (R149-R151): lanes, the reads and their checks in order, and the write of the
result.
-/

namespace Sys2Proof

/-- The format code of an element. -/
def Elem.n (e : Elem) : Nat := e.code.toNat

end Sys2Proof

namespace Sys2Proof.Machine

/-! ### Lanes (R149) -/

/-- Bits of a lane unit of a format code. -/
def laneBits (f : Nat) : Nat :=
  match f with
  | 1 | 9 => 64
  | 2 | 7 | 10 => 32
  | 3 | 4 | 11 => 16
  | 13 => 128
  | _ => 8
/-- Lane units of a register. -/
def laneCount (f : Nat) : Nat := 512 / laneBits f

/-- Lane i of width w. -/
def lane (w : Nat) (v : Vec) (i : Nat) : Nat := bits v.toNat (w * i) w

/-- A register of lanes of width w. -/
def ofLanes (w : Nat) (ls : List Nat) : Vec := BitVec.ofNat 512 (ls.foldr (fun x acc => x % 2 ^ w + 2 ^ w * acc) 0)

/-- The float format of a code 1 to 6. -/
def ffmt (f : Nat) : FFmt :=
  match f with
  | 1 => fp64
  | 2 => fp32
  | 3 => fp16
  | 4 => bf16
  | 5 => e4m3
  | _ => e5m2

/-! ### Reads and checks (R98, R99, R151) -/

/-- What an instruction has read: v sources, mask, prior destination, x sources, and the OR of their poison. -/
structure Operands where
  vs : List Vec
  mask : Word
  old : Vec
  xs : List Word
  poison : Bool

/-- The v sources with their accepted tags, the mask, the prior destination where it is checked, and the x sources. -/
def readOperands (n : Nat) (o : LOpts) (srcs : List (Reg × List Nat)) (prior : Option (Reg × List Nat)) (xs : List Reg) :
    Ins Operands := do
  let vs ← srcs.mapM fun s => readVAs n s.1 s.2
  let m ← readM n o.m
  let old ← match prior with
    | some (r, t) => readVAs n r t
    | none => pure {}
  let xv ← xs.mapM (readX n)
  pure { vs := vs.map (·.val), mask := m.val, old := old.val, xs := xv.map (·.val)
         poison := vs.any (·.poison) || m.poison || old.poison || xv.any (·.poison) }

/-- The v source at place k. -/
def Operands.v (p : Operands) (k : Nat) : Vec := p.vs.getD k 0
def Operands.x (p : Operands) (k : Nat) : Word := p.xs.getD k 0
def Operands.active (p : Operands) (i : Nat) : Bool := p.mask.getLsbD i

/-- The prior destination is checked under a mask other than m0 (R99). -/
def priorOf (o : LOpts) (vd : Reg) (f : Nat) : Option (Reg × List Nat) := if o.m = 0 then none else some (vd, [f])

/-- The lanes of a result: computed where active, else as they were; and the events of the active ones. -/
def lanesOf (p : Operands) (w cnt : Nat) (f : Nat → Nat × Events) : List Nat × Events :=
  let r := (List.range cnt).map fun i => if p.active i then f i else (lane w p.old i, Events.none)
  (r.map (·.1), r.foldl (fun e x => e.or x.2) Events.none)

/-- Write a v result. -/
def putVec (n : Nat) (i : Instr) (vd : Reg) (val : Vec) (f : Nat) (poison : Bool) (ev : Events) : Ins Ctl := do
  commit n i { window := 0, vs := [(vd, { val := val, fmt := BitVec.ofNat 4 f, poison := poison })], events := ev.toBits }
  pure (.seq)

/-- A lane-wise form: sources of the format, result of the format. -/
def laneOp (n : Nat) (i : Instr) (o : LOpts) (vd : Reg) (f : Nat) (srcs xs : List Reg) (g : Operands → Nat → Nat × Events) :
    Ins Ctl := do
  let p ← readOperands n o (srcs.map fun r => (r, [f])) (priorOf o vd f) xs
  let (ls, ev) := lanesOf p (laneBits f) (laneCount f) (g p)
  putVec n i vd (ofLanes (laneBits f) ls) f p.poison ev

/-- The rounding options of an instruction on a hart; a dynamic mode that is none is illegal (R56). -/
def roundOpts (n : Nat) (o : LOpts) : Ins ROpts := do
  match rmOf o.rm (← hartOf n).vrm with
  | some rm => pure { rm := rm, sat := o.sat, fi := o.flushIn, fo := o.flushOut }
  | none => .stop .illegal

end Sys2Proof.Machine
end

