-- ==== Sys2Proof/Machine/Matrix.lean ====
section
/-!
DEFINITION. The matrix class: configuration (R322, R323), accumulators and their read-out (R319, R320, R333), and the
direct accumulator instructions (R331, R332, R334, R335).
-/

namespace Sys2Proof.Machine

/-! ### The configuration record (R322) -/

/-- A configuration record. -/
abbrev MxCfg := Vec

def MxCfg.f (c : MxCfg) (lo n : Nat) : Nat := bits c.toNat lo n
def MxCfg.pair (c : MxCfg) : Nat := c.f 0 8
def MxCfg.lda (c : MxCfg) : Nat := c.f 64 32
def MxCfg.ldb (c : MxCfg) : Nat := c.f 96 32
def MxCfg.ldc (c : MxCfg) : Nat := c.f 128 32
def MxCfg.ldo (c : MxCfg) : Nat := c.f 160 32
def MxCfg.outf (c : MxCfg) : Nat := c.f 16 4
def MxCfg.dcount (c : MxCfg) : Nat := c.f 32 6
def MxCfg.dside (c : MxCfg) : Bool := c.f 24 1 == 1
def MxCfg.rm (c : MxCfg) : RM := (rmOf (BitVec.ofNat 3 (c.f 8 3)) 0).getD .rne

/-- Cells of an accumulator element (R319). -/
def MxCfg.cw (c : MxCfg) : Nat := if c.pair = 0 ∨ c.pair = 8 then 2 else 1
/-- Bytes of an accumulator element. -/
def MxCfg.cell (c : MxCfg) : Nat := 4 * c.cw
/-- The K-chunk (R319). -/
def MxCfg.chunk (c : MxCfg) : Nat :=
  match c.pair with
  | 0 => 1
  | 1 => 2
  | 2 | 3 => 8
  | 8 | 9 => 32
  | _ => 16

/-- The formats of A and B: codes of R27, 8 for ternary and 12 for int8. -/
def MxCfg.fa (c : MxCfg) : Nat :=
  match c.pair with
  | 0 => 1
  | 1 => 2
  | 2 => 4
  | 3 => 3
  | 4 | 5 => 5
  | 6 | 7 => 6
  | 8 => 7
  | _ => 8
def MxCfg.fb (c : MxCfg) : Nat :=
  match c.pair with
  | 0 => 1
  | 1 => 2
  | 2 => 4
  | 3 => 3
  | 4 | 6 => 5
  | 5 | 7 => 6
  | 8 => 7
  | _ => 12

/-- Bytes of a storage unit, and elements in one (R326). -/
def unitBytes (f : Nat) : Nat := if f = 7 then 4 else if f = 8 then 1 else laneBits f / 8
def unitElems (f : Nat) : Nat := if f = 7 ∨ f = 8 then 5 else 1

/-- The record is faulty (R322). -/
def MxCfg.faulty (c : MxCfg) : Bool :=
  c.f 448 64 != 0 || c.f 417 31 != 0 || c.f 38 26 != 0 || c.f 25 7 != 0 || c.f 21 3 != 0 || c.f 14 2 != 0 ||
    decide (10 ≤ c.pair) || decide (4 < c.f 8 3) ||
    (c.outf == 7 || c.outf == 8 || decide (12 < c.outf)) ||
    c.f 384 32 % 8 != 0 || c.f 320 64 % 8 != 0 || c.f 256 64 % 4 != 0 || (c.dcount == 0 && c.f 256 64 != 0) ||
    decide (48 < c.dcount) || (decide (9 ≤ c.outf) && c.pair == 8) || (c.f 20 1 == 1 && decide (c.outf < 9)) ||
    c.lda % unitBytes c.fa != 0 || c.ldb % unitBytes c.fb != 0 || c.ldc % c.cell != 0

/-! ### Accumulator elements (R320) -/

/-- The format tag of the accumulator. -/
def MxCfg.accFmt (c : MxCfg) : Nat := if c.pair = 0 then 1 else if c.pair = 8 then 9 else if c.pair = 9 then 10 else 2

/-- The rows of a tile, each as first byte and length. -/
def tileRows (base ld len m : Nat) : List (Nat × Nat) := (List.range m).map fun i => (base + i * ld, len)

/-- Two sets of rows share a byte. -/
def rowsMeet (a b : List (Nat × Nat)) : Bool :=
  a.any fun p => b.any fun q => decide (p.1 < q.1 + q.2 ∧ q.1 < p.1 + p.2)

/-- One live allocation of a cluster's store covers the range: its generation, else the first byte it does not cover. -/
def State.accRange (s : State) (cluster lo len : Nat) : Except Nat (BitVec 16) :=
  match covering (s.cluster cluster).accAlloc lo with
  | none => .error lo
  | some (_, a) => if lo + len ≤ a.base + 32 * a.len then .ok a.gen else .error (a.base + 32 * a.len)

/-- The parts of a write to accumulator bytes. -/
def accChunks (off : Nat) (bytes : List Byte) (gen : BitVec 16) (poison : Bool) : List Chunk :=
  ((pieces off bytes.length).foldl (fun (acc : List Chunk × List Byte) p =>
    (acc.1 ++ [{ loc := p.1 / 32, off := p.1 % 32, bytes := acc.2.take p.2, gen := gen, poison := poison }], acc.2.drop p.2))
    ([], bytes)).1

/-- What an accumulator holds: a float, the log6 sum in units of 2^-24, or an integer (R93, R319). -/
def MxCfg.accVal (c : MxCfg) (w : Nat) : FVal :=
  match c.pair with
  | 0 => fp64.decode w
  | 8 => if w = 0x8000000000000000 then .nan else let v := intOf 64 false w; .fin (decide (v < 0)) v.natAbs (-24)
  | 9 => let v := intOf 32 false w; .fin (decide (v < 0)) v.natAbs 0
  | _ => fp32.decode w

/-- An exact product of two values. -/
def mulVal (a b : FVal) : FVal × Events :=
  match a, b with
  | .nan, _ | _, .nan => (.nan, Events.none)
  | .inf x, .inf y => (.inf (x != y), Events.none)
  | .inf x, .fin n s _ | .fin n s _, .inf x => if s = 0 then (.nan, { nv := true }) else (.inf (x != n), Events.none)
  | .fin an as ae, .fin bn bs be => (.fin (an != bn) (as * bs) (ae + be), Events.none)

/-- Read-out of an element to the output format (R333). -/
def MxCfg.readOut (c : MxCfg) (w : Nat) : Nat × Events :=
  let p := mulVal (fp32.decode (c.f 192 32)) (fp32.decode (c.f 224 32))
  let q := mulVal p.1 (c.accVal w)
  let o : ROpts := { rm := c.rm, sat := c.f 11 1 == 1, fo := c.f 13 1 == 1 }
  let r := if c.outf ≤ 6 then valToF (ffmt c.outf) o q.1 else valToInt (laneBits c.outf) (c.f 20 1 == 1) o q.1
  (r.1, (p.2.or q.2).or r.2)

/-! ### Tasks that hold an instruction back (R335) -/

/-- The accumulator cells a task names: none for an area task. -/
def Task.cells (t : Task) : List (Nat × Nat) :=
  if t.area then []
  else tileRows t.dst.toNat (MxCfg.ldc t.cfg) (bits t.dims.toNat 16 16 * MxCfg.cell t.cfg) (bits t.dims.toNat 0 16)

/-- The hart has an unfinished task that names cells of these rows of its cluster's store. -/
def State.accBusy (s : State) (n : Nat) (rows : List (Nat × Nat)) : Bool :=
  (s.slice (hartSlice n)).tasks.any fun t =>
    t.dir.isNone && t.hart == n && t.cluster == hartCluster n && rowsMeet t.cells rows

/-! ### mx.cfg (R323) -/

def execMxCfg (o : LOpts) (xa : Reg) (s : State) : Host.Outcome State Fault Refusal :=
  runCompute (.mxCfg o xa) (fun n => do
    let a := (← useX n xa).toNat
    Ins.deny (a % 64 != 0) cAlign a
    let c := vecOf (← readRecord n a 64)
    Ins.deny (MxCfg.faulty c) cRecord a
    setHartOf n fun h => { h with mxcfg := some c }
    pure (.seq)) s

/-- The hart's configuration; a record fault while it is invalid. -/
def needCfg (n : Nat) : Ins MxCfg := do
  match (← hartOf n).mxcfg with
  | some c => pure c
  | none => .trap cRecord 0

/-! ### mx.zero, mx.ld, mx.st -/

/-- Require a range of the store to be covered by one live allocation: its generation. -/
def needAcc (n lo len : Nat) : Ins (BitVec 16) := do
  match ← Ins.get fun s => s.accRange (hartCluster n) lo len with
  | .ok g => pure g
  | .error off => .trap cUnalloc (accId off)

/-- mx.zero: zeros into the elements of a tile. -/
def execMxZero (o : LOpts) (xc xn : Reg) (s : State) : Host.Outcome State Fault Refusal :=
  let i : Instr := .mxZero o xc xn
  runCompute i (fun n => do
    let x ← readX n xc
    let y ← readX n xn
    if x.poison then .trap cPoison (RegId.x xc).id
    if y.poison then .trap cPoison (RegId.x xn).id
    let c ← needCfg n
    let lo := x.val.toNat
    let d := y.val.toNat
    let m := bits d 0 16
    let len := bits d 16 16 * c.cell
    Ins.deny (m == 0 || len == 0 || bits d 32 32 != 0) cRecord d
    Ins.deny (lo % c.cell != 0 || decide (c.ldc < len)) cRecord lo
    let g ← needAcc n lo ((m - 1) * c.ldc + len)
    let rows := tileRows lo c.ldc len m
    if ← Ins.get fun s => s.accBusy n rows then .stop .stall
    commit n i { window := 0, mx := true, accs := rows.flatMap fun r => accChunks r.1 (List.replicate r.2 0) g false }
    pure (.seq)) s

/-- Accumulator bytes as a hart reads them (R277). -/
def loadAcc (n off len : Nat) : Ins PBytes := do
  let bs ← (pieces off len).mapM fun p => do
    let k ← Ins.get fun s => s.cluster (hartCluster n)
    let g := KMap.get {} k.acc (p.1 / 32)
    let cover := (covering k.accAlloc p.1).map fun e => e.2.gen
    if (← hartOf n).staleTraps && !g.current cover then .trap cStale (accId p.1)
    pure ((getBytes (g.seen cover).data (p.1 % 32) p.2).map fun b => (b, (g.seen cover).poison))
  pure bs.flatten

/-- The first byte of a range of the store that lies in a stale granule: covered, and not current (R277). -/
def Cluster.staleByte (k : Cluster) (lo len : Nat) : Option Nat :=
  ((List.range (if len = 0 then 0 else (lo % 32 + len + 31) / 32)).map fun i => max lo (32 * (lo / 32 + i))).find? fun o =>
    match covering k.accAlloc o with
    | some (_, a) => !(KMap.get {} k.acc (o / 32)).current (some a.gen)
    | none => false

/-- The bytes of a range a register of mx.ld takes: 64, or the cells of the elements it reads out (R332). -/
def MxCfg.perReg (c : MxCfg) (raw : Bool) : Nat :=
  if raw || c.outf == 0 then 64 else min (laneCount c.outf) (16 / c.cw) * c.cell

/-- The element at place e of some accumulator bytes. -/
def accElem (cell : Nat) (bs : List Byte) (e : Nat) : Nat := leNat ((bs.drop (e * cell)).take cell)

/-- mx.ld: raw cells, or elements read out (R332), with its checks in the order of R288: stale granules of the range, where
it is known and no task holds it (R335, log 64), the address, the range, the configuration. -/
def execMxLd (o : LOpts) (raw : Bool) (g : BitVec 2) (vd xc : Reg) (s : State) : Host.Outcome State Fault Refusal :=
  let i : Instr := .mxLd o raw g vd xc
  runCompute i (fun n => do
    let lo := (← useX n xc).toNat
    let k := groupSize g
    let h ← hartOf n
    let len := if raw then 64 * k else ((h.mxcfg.map fun c => k * MxCfg.perReg c raw).getD 0)
    let busy ← Ins.get fun s => s.accBusy n [(lo, len)]
    if h.staleTraps && !busy then
      match ← Ins.get fun s => (s.cluster (hartCluster n)).staleByte lo len with
      | some o => .trap cStale (accId o)
      | none => pure ()
    Ins.deny (lo % 64 != 0) cAlign (accId lo)
    if raw then do let _ ← needAcc n lo (64 * k)
    let c ← needCfg n
    let plain := raw || c.outf == 0
    let per := c.perReg raw
    let _ ← needAcc n lo (k * per)
    if busy then .stop .stall
    let bs ← loadAcc n lo (k * per)
    let one (r : Nat) : (Vec × Bool) × Events :=
      let b := (bs.drop (r * per)).take per
      let v := PBytes.bytes b
      if plain then ((vecOf v, PBytes.poisoned b), Events.none)
      else
        let es := (List.range (per / c.cell)).map fun e => c.readOut (accElem c.cell v e)
        ((ofLanes (laneBits c.outf) (es.map (·.1)), PBytes.poisoned b), es.foldl (fun a x => a.or x.2) Events.none)
    let fmt := BitVec.ofNat 4 (if plain then c.accFmt else c.outf)
    let rs := (List.range k).map one
    let regs := (group vd k).zip rs
    commit n i {
      window := 0, mx := true
      vs := regs.map fun r => (r.1, { val := r.2.1.1, fmt := fmt, poison := r.2.1.2 })
      events := (rs.foldl (fun a r => a.or r.2) Events.none).toBits }
    pure (.seq)) s

/-- mx.st: the registers of a group, whole (R334), with its checks in the order of R288; without a configuration there is
no format to match. -/
def execMxSt (o : LOpts) (g : BitVec 2) (vs xc : Reg) (s : State) : Host.Outcome State Fault Refusal :=
  let i : Instr := .mxSt o g vs xc
  runCompute i (fun n => do
    let k := groupSize g
    let tags := match (← hartOf n).mxcfg with
      | some c => [MxCfg.accFmt c]
      | none => List.range 16
    let rs ← (group vs k).mapM fun r => do pure (r, ← readVAs n r tags)
    let x ← readX n xc
    match rs.find? fun r => r.2.poison with
    | some r => .trap cPoison (RegId.v r.1).id
    | none => pure ()
    Ins.deny x.poison cPoison (RegId.x xc).id
    let lo := x.val.toNat
    Ins.deny (lo % 64 != 0) cAlign (accId lo)
    let gen ← needAcc n lo (64 * k)
    let _ ← needCfg n
    if ← Ins.get fun s => s.accBusy n [(lo, 64 * k)] then .stop .stall
    commit n i { window := 0, mx := true, accs := accChunks lo (rs.flatMap fun r => vecBytes r.2.val) gen false }
    pure (.seq)) s

end Sys2Proof.Machine
end

