-- ==== Sys2Proof/Machine/VecArith.lean ====
section
/-!
DEFINITION. Classes 1, 2 and 4: floating point (R153, R154), integer and bitwise (R155-R157), compare, select and mask
logic (R158-R160), special functions (R161, R162), log6 (R171, R172) and Gumbel noise (R173).
-/

namespace Sys2Proof.Machine

/-! ### Floating point -/

/-- A rounded form of one, two or three lanes. -/
def fpOp (n : Nat) (i : Instr) (o : LOpts) (f : BitVec 4) (vd : Reg) (srcs : List Reg)
    (g : FFmt → ROpts → List Nat → Nat × Events) : Ins Ctl := do
  let r ← roundOpts n o
  let k := f.toNat
  laneOp n i o vd k srcs [] fun p j => g (ffmt k) r (p.vs.map fun v => lane (laneBits k) v j)

/-- A function of the first two lanes. -/
def two (g : FFmt → ROpts → Nat → Nat → Nat × Events) (f : FFmt) (o : ROpts) (l : List Nat) : Nat × Events :=
  g f o (l.getD 0 0) (l.getD 1 0)

def execVaddFp (o : LOpts) (f : BitVec 4) (vd va vb : Reg) (s : State) : Host.Outcome State Fault Refusal :=
  let i : Instr := .vaddFp o f vd va vb
  runCompute i (fun n => fpOp n i o f vd [va, vb] (two fAdd)) s
def execVsubFp (o : LOpts) (f : BitVec 4) (vd va vb : Reg) (s : State) : Host.Outcome State Fault Refusal :=
  let i : Instr := .vsubFp o f vd va vb
  runCompute i (fun n => fpOp n i o f vd [va, vb] (two fSub)) s
def execVmulFp (o : LOpts) (f : BitVec 4) (vd va vb : Reg) (s : State) : Host.Outcome State Fault Refusal :=
  let i : Instr := .vmulFp o f vd va vb
  runCompute i (fun n => fpOp n i o f vd [va, vb] (two fMul)) s
def execVdiv (o : LOpts) (f : BitVec 4) (vd va vb : Reg) (s : State) : Host.Outcome State Fault Refusal :=
  let i : Instr := .vdiv o f vd va vb
  runCompute i (fun n => fpOp n i o f vd [va, vb] (two fDiv)) s
def execVfma (o : LOpts) (f : BitVec 4) (vd va vb vc : Reg) (s : State) : Host.Outcome State Fault Refusal :=
  let i : Instr := .vfma o f vd va vb vc
  runCompute i (fun n => fpOp n i o f vd [va, vb, vc] fun f r l => fFma f r false (l.getD 0 0) (l.getD 1 0) (l.getD 2 0)) s
def execVfms (o : LOpts) (f : BitVec 4) (vd va vb vc : Reg) (s : State) : Host.Outcome State Fault Refusal :=
  let i : Instr := .vfms o f vd va vb vc
  runCompute i (fun n => fpOp n i o f vd [va, vb, vc] fun f r l => fFma f r true (l.getD 0 0) (l.getD 1 0) (l.getD 2 0)) s
def execVsqrt (o : LOpts) (f : BitVec 4) (vd va : Reg) (s : State) : Host.Outcome State Fault Refusal :=
  let i : Instr := .vsqrt o f vd va
  runCompute i (fun n => fpOp n i o f vd [va] fun f r l => fSqrt f r (l.getD 0 0)) s
def execVminFp (o : LOpts) (f : BitVec 4) (vd va vb : Reg) (s : State) : Host.Outcome State Fault Refusal :=
  let i : Instr := .vminFp o f vd va vb
  runCompute i (fun n => fpOp n i o f vd [va, vb] (two fun f r a b => (fMinMax f false r.fi a b, Events.none))) s
def execVmaxFp (o : LOpts) (f : BitVec 4) (vd va vb : Reg) (s : State) : Host.Outcome State Fault Refusal :=
  let i : Instr := .vmaxFp o f vd va vb
  runCompute i (fun n => fpOp n i o f vd [va, vb] (two fun f r a b => (fMinMax f true r.fi a b, Events.none))) s

/-! ### Special functions (R161, R162) -/

def execVrcp (o : LOpts) (f : BitVec 4) (vd va : Reg) (s : State) : Host.Outcome State Fault Refusal :=
  let i : Instr := .vrcp o f vd va
  runCompute i (fun n => fpOp n i o f vd [va] fun f r l => fRcp f r (l.getD 0 0)) s
def execVrsqrt (o : LOpts) (f : BitVec 4) (vd va : Reg) (s : State) : Host.Outcome State Fault Refusal :=
  let i : Instr := .vrsqrt o f vd va
  runCompute i (fun n => fpOp n i o f vd [va] fun f r l => fRsqrt f r (l.getD 0 0)) s
def execVexp2 (o : LOpts) (f : BitVec 4) (vd va : Reg) (s : State) : Host.Outcome State Fault Refusal :=
  let i : Instr := .vexp2 o f vd va
  runCompute i (fun n => fpOp n i o f vd [va] fun f r l => fExp2 f r (l.getD 0 0)) s
def execVlog2 (o : LOpts) (f : BitVec 4) (vd va : Reg) (s : State) : Host.Outcome State Fault Refusal :=
  let i : Instr := .vlog2 o f vd va
  runCompute i (fun n => fpOp n i o f vd [va] fun f r l => fLog2 f r (l.getD 0 0)) s

/-- vgumbel (R173). -/
def execVgumbel (o : LOpts) (vd va xs xb : Reg) (s : State) : Host.Outcome State Fault Refusal :=
  let i : Instr := .vgumbel o vd va xs xb
  runCompute i (fun n => do
    let r ← roundOpts n o
    laneOp n i o vd 2 [va] [xs, xb] fun p j =>
      fAdd fp32 r (lane 32 (p.v 0) j) (gumbel (p.x 0) (p.x 1 + BitVec.ofNat 64 j))) s

/-! ### log6 (R171, R172) -/

/-- The product of two packed words. -/
def log6Word (rm : RM) (sat : Bool) (a b : Nat) : Nat × Events :=
  let r := (List.range 5).map fun e => log6Mul rm sat (log6Elem a e) (log6Elem b e)
  let ev := r.foldl (fun v x => v.or x.2) Events.none
  (r.foldr (fun x acc => x.1 + 64 * acc) 0, ev.or { nv := log6Bad a || log6Bad b })

def execVlmul (o : LOpts) (vd va vb : Reg) (s : State) : Host.Outcome State Fault Refusal :=
  let i : Instr := .vlmul o vd va vb
  runCompute i (fun n => do
    let r ← roundOpts n o
    laneOp n i o vd 7 [va, vb] [] fun p j => log6Word r.rm r.sat (lane 32 (p.v 0) j) (lane 32 (p.v 1) j)) s

/-- The marker of a NaN pair in an accumulator of vldot. -/
def dotMarker : Nat := 0x8000000000000000

/-- An accumulator and the words a lane adds: none where a pair is NaN. -/
def dotLane (acc : Nat) (ws : List (Nat × Nat)) : Nat × Events :=
  let terms := ws.flatMap fun p => (List.range 5).map fun e => log6Term (log6Elem p.1 e) (log6Elem p.2 e)
  let bad := ws.any fun p => log6Bad p.1 || log6Bad p.2
  let sum : Option Int := terms.foldl (fun a t => match a, t with | some a, some t => some (a + t) | _, _ => none) (some 0)
  (match sum with
    | none => dotMarker
    | some v => if acc = dotMarker then dotMarker else wrapInt 64 (intOf 64 false acc + v), { nv := bad })

/-- vldot (R172): vd is read as a source after both groups (log 106). -/
def execVldot (o : LOpts) (g : BitVec 2) (vd va vb : Reg) (s : State) : Host.Outcome State Fault Refusal :=
  let i : Instr := .vldot o g vd va vb
  runCompute i (fun n => do
    let k := groupSize g
    let srcs := (group va k).map (fun r => (r, [7])) ++ (group vb k).map (fun r => (r, [7])) ++ [(vd, [9])]
    let p ← readOperands n o srcs none []
    let acc := p.v (2 * k)
    let p := { p with old := acc }
    let (ls, ev) := lanesOf p 64 8 fun j =>
      dotLane (lane 64 acc j) ((List.range k).flatMap fun r =>
        [(lane 32 (p.v r) (2 * j), lane 32 (p.v (k + r)) (2 * j)),
         (lane 32 (p.v r) (2 * j + 1), lane 32 (p.v (k + r)) (2 * j + 1))])
    putVec n i vd (ofLanes 64 ls) 9 p.poison ev) s

/-! ### Integer and bitwise (R155-R157) -/

/-- A form on two integer lanes of width w. -/
def intOp (n : Nat) (i : Instr) (o : LOpts) (f : Nat) (vd va vb : Reg) (g : Nat → Nat → Nat → Nat) : Ins Ctl :=
  laneOp n i o vd f [va, vb] [] fun p j =>
    let w := laneBits f
    (g w (lane w (p.v 0) j) (lane w (p.v 1) j), Events.none)

/-- An exact result, wrapped or clamped. -/
def arith (e : Elem) (sat : Bool) (g : Int → Int → Int) (w a b : Nat) : Nat :=
  intToInt w e.uns sat (g (intOf w e.uns a) (intOf w e.uns b))

def execVaddInt (o : LOpts) (e : Elem) (vd va vb : Reg) (s : State) : Host.Outcome State Fault Refusal :=
  let i : Instr := .vaddInt o e vd va vb
  runCompute i (fun n => intOp n i o e.n vd va vb (arith e o.sat (· + ·))) s
def execVsubInt (o : LOpts) (e : Elem) (vd va vb : Reg) (s : State) : Host.Outcome State Fault Refusal :=
  let i : Instr := .vsubInt o e vd va vb
  runCompute i (fun n => intOp n i o e.n vd va vb (arith e o.sat (· - ·))) s
def execVmulInt (o : LOpts) (e : Elem) (vd va vb : Reg) (s : State) : Host.Outcome State Fault Refusal :=
  let i : Instr := .vmulInt o e vd va vb
  runCompute i (fun n => intOp n i o e.n vd va vb (arith e o.sat (· * ·))) s

/-- Less than under the signedness of a format. -/
def elemLt (e : Elem) (w a b : Nat) : Bool := decide (intOf w e.uns a < intOf w e.uns b)

def execVminInt (o : LOpts) (e : Elem) (vd va vb : Reg) (s : State) : Host.Outcome State Fault Refusal :=
  let i : Instr := .vminInt o e vd va vb
  runCompute i (fun n => intOp n i o e.n vd va vb fun w a b => if elemLt e w b a then b else a) s
def execVmaxInt (o : LOpts) (e : Elem) (vd va vb : Reg) (s : State) : Host.Outcome State Fault Refusal :=
  let i : Instr := .vmaxInt o e vd va vb
  runCompute i (fun n => intOp n i o e.n vd va vb fun w a b => if elemLt e w a b then b else a) s
def execVsll (o : LOpts) (f : BitVec 4) (vd va vb : Reg) (s : State) : Host.Outcome State Fault Refusal :=
  let i : Instr := .vsll o f vd va vb
  runCompute i (fun n => intOp n i o f.toNat vd va vb fun w a b => a * 2 ^ (b % w)) s
def execVsrl (o : LOpts) (f : BitVec 4) (vd va vb : Reg) (s : State) : Host.Outcome State Fault Refusal :=
  let i : Instr := .vsrl o f vd va vb
  runCompute i (fun n => intOp n i o f.toNat vd va vb fun w a b => a / 2 ^ (b % w)) s
def execVsra (o : LOpts) (f : BitVec 4) (vd va vb : Reg) (s : State) : Host.Outcome State Fault Refusal :=
  let i : Instr := .vsra o f vd va vb
  runCompute i (fun n => intOp n i o f.toNat vd va vb fun w a b => wrapInt w (intOf w false a / ((2 ^ (b % w) : Nat) : Int))) s

/-- A bitwise form: it checks no format, not that of a register it merges into either, and gives the tag of the first
source (R100, R157). -/
def bitOp (n : Nat) (i : Instr) (o : LOpts) (f : BitVec 4) (vd va vb : Reg) (g : Nat → Nat → Nat) : Ins Ctl := do
  let a ← readV n va
  let any := List.range 16
  let p ← readOperands n o [(va, any), (vb, any)] (if o.m = 0 then none else some (vd, any)) []
  let w := laneBits f.toNat
  let (ls, _) := lanesOf p w (laneCount f.toNat) fun j => (g (lane w (p.v 0) j) (lane w (p.v 1) j), Events.none)
  putVec n i vd (ofLanes w ls) a.fmt.toNat p.poison Events.none

def execVand (o : LOpts) (f : BitVec 4) (vd va vb : Reg) (s : State) : Host.Outcome State Fault Refusal :=
  let i : Instr := .vand o f vd va vb
  runCompute i (fun n => bitOp n i o f vd va vb (· &&& ·)) s
def execVor (o : LOpts) (f : BitVec 4) (vd va vb : Reg) (s : State) : Host.Outcome State Fault Refusal :=
  let i : Instr := .vor o f vd va vb
  runCompute i (fun n => bitOp n i o f vd va vb (· ||| ·)) s
def execVxor (o : LOpts) (f : BitVec 4) (vd va vb : Reg) (s : State) : Host.Outcome State Fault Refusal :=
  let i : Instr := .vxor o f vd va vb
  runCompute i (fun n => bitOp n i o f vd va vb (· ^^^ ·)) s

/-! ### Compare, select, mask logic (R158-R160) -/

/-- The condition codes of R158: the order of two operands, or none where one is NaN. -/
def condOf (cond : Nat) (c : Option Ordering) : Bool :=
  match cond, c with
  | 0, some c => c == .eq
  | 1, some c => c != .eq
  | 2, some c => c == .lt
  | 3, some c => c != .gt
  | 4, some c => c == .gt
  | 5, some c => c != .lt
  | 6, some _ => false
  | _, some _ => true
  | 1, none => true
  | 6, none => true
  | _, none => false

/-- Write a mask of `cnt` compared lanes: the bits of inactive lanes are kept, the bits above are zero. -/
def putCompare (n : Nat) (i : Instr) (o : LOpts) (md : BitVec 3) (srcs : List (Reg × List Nat)) (cnt : Nat)
    (act : Operands → Nat → Bool) (c : Operands → Nat → Bool) : Ins Ctl := do
  let p ← readOperands n o srcs none []
  let old ← if o.m = 0 then pure {} else readM n md
  let ls := (List.range cnt).map fun j => if act p j then c p j else old.val.getLsbD j
  let v := ls.foldr (fun (b : Bool) acc => (if b then 1 else 0) + 2 * acc) 0
  commit n i { window := 0, ms := [((0 : BitVec 2) ++ md, { val := BitVec.ofNat 64 v, poison := p.poison || old.poison })] }
  pure (.seq)

/-- The order of two float words; fi acts on them first. -/
def fOrder (f : FFmt) (fi : Bool) (a b : Nat) : Option Ordering :=
  let a := f.flushIn fi a
  let b := f.flushIn fi b
  if f.isNan a || f.isNan b then none else some (fCmp f a b)

/-- The image of a log6 element (R102). -/
def log6Img (x : Nat) : Nat := if log6K x = 0 then 32 else if log6Neg x then 32 - log6K x else 32 + log6K x

def log6Order (a b : Nat) : Option Ordering :=
  if log6IsNan a || log6IsNan b then none else some (compare (log6Img a) (log6Img b))

def execVcmpFp (o : LOpts) (f : BitVec 4) (cond md : BitVec 3) (va vb : Reg) (s : State) : Host.Outcome State Fault Refusal :=
  let i : Instr := .vcmpFp o f cond md va vb
  runCompute i (fun n =>
    let k := f.toNat
    let srcs := [(va, [k]), (vb, [k])]
    if k = 7 then
      putCompare n i o md srcs 64 (fun p e => p.active (e / 5)) fun p e =>
        condOf cond.toNat (log6Order (log6Elem (lane 32 (p.v 0) (e / 5)) (e % 5)) (log6Elem (lane 32 (p.v 1) (e / 5)) (e % 5)))
    else
      let w := laneBits k
      putCompare n i o md srcs (laneCount k) (fun p j => p.active j) fun p j =>
        condOf cond.toNat (fOrder (ffmt k) o.flushIn (lane w (p.v 0) j) (lane w (p.v 1) j))) s

def execVcmpInt (o : LOpts) (e : Elem) (cond md : BitVec 3) (va vb : Reg) (s : State) : Host.Outcome State Fault Refusal :=
  let i : Instr := .vcmpInt o e cond md va vb
  runCompute i (fun n =>
    let w := laneBits e.n
    putCompare n i o md [(va, [e.n]), (vb, [e.n])] (laneCount e.n) (fun p j => p.active j) fun p j =>
      condOf cond.toNat (some (compare (intOf w e.uns (lane w (p.v 0) j)) (intOf w e.uns (lane w (p.v 1) j))))) s

/-- vsel (R159); the selector is checked after va and vb, before the mask and vd (log 106). -/
def execVsel (o : LOpts) (f : BitVec 4) (vd va vb : Reg) (ms : BitVec 3) (s : State) : Host.Outcome State Fault Refusal :=
  let i : Instr := .vsel o f vd va vb ms
  runCompute i (fun n => do
    let k := f.toNat
    let w := laneBits k
    let va' ← readVAs n va [k]
    let vb' ← readVAs n vb [k]
    let sel ← readM n ms
    let p ← readOperands n o [] (priorOf o vd k) []
    let (ls, _) := lanesOf p w (laneCount k) fun j =>
      (if sel.val.getLsbD j then lane w va'.val j else lane w vb'.val j, Events.none)
    putVec n i vd (ofLanes w ls) k (p.poison || va'.poison || vb'.poison || sel.poison) Events.none) s

/-- The functions of vmlog (R160). -/
def maskOp (op : Nat) (a b : Word) : Word :=
  match op with
  | 0 => a &&& b
  | 1 => a ||| b
  | 2 => a ^^^ b
  | 3 => a &&& ~~~b
  | 4 => a ||| ~~~b
  | 5 => ~~~(a &&& b)
  | 6 => ~~~(a ||| b)
  | _ => ~~~(a ^^^ b)

def execVmlog (o : LOpts) (op md ma mb : BitVec 3) (s : State) : Host.Outcome State Fault Refusal :=
  let i : Instr := .vmlog o op md ma mb
  runCompute i (fun n => do
    let a ← readM n ma
    let b ← readM n mb
    commit n i { window := 0, ms := [((0 : BitVec 2) ++ md, { val := maskOp op.toNat a.val b.val, poison := a.poison || b.poison })] }
    pure (.seq)) s

/-- Bits set in a word. -/
def popCount (w : Word) : Nat := ((List.range 64).filter fun i => w.getLsbD i).length

def execVmpop (o : LOpts) (xd : Reg) (ma : BitVec 3) (s : State) : Host.Outcome State Fault Refusal :=
  let i : Instr := .vmpop o xd ma
  runCompute i (fun n => do
    let a ← readM n ma
    commit n i { window := 0, xs := [(xd, { val := BitVec.ofNat 64 (popCount a.val), poison := a.poison })] }
    pure (.seq)) s

end Sys2Proof.Machine
end

