-- ==== Sys2Proof/Machine/Tasks.lean ====
section
/-!
DEFINITION. Matrix tasks: their checks (R326, R327, R336, R337), the slice task scheduler (R338, R339), the chunk steps
(R107, R328-R330), read-out of area tasks, and completions (R340-R342).
-/

namespace Sys2Proof.Machine

/-! ### Shapes (R326, R329, R330) -/

def Task.m (t : Task) : Nat := bits t.dims.toNat 0 16
def Task.n (t : Task) : Nat := bits t.dims.toNat 16 16
def Task.k (t : Task) : Nat := bits t.dims.toNat 32 32
/-- The task's configuration. -/
def Task.c (t : Task) : MxCfg := t.cfg

/-- Kept elements of a group of 48 (R329). -/
def Task.kept (t : Task) : Nat := if t.c.f 416 1 = 1 then 12 else 24
/-- Positions of a row of A, and of B. -/
def Task.posA (t : Task) : Nat := t.k + (if t.c.dside then 0 else t.c.dcount)
def Task.posB (t : Task) : Nat := t.k + (if t.c.dside then t.c.dcount else 0)
/-- Bytes of `p` positions in a format. -/
def rowLen (f p : Nat) : Nat := (p + unitElems f - 1) / unitElems f * unitBytes f

def Task.rowA (t : Task) (i : Nat) : Nat := addrAdd t.a.toNat (i * t.c.lda)
def Task.rowB (t : Task) (j : Nat) : Nat := addrAdd t.b.toNat (j * t.c.ldb)
def Task.lenA (t : Task) : Nat :=
  if t.sparse then (t.k + 47) / 48 * t.kept * unitBytes t.c.fa else rowLen t.c.fa t.posA
def Task.lenB (t : Task) : Nat := rowLen t.c.fb t.posB

/-- The output rows of an area task. -/
def Task.rowOut (t : Task) (i : Nat) : Nat := addrAdd t.dst.toNat (i * t.c.ldo)
def Task.outSize (t : Task) : Nat := laneBits t.c.outf / 8

/-- Every row a task reads, or writes out, in memory. -/
def Task.ranges (t : Task) : List (Nat × Nat) :=
  (List.range t.m).map (fun i => (t.rowA i, t.lenA)) ++ (List.range t.n).map (fun j => (t.rowB j, t.lenB)) ++
    (if t.area then (List.range t.m).map fun i => (t.rowOut i, t.n * t.outSize) else [])

/-- A range lies in scratchpad. -/
def inBank (core : Nat) (r : Nat × Nat) : Bool := match spaceOf core r.1 with | .bank .. => true | _ => false

/-- The task area of a store (R321). -/
def areaBase : Nat := 224 * 512

/-- Where element (i, j) accumulates. -/
def Task.accOff (t : Task) (i j : Nat) : Nat :=
  if t.area then areaBase + (i * t.n + j) * t.c.cell else t.dst.toNat + i * t.c.ldc + j * t.c.cell

/-! ### Checks at issue (R327, R337) -/

/-- What a check finds: a faulty record, dims, a sparse use, the accumulator operand, an alignment, or an uncovered
range of the store or of a bank. -/
inductive TaskErr where
  | faulty
  | dims
  | sparse
  | acc
  | align (a : Nat)
  | store (off : Nat)
  | pad (a : Nat)
deriving DecidableEq, Repr

def Task.dimsBad (t : Task) : Bool := t.m == 0 || t.n == 0 || t.k == 0 || decide (2 ^ 24 < t.k)

/-- The checks of R327 from the dims on, for a task with its configuration; the generations recorded. -/
def State.checkTask (s : State) (t : Task) : Except TaskErr Task :=
  let c := t.c
  let len := t.n * c.cell
  if t.dimsBad then .error .dims
  else if t.sparse && (decide (c.pair < 2 ∨ 7 < c.pair) || c.dcount != 0) then .error .sparse
  else if (if t.area then decide (16384 < t.m * len) || c.outf == 0 else t.dst.toNat % c.cell != 0 || decide (c.ldc < len)) then
    .error .acc
  else if t.a.toNat % unitBytes c.fa ≠ 0 then .error (.align t.a.toNat)
  else if t.b.toNat % unitBytes c.fb ≠ 0 then .error (.align t.b.toNat)
  else
    match (if t.area then .ok 0 else s.accRange t.cluster t.dst.toNat ((t.m - 1) * c.ldc + len)) with
    | .error off => .error (.store off)
    | .ok g =>
      match s.recordRanges t.core t.ranges [] with
      | .error e => .error (.pad e.2)
      | .ok gens => .ok { t with
          gens := gens, accGen := g
          anywhere := t.area && !(t.ranges.any (inBank t.core)) }

/-- A tile-task record into a task; none where it is faulty (R336). -/
def Task.ofRecord (t : Task) (r : Vec) : Option Task :=
  let f (lo n : Nat) : Nat := bits r.toNat lo n
  let area := f 19 1 == 1
  if f 0 8 ≠ 1 ∨ f 8 9 ≠ 0 ∨ f 24 8 ≠ 0 ∨ f 393 7 ≠ 0 ∨ f 409 7 ≠ 0 ∨ f 425 23 ≠ 0 ∨ 6 ≤ f 20 3 ∨ f 320 64 % 64 ≠ 0 then none
  else some { t with
    op := 3, a := r.extractLsb' 64 64, b := r.extractLsb' 128 64, dims := r.extractLsb' 192 64, dst := r.extractLsb' 256 64
    area := area, zero := area || f 18 1 == 1, sparse := f 17 1 == 1, pub := f 20 3, cmpl := f 23 1 == 1, tag := f 32 32
    waits := (if f 392 1 = 1 then [(f 384 8, f 448 32)] else []) ++ (if f 408 1 = 1 then [(f 400 8, f 480 32)] else [])
    sig := if f 424 1 = 1 then some (f 416 8) else none }

/-- An operand row, or a map or mask in use, lies in an own bank: a director's task may not name one (R395). -/
def Task.namesOwn (t : Task) : Bool :=
  (t.ranges.any fun r => isOwn r.1) || (t.c.dcount != 0 && isOwn (bits t.cfg.toNat 256 64)) ||
    (t.sparse && isOwn (bits t.cfg.toNat 320 64))

/-- The scheduler reads the configuration of a record as it accepts the task (R337, R340): a failure is the task's. -/
def State.readCfg (s : State) (t : Task) (a : Nat) : Task × State :=
  let w : Writer := if t.area && !(t.ranges.any (inBank t.core)) then .slice (sliceOf t.cluster) else .cluster t.cluster
  let (b, e, s) := s.engRead w t.core t.root .now a 0 64
  match e with
  | some e => ({ t with status := e.1, addr := e.2 }, s)
  | none =>
    let c := vecOf (PBytes.bytes b)
    (if MxCfg.faulty c then { t with status := 1 } else { t with cfg := c, poisoned := PBytes.poisoned b }, s)

/-- A record's task, checked; the failures of its configuration are already its status. -/
def State.recordTask (s : State) (t : Task) (r : Vec) : Except TaskErr Task × State :=
  match t.ofRecord r with
  | none => (.error .faulty, s)
  | some t =>
    if t.dimsBad then (.error .dims, s)
    -- the bases are known before the configuration is read (R395)
    else if t.dir.isSome && (t.namesOwn || isOwn (bits r.toNat 320 64)) then (.error .faulty, s)
    else
      let (t, s) := s.readCfg t (bits r.toNat 320 64)
      if t.status ≠ 0 then (.ok t, s)
      else if t.dir.isSome && t.namesOwn then (.error .faulty, s)
      else (s.checkTask t, s)

/-- The status and address of a failed check (R341). -/
def TaskErr.status : TaskErr → EngFail
  | .store off => (3, accId off)
  | .pad a => (3, a)
  | _ => (1, 0)

/-- Tasks a slice's scheduler holds (R338). -/
def taskSlots : Nat := 64

def State.taskRoom (s : State) (k : Nat) : Bool := decide ((s.slice k).tasks.length < taskSlots)
def State.addTask (s : State) (k : Nat) (t : Task) : State :=
  s.setSlice k { s.slice k with tasks := (s.slice k).tasks ++ [t] }

/-- What every task of a hart begins from. -/
def State.hartTask (s : State) (n : Nat) : Task :=
  let h := s.hart n
  { hart := n, root := s.rootOf (hartCluster n), core := coreOf n, cluster := hartCluster n, op := 0
    a := 0, b := 0, dst := 0, dims := 0, ticket := h.ticket.toNat
    play := if h.house then none else some h.curPlay, helper := h.helper.isSome }

/-- Hand a checked task of a hart over: a slot, a pin, the next ticket. -/
def submitTask (n : Nat) (t : Task) : Ins Unit := do
  let k := hartSlice n
  if !(← Ins.get fun s => s.taskRoom k) then .stop .stall
  match ← Ins.get fun s => s.takePin n with
  | none => .stop .stall
  | some (pin, s) => do
    Ins.upd fun _ => (s.addTask k { t with pin := pin }).setHart n { s.hart n with ticket := (s.hart n).ticket + 1 }

/-- mx.mma and mx.mmsp (R327). -/
def issueMma (n : Nat) (i : Instr) (op : Nat) (zero cmpl : Bool) (xd xa xb xc xn : Reg) : Ins Ctl := do
  let a ← readX n xa
  let b ← readX n xb
  let c ← readX n xc
  let d ← readX n xn
  match [(xa, a), (xb, b), (xc, c), (xn, d)].find? fun r => r.2.poison with
  | some r => .trap cPoison (RegId.x r.1).id
  | none => pure ()
  let cfg ← needCfg n
  let t0 ← Ins.get fun s => s.hartTask n
  let t : Task := { t0 with
    op := op, a := a.val, b := b.val, dst := c.val, dims := d.val, zero := zero, sparse := op == 2, cmpl := cmpl
    cfg := cfg, tag := t0.ticket }
  match ← Ins.get fun s => s.checkTask t with
  | .error .dims => .trap cRecord d.val.toNat
  | .error .acc => .trap cRecord c.val.toNat
  | .error (.align x) => .trap cAlign x
  | .error (.store off) => .trap cUnalloc (accId off)
  | .error (.pad x) => .trap cUnalloc x
  | .error _ => .trap cRecord 0
  | .ok t => do
    submitTask n t
    commit n i { window := 0, xs := [(xd, { val := BitVec.ofNat 64 t.ticket })] }
    pure (.seq)

def execMxMma (o : LOpts) (zero cmpl : Bool) (xd xa xb xc xn : Reg) (s : State) : Host.Outcome State Fault Refusal :=
  let i : Instr := .mxMma o zero cmpl xd xa xb xc xn
  runCompute i (fun n => issueMma n i 1 zero cmpl xd xa xb xc xn) s
def execMxMmsp (o : LOpts) (zero cmpl : Bool) (xd xa xb xc xn : Reg) (s : State) : Host.Outcome State Fault Refusal :=
  let i : Instr := .mxMmsp o zero cmpl xd xa xb xc xn
  runCompute i (fun n => issueMma n i 2 zero cmpl xd xa xb xc xn) s

/-- mx.task (R337). -/
def execMxTask (o : LOpts) (xd xa : Reg) (s : State) : Host.Outcome State Fault Refusal :=
  let i : Instr := .mxTask o xd xa
  runCompute i (fun n => do
    let a := (← useX n xa).toNat
    let r := vecOf (← readRecord n a 64)
    match ← Ins.act fun s => s.recordTask (s.hartTask n) r with
    | .error (.align x) => .trap cAlign x
    | .error (.store off) => .trap cUnalloc (accId off)
    | .error (.pad x) => .trap cUnalloc x
    | .error _ => .trap cRecord a
    | .ok t => do
      submitTask n t
      commit n i { window := 0, xs := [(xd, { val := BitVec.ofNat 64 t.ticket })] }
      pure (.seq)) s

/-! ### The scheduler (R338) -/

/-- An older task of the same hart that names overlapping cells of the same store. -/
def Task.before (o t : Task) : Bool :=
  o.dir.isNone && t.dir.isNone && o.hart == t.hart && o.cluster == t.cluster && rowsMeet o.cells t.cells

/-- The task at place k is ready. -/
def State.taskReady (s : State) (slice k : Nat) (t : Task) : Bool :=
  let x := s.slice slice
  !x.waiting t && !((x.tasks.take k).any fun o => o.before t) &&
    (t.dir.isSome || !((s.hart t.hart).pending.any fun p => p.mx))

/-- The engine runs no task. -/
def Slice.engineFree (x : Slice) (cluster : Nat) : Bool := !(x.tasks.any fun t => t.engine == some cluster)

/-- The engine a task would start on. -/
def State.taskEngine (s : State) (slice : Nat) (t : Task) : Option Nat :=
  let x := s.slice slice
  if t.anywhere then
    let may : List Nat :=
      match t.dir with
      | some (d, _) => ((s.partOfDir d).map (·.2.clusters)).getD []
      | none => ((t.play.bind s.play?).map (·.clusters)).getD []
    ((List.range 16).map fun i => 16 * slice + i).find? fun c => may.contains c && x.engineFree c
  else if x.engineFree t.cluster then some t.cluster
  else none

/-- The oldest ready task with a free engine, and that engine. -/
def State.issueChoice (s : State) (slice : Nat) : Option (Nat × Nat) :=
  (List.range (s.slice slice).tasks.length).findSome? fun k =>
    match (s.slice slice).tasks[k]? with
    | some t =>
      if t.engine.isNone && t.status == 0 && s.taskReady slice k t then (s.taskEngine slice t).map fun c => (k, c) else none
    | none => none

def State.setTask (s : State) (slice k : Nat) (t : Task) : State :=
  s.setSlice slice { s.slice slice with tasks := (s.slice slice).tasks.set k t }
def State.task? (s : State) (slice k : Nat) : Option Task := (s.slice slice).tasks[k]?

/-- The scheduler issues its choice; an area task takes the generation of the engine's task area. -/
def execTaskIssue (slice k cluster : Nat) (s : State) : Host.Outcome State Fault Refusal :=
  happen (
    if slice < Config.slices ∧ s.issueChoice slice = some (k, cluster) then
      match s.task? slice k with
      | some t =>
        let g := if t.area then ((covering (s.cluster cluster).accAlloc areaBase).map fun e => e.2.gen).getD 0 else t.accGen
        s.setTask slice k { t with engine := some cluster, accGen := g }
      | none => s
    else s)

/-! ### Reading operands (R326, R329, R330) -/

/-- Whose memory the engine reads for: its own cluster, and the core own-bank addresses name. -/
def Task.reader (t : Task) : Writer := .cluster (t.engine.getD t.cluster)
def Task.readCore (t : Task) : Nat := if t.anywhere then 16 * t.engine.getD t.cluster else t.core

/-- An element read: its bits, a packed unit with reserved content, poison. -/
structure Fetched1 where
  val : Nat
  bad : Bool := false
  poison : Bool := false
deriving DecidableEq, Repr

/-- Read position p of a row (R326). -/
def State.fetchPos (s : State) (t : Task) (f row p : Nat) : Except EngFail Fetched1 × State :=
  let u := unitBytes f
  let (b, e, s) := s.engRead t.reader t.readCore t.root (.gens t.gens) row (p / unitElems f * u) u
  match e with
  | some e => (.error e, s)
  | none =>
    let w := leNat (PBytes.bytes b)
    let k := p % unitElems f
    let q := PBytes.poisoned b
    (.ok (if f = 7 then ⟨log6Elem w k, log6Bad w, q⟩
      else if f = 8 then ⟨if tritBad w then 0 else tritDigit w k, tritBad w, q⟩
      else ⟨w, false, q⟩), s)

def countBits (w n : Nat) : Nat := ((List.range n).filter fun i => w.testBit i).length

/-- A position of a compressed row of A: none where its product is dropped (R329). -/
def State.fetchSparse (s : State) (t : Task) (i p : Nat) : Except EngFail (Option Fetched1) × State :=
  let q := p / 48
  let row := addrAdd (bits t.cfg.toNat 320 64) (i * bits t.cfg.toNat 384 32)
  let (b, e, s) := s.engRead t.reader t.readCore t.root .now row (8 * q) 8
  match e with
  | some e => (.error e, s)
  | none =>
    let w := leNat (PBytes.bytes b)
    if 2 ^ 48 ≤ w ∨ countBits w 48 ≠ t.kept then (.error (9, addrAdd row (8 * q)), s)
    else if !w.testBit (p % 48) then (.ok none, s)
    else
      let (r, s) := s.fetchPos t t.c.fa (t.rowA i) (q * t.kept + countBits w (p % 48))
      (r.map fun x => some { x with poison := x.poison || PBytes.poisoned b }, s)

/-- The positions of A and B in a chunk, and whether the map that named one was poisoned. -/
def Task.positions (t : Task) (step : Nat) : List (Nat × Nat × Bool) :=
  let c := t.c.chunk
  let n1 := (t.k + c - 1) / c
  if step < n1 then ((List.range c).map fun i => (step * c + i, step * c + i, false)).filter fun p => decide (p.1 < t.k)
  else
    ((List.range c).map fun i => (step - n1) * c + i).filterMap fun j =>
      (t.dmap[j]?).map fun e =>
        let own := t.k + j
        let src := bits e 0 32
        if t.c.dside then (src, own, e.testBit 32) else (own, src, e.testBit 32)

/-- Chunk steps of an element. -/
def Task.total (t : Task) : Nat :=
  let c := t.c.chunk
  (t.k + c - 1) / c + (t.c.dcount + c - 1) / c

/-! ### One chunk step (R107, R93, R96) -/

/-- The products of a chunk so far: an exact sum, and what else was met. -/
structure ChunkSum where
  sig : Int := 0
  exp : Int := 0
  nan : Bool := false
  invalid : Bool := false
  pos : Bool := false
  neg : Bool := false
  bad : Bool := false
  poison : Bool := false
deriving DecidableEq, Repr

/-- Add an exact term. -/
def ChunkSum.term (d : ChunkSum) (sig exp : Int) : ChunkSum :=
  let e := min d.exp exp
  { d with sig := d.sig * 2 ^ (d.exp - e).toNat + sig * 2 ^ (exp - e).toNat, exp := e }

/-- Add the product of two elements. -/
def ChunkSum.add (c : MxCfg) (d : ChunkSum) (a b : Fetched1) : ChunkSum :=
  let d := { d with bad := d.bad || a.bad || b.bad, poison := d.poison || a.poison || b.poison }
  match c.pair with
  | 8 =>
    match log6Term a.val b.val with
    | some t => d.term t 0
    | none => { d with nan := true }
  | 9 =>
    let x : Int := if a.val = 1 then 1 else if a.val = 2 then -1 else 0
    d.term (x * intOf 8 false b.val) 0
  | _ =>
    let fi := c.f 12 1 == 1
    let p := mulVal ((ffmt c.fa).decode ((ffmt c.fa).flushIn fi a.val)) ((ffmt c.fb).decode ((ffmt c.fb).flushIn fi b.val))
    match p.1 with
    | .nan => if p.2.nv then { d with invalid := true } else { d with nan := true }
    | .inf n => if n then { d with neg := true } else { d with pos := true }
    | .fin n s e => d.term (if n then -(s : Int) else s) e

/-- The accumulator after the chunk; none where it stays as it is. -/
def ChunkSum.step (c : MxCfg) (d : ChunkSum) (acc : Nat) : Option Nat × Events :=
  match c.pair with
  | 8 =>
    (if d.nan then some dotMarker
      else if d.sig = 0 ∨ acc = dotMarker then none
      else some (wrapInt 64 (intOf 64 false acc + d.sig)), { nv := d.bad })
  | 9 => (if d.sig = 0 then none else some (wrapInt 32 (intOf 32 false acc + d.sig)), { nv := d.bad })
  | _ =>
    let f := if c.pair = 0 then fp64 else fp32
    if d.invalid || (d.pos && d.neg) then (some f.nanBits, { nv := true })
    else if d.nan then (some f.nanBits, Events.none)
    else if d.pos || d.neg then
      match f.decode acc with
      | .nan => (some f.nanBits, Events.none)
      | .inf n => if n = d.neg then (some acc, Events.none) else (some f.nanBits, { nv := true })
      | .fin .. => (some (f.signBit d.neg + f.infBits), Events.none)
    else if d.sig = 0 then (none, Events.none)
    else
      match f.decode acc with
      | .nan => (some f.nanBits, Events.none)
      | .inf _ => (some acc, Events.none)
      | .fin n sg e =>
        let r := roundExact f { rm := c.rm } (exactAdd c.rm n sg e (decide (d.sig < 0)) d.sig.natAbs d.exp)
        (some r.1, r.2)

/-- Read and add the products of a list of positions. -/
def State.chunkSum (s : State) (t : Task) (i j : Nat) : List (Nat × Nat × Bool) → ChunkSum → Except EngFail ChunkSum × State
  | [], d => (.ok d, s)
  | p :: rest, d =>
    let (a, s) :=
      if t.sparse then s.fetchSparse t i p.1
      else let (x, s) := s.fetchPos t t.c.fa (t.rowA i) p.1; (x.map some, s)
    match a with
    | .error e => (.error e, s)
    | .ok none => s.chunkSum t i j rest d
    | .ok (some a) =>
      let (b, s) := s.fetchPos t t.c.fb (t.rowB j) p.2.1
      match b with
      | .error e => (.error e, s)
      | .ok b => s.chunkSum t i j rest (d.add t.c { a with poison := a.poison || p.2.2 } b)

/-- An accumulator element as its engine reads it, with its poison (R320). -/
def State.accElemAt (s : State) (cluster off len : Nat) (gen : BitVec 16) : Nat × Bool :=
  let k := s.cluster cluster
  let c := (covering k.accAlloc off).map fun e => e.2.gen
  let g := KMap.get {} k.acc (off / 32)
  let g := if c = some gen then g.seen c else {}
  (leNat (getBytes g.data (off % 32) len), g.poison)

/-- The engine reads the duplication map when the task starts (R330). -/
def State.taskStart (s : State) (t : Task) : Task × State :=
  if t.started then (t, s)
  else
    let t := { t with started := true }
    (List.range t.c.dcount).foldl (fun (acc : Task × State) j =>
      if acc.1.status ≠ 0 then acc
      else
        let (b, e, s) := acc.2.engRead t.reader t.readCore t.root .now (bits t.cfg.toNat 256 64) (4 * j) 4
        match e with
        | some e => ({ acc.1 with status := e.1, addr := e.2 }, s)
        | none =>
          let c := leNat (PBytes.bytes b)
          let p := PBytes.poisoned b
          (if t.k ≤ c then { acc.1 with status := 1 }
            else { acc.1 with dmap := acc.1.dmap ++ [c + (if p then 2 ^ 32 else 0)], poisoned := acc.1.poisoned || p }, s)) (t, s)

/-- One chunk step of element e = i × N + j. -/
def State.accStep (s : State) (t : Task) (e : Nat) : Task × State :=
  let i := e / t.n
  let j := e % t.n
  let k := KMap.get 0 t.steps e
  let off := t.accOff i j
  let cl := t.engine.getD t.cluster
  let (r, s) := s.chunkSum t i j (t.positions k) {}
  match r with
  | .error f => ({ t with status := f.1, addr := f.2 }, s)
  | .ok d =>
    let fresh := t.zero && k == 0
    let (acc, ap) := if fresh then (0, false) else s.accElemAt cl off t.c.cell t.accGen
    let (v, ev) := d.step t.c acc
    let s :=
      if v.isSome || fresh || d.poison then
        (accChunks off (leBytes t.c.cell (v.getD acc)) t.accGen d.poison).foldl (fun s c => s.accWrite cl c) s
      else s
    ({ t with
      steps := KMap.set 0 t.steps e (k + 1), events := t.events ||| ev.toBits, poisoned := t.poisoned || d.poison || ap }, s)

/-- Every element has taken its steps. -/
def Task.accDone (t : Task) : Bool := (List.range (t.m * t.n)).all fun e => KMap.get 0 t.steps e == t.total

/-- Read out one element of an area task to its place in memory (R336). The read-out's own rounding events go nowhere:
R328 counts products and chunk steps only (log 118). -/
def State.outStep (s : State) (t : Task) (e : Nat) : Task × State :=
  let i := e / t.n
  let j := e % t.n
  let (w, p) := s.accElemAt (t.engine.getD t.cluster) (t.accOff i j) t.c.cell t.accGen
  let bs := (leBytes t.outSize (t.c.readOut w).1).map fun b => (b, p)
  let seq := s.seq
  let (_, f, s) := s.engWrite t.reader t.readCore t.root t.gens (t.rowOut i) (j * t.outSize) bs
  let t := { t with cover := t.cover ++ s.writesSince seq }
  match f with
  | some f => ({ t with status := f.1, addr := f.2 }, s)
  | none => ({ t with steps := KMap.set 0 t.steps (t.m * t.n + e) 1 }, s)

/-- The next piece of work of unit e: a chunk step of an element, or, from M × N on, the read-out of one. -/
def State.taskUnit (s : State) (slice k e : Nat) : State :=
  match s.task? slice k with
  | none => s
  | some t =>
    if t.engine.isNone ∨ t.status ≠ 0 then s
    else
      let (t, s) := s.taskStart t
      let done := KMap.get 0 t.steps e
      let (t, s) :=
        if t.status ≠ 0 then (t, s)
        else if e < t.m * t.n then (if done < t.total then s.accStep t e else (t, s))
        else if t.area && decide (e < 2 * (t.m * t.n)) && done == 0 && t.accDone then s.outStep t (e - t.m * t.n)
        else (t, s)
      s.setTask slice k t

/-- `n` pieces of work of a unit. -/
def State.taskWork (s : State) (slice k e : Nat) : Nat → State
  | 0 => s
  | n + 1 => (s.taskUnit slice k e).taskWork slice k e n

/-! ### Completion (R339, R341, R342) -/

/-- All the work that is left: the elements, then the read-out of an area task. -/
def State.taskRest (s : State) (slice k : Nat) : State :=
  match s.task? slice k with
  | none => s
  | some t =>
    let s := (List.range (t.m * t.n)).foldl (fun s e => s.taskWork slice k e t.total) s
    if t.area then (List.range (t.m * t.n)).foldl (fun s e => s.taskUnit slice k (t.m * t.n + e)) s else s

/-- The payload of R341. -/
def Task.payload (t : Task) : Vec :=
  BitVec.ofNat 512 (t.op + 2 ^ 8 * t.status + (if t.poisoned then 2 ^ 16 else 0) + 2 ^ 17 * t.events.toNat + 2 ^ 32 * (t.tag % 2 ^ 32) +
    2 ^ 64 * (t.ticket % 2 ^ 32 + 2 ^ 32 * t.engine.getD t.cluster) + 2 ^ 128 * (t.addr % 2 ^ 64))

/-- The scope the area output is published at. -/
def Task.outScope (t : Task) : Nat :=
  max 1 (max t.pub (if t.dir.isSome then 4 else if t.sig.isSome then 2 else 0))

/-- A token counter goes up, saturating (R339). -/
def State.countToken (s : State) (slice : Nat) (g : Option Nat) : State :=
  match g with
  | none => s
  | some k =>
    let x := s.slice slice
    s.setSlice slice { x with tokens := KMap.set 0 x.tokens k (min (KMap.get 0 x.tokens k + 1) (2 ^ 32 - 1)) }

/-- The task ends: output published, token counted, pin released, completion posted. -/
def State.taskEnd (s : State) (slice k : Nat) : State :=
  match s.task? slice k with
  | none => s
  | some t =>
    let s := s.publishSeqs t.cover (t.reader.widen t.outScope)
    let s := s.setSlice slice { s.slice slice with tasks := (s.slice slice).tasks.eraseIdx k }
    let s := s.countToken slice t.sig
    let s := s.unpin t.pin
    match t.dir with
    | some (d, seq) =>
      let from_ := (t.engine.map fun c => engineId c 1).getD (schedId slice)
      s.report d { sender := from_, seq := seq, status := t.status, payload := t.payload, cover := t.cover }
    | none =>
      if t.status = 0 ∧ t.cmpl = false then s
      else
        match t.engine with
        | some c => s.complete c 1 t.hart t.payload t.cover t.helper
        | none => s.post (schedId slice) t.hart
            { payload := t.payload, side := sideWord 4 0 0 (schedId slice), cover := t.cover, helper := t.helper }

def execTaskCompletion (slice k : Nat) (s : State) : Host.Outcome State Fault Refusal :=
  happen (
    if slice < Config.slices then
      match s.task? slice k with
      | some t =>
        if t.engine.isSome then (s.taskRest slice k).taskEnd slice k
        else if t.status ≠ 0 then s.taskEnd slice k
        else s
      | none => s
    else s)

end Sys2Proof.Machine
end

