-- ==== Sys2Proof/Machine/Director.lean ====
section
/-!
DEFINITION. The director class: bytecode dispatch, object access, guards, inline caches, reference counts and tensor
issue (R373-R400), the hold unit (R398, R399), and what Stagehouse does for a thread (R401-R405, R451).
-/

namespace Sys2Proof.Machine

def dGet (d : Nat) (r : Reg) : Ins Word := do pure ((← dirOf d).getX r)
def dPut (d : Nat) (r : Reg) (v : Word) : Ins Unit := setDirOf d fun c => c.putX r v

/-- A loaded number of `len` bytes. -/
def dLoad (d a len : Nat) : Ins Nat := do pure (leNat (← dirLoad d a len))

/-- Take the exception where the condition holds. -/
def excIf (b : Bool) (code tval : Nat) : Ins Unit := if b then .exc code tval else pure ()

/-! ### Dispatch (R382) -/

def execBcNext (rd rs1 rs2 : Reg) (s : State) : Host.Outcome State Fault Refusal :=
  runDirector (.bcNext rd rs1 rs2) (fun d => do
    let p := (← dGet d rs1).toNat
    let t := (← dGet d rs2).toNat
    excIf (p % 4 != 0) 4 p
    excIf (t % 8 != 0) 4 t
    let w ← dLoad d p 4
    let target ← dLoad d (addrAdd t (8 * (w % 256))) 8
    dPut d rd (BitVec.ofNat 64 w)
    pure (.jump (clearLow64 (BitVec.ofNat 64 target)))) s
where
  /-- Bit 0 cleared. -/
  clearLow64 (w : Word) : Word := w &&& ~~~1#64

/-! ### Object access (R383) -/

/-- The checks of a handle: well-formed, and of its object's generation. -/
def checkHandle (d : Nat) (v : Word) : Ins Header := do
  excIf (!wellFormed v) 25 v.toNat
  let h ← dLoad d (handleAddr v) 8
  excIf (Header.gen h != handleGen v) 24 v.toNat
  pure h

/-- The address of a slot. -/
def slotAddr (d : Nat) (v : Word) (slot : Nat) : Ins Nat := do
  let _ ← checkHandle d v
  let a := handleAddr v
  if slot < 8 then pure (a + 32 + 8 * slot)
  else
    let o := BitVec.ofNat 64 (← dLoad d (a + 24) 8)
    excIf (o == marnorNone) 26 slot
    let _ ← checkHandle d o
    let c := (BitVec.ofNat 64 (← dLoad d (handleAddr o + 16) 8)).sshiftRight 1
    excIf (decide (c.toInt ≤ (slot : Int) - 8)) 26 slot
    pure (handleAddr o + 32 + 8 * (slot - 8))

def execObLd (rd rs1 : Reg) (slot : BitVec 12) (s : State) : Host.Outcome State Fault Refusal :=
  runDirector (.obLd rd rs1 slot) (fun d => do
    let a ← slotAddr d (← dGet d rs1) slot.toNat
    dPut d rd (BitVec.ofNat 64 (← dLoad d a 8))
    pure (.seq)) s
def execObSt (rs2 rs1 : Reg) (slot : BitVec 12) (s : State) : Host.Outcome State Fault Refusal :=
  runDirector (.obSt rs2 rs1 slot) (fun d => do
    let a ← slotAddr d (← dGet d rs1) slot.toNat
    dirWrite d a (wordBytes (← dGet d rs2))
    pure (.seq)) s

/-! ### Guards (R385, R386) -/

/-- The branch of a guard that fails. -/
def guardBody (d : Nat) (off : BitVec 12) (passes : Bool) : Ins Ctl := do
  if passes then pure (.seq)
  else pure (.jump ((← dirOf d).pc + sxHalf off))

def execGdShape (rs1 rs2 : Reg) (off : BitVec 12) (s : State) : Host.Outcome State Fault Refusal :=
  runDirector (.gdShape rs1 rs2 off) (fun d => do
    let v ← dGet d rs1
    let x ← dGet d rs2
    if !wellFormed v then guardBody d off false
    else
      let h ← tryCatch (do pure (some (← dLoad d (handleAddr v) 32))) fun _ => pure none
      guardBody d off (match h with
        | some h => Header.gen h == handleGen v && Header.shape h == bits x.toNat 0 32
        | none => false)) s
def execGdTag (rs1 rs2 : Reg) (off : BitVec 12) (s : State) : Host.Outcome State Fault Refusal :=
  runDirector (.gdTag rs1 rs2 off) (fun d => do
    let v ← dGet d rs1
    let m ← dGet d rs2
    guardBody d off (m.getLsbD (classOf v))) s

/-! ### Inline caches (R387-R390) -/

/-- The miss word. -/
def missWord : Word := 0xFE

/-- The set of a key. -/
def icIndex (site : BitVec 12) (shape : BitVec 32) : Nat :=
  (site ^^^ shape.extractLsb' 0 12 ^^^ shape.extractLsb' 12 12 ^^^ (shape.extractLsb' 24 8).zeroExtend 12).toNat % 1024

/-- The entry has the key. -/
def icMatch (site : BitVec 12) (shape : BitVec 32) (e : Option IcEntry) : Bool :=
  match e with
  | some e => e.site == site && e.shape == shape
  | none => false

def Dir.icFind (c : Dir) (site : BitVec 12) (shape : BitVec 32) : Option IcEntry :=
  ((KMap.get {} c.ic (icIndex site shape)).ways.find? (icMatch site shape)).join

def execIcLd (rd rs1 : Reg) (site : BitVec 12) (s : State) : Host.Outcome State Fault Refusal :=
  runDirector (.icLd rd rs1 site) (fun d => do
    let shape := (← dGet d rs1).extractLsb' 0 32
    match (← dirOf d).icFind site shape with
    | some e => dPut d rd e.result
    | none => do
      setDirOf d fun c => { c with permit := true, fillSite := site, fillShape := shape }
      dPut d rd missWord
    pure (.seq)) s

/-- Fill an entry: the one with the key, else the lowest invalid way, else the one the counter names. -/
def IcSet.fill (t : IcSet) (e : IcEntry) : IcSet :=
  match t.ways.findIdx? (icMatch e.site e.shape) with
  | some k => { t with ways := t.ways.set k (some e) }
  | none =>
    match t.ways.findIdx? (·.isNone) with
    | some k => { t with ways := t.ways.set k (some e) }
    | none => { ways := t.ways.set t.ctr.toNat (some e), ctr := t.ctr + 1 }

def Dir.icFill (c : Dir) (e : IcEntry) : Dir :=
  let i := icIndex e.site e.shape
  { c with ic := KMap.set {} c.ic i ((KMap.get {} c.ic i).fill e) }

def execIcSt (rs2 rs1 : Reg) (site : BitVec 12) (s : State) : Host.Outcome State Fault Refusal :=
  runDirector (.icSt rs2 rs1 site) (fun d => do
    let k ← dGet d rs1
    let r ← dGet d rs2
    excIf (r == missWord) 25 r.toNat
    setDirOf d fun c =>
      let shape := k.extractLsb' 0 32
      let c := if c.permit && c.fillSite == site && c.fillShape == shape then
          c.icFill ⟨site, shape, k.extractLsb' 32 32, r⟩
        else c
      { c with permit := false, fillSite := 0, fillShape := 0 }
    pure (.seq)) s

/-- An invalidation reaches one store. -/
def Dir.icInv (c : Dir) (cls : BitVec 32) : Dir :=
  let keep (e : Option IcEntry) : Option IcEntry :=
    match e with
    | some e => if cls = 0 ∨ e.cls = cls then none else some e
    | none => none
  let ic := c.ic.map fun p => (p.1, { p.2 with ways := p.2.ways.map keep })
  { c with permit := false, ic := ic.filter fun p => p.2 != {} }

/-- An invalidation reaches all 16 stores. -/
def State.icInv (s : State) (cls : BitVec 32) : State :=
  (List.range Config.directors).foldl (fun s d => s.setDir d ((s.dir d).icInv cls)) s

def execIcInv (rs1 : Reg) (s : State) : Host.Outcome State Fault Refusal :=
  runDirector (.icInv rs1) (fun d => do
    let c := (← dGet d rs1).extractLsb' 0 32
    Ins.upd fun s => s.icInv c
    pure (.seq)) s

/-! ### Reference counts (R392) -/

/-- The header of an object, read by an atomic: its page must admit a store (R436; log 41). -/
def atomicHeader (d a : Nat) : Ins Header := do
  let _ ← dirPlaces d .write a 16
  dLoad d a 16

/-- Store the fields of a header that changed. -/
def writeHeader (d a : Nat) (old new : Header) : Ins Unit := (headerWrites a old new).forM fun w => dirWrite d w.1 w.2

/-- rc.inc and rc.dec: `change` gives the header after the action, for a mortal object. -/
def rcBody (d : Nat) (rd rs1 : Reg) (change : Header → Header) : Ins Ctl := do
  let v ← dGet d rs1
  if notHandle v then dPut d rd (BitVec.allOnes 64)
  else
    excIf (!wellFormed v) 25 v.toNat
    let a := handleAddr v
    let h ← atomicHeader d a
    excIf (h.gen != handleGen v) 24 v.toNat
    excIf (h.refs == 0) 27 v.toNat
    let h' := if h.refs = 0xFFFFFFFF then h else change h
    writeHeader d a h h'
    dPut d rd (BitVec.ofNat 64 h'.word1)
  pure (.seq)

def execRcInc (rd rs1 : Reg) (s : State) : Host.Outcome State Fault Refusal :=
  runDirector (.rcInc rd rs1) (fun d => rcBody d rd rs1 fun h => h.setRefs (h.refs + 1)) s
def execRcDec (rd rs1 : Reg) (s : State) : Host.Outcome State Fault Refusal :=
  runDirector (.rcDec rd rs1) (fun d => rcBody d rd rs1 fun h =>
    let h := h.setRefs (h.refs - 1)
    if h.refs = 0 ∧ h.hold ≠ 0 then h.setHeld true else h) s

/-! ### Tensor issue (R394-R397) -/

/-- An issue descriptor (R394), as its eight words. -/
def issueFaulty (w : List Nat) : Bool :=
  let h := w.getD 0 0
  let kind := bits h 0 8
  let nh := bits h 8 3
  let body := w.getD 5 0
  let extra := w.getD 6 0
  kind == 0 || decide (3 < kind) || decide (4 < nh) || decide (767 < bits h 16 10) || bits h 11 5 != 0 || bits h 26 38 != 0
    || ((List.range 4).any fun j => decide (nh ≤ j) && w.getD (1 + j) 0 != 0)
    || body % (if kind = 1 then 8 else 64) != 0
    || (if kind = 3 then decide (255 < extra) else extra != 0)
    || w.getD 7 0 != 0
    || (kind == 3 && bits h 16 10 != 0)

/-- The words of a body. -/
def loadBodyWords (d kind a : Nat) : Ins (List Word) := do
  let n ← match kind with
    | 1 => do pure (cmdWords (BitVec.ofNat 64 (← dLoad d a 8)))
    | 2 => pure 8
    | _ => pure 2
  (List.range n).mapM fun k => do pure (BitVec.ofNat 64 (← dLoad d (addrAdd a (8 * k)) 8))

/-- Take a hold of one handle; false is an issue fault. -/
def takeHold (d : Nat) (v : Word) : Ins Bool := do
  if !wellFormed v then pure false
  else
    let h ← atomicHeader d (handleAddr v)
    if h.gen ≠ handleGen v ∨ h.storage = false ∨ h.refs = 0 ∨ h.hold = 0xFFFFFFFF then pure false
    else do
      writeHeader d (handleAddr v) h (h.setHold (h.hold + 1))
      pure true

/-- Drop holds, as the hold unit does. -/
def State.holdDrops (s : State) (d : Nat) (root : Option Word) (l : List Word) : State :=
  l.foldl (fun s h => s.holdDrop d root h) s

/-- Take the holds in order; at a failure, drop those taken. -/
def takeHolds (d : Nat) (root : Option Word) : List Word → List Word → Ins Unit
  | _, [] => pure ()
  | taken, h :: t => do
    let back : Ins Unit := Ins.upd fun s => s.holdDrops d root taken
    let ok ← tryCatch (takeHold d h) fun e => do back; throw e
    if !ok then
      back
      .exc 28 h.toNat
    takeHolds d root (taken ++ [h]) t

/-- Entries of an in-flight table (R400), and bodies the tensor issue buffer holds (R402). -/
def flightSize : Nat := 256
def tibSize : Nat := 64

/-- The ticket of core d as a small integer (R397). -/
def ticketWord (d : Nat) (seq : BitVec 32) : Word := BitVec.ofNat 64 ((d * 2 ^ 32 + seq.toNat) * 2 + 1)

def execTxIssue (rd rs1 : Reg) (s : State) : Host.Outcome State Fault Refusal :=
  runDirector (.txIssue rd rs1) (fun d => do
    let a := (← dGet d rs1).toNat
    excIf (a % 64 != 0) 4 a
    let w ← (List.range 8).mapM fun k => dLoad d (a + 8 * k) 8
    let kind := bits (w.getD 0 0) 0 8
    let words ← if 1 ≤ kind ∧ kind ≤ 3 then loadBodyWords d kind (w.getD 5 0) else pure []
    excIf (issueFaulty w) 28 a
    excIf (kind == 2 && !(words.getD 0 0).getLsbD 19) 28 a
    let c ← dirOf d
    if flightSize ≤ c.flight.length ∨ tibSize ≤ c.tib.length then .stop .stall
    if (← Ins.get fun s => s.part).isSome then releaseAt (.dir d) 4
    -- the ticket is written before the commit step: an issue fault there leaves it (R38, R396)
    dPut d rd (ticketWord d c.txseq)
    let root := c.root
    let handles := (List.range (bits (w.getD 0 0) 8 3)).map fun j => BitVec.ofNat 64 (w.getD (1 + j) 0)
    takeHolds d root [] handles
    Ins.upd fun s => s.release (.dir d) 4
    let part ← Ins.get fun s => s.partOfDir d
    setDirOf d fun c => { c with
      txseq := c.txseq + 1
      flight := c.flight ++ [{ seq := c.txseq.toNat, handles := handles, root := root }]
      tib := c.tib ++ [{
        kind := kind, dst := if kind = 3 then w.getD 6 0 else bits (w.getD 0 0) 16 10, seq := c.txseq.toNat
        words := words, root := (part.map (·.2.root)).getD 0 }] }
    pure (.seq)) s

/-- tx.wait (R400). -/
def execTxWait (rd rs1 : Reg) (s : State) : Host.Outcome State Fault Refusal :=
  runDirector (.txWait rd rs1) (fun d => do
    let v ← dGet d rs1
    let t := v.toNat / 2
    if v = marnorNone then
      refreshAt (.dir d) 4
      dPut d rd 0
    else
      excIf (!v.getLsbD 0 || bits t 36 28 != 0 || v.getLsbD 63) 25 v.toNat
      let n := bits t 32 4
      let q := bits t 0 32
      let c ← dirOf n
      if (BitVec.ofNat 32 q - c.txseq).toNat < 2 ^ 31 then dPut d rd (BitVec.allOnes 64)
      else
        match c.flight.find? fun e => e.seq == q with
        | none => do
          refreshAt (.dir d) 4
          dPut d rd 0
        | some e =>
          match e.failed with
          | none => .stop .stall
          | some st => do
            refreshAt (.dir d) 4
            setDirOf n fun c => { c with flight := c.flight.filter fun e => e.seq != q }
            dPut d rd (BitVec.ofNat 64 st)
    pure (.seq)) s

/-! ### Bodies on their way to their targets (R394, R395) -/

/-- A command of a director core for a copy engine. -/
def TxBody.command (b : TxBody) (d : Nat) : CopyCmd :=
  let h := b.words.getD 0 0
  let h : Word := BitVec.ofNat 64 (bits h.toNat 0 18 + bits h.toNat 19 13 * 2 ^ 19 + b.seq * 2 ^ 32)
  { hart := 64 * b.dst, dir := some (d, b.seq), root := b.root, words := h :: b.words.drop 1 }

/-- The target cluster belongs to the issuing core's partition. -/
def State.mayTarget (s : State) (d cluster : Nat) : Bool := ((s.partOfDir d).map fun p => p.2.clusters.contains cluster).getD false

/-- A kind-1 body reaches its engine; none where it must wait there. -/
def State.sendCopy (s : State) (d : Nat) (b : TxBody) : Option State :=
  let c := b.command d
  if !c.faulty && !s.mayTarget d b.dst then
    some (s.setCluster b.dst { s.cluster b.dst with copy := (s.cluster b.dst).copy ++ [c.failed 1 0] })
  else s.acceptCmd b.dst c fun s => some (none, s)

/-- A kind-2 body reaches the scheduler of its slice (R395); none while it has no room. -/
def State.sendTask (s : State) (d : Nat) (b : TxBody) : Option State :=
  let k := sliceOf b.dst
  if !s.taskRoom k then none
  else
    let t : Task := {
      hart := 64 * b.dst, dir := some (d, b.seq), root := b.root, core := 16 * b.dst, cluster := b.dst, op := 3
      a := 0, b := 0, dst := 0, dims := 0, tag := b.seq }
    let r : Vec := BitVec.ofNat 512 (b.words.foldr (fun w acc => w.toNat + 2 ^ 64 * acc) 0)
    let clean := (t.ofRecord r).map fun x =>
      x.waits.isEmpty && x.sig.isNone && s.mayTarget d b.dst
    if clean ≠ some true then some (s.addTask k { t with status := 1 })
    else
      let (x, s) := s.recordTask t r
      some (s.addTask k (match x with
        | .ok x => { x with tag := b.seq, cmpl := false }
        | .error e => { t with status := e.status.1, addr := e.status.2 }))

/-! ### Queue descriptors (R409) -/

/-- A field of `len` bytes at `off` of a queue's descriptor. -/
def State.qField (s : State) (q off len : Nat) : Nat := leNat (s.stgRead (s.queueAddr q + off) len)
/-- Write a field. -/
def State.qPut (s : State) (q off len v : Nat) : State := s.stgWrite 5 (s.queueAddr q + off) (leBytes len v)
def State.qBase (s : State) (q : Nat) : Nat := s.qField q 0 8
def State.qSize (s : State) (q : Nat) : Nat := 2 ^ (s.qField q 8 1)
def State.qStatus (s : State) (q : Nat) : Nat := s.qField q 9 1
def State.qWrite (s : State) (q : Nat) : Nat := s.qField q 16 4
def State.qRead (s : State) (q : Nat) : Nat := s.qField q 20 4
/-- The address of packet position p. -/
def State.packetAddr (s : State) (q p : Nat) : Nat := s.qBase q + 16 * (p % s.qSize q)

/-- A kind-3 body goes into its queue's ring, and the queue is kicked; none while the ring is full. -/
def State.sendPacket (s : State) (d : Nat) (b : TxBody) : Option State :=
  let q := b.dst
  if !(((s.partOfDir d).map fun p => p.2.queues.contains q).getD false) then
    some (s.report d { sender := dirId d, seq := b.seq, status := 1, payload := 0 })
  else
    let wr := s.qWrite q
    if s.qSize q ≤ (wr + 2 ^ 32 - s.qRead q) % 2 ^ 32 then none
    else
      let s := s.stgWrite 4 (s.packetAddr q wr) (b.words.flatMap wordBytes)
      let s := s.qPut q 16 4 (wr + 1)
      some { s with kicks := s.kicks ||| (1#256 <<< q), issued := s.issued ++ [⟨q, wr, d, b.seq⟩] }

/-- The oldest body of a core's tensor issue buffer leaves for its target. -/
def State.txSend (s : State) (d : Nat) : State :=
  match (s.dir d).tib with
  | [] => s
  | b :: t =>
    let r := match b.kind with
      | 1 => s.sendCopy d b
      | 2 => s.sendTask d b
      | _ => s.sendPacket d b
    match r with
    | none => s
    | some s => s.setDir d { s.dir d with tib := t }

/-! ### The hold unit (R399) -/

/-- A report is dealt with: holds dropped in order, the entry freed or failed. -/
def State.holdRelease (s : State) (d seq status : Nat) : State :=
  let mine (r : Report) : Bool := r.seq == seq && r.status == status
  match (s.dir d).reports.find? mine, (s.dir d).flight.find? fun e => e.seq == seq with
  | some r, some e =>
    let s := s.setDir d { s.dir d with reports := (s.dir d).reports.eraseIdx ((s.dir d).reports.findIdx mine) }
    let s := s.holdDrops d e.root e.handles
    let c := s.dir d
    if status = 0 then s.setDir d { c with flight := c.flight.filter fun x => x.seq != seq }
    else
      let s := s.setDir d { c with flight := c.flight.map fun x => if x.seq = seq then { x with failed := some status } else x }
      s.post r.sender (dirId d) { payload := setField r.payload 32 32 seq, side := sideWord 4 0 0 r.sender, cover := r.cover }
  | _, _ => s

def execHoldRelease (dc seq status : Nat) (s : State) : Host.Outcome State Fault Refusal :=
  happen (if dc < Config.directors then s.holdRelease dc seq status else s)

/-! ### Stagehouse: reclamation (R401, R404, R405) -/

/-- Reclaim a storage with no reference and no hold: sfree of its allocation in house mode, then its generation. -/
def State.reclaim (s : State) (d : Nat) (root : Option Word) (h : Word) : State :=
  match s.header d root h with
  | (none, s) => s
  | (some (pa, x), s) =>
    if x.refs ≠ 0 ∨ x.hold ≠ 0 then s
    else
      let (w2, s) := s.slotWord d root h 2
      let (w3, s) := s.slotWord d root h 3
      let where_ := (w2.getD 0).toNat
      let next (s : State) : State := s.putHeader d pa x (x.setGen ((x.gen + 1) % 128))
      if bits where_ 10 1 = 0 then next s
      else
        let k := bits where_ 0 10
        match (if k < Config.clusters then s.named k (w3.getD 0) else none) with
        | some (unit, i, a) => next (s.freeEntry k unit i a)
        | none => s

/-- Drain the ring in order. -/
def State.drain (s : State) (d : Nat) : Nat → State
  | 0 => s
  | k + 1 =>
    let c := s.dir d
    if c.hrhead = c.hrtail then s
    else
      let (b, s) := s.dieRead d (c.hrbase.toNat + 8 * c.hrhead.toNat) 8
      let s := s.setDir d { s.dir d with hrhead := BitVec.ofNat 16 ((c.hrhead.toNat + 1) % c.ringEntries) }
      let s := s.flushRing d (s.dir d).appends.length
      (s.reclaim d c.root (wordOf b)).drain d k

/-- The core has just entered Stagehouse's handler for a local interrupt. -/
def Dir.inHandler (c : Dir) (k : Nat) : Bool :=
  !c.user && c.scause == BitVec.ofNat 64 (2 ^ 63 + k) &&
    c.pc == (c.stvec &&& ~~~3#64) + (if c.stvec.getLsbD 0 then BitVec.ofNat 64 (4 * k) else 0)

/-- Stagehouse drains the ring whenever interrupt 16 is pending and taken, then returns to the interrupted code (R405). -/
def execHeldRingDrain (dc : Nat) (s : State) : Host.Outcome State Fault Refusal :=
  happen (
    let c := s.dir dc
    let handling := c.inHandler 16
    if dc < Config.directors ∧ c.ringPending = true ∧ (c.user = true ∨ c.sieBit = true ∨ handling = true) then
      let s := s.drain dc (2 ^ 16 + c.appends.length)
      if handling then s.setDir dc (s.dir dc).sret else s
    else s)

/-! ### Stagehouse: exceptions of a thread (R451) -/

/-- A thread's exception waits for Stagehouse on core d. -/
def State.dirWaits (s : State) (d : Nat) : Bool := decide (d < Config.directors) && (s.dir d).trapped && (s.dir d).run == .active

/-- Return to the thread at `pc`. -/
def State.resumeThread (s : State) (d : Nat) (pc : Word) : State :=
  s.setDir d { (s.dir d).sret with pc := pc, trapped := false }

/-- A thread that ixdb's call started has ended, unless another of the core is put aside: ixdb forgets it, and its stack is
free (R406). -/
def State.forgetThread (s : State) (d : Nat) : State :=
  if (s.dir d).called || (s.dir d).contexts.any fun x => x.called then s
  else { s with
    threadStacks := s.threadStacks.filter fun x => !(x.1 == d && x.2.2)
    dbg := { s.dbg with threads := s.dbg.threads.filter fun t => t != d } }

/-- The thread ends: its core goes on with Stagehouse only, at its handler; a halted core stays halted. -/
def State.endThread (s : State) (d : Nat) : State :=
  let c := s.dir d
  let s := s.setDir d { c with
    trapped := false, user := false, pc := if c.user then c.stvec &&& ~~~3#64 else c.pc
    run := if c.run = .halted then .halted else .active, excEntry := none, called := false }
  s.forgetThread d

/-- The core runs no thread of a partition any more, and none is put aside on it (R440). -/
def State.clearThreads (s : State) (d : Nat) : State :=
  let s := s.setDir d { s.dir d with contexts := [] }
  s.endThread d

/-- Hand an exception to the thread at its exception entry. -/
def State.handThread (s : State) (d : Nat) : State :=
  let c := s.dir d
  match c.excEntry with
  | none => s.endThread d
  | some e =>
    let s := s.setDir d (((c.putX 10 c.scause).putX 11 c.stval).putX 12 c.sepc)
    s.resumeThread d e

/-- The ecall of R404. -/
def State.releaseService (s : State) (d : Nat) : State :=
  let c := s.dir d
  let v := c.getX 10
  let (x, s) := if wellFormed v then s.header d c.root v else (none, s)
  let ok := match x with
    | some (_, h) => h.gen == handleGen v && h.storage && h.refs == 0 && h.hold == 0
    | none => false
  let s := if ok then s.reclaim d c.root v else s
  let s := s.setDir d ((s.dir d).putX 10 (if ok then 0 else 1))
  s.resumeThread d (c.sepc + 4)

/-- The ecall that registers an exception entry. -/
def State.entryService (s : State) (d : Nat) : State :=
  let c := s.dir d
  let a := c.getX 10
  let ok := a.toNat % 4 = 0
  let s := s.setDir d (if ok then { c.putX 10 0 with excEntry := some a } else c.putX 10 1)
  s.resumeThread d (c.sepc + 4)

/-- A thread's ecall for a service waits. -/
def State.callsService (s : State) (d a7 : Nat) : Bool :=
  s.dirWaits d && (s.dir d).scause == 8 && ((s.dir d).getX 17).toNat == a7

def execStorageReleaseEcall (dc : Nat) (s : State) : Host.Outcome State Fault Refusal :=
  happen (if s.callsService dc 0x120 then s.releaseService dc else s)
def execExceptionEntryRegister (dc : Nat) (s : State) : Host.Outcome State Fault Refusal :=
  happen (if s.callsService dc 0x121 then s.entryService dc else s)

/-- The access of a page-fault cause. -/
def pageAcc (c : Nat) : Option Acc := if c = 12 then some .fetch else if c = 13 then some .read else if c = 15 then some .write else none

/-! ### The fault buffer (R438) -/

/-- Entries of the fault buffer. -/
def faultSize : Nat := 1024

/-- A fault of a page of a partition in the buffer. -/
def State.faultAt (s : State) (part page : Nat) : Option Nat :=
  (List.range faultSize).find? fun k =>
    match KMap.get none s.faults k with
    | some e => e.part == part && e.page.toNat == page
    | none => false

/-- A fault joins an earlier one of its page. -/
def FaultEnt.join (x e : FaultEnt) : FaultEnt :=
  { x with kinds := x.kinds ||| e.kinds, cues := x.cues ++ e.cues, dcs := x.dcs ++ e.dcs }

/-- Two faults of one page of one partition. -/
def FaultEnt.meets (x e : FaultEnt) : Bool := x.part == e.part && x.page == e.page

/-- Post a fault: it joins the entry of its page, in the buffer or the overflow list, takes a free entry, or goes to the
overflow list. The answer is its entry, where it has one, and the cue it follows in the chain. -/
def State.postFault (s : State) (e : FaultEnt) : (Option Nat × Option (Nat × Nat × Word)) × State :=
  match s.faultAt e.part e.page.toNat with
  | some k =>
    match KMap.get none s.faults k with
    | some x => ((some k, x.cues.getLast?), { s with faults := KMap.set none s.faults k (some (x.join e)) })
    | none => ((none, none), s)
  | none =>
    match s.faultOver.find? fun x => x.meets e with
    | some x => ((none, x.cues.getLast?), { s with faultOver := s.faultOver.map fun y => if y.meets e then y.join e else y })
    | none =>
      match (List.range faultSize).find? fun k => (KMap.get none s.faults k).isNone with
      | some k => ((some k, none), { s with faults := KMap.set none s.faults k (some e) })
      | none => ((none, none), { s with faultOver := s.faultOver ++ [e] })

/-- The thread on core d waits for a page. -/
def State.threadWaits (s : State) (d : Nat) : Bool :=
  (s.faults.any fun e => (e.2.map fun x => x.dcs.contains d).getD false) || s.faultOver.any fun x => x.dcs.contains d

/-- The kind of an access in a fault-buffer entry. -/
def faultKind : Acc → BitVec 3
  | .read => 1
  | .write => 2
  | .fetch => 4

/-- Stagehouse disposes of a thread's exception: a service, a page the tables now map, a page that the handler of R438 is
to map, or the thread itself. -/
def State.dirTrap (s : State) (d : Nat) : State :=
  if !s.dirWaits d then s
  else if s.callsService d 0x120 then s.releaseService d
  else if s.callsService d 0x121 then s.entryService d
  else
    let c := s.dir d
    match pageAcc c.scause.toNat with
    | none => s.handThread d
    | some k =>
      let t := s.setDir d { c with user := true }
      match t.dirTranslate d c.stval.toNat k with
      | (some _, _) => s.resumeThread d c.sepc
      | (none, _) =>
        match s.partOfDir d with
        | none => s.handThread d
        | some (part, _) =>
          if rowOf c.stval.toNat ≠ 3 then s.handThread d
          else if s.threadWaits d then s
          else (s.postFault {
            page := c.stval &&& ~~~4095#64, part := part, kinds := faultKind k, cues := [], dcs := [d], at_ := s.time.toNat }).2

/-! ### Interpreter contexts (R402) -/

/-- Load registers: x1 to x31, then f0 to f31; those not given are zero. -/
def loadContext (pc : Word) (regs : List Word) (entry : Option Word) (c : Dir) : Dir :=
  let c := { c with pc := pc, x := [], f := [], excEntry := entry, permit := false, resv := none, called := false }
  let c := (regs.take 31).zipIdx.foldl (fun c r => c.putX (BitVec.ofNat 5 (r.2 + 1)) r.1) c
  { c with f := ((regs.drop 31).take 32).zipIdx.foldl (fun f r => KMap.set 0 f r.2 r.1) [] }

/-- Stagehouse puts the running thread aside, where there is one, and another on the core; a context put aside earlier
keeps its exception entry. icfill's permit falls, and the inline cache store stays. -/
def State.switchContext (s : State) (d : Nat) (pc : Word) (regs : List Word) : State :=
  let c := s.dir d
  let new := loadContext pc regs none c
  let mine (x : Context) : Bool := x.pc == new.pc && x.x == new.x && x.f == new.f
  let old := c.contexts.find? mine
  let rest := c.contexts.eraseIdx ((c.contexts.findIdx? mine).getD c.contexts.length)
  s.setDir d { new with
    excEntry := (old.map (·.entry)).join, called := (old.map (·.called)).getD false
    user := true, contexts := rest ++ if c.user then [⟨c.pc, c.x, c.f, c.excEntry, c.called⟩] else [] }

/-- A thread runs on the core, or Stagehouse, with nothing else to do there, goes back to one that was put aside. -/
def Dir.resumes (c : Dir) (pc : Word) : Bool :=
  c.user || (!c.trapped && c.routine.isNone && c.contexts.any fun x => x.pc == pc)

def execInterpreterContextSwitch (dc : Nat) (pc : BitVec 64) (regs : List (BitVec 64)) (s : State) :
    Host.Outcome State Fault Refusal :=
  happen (if dc < Config.directors ∧ (s.dir dc).resumes pc = true then s.switchContext dc pc regs else s)

end Sys2Proof.Machine
end

