-- ==== Sys2Proof/Machine/Messages.lean ====
section
/-!
DEFINITION. Messages and deposits: msg.recv and msg.poll (R229), msg.send (R227), msg.put and the arrival of a deposit
(R230, R293), and the delivery of a message on its way (R228).
-/

namespace Sys2Proof.Machine

/-- The kinds an agent takes: the house code only dispatches, a cue all others (R229, R241). -/
def State.wants (s : State) (a : Agent) (e : Entry) : Bool :=
  match a with
  | .hart n => if (s.hart n).house then e.kind == 5 else e.kind != 5
  | .dir _ => true

/-- Take the oldest entry an agent wants: refresh, payload, sideband; none when there is none. -/
def receive (a : Agent) (addr : Nat) : Ins (Option Word) := do
  match ← Ins.get fun s => s.take a.id (s.wants a) with
  | none => pure none
  | some (e, s') => do
    Ins.upd fun _ => s'
    if e.kind = 2 then refreshAt a e.scope
    if e.kind = 4 then Ins.upd fun s => s.captureCover a e.cover
    a.store addr (vecBytes e.payload)
    pure (some e.side)

/-- The checks of msg.recv and msg.poll: alignment, then those of the store. -/
def recvAddr (a : Agent) (rs1 : Reg) : Ins Nat := do
  let addr := (← a.useX rs1).toNat
  a.deny (addr % 64 != 0) cAlign .write addr
  a.checkStore addr 64
  pure addr

def execMsgRecv (rd rs1 : Reg) (s : State) : Host.Outcome State Fault Refusal :=
  runBoth (.msgRecv rd rs1) (fun a => do
    let addr ← recvAddr a rs1
    match ← receive a addr with
    | some w => do
      match a with
      | .hart n => setHartOf n fun h => { h with waiting := false }
      | .dir _ => pure ()
      a.writeX rd w
      pure (.seq)
    | none =>
      match a with
      | .dir _ => .stop .stall
      | .hart n => do
        if (← hartOf n).house then
          setHartOf n fun h => { h with waiting := true }
          .stop .hold
        else suspend n 1 0 .inbox []) s

def execMsgPoll (rd rs1 : Reg) (s : State) : Host.Outcome State Fault Refusal :=
  runBoth (.msgPoll rd rs1) (fun a => do
    let addr ← recvAddr a rs1
    a.writeX rd ((← receive a addr).getD 0)
    pure (.seq)) s

/-! ### Sending -/

/-- The partition of an agent. -/
def State.partOf (s : State) (a : Agent) : Option Nat :=
  match a with
  | .hart n => (s.partOfCluster (hartCluster n)).map (·.1)
  | .dir d => (s.partOfDir d).map (·.1)

/-- The agent an id names. -/
def agentOf (id : Nat) : Option Agent :=
  if isHartId id then some (.hart id) else if isDirId id then some (.dir (id - 0x10000)) else none

/-- The agent may name the receiver: one of its partition, or any for a director core in S-mode (R227). -/
def State.maySend (s : State) (a : Agent) (id : Nat) : Bool :=
  match agentOf id with
  | none => false
  | some b =>
    let free := match a with | .dir d => !(s.dir d).user | .hart _ => false
    free || ((s.partOf a).isSome && s.partOf a == s.partOf b)

/-- Ring entries kept free from a hart or director core (R228). -/
def ringKeep : Nat := 16

/-- An earlier message from the sender to the receiver is still on its way: a later one waits for it (R228). -/
def State.behind (s : State) (sender receiver : Nat) : Bool :=
  s.transit.any fun t => t.sender == sender && t.receiver == receiver

/-- Deliver a message of an agent; a receiver without room is the inbox-full trap. -/
def deliver (a : Agent) (id : Nat) (e : Entry) : Ins Unit := do
  if ← Ins.get fun s => s.behind a.id id then .stop .hold
  match ← Ins.get fun s => s.accept id ringKeep e with
  | some s' => Ins.upd fun _ => s'
  | none => a.fail cInbox .write id

/-- msg.send and msg.send.rel (R227). The message carries the scope as the sender's widening has left it (R12). -/
def sendBody (rel : Option Nat) (rs1 rs2 : Reg) (a : Agent) : Ins Ctl := do
  let (x, y) ← a.useX2 rs1 rs2
  let id := y.toNat
  if !(← Ins.get fun s => s.maySend a id) then a.fail cRecord .read id
  let addr := x.toNat
  a.deny (addr % 64 != 0) cAlign .read addr
  match rel with
  | some sc => releaseAt a sc
  | none => pure ()
  let b ← a.load addr 64
  match PBytes.firstPoison b with
  | some k => a.fail cPoison .read (addrAdd addr k)
  | none => pure ()
  deliver a id { payload := vecOf (PBytes.bytes b), side := sideWord (if rel.isSome then 2 else 1) ((rel.map a.writer.widen).getD 0) 0 a.id }
  pure (.seq)

def execMsgSend (rs1 rs2 : Reg) (s : State) : Host.Outcome State Fault Refusal :=
  runBoth (.msgSend rs1 rs2) (sendBody none rs1 rs2) s
def execMsgSendRel (sc : BitVec 3) (rs1 rs2 : Reg) (s : State) : Host.Outcome State Fault Refusal :=
  runBoth (.msgSendRel sc rs1 rs2) (sendBody (some sc.toNat) rs1 rs2) s

/-! ### Deposits -/

/-- The unpark of R293. -/
def Hart.unpark (h : Hart) (v : Word) : Hart :=
  { h with vflags := h.vflags &&& ~~~(v.extractLsb' 0 5), venab := h.venab &&& ~~~(v.extractLsb' 8 5), run := .active }

def Hart.parked (h : Hart) : Bool :=
  match h.run with
  | .parked .. => true
  | _ => false

/-- A deposit reaches a hart: an unpark, a register, or a kind-3 entry; none where the entry finds no room. -/
def State.deposit (s : State) (sender receiver : Nat) (r : Reg) (v : Word) : Option State :=
  let h := s.hart receiver
  if h.parked && r == 0 && h.fpsup.toNat == sender then some (s.setHart receiver (h.unpark v))
  else if !h.house && r != 0 && h.depmask.getLsbD r.toNat && (h.bound false r).isNone then
    some (s.setHart receiver (h.putX r v false))
  else s.accept receiver ringKeep { payload := v.zeroExtend 512, side := sideWord 3 0 r.toNat sender }

/-- msg.put; the record fault of a bad hart id has that operand as its tval (log 114). -/
def execMsgPut (r rs1 rs2 : Reg) (s : State) : Host.Outcome State Fault Refusal :=
  runCompute (.msgPut r rs1 rs2) (fun n => do
    let (v, y) ← useX2 n rs1 rs2
    let id := y.toNat
    if !(isHartId id && (← Ins.get fun s => s.maySend (.hart n) id)) then .trap cRecord id
    if ← Ins.get fun s => s.behind n id then .stop .stall
    match ← Ins.get fun s => s.deposit n id r v with
    | some s' => Ins.upd fun _ => s'
    | none => .trap cInbox id
    pure (.seq)) s

/-- A deposit of a hart of the receiver's partition arrives. -/
def execDepositArrival (sender receiver : Nat) (r : Reg) (v : BitVec 64) (s : State) : Host.Outcome State Fault Refusal :=
  happen (
    if isHartId sender && isHartId receiver && s.maySend (.hart sender) receiver && !s.behind sender receiver then (s.deposit sender receiver r v).getD s
    else s)

/-- The `k`-th message on its way reaches its receiver, unless an earlier one of the same sender to the same receiver
has not, or the receiver has no entry free (R228). -/
def State.deliverTransit (s : State) (k : Nat) : State :=
  match s.transit[k]? with
  | none => s
  | some t =>
    if (s.transit.take k).any fun u => u.sender == t.sender && u.receiver == t.receiver then s
    else
      match s.accept t.receiver 0 t.entry with
      | some s => { s with transit := s.transit.eraseIdx k }
      | none => s

def execMessageDelivery (k : Nat) (s : State) : Host.Outcome State Fault Refusal := happen (s.deliverTransit k)

end Sys2Proof.Machine
end

