-- ==== Sys2Proof/Machine/VecMem.lean ====
section
/-!
DEFINITION. Class 6: vector loads and stores (R183-R185) and diagonal tiles (R186-R189).
-/

namespace Sys2Proof.Machine

/-- A lane of an access: its number and address. -/
abbrev LaneAddr := Nat × Nat

/-- The checks of one lane up to the seal, and its place: lanes are aligned, so one granule holds it. -/
def laneCheck (n : Nat) (k : Acc) (size : Nat) (l : LaneAddr) : Ins (Nat × Place) := do
  Ins.deny (l.2 % size != 0) cAlign l.2
  pure (l.1, (← hartPlaces n k l.2 size).headD { loc := 0, off := 0, len := 0, addr := 0 })

/-- The lanes of a load in order, each checked and its granule read once (R211), with the stale-read check on what the
core sees (R185): the places, and the granules by their keys. -/
def loadLanes (n size : Nat) : List LaneAddr → List (Nat × Gran) → Ins (List (Nat × Place) × List (Nat × Gran))
  | [], gs => pure ([], gs)
  | l :: t, gs => do
    let q ← laneCheck n .read size l
    let gs ← if gs.any fun g => g.1 == q.2.loc then pure gs else do pure ((q.2.loc, ← loadPlace n q.2) :: gs)
    let (ps, gs) ← loadLanes n size t gs
    pure (q :: ps, gs)

/-- What the mask, the prior destination and the address operands give a vector access. -/
structure VMem where
  lanes : List LaneAddr
  poison : Bool

/-- A vector load: lanes that make no access are zero where active (`zero`), else as they were. -/
def vload (n : Nat) (i : Instr) (f : Nat) (vd : Reg) (p : Operands) (lanes : List LaneAddr) : Ins Ctl := do
  let w := laneBits f
  let (ps, gs) ← loadLanes n (w / 8) (lanes.filter fun l => p.active l.1) []
  let out := ps.map fun q =>
    let g := ((gs.find? fun g => g.1 == q.2.loc).map (·.2)).getD {}
    (q.1, leNat (getBytes g.data q.2.off (w / 8)), g.poison)
  let ls := (List.range (laneCount f)).map fun j =>
    if p.active j then ((out.find? fun x => x.1 == j).map (·.2.1)).getD 0 else lane w p.old j
  putVec n i vd (ofLanes w ls) f (p.poison || out.any (·.2.2)) Events.none

/-- Parts of a store in one granule, merged in order: later bytes win. -/
def mergeChunks : List Chunk → List Chunk
  | [] => []
  | c :: t =>
    let rest := t.filter fun d => d.loc == c.loc
    let bytes := (c :: rest).foldl (fun m d => putSb m d.off d.bytes) ([] : KMap (Option Byte))
    let e : SbEntry := ⟨c.loc, bytes, 0, c.gen, false, []⟩
    e.runs.map fun r => { c with off := r.1, bytes := r.2 }

/-- One entry for each granule, in order of first use. -/
def mergeStores (cs : List Chunk) : List Chunk :=
  let locs := cs.foldl (fun acc c => if acc.contains c.loc then acc else acc ++ [c.loc]) ([] : List Nat)
  locs.flatMap fun l => mergeChunks (cs.filter fun c => c.loc == l)

/-- A vector store of a register's lanes. -/
def vstore (n : Nat) (i : Instr) (f : Nat) (v : Vec) (p : Operands) (lanes : List LaneAddr) : Ins Ctl := do
  let w := laneBits f
  let ps ← (lanes.filter fun l => p.active l.1).mapM (laneCheck n .write (w / 8))
  let cs := ps.map fun q =>
    (⟨q.2.loc, q.2.off, leBytes (w / 8) (lane w v q.1), q.2.gen, q.2.own, false, false, q.2.page⟩ : Chunk)
  commit n i { window := 0, stores := markLines (mergeStores cs) }
  pure (.seq)

/-- The reads and checks before the lanes (R185): v sources, mask, prior, base and stride; then the poison of base,
stride (log 37), index and datum. `vi` is the index register with its tags; the base is x source 0, the stride 1. -/
def memOperands (n : Nat) (o : LOpts) (vs : Option (Reg × Nat)) (vi : Option (Reg × List Nat)) (prior : Option (Reg × List Nat))
    (xa : Reg) (xs : List Reg) : Ins (Operands × Vec × Vec × Word) := do
  let d ← match vs with
    | some (r, f) => readVAs n r [f]
    | none => pure {}
  let x ← match vi with
    | some (r, t) => readVAs n r t
    | none => pure {}
  let q ← readOperands n o [] prior (xa :: xs)
  let a ← readX n xa
  Ins.deny a.poison cPoison (RegId.x xa).id
  xs.forM fun r => do Ins.deny (← readX n r).poison cPoison (RegId.x r).id
  Ins.deny x.poison cPoison (RegId.v ((vi.map (·.1)).getD 0)).id
  Ins.deny d.poison cPoison (RegId.v ((vs.map (·.1)).getD 0)).id
  pure (q, d.val, x.val, a.val)

/-- Lane addresses `base + i × step`. -/
def strided (f : Nat) (base step : Word) : List LaneAddr :=
  (List.range (laneCount f)).map fun i => (i, (base + BitVec.ofNat 64 i * step).toNat)

/-- Lane addresses of the indexed forms. -/
def indexed (f : Nat) (base : Word) (vi : Vec) : List LaneAddr :=
  let w := laneBits f
  (List.range (laneCount f)).map fun i => (i, (base + BitVec.ofNat 64 (lane w vi i % 2 ^ 64 * (w / 8))).toNat)

/-- The tags an index register may carry (R184). -/
def indexTags (f : Nat) : List Nat :=
  match laneBits f with
  | 8 => [12]
  | 16 => [11]
  | 32 => [10]
  | 64 => [9]
  | _ => [13]

/-- The offset of vld and vst, in units of 64 bytes. -/
def off64 (off : BitVec 5) : Word := off.signExtend 64 <<< 6

def unitStep (f : Nat) : Word := BitVec.ofNat 64 (laneBits f / 8)

def execVld (o : LOpts) (e : Elem) (vd xa : Reg) (off : BitVec 5) (s : State) : Host.Outcome State Fault Refusal :=
  let i : Instr := .vld o e vd xa off
  runCompute i (fun n => do
    let (q, _, _, a) ← memOperands n o none none (priorOf o vd e.n) xa []
    vload n i e.n vd q (strided e.n (a + off64 off) (unitStep e.n))) s

def execVst (o : LOpts) (e : Elem) (vs xa : Reg) (off : BitVec 5) (s : State) : Host.Outcome State Fault Refusal :=
  let i : Instr := .vst o e vs xa off
  runCompute i (fun n => do
    let (q, d, _, a) ← memOperands n o (some (vs, e.n)) none none xa []
    vstore n i e.n d q (strided e.n (a + off64 off) (unitStep e.n))) s

def execVlds (o : LOpts) (e : Elem) (vd xa xs : Reg) (s : State) : Host.Outcome State Fault Refusal :=
  let i : Instr := .vlds o e vd xa xs
  runCompute i (fun n => do
    let (q, _, _, a) ← memOperands n o none none (priorOf o vd e.n) xa [xs]
    vload n i e.n vd q (strided e.n a (q.x 1))) s

def execVsts (o : LOpts) (e : Elem) (vs xa xs : Reg) (s : State) : Host.Outcome State Fault Refusal :=
  let i : Instr := .vsts o e vs xa xs
  runCompute i (fun n => do
    let (q, d, _, a) ← memOperands n o (some (vs, e.n)) none none xa [xs]
    vstore n i e.n d q (strided e.n a (q.x 1))) s

def execVldx (o : LOpts) (e : Elem) (vd xa vi : Reg) (s : State) : Host.Outcome State Fault Refusal :=
  let i : Instr := .vldx o e vd xa vi
  runCompute i (fun n => do
    let (q, _, x, a) ← memOperands n o none (some (vi, indexTags e.n)) (priorOf o vd e.n) xa []
    vload n i e.n vd q (indexed e.n a x)) s

def execVstx (o : LOpts) (e : Elem) (vs xa vi : Reg) (s : State) : Host.Outcome State Fault Refusal :=
  let i : Instr := .vstx o e vs xa vi
  runCompute i (fun n => do
    let (q, d, x, a) ← memOperands n o (some (vs, e.n)) (some (vi, indexTags e.n)) none xa []
    vstore n i e.n d q (indexed e.n a x)) s

/-! ### Diagonal tiles (R186-R189) -/

/-- The own-bank offset of an element (R188). -/
def Tile.offset (t : Tile) (i j : Nat) : Nat :=
  let e := t.esz
  let w := t.cols * e / 4
  let r := if e = 8 then 2 else 1
  let c := j * e / 4
  t.base + i * t.cols * e + 4 * ((c + r * i) % w) + (if e < 4 then j * e % 4 else 0)

/-- Row and column of lane L of a fetch (R189). -/
def Tile.at (t : Tile) (col : Bool) (i0 j0 l : Nat) : Nat × Nat :=
  if !col then (i0, j0 + l)
  else if t.esz < 4 then let k := 4 / t.esz; (i0 + l / k, j0 + l % k)
  else (i0 + l, j0)

/-- The lanes of a tile reference that lie in the tile, or none where the reference breaks a condition. -/
def tileLanes (s : State) (n : Nat) (f : Nat) (r : Word) : Option (List LaneAddr) :=
  let x := r.toNat
  let i0 := bits x 16 16
  let j0 := bits x 32 16
  match KMap.get none (s.core (coreOf n)).tiles (bits x 0 6) with
  | none => none
  | some t =>
    if bits x 48 16 ≠ 0 ∨ bits x 7 9 ≠ 0 ∨ t.rows ≤ i0 ∨ t.cols ≤ j0 ∨ (t.esz < 4 ∧ j0 % (4 / t.esz) ≠ 0)
        ∨ laneBits f ≠ 8 * t.esz then none
    else some ((List.range (laneCount f)).filterMap fun l =>
      let (i, j) := t.at (bits x 6 1 == 1) i0 j0 l
      if i < t.rows ∧ j < t.cols then some (l, ownBase + t.offset i j) else none)

def diagLanes (n f : Nat) (r : Word) : Ins (List LaneAddr) := do
  match ← Ins.get fun s => tileLanes s n f r with
  | some l => pure l
  | none => .trap cDiag r.toNat

def execVldDiag (o : LOpts) (e : Elem) (vd xt : Reg) (s : State) : Host.Outcome State Fault Refusal :=
  let i : Instr := .vldDiag o e vd xt
  runCompute i (fun n => do
    let (q, _, _, r) ← memOperands n o none none (priorOf o vd e.n) xt []
    vload n i e.n vd q (← diagLanes n e.n r)) s

def execVstDiag (o : LOpts) (e : Elem) (vs xt : Reg) (s : State) : Host.Outcome State Fault Refusal :=
  let i : Instr := .vstDiag o e vs xt
  runCompute i (fun n => do
    let (q, d, _, r) ← memOperands n o (some (vs, e.n)) none none xt []
    vstore n i e.n d q (← diagLanes n e.n r)) s

/-- Bytes of a tile. -/
def Tile.bytes (t : Tile) : Nat := t.rows * t.cols * t.esz

/-- The tile a declaration names, where it satisfies R186; a row count of 0 removes, and is not held to the conditions on
offset, columns, allocation and overlap (log 58). -/
def tileOf (s : State) (n : Nat) (num off shape : Word) : Option (Option Tile) :=
  let x := shape.toNat
  let t : Tile := ⟨off.toNat, bits x 0 16, bits x 16 16, 2 ^ bits x 32 2⟩
  let c := s.core (coreOf n)
  if 64 ≤ num.toNat ∨ bits x 34 30 ≠ 0 then none
  else if t.rows = 0 then some none
  else
    let inside := c.alloc.any fun a => a.2.st == .live && decide (a.2.base ≤ t.base ∧ t.base + t.bytes ≤ a.2.base + 32 * a.2.len)
    let clash := c.tiles.any fun u => u.1 != num.toNat &&
      ((u.2.map fun v => decide (v.base < t.base + t.bytes ∧ t.base < v.base + v.bytes)).getD false)
    if t.base % 64 ≠ 0 ∨ t.cols = 0 ∨ t.cols * t.esz % 64 ≠ 0 ∨ inside = false ∨ clash = true then none
    else some (some t)

def execTdecl (o : LOpts) (xt xb xs : Reg) (s : State) : Host.Outcome State Fault Refusal :=
  runCompute (.tdecl o xt xb xs) (fun n => do
    let (t, b, z) ← useX3 n xt xb xs
    match ← Ins.get fun s => tileOf s n t b z with
    | none => .trap cDiag z.toNat
    | some d =>
      Ins.upd fun s =>
        let c := s.core (coreOf n)
        s.setCore (coreOf n) { c with tiles := KMap.set none c.tiles t.toNat d }
      pure (.seq)) s

end Sys2Proof.Machine
end

