-- ==== Sys2Proof/Machine/Packets.lean ====
section
/-!
DEFINITION. Queue packets, command blocks and play descriptors as a scheduler thread reads and checks them (R409-R412,
R454, R28), and the journal (R420).
-/

namespace Sys2Proof.Machine

/-! ### Reading a partition's memory -/

/-- A global address under a partition's tables and ranges (R436), with no TLB of its own. -/
def State.partPlace (s : State) (p : Partition) (va : Nat) (k : Acc) : Option Nat × State :=
  if rowOf va ≠ 3 then (none, s)
  else
    let v := va57 va
    let (l, s) := walk 4 s p.root.toNat v
    (l.bind fun l =>
      let e := l.toTlb p.root
      if l.u && l.a && e.allows k && p.owns (e.pa v) then some (e.pa v) else none, s)

/-- A look at memory that may find a packet fault. -/
abbrev Look := OptionT (StateM State)

def Look.need (b : Bool) : Look Unit := if b then pure () else failure
def Look.get {α : Type} (f : State → α) : Look α := fun s => (some (f s), s)

/-- A place, or a page fault. -/
def lookPlace (p : Partition) (va : Nat) (k : Acc) : Look Nat := fun s => s.partPlace p va k

/-- Bytes at a virtual address of the partition. -/
def lookBytes (p : Partition) (va n : Nat) : Look (List Byte) := do
  let bs ← (pieces va n).mapM fun q => do
    let pa ← lookPlace p q.1 .read
    Look.get fun s => s.stgRead pa q.2
  pure bs.flatten

/-- A field of a byte string. -/
def fieldOf (b : List Byte) (off len : Nat) : Nat := leNat ((b.drop off).take len)

/-! ### Wait conditions (R411, R412) -/

/-- The signal as an int64. -/
def State.signal (s : State) (pa : Nat) : Int := intOf 64 false (leNat (s.stgRead pa 8))
/-- Every condition holds. -/
def State.condsHold (s : State) (l : List (Nat × Int)) : Bool := l.all fun c => decide (s.signal c.1 ≤ c.2)

/-- The wait condition of a block. -/
def lookWait (p : Partition) (b : List Byte) : Look (List (Nat × Int)) := do
  let a := fieldOf b 32 8
  if a = 0 then pure []
  else
    Look.need (a % 8 == 0)
    let pa ← lookPlace p a .read
    pure [(pa, intOf 64 false (fieldOf b 40 8))]

/-- The conditions of the chain from a next address on; at most `k` blocks more. -/
def lookChain (p : Partition) : Nat → Nat → Look (List (Nat × Int))
  | k, a =>
    if a = 0 then pure []
    else
      match k with
      | 0 => failure
      | k + 1 => do
        Look.need (a % 64 == 0)
        let b ← lookBytes p a 64
        Look.need (fieldOf b 0 32 == 0 && fieldOf b 48 8 == 0)
        let w ← lookWait p b
        pure (w ++ (← lookChain p k (fieldOf b 56 8)))

/-! ### Play descriptors (R454) -/

/-- What a descriptor and its tables say. -/
structure Plan where
  acts : List Act
  lives : KMap (Option (BitVec 128))
  tiles : List (Word × Word)
  off : Nat
  len : Nat
  image : List Byte
deriving DecidableEq, Repr

/-- An entry of the act table. -/
def lookAct (p : Partition) (n a : Nat) : Look Act := do
  let b ← lookBytes p a 16
  let down := (List.range 4).map fun i => fieldOf b (12 + i) 1
  let depth := fieldOf b 10 2
  Look.need (decide (fieldOf b 8 1 ≤ 1) && fieldOf b 9 1 == 0 && decide (4 ≤ depth ∧ depth ≤ 4096)
    && down.all fun d => d == 255 || decide (d < n))
  pure { entry := BitVec.ofNat 64 (fieldOf b 0 8), latency := fieldOf b 8 1 == 1, depth := depth, down := down.filter (· != 255) }

/-- The live-map table, its numbers rising. -/
def lookLives (p : Partition) : Nat → Nat → Nat → Look (KMap (Option (BitVec 128)))
  | 0, _, _ => pure []
  | k + 1, low, a => do
    let b ← lookBytes p a 32
    let n := fieldOf b 0 2
    Look.need (decide (low ≤ n) && fieldOf b 2 14 == 0 && bits (fieldOf b 16 16) 74 54 == 0)
    pure ((n, some (BitVec.ofNat 128 (fieldOf b 16 16))) :: (← lookLives p k (n + 1) (addrAdd a 32)))

/-- A tile of a descriptor, as tdecl would declare it (R186): what its shape and offset say by themselves. -/
def tileFits (off shape : Nat) : Bool :=
  let rows := bits shape 0 16
  let cols := bits shape 16 16
  let z := 2 ^ bits shape 32 2
  bits shape 34 30 == 0 &&
    (rows == 0 || decide (cols ≠ 0 ∧ cols * z % 64 = 0 ∧ off % 64 = 0 ∧ off + rows * cols * z ≤ 2 ^ 17))

/-- The play descriptor at an address, with its tables and the image's contents. -/
def lookPlan (p : Partition) (a : Nat) : Look Plan := do
  Look.need (a % 64 == 0)
  let b ← lookBytes p a 64
  let f (o n : Nat) : Nat := fieldOf b o n
  let n := f 4 1
  Look.need (f 0 4 == 1 && decide (1 ≤ n ∧ n ≤ 16) && decide (f 5 1 ≤ 64) && f 6 2 == 0 && f 44 4 == 0 && f 56 8 == 0)
  Look.need (f 8 4 % 32 == 0 && decide (f 8 4 + f 12 4 ≤ 0x1FF00) && (f 12 4 != 0 || f 16 8 == 0))
  Look.need (f 24 8 % 16 == 0 && f 32 8 % 32 == 0 && f 48 8 % 16 == 0)
  Look.need (decide (f 40 4 ≤ 65536) && (f 40 4 == 0 || f 32 8 != 0) && (f 5 1 == 0 || f 48 8 != 0))
  let acts ← (List.range n).mapM fun i => lookAct p n (addrAdd (f 24 8) (16 * i))
  let lives ← lookLives p (f 40 4) 0 (f 32 8)
  let tiles ← (List.range (f 5 1)).mapM fun i => do
    let t ← lookBytes p (addrAdd (f 48 8) (16 * i)) 16
    Look.need (tileFits (fieldOf t 0 8) (fieldOf t 8 8))
    pure (BitVec.ofNat 64 (fieldOf t 0 8), BitVec.ofNat 64 (fieldOf t 8 8))
  let image ← lookBytes p (f 16 8) (f 12 4)
  pure { acts := acts, lives := lives, tiles := tiles, off := f 8 4, len := f 12 4, image := image }

/-! ### Packets and command blocks (R410, R411) -/

/-- What a packet asks for. -/
structure Job where
  rel : Nat
  order : Bool
  conds : List (Nat × Int)
  comp : Word
  plan : Option (Plan × List Nat)
  seeds : List Vec
deriving DecidableEq, Repr

/-- The clusters a placement word names. -/
def placement (w : Nat) : List Nat :=
  (List.range 48).flatMap fun k =>
    if w.testBit k then (List.range 16).filterMap fun i => if w.testBit (48 + i) then some (16 * k + i) else none else []

/-- Some core of the cluster cannot hold the image: its range overlaps an entry, or its table is full (R28). -/
def State.imageFits (s : State) (cluster off len : Nat) : Bool :=
  len == 0 || (List.range 16).all fun i =>
    let t := (s.core (16 * cluster + i)).alloc
    !(t.any fun e => e.2.overlaps off ((len + 31) / 32)) && (List.range 16).any fun j => (KMap.get {} t j).st == .free

/-- The packet of 16 bytes, its blocks, its play and its seeds; a failure is a packet fault. -/
def lookJob (p : Partition) (w : Nat) : Look Job := do
  let type := bits w 0 8
  let rel := bits w 8 3
  let blk := bits w 64 64
  Look.need ((type == 1 || type == 2) && decide (rel ≤ 5) && bits w 12 20 == 0 && blk % 64 == 0)
  let b ← lookBytes p blk 64
  let f (o n : Nat) : Nat := fieldOf b o n
  let count := f 24 2
  Look.need (f 26 6 == 0 && f 48 8 % 8 == 0)
  let first ← lookWait p b
  let rest ← lookChain p 3 (f 56 8)
  let job : Job := { rel := rel, order := bits w 11 1 == 1, conds := first ++ rest, comp := BitVec.ofNat 64 (f 48 8), plan := none, seeds := [] }
  if type == 2 then
    Look.need (f 0 16 == 0 && count == 0)
    pure job
  else
    let cs := placement (f 8 8)
    Look.need (!cs.isEmpty && cs.all p.clusters.contains && decide (1 ≤ count ∧ count ≤ 4096))
    let plan ← lookPlan p (f 0 8)
    let seeds ← (List.range count).mapM fun j => do
      let v := vecOf (← lookBytes p (addrAdd (f 16 8) (64 * j)) 64)
      Look.need (!templateBad v)
      pure v
    let ok ← Look.get fun s => cs.filter fun c => s.imageFits c plan.off plan.len
    pure { job with plan := some (plan, ok), seeds := seeds }

/-! ### The journal (R420) -/

/-- Where entry number `k` of a set's journal lies, in its owner's address space. -/
def State.journalAt (s : State) (set k : Nat) : Option Nat × State :=
  let x := s.qset set
  s.rootPlace (s.dir x.owner.toNat).root false .write (addrAdd x.jlbase.toNat (32 * (k % 2 ^ x.jsize.toNat)))

/-- Entries in use. -/
def QSet.count (x : QSet) : Nat := (x.jtail - x.jlhead).toNat
/-- The journal takes no entry (R420). -/
def QSet.full (x : QSet) : Bool := x.count == 2 ^ x.jsize.toNat
def QSet.room (x : QSet) (n : Nat) : Bool := decide (x.count + n ≤ 2 ^ x.jsize.toNat)

/-- The 32 bytes of entry number `k`. -/
def State.journalEntry (s : State) (set k : Nat) : List Byte :=
  match (s.journalAt set k).1 with
  | some pa => s.stgRead pa 32
  | none => List.replicate 32 0

/-- Append an entry: written and published, then the tail advances. -/
def State.journal (s : State) (set kind q pos entry : Nat) (extra : List Byte) : State :=
  let x := s.qset set
  let (pa, s) := s.journalAt set x.jtail.toNat
  let bytes := leBytes 4 x.jtail.toNat ++ [BitVec.ofNat 8 kind, 0] ++ leBytes 2 q ++ leBytes 4 pos ++ leBytes 4 entry ++ extra
  let s := match pa with
    | some pa => s.stgWrite 4 pa bytes
    | none => s
  s.setQset set { s.qset set with jtail := x.jtail + 1 }

def noExtra : List Byte := List.replicate 16 0

/-- Advance the head past entries whose packet has a released entry. -/
def State.trimJournal (s : State) (set : Nat) : Nat → State
  | 0 => s
  | k + 1 =>
    let x := s.qset set
    let at_ (i : Nat) : List Byte := s.journalEntry set (x.jlhead.toNat + i)
    let key (b : List Byte) : Nat × Nat := (fieldOf b 6 2, fieldOf b 8 4)
    if x.jlhead != x.jtail && ((List.range x.count).any fun i => fieldOf (at_ i) 4 1 == 5 && key (at_ i) == key (at_ 0)) then
      (s.setQset set { x with jlhead := x.jlhead + 1 }).trimJournal set k
    else s

/-- Journal the end of an entry's packet: released, and the head moves on. -/
def State.journalReleased (s : State) (set q pos entry : Nat) : State :=
  let s := s.journal set 5 q pos entry noExtra
  s.trimJournal set (s.qset set).count

/-- A packet of the queue is launched and not yet delivered. -/
def State.outstanding (s : State) (q : Nat) : Bool :=
  s.ptab.any fun e => e.2.queue == q && decide (1 ≤ e.2.state ∧ e.2.state ≤ 3)

/-- The partition of a queue. -/
def State.partOfQueue (s : State) (q : Nat) : Option (Nat × Partition) := s.parts.find? fun p => p.2.queues.contains q

end Sys2Proof.Machine
end

