-- ==== Sys2Proof/Machine/Scheduler.lean ====
section
/-!
DEFINITION. Kicks and scans (R413-R416), scheduler threads (R417), queue slots and wait cycles (R419), jl.put (R420), the
seed port (R422), completions (R423), and take-over (R424, R425, R429).
-/

namespace Sys2Proof.Machine

/-! ### Kicks (R415, R416) -/

def State.kick (s : State) (q : Nat) : State := { s with kicks := s.kicks ||| (1#256 <<< q) }
def State.kicked (s : State) (q : Nat) : Bool := s.kicks.getLsbD q
/-- Clear a kick bit and note that the queue is being served. -/
def State.claim (s : State) (q : Nat) : State :=
  { s with kicks := s.kicks &&& ~~~(1#256 <<< q), serving := if s.serving.contains q then s.serving else s.serving ++ [q] }
def State.unserve (s : State) (q : Nat) : State := { s with serving := s.serving.filter fun x => x != q }

/-- The record fault of a compute hart, or the issue fault of a director core (R414). -/
def Agent.fault {α : Type} (a : Agent) (v : Nat) : Ins α := a.fail cRecord .read v

/-- The queue belongs to the agent's partition; Stagehouse on a director core serves every partition (log 22). -/
def State.mayKick (s : State) (a : Agent) (q : Nat) : Bool :=
  let has (p : Option (Nat × Partition)) : Bool := (p.map fun p => p.2.queues.contains q).getD false
  match a with
  | .hart n => has (s.partOfCluster (hartCluster n))
  | .dir d => !(s.dir d).user || has (s.partOfDir d)

def execQkSet (rs1 : Reg) (s : State) : Host.Outcome State Fault Refusal :=
  runBoth (.qkSet rs1) (fun a => do
    let q := (← a.useX rs1).toNat
    if 255 < q ∨ (← Ins.get fun s => s.mayKick a q) = false then a.fault q
    releaseAt a 4
    Ins.upd fun s => s.kick q
    pure (.seq)) s

def execQkScan (rd rs1 : Reg) (s : State) : Host.Outcome State Fault Refusal :=
  runDirector (.qkScan rd rs1) (fun d => do
    if (← dirOf d).user then .stop .illegal
    let x := (← dGet d rs1).toNat
    if 3 < x then .exc 28 x
    if !(← Ins.get fun s => s.owns d x) then .exc 28 x
    match ← Ins.get fun s => (List.range 64).find? fun i => s.kicked (64 * x + i) with
    | none => dPut d rd (BitVec.allOnes 64)
    | some i => do
      Ins.upd fun s => s.claim (64 * x + i)
      dPut d rd (BitVec.ofNat 64 (64 * x + i))
    refreshAt (.dir d) 4
    pure (.seq)) s

/-! ### jl.put (R420) -/

/-- The fields of an entry that must be zero are. -/
def journalOk (e : List Byte) : Bool :=
  let k := fieldOf e 4 1
  decide (1 ≤ k ∧ k ≤ 5) && fieldOf e 5 1 == 0 &&
    (match k with
    | 1 => fieldOf e 12 4 == 0
    | 4 => fieldOf e 20 12 == 0
    | _ => fieldOf e 16 16 == 0)

def execJlPut (rd rs1 rs2 : Reg) (s : State) : Host.Outcome State Fault Refusal :=
  runDirector (.jlPut rd rs1 rs2) (fun d => do
    if (← dirOf d).user then .stop .illegal
    let a := (← dGet d rs1).toNat
    let j := (← dGet d rs2).toNat
    if 3 < j then .exc 28 j
    if !(← Ins.get fun s => s.owns d j) then .exc 28 j
    excIf (a % 32 != 0) 4 a
    let e ← dirLoad d a 32
    excIf (!journalOk e) 28 a
    let x ← Ins.get fun s => s.qset j
    excIf x.full 28 j
    if (← Ins.get fun s => s.part).isSome then releaseAt (.dir d) 4
    dirWrite d (addrAdd x.jlbase.toNat (32 * (x.jtail.toNat % 2 ^ x.jsize.toNat))) (leBytes 4 x.jtail.toNat ++ e.drop 4)
    Ins.upd fun s => s.release (.dir d) 4
    Ins.upd fun s => s.setQset j { s.qset j with jtail := x.jtail + 1 }
    dPut d rd (x.jtail.zeroExtend 64)
    pure (.seq)) s

/-! ### Queue slots (R419) -/

def slotCount : Nat := 128

/-- The slot of a queue whose head packet waits no longer is free. -/
def State.unslot (s : State) (q : Nat) : State :=
  { s with qslots := s.qslots.filter fun x => x.queue != q, evicted := s.evicted.filter fun x => x.queue != q }

/-- The queue's head packet need wait no longer. -/
def State.slotReady (s : State) (x : QSlot) : Bool := s.condsHold x.conds && !(x.order && s.outstanding x.queue)

/-- Put a queue that waits into a slot; one that waits already goes on waiting since then. With every slot taken, the
longest-waiting one moves to the list in memory. -/
def State.placeSlot (s : State) (x : QSlot) : State :=
  let x := match (s.qslots ++ s.evicted).find? fun y => y.queue == x.queue with
    | some y => { x with since := y.since }
    | none => x
  let out (l : List QSlot) : List QSlot := l.filter fun y => y.queue != x.queue
  let slots := out s.qslots
  let s := { s with evicted := out s.evicted, qslots := slots }
  if slots.length < slotCount then { s with qslots := slots ++ [x] }
  else
    match slots.foldl (fun (m : Option QSlot) y => match m with | none => some y | some z => if y.since < z.since then some y else some z) none with
    | none => s
    | some old => { s with qslots := (slots.filter fun y => y.queue != old.queue) ++ [x], evicted := s.evicted ++ [old] }

def execQueueSlotSignalCheck (k : Nat) (s : State) : Host.Outcome State Fault Refusal :=
  happen (
    match s.qslots[k]? with
    | some x => if s.slotReady x then { s with qslots := s.qslots.eraseIdx k }.kick x.queue else s
    | none => s)

/-- After a delivery: evicted queues whose conditions hold are kicked again. -/
def State.recheck (s : State) : State :=
  let due := s.evicted.filter s.slotReady
  due.foldl (fun s x => s.kick x.queue) { s with evicted := s.evicted.filter fun x => !s.slotReady x }

/-! ### Launching (R417, R421, R422) -/

/-- What the thread chooses for a launch (R256): the seeds' harts, where the save-area pool lies, the areas of each
slice, and where the seed records lie. -/
structure Choice where
  harts : List Nat
  pool : Nat
  share : Nat
  recs : Word
deriving DecidableEq, Repr

/-- The choice meets R256: one hart of the mask for each seed, and a share within its bounds. -/
def Choice.ok (c : Choice) (plan : Plan) (clusters : List Nat) (seeds : Nat) : Bool :=
  c.harts.length == seeds && c.harts.all (fun n => decide (n < Config.harts) && clusters.contains (hartCluster n)) &&
    c.pool % 64 == 0 && decide (seeds + (plan.acts.map (·.depth)).sum ≤ c.share ∧ c.share ≤ 65536)

/-- The image in one core's bank, as one allocation with its contents, and its entry and generation; none while the reuse
rule stalls it. -/
def State.placeImage (s : State) (core : Nat) (plan : Plan) : Option (State × Nat × BitVec 16) :=
  let k := clusterOf core
  let t := (s.core core).alloc
  let g := s.nextGen k
  match (List.range 16).find? fun j => (KMap.get {} t j).st == .free with
  | none => none
  | some j =>
    if !s.admits k g then none
    else
      let a : Alloc := ⟨.live, plan.off, (plan.len + 31) / 32, g, false, false⟩
      let s := s.setCore core { s.core core with alloc := KMap.set {} t j a }
      let s := s.setCluster k { s.cluster k with kgen := g }
      let go (acc : State × List Byte) (p : Nat × Nat) : State × List Byte :=
        (acc.1.writeHome (.core core) 0 (some 5) true ⟨locBank core (p.1 / 32), p.1 % 32, acc.2.take p.2, g, true, false, false, (0, 0)⟩,
          acc.2.drop p.2)
      some (((pieces plan.off plan.image.length).foldl go (s, plan.image)).1, j, g)

/-- The tiles of an image on one core, as tdecl declares them. -/
def State.placeTiles (s : State) (core : Nat) (plan : Plan) : State :=
  plan.tiles.zipIdx.foldl (fun s t =>
    match tileOf s (4 * core) (BitVec.ofNat 64 t.2) t.1.1 t.1.2 with
    | some d => s.setCore core { s.core core with tiles := KMap.set none (s.core core).tiles t.2 d }
    | none => s) s

/-- The image on every core of the mask, and its allocations as core, entry and generation. -/
def State.placeImages (s : State) (clusters : List Nat) (plan : Plan) : Option (State × List (Nat × Nat × BitVec 16)) :=
  (clusters.flatMap fun c => (List.range 16).map fun i => 16 * c + i).foldl (fun (acc : Option (State × List (Nat × Nat × BitVec 16))) core =>
    acc.bind fun (s, l) =>
      if plan.len = 0 then some (s.placeTiles core plan, l)
      else (s.placeImage core plan).map fun r => (r.1.placeTiles core plan, l ++ [(core, r.2)])) (some (s, []))

/-- Entries of the seal table, and those reserved for code (R199). -/
def sealTableSize : Nat := 1024
def sealCode : Nat := 64

/-- Seal the physical bytes of an executable leaf as code, unless they are sealed: an adjacent range grows, else one of
the entries reserved for code is taken (R199). -/
def State.sealLeaf (s : State) (l : Leaf) : State :=
  if s.sealedAt l.pbase then s
  else if s.sealTable.any fun e => e.2.2 && e.1 + e.2.1 == l.pbase then
    { s with sealTable := s.sealTable.map fun e => if e.2.2 && e.1 + e.2.1 == l.pbase then (e.1, e.2.1 + 2 ^ l.size, true) else e }
  else if sealCode ≤ (s.sealTable.filter fun e => e.2.2).length then s
  else { s with sealTable := s.sealTable ++ [(l.pbase, 2 ^ l.size, true)] }

/-- Seal every leaf of a .text region (R124). -/
def State.sealRegion (s : State) (root : Word) (va til : Nat) : Nat → State
  | 0 => s
  | k + 1 =>
    if til ≤ va then s
    else
      match walk 4 s root.toNat (va57 va) with
      | (some l, s) => (s.sealLeaf l).sealRegion root (l.vbase + 2 ^ l.size) til k
      | (none, s) => s.sealRegion root (va / 4096 * 4096 + 4096) til k

/-- Seal executable leaves from an address on, upwards or downwards (R124, log 23). -/
def State.sealRun (s : State) (root : Word) (up : Bool) (va : Nat) : Nat → State
  | 0 => s
  | k + 1 =>
    match walk 4 s root.toNat (va57 va) with
    | (some l, s) =>
      if l.x then (s.sealLeaf l).sealRun root up (if up then l.vbase + 2 ^ l.size else l.vbase - 1) k else s
    | (none, s) => s

/-- The code around an act's entry. -/
def State.sealText (s : State) (root : Word) (entry : Word) : State :=
  (s.sealRun root true entry.toNat 64).sealRun root false entry.toNat 64

/-- Bytes of a play's pool: a share of save areas for each slice of the mask (R256). -/
def Choice.poolBytes (c : Choice) (clusters : List Nat) : Nat := 3072 * (c.share * (clusters.map sliceOf).eraseDups.length)

/-- The pool lies in the partition's memory, page by page, and apart from the pools of its other plays (R256). -/
def State.poolFits (s : State) (id : Nat) (p : Partition) (base len : Nat) : Bool :=
  decide (base + len ≤ 2 ^ 64) &&
    ((List.range (len / 4096 + 2)).all fun i =>
      let a := base / 4096 * 4096 + 4096 * i
      decide (base + len ≤ a) || (s.partPlace p a .write).1.isSome) &&
    !(s.plays.any fun x => x.2.part == id && !x.2.ended && decide (x.2.pool.1 < base + len ∧ base < x.2.pool.1 + x.2.pool.2))

/-- The shares of the pool in each slice of the mask. -/
def State.placePools (s : State) (clusters : List Nat) (play : Nat) (c : Choice) : State :=
  (clusters.map sliceOf).eraseDups.zipIdx.foldl (fun s k =>
    let areas := (List.range c.share).map fun j => BitVec.ofNat 64 (c.pool + 3072 * (k.2 * c.share + j))
    s.setSlice k.1 { s.slice k.1 with pools := KMap.set [] (s.slice k.1).pools play areas }) s

/-- The seed records: each seed takes a save area of its hart's slice. -/
def State.placeSeeds (s : State) (owner play : Nat) (latency : Bool) (recs : Word) (l : List (Vec × Nat)) : State :=
  l.zipIdx.foldl (fun s x =>
    match s.takeArea (hartSlice x.1.2) play with
    | none => s
    | some (area, s) =>
      let v := freshRecord x.1.1 area play 0 latency
      let (pa, s) := s.rootPlace (s.dir owner).root false .write (addrAdd recs.toNat (64 * x.2))
      match pa with
      | some pa => s.stgWrite 4 pa (vecBytes v)
      | none => s) s

/-- A free play id: 0 stands for no play, and one that the play table still names is taken. -/
def State.freePlay (s : State) : Nat :=
  let named (p : Nat) : Bool := s.ptab.any fun e => e.2.state != 0 && e.2.play == p
  ((List.range 65535).find? fun p =>
    (match s.play? (p + 1) with | some x => x.ended | none => true) && !named (p + 1)).getD 0 + 1

/-- The entry is free, and no launch has journaled its intent to take it. -/
def State.entryFree (s : State) (e : Nat) : Bool :=
  (s.pentry e).state == 0 && !(s.kept.any fun k => k.stage == 3 && k.entry == e)
/-- A free entry of the play table. -/
def State.freeEntryIdx (s : State) : Option Nat := (List.range ptabSize).find? s.entryFree

/-- The token counters assigned to a play are cleared (R339). -/
def State.clearTokens (s : State) (play : Nat) : State :=
  (s.ranges.filter fun r => r.2.1 == play).foldl (fun s r =>
    s.setSlice r.1 { s.slice r.1 with tokens := (s.slice r.1).tokens.filter fun t => !decide (r.2.2.1 ≤ t.1 ∧ t.1 ≤ r.2.2.2) }) s

/-- Seed every record, first to last; a seed already accepted is ignored (R422). -/
def State.seedAll (s : State) (entry : Nat) (harts : List Nat) : State :=
  harts.zipIdx.foldl (fun s h =>
    s.seedPort entry h.2 h.1) (match s.play? (s.pentry entry).play with
      | some _ => harts.foldl (fun s n => s.castOn (coreOf n) (s.pentry entry).play) s
      | none => s)

/-- Launch a ready packet: its play is placed and its entry made (R417, R421, R424); none while the reuse rule stalls an
image. -/
def State.launch (s : State) (set q pos entry : Nat) (part : Nat) (job : Job) (c : Choice) : Option State :=
  let owner := (s.qset set).owner.toNat
  match job.plan with
  | none =>
    some ({ s with targets := KMap.set [] s.targets entry [] }.setPentry entry { w0 := entryKey pos q job.rel set 0 1, w1 := 0, w2 := job.comp, w3 := 0, w4 := 0 })
  | some (plan, clusters) =>
    let p := s.freePlay
    (s.placeImages clusters plan).map fun (r : State × List (Nat × Nat × BitVec 16)) =>
      let s := r.1
      let who := ((s.parts.find? fun x => x.1 == part).map (·.2)).getD {}
      let s := who.text.foldl (fun s x => s.sealRegion who.root x.1 (x.1 + x.2) (x.2 / 4096 + 2)) s
      let s := plan.acts.foldl (fun s a => s.sealText who.root a.entry) s
      let s := s.placePools clusters p c
      let s := s.clearTokens p
      let s := s.setPlay p {
        part := part, acts := plan.acts, lives := plan.lives, clusters := clusters
        image := if plan.len = 0 then none else some (plan.off, plan.len), imageAllocs := r.2
        pool := (c.pool, c.poolBytes clusters), entry := entry }
      let s : State := if s.dbg.ran q pos then { s with dbg := { s.dbg with plays := s.dbg.plays ++ [p] } } else s
      let s := if s.host.step = 5 then { s with host := { s.host with step := 6 } } else s
      let latency := ((plan.acts.head?).map (·.latency)).getD false
      let s := s.placeSeeds owner p latency c.recs (job.seeds.zip c.harts)
      { s with targets := KMap.set [] s.targets entry c.harts }.setPentry entry {
        w0 := entryKey pos q job.rel set p 1, w1 := c.recs, w2 := job.comp, w3 := BitVec.ofNat 64 job.seeds.length, w4 := 0 }

/-! ### Completion (R423) -/

/-- Publish a core's phase store buffer, and what its harts made and captured, at a scope. -/
def State.publishCore (s : State) (core scope : Nat) : State :=
  [0, 1, 2, 3].foldl (fun s j => s.release (.hart (4 * core + j)) scope) s

/-- The image allocations of an ended play are freed, where they are still the play's (R28). -/
def State.freeImages (s : State) (x : Play) : State :=
  x.imageAllocs.foldl (fun s u =>
    let a := KMap.get {} (s.core u.1).alloc u.2.1
    if a.st = .live ∧ a.gen = u.2.2 then s.freeEntry (clusterOf u.1) (u.1 % 16) u.2.1 a else s) s

/-- The play's cues are gone, and their pins with them. -/
def State.forgetPins (s : State) (x : Play) : State :=
  { s with harts := s.harts.map fun h => (h.1, { h.2 with pins := h.2.pins.filter fun p => !x.pins (some (h.1, p.cue)) }) }

/-- A play is over: its image, queues, pools, pins and token counters go. -/
def State.endPlay (s : State) (p : Nat) (x : Play) : State :=
  let s := (s.freeImages x).forgetPins x
  let s := s.setPlay p { x with ended := true }
  { s with
    ranges := s.ranges.filter fun r => r.2.1 != p
    slices := s.slices.map fun k => (k.1, { k.2 with
      acts := k.2.acts.filter fun a => a.1 / 16 != p
      pools := KMap.set [] k.2.pools p [] }) }

/-- A write of an engine or unit of a cluster, slice or domain of a play's placement. -/
def Writer.serves (w : Writer) (clusters : List Nat) : Bool :=
  match w with
  | .cluster n => clusters.contains n
  | .slice n => clusters.any fun c => sliceOf c == n
  | .domain n => clusters.any fun c => domainOf (sliceOf c) == n
  | _ => false

/-- What the engines of a placement have written is published at a scope too (R215, log 40). -/
def State.publishEngines (s : State) (clusters : List Nat) (scope : Nat) : State :=
  { s with log := s.log.map fun r => if r.writer.serves clusters then { r with pub := raisePub r.pub scope } else r }

/-- Engine work accepted for a play goes on: a copy command or queued selection of one of its cues, or a task of it. -/
def State.playWorks (s : State) (p : Nat) (x : Play) : Bool :=
  (s.clusters.any fun k => (k.2.copy.any fun c => x.pins c.pin) || k.2.jobs.any fun j => x.pins j.pin) ||
    s.slices.any fun k => k.2.tasks.any fun t => t.play == some p
/-- The entry's play ended in error, and engine work accepted for it goes on (R453 step 4). -/
def State.entryWorks (s : State) (e : PEntry) : Bool :=
  match (if e.play = 0 then none else s.play? e.play) with
  | some x => x.error.isSome && s.playWorks e.play x
  | none => false

/-- An entry whose seeds are accepted and whose cues are gone takes the next number; its placement publishes at rel. Of a
play that ended in error, the engine work completes before (R215, R453). -/
def State.completeEntry (s : State) (entry : Nat) : State :=
  let e := s.pentry entry
  if e.state ≠ 1 ∨ e.accepted ≠ e.declared ∨ e.live ≠ 0 ∨ s.entryWorks e = true then s
  else
    let q := s.qset e.set
    let s := s.setQset e.set { q with compSeq := q.compSeq + 1 }
    let s := s.setPentry entry ({ e with w4 := q.compSeq.zeroExtend 64 }.setState 2)
    match (if e.play = 0 then none else s.play? e.play) with
    | none => s
    | some x =>
      let cores := (s.cores.map (·.1)).filter fun c => x.clusters.contains (clusterOf c)
      let s := cores.foldl (fun s c => s.publishCore c e.rel) s
      (s.publishEngines x.clusters e.rel).endPlay e.play x

def execPlayCompletion (entry : Nat) (s : State) : Host.Outcome State Fault Refusal :=
  happen (if entry < ptabSize then s.completeEntry entry else s)

/-- An earlier number of the set is still in one of the states. -/
def State.earlier (s : State) (e : PEntry) (states : List Nat) : Bool :=
  s.ptab.any fun x => x.2.set == e.set && states.contains x.2.state && decide ((e.number - x.2.number - 1).toNat < 2 ^ 31)

/-- Decrement a completion signal, with release at rel. That of a run of ixdb lies in Stagehouse memory (R371). -/
def State.signalDown (s : State) (q pos : Nat) (signal : Word) (rel : Nat) : State :=
  match (if signal = 0 then none else s.partOfQueue q) with
  | none => s
  | some (_, p) =>
    let (pa, s) := if s.dbg.ran q pos then (some signal.toNat, s) else s.partPlace p signal.toNat .write
    match pa with
    | none => s
    | some pa => s.stgWrite (max rel 4) pa (wordBytes (wordOf (s.stgRead pa 8) - 1))

/-- An entry is delivered once the earlier ones are, or held while the set is (R423). -/
def State.deliver (s : State) (entry : Nat) : State :=
  let e := s.pentry entry
  let held := (s.qset e.set).hold
  if held then (if e.state = 2 ∧ s.earlier e [2] = false then s.setPentry entry (e.setState 3) else s)
  else if (e.state = 2 ∨ e.state = 3) ∧ s.earlier e [2, 3] = false then
    let s := s.signalDown e.queue e.pos e.w2 e.rel
    let s := s.setPentry entry (e.setState 4)
    let s := { s with dbg := s.dbg.ended e.queue e.pos e.play ((s.play? e.play).bind fun x => x.error) }
    -- a packet a director core issued is complete (R398)
    let mine (i : Issued) : Bool := i.queue == e.queue && i.pos == e.pos
    let s := (s.issued.filter mine).foldl (fun s i => s.report i.dc { sender := dirId i.dc, seq := i.seq, status := 0, payload := 0 })
      { s with issued := s.issued.filter fun i => !mine i }
    s.recheck
  else s

/-- Deliver what a set held, in ascending number. -/
def State.deliverHeld (s : State) (set : Nat) : Nat → State
  | 0 => s
  | k + 1 =>
    match s.ptab.find? fun e => e.2.set == set && e.2.state == 3 && !s.earlier e.2 [2, 3] with
    | none => s
    | some e => (s.deliver e.1).deliverHeld set k

def execPlayCompletionDelivery (entry : Nat) (s : State) : Host.Outcome State Fault Refusal :=
  happen (if entry < ptabSize then s.deliver entry else s)

/-- A csr write of a queue-set register by a core in S-mode; once hold has fallen, the held entries are delivered. -/
def execQsetWrite (dc csr : Nat) (v : BitVec 64) (s : State) : Host.Outcome State Fault Refusal :=
  happen (
    if dc < Config.directors ∧ (s.dir dc).user = false ∧ 0x5D0 ≤ csr ∧ csr ≤ 0x5DB then
      let t := s.qsetPut csr v
      if csr ≤ 0x5D3 ∧ (t.qset (csr - 0x5D0)).hold = false then t.deliverHeld (csr - 0x5D0) ptabSize else t
    else s)

/-- The thread may act: its core runs Stagehouse. -/
def State.threadUp (s : State) (set : Nat) : Bool :=
  let d := s.dir (s.qset set).owner.toNat
  d.run == .active

/-- The pc stands at one of Stagehouse's entries, in S-mode: the routine there is Stagehouse's own (R428). -/
def State.atEntry (s : State) (d : Nat) : Bool :=
  match s.symbols with
  | some y => !(s.dir d).user && ((s.dir d).pc == y.launch || (s.dir d).pc == y.reseed)
  | none => false
/-- The thread may serve queues: Stagehouse serves them at all (R433), no play is halted (R449), and the thread's core runs
neither a take-over routine nor one of Stagehouse's entries (R428, R429). -/
def State.threadServes (s : State) (set : Nat) : Bool :=
  let d := (s.qset set).owner.toNat
  s.threadUp set && s.host.ready && !s.host.fatal && (s.dir d).routine.isNone && !s.atEntry d

/-- The owner journals completed, frees the entry, and journals released. -/
def State.retireEntry (s : State) (entry : Nat) : State :=
  let e := s.pentry entry
  let s := s.journal e.set 4 e.queue e.pos entry (leBytes 4 e.number.toNat ++ List.replicate 12 0)
  let s := s.setPentry entry (e.setState 0)
  s.journalReleased e.set e.queue e.pos entry

def State.retireAll (s : State) (set : Nat) : Nat → State
  | 0 => s
  | k + 1 =>
    match s.ptab.find? fun e => e.2.set == set && e.2.state == 4 && (s.qset set).room 2 with
    | none => s
    | some e => (s.retireEntry e.1).retireAll set k

def execLocalInterrupt17Service (set : Nat) (s : State) : Host.Outcome State Fault Refusal :=
  happen (
    let d := s.dir (s.qset set).owner.toNat
    if set < 4 ∧ s.threadUp set = true ∧ (d.user = true ∨ d.sieBit = true) then s.retireAll set ptabSize else s)

/-! ### Seed port stores (R422) -/

/-- A store to a seed port: a core that does not own the set takes the store access fault, with the port's address,
which the manual does not give (log 10). -/
def execSeedPortStore (dc entry : Nat) (v : BitVec 64) (s : State) : Host.Outcome State Fault Refusal :=
  happen (
    if dc < Config.directors ∧ entry < ptabSize then
      if s.owns dc (s.pentry entry).set then s.seedPort entry (bits v.toNat 0 16) (bits v.toNat 16 18)
      else { s with freeCount := s.freeCount + 1 }.takeExc dc 7 (Config.freeWord s.freeCount).toNat (s.dir dc).pc
    else s)

/-! ### Serving a queue (R417) -/

/-- The head packet of a queue: one kept from before, else the one at the read index. -/
def State.headPacket (s : State) (q : Nat) : Option (Kept × Bool) :=
  match s.kept.find? fun k => k.queue == q with
  | some k => some (k, true)
  | none =>
    let r := s.qRead q
    if r = s.qWrite q then none else some ({ queue := q, pos := r, stage := 0, packet := BitVec.ofNat 128 (leNat (s.stgRead (s.packetAddr q r) 16)) }, false)

/-- Kick every queue of the set that has packets. -/
def State.rescan (s : State) (set : Nat) : State :=
  (List.range 64).foldl (fun s i =>
    let q := 64 * set + i
    if (s.partOfQueue q).isSome && s.qRead q != s.qWrite q then s.kick q else s) s

/-- The take-over of a set ends once its replay has nothing left to serve, on a queue that is served at all: the set is
scanned, hold falls, and the held entries go (R425). -/
def State.endTaking (s : State) (set : Nat) : State :=
  let x := s.qset set
  if x.taking && !(s.kept.any fun k => k.queue / 64 == set && k.replay && s.qStatus k.queue == 0) then
    let s := s.rescan set
    (s.setQset set { s.qset set with hold := false, taking := false }).deliverHeld set ptabSize
  else s

/-- A packet that was kept is no longer part of a replay. -/
def State.served (s : State) (k : Kept) (keep : Bool) : State :=
  let s := { s with kept := (s.kept.filter fun (x : Kept) => !(x.queue == k.queue && x.pos == k.pos)) ++ (if keep then [{ k with replay := false }] else []) }
  s.endTaking (k.queue / 64)

/-- The harts a run of ixdb lists for a packet (R371); none where the thread chooses. -/
def State.listed (s : State) (q pos : Nat) : Option (List Nat) :=
  match s.dbg.runs.find? fun r => r.1 == q * 2 ^ 32 + pos with
  | some (_, []) => none
  | some (_, l) => some l
  | none => none

/-- The thread sets a queue's status to packet fault (R412). -/
def State.packetFault (s : State) (k : Kept) (was : Bool) : State :=
  let s := ((s.queueStatus k.queue 1 k.pos 0).unserve k.queue).unslot k.queue
  if was then s.served k false else s

/-- A kept packet, as it now stands: in its place, or behind the others. -/
def State.keepAs (s : State) (k : Kept) : State :=
  let mine (x : Kept) : Bool := x.queue == k.queue && x.pos == k.pos
  { s with kept := if s.kept.any mine then s.kept.map fun x => if mine x then k else x else s.kept ++ [k] }

/-- The next step of serving a packet journals. -/
def Kept.journals (k : Kept) : Bool := k.stage == 0 || k.stage == 2 || decide (5 ≤ k.stage)

/-- The next step of serving a packet for a set (R417); none where it has to wait, or finds the journal full. -/
def State.serveStep (s : State) (set : Nat) (k : Kept) (part : Nat) (job : Job) (c : Choice) : Option (State × Kept) :=
  let q := k.queue
  if k.journals && (s.qset set).full then none
  else
  match k.stage with
  | 0 => some (s.journal set 1 q k.pos 0 (leBytes 16 k.packet.toNat), { k with stage := 1 })
  | 1 => some (s.qPut q 20 4 (k.pos + 1), { k with stage := 2 })
  | 2 => s.freeEntryIdx.map fun e => (s.journal set 2 q k.pos e noExtra, { k with stage := 3, entry := e })
  | 3 =>
    let entry := if (s.pentry k.entry).state = 0 then some k.entry else s.freeEntryIdx
    entry.bind fun e => (s.launch set q k.pos e part job c).map fun s => (s, { k with stage := 4, entry := e })
  | 4 => some (s.seedAll k.entry (KMap.get [] s.targets k.entry), { k with stage := 5 })
  | _ => some (s.journal set 3 q k.pos k.entry noExtra, { k with stage := 6 })

/-- Up to `n` steps of serving a packet. -/
def State.serveSteps (s : State) (set : Nat) (k : Kept) (part : Nat) (job : Job) (c : Choice) : Nat → State × Kept
  | 0 => (s, k)
  | n + 1 =>
    match s.serveStep set k part job c with
    | none => (s, k)
    | some (s, k) => if k.stage = 6 then (s, k) else (s.keepAs k).serveSteps set k part job c n

/-- The packet's conditions hold, and where it asks for order, the earlier ones are delivered (R412). -/
def State.jobReady (s : State) (q : Nat) (job : Job) : Bool := s.condsHold job.conds && !(job.order && s.outstanding q)

/-- The thread's choices fit the packet; none where the packet is faulty for want of a place (R28, R256, R371). -/
def State.choiceFits (s : State) (q pos : Nat) (job : Job) (c : Choice) : Option Bool :=
  let lst := s.listed q pos
  match job.plan with
  | none => some true
  | some (plan, cs) =>
    if cs.isEmpty || c.share == 0 || ((lst.map fun l => l.any fun n => !cs.contains (hartCluster n)).getD false) then none
    else
      let room := match s.partOfQueue q with
        | some (id, p) => s.poolFits id p c.pool (c.poolBytes cs)
        | none => false
      some (c.ok plan cs job.seeds.length && room && (match lst with | some l => c.harts == l | none => true))

/-- Serve the head packet of a claimed queue by at most `n` steps: it is faulty, or it waits, or it goes on. -/
def State.serveHead (s : State) (k : Kept) (was : Bool) (part : Nat × Partition) (c : Choice) (n : Nat) : State :=
  let q := k.queue
  let (r, s) := (lookJob part.2 k.packet.toNat : Look Job) s
  match r with
  | none => s.packetFault k was
  | some job =>
    if decide (k.stage < 3) && !s.jobReady q job then
      let s := (s.placeSlot ⟨q, job.conds, job.order, s.time.toNat⟩).unserve q
      if was then s.served k true else s
    else
      match (if k.stage < 4 then s.choiceFits q k.pos job c else some true) with
      | none => s.packetFault k was
      | some false => s
      | some true =>
        let (s, k) := (s.unslot q).serveSteps (q / 64) k part.1 job c n
        if k.stage = 6 then s.served k false else s

/-- Steps of serving a packet. -/
def serveLength : Nat := 6

/-- One packet of a claimed queue is served, by at most `n` steps. -/
def State.playLaunch (s : State) (q : Nat) (c : Choice) (n : Nat := serveLength) : State :=
  let set := q / 64
  if q > 255 || !s.threadServes set || !(s.qset set).room 3 then s
  else
    let s := if s.kicked q then s.claim q else s
    if !s.serving.contains q then s
    else if s.qStatus q ≠ 0 then (s.unserve q).endTaking set
    else
      match s.headPacket q, s.partOfQueue q with
      | some (k, was), some part => s.serveHead k was part c n
      | _, _ => s.unserve q

def execPlayLaunch (q : Nat) (harts : List Nat) (pool : BitVec 64) (share : Nat) (recs : BitVec 64) (s : State) :
    Host.Outcome State Fault Refusal :=
  happen (s.playLaunch q ⟨harts, pool.toNat, share, recs⟩)

/-! ### Wait cycles (R419) -/

/-- The completion signals of a queue's pending packets, as physical addresses: those in its ring, and those kept. -/
def State.pendingSignals (s : State) (q : Nat) : List Nat :=
  match s.partOfQueue q with
  | none => []
  | some (_, p) =>
    let r := s.qRead q
    let ring := (List.range ((s.qWrite q + 2 ^ 32 - r) % 2 ^ 32 % 65537)).map fun i =>
      leNat (s.stgRead (s.packetAddr q ((r + i) % 2 ^ 32)) 16)
    (((s.kept.filter fun k => k.queue == q).map fun k => k.packet.toNat) ++ ring).filterMap fun w =>
      let look : Look Nat := do
        let b ← lookBytes p (bits w 64 64) 64
        Look.need (fieldOf b 48 8 != 0)
        lookPlace p (fieldOf b 48 8) .write
      (look s).1

/-- The members wait only on signals that other members' pending packets complete. -/
def State.waitCycle (s : State) (members : List Nat) : Bool :=
  let slots := members.filterMap fun q => (s.qslots ++ s.evicted).find? fun x => x.queue == q
  !members.isEmpty && slots.length == members.length && slots.all fun x =>
    let open_ := x.conds.filter fun c => !s.condsHold [c]
    !open_.isEmpty && !(x.order && s.outstanding x.queue) &&
      open_.all fun c => members.any fun q => q != x.queue && (s.pendingSignals q).contains c.1

/-- Stagehouse notices a wait cycle. -/
def State.noteCycle (s : State) (members : List Nat) : State :=
  if members.eraseDups = members ∧ s.waitCycle members = true ∧ (s.cycles.any fun c => c.1 == members) = false then
    { s with cycles := s.cycles ++ [(members, s.time.toNat)] }
  else s
/-- Cycles that no longer hold are forgotten. -/
def State.keepCycles (s : State) : State := { s with cycles := s.cycles.filter fun c => s.waitCycle c.1 }
/-- A noticed cycle has held for the timeout. -/
def State.cycleDue (s : State) (members : List Nat) : Bool :=
  s.cycles.any fun c => c.1 == members && decide (c.2 + s.waitTimeout ≤ s.time.toNat)

def execWaitCycleTimeout (members : List Nat) (s : State) : Host.Outcome State Fault Refusal :=
  happen (
    if s.waitCycle members = true ∧ s.cycleDue members = true then
      members.foldl (fun s q =>
        let pos := match s.headPacket q with | some (k, _) => k.pos | none => s.qRead q
        let s := s.queueStatus q 2 pos 0
        s.unslot q) s
    else s)

/-! ### Take-over (R424, R425, R429) -/

/-- The core that stands by for a set: thread n's core stands by for set n + 1 until a take-over changes it. -/
def State.standbyOf (s : State) (set : Nat) : Nat := (s.qset set).standby.getD (4 * ((set + 3) % 4))

/-- The message of R424 to a standby. -/
def State.takeOverMessage (s : State) (failed standby : Nat) : State :=
  s.post (dirId failed) (dirId standby) { payload := BitVec.ofNat 512 (1 + failed * 2 ^ 64), side := sideWord 1 0 0 (dirId failed) }

/-- Firmware outside imem halts the core and tells the standbys of the sets it owned. -/
def State.machineCheck (s : State) (d : Nat) : State :=
  let s := s.setDir d { s.dir d with run := .halted, injected := false }
  [0, 1, 2, 3].foldl (fun s set =>
    if s.owns d set then
      let s := s.setQset set { s.qset set with alarm := true }
      s.takeOverMessage d (s.standbyOf set)
    else s) s

/-- An uncorrectable error meets the core's next fetch from imem. -/
def execImemMachineCheck (dc : Nat) (s : State) : Host.Outcome State Fault Refusal :=
  happen (if dc < Config.directors ∧ (s.dir dc).run ≠ .halted then s.machineCheck dc else s)

/-- 100 µs in the time base. -/
def heartbeatLimit : Nat := 10000

/-- The heartbeat word of a scheduler thread, and when it was last written (R417). -/
def State.beat (s : State) (n : Nat) : Word × Nat := KMap.get (0, 0) s.beats n
/-- The thread that owns a set writes its heartbeat, where its core runs. -/
def State.heartbeat (s : State) (n : Nat) : State :=
  if n < 4 ∧ s.threadUp n = true then { s with beats := KMap.set (0, 0) s.beats n ((s.beat n).1 + 1, s.time.toNat) } else s
/-- Every thread whose core runs writes its heartbeat, as it does at all times. -/
def State.heartbeats (s : State) : State := [0, 1, 2, 3].foldl (fun s n => s.heartbeat n) s

/-- A standby sees the heartbeat of a set unchanged for 100 µs. -/
def execHeartbeatTimeout (n : Nat) (s : State) : Host.Outcome State Fault Refusal :=
  happen (
    if n < 4 ∧ (s.beat n).2 + heartbeatLimit ≤ s.time.toNat then s.setQset n { s.qset n with alarm := true } else s)

/-- The standby is told, and its core runs, no routine of an earlier take-over among it. -/
def State.mayTake (s : State) (set : Nat) : Bool :=
  (s.qset set).alarm && (s.dir (s.standbyOf set)).run == .active && (s.dir (s.standbyOf set)).routine.isNone

/-- Journal entries newest first, as (kind, queue, position, entry, extra). -/
def State.replayList (s : State) (set : Nat) : List (Nat × Nat × Nat × Nat × List Byte) :=
  let x := s.qset set
  ((List.range x.count).map fun i =>
    let b := s.journalEntry set (x.jlhead.toNat + i)
    (fieldOf b 4 1, fieldOf b 6 2, fieldOf b 8 4, fieldOf b 12 4, b.drop 16)).reverse

/-- The packet a fetched entry of the key holds. -/
def packetOf (l : List (Nat × Nat × Nat × Nat × List Byte)) (q pos : Nat) : BitVec 128 :=
  ((l.find? fun e => e.1 == 1 && e.2.1 == q && e.2.2.1 == pos).map fun e => BitVec.ofNat 128 (leNat (e.2.2.2.2.take 16))).getD 0

/-- The packet is kept, to be served from launch intent; or, where that is journaled, from the launch. -/
def State.keep (s : State) (q pos stage entry : Nat) (packet : BitVec 128) : State :=
  { s with
    kept := (s.kept.filter fun k => !(k.queue == q && k.pos == pos)) ++
      [{ queue := q, pos := pos, packet := packet, replay := true, stage := stage, entry := entry }]
    serving := if s.serving.contains q then s.serving else s.serving ++ [q] }

/-- The play table has the key. -/
def State.entryOf (s : State) (q pos : Nat) : Option Nat :=
  (s.ptab.find? fun e => e.2.queue == q && e.2.pos == pos && e.2.state != 0).map (·.1)

/-- The action for the newest entry of a key. -/
def State.replayOne (s : State) (set : Nat) (all : List (Nat × Nat × Nat × Nat × List Byte)) (e : Nat × Nat × Nat × Nat × List Byte) :
    State :=
  let (kind, q, pos, entry, _) := e
  match kind with
  | 1 =>
    let s := if ((pos + 1 + 2 ^ 32 - s.qRead q) % 2 ^ 32) < 2 ^ 31 then s.qPut q 20 4 (pos + 1) else s
    s.keep q pos 2 0 (packetOf all q pos)
  | 2 =>
    match s.entryOf q pos with
    | some i => (s.seedAll i (KMap.get [] s.targets i)).journal set 3 q pos i noExtra
    | none => s.keep q pos 3 entry (packetOf all q pos)
  | 3 => if (s.pentry entry).state = 4 then s.retireEntry entry else s
  | 4 =>
    let s := if (s.entryOf q pos) = some entry then s.setPentry entry ((s.pentry entry).setState 0) else s
    s.journalReleased set q pos entry
  | _ => s

/-- Replay: the first entry met of each key decides. -/
def State.replay (s : State) (set : Nat) : State :=
  let all := s.replayList set
  (all.foldl (fun (acc : State × List (Nat × Nat)) e =>
    let key := (e.2.1, e.2.2.1)
    if acc.2.contains key then acc else (acc.1.replayOne set all e, key :: acc.2)) (s, [])).1

/-- The standby duties of a failed thread pass to another core. -/
def State.inheritDuties (s : State) (failed d : Nat) : State :=
  [0, 1, 2, 3].foldl (fun s t => if s.standbyOf t = failed then s.setQset t { s.qset t with standby := some d } else s) s

/-- The thread's own procedure (R425). -/
def State.takeOver (s : State) (set : Nat) : State :=
  let d := s.standbyOf set
  let failed := (s.qset set).owner.toNat
  let s := s.setQset set { s.qset set with hold := true, owner := BitVec.ofNat 4 d, alarm := false, taking := true }
  -- what the failed thread had begun stands in the journal
  let s := { s with
    kept := s.kept.filter fun k => k.queue / 64 != set
    serving := s.serving.filter fun q => q / 64 != set }
  ((s.replay set).inheritDuties failed d).endTaking set

/-- The registers of a core that a routine's caller saves (R429). -/
def Dir.saved (c : Dir) (set failed : Nat) : Routine :=
  { set := set, failed := failed, ctx := ⟨c.pc, c.x, c.f, c.excEntry, c.called⟩, user := c.user, frm := c.frm, fflags := c.fflags
    sstatus := c.sstatus, sepc := c.sepc, scause := c.scause, stval := c.stval, sscratch := c.sscratch, sie := c.sie
    satp := c.satp, scounteren := c.scounteren, senvcfg := c.senvcfg, sip := c.sip, stvec := c.stvec
    fillSite := c.fillSite, fillShape := c.fillShape, trapped := c.trapped, resv := c.resv }

/-- The core as it was before a routine, but for sp and ra; a fill that was pending is permitted no more (R402, log 117). -/
def Dir.restored (c : Dir) (r : Routine) : Dir :=
  { c with
    pc := r.ctx.pc, x := KMap.set 0 (KMap.set 0 r.ctx.x 1 (c.getX 1)) 2 (c.getX 2), f := r.ctx.f, excEntry := r.ctx.entry
    called := r.ctx.called, user := r.user, frm := r.frm, fflags := r.fflags, sstatus := r.sstatus, sepc := r.sepc
    scause := r.scause, stval := r.stval, sscratch := r.sscratch, sie := r.sie, satp := r.satp, scounteren := r.scounteren
    senvcfg := r.senvcfg, sip := r.sip, stvec := r.stvec, permit := false, fillSite := r.fillSite, fillShape := r.fillShape
    trapped := r.trapped, resv := r.resv, routine := none }

/-- A registered routine is called instead: S-mode, a0 = the set, interrupts on; everything but sp and ra is saved. The
address it returns to is Stagehouse's (log 10). -/
def State.callRoutine (s : State) (d set : Nat) (pc : Word) : State :=
  let c := s.dir d
  let back := Config.freeWord s.freeCount &&& ~~~1#64
  let failed := (s.qset set).owner.toNat
  let s := { s with freeCount := s.freeCount + 1 }
  let s := s.setQset set { s.qset set with alarm := false }
  s.setDir d { ((c.putX 10 (BitVec.ofNat 64 set)).putX 1 back) with
    user := false, sstatus := setBit c.sstatus 1 true, pc := pc, trapped := false
    routine := some (c.saved set failed, back) }

/-- The routine has returned: the saved registers come back, and the thread takes on the failed one's standby duties. -/
def State.endRoutine (s : State) (d : Nat) : State :=
  match (s.dir d).routine with
  | none => s
  | some (r, _) => (s.setDir d ((s.dir d).restored r)).inheritDuties r.failed d

/-- The core's routine has come back to its caller. -/
def Dir.returned (c : Dir) : Bool :=
  match c.routine with
  | some (_, back) => c.pc == back
  | none => false

/-! ### Stagehouse's entries (R428) -/

/-- Return from an entry: a0 the result; t0 to t6, a1 to a7 and ra hold what the routine left (log 10). -/
def State.stgReturn (s : State) (d : Nat) (a0 : Word) : State :=
  let c := s.dir d
  let lost : List Nat := [1, 5, 6, 7, 11, 12, 13, 14, 15, 16, 17, 28, 29, 30, 31]
  let x := lost.zipIdx.foldl (fun x r => KMap.set 0 x r.1 (Config.freeWord (s.freeCount + r.2))) c.x
  { s with freeCount := s.freeCount + lost.length }.setDir d { c with x := KMap.set 0 x 10 a0, pc := c.getX 1 }

/-- The packet of a call of stg.launch: one whose launch an earlier call has begun goes on where it stands. -/
def State.launchKept (s : State) (q pos : Nat) (packet : BitVec 128) : Kept :=
  ((s.kept.find? fun k => k.queue == q && k.pos == pos && decide (3 ≤ k.stage)).getD
    { queue := q, pos := pos, packet := packet, stage := 2 })

/-- stg.launch: the packet's copy at a3 is served for set a0, queue a1, position a2; a jl.put that finds the journal full
faults (R420). -/
def State.stgLaunch (s : State) (d : Nat) (c : Choice) : State :=
  let r (i : Nat) : Nat := ((s.dir d).getX (BitVec.ofNat 5 (10 + i))).toNat
  let set := r 0
  let q := r 1
  if 3 < set ∨ s.owns d set = false then s.takeExc d 28 set (s.dir d).pc
  else
    match dirLoad d (r 3) 16 s with
    | (.error (.exc e v), t) => t.takeExc d e v (s.dir d).pc
    | (.error _, _) => s
    | (.ok b, s) =>
      let k := s.launchKept q (r 2 % 2 ^ 32) (BitVec.ofNat 128 (leNat b))
      match s.partOfQueue q with
      | none => s.stgReturn d (BitVec.allOnes 64)
      | some part =>
        let (job, s) := (lookJob part.2 k.packet.toNat : Look Job) s
        match job with
        | none => (s.packetFault k false).stgReturn d (BitVec.allOnes 64)
        | some job =>
          if decide (k.stage < 3) && !s.jobReady q job then
            (((s.keepAs k).placeSlot ⟨q, job.conds, job.order, s.time.toNat⟩).unserve q).stgReturn d (BitVec.ofInt 64 (-2))
          else
            match (if k.stage < 4 then s.choiceFits q k.pos job c else some true) with
            | none => (s.packetFault k false).stgReturn d (BitVec.allOnes 64)
            | some false => s
            | some true =>
              let (t, k) := (s.unslot q).serveSteps set k part.1 job c serveLength
              if k.stage = 6 then (t.served k false).stgReturn d (BitVec.ofNat 64 k.entry)
              else if k.journals && (t.qset set).full then t.takeExc d 28 set (t.dir d).pc
              else t

/-- stg.reseed: every seed of entry a1 goes through its port again, to the hart first chosen; the port of an entry whose
set the core does not own faults (R422). -/
def State.stgReseed (s : State) (d : Nat) : State :=
  let e := ((s.dir d).getX 11).toNat % ptabSize
  if (KMap.get [] s.targets e).isEmpty = false ∧ s.owns d (s.pentry e).set = false then
    s.takeExc d 7 (((s.symbols.map fun y => y.ptab.toNat).getD 0) + ptabBytes + 8 * e) (s.dir d).pc
  else (s.seedAll e (KMap.get [] s.targets e)).stgReturn d 0

/-- Stagehouse serves the call a core stands at. -/
def State.stgCall (s : State) (d : Nat) (c : Choice) : State :=
  match s.symbols with
  | some y =>
    if (s.dir d).user || (s.dir d).run != .active || s.host.fatal then s
    else if (s.dir d).pc == y.launch then s.stgLaunch d c
    else if (s.dir d).pc == y.reseed then s.stgReseed d
    else s
  | none => s

def execTakeOver (n : Nat) (s : State) : Host.Outcome State Fault Refusal :=
  happen (
    if n < 4 ∧ s.mayTake n = true then
      let d := s.standbyOf n
      match (s.dir d).takeover.find? fun r => r.1 == n with
      | some (_, pc) => s.callRoutine d n pc
      | none => s.takeOver n
    else s)

end Sys2Proof.Machine
end

