-- ==== Sys2Proof/Machine/Services.lean ====
section
/-!
DEFINITION. Service calls (R426), firmware switches (R427) and attestation reports (R443).
-/

namespace Sys2Proof.Machine

/-! ### svc.call (R426) -/

def State.svc (s : State) (k : Nat) : Svc := KMap.get {} s.svcs k
def State.setSvc (s : State) (k : Nat) (x : Svc) : State := { s with svcs := KMap.set {} s.svcs k x }

/-- The partition an agent acts for. -/
def State.partitionOf (s : State) (a : Agent) : Option (Nat × Partition) :=
  match a with
  | .hart n => s.partOfCluster (hartCluster n)
  | .dir d => s.partOfDir d

/-- The service is configured for the agent's partition; service 1 is for every partition (R443). -/
def State.configured (s : State) (a : Agent) (svc : Nat) : Bool :=
  match s.partitionOf a with
  | some (_, p) => svc == 1 || p.svcs.contains svc
  | none => false

def Call.svc (c : Call) : Nat := bits c.packet.toNat 0 16
def Call.strong (c : Call) : Bool := c.packet.getLsbD 16
def Call.wants (c : Call) : Bool := c.packet.getLsbD 17

/-- Read, and count, the caller's calls. -/
def callNumber (a : Agent) : Ins (BitVec 32) := do
  match a with
  | .hart n => do
    let k := (← hartOf n).svcCount
    setHartOf n fun h => { h with svcCount := k + 1 }
    pure k
  | .dir d => do
    let k := (← dirOf d).svcCount
    setDirOf d fun c => { c with svcCount := k + 1 }
    pure k

/-- The call of a packet at `x`; the house code's are strong and want a reply, whatever the packet says (R452). -/
def svcCallAs (house : Bool) (a : Agent) (x : Nat) : Ins (BitVec 32) := do
  a.deny (x % 32 != 0) cAlign .read x
  let b ← a.load x 32
  match PBytes.firstPoison b with
  | some k => a.fail cPoison .read (addrAdd x k)
  | none => pure ()
  let w := leNat (PBytes.bytes b)
  let svc := bits w 0 16
  if 1023 < svc ∨ bits w 18 46 ≠ 0 ∨ (← Ins.get fun s => s.configured a svc) = false then a.fault x
  let w := if house then w ||| 0x30000 else w
  if w.testBit 16 then releaseAt a 4
  if (← Ins.get fun s => decide ((s.svc svc).size ≤ (s.svc svc).calls.length)) then .stop .hold
  let n ← callNumber a
  Ins.upd fun s => s.setSvc svc { s.svc svc with calls := (s.svc svc).calls ++ [⟨BitVec.ofNat 256 w, a.id, n⟩] }
  pure n

def svcCallAt (a : Agent) (x : Nat) : Ins (BitVec 32) := svcCallAs false a x

def execSvcCall (rd rs1 : Reg) (s : State) : Host.Outcome State Fault Refusal :=
  runBoth (.svcCall rd rs1) (fun a => do
    let x := (← a.useX rs1).toNat
    let n ← svcCallAt a x
    a.writeX rd (n.zeroExtend 64)
    pure (.seq)) s

/-! ### Executing calls -/

/-- A strong call waits for the earlier strong calls of its caller. -/
def Svc.mayRun (x : Svc) (k : Nat) (c : Call) : Bool :=
  !c.strong || !((x.calls.take k).any fun d => d.strong && d.caller == c.caller)

/-- The payload of a reply. -/
def replyPayload (n : BitVec 32) (status : Nat) (result : List Word) : Vec :=
  BitVec.ofNat 512 (n.toNat + status % 2 ^ 32 * 2 ^ 32 + 2 ^ 64 * (leNat (result.flatMap wordBytes) % 2 ^ 448))

/-- Call `k` of a ring is done: it leaves the ring, and its reply is sent from the director core that ran the service
(which one is open, log 8). -/
def State.finishCall (s : State) (svc k status : Nat) (result : List Word) : State :=
  match (s.svc svc).calls[k]? with
  | none => s
  | some c =>
    let s := s.setSvc svc { s.svc svc with calls := (s.svc svc).calls.eraseIdx k }
    if c.wants then
      let (d, s) := s.choose (Config.directors - 1)
      s.post (dirId d) c.caller { payload := replyPayload c.n status result, side := sideWord 2 4 0 (dirId d) }
    else s

/-- The call at place `k` of a service's ring, where it may run. -/
def State.callAt (s : State) (svc k : Nat) : Option Call :=
  match (s.svc svc).calls[k]? with
  | some c => if (s.svc svc).mayRun k c then some c else none
  | none => none

/-- A configured service executes a call: what it does and answers is its own. -/
def execServiceCallReply (svc k status : Nat) (result : List (BitVec 64)) (s : State) : Host.Outcome State Fault Refusal :=
  happen (if svc ≠ 1 ∧ status ≤ 2 ∧ (s.callAt svc k).isSome = true then s.finishCall svc k status result else s)

/-! ### Attestation (R442, R443) -/

/-- Fresh bytes the manual does not give. -/
def State.freeBytes (s : State) (n : Nat) : List Byte × State :=
  ((List.range n).map fun i => Config.freeByte (s.freeCount + i), { s with freeCount := s.freeCount + n })

/-- The fuse state of the device, the same in every report; the manual gives no values. -/
def fuseBytes : List Byte := (List.range 32).map fun i => Config.freeByte (2 ^ 64 + i)

/-- A partition-map entry as bytes to hash; the manual gives no layout (log 10). -/
def Partition.bytes (p : Partition) : List Byte :=
  wordBytes p.root ++ leBytes 8 p.pasid ++ leBytes 2 p.dcs.toNat ++ leBytes 1 p.dbg.toNat ++
    (p.clusters ++ p.queues ++ p.svcs).flatMap (leBytes 2) ++ p.ranges.flatMap fun r => leBytes 8 r.1 ++ leBytes 8 r.2

/-- Signatures of the device's life. -/
def signatures : Nat := 2 ^ 30

/-- Sign a report for a partition: the leaf index is committed first. None when the tree is exhausted. -/
def State.signReport (s : State) (id : Nat) (nonce : List Byte) : Option (List Byte) × State :=
  if signatures ≤ s.flash.leaf then (none, s)
  else
    let s := { s with flash := { s.flash with leaf := s.flash.leaf + 1 } }
    let p := ((s.parts.find? fun p => p.1 == id).map (·.2)).getD {}
    let (sig, s) := s.freeBytes 3284
    (some (leBytes 4 1 ++ leBytes 4 id ++ nonce ++ (s.meas.flatMap fun m => leBytes 32 m.toNat) ++
      leBytes 32 (Config.sha256 p.bytes).toNat ++ fuseBytes ++ leBytes 8 (signatures - s.flash.leaf) ++ sig), s)

/-- The length of a report, and the least buffer for one. -/
def reportLen : Nat := 3524
def reportRoom : Nat := 3584

/-- The partition of a sender id. -/
def State.partOfId (s : State) (id : Nat) : Option (Nat × Partition) :=
  if isDirId id then s.partOfDir (id - 0x10000) else s.partOfCluster (hartCluster id)

/-- The physical addresses of a range for writing, piece by piece. -/
def lookWrite (p : Partition) (va n : Nat) : Look (List (Nat × Nat)) :=
  (pieces va n).mapM fun q => do pure (← lookPlace p q.1 .write, q.2)

/-- Write bytes to pieces, published at a scope. -/
def State.writePieces (s : State) (scope : Nat) (l : List (Nat × Nat)) (bytes : List Byte) : State :=
  (l.foldl (fun (acc : State × List Byte) q => (acc.1.stgWrite scope q.1 (acc.2.take q.2), acc.2.drop q.2)) (s, bytes)).1

/-- Service 1: status and results of a call. -/
def State.attest (s : State) (c : Call) : (Nat × List Word) × State :=
  let w := c.packet.toNat
  let nonceAt := bits w 64 64
  let buf := bits w 128 64
  match s.partOfId c.caller with
  | none => ((1, []), s)
  | some (id, p) =>
    let look : Look (List Byte × List (Nat × Nat)) := do
      Look.need (decide (reportRoom ≤ bits w 192 64) && nonceAt % 32 == 0 && buf % 64 == 0)
      let n ← lookBytes p nonceAt 32
      pure (n, ← lookWrite p buf reportLen)
    let (r, s) := (look s : Option (List Byte × List (Nat × Nat)) × State)
    match r with
    | none => ((1, []), s)
    | some (nonce, places) =>
      let (rep, s) := s.signReport id nonce
      match rep with
      | none => ((2, []), s)
      | some rep => ((0, [BitVec.ofNat 64 reportLen]), s.writePieces 4 places rep)

def execAttestationService (k : Nat) (s : State) : Host.Outcome State Fault Refusal :=
  happen (
    match s.callAt 1 k with
    | some c =>
      let r := s.attest c
      r.2.finishCall 1 k r.1.1 r.1.2
    | none => s)

/-! ### Firmware (R427, R442) -/

/-- Extend a measurement register with the hash of an image; the image's hash is open (log 10). -/
def State.measure (s : State) (i : Nat) : State :=
  let (h, s) := s.freeBytes 32
  { s with meas := s.meas.mapIdx fun j m => if j = i then Config.sha256 (leBytes 32 m.toNat ++ h) else m }

/-- A service loop holds no dequeued call here, so it is at a quiescent point: the new version serves what the ring
holds. -/
def execFirmwareSwitch (svc ver : Nat) (s : State) : Host.Outcome State Fault Refusal :=
  happen (if svc < 1024 then (s.setSvc svc { s.svc svc with version := ver }).measure 3 else s)

end Sys2Proof.Machine
end

