-- ==== Sys2Proof/Machine/System.lean ====
section
/-!
DEFINITION. The host and the module: memory accesses and registers (R431-R434), faults in bulk (R438), shootdowns (R439),
partitions and tenants (R440, R441), start-up and retained state (R442-R446), background work (R447), power (R448),
failure (R449), and Stagehouse's acts on harts (R291, R293).
-/

namespace Sys2Proof.Machine

/-! ### The host's memory accesses (R432) -/

/-- Writes of the host, granule by granule; a whole 64-byte line replaces poison. -/
def State.hostWrite (s : State) (pa : Nat) (data : List Byte) : State :=
  let whole (a : Nat) : Bool := decide (pa ≤ a / 64 * 64 ∧ a / 64 * 64 + 64 ≤ pa + data.length)
  let go (acc : State × List Byte) (p : Nat × Nat) : State × List Byte :=
    let loc := locMem (p.1 / 32)
    let s := acc.1.writeHome .host 0 (some 5) false ⟨loc, p.1 % 32, acc.2.take p.2, 0, false, whole p.1, false, (0, 0)⟩
    ({ s with dirs := s.dirs.map fun d =>
        if (match d.2.resv with | some r => locMem (r.1 / 32) == loc | none => false) then (d.1, { d.2 with resv := none }) else d },
      acc.2.drop p.2)
  ((pieces pa data.length).foldl go (s, data)).1

def execHostMemoryWrite (pa : Nat) (data : List (BitVec 8)) (s : State) : Host.Outcome State Fault Refusal :=
  happen (s.hostWrite pa data)

/-- A host read returns the home copy. -/
def execHostMemoryRead (pa len : Nat) (s : State) : Host.Outcome State Fault Refusal :=
  happen { s with host := { s.host with lastRead := s.sysRead pa len } }

/-! ### The end of what HBM held -/

/-- The base dies zero a range of HBM; nothing of its past remains. -/
def State.bulkZero (s : State) (r : Nat × Nat) : State :=
  let inside (a : Nat) : Bool := decide (r.1 ≤ a ∧ a < r.1 + r.2) && s.inHbm a
  let gone (loc : Nat) : Bool := locIsMem loc && inside (32 * locGran loc)
  { s with
    mem := s.mem.filter fun b => !inside b.1
    memPoison := s.memPoison.filter fun l => !inside (64 * l.1)
    log := s.log.filter fun w => !gone w.loc
    dirBuf := s.dirBuf.filter fun e => !gone e.loc
    cores := s.cores.map fun c => (c.1, { c.2 with
      psb := c.2.psb.filter fun e => !gone e.loc, cache := c.2.cache.filter fun l => !inside (64 * l.1) })
    slices := s.slices.map fun k => (k.1, { k.2 with l2 := k.2.l2.filter fun l => !inside (64 * l) }) }

/-- Where the dump lies: the last 256 MiB of stack 7 (R449). -/
def State.dumpAt (s : State) : Nat := s.hbase + 0x7FF0000000
def dumpSize : Nat := 2 ^ 28

/-! ### Host registers (R433) -/

def execDoorbell (v : BitVec 64) (s : State) : Host.Outcome State Fault Refusal :=
  happen (s.kick (bits v.toNat 0 8))

/-- The cap field takes a value from 900 to 1,800. -/
def State.writeCap (s : State) (v : Word) : State :=
  let c := bits v.toNat 0 16
  if 900 ≤ c ∧ c ≤ 1800 then { s with host := { s.host with cap := c } } else s

def execCapWrite (v : BitVec 64) (s : State) : Host.Outcome State Fault Refusal :=
  happen (s.writeCap v)

/-- The dump is acknowledged: its memory, if a start has left it, is zeroed now (R449). -/
def State.ackDump (s : State) : State :=
  let s := if s.host.dumpKept then s.bulkZero (s.dumpAt, dumpSize) else s
  { s with host := { s.host with dump := false, dumpKept := false, errIrq := false } }

def execDumpAck (s : State) : Host.Outcome State Fault Refusal :=
  happen s.ackDump

/-- What the registers of BAR0 read as; a register that is only written has no value to read (log 10). -/
def State.regAt (s : State) (off : Nat) : Word :=
  let bit (b : Bool) (i : Nat) : Nat := if b then 2 ^ i else 0
  let h := s.host
  let w (n : Nat) : Word := BitVec.ofNat 64 n
  if off = 0 then w (0x0009 * 2 ^ 16 + 1)
  else if off = 8 then w (h.step % 16 * 2 ^ 4 + bit h.mbfree 3 + bit h.dump 2 + bit h.fatal 1 + bit h.ready 0)
  else if off = 0x10 ∨ off = 0x28 then Config.freeWord s.freeCount
  else if off = 0x18 then w (h.cap % 2 ^ 16)
  else if off = 0x20 then w (h.tj % 2 ^ 16 * 2 ^ 16 + h.power % 2 ^ 16)
  else if off = 0x40 then h.cmd
  else if off = 0x48 then h.mbstat
  else if 0x100 ≤ off ∧ off < 0x200 then KMap.get 0 h.data ((off - 0x100) / 8)
  else 0

/-- A read of `len` bytes: aligned and of eight bytes, a register; any other returns all ones. -/
def State.readReg (s : State) (off len : Nat) : State :=
  let v := if off % 8 = 0 ∧ len = 8 then s.regAt off else BitVec.allOnes 64
  { s with freeCount := s.freeCount + 1, host := { s.host with lastReg := v } }

/-- An aligned 8-byte write to a register of BAR0. -/
def State.writeReg (s : State) (off : Nat) (v : Word) : State :=
  if off % 8 ≠ 0 then s
  else if off = 0x10 then s.kick (bits v.toNat 0 8)
  else if off = 0x18 then s.writeCap v
  else if off = 0x28 then (if v.getLsbD 0 then s.ackDump else s)
  else if off = 0x40 then
    if s.host.mbfree then { s with host := { s.host with cmd := v, mbfree := false } } else s
  else if 0x100 ≤ off ∧ off < 0x200 then { s with host := { s.host with data := KMap.set 0 s.host.data ((off - 0x100) / 8) v } }
  else s

def execHostRegisterWrite (off : Nat) (v : BitVec 64) (s : State) : Host.Outcome State Fault Refusal :=
  happen (s.writeReg off v)

/-- A configuration request gets retry status until configuration space answers (R431, R445). -/
def execConfigRequest (s : State) : Host.Outcome State Fault Refusal :=
  happen { s with host := { s.host with lastConfig := decide (2 ≤ s.host.step) } }

/-- The link trains down. -/
def execHostLinkRetrain (width rate : Nat) (s : State) : Host.Outcome State Fault Refusal :=
  happen (
    if [1, 2, 4, 8, 16].contains width && decide (width ≤ s.host.width) && decide (0 < rate ∧ rate ≤ s.host.rate) then
      { s with host := { s.host with width := width, rate := rate } }
    else s)

/-! ### The mailbox (R434) -/

/-- The command that runs, once Stagehouse serves the mailbox (R433). -/
def State.mailbox (s : State) : Option Nat := if s.host.mbfree || !s.host.ready then none else some (bits s.host.cmd.toNat 0 16)

/-- The bytes of the data area. -/
def State.dataBytes (s : State) : List Byte := (List.range 32).flatMap fun i => wordBytes (KMap.get 0 s.host.data i)

/-- A command is done: results, status, and the mailbox is free. -/
def State.mailDone (s : State) (status : Nat) (result : List Byte) : State :=
  let data := (List.range ((result.length + 7) / 8)).foldl (fun m i =>
    let old := wordBytes (KMap.get 0 s.host.data i)
    let part := (result.drop (8 * i)).take 8
    KMap.set 0 m i (wordOf (part ++ old.drop part.length))) s.host.data
  { s with host := { s.host with
      data := data, mbfree := true
      mbstat := BitVec.ofNat 64 (status * 2 ^ 8 + result.length * 2 ^ 16 + bits s.host.cmd.toNat 32 32 * 2 ^ 32) } }

def execReadWearCounters (s : State) : Host.Outcome State Fault Refusal :=
  happen (if s.mailbox = some 1 then s.mailDone 0 (s.flash.wear.flatMap (leBytes 4)) else s)

/-- The report of a partition into a host buffer. -/
def State.mailReport (s : State) : State :=
  let d := s.dataBytes
  let id := fieldOf d 0 4
  let buf := fieldOf d 40 8
  if !(s.parts.any fun p => p.1 == id) || decide (fieldOf d 48 8 < reportRoom) || buf % 64 != 0 then s.mailDone 1 []
  else
    let (rep, s) := s.signReport id ((d.drop 8).take 32)
    match rep with
    | none => s.mailDone 2 []
    | some rep => (s.sysWrite buf rep).mailDone 0 (leBytes 8 reportLen)

def execAttestationReport (s : State) : Host.Outcome State Fault Refusal :=
  happen (if s.mailbox = some 2 then s.mailReport else s)

def execReadFatalRecord (s : State) : Host.Outcome State Fault Refusal :=
  happen (
    if s.mailbox = some 3 then
      let r := s.flash.fatal.getD (0, 0)
      s.mailDone 0 (wordBytes r.1 ++ wordBytes r.2)
    else s)

/-- The queue of a command, and its set's thread runs. -/
def State.mailQueue (s : State) : Nat := fieldOf s.dataBytes 0 2

def execStopQueue (s : State) : Host.Outcome State Fault Refusal :=
  happen (
    if s.mailbox = some 4 then
      let q := s.mailQueue
      if 255 < q then s.mailDone 1 []
      else if s.threadUp (q / 64) then ((s.qPut q 9 3 3).endTaking (q / 64)).mailDone 0 [] else s
    else s)
def execResumeQueue (s : State) : Host.Outcome State Fault Refusal :=
  happen (
    if s.mailbox = some 5 then
      let q := s.mailQueue
      if 255 < q then s.mailDone 1 []
      else if s.threadUp (q / 64) then ((s.qPut q 9 3 0).kick q).mailDone 0 [] else s
    else s)
def execMailboxUnknownCommand (s : State) : Host.Outcome State Fault Refusal :=
  happen (
    match s.mailbox with
    | some c => if c = 0 ∨ 5 < c then s.mailDone 3 [] else s
    | none => s)

/-! ### Faults in bulk (R438) -/

/-- The handler's mapping: the entry is written where the walk of the page ends without a leaf, or at level 0. -/
def State.mapPage (s : State) (table va : Nat) (pte : Word) : Nat → State
  | 0 => s.stgWrite 5 (table + 8 * (va / 2 ^ 12 % 512)) (wordBytes pte)
  | l + 1 =>
    let slot := table + 8 * (va / 2 ^ (12 + 9 * (l + 1)) % 512)
    match pteKind (l + 1) va (leNat (s.stgRead slot 8)) with
    | some (.inr t) => s.mapPage t va pte l
    | _ => s.stgWrite 5 slot (wordBytes pte)

/-- A waiting cue becomes ready: to its act's return list, or to its pin hart (R438). -/
def State.readyCue (s : State) (hart : Nat) (cue : Word) : State :=
  let core := coreOf hart
  let (r, s) := s.homeRecord core cue.toNat
  match r with
  | none => s
  | some v =>
    if recState v ≠ 2 then s
    else
      let v := setField v 160 4 0
      let s := s.homeWrite core (addrAdd cue.toNat 20) [BitVec.ofNat 8 (v.extractLsb' 160 8).toNat]
      if recPinned v then
        let (d, s) := s.choose (Config.directors - 1)
        s.post (dirId d) hart { payload := v, side := sideWord 5 0 0 (dirId d) }
      else s.enqueue (hartSlice hart) true v

/-- A waiting cue's record names the entry its fault has come to (R237, R438). -/
def State.nameFault (s : State) (k : Nat) (c : Nat × Nat × Word) : State :=
  let core := coreOf c.1
  let (r, s) := s.homeRecord core c.2.2.toNat
  match r with
  | none => s
  | some v => s.homeWrite core (addrAdd c.2.2.toNat 24) (leBytes 4 ((setField v 192 26 k).extractLsb' 192 32).toNat)

/-- The entry is cleared; the first fault of the overflow list takes its place. -/
def State.clearFault (s : State) (k : Nat) : State :=
  match s.faultOver with
  | [] => { s with faults := KMap.set none s.faults k none }
  | e :: t => e.cues.foldl (fun s c => s.nameFault k c) { s with faults := KMap.set none s.faults k (some e), faultOver := t }

/-- The oldest entry has waited its window. -/
def State.batchDue (s : State) : Bool :=
  s.faults.any fun e => match e.2 with | some f => decide (f.at_ + s.faultWindow ≤ s.time.toNat) | none => false

/-- The handler deals with one entry of a batch. -/
def State.faultBatch (s : State) (k : Nat) (pte : Word) (resolved : Bool) : State :=
  match KMap.get none s.faults k with
  | none => s
  | some e =>
    if !s.batchDue then s
    else
      let s := s.clearFault k
      if resolved then
        let root := ((s.parts.find? fun p => p.1 == e.part).map (·.2.root)).getD 0
        let s := s.mapPage root.toNat (va57 e.page.toNat) pte 4
        e.cues.foldl (fun s c => s.readyCue c.1 c.2.2) s
      else
        -- the cues of the entry are gone with their plays, and threads get their exception (R451)
        let s := e.cues.foldl (fun s c => (s.addLive c.2.1 (-1)).playError c.2.1 cPage) s
        e.dcs.foldl (fun s d => if s.dirWaits d then s.handThread d else s) s

def execFaultBatch (k : Nat) (pte : BitVec 64) (resolved : Bool) (s : State) : Host.Outcome State Fault Refusal :=
  happen (s.faultBatch k pte resolved)

/-! ### Shootdowns (R439) -/

/-- The entry is named by a request. -/
def TlbEntry.shot (e : TlbEntry) (root : Option Word) (lo len : Nat) : Bool :=
  (match root with | some r => e.root == r | none => true) && decide (e.vbase < lo + len ∧ lo < e.vbase + 2 ^ e.size)

/-- A page is named by a request. -/
def pageShot (root : Option Word) (lo len : Nat) (p : Word × Nat) : Bool :=
  (match root with | some r => p.1 == r | none => true) && decide (va57 (4096 * p.2) < lo + len ∧ lo < va57 (4096 * p.2) + 4096)

/-- Publish the buffered stores made under a request's pages. -/
def State.flushShot (s : State) (root : Option Word) (lo len : Nat) : State :=
  let due (e : SbEntry) : Bool := locIsMem e.loc && e.pages.any (pageShot root lo len)
  let s := (s.cores.map (·.1)).foldl (fun s c =>
    let own := (s.core c).psb.filter due
    own.foldl (fun s e => s.publishEntry (.core c) 5 e) (s.setCore c { s.core c with psb := (s.core c).psb.filter fun e => !due e })) s
  let own := s.dirBuf.filter due
  own.foldl (fun s e => s.publishEntry .dirs 5 e) { s with dirBuf := s.dirBuf.filter fun e => !due e }

/-- A lookahead result has stores made under a request's pages, or engine writes. -/
def Pending.shot (p : Pending) (root : Option Word) (lo len : Nat) : Bool :=
  !p.engs.isEmpty || p.stores.any fun c => locIsMem c.loc && pageShot root lo len c.page

/-- Lookahead stores made under a request's pages reach their buffers; none while one of them waits. -/
def State.finishShot (s : State) (root : Option Word) (lo len : Nat) : Option State :=
  ((s.harts.filter fun h => h.2.pending.any fun p => p.shot root lo len).map (·.1)).foldl
    (fun t n => t.bind fun t => t.completeAll n) (some s)

/-- Engine writes to memory are published at system scope. -/
def State.flushEngines (s : State) : State :=
  let eng (w : Writer) : Bool := match w with | .cluster _ | .slice _ | .domain _ => true | _ => false
  { s with log := s.log.map fun r => if eng r.writer && locIsMem r.loc then { r with pub := raisePub r.pub 5 } else r }

/-- Drop translations everywhere. -/
def State.dropTlb (s : State) (out : TlbEntry → Bool) : State :=
  let keep (l : List TlbEntry) : List TlbEntry := l.filter fun e => !out e
  { s with
    clusters := s.clusters.map fun c => (c.1, { c.2 with utlb := keep c.2.utlb })
    slices := s.slices.map fun k => (k.1, { k.2 with tlb := keep k.2.tlb })
    dirs := s.dirs.map fun d => (d.1, { d.2 with tlb := keep d.2.tlb }) }

def execShootdownRequest (root : Option (BitVec 64)) (lo len : Nat) (s : State) : Host.Outcome State Fault Refusal :=
  happen (
    match (s.dropTlb fun e => e.shot root lo len).finishShot root lo len with
    | none => s
    | some s =>
      let s := s.flushShot root lo len
      let s := s.flushEngines
      { s with host := { s.host with acked := s.host.acked + 1 } })

/-! ### Partitions (R440) -/

/-- A play of the partition is live. -/
def State.partLive (s : State) (p : Nat) : Bool := s.plays.any fun x => x.2.part == p && !x.2.ended

/-- Clusters and director cores belong to no other partition, and the ranges are aligned. -/
def State.mapOk (s : State) (p : Nat) (x : Partition) : Bool :=
  decide (p < 16) && decide (x.ranges.length ≤ 16) && x.ranges.all (fun r => r.1 % 2 ^ 21 == 0 && r.2 % 2 ^ 21 == 0) &&
    x.clusters.all (fun c => decide (c < Config.clusters)) && x.queues.all (fun q => decide (q < 256)) &&
    s.parts.all fun q => q.1 == p || (q.2.clusters.all (fun c => !x.clusters.contains c) && q.2.dcs &&& x.dcs == 0 &&
      q.2.queues.all fun k => !x.queues.contains k)

/-- The die queues of a partition start anew (R231). -/
def State.resetDieqs (s : State) (p : Nat) : State := { s with dieqs := s.dieqs.filter fun q => q.1 % 16 != p }

def execPartitionMapChange (p : Nat) (mask : List Nat) (ranges : List (Nat × Nat)) (root : BitVec 64) (pasid : Nat)
    (queues : List Nat) (dcs : BitVec 16) (dbg : BitVec 3) (svcs : List Nat) (s : State) : Host.Outcome State Fault Refusal :=
  happen (
    let x : Partition := {
      clusters := mask, ranges := ranges, root := root, pasid := pasid, queues := queues, dcs := dcs, dbg := dbg, svcs := svcs
      text := ((s.parts.find? fun q => q.1 == p).map (·.2.text)).getD [] }
    if s.mapOk p x && !s.partLive p then
      -- a core that the partition loses runs only Stagehouse
      let lost := ((s.parts.find? fun q => q.1 == p).map (·.2.dcs)).getD 0 &&& ~~~dcs
      let s := ((List.range Config.directors).filter fun d => lost.getLsbD d).foldl (fun s d => s.clearThreads d) s
      let s := if s.parts.any fun q => q.1 == p then s else s.resetDieqs p
      { s with parts := KMap.insert s.parts p x }
    else s)

/-! ### The end of a tenant (R441) -/

/-- Stagehouse's own entries: the house allocation and the task area. -/
def houseEntry (unit i : Nat) : Bool := if unit = 16 then i == 7 else i == 15

/-- Free every allocation of a cluster but Stagehouse's own, and release the forensic-retired entries (R285). -/
def State.freeAll (s : State) (cluster : Nat) : State :=
  (List.range 17).foldl (fun s unit =>
    let s := (s.table cluster unit).foldl (fun s e =>
      if e.2.st = .live ∧ houseEntry unit e.1 = false then s.freeEntry cluster unit e.1 e.2 else s) s
    (s.table cluster unit).foldl (fun s e => s.releaseForensic cluster unit e.1) s) s

/-- The granule lies in an entry of Stagehouse's own. -/
def houseGran (t : KMap Alloc) (unit g : Nat) : Bool :=
  t.any fun e => houseEntry unit e.1 && decide (e.2.base ≤ 32 * g ∧ 32 * g < e.2.base + 32 * e.2.len)

/-- One complete sweep of a cluster. What Stagehouse's own entries hold of the tenant's cues and tasks is zeroed with it: no
later tenant can read it. -/
def State.sweepAll (s : State) (cluster : Nat) : State :=
  let clean (t : KMap Alloc) (unit : Nat) (g : KMap Gran) : KMap Gran :=
    g.filter fun p => sweepGran t (32 * p.1) p.2 != {} && !houseGran t unit p.1
  let s := (List.range 16).foldl (fun s i =>
    let c := s.core (16 * cluster + i)
    s.setCore (16 * cluster + i) { c with gran := clean c.alloc i c.gran }) s
  let k := s.cluster cluster
  s.setCluster cluster { k with acc := clean k.accAlloc 16 k.acc, reuse := [] }

/-- Messages, commands and bindings of a hart are gone. -/
def Hart.forgetTenant (h : Hart) : Hart :=
  { h with inbox := [], ring := [], q0 := [], q1 := [], q2 := [], q3 := [], mxcfg := none }

/-- What a tenant's threads left on a director core is gone. -/
def Dir.forgetTenant (c : Dir) : Dir :=
  { c with inbox := [], ring := [], x := [], f := [], contexts := [], ic := [], permit := false, resv := none, flight := [], tib := []
           reports := [], appends := [] }

/-- Messages, commands, bindings and registers of a partition's harts, cores and director cores are gone. -/
def State.forgetTenant (s : State) (x : Partition) : State :=
  let inCluster (k : Nat) : Bool := x.clusters.contains k
  let s := ((List.range Config.directors).filter fun d => x.dcs.getLsbD d).foldl (fun s d =>
    let s := s.clearThreads d
    s.setDir d (s.dir d).forgetTenant) s
  { s with
    harts := s.harts.map fun h => if inCluster (hartCluster h.1) then (h.1, h.2.forgetTenant) else h
    cores := s.cores.map fun c => if inCluster (clusterOf c.1) then (c.1, { c.2 with bars := [], tiles := [], watch := [], landing := [] }) else c
    transit := s.transit.filter fun t =>
      !((isHartId t.receiver && inCluster (hartCluster t.receiver)) || (isDirId t.receiver && x.dcs.getLsbD (t.receiver - 0x10000))) }

def State.tenantEnd (s : State) (p : Nat) : State :=
  match s.parts.find? fun q => q.1 == p with
  | none => s
  | some (_, x) =>
    if s.partLive p then s
    else
      let s := x.clusters.foldl (fun s c => s.freeAll c) s
      let s := x.clusters.foldl (fun s c => s.sweepAll c) s
      let s := x.ranges.foldl (fun s r => s.bulkZero r) s
      let s := s.dropTlb fun e => e.root == x.root
      let mine (a : Nat) : Bool := x.owns a
      let s := { s with
        sealTable := s.sealTable.filter fun e => !mine e.1
        seals := s.seals.filter fun l => !(l.any fun r => mine r.1)
        combine := s.combine.filter fun c => (c.2.map fun (y : Combine) => y.part != p).getD true }
      (s.forgetTenant x).resetDieqs p

def execTenantEnd (p : Nat) (s : State) : Host.Outcome State Fault Refusal :=
  happen (s.tenantEnd p)

/-! ### Start-up (R442-R446, R281) -/

/-- The table of R446: the bin of a temperature difference. -/
def wearBin (dt : Nat) : Nat := if dt < 10 then 0 else if dt < 20 then 1 else if dt < 40 then 2 else if dt < 60 then 3 else 4

/-- One thermal cycle is counted, before training. -/
def Flash.countCycle (f : Flash) : Flash :=
  { f with wear := f.wear.mapIdx fun i w => if i = wearBin (f.peak - f.low) then min (w + 1) (2 ^ 32 - 1) else w }

/-- What is trained: stacks 0 to 7, die links 8 to 15 (R8), Glenal ports 16 to 31 (R9). -/
def trainUnits : Nat := 32

/-- The bytes of a training record that are signed. -/
def TrainRec.bytes (r : TrainRec) : List Byte :=
  leBytes 8 r.unit ++ wordBytes r.settings ++ leBytes 8 r.temp ++ leBytes 8 r.volt ++ wordBytes r.serial ++ leBytes 8 r.version

/-- A record is reused (R444): its signature is good, serial number and version match, the temperature is within 10 °C
and the voltage within 2 % of its own, and the unit passes the pattern test. -/
def Outside.reuses (o : Outside) (temp : Nat) (r : TrainRec) : Bool :=
  r.mac == Config.hmac r.bytes && r.serial == KMap.get 0 o.serials r.unit && r.version == o.version
    && decide (r.temp ≤ temp + 10 ∧ temp ≤ r.temp + 10)
    && decide (100 * o.volt ≤ 102 * r.volt ∧ 98 * r.volt ≤ 100 * o.volt)
    && !o.badPattern.contains r.unit

/-- A fresh record of a unit; what settings training finds is open (log 10). -/
def Outside.fresh (o : Outside) (temp unit : Nat) (settings : Word) : TrainRec :=
  let r : TrainRec := {
    unit := unit, settings := settings, temp := temp, volt := o.volt, serial := KMap.get 0 o.serials unit, version := o.version }
  { r with mac := Config.hmac r.bytes }

/-- The result of a unit is put where it is used: a base die's store, or the Glenal port (R6, R9). -/
def State.putTrained (s : State) (r : TrainRec) : State :=
  if r.unit < 8 then s.setBase r.unit { s.base r.unit with trained := some r }
  else if 16 ≤ r.unit then
    { s with glenal := KMap.set {} s.glenal (r.unit - 16) { KMap.get {} s.glenal (r.unit - 16) with trained := some r } }
  else s

/-- Every unit takes its record, or is trained afresh (R444). -/
def State.train (s : State) (temp : Nat) : State :=
  let o := s.outside
  let rs := (List.range trainUnits).map fun u =>
    match s.flash.training.find? fun r => r.unit == u with
    | some r => if o.reuses temp r then r else o.fresh temp u (Config.freeWord (s.freeCount + u))
    | none => o.fresh temp u (Config.freeWord (s.freeCount + u))
  rs.foldl State.putTrained { s with freeCount := s.freeCount + trainUnits, flash := { s.flash with training := rs } }

/-- The firmware images of a start in order, by the register each goes to (R442). -/
def startImages : List Nat := [0, 0, 1, 1, 2, 2]

/-- The images are measured one by one; the start halts at the first whose signature fails (R442). -/
def State.measureAll (s : State) : State :=
  startImages.zipIdx.foldl (fun s i =>
    if s.host.ioError then s
    else
      let s := s.measure i.1
      if s.outside.badImages.contains i.2 then { s with host := { s.host with ioError := true } } else s) s

/-- Stagehouse takes entry 15 of every bank table and entry 7 of every accumulator table; every other entry is free (R240,
R281, R321). -/
def State.takeHouse (s : State) : State :=
  { s with
    cores := (List.range Config.cores).map fun c => (c, { s.core c with
      alloc := [(15, ⟨.live, 0x1FF00, 8, BitVec.ofNat 16 (c % 16 + 1), false, false⟩)] })
    clusters := (List.range Config.clusters).map fun k => (k, { s.cluster k with
      kgen := 17
      accAlloc := [(7, ⟨.live, 224 * 512, 512, 17, false, false⟩)] }) }

/-- The stacks are zeroed, but for a dump that the host has not acknowledged (R281, R445, R449). -/
def State.zeroStacks (s : State) : State :=
  if s.host.dump then
    let s := s.bulkZero (s.hbase, 0x7FF0000000)
    { s with host := { s.host with dumpKept := true } }
  else s.bulkZero (s.hbase, 2 ^ 39)

/-- A line of R445 is reached. -/
def State.reached (s : State) (k : Nat) : State := { s with host := { s.host with step := k } }

/-- The next line of R445 is reached, in the order of the table. The last one is reached at the first launch. The start goes
on to ready also while a refused base leaves the memory offline (log 124). -/
def State.powerUp (s : State) (temp : Nat) : State :=
  if s.host.ioError then s
  else
    match s.host.step with
    | 0 =>
      -- a thermal cycle is counted at a power-up, not at a warm reset (R446)
      let s := if s.warm then s else { s with flash := s.flash.countCycle, tempPeak := temp, tempLow := temp }
      let t := s.measureAll
      if t.host.ioError then t else t.reached 1
    | 1 => s.reached 2
    | 2 => (s.train temp).reached 3
    | 3 => s.zeroStacks.takeHouse.reached 4
    | 4 => let s := s.reached 5; { s with host := { s.host with ready := true } }
    | _ => s

def execPowerUp (temp : Nat) (s : State) : Host.Outcome State Fault Refusal :=
  happen (s.powerUp temp)

/-- The host assigns HBASE at enumeration (R15): once configuration space answers, and before the stacks are in use. What
HBM holds stays in its stacks. A base that is no multiple of 512 GiB is refused, and the memory stays offline. -/
def State.assignBase (s : State) (base : Nat) : State :=
  if s.host.step < 2 ∨ 3 < s.host.step then s
  else if base % 2 ^ 39 ≠ 0 then { s with online := false }
  else
    let old := s.hbase
    let within (b a : Nat) : Bool := decide (b ≤ a ∧ a < b + 2 ^ 39)
    let stays (a : Nat) : Bool := !within old a && !within base a
    let cells := s.mem.filter fun b => within old b.1
    let marks := s.memPoison.filter fun l => within old (64 * l.1)
    { s with
      online := true
      hbase := base
      mem := cells.foldl (fun m b => Memory.setByte m (b.1 - old + base) b.2) (s.mem.filter fun b => stays b.1)
      memPoison := marks.foldl (fun m l => KMap.set false m (l.1 - old / 64 + base / 64) l.2) (s.memPoison.filter fun l => stays (64 * l.1)) }

/-- Reset (R281): everything the module holds is initialised; flash, the host's memory, a dump that waits and the
agenda stay. The module keeps the base it had, and whether that base was refused, until the host assigns one again
(log 124). -/
def State.resetAll (s : State) : State :=
  let keep (a : Nat) : Bool := !s.inHbm a || (s.host.dump && decide (s.dumpAt ≤ a))
  { State.reset with
    agenda := s.agenda
    picks := s.picks
    freeCount := s.freeCount
    hbase := s.hbase
    online := s.online
    outside := s.outside
    warm := true
    mem := s.mem.filter fun b => keep b.1
    flash := s.flash
    tempPeak := s.tempPeak
    tempLow := s.tempLow
    host := { State.reset.host with dump := s.host.dump, errIrq := s.host.dump && s.host.errIrq } }

def execReset (s : State) : Host.Outcome State Fault Refusal :=
  happen s.resetAll

/-- Power is lost: what the module holds but flash is gone; base and refusal stay until the host assigns a base again
(log 124). -/
def State.powerOff (s : State) : State :=
  { State.reset with
    agenda := s.agenda
    picks := s.picks
    freeCount := s.freeCount
    hbase := s.hbase
    online := s.online
    outside := s.outside
    mem := s.mem.filter fun b => !s.inHbm b.1
    flash := s.flash }

def execPowerLoss (s : State) : Host.Outcome State Fault Refusal :=
  happen s.powerOff

/-- The wear and peak checkpoint (R446, R447). -/
def State.checkpoint (s : State) : State := { s with flash := { s.flash with peak := s.tempPeak, low := s.tempLow } }

def execWearCheckpoint (s : State) : Host.Outcome State Fault Refusal :=
  happen s.checkpoint
def execOrderlyShutdown (s : State) : Host.Outcome State Fault Refusal :=
  happen s.checkpoint.powerOff

/-! ### Background work (R447) -/

/-- An uncorrectable error poisons the line; a correctable one is rewritten as it was. -/
def execHbmScrub (pa : Nat) (bad : Bool) (s : State) : Host.Outcome State Fault Refusal :=
  happen (if bad && s.inHbm pa then { s with memPoison := KMap.set false s.memPoison (pa / 64) true } else s)
/-- A bank granule; the other stores a unit scrubs are reached by the acts of Setup (R282, log 103). -/
def execSramScrub (core gran : Nat) (bad : Bool) (s : State) : Host.Outcome State Fault Refusal :=
  happen (
    if bad && decide (core < Config.cores ∧ gran < 4096) then
      let c := s.core core
      s.setCore core { c with gran := KMap.set {} c.gran gran { KMap.get {} c.gran gran with poison := true } }
    else s)
/-- Inside refresh windows; no state that a program sees changes. -/
def execRecalibration (s : State) : Host.Outcome State Fault Refusal :=
  happen s
/-- Each base die manages the refreshes of its stack. -/
def execRefreshManagement (s : State) : Host.Outcome State Fault Refusal :=
  happen ((List.range 8).foldl (fun s n => s.setBase n { s.base n with refreshes := (s.base n).refreshes + 1 }) s)
/-- A sample for the host; nothing the module acts on changes. -/
def execTelemetrySample (s : State) : Host.Outcome State Fault Refusal :=
  happen s

/-! ### Failure (R449) -/

/-- The dump's magic number. -/
def dumpMagic : Nat := 0x504D554453395346

/-- The record of a core in the dump: of each hart its cause registers, cue pointer and pc (log 104). -/
def State.coreRecord (s : State) (core : Nat) : List Byte :=
  (List.range 4).flatMap fun j =>
    let h := s.hart (4 * core + j)
    leBytes 8 h.tcause.toNat ++ wordBytes h.tepc ++ wordBytes h.tval ++ wordBytes h.cueptr ++ wordBytes h.pc
def coreRecordSize : Nat := 160

/-- The records of all cores from an address on: those whose harts are as at reset are zero. -/
def State.coreRecords (s : State) (pa : Nat) : State :=
  let cores := (s.harts.map fun h => coreOf h.1).eraseDups
  cores.foldl (fun t c => t.stgWrite 5 (pa + coreRecordSize * c) (s.coreRecord c)) (s.bulkZero (pa, coreRecordSize * Config.cores))

/-- Every play halts; the dump is written and flagged, the host interrupted, and flash keeps the record. The dump's
summaries have no layout in the manual: their bytes are free (log 24). -/
def State.fatal (s : State) (word : Word) : State :=
  let s := { s with harts := s.harts.map fun (h : Nat × Hart) => if h.2.house && h.2.helper.isNone then h else (h.1, { h.2 with run := .halted }) }
  let (rest, s) := s.freeBytes (4096 - 152)
  let s := s.coreRecords (s.dumpAt + 4096)
  let s := s.stgWrite 5 s.dumpAt
    (leBytes 8 dumpMagic ++ wordBytes word ++ wordBytes s.time ++ (s.meas.flatMap fun (m : BitVec 256) => leBytes 32 m.toNat) ++ rest)
  { s with
    flash := { s.flash with fatal := some (word, s.time) }
    host := { s.host with fatal := true, dump := true, errIrq := true } }

/-- The word of a cause and a source unit. -/
def fatalWord (cause unit : Nat) : Word := BitVec.ofNat 64 (cause % 2 ^ 32 + unit % 2 ^ 32 * 2 ^ 32)

def execFatalError (cause unit : Nat) (s : State) : Host.Outcome State Fault Refusal :=
  happen (s.fatal (fatalWord cause unit))

/-- 1 s in the time base. -/
def trapWindow : Nat := 100000000
/-- The director cores whose Stagehouse runs the scheduler threads (R417). -/
def threadCores : List Nat := [0, 4, 8, 12]

/-- The module has met one of the failures it sees by itself: a junction above 105 °C, 64 harts with double traps within
1 s, or no scheduler thread left. -/
def State.failing (s : State) : Bool :=
  decide (105 < s.host.tj)
    || decide (64 ≤ ((s.trapTimes.filter fun t => decide (s.time.toNat ≤ t.2 + trapWindow)).map (·.1)).eraseDups.length)
    || threadCores.all fun d => (s.dir d).run == .halted

/-- A failure that the module sees becomes a fatal error, once; its number is open (log 10). -/
def State.checkFatal (s : State) : State :=
  if !s.host.fatal && s.failing then { s with freeCount := s.freeCount + 1 }.fatal (Config.freeWord s.freeCount) else s

/-! ### Power (R448) -/

/-- A 100 µs sample: over the cap or above 95 °C the clock steps down by 25 MHz, to no less than 600 MHz. -/
def State.powerSample (s : State) (watts tj : Nat) : State :=
  let hot := decide (s.host.cap < watts ∨ 95 < tj)
  { s with
    host := { s.host with power := watts % 65536, tj := tj % 65536 }
    tempPeak := max s.tempPeak tj
    tempLow := min s.tempLow tj
    mhz := if hot then max 600 (s.mhz - 25) else s.mhz
    clearSince := if hot then none else (match s.clearSince with | some t => some t | none => some s.time.toNat) }

def execPowerSample (watts tj : Nat) (s : State) : Host.Outcome State Fault Refusal :=
  happen (s.powerSample watts tj)

/-- 10 ms in the time base. -/
def clearLimit : Nat := 1000000

def execClockStepUp (s : State) : Host.Outcome State Fault Refusal :=
  happen (
    match s.clearSince with
    | some t => if t + clearLimit ≤ s.time.toNat ∧ s.mhz < 1200 then { s with mhz := s.mhz + 25 } else s
    | none => s)

/-! ### Stagehouse's acts on harts (R291, R293, R449) -/

/-- A hart that halted on a double trap starts again, and its play ends in error. -/
def State.resetHart (s : State) (n : Nat) : State :=
  let h := s.hart n
  let had := h.trapped && h.cueptr != 0 && h.curPlay != 0
  let s := s.dropPins n
  let s := s.setHart n { ({} : Hart) with
    pins := (s.hart n).pins, tvec := h.tvec, ringSize := h.ringSize, ringBase := h.ringBase, inbox := h.inbox, ring := h.ring, fpsup := h.fpsup }
  let s := { s with doubleTraps := s.doubleTraps.filter fun x => x != n }
  if had then
    let s := s.playError h.curPlay 0xFF
    (s.addLive h.curPlay (-1)).giveArea (hartSlice n) h.curPlay h.cueptr
  else s

def execHartReset (hart : Nat) (s : State) : Host.Outcome State Fault Refusal :=
  happen (if hart < Config.harts ∧ s.doubleTraps.contains hart = true then s.resetHart hart else s)

/-- Stagehouse unparks a hart whose fpsup names itself (R293). -/
def execStagehouseUnpark (hart : Nat) (v : BitVec 64) (s : State) : Host.Outcome State Fault Refusal :=
  happen (
    let h := s.hart hart
    if hart < Config.harts ∧ h.parked = true ∧ h.fpsup.toNat = hart then s.setHart hart (h.unpark v) else s)

end Sys2Proof.Machine
end

