-- ==== Sys2Proof/Machine/Debug.lean ====
section
/-!
DEFINITION. The debugger ixdb: what its commands do to the machine and what they print (R39, R40, R125, R284, R296, R344,
R371, R406-R408, R430). A stop itself is where its cause is: Flags, Ops, DirOps and Turns.
-/

namespace Sys2Proof.Machine

/-! ### Whom it may touch (R39) -/

def State.print (s : State) (o : DbgOut) : State := { s with dbg := { s.dbg with out := o :: s.dbg.out } }
/-- Stagehouse refuses a command. -/
def State.refuse (s : State) : State := s.print .refused

/-- A command that names something of partition `p`: the first one attaches ixdb to it, where its debug word has bit 2;
one that names another partition is refused (log 25). -/
def State.within (s : State) (p : Option (Nat × Partition)) (act : State → State) : State :=
  match p with
  | none => s.refuse
  | some (id, x) =>
    if s.dbg.attached then (if s.dbg.part = id then act s else s.refuse)
    else if x.dbg.getLsbD 2 then act { s with dbg := { s.dbg with attached := true, part := id } }
    else s.refuse

/-- A command that names nothing. -/
def State.attachedDo (s : State) (act : State → State) : State := if s.dbg.attached then act s else s.refuse

/-- The partition ixdb is attached to. -/
def State.dbgPart (s : State) : Option (Nat × Partition) :=
  if s.dbg.attached then s.parts.find? fun p => p.1 == s.dbg.part else none

/-- The hart that runs the followed cue, or has stopped at a trap of it (R344); or the selected unit. -/
def State.selected (s : State) : Option Nat :=
  match s.dbg.follow with
  | none => s.dbg.sel
  | some cue => (s.harts.find? fun h => h.2.cueptr == cue && (!h.2.house || h.2.trapped) && s.inDebug h.1).map (·.1)

/-- The agent of a debugger's number. -/
def agentOfUnit (u : Nat) : Agent := if u < 49152 then .hart u else .dir (u - 49152)

/-! ### Selecting, stopping and going on -/

def execIxdbHart (hart : Nat) (s : State) : Host.Outcome State Fault Refusal :=
  happen (
    if hart < Config.harts then
      s.within (s.partOfCluster (hartCluster hart)) fun s => { s with dbg := { s.dbg with sel := some hart, follow := none } }
    else s.refuse)

/-- follow: the cue the selected hart runs. -/
def execIxdbFollow (cue : BitVec 64) (s : State) : Host.Outcome State Fault Refusal :=
  happen (s.attachedDo fun s =>
    match s.selected with
    | some n =>
      if n < Config.harts ∧ (s.hart n).house = false ∧ (s.hart n).cueptr = cue then
        { s with dbg := { s.dbg with follow := some cue, sel := some n } }
      else s.refuse
    | none => s.refuse)

/-- break: it may come before ixdb has attached; a breakpoint stops only what ixdb may act on (R39). -/
def execIxdbBreak (pc : BitVec 64) (s : State) : Host.Outcome State Fault Refusal :=
  happen { s with dbg := { s.dbg with breaks := if s.dbg.breaks.contains pc then s.dbg.breaks else s.dbg.breaks ++ [pc] } }

/-- The selected unit goes on, for at most so many instructions; it passes the breakpoint it stands at, and no
other (log 25). -/
def State.goOn (s : State) (k : Option Nat) : State :=
  match s.selected with
  | none => s.refuse
  | some u =>
    let at_ := (u, match agentOfUnit u with | .hart n => (s.hart n).pc | .dir d => (s.dir d).pc)
    let s := { s with dbg := { s.dbg with skip := if s.dbg.skip.contains at_ then s.dbg.skip else s.dbg.skip ++ [at_] } }
    match agentOfUnit u with
    | .hart n =>
      let h := s.hart n
      s.setHart n { h with stopAfter := k, run := if h.run = .stopped then .active else h.run }
    | .dir d =>
      let c := s.dir d
      s.setDir d { c with stopAfter := k, run := if c.run = .stopped then .active else c.run }

def execIxdbCont (s : State) : Host.Outcome State Fault Refusal := happen (s.attachedDo fun s => s.goOn none)
/-- step: one source line of the selected unit, which assembles to so many instructions. -/
def execIxdbStep (n : Nat) (s : State) : Host.Outcome State Fault Refusal :=
  happen (s.attachedDo fun s => s.goOn (some (max 1 n)))
def execIxdbStepi (s : State) : Host.Outcome State Fault Refusal := happen (s.attachedDo fun s => s.goOn (some 1))

/-- A thread that call started ends, whether it runs on its core or its context is put aside (R406). -/
def State.endCalled (s : State) (d : Nat) : State :=
  let s := if (s.dir d).called then s.endThread d else s
  (s.setDir d { s.dir d with contexts := (s.dir d).contexts.filter fun x => !x.called }).forgetThread d

/-- quit: ixdb detaches; threads it called end, and the device continues: stopped units go on, no step is under way, and
held engines work. The reservation of a queue ends with the attachment (R371). -/
def State.detach (s : State) : State :=
  let go (r : Run) : Run := if r = .stopped then .active else r
  let s := s.dbg.threads.foldl (fun s d => s.endCalled d) s
  { s with
    harts := s.harts.map fun (h : Nat × Hart) => (h.1, { h.2 with run := go h.2.run, stopAfter := none })
    dirs := s.dirs.map fun (d : Nat × Dir) => (d.1, { d.2 with run := go d.2.run, stopAfter := none })
    clusters := s.clusters.map fun (c : Nat × Cluster) => (c.1, { c.2 with copyHold := false })
    dbg := { out := s.dbg.out, runs := s.dbg.runs } }

def execIxdbQuit (s : State) : Host.Outcome State Fault Refusal := happen (s.attachedDo State.detach)

/-! ### Registers (R40, R284, R296, R344) -/

/-- An x, v or m register as the owner reads it under gmode 0, with its state: 0 live, 1 stale, 2 dead. -/
def stateOf (live : Bool) (gen : BitVec 8) : Nat := if live then 0 else if gen = 0 then 2 else 1

/-- The number a CSR has among the names of `regs`. -/
def csrName (c : Nat) : Nat := 0x10000 + c

/-- A register as its owner reads it; one bound to a write stream is live and holds the last element appended, with the
stream's tag (R194). -/
def State.showReg (s : State) (n id : Nat) : DbgOut :=
  let h := s.hart n
  let r := BitVec.ofNat 5 id
  if id < 32 then
    match (if r = 0 then none else h.boundWrite false r) with
    | some (_, t) => .reg id (((t.last.map t.extend).getD 0).zeroExtend 512) h.rgen 0 false 0
    | none =>
      let x := KMap.get {} h.x id
      let live := h.xLive r
      let v : Word := if r = 0 then 0 else if live then x.val else 0
      .reg id (v.zeroExtend 512) (if r = 0 then h.rgen else x.gen) (stateOf live x.gen) (live && x.poison) 0
  else if id < 64 then
    match h.boundWrite true r with
    | some (_, t) => .reg id (vecOf (t.last.getD [])) h.rgen 0 false t.fmt
    | none =>
      let x := KMap.get {} h.v (id - 32)
      let live := h.vLive r
      .reg id (if live then x.val else 0) x.gen (stateOf live x.gen) (live && x.poison) (if live then x.fmt else 0)
  else if id < 72 then
    let r := BitVec.ofNat 5 (id - 64)
    let x := KMap.get {} h.m (id - 64)
    let live := h.mLive r
    .reg id (if r = 0 then (BitVec.allOnes 64).zeroExtend 512 else if live then x.val.zeroExtend 512 else 0)
      (if r = 0 then h.rgen else x.gen) (stateOf live x.gen) (live && x.poison) 0
  else
    match csrGet s n (id - 0x10000) with
    | some w => .reg id (w.zeroExtend 512) 0 0 false 0
    | none => .refused

/-- A register of a director core, or a CSR of it as S-mode reads it: name and value, with no tag (R375, R406). -/
def State.showDirReg (s : State) (d id : Nat) : DbgOut :=
  let c := s.dir d
  if id < 32 then .reg id ((c.getX (BitVec.ofNat 5 id)).zeroExtend 512) 0 0 false 0
  else if id < 64 then .reg id ((c.getF (BitVec.ofNat 5 id)).zeroExtend 512) 0 0 false 0
  else
    match dirCsrGet (s.setDir d { c with user := false }) d (id - 0x10000) with
    | some w => .reg id (w.zeroExtend 512) 0 0 false 0
    | none => .refused

/-- regs: the registers named; with none named, none is printed (log 109). -/
def execIxdbRegs (ids : List Nat) (s : State) : Host.Outcome State Fault Refusal :=
  happen (s.attachedDo fun s =>
    match s.selected with
    | none => s.refuse
    | some u =>
      ids.foldl (fun s id => s.print (match agentOfUnit u with
        | .hart n => s.showReg n id
        | .dir d => s.showDirReg d id)) s)

/-! ### Memory (R39, R296, R372) -/

/-- The granule at a key as the unit's own reads would have it after a refresh at system scope; what it holds unpublished
is part of it. Without a unit, as it lies at its home, which a host read returns (R432). -/
def State.dbgGran (s : State) (u : Option Nat) (loc : Nat) : Gran :=
  match u with
  | none => s.homeGran loc
  | some u =>
    let a := agentOfUnit u
    ((s.refresh a 5).loadGran a loc).1

/-- The key of a piece at an address, for the selected unit or by the partition's tables. -/
def State.dbgPlace (s : State) (u : Option Nat) (va : Nat) : Option (Nat × Nat) :=
  let global : Option (Nat × Nat) :=
    match s.dbgPart with
    | none => none
    | some (_, p) => ((s.partPlace p va .read).1).map fun pa => (locMem (pa / 32), pa % 32)
  match u with
  | some u =>
    if u < 49152 then
      match spaceOf (coreOf u) va with
      | .bank c off => if off < 2 ^ 17 then some (locBank c (off / 32), off % 32) else none
      | .global => global
      | _ => none
    else global
  | none => global

/-- Bytes at an address; none where they cannot be read. Bank bytes follow R277 under gmode 0. -/
def State.dbgBytes (s : State) (u : Option Nat) (va n : Nat) : Option (List Byte) :=
  ((pieces va n).mapM fun p =>
    (s.dbgPlace u p.1).map fun x =>
      let g := s.dbgGran u x.1
      let g := if locIsMem x.1 then g else g.seen (s.coverGen x.1)
      getBytes g.data x.2 p.2).map List.flatten

/-- Units of memory that hold n elements of a format: five elements to a unit of log6 and of ternary. -/
def unitsOf (f n : Nat) : Nat := if f = 7 ∨ f = 8 then (n + 4) / 5 else if f = 13 then 2 * n else n
/-- Bytes of a unit. -/
def memUnitBytes (f : Nat) : Nat := if f = 13 then 8 else laneBits f / 8

/-- mem: the elements, lowest address first, in a format of R27: its code, and bit 4 for the nN formats (R344). -/
def State.showMem (s : State) (a n : Nat) (fmt : BitVec 5) : State :=
  let f := fmt.toNat % 16
  let z := memUnitBytes f
  (List.range (unitsOf f n)).foldl (fun s i =>
    let at_ := addrAdd a (z * i)
    s.print (match s.dbgBytes s.selected at_ z with
      | some b => .word at_ fmt (BitVec.ofNat 64 (leNat b))
      | none => .refused)) s

def execIxdbMem (addr : BitVec 64) (n : Nat) (f : BitVec 5) (s : State) : Host.Outcome State Fault Refusal :=
  happen (s.attachedDo fun s => s.showMem addr.toNat n f)

/-- cue: the record at an address, by default of the followed cue. With neither, it is the record at address 0 (log 109). -/
def execIxdbCue (addr : BitVec 64) (s : State) : Host.Outcome State Fault Refusal :=
  happen (s.attachedDo fun s =>
    let a := if addr = 0 then (s.dbg.follow).getD 0 else addr
    s.print (match s.dbgBytes s.selected a.toNat 64 with
      | some b => .rcd a (vecOf b)
      | none => .refused))

/-! ### Banks (R408, R285) -/

/-- A retired forensic entry covers the granule, and the partition permits forensic debugging. -/
def State.forensicGran (s : State) (core gran : Nat) : Bool :=
  ((s.core core).alloc.any fun e => e.2.st == .retired && decide (e.2.base ≤ 32 * gran ∧ 32 * gran < e.2.base + 32 * e.2.len))
    && s.forensicOk (clusterOf core)

/-- A granule's own tag, its state (0 current, 1 stale, 2 free), its poison where it is current, and 32-bit words of it
(R284, R408). -/
def State.showGran (s : State) (core : Nat) (p : Nat × Nat) : DbgOut :=
  let loc := locBank core (p.1 / 32)
  let g := s.homeGran loc
  let c := s.coverGen loc
  let st := match c with
    | none => 2
    | some x => if x = g.tag then 0 else 1
  let seen := if s.forensicGran core (p.1 / 32) then g else g.seen c
  let b := getBytes seen.data (p.1 % 32) p.2
  .granule p.1 g.tag st seen.poison ((List.range (p.2 / 4)).map fun i => leNat ((b.drop (4 * i)).take 4))

def execIxdbBank (core off n : Nat) (s : State) : Host.Outcome State Fault Refusal :=
  happen (
    if core < Config.cores ∧ off % 4 = 0 ∧ off + 4 * n ≤ 2 ^ 17 then
      s.within (s.partOfCluster (clusterOf core)) fun s =>
        (pieces off (4 * n)).foldl (fun s p => s.print (s.showGran core p)) s
    else s.refuse)

/-! ### Code (R22, R40) -/

/-- explain: the instruction the bits encode for the selected unit, none where they are illegal, with the length and the
bits of the encoding (.half, .word or .dword). -/
def execIxdbExplain (w : BitVec 64) (s : State) : Host.Outcome State Fault Refusal :=
  happen (s.attachedDo fun s =>
    let dir := decide (49152 ≤ s.selected.getD 0)
    let len := parcelLen (w.toNat % 65536)
    let v := w.toNat % 2 ^ (8 * len)
    s.print (.instr (match decode dir len v with
      | .ok i => some i
      | .error _ => none) len (BitVec.ofNat 64 v)))

/-- list: the source around where the selected unit stands; the source itself is no part of the machine. -/
def execIxdbList (s : State) : Host.Outcome State Fault Refusal :=
  happen (s.attachedDo fun s =>
    match s.selected with
    | some u => s.print (.line (match agentOfUnit u with | .hart n => (s.hart n).pc | .dir d => (s.dir d).pc))
    | none => s.refuse)

/-! ### run (R371) -/

/-- The placement word that names exactly these clusters, where there is one. -/
def placementOf (cs : List Nat) : Option Nat :=
  let slices := (cs.map sliceOf).eraseDups
  let inner := (cs.map (· % 16)).eraseDups
  let w := (slices.map (2 ^ ·)).sum + (inner.map fun i => 2 ^ (48 + i)).sum
  if (placement w).all cs.contains && !cs.isEmpty then some w else none

/-- A seed: pc, a0 and a1 to a3. -/
def seedBytes (pc : Word) (args : List Word) : List Byte :=
  wordBytes pc ++ List.replicate 24 0 ++ (List.range 4).flatMap fun i => wordBytes (args.getD i 0)

/-- The seeds of a run. -/
def runSeeds (pc : Word) (args : List Word) (harts : List Nat) : List Byte :=
  if harts.isEmpty then seedBytes pc args
  else (List.range harts.length).flatMap fun j => seedBytes pc [args.getD 0 0, BitVec.ofNat 64 j]

/-- The command block of a run: descriptor, placement, seeds behind the block, completion signal. -/
def runBlock (desc : Word) (place : Nat) (blk : Word) (count : Nat) (signal : Word) : List Byte :=
  wordBytes desc ++ leBytes 8 place ++ wordBytes (blk + 64) ++ leBytes 2 count ++ List.replicate 6 0 ++
    List.replicate 16 0 ++ wordBytes signal ++ List.replicate 8 0

/-- Write bytes where the partition's tables map them; none where they do not. -/
def State.partWrite (s : State) (p : Partition) (va : Nat) (bytes : List Byte) : Option State :=
  match (lookWrite p va bytes.length s : Option (List (Nat × Nat)) × State) with
  | (some l, s) => some (s.writePieces 5 l bytes)
  | (none, _) => none

/-- Submit the packet; the completion signal lies in Stagehouse's memory, by its physical address. -/
def State.runPlay (s : State) (q : Nat) (p : Partition) (desc : Word) (args : List Word) (harts : List Nat) (blk signal : Word) :
    Option State := do
  let clusters := if harts.isEmpty then p.clusters else (harts.map hartCluster).eraseDups
  let place ← placementOf clusters
  let pc : Word := match (lookPlan p desc.toNat s : Option Plan × State).1 with
    | some x => (x.acts.head?.map (·.entry)).getD 0
    | none => 0
  let count := max 1 harts.length
  let s ← s.partWrite p (addrAdd blk.toNat 64) (runSeeds pc args harts)
  let s ← s.partWrite p blk.toNat (runBlock desc place blk count signal)
  let s := s.stgWrite 5 signal.toNat (wordBytes 1)
  let w := s.qWrite q
  if s.qSize q ≤ (w + 2 ^ 32 - s.qRead q) % 2 ^ 32 then none
  let s := s.stgWrite 5 (s.packetAddr q w) (wordBytes 0x501 ++ wordBytes blk)
  let s := (s.qPut q 16 4 (w + 1)).kick q
  some { s with dbg := { s.dbg with runs := s.dbg.runs ++ [(q * 2 ^ 32 + w, harts)] } }

/-- Memory of Stagehouse: HBM that is no partition's. -/
def State.stgMemory (s : State) (pa len : Nat) : Bool :=
  decide (0 < pa) && s.inHbm pa && s.inHbm (pa + len - 1) && !s.parts.any fun p => p.2.ranges.any fun r => decide (r.1 < pa + len ∧ pa < r.1 + r.2)

/-- run, through the queue of the partition that Stagehouse has reserved for ixdb; where none is yet, it reserves this one
(log 96). The completion signal lies in Stagehouse memory (R371). -/
def execIxdbRun (q : Nat) (desc : BitVec 64) (args : List (BitVec 64)) (harts : List Nat) (blk signal : BitVec 64) (s : State) :
    Host.Outcome State Fault Refusal :=
  happen (s.within (s.partOfQueue q) fun s =>
    match s.dbgPart with
    | none => s.refuse
    | some (_, p) =>
      if harts.eraseDups ≠ harts ∨ 64 < harts.length ∨ harts.any (fun n => !p.clusters.contains (hartCluster n)) = true
          ∨ blk.toNat % 64 ≠ 0 ∨ signal.toNat % 8 ≠ 0 ∨ s.stgMemory signal.toNat 8 = false
          ∨ ((s.dbg.queue.filter p.queues.contains).getD q) ≠ q then s.refuse
      else ((s.runPlay q p desc args harts blk signal).map fun (s : State) => { s with dbg := { s.dbg with queue := some q } }).getD s.refuse)

/-! ### Director cores and engines (R406, R407) -/

/-- satp for a partition's tables. -/
def satpOf (p : Partition) : Word := BitVec.ofNat 64 (10 * 2 ^ 60 + p.pasid % 2 ^ 16 * 2 ^ 44 + p.root.toNat / 4096 % 2 ^ 44)

/-- Bytes of a thread's stack. -/
def stackSize : Nat := 65536

/-- A stack lies apart from those provided to cores of its partition already. -/
def State.stackApart (s : State) (d : Nat) (top : Word) : Bool :=
  s.threadStacks.all fun x => (s.partOfDir x.1).map (·.1) != (s.partOfDir d).map (·.1) || decide (x.2.1.toNat + stackSize ≤ top.toNat ∨ top.toNat + stackSize ≤ x.2.1.toNat)

/-- Stagehouse provides a stack below an address of a core's partition, apart from the others: every page of it must be
mapped for the thread to write (R406). -/
def State.provideStack (s : State) (d : Nat) (top : Word) : State :=
  match s.partOfDir d with
  | none => s
  | some (_, p) =>
    let pages := (List.range (stackSize / 4096)).map fun i => top.toNat - 4096 * (i + 1)
    if top.toNat % 16 = 0 ∧ stackSize ≤ top.toNat ∧ (pages.all fun a => rowOf a == 3 && (s.rootPlace (some p.root) true .write a).1.isSome) = true
        ∧ s.stackApart d top = true then
      { s with threadStacks := s.threadStacks ++ [(d, top, false)] }
    else s

/-- A stack that Stagehouse has provided on the core and no thread has. -/
def State.freeStack (s : State) (d : Nat) : Option Word := (s.threadStacks.find? fun x => x.1 == d && !x.2.2).map (·.2.1)

/-- A thread starts at the top of a stack; a thread that ran there is put aside. -/
def State.callThread (s : State) (d : Nat) (p : Partition) (pc sp : Word) (args : List Word) : State :=
  let c := s.dir d
  let s := { s with threadStacks := s.threadStacks.map fun (x : Nat × Word × Bool) => if x.1 = d ∧ x.2.1 = sp then (d, sp, true) else x }
  let regs := [0, sp, 0, 0, 0, 0, 0, 0, 0] ++ (args.take 4)
  let s := if c.user then s.switchContext d pc regs else s.setDir d (loadContext pc regs none c)
  let s := s.setDir d { s.dir d with user := true, run := .active, trapped := false, called := true, satp := satpOf p }
  { s with dbg := { s.dbg with threads := if s.dbg.threads.contains d then s.dbg.threads else s.dbg.threads ++ [d], sel := some (49152 + d), follow := none } }

/-- call: Stagehouse has provided a stack for the thread before (Setup, log 103); until it has, nothing starts. -/
def execIxdbCall (dc : Nat) (pc : BitVec 64) (args : List (BitVec 64)) (s : State) : Host.Outcome State Fault Refusal :=
  happen (
    if dc < Config.directors ∧ (s.dir dc).run ≠ .halted then
      s.within (s.partOfDir dc) fun s =>
        match s.dbgPart, s.freeStack dc with
        | some (_, p), some sp => s.callThread dc p pc sp args
        | some _, none => s
        | none, _ => s.refuse
    else s.refuse)

def execIxdbEngineHold (cluster : Nat) (s : State) : Host.Outcome State Fault Refusal :=
  happen (s.within (s.partOfCluster cluster) fun s => s.setCluster cluster { s.cluster cluster with copyHold := true })
def execIxdbEngineRelease (cluster : Nat) (s : State) : Host.Outcome State Fault Refusal :=
  happen (s.within (s.partOfCluster cluster) fun s => s.setCluster cluster { s.cluster cluster with copyHold := false })

/-- The partition permits take-over routines and injection (R440). -/
def State.permitsTakeover (s : State) : Bool := ((s.dbgPart).map fun p => p.2.dbg.getLsbD 1).getD false

def execIxdbTakeover (dc set : Nat) (pc : BitVec 64) (s : State) : Host.Outcome State Fault Refusal :=
  happen (s.within (s.partOfDir dc) fun s =>
    if s.permitsTakeover = true ∧ set < 4 then
      let c := s.dir dc
      s.setDir dc { c with takeover := (c.takeover.filter fun r => r.1 != set) ++ [(set, pc)] }
    else s.refuse)

/-- The core's next fetch from imem meets an uncorrectable error. -/
def execIxdbInject (dc : Nat) (s : State) : Host.Outcome State Fault Refusal :=
  happen (s.within (s.partOfDir dc) fun s =>
    if s.permitsTakeover then s.setDir dc { s.dir dc with injected := true } else s.refuse)

/-! ### Queues (R430) -/

/-- The journal of a set from its head to its tail, then head and tail. -/
def State.showJournal (s : State) (set : Nat) : State :=
  let x := s.qset set
  let s := (List.range x.count).foldl (fun s i =>
    let k := (x.jlhead + BitVec.ofNat 32 i).toNat
    let b := s.journalEntry set k
    s.print (.entry k ([fieldOf b 0 4, fieldOf b 4 1, fieldOf b 6 2, fieldOf b 8 4, fieldOf b 12 4].map (BitVec.ofNat 64)))) s
  s.print (.entry set [x.jlhead.zeroExtend 64, x.jtail.zeroExtend 64])

def execIxdbJournal (set : Nat) (s : State) : Host.Outcome State Fault Refusal :=
  happen (s.attachedDo fun s => if set < 4 then s.showJournal set else s.refuse)

def execIxdbPtab (entry : Nat) (s : State) : Host.Outcome State Fault Refusal :=
  happen (s.attachedDo fun s =>
    let e := s.pentry entry
    let mine := e.state == 0 || (s.partOfQueue e.queue).map (·.1) == some s.dbg.part
    if entry < ptabSize ∧ mine = true then
      s.print (.entry entry ([e.queue, e.pos, e.set, e.play, e.rel, e.state, e.accepted, e.declared, e.live, e.number.toNat].map
        (BitVec.ofNat 64)))
    else s.refuse)

def execIxdbQueue (q : Nat) (s : State) : Host.Outcome State Fault Refusal :=
  happen (s.within (s.partOfQueue q) fun s =>
    s.print (.entry q ([s.qStatus q, s.qRead q, s.qWrite q].map (BitVec.ofNat 64))))

def execIxdbKicks (s : State) : Host.Outcome State Fault Refusal :=
  happen (s.attachedDo fun s => s.print (.entry 0 (((List.range 256).filter s.kicked).map (BitVec.ofNat 64))))

/-- The word at a global address. -/
def State.dbgWord (s : State) (a : Nat) : Option Word := (s.dbgBytes none a 8).map wordOf

/-- watch: from now on a change of the word is printed (Turns looks for it after every turn). -/
def execIxdbWatch (addr : BitVec 64) (s : State) : Host.Outcome State Fault Refusal :=
  happen (s.attachedDo fun s =>
    match (if rowOf addr.toNat = 3 then s.dbgWord addr.toNat else none) with
    | some w => { s with dbg := { s.dbg with watches := s.dbg.watches ++ [(addr.toNat, w)] } }
    | none => s.refuse)

/-- A watched word has changed: it is printed, and its watch is over. -/
def State.checkWatches (s : State) : State :=
  s.dbg.watches.foldl (fun s w =>
    match s.dbgWord w.1 with
    | some v =>
      if v = w.2 then s
      else { s.print (.changed w.1 w.2 v) with dbg := { (s.print (.changed w.1 w.2 v)).dbg with watches := s.dbg.watches.filter fun x => x != w } }
    | none => s) s

/-! ### Writes (R284) -/

/-- Names of what a debugger write replaces: the register ids of R287, then the granules of the hart's own bank. -/
def granName : Nat := 0x100

/-- The value replaces a whole register, live and unpoisoned, or a whole granule under the covering generation. -/
def State.dbgWrite (s : State) (n what : Nat) (v : Vec) (f : BitVec 4) : State :=
  let h := s.hart n
  if what < 32 then s.setHart n (h.putX (BitVec.ofNat 5 what) (v.extractLsb' 0 64) false)
  else if what < 64 then s.setHart n (h.putV (BitVec.ofNat 5 (what - 32)) v f false)
  else if what < 72 then s.setHart n (h.putM (BitVec.ofNat 5 (what - 64)) (v.extractLsb' 0 64) false)
  else if granName ≤ what ∧ what < granName + 4096 then
    let loc := locBank (coreOf n) (what - granName)
    match s.coverGen loc with
    | some g => s.writeHome (.core (coreOf n)) (2 ^ (n % 4)) none true { loc := loc, off := 0, bytes := leBytes 32 v.toNat, gen := g, own := true }
    | none => s.refuse
  else s.refuse

def execDebuggerWrite (hart : Nat) (what : Nat) (v : BitVec 512) (f : BitVec 4) (s : State) : Host.Outcome State Fault Refusal :=
  happen (
    if hart < Config.harts then s.within (s.partOfCluster (hartCluster hart)) fun s => s.dbgWrite hart what v f
    else s.refuse)

end Sys2Proof.Machine
end

