-- ==== Sys2Proof/Machine/Loops.lean ====
section
/-!
DEFINITION. Loop sets (R130-R134), and the forms that mark registers dead (R135-R138).
-/

namespace Sys2Proof.Machine

/-- Loop set 1 or 0 of a hart. -/
def Hart.setLoop (h : Hart) (n : BitVec 1) (l : LoopSet) : Hart := if n = 1 then { h with lp1 := l } else { h with lp0 := l }

/-- Arm set `n`: a zero count skips the body, as a jump; otherwise the set itself is not evaluated here (R131, R133). -/
def arm (h : Nat) (n : BitVec 1) (count fin : Word) : Ins Ctl := do
  let pc := (← hartOf h).pc
  setHartOf h fun x => x.setLoop n ⟨pc + 4, fin, count⟩
  pure (if count = 0 then .jump fin else .seq (some n.toNat))

/-- The end `pc + 2 × imm` of the immediate forms. -/
def loopEnd (pc : Word) (imm : BitVec 12) : Word := pc + BitVec.ofNat 64 (2 * imm.toNat)

def execLpSet (n : BitVec 1) (cnt fin : Reg) (s : State) : Host.Outcome State Fault Refusal :=
  runCompute (.lpSet n cnt fin) (fun h => do
    let (c, e) ← useX2 h cnt fin
    arm h n c (e &&& ~~~1#64)) s

def execLpSetup (n : BitVec 1) (cnt : Reg) (imm : BitVec 12) (s : State) : Host.Outcome State Fault Refusal :=
  runCompute (.lpSetup n cnt imm) (fun h => do
    let c ← useX h cnt
    arm h n c (loopEnd (← hartOf h).pc imm)) s

def execLpSetupi (n : BitVec 1) (cnt : BitVec 5) (imm : BitVec 12) (s : State) : Host.Outcome State Fault Refusal :=
  runCompute (.lpSetupi n cnt imm) (fun h => do arm h n (cnt.zeroExtend 64) (loopEnd (← hartOf h).pc imm)) s

/-- lp.off clears the count and keeps start and end (R132). -/
def execLpOff (n : BitVec 1) (s : State) : Host.Outcome State Fault Refusal :=
  runCompute (.lpOff n) (fun h => do
    setHartOf h fun x => if n = 1 then { x with lp1 := { x.lp1 with lpc := 0 } } else { x with lp0 := { x.lp0 with lpc := 0 } }
    pure (.seq)) s

/-- Mark the registers of a list dead; x0 is skipped (R135). -/
def Hart.kill (h : Hart) (rs : List RegId) : Hart :=
  rs.foldl (fun h r =>
    match r with
    | .x r => if r = 0 then h else h.killX r
    | .v r => h.killV r
    | .m _ => h) h

/-- kill.x (R137). -/
def execKillX (a b : Reg) (s : State) : Host.Outcome State Fault Refusal :=
  runCompute (.killX a b) (fun h => do
    setHartOf h fun x => x.kill (marked (.killX a b) 0)
    pure (.seq)) s

/-- kill.v (R137). -/
def execKillV (a b : Reg) (s : State) : Host.Outcome State Fault Refusal :=
  runCompute (.killV a b) (fun h => do
    setHartOf h fun x => x.kill (marked (.killV a b) 0)
    pure (.seq)) s

/-- Mark what dmask names, then write the link, which stays live (R136). -/
def linkDead (h : Nat) (rd : Reg) (target : Word) : Ins Ctl := do
  let x ← hartOf h
  setHartOf h fun x => x.kill (marked (.jalD rd 0) x.dmask)
  writeX h rd (x.pc + 4)
  pure (.jump target)

def execJalD (rd : Reg) (imm : BitVec 17) (s : State) : Host.Outcome State Fault Refusal :=
  runCompute (.jalD rd imm) (fun h => do linkDead h rd ((← hartOf h).pc + sxHalf imm)) s

def execJalrD (rd rs1 : Reg) (imm : BitVec 12) (s : State) : Host.Outcome State Fault Refusal :=
  runCompute (.jalrD rd rs1 imm) (fun h => do
    let t ← useX h rs1
    linkDead h rd ((t + sx imm) &&& ~~~1#64)) s

end Sys2Proof.Machine
end

