-- ==== Sys2Proof/Machine/Streams.lean ====
section
/-!
DEFINITION. The stream instructions (R190-R197), a stream's read-ahead (R192), and sealing (R198-R201).
-/

namespace Sys2Proof.Machine

/-! ### sbind, sunbind, sstat -/

/-- A 32-bit field of a descriptor, sign-extended. -/
def int32At (d : List Byte) (i : Nat) : Word := (BitVec.ofNat 32 (leNat ((d.drop i).take 4))).signExtend 64

/-- The stream of a descriptor (R190), not yet active. -/
def Stream.ofDesc (d : List Byte) : Stream :=
  { base := wordOf (d.take 8), stra := int32At d 8, strb := int32At d 12, cnt := wordOf ((d.drop 16).take 8)
    ctl := BitVec.ofNat 64 (leNat ((d.drop 24).take 4)) }

/-- The descriptor breaks a condition of R190. -/
def descBad (h : Hart) (k : Nat) (d : List Byte) : Bool :=
  let t := Stream.ofDesc d
  (t.ctl &&& ~~~0xF1F7F#64) != 0 || leNat (d.drop 28) != 0 || !h.bindOk k t

/-- sbind; a landing stream with no element to deliver holds no pin (R197, log 121). -/
def execSbind (k : BitVec 2) (rs1 : Reg) (s : State) : Host.Outcome State Fault Refusal :=
  runCompute (.sbind k rs1) (fun n => do
    let a := (← useX n rs1).toNat
    Ins.deny (a % 32 != 0) cAlign a
    let d ← readRecord n a 32
    let t := Stream.ofDesc d
    Ins.deny (descBad (← hartOf n) k.toNat d) cRecord a
    Ins.upd fun s => s.unbind n k.toNat
    let pin ← if t.landing && !t.atEnd then do
        match ← Ins.get fun s => s.takePin n with
        | none => .stop .stall
        | some (p, s') => do
          Ins.upd fun _ => s'
          pure p
      else pure none
    setHartOf n fun h => h.setStream k.toNat { t.setAct true with pin := pin }
    pure (.seq)) s

def execSunbind (k : BitVec 2) (s : State) : Host.Outcome State Fault Refusal :=
  runCompute (.sunbind k) (fun n => do
    Ins.upd fun s => s.unbind n k.toNat
    pure (.seq)) s

/-- The next read element has not arrived (R196). -/
def State.waitsFor (s : State) (n : Nat) (t : Stream) : Bool :=
  t.act && !t.write && !t.atEnd && (if t.landing then decide ((s.landingOf n t).length < t.size) else t.ahead.isEmpty)

def execSstat (rd : Reg) (k : BitVec 2) (s : State) : Host.Outcome State Fault Refusal :=
  runCompute (.sstat rd k) (fun n => do
    let t := (← hartOf n).stream k.toNat
    let w ← Ins.get fun s => s.waitsFor n t
    let b (x : Bool) (i : Nat) : Nat := if x then 2 ^ i else 0
    writeX n rd (BitVec.ofNat 64
      (b t.act 0 + b t.write 1 + b (t.ctl.getLsbD 30) 2 + b w 3 + 2 ^ 32 * min t.moved (2 ^ 32 - 1)))
    pure (.seq)) s

/-- A stream fetches one element ahead; a fault stays with the element until it is popped (R192). -/
def State.readAhead (s : State) (n k : Nat) : State :=
  let t := (s.hart n).stream k
  let i := t.index + t.ahead.length
  if !t.act || t.write || t.landing || decide (16 ≤ t.ahead.length) || decide (t.total ≤ i) then s
  else
    let a := t.addrOf i
    let put (s : State) (e : Ahead) : State := s.setHart n ((s.hart n).setStream k { t with ahead := t.ahead ++ [e] })
    if a % t.size ≠ 0 then put s { bytes := [], trap := some (BitVec.ofNat 8 cAlign, BitVec.ofNat 64 a) }
    else
      match hartLoad n a t.size s with
      | (.ok b, s) => put s { bytes := PBytes.bytes b, poison := PBytes.poisoned b }
      | (.error (.trap c _), s) => put s { bytes := [], trap := some (BitVec.ofNat 8 c, BitVec.ofNat 64 a) }
      | _ => s

def execStreamReadAhead (hart k : Nat) (s : State) : Host.Outcome State Fault Refusal :=
  happen (if hart < Config.harts ∧ k < 4 then s.readAhead hart k else s)

/-! ### Sealing (R198-R201) -/

/-- Entries of the package seal table for programs: 1,024, less the 64 kept for code (R199). -/
def sealEntries : Nat := 960

/-- The physical ranges of `k` pages from `va`, joined where they touch; the first page not mapped faults. -/
def pageRuns (n : Nat) : Nat → Nat → List (Nat × Nat) → Ins (List (Nat × Nat))
  | 0, _, acc => pure acc.reverse
  | k + 1, va, acc => do
    match ← Ins.act fun s => s.translate (hartCluster n) va .read with
    | none => .trap cPage va
    | some pa =>
      match acc with
      | (b, l) :: t => if b + l = pa then pageRuns n k (va + 4096) ((b, l + 4096) :: t) else pageRuns n k (va + 4096) ((pa, 4096) :: acc)
      | [] => pageRuns n k (va + 4096) [(pa, 4096)]

/-- Publish what every store buffer of the package holds of a region (R200). -/
def State.drainRegion (s : State) (p : Nat → Bool) : State :=
  let cores := s.cores.map (·.1)
  let s := cores.foldl (fun s c =>
    let due := (s.core c).psb.filter fun e => p e.loc
    let s := s.setCore c { s.core c with psb := (s.core c).psb.filter fun e => !p e.loc }
    due.foldl (fun s e => s.publishEntry (.core c) 5 e) s) s
  let due := s.dirBuf.filter fun e => p e.loc
  due.foldl (fun s e => s.publishEntry .dirs 5 e) { s with dirBuf := s.dirBuf.filter fun e => !p e.loc }

/-- The own-bank allocation that is exactly the region, if the region is one (R198). -/
def State.exactAlloc (s : State) (n off len : Nat) : Option (Nat × Alloc) :=
  (s.core (coreOf n)).alloc.find? fun e => e.2.st == .live && e.2.base == off && 32 * e.2.len == len

/-- The operands of seal and unseal: the code 3 or 4 they give, a bank region, or a global one. -/
inductive Region where
  | bad (code : Nat)
  | bank (index : Nat) (a : Alloc)
  | global (va pages : Nat)
deriving DecidableEq, Repr

def State.region (s : State) (n a len : Nat) : Region :=
  if a % 4096 ≠ 0 ∨ len % 4096 ≠ 0 ∨ len = 0 ∨ 2 ^ 36 < len ∨ 2 ^ 64 < a + len ∨ rowOf a ≠ rowOf (addrAdd a (len - 1)) then .bad 3
  else
    match spaceOf (coreOf n) a with
    | .bank c off =>
      if c ≠ coreOf n then .bad 4
      else
        match s.exactAlloc n off len with
        | some (i, x) => .bank i x
        | none => .bad 4
    | _ => .global a (len / 4096)

/-- A memory granule of the ranges. -/
def inRuns (runs : List (Nat × Nat)) (loc : Nat) : Bool :=
  locIsMem loc && runs.any fun r => r.1 ≤ 32 * locGran loc && 32 * locGran loc < r.1 + r.2

/-- A granule of a bank allocation. -/
def inAlloc (core base len loc : Nat) : Bool :=
  !locIsMem loc && locCore loc == core && decide (base ≤ 32 * locIdx loc ∧ 32 * locIdx loc < base + len)

def State.setSeal (s : State) (n i : Nat) (a : Alloc) (b : Bool) : State :=
  let c := s.core (coreOf n)
  s.setCore (coreOf n) { c with alloc := KMap.set {} c.alloc i { a with sealed := b } }

/-- A hart but the given one has a lookahead store or the engine writes of an sl.mask into the region that are not yet
made: the seal waits for them (R200). -/
def State.storeDue (s : State) (n : Nat) (p : Nat → Bool) : Bool :=
  s.harts.any fun h => h.1 != n && h.2.pending.any fun q => (q.stores ++ q.engs).any fun c => p c.loc

/-- The ranges are ordinary memory again: every copy in a cache is gone, and no load sees an older value (R201). -/
def State.unsealRuns (s : State) (runs : List (Nat × Nat)) : State :=
  let inside (line : Nat) : Bool := inRuns runs (locMem (2 * line))
  { s.forget (inRuns runs) with
    sealTable := s.sealTable.filter fun e => !(runs.contains (e.1, e.2.1) && !e.2.2)
    seals := s.seals.erase runs
    cores := s.cores.map fun c => (c.1, { c.2 with cache := c.2.cache.filter fun l => !inside l.1 })
    slices := s.slices.map fun k => (k.1, { k.2 with l2 := k.2.l2.filter fun l => !inside l }) }

/-- seal (R198): the code it writes. -/
def execSeal (rd rs1 rs2 : Reg) (s : State) : Host.Outcome State Fault Refusal :=
  runCompute (.seal rd rs1 rs2) (fun n => do
    let (xa, xl) ← useX2 n rs1 rs2
    let (a, len) := (xa.toNat, xl.toNat)
    match ← Ins.get fun s => s.region n a len with
    | .bad c => writeX n rd (BitVec.ofNat 64 c)
    | .bank i x =>
      if x.sealed then writeX n rd 2
      else do
        let mine := inAlloc (coreOf n) x.base len
        if ← Ins.get fun s => s.storeDue n mine then .stop .stall
        Ins.upd fun s => (s.drainRegion mine).setSeal n i x true
        writeX n rd 0
    | .global va pages => do
      if rowOf va ≠ 3 then .trap cPage va
      let runs ← pageRuns n pages va []
      let t ← Ins.get fun s => s.sealTable
      if runs.any fun r => t.any fun e => decide (e.1 < r.1 + r.2 ∧ r.1 < e.1 + e.2.1) then writeX n rd 2
      else if sealEntries < (t.filter fun e => !e.2.2).length + runs.length then writeX n rd 1
      else do
        if ← Ins.get fun s => s.storeDue n (inRuns runs) then .stop .stall
        Ins.upd fun s =>
          let s := s.drainRegion (inRuns runs)
          { s with sealTable := s.sealTable ++ runs.map fun r => (r.1, r.2, false), seals := s.seals ++ [runs] }
        writeX n rd 0
    pure (.seq)) s

/-- unseal (R198, R201): it names a whole region of one seal; a seal of code stays (R124). -/
def execUnseal (rd rs1 rs2 : Reg) (s : State) : Host.Outcome State Fault Refusal :=
  runCompute (.unseal rd rs1 rs2) (fun n => do
    let (xa, xl) ← useX2 n rs1 rs2
    let (a, len) := (xa.toNat, xl.toNat)
    match ← Ins.get fun s => s.region n a len with
    | .bad c => writeX n rd (BitVec.ofNat 64 c)
    | .bank i x =>
      if !x.sealed then writeX n rd 2
      else do
        Ins.upd fun s => (s.setSeal n i x false).forget (inAlloc (coreOf n) x.base len)
        writeX n rd 0
    | .global va pages => do
      if rowOf va ≠ 3 then .trap cPage va
      let runs ← pageRuns n pages va []
      if ← Ins.get fun s => s.seals.contains runs then do
        Ins.upd fun s => s.unsealRuns runs
        writeX n rd 0
      else writeX n rd 2
    pure (.seq)) s

end Sys2Proof.Machine
end

