-- ==== Sys2Proof/Machine/VecMove.lean ====
section
/-!
DEFINITION. Classes 3 and 5: conversions and formats (R167-R170), reductions (R163, R164) and permutes (R165, R166).
-/

namespace Sys2Proof.Machine

/-! ### Conversions (R111-R117, R167) -/

/-- A code 1 to 6. -/
def isFloat (f : Nat) : Bool := decide (1 ≤ f ∧ f ≤ 6)

/-- One element of format s converted to format d. -/
def convert (d s : Elem) (o : ROpts) (x : Nat) : Nat × Events :=
  let wd := laneBits d.n
  let ws := laneBits s.n
  if s.n = 7 then
    if d.n = 7 then (x, Events.none) else log6ToF (ffmt d.n) o x
  else if d.n = 7 then fToLog6 (ffmt s.n) o x
  else if isFloat s.n then
    if s.n = d.n then
      let f := ffmt s.n
      (if f.isNan x then f.nanBits else f.flushIn o.fi x, Events.none)
    else if isFloat d.n then fToF (ffmt s.n) (ffmt d.n) o x
    else fToInt (ffmt s.n) wd d.uns o x
  else if isFloat d.n then intToF (ffmt d.n) o (intOf ws s.uns x)
  else (intToInt wd d.uns (o.sat && decide (wd ≤ ws)) (intOf ws s.uns x), Events.none)

/-- An element of a register in conversion, log6 counted in elements; the flag is R91's, which a conversion to the same
format does not raise (R117). -/
def convElem (f : Nat) (v : Vec) (i : Nat) : Nat × Bool :=
  if f = 7 then
    let w := lane 32 v (i / 5)
    (log6Elem w (i % 5), log6Bad w)
  else (lane (laneBits f) v i, false)

/-- The mask bit of an element of the destination: log6 is masked by words (R149). -/
def convBit (f i : Nat) : Nat := if f = 7 then i / 5 else i

/-- The (source, destination) elements of a part. -/
def convPairs (d s : BitVec 4) (p : Nat) : List (Nat × Nat) :=
  let nd := convLanes d
  let ns := convLanes s
  if nd ≤ ns then (List.range nd).filterMap fun i => if p * nd + i < ns then some (p * nd + i, i) else none
  else (List.range ns).filterMap fun i => if p * ns + i < nd then some (i, p * ns + i) else none

/-- The destination register: elements written over the old ones. -/
def convPut (f : Nat) (old : Vec) (w : List (Nat × Nat)) : Vec :=
  if f = 7 then
    ofLanes 32 ((List.range 16).map fun k =>
      let x := lane 32 old k
      if w.any fun p => p.1 / 5 == k then
        ((List.range 5).map fun e =>
          ((w.find? fun p => p.1 == 5 * k + e).map (·.2)).getD (bits x (6 * e) 6)).foldr (fun y acc => y + 64 * acc) 0
      else x)
  else
    let b := laneBits f
    ofLanes b ((List.range (laneCount f)).map fun i => ((w.find? fun p => p.1 == i).map (·.2)).getD (lane b old i))

def execVcvt (o : LOpts) (d src : Elem) (vd va : Reg) (p : BitVec 5) (s : State) : Host.Outcome State Fault Refusal :=
  let i : Instr := .vcvt o d src vd va p
  runCompute i (fun n => do
    let r ← roundOpts n o
    let pairs := convPairs d.code src.code p.toNat
    let prior := if o.m = 0 ∧ pairs.length = convLanes d.code then none else some (vd, [d.n])
    let q ← readOperands n o [(va, [src.n])] prior []
    let out := (pairs.filter fun x => q.active (convBit d.n x.2)).map fun x =>
      let e := convElem src.n (q.v 0) x.1
      let c := convert d src r e.1
      (x.2, c.1, c.2.or { nv := e.2 && d.n != src.n })
    putVec n i vd (convPut d.n q.old (out.map fun x => (x.1, x.2.1))) d.n q.poison
      (out.foldl (fun e x => e.or x.2.2) Events.none)) s

/-- vtag (R168). -/
def execVtag (o : LOpts) (f : BitVec 4) (vd va : Reg) (s : State) : Host.Outcome State Fault Refusal :=
  let i : Instr := .vtag o f vd va
  runCompute i (fun n => do
    let v ← readV n va
    putVec n i vd v.val f.toNat v.poison Events.none) s

/-- A trit of a lane value. -/
def tritOf (sat : Bool) (x : Int) : Nat × Events :=
  if -1 ≤ x ∧ x ≤ 1 then (tritDigitOf x, Events.none)
  else if sat then (tritDigitOf (if x < 0 then -1 else 1), Events.none)
  else (0, { nv := true })

/-- Lane L of an int8 group. -/
def groupByte (p : Operands) (l : Nat) : Int := intOf 8 false (lane 8 (p.v (l / 64)) (l % 64))

def execVpackt (o : LOpts) (vd va : Reg) (s : State) : Host.Outcome State Fault Refusal :=
  let i : Instr := .vpackt o vd va
  runCompute i (fun n => do
    let p ← readOperands n o ((group va 5).map fun r => (r, [12])) (priorOf o vd 8) []
    let (ls, ev) := lanesOf p 8 64 fun j =>
      let t := (List.range 5).map fun k => tritOf o.sat (groupByte p (5 * j + k))
      (t.foldr (fun x acc => x.1 + 3 * acc) 0, t.foldl (fun e x => e.or x.2) Events.none)
    putVec n i vd (ofLanes 8 ls) 8 p.poison ev) s

def execVunpackt (o : LOpts) (vd va : Reg) (s : State) : Host.Outcome State Fault Refusal :=
  let i : Instr := .vunpackt o vd va
  runCompute i (fun n => do
    let a ← readVAs n va [8]
    let m ← readM n o.m
    let olds ← if o.m = 0 then pure [] else (group vd 5).mapM fun r => readVAs n r [12]
    let poison := a.poison || m.poison || olds.any (·.poison)
    let act (l : Nat) : Bool := m.val.getLsbD (l / 5)
    let regs := (List.range 5).map fun k =>
      ofLanes 8 ((List.range 64).map fun j =>
        let l := 64 * k + j
        if act l then wrapInt 8 (tritVal (lane 8 a.val (l / 5)) (l % 5)) else lane 8 ((olds.getD k {}).val) j)
    let bad := (List.range 64).any fun j => m.val.getLsbD j && tritBad (lane 8 a.val j)
    commit n i {
      window := 0
      vs := (group vd 5).zip (regs.map fun v => { val := v, fmt := 12, poison := poison })
      events := Events.toBits { nv := bad } }
    pure (.seq)) s

/-- Part j of the split of a lane (R109, R170). -/
def splitLane (f src : FFmt) (fi : Bool) (j x : Nat) : Nat × Events :=
  match src.decode (src.flushIn fi x) with
  | .fin neg sig exp =>
    let r := splitAt f j ⟨neg, sig, exp, false⟩
    (r.1, { nx := j == 2 && r.2.sig != 0 })
  | _ => (if j = 0 then (fToF src f { sat := true } x).1 else 0, Events.none)

def execVosplit (o : LOpts) (f src : BitVec 4) (vd va : Reg) (j : BitVec 2) (s : State) : Host.Outcome State Fault Refusal :=
  let i : Instr := .vosplit o f src vd va j
  runCompute i (fun n => do
    let d := f.toNat
    let k := src.toNat
    let p ← readOperands n o [(va, [k])] (priorOf o vd d) []
    let (ls, ev) := lanesOf p (laneBits d) (laneCount d) fun x =>
      if x < laneCount k then splitLane (ffmt d) (ffmt k) o.flushIn j.toNat (lane (laneBits k) (p.v 0) x) else (0, Events.none)
    putVec n i vd (ofLanes (laneBits d) ls) d p.poison ev) s

/-! ### Reductions (R104, R105, R163, R164) -/

/-- One level of the tree: inactive children drop out. -/
def treeLevel (g : Nat → Nat → Nat × Events) : List (Option Nat) → List (Option Nat) × Events
  | a :: b :: t =>
    let r := treeLevel g t
    match a, b with
    | some x, some y => let z := g x y; (some z.1 :: r.1, z.2.or r.2)
    | some x, none => (some x :: r.1, r.2)
    | none, y => (y :: r.1, r.2)
  | l => (l, Events.none)

/-- The tree of `k` levels. -/
def tree (g : Nat → Nat → Nat × Events) : Nat → List (Option Nat) × Events → Option Nat × Events
  | 0, (l, e) => (l.headD none, e)
  | k + 1, (l, e) => let r := treeLevel g l; tree g k (r.1, e.or r.2)

/-- The active lanes of a register. -/
def activeLanes (p : Operands) (f : Nat) : List (Option Nat) :=
  (List.range (laneCount f)).map fun j => if p.active j then some (lane (laneBits f) (p.v 0) j) else none

def sumInt (w a b : Nat) : Nat × Events := ((a + b) % 2 ^ w, Events.none)

/-- A NaN that a reduction produces is the canonical one, also where only one lane is active (R84). -/
def canonLane (f x : Nat) : Nat := if isFloat f && (ffmt f).isNan x then (ffmt f).nanBits else x

/-- The sum of the active lanes: FP16 and BF16 through FP32 nodes and one more rounding at the root. -/
def sumLanes (f : Nat) (o : ROpts) (ls : List (Option Nat)) : Nat × Events :=
  if !isFloat f then let r := tree (sumInt (laneBits f)) 6 (ls, Events.none); (r.1.getD 0, r.2)
  else if f = 3 ∨ f = 4 then
    let r := tree (fAdd fp32 o) 6 (ls.map (·.map fun x => (fToF (ffmt f) fp32 { fi := o.fi } x).1), Events.none)
    match r.1 with
    | none => (0, r.2)
    | some x => let z := fToF fp32 (ffmt f) { o with fi := false } x; (z.1, r.2.or z.2)
  else let r := tree (fAdd (ffmt f) o) 6 (ls, Events.none); (r.1.getD 0, r.2)

def execVredsum (o : LOpts) (e : Elem) (vd va : Reg) (s : State) : Host.Outcome State Fault Refusal :=
  let i : Instr := .vredsum o e vd va
  runCompute i (fun n => do
    let r ← roundOpts n o
    let p ← readOperands n o [(va, [e.n])] (priorOf o vd e.n) []
    let (x, ev) := sumLanes e.n r (activeLanes p e.n)
    putVec n i vd (ofLanes (laneBits e.n) [canonLane e.n x]) e.n p.poison ev) s

/-- The greater or smaller of two lanes. -/
def pickLane (e : Elem) (max fi : Bool) (a b : Nat) : Nat × Events :=
  if isFloat e.n then (fMinMax (ffmt e.n) max fi a b, Events.none)
  else
    let w := laneBits e.n
    let less := decide (intOf w e.uns a < intOf w e.uns b)
    (if less == max then b else a, Events.none)

def redPick (i : Instr) (o : LOpts) (e : Elem) (max : Bool) (vd va : Reg) (n : Nat) : Ins Ctl := do
  let p ← readOperands n o [(va, [e.n])] (priorOf o vd e.n) []
  let r := tree (pickLane e max o.flushIn) 6 (activeLanes p e.n, Events.none)
  putVec n i vd (ofLanes (laneBits e.n) [canonLane e.n (r.1.getD 0)]) e.n p.poison Events.none

def execVredmax (o : LOpts) (e : Elem) (vd va : Reg) (s : State) : Host.Outcome State Fault Refusal :=
  runCompute (.vredmax o e vd va) (redPick (.vredmax o e vd va) o e true vd va) s
def execVredmin (o : LOpts) (e : Elem) (vd va : Reg) (s : State) : Host.Outcome State Fault Refusal :=
  runCompute (.vredmin o e vd va) (redPick (.vredmin o e vd va) o e false vd va) s

/-- The image of a value under a NaN policy (0 high, 1 low, 2 exclude) and a zero policy (merge or distinct) (R102). -/
def image (e : Elem) (np : Nat) (merge : Bool) (x : Nat) : Option Nat :=
  let w := if e.n = 7 then 7 else laneBits e.n
  let nan : Option Nat := match np with
    | 0 => some (2 ^ w - 1)
    | 1 => some 0
    | _ => none
  if isFloat e.n then
    let f := ffmt e.n
    if f.isNan x then nan
    else
      let x := if merge && x == 2 ^ (w - 1) then 0 else x
      some (if x < 2 ^ (w - 1) then x + 2 ^ (w - 1) else 2 ^ w - 1 - x)
  else if e.n = 7 then
    if log6IsNan x then nan
    else some (if log6K x = 0 then 32 else if log6Neg x then 32 - log6K x else 32 + log6K x)
  else if e.uns then some x
  else some (if x < 2 ^ (w - 1) then x + 2 ^ (w - 1) else x - 2 ^ (w - 1))

/-- vargmax (R164); of equal keys the lowest lane wins, also where the index wraps (log 107). -/
def execVargmax (o : LOpts) (e : Elem) (vd va xb : Reg) (s : State) : Host.Outcome State Fault Refusal :=
  let i : Instr := .vargmax o e vd va xb
  runCompute i (fun n => do
    let p ← readOperands n o [(va, [e.n])] (priorOf o vd 13) [xb]
    let w := laneBits e.n
    let key (j : Nat) : Nat :=
      let x := lane w (p.v 0) j
      (image e 1 true (if isFloat e.n then (ffmt e.n).flushIn o.flushIn x else x)).getD 0
    let best := (List.range (laneCount e.n)).foldl (fun (b : Option (Nat × Nat)) j =>
      if !p.active j then b
      else match b with
        | none => some (key j, j)
        | some (k, _) => if k < key j then some (key j, j) else b) none
    let pair := match best with
      | none => 2 ^ 64 * (2 ^ 64 - 1)
      | some (k, j) => k + 2 ^ 64 * (p.x 0 + BitVec.ofNat 64 j).toNat
    putVec n i vd (BitVec.ofNat 512 pair) 13 p.poison Events.none) s

/-! ### Permutes (R165, R166) -/

def execVperm (o : LOpts) (f : BitVec 4) (vd va vi : Reg) (s : State) : Host.Outcome State Fault Refusal :=
  let i : Instr := .vperm o f vd va vi
  runCompute i (fun n => do
    let k := f.toNat
    let w := laneBits k
    let p ← readOperands n o [(va, [k]), (vi, [12])] (priorOf o vd k) []
    let (ls, _) := lanesOf p w (laneCount k) fun j => (lane w (p.v 0) (lane 8 (p.v 1) j % laneCount k), Events.none)
    putVec n i vd (ofLanes w ls) k p.poison Events.none) s

def execVslide (o : LOpts) (f : BitVec 4) (vd va xs : Reg) (s : State) : Host.Outcome State Fault Refusal :=
  let i : Instr := .vslide o f vd va xs
  runCompute i (fun n =>
    let k := f.toNat
    let w := laneBits k
    laneOp n i o vd k [va] [xs] fun p j =>
      let q : Int := (j : Int) + (p.x 0).toInt
      (if 0 ≤ q ∧ q < laneCount k then lane w (p.v 0) q.toNat else 0, Events.none)) s

def execVbcast (o : LOpts) (f : BitVec 4) (vd va xs : Reg) (s : State) : Host.Outcome State Fault Refusal :=
  let i : Instr := .vbcast o f vd va xs
  runCompute i (fun n =>
    let k := f.toNat
    let w := laneBits k
    laneOp n i o vd k [va] [xs] fun p _ =>
      (if (p.x 0).toNat < laneCount k then lane w (p.v 0) (p.x 0).toNat else 0, Events.none)) s

/-- Lanes of vins and vext: index pairs are eight 64-bit lanes. -/
def moveBits (f : Nat) : Nat := if f = 13 then 64 else laneBits f

def execVins (o : LOpts) (f : BitVec 4) (vd xv xi : Reg) (s : State) : Host.Outcome State Fault Refusal :=
  let i : Instr := .vins o f vd xv xi
  runCompute i (fun n => do
    let k := f.toNat
    let w := moveBits k
    let p ← readOperands n o [] (some (vd, [k])) [xv, xi]
    let j := (p.x 1).toNat
    if 512 / w ≤ j then pure (.seq)
    else
      let ls := (List.range (512 / w)).map fun x => if x = j then (p.x 0).toNat else lane w p.old x
      putVec n i vd (ofLanes w ls) k p.poison Events.none) s

def execVext (o : LOpts) (f : BitVec 4) (xd va xi : Reg) (s : State) : Host.Outcome State Fault Refusal :=
  let i : Instr := .vext o f xd va xi
  runCompute i (fun n => do
    let k := f.toNat
    let w := moveBits k
    let p ← readOperands n o [(va, [k])] none [xi]
    let j := (p.x 0).toNat
    let x := if j < 512 / w then lane w (p.v 0) j else 0
    let v := if 9 ≤ k ∧ k ≤ 12 then wrapInt 64 (intOf w false x) else x
    commit n i { window := 0, xs := [(xd, { val := BitVec.ofNat 64 v, poison := p.poison })] }
    pure (.seq)) s

end Sys2Proof.Machine
end

