-- ==== Sys2Proof/Machine/Selection.lean ====
section
/-!
DEFINITION. The selection engine: records (R347-R349), count and decide steps (R351), sessions (R353-R358), and queued
selections (R361).
-/

namespace Sys2Proof.Machine

/-! ### The record (R347, R348) -/

/-- A selection record. -/
abbrev SelRec := Vec

def SelRec.f (r : SelRec) (lo n : Nat) : Nat := bits r.toNat lo n
def SelRec.col (r : SelRec) : Nat := r.f 0 64
def SelRec.wcol (r : SelRec) : Nat := r.f 64 64
def SelRec.cmask (r : SelRec) : Nat := r.f 128 64
def SelRec.target (r : SelRec) : Nat := r.f 256 64
def SelRec.n (r : SelRec) : Nat := r.f 320 32
def SelRec.fmt (r : SelRec) : Nat := r.f 384 4
def SelRec.np (r : SelRec) : Nat := r.f 389 2
def SelRec.merge (r : SelRec) : Bool := r.f 391 1 == 1
def SelRec.wtd (r : SelRec) : Bool := r.f 394 1 == 1
def SelRec.dir (r : SelRec) : Bool := r.f 395 1 == 1
def SelRec.strm (r : SelRec) : Bool := r.f 396 1 == 1
def SelRec.elem (r : SelRec) : Elem := { code := BitVec.ofNat 4 r.fmt, uns := r.f 388 1 == 1 }

/-- Digit width, image width and passes. -/
def SelRec.d (r : SelRec) : Nat := 2 ^ r.f 392 2
def SelRec.w (r : SelRec) : Nat := if r.fmt = 7 then 7 else laneBits r.fmt
def SelRec.passes (r : SelRec) : Nat := (r.w + r.d - 1) / r.d
/-- Bytes of an element; of a word for log6. -/
def SelRec.size (r : SelRec) : Nat := laneBits r.fmt / 8

def SelRec.faulty (r : SelRec) : Bool :=
  let int := decide (9 ≤ r.fmt ∧ r.fmt ≤ 12)
  r.f 448 64 != 0 || r.f 397 51 != 0 || r.f 352 32 != 0 || r.f 392 2 == 3 || r.np == 3 || (r.f 388 1 == 1 && !int) ||
    !(int || decide (1 ≤ r.fmt ∧ r.fmt ≤ 7)) || r.n == 0 || decide (1048576 < r.n) ||
    r.target == 0 || (!r.wtd && decide (2 ^ 48 ≤ r.target)) || r.cmask % 8 != 0 || r.wcol % 4 != 0 ||
    r.wtd != (r.wcol != 0) || (r.strm && (r.col % 32 != 0 || r.fmt == 7))

/-- The directed image of an element. -/
def SelRec.image (r : SelRec) (x : Nat) : Option Nat :=
  (Machine.image r.elem r.np r.merge x).map fun v => if r.dir then 2 ^ r.w - 1 - v else v

/-- Place of digit j, and the digit. -/
def SelRec.place (r : SelRec) (j : Nat) : Nat := r.passes * r.d - (j + 1) * r.d
def SelRec.digit (r : SelRec) (j x : Nat) : Nat := bits x (r.place j) r.d

/-! ### Reading the column (R349, R358) -/

/-- The status code a misaligned element has inside the engine. -/
def misaligned : Nat := 12

def Session.record (x : Session) : SelRec := x.rcd
def Session.reader (x : Session) : Writer := .cluster (clusterOf x.core)

/-- Read `len` bytes at distance `d`, which must lie aligned. -/
def State.selRead (s : State) (x : Session) (a d len : Nat) : Except EngFail PBytes × State :=
  if addrAdd a d % len ≠ 0 then (.error (misaligned, addrAdd a d), s)
  else
    let (b, e, s) := s.engRead x.reader x.core x.root (.gens x.gens) a d len
    (match e with | some e => .error e | none => .ok b, s)

/-- The column's addresses: contiguous, or those of the descriptor; its faults are record faults. -/
def State.selColumn (s : State) (x : Session) : Except EngFail (Option Stream × Bool) × State :=
  let r := x.record
  if !r.strm then (.ok (none, false), s)
  else
    let (b, e, s) := s.engRead x.reader x.core x.root (.gens x.gens) r.col 0 32
    match e with
    | some e => (.error e, s)
    | none =>
      let d := PBytes.bytes b
      let t := Stream.ofDesc d
      let z := r.size
      if leNat (d.drop 24) ≠ 0 ∨ t.total ≠ r.n ∨ t.stra.toNat % z ≠ 0 ∨ t.strb.toNat % z ≠ 0 then (.error (1, r.col), s)
      else (.ok (some t, PBytes.poisoned b), s)

/-- The range an element of the column is checked in, and its distance from the start. -/
def SelRec.elemAt (r : SelRec) (t : Option Stream) (i : Nat) : Nat × Nat :=
  match t with
  | some t => (t.addrOf i, 0)
  | none => (r.col, (if r.fmt = 7 then i / 5 else i) * r.size)

/-- What a pass finds of one element: directed image, weight, reserved content, poison. -/
structure Seen where
  img : Option Nat
  wt : Nat
  bad : Bool
  poison : Bool
deriving DecidableEq, Repr

def State.selElem (s : State) (x : Session) (t : Option Stream) (i : Nat) : Except EngFail Seen × State :=
  let r := x.record
  let (a, d) := r.elemAt t i
  let (b, s) := s.selRead x a d r.size
  match b with
  | .error e => (.error e, s)
  | .ok b =>
    let v := leNat (PBytes.bytes b)
    let v1 := if r.fmt = 7 then log6Elem v (i % 5) else v
    let (w, s) := if r.wtd then s.selRead x r.wcol (4 * i) 4 else (.ok [], s)
    match w with
    | .error e => (.error e, s)
    | .ok w =>
      (.ok ⟨r.image v1, leNat (PBytes.bytes w), r.fmt == 7 && log6Bad v, PBytes.poisoned b || PBytes.poisoned w⟩, s)

/-- Every element of the column, in order. -/
def State.selElems (s : State) (x : Session) (t : Option Stream) : List Nat → List Seen → Except EngFail (List Seen) × State
  | [], acc => (.ok acc.reverse, s)
  | i :: rest, acc =>
    let (e, s) := s.selElem x t i
    match e with
    | .error e => (.error e, s)
    | .ok e => s.selElems x t rest (e :: acc)

/-- The bitmap: the elements it admits, and its poison. -/
def State.selMask (s : State) (x : Session) : Except EngFail (List Nat × Bool) × State :=
  let r := x.record
  if r.cmask = 0 then (.ok (List.range r.n, false), s)
  else
    let (b, e, s) := s.engRead x.reader x.core x.root (.gens x.gens) r.cmask 0 ((r.n + 7) / 8)
    match e with
    | some e => (.error e, s)
    | none =>
      let bs := PBytes.bytes b
      (.ok ((List.range r.n).filter (fun i => (bs.getD (i / 8) 0).getLsbD (i % 8)), PBytes.poisoned b), s)

/-- The column read afresh, with the bitmap and the descriptor: what it holds, and whether those were poisoned. -/
def State.selPass (s : State) (x : Session) : Except EngFail (List Seen × Bool) × State :=
  let (m, s) := s.selMask x
  match m with
  | .error e => (.error e, s)
  | .ok m =>
    let (t, s) := s.selColumn x
    match t with
    | .error e => (.error e, s)
    | .ok (t, p) =>
      let (l, s) := s.selElems x t (List.range x.record.n) []
      (l.map fun l => (l, p || m.2), s)

/-! ### The steps (R351) -/

/-- The count step of the next pass. -/
def State.countStep (s : State) (x : Session) : Except EngFail Session × State :=
  let (l, s) := s.selPass x
  match l with
  | .error e => (.error e, s)
  | .ok (l, p) =>
    let r := x.record
    let cand := x.cand.filterMap fun i =>
      match l[i]? with
      | some e => e.img.map fun v => (i, r.digit x.passes v, e.wt)
      | none => none
    let sumOf (v : Nat) (g : Nat × Nat × Nat → Nat) : Nat := ((cand.filter fun c => c.2.1 == v).map g).sum
    let ids := cand.map (·.1)
    (.ok { x with
      cand := ids, digs := cand.map (·.2.1)
      start := if x.ready then x.start else ids, ready := true
      cnts := (List.range 16).map fun v => sumOf v fun _ => 1
      wts := (List.range 16).map fun v => if r.wtd then sumOf v fun c => c.2.2 else 0
      counted := true
      poison := x.poison || p || l.any fun e => e.poison
      invalid := x.invalid || l.any fun e => e.bad }, s)

/-- The sum of the entries of a block from v upwards. -/
def upFrom (l : List Nat) (v : Nat) : Nat := (l.drop v).sum

/-- The decide step, from counts c and weights w. -/
def Session.decide (x : Session) (c w : List Nat) : Session :=
  let r := x.record
  let x := { x with counted := false, passes := x.passes + 1 }
  if c.sum = 0 then { x with empty := true, done := true }
  else
    let key := if r.wtd then w else c
    let short := Decidable.decide (key.sum < x.rem)
    let dg :=
      if short then ((List.range 16).find? fun v => c.getD v 0 != 0).getD 0
      else ((List.range 16).reverse.find? fun v => Decidable.decide (x.rem ≤ upFrom key v)).getD 0
    let keep := (x.cand.zip x.digs).filter fun p => p.2 == dg
    { x with
      short := x.short || short
      above := x.above + upFrom c (dg + 1)
      wabove := x.wabove + upFrom w (dg + 1)
      rem := if x.short || short then x.rem else x.rem - upFrom key (dg + 1)
      cand := keep.map (·.1), digs := keep.map (·.2)
      pre := x.pre + dg * 2 ^ r.place (x.passes - 1)
      eq := c.getD dg 0, weq := w.getD dg 0, leq := x.cnts.getD dg 0, lweq := x.wts.getD dg 0
      done := x.passes == r.passes }

/-- The status word (R355). -/
def Session.status (x : Session) : Word :=
  let b (p : Bool) (i : Nat) : Nat := if p then 2 ^ i else 0
  BitVec.ofNat 64 (b x.done 0 + b x.short 1 + b x.empty 2 + b x.poison 3 + b x.invalid 4 + b x.counted 5 +
    2 ^ 8 * x.passes + 2 ^ 16 * x.record.passes)

/-- The threshold image, undirected (R356). -/
def Session.threshold (x : Session) : Nat :=
  if x.empty then 0 else if x.record.dir then 2 ^ x.record.w - 1 - x.pre else x.pre

/-- The value of an image (R103); none where it is the image of no value. A float image just below that of zero, which
under zp = merge only an undecided prefix can be, gives -0 (log 111). -/
def SelRec.value (r : SelRec) (v : Nat) : Option Nat :=
  if r.fmt = 7 then
    if (v = 127 ∧ r.np = 0) ∨ (v = 0 ∧ r.np = 1) then some 0x20
    else if v = 32 then some 0
    else if 32 < v ∧ v ≤ 63 then some (v - 32)
    else if 1 ≤ v ∧ v < 32 then some (32 + (32 - v))
    else none
  else if isFloat r.fmt then
    let f := ffmt r.fmt
    if (v = 2 ^ r.w - 1 ∧ r.np = 0) ∨ (v = 0 ∧ r.np = 1) then some f.nanBits
    else if 2 ^ (r.w - 1) ≤ v then some (v - 2 ^ (r.w - 1)) else some (2 ^ r.w - 1 - v)
  else if r.elem.uns then some v
  else some (if 2 ^ (r.w - 1) ≤ v then v - 2 ^ (r.w - 1) else v + 2 ^ (r.w - 1))

/-- What sl.get gives (R356). An image of no value, which only an undecided prefix can be, has an open value (log 10). -/
def Session.get (x : Session) (sel : Nat) (free : Word) : Word :=
  match sel with
  | 0 => BitVec.ofNat 64 x.threshold
  | 1 => if x.empty then 0 else match x.record.value x.threshold with | some v => BitVec.ofNat 64 v | none => free
  | 2 => BitVec.ofNat 64 x.above
  | 3 => BitVec.ofNat 64 x.eq
  | 4 => BitVec.ofNat 64 x.wabove
  | 5 => x.status
  | 6 => BitVec.ofNat 64 x.leq
  | _ => BitVec.ofNat 64 x.lweq

/-! ### Opening (R353) -/

/-- The ranges a record names, each element of a stream's column on its own. -/
def SelRec.ranges (r : SelRec) (t : Option Stream) : List (Nat × Nat) :=
  (match t with
    | some t => (r.col, 32) :: (List.range r.n).map fun i => (t.addrOf i, r.size)
    | none => [(r.col, (if r.fmt = 7 then (r.n + 4) / 5 else r.n) * r.size)]) ++
  (if r.wtd then [(r.wcol, 4 * r.n)] else []) ++
  (if r.cmask = 0 then [] else [(r.cmask, (r.n + 7) / 8)])

/-- Check a record and make its session: ranges recorded, the bitmap read. -/
def State.openSession (s : State) (hart core : Nat) (root : Word) (v : Vec) : Except EngFail Session × State :=
  let x : Session := { hart := hart, root := root, core := core, rcd := v }
  let r := x.record
  if r.faulty then (.error (1, 0), s)
  else
    match s.recordRanges core (if r.strm then [(r.col, 32)] else []) [] with
    | .error e => (.error e, s)
    | .ok g =>
      let (t, s) := s.selColumn { x with gens := g }
      match t with
      | .error e => (.error e, s)
      | .ok (t, p) =>
        match s.recordRanges core (r.ranges t) [] with
        | .error e => (.error e, s)
        | .ok g =>
          let x := { x with gens := g, rem := r.target, poison := p }
          let (m, s) := s.selMask x
          match m with
          | .error e => (.error e, s)
          | .ok m => (.ok { x with cand := m.1, poison := p || m.2 }, s)

/-- The trap of a failure, at the record `a` where it is a record fault. -/
def EngFail.trap {α : Type} (e : EngFail) (a : Nat) : Ins α :=
  if e.1 = 1 then .trap cRecord a
  else if e.1 = misaligned then .trap cAlign e.2
  else if e.1 = 3 then .trap cUnalloc e.2
  else if e.1 = 4 then .trap cSealed a
  else .trap cPage e.2

/-- The hart's open session, if it has one. -/
def State.session (s : State) (n : Nat) : Option Session :=
  match (s.cluster (hartCluster n)).sess with
  | some x => if x.hart = n then some x else none
  | none => none
def State.setSession (s : State) (n : Nat) (x : Session) : State :=
  s.setCluster (hartCluster n) { s.cluster (hartCluster n) with sess := some x }
def needSession (n : Nat) : Ins Session := do
  match ← Ins.get fun s => s.session n with
  | some x => pure x
  | none => .trap cRecord 0

def execSlCfgClose (o : LOpts) (s : State) : Host.Outcome State Fault Refusal :=
  runCompute (.slCfgClose o) (fun n => do
    Ins.upd fun s => s.closeSession n
    pure (.seq)) s

/-- An sl.cfg takes its place behind the requests before it (R346). -/
def State.request (s : State) (n : Nat) : State :=
  let k := s.cluster (hartCluster n)
  if k.jobs.any fun j => j.cfg && j.hart == n then s
  else
    s.setCluster (hartCluster n) { k with
      jobs := k.jobs ++ [{ hart := n, root := s.rootOf (hartCluster n), core := coreOf n, words := [], cfg := true }] }
/-- The engine is free, and the hart's sl.cfg is the next request. -/
def State.granted (s : State) (n : Nat) : Bool :=
  let k := s.cluster (hartCluster n)
  k.sess.isNone && ((k.jobs.head?).map fun j => j.cfg && j.hart == n).getD false

def execSlCfg (o : LOpts) (xa : Reg) (s : State) : Host.Outcome State Fault Refusal :=
  runCompute (.slCfg o xa) (fun n => do
    let a := (← useX n xa).toNat
    Ins.deny (a % 64 != 0) cAlign a
    let v := vecOf (← readRecord n a 64)
    match ← Ins.act fun s => s.openSession n (coreOf n) (s.rootOf (hartCluster n)) v with
    | .error e => EngFail.trap e a
    | .ok x => do
      Ins.upd fun s => s.closeSession n
      Ins.upd fun s => s.request n
      if !(← Ins.get fun s => s.granted n) then .stop .hold
      match ← Ins.get fun s => s.takePin n with
      | none => .stop .hold
      | some (pin, s) => Ins.upd fun _ => (s.dropRequest n).setSession n { x with pin := pin }
      pure (.seq)) s

/-! ### sl.run, sl.pass, sl.get -/

/-- A count step for an instruction. -/
def countFor (_n : Nat) (x : Session) : Ins Session := do
  match ← Ins.act fun s => s.countStep x with
  | .error e => EngFail.trap e 0
  | .ok y => pure y

def putStatus (n : Nat) (i : Instr) (xd : Reg) (x : Session) (stores : List Chunk) : Ins Ctl := do
  commit n i { window := 0, xs := [(xd, { val := x.status })], stores := stores }
  pure (.seq)

/-- Passes until the session is done, at most `k`; a fault in one leaves the session as it was (R358). -/
def runPasses (n : Nat) : Nat → Session → Ins Session
  | 0, x => pure x
  | k + 1, x => do
    if x.done then pure x
    else
      let y ← countFor n x
      runPasses n k (y.decide y.cnts y.wts)

def execSlRun (o : LOpts) (xd : Reg) (s : State) : Host.Outcome State Fault Refusal :=
  let i : Instr := .slRun o xd
  runCompute i (fun n => do
    let x ← needSession n
    Ins.deny (!x.done && x.counted) cRecord 0
    let y ← runPasses n x.record.passes x
    Ins.upd fun s => s.setSession n y
    putStatus n i xd y []) s

/-- Bytes of a block (R354). -/
def SelRec.blockLen (r : SelRec) : Nat := if r.wtd then 256 else 128
def blockBytes (l : List Nat) : List Byte := l.flatMap fun x => leBytes 8 x
def blockWords (b : List Byte) (lo : Nat) : List Nat := (List.range 16).map fun v => leNat ((b.drop (lo + 8 * v)).take 8)

/-- The block's address: in the own bank, a multiple of 128, inside one live allocation; these come before the record
fault of a step out of turn (R288). -/
def blockPlaces (n a len : Nat) (k : Acc) : Ins (List Place) := do
  Ins.deny (a % 128 != 0) cAlign a
  Ins.deny (rowOf a != 0) cUnalloc a
  hartPlaces n k a len

/-- Without a session, the 128 bytes that every block has are tested before the record fault. -/
def noSession (n a : Nat) (k : Acc) : Ins Unit := do
  if (← Ins.get fun s => s.session n).isNone then
    let _ ← blockPlaces n a 128 k

def execSlPassCount (o : LOpts) (xd xa : Reg) (s : State) : Host.Outcome State Fault Refusal :=
  let i : Instr := .slPassCount o xd xa
  runCompute i (fun n => do
    let a := (← useX n xa).toNat
    noSession n a .write
    let x ← needSession n
    if x.done then putStatus n i xd x []
    else do
      let ps ← blockPlaces n a x.record.blockLen .write
      Ins.deny x.counted cRecord 0
      let y ← countFor n x
      Ins.upd fun s => s.setSession n y
      let bs := (if x.record.wtd then blockBytes y.wts else []) ++ blockBytes y.cnts
      putStatus n i xd y ((chunksOf ps bs).map fun c => { c with poison := y.poison })) s

def execSlPassDecide (o : LOpts) (xd xa : Reg) (s : State) : Host.Outcome State Fault Refusal :=
  let i : Instr := .slPassDecide o xd xa
  runCompute i (fun n => do
    let a := (← useX n xa).toNat
    noSession n a .read
    let x ← needSession n
    let _ ← blockPlaces n a x.record.blockLen .read
    Ins.deny (!x.counted) cRecord 0
    let b ← hwRead n a x.record.blockLen
    let bs := PBytes.bytes b
    let c := blockWords bs (if x.record.wtd then 128 else 0)
    let w := if x.record.wtd then blockWords bs 0 else List.replicate 16 0
    let below (m l : List Nat) : Bool := (m.zip l).any fun p => decide (p.1 < p.2)
    Ins.deny (below c x.cnts || below w x.wts) cRecord a
    let y := { x.decide c w with poison := x.poison || PBytes.poisoned b }
    Ins.upd fun s => s.setSession n y
    putStatus n i xd y []) s

def execSlGet (o : LOpts) (sel : BitVec 3) (xd : Reg) (s : State) : Host.Outcome State Fault Refusal :=
  let i : Instr := .slGet o sel xd
  runCompute i (fun n => do
    let x ← needSession n
    let f ← Ins.act fun s => (Config.freeWord s.freeCount, { s with freeCount := s.freeCount + 1 })
    commit n i { window := 0, xs := [(xd, { val := x.get sel.toNat f, poison := x.poison })] }
    pure (.seq)) s

/-! ### Exporting the cut (R357) -/

/-- The ties a quota takes, of (index, weight) pairs in ascending order. -/
def takeTies (wtd : Bool) (q : Nat) : Nat → List (Nat × Nat) → List Nat
  | _, [] => []
  | done, p :: rest =>
    if done < q then p.1 :: takeTies wtd q (done + if wtd then p.2 else 1) rest else takeTies wtd q done rest

/-- The selected elements, in ascending order. -/
def Session.selected (x : Session) (l : List Seen) (quota : Nat) : List Nat :=
  let r := x.record
  if x.empty then []
  else if x.short then x.start
  else
    let q := if quota = 2 ^ 64 - 1 then (if r.wtd then r.target - x.wabove else r.target - x.above) else quota
    let img (i : Nat) : Option Nat := (l[i]?).bind fun e => e.img
    let ties := takeTies r.wtd q 0
      ((x.start.filter fun i => img i == some x.pre).map fun i => (i, ((l[i]?).map fun e => e.wt).getD 0))
    x.start.filter fun i => (match img i with | some v => Decidable.decide (x.pre < v) | none => false) || ties.contains i

/-- The bytes of an export, and the alignment of its destination. -/
def SelRec.export (r : SelRec) (mode : Nat) (sel : List Nat) : List Byte × Nat :=
  match mode with
  | 0 => ((List.range ((r.n + 63) / 64 * 8)).map fun b =>
      BitVec.ofNat 8 ((List.range 8).map fun j => if sel.contains (8 * b + j) then 2 ^ j else 0).sum, 8)
  | 1 => (sel.flatMap fun i => leBytes 4 i, 4)
  | _ => ((List.range r.n).flatMap fun i => List.replicate r.size (if sel.contains i then 0xFF else 0), r.size)

/-- The whole destination checked as the engine will write it: its places, or the first failure. -/
def State.exportPlaces (s : State) (core : Nat) (root : Word) (a len : Nat) : Except EngFail (List Place) × State :=
  (pieces a len).foldl (fun (acc : Except EngFail (List Place) × State) p =>
    match acc.1 with
    | .error e => (.error e, acc.2)
    | .ok l =>
      let (r, s) := acc.2.engPlace core root a ((p.1 + 2 ^ 64 - a) % 2 ^ 64) .write
      match r with
      | .error e => (.error e, s)
      | .ok (loc, off) =>
        match (if locIsMem loc then some 0 else s.coverGen loc) with
        | none => (.error (3, p.1), s)
        | some g => (.ok (l ++ [{ loc := loc, off := off, len := p.2, addr := p.1, gen := g }]), s)) (.ok [], s)

/-- An export: the parts to write, the number selected, and whether the status's poison bit is set once the column has
been read for it; or the failure of its check. -/
def State.exportOf (s : State) (x : Session) (mode a quota : Nat) : Except EngFail (List Chunk × Nat × Bool) × State :=
  let (l, s) := s.selPass x
  match l with
  | .error e => (.error e, s)
  | .ok (l, p) =>
    let bad := x.poison || p || l.any fun e => e.poison
    let sel := x.selected l quota
    let (bs, al) := x.record.export mode sel
    if a % al ≠ 0 then (.error (misaligned, a), s)
    else
      let (ps, s) := s.exportPlaces x.core x.root a bs.length
      match ps with
      | .error e => (.error e, s)
      | .ok ps =>
        match ps.find? fun p => s.locSealed p.loc with
        | some p => (.error (4, p.addr), s)
        | none => (.ok ((markLines (chunksOf ps bs)).map fun c => { c with poison := bad }, sel.length, bad), s)

def execSlMask (o : LOpts) (mode : BitVec 2) (xd xa xq : Reg) (s : State) : Host.Outcome State Fault Refusal :=
  let i : Instr := .slMask o mode xd xa xq
  runCompute i (fun n => do
    let a ← readX n xa
    let q ← readX n xq
    if a.poison then .trap cPoison (RegId.x xa).id
    if q.poison then .trap cPoison (RegId.x xq).id
    let x ← needSession n
    Ins.deny (!x.done || (mode == 2 && x.record.fmt == 7)) cRecord 0
    match ← Ins.act fun s => s.exportOf x mode.toNat a.val.toNat q.val.toNat with
    | .error e => EngFail.trap e (if e.1 = 1 then 0 else a.val.toNat)
    | .ok (cs, k, bad) => do
      commit n i { window := 0, xs := [(xd, { val := BitVec.ofNat 64 k, poison := bad })], engs := cs, closes := true }
      pure (.seq)) s

/-! ### Queued selections (R361) -/

def SelJob.word (j : SelJob) (k : Nat) : Nat := (j.words.getD k 0).toNat

/-- The header, or the export's words, are out of range. -/
def SelJob.faulty (j : SelJob) : Bool :=
  let h := j.word 0
  let exp := bits h 10 1 == 1
  bits h 11 21 != 0 || bits h 0 8 != 1 || bits h 8 2 == 3 || (!exp && (j.word 2 != 0 || j.word 3 != 0))

/-- Words q3 holds (R297). -/
def q3Size : Nat := 32

/-- The five result words of a job: status, what the session found, the number exported. A job that fails reports what
its session holds, and no export (log 116). -/
def SelJob.result (j : SelJob) (status : Nat) (x : Option Session) (exported : Option Nat) (cover : List Nat) : List ResWord :=
  let p := (x.map (·.poison)).getD false
  let g (f : Session → Nat) : Nat := (x.map f).getD 0
  let ws := [bits (j.word 0) 0 8 + 2 ^ 8 * status + (if p then 2 ^ 16 else 0) + 2 ^ 32 * bits (j.word 0) 32 32,
    g Session.threshold, g (·.above), g (·.eq), exported.getD (g (·.wabove))]
  ws.mapIdx fun i w => { val := BitVec.ofNat 64 w, poison := p, cover := if i = 4 then cover else [] }

/-- Post the result of the first job, and drop it; it waits while q3 lacks room. -/
def State.endJob (s : State) (cluster : Nat) (j : SelJob) (ws : List ResWord) : State :=
  let k := s.cluster cluster
  let s := s.setCluster cluster { k with jobs := k.jobs.drop 1 }
  (s.setHart j.hart { s.hart j.hart with q3 := (s.hart j.hart).q3 ++ ws }).unpin j.pin

def State.setJob (s : State) (cluster : Nat) (j : SelJob) : State :=
  s.setCluster cluster { s.cluster cluster with jobs := j :: (s.cluster cluster).jobs.drop 1 }

/-- A job's status for a failure. -/
def jobStatus (e : EngFail) : Nat := if e.1 = misaligned then 1 else e.1

/-- The session of a job, opened. -/
def State.startJob (s : State) (j : SelJob) : SelJob × State :=
  if j.faulty || j.word 1 % 64 != 0 then ({ j with status := 1 }, s)
  else
    let (b, e, s) := s.engRead (.cluster (clusterOf j.core)) j.core j.root .now (j.word 1) 0 64
    match e with
    | some e => ({ j with status := e.1 }, s)
    | none =>
      let (x, s) := s.openSession j.hart j.core j.root (vecOf (PBytes.bytes b))
      (match x with
        | .error e => { j with status := jobStatus e }
        | .ok x => { j with sess := some { x with poison := x.poison || PBytes.poisoned b } }, s)

/-- The end of a job whose selection is decided: its export, and its result; a failed export leaves the result to the
next piece of work, with the session as it stands (log 116). -/
def State.finishJob (s : State) (cluster : Nat) (j : SelJob) (x : Session) : State :=
  let st := if x.empty then 10 else if x.short then 11 else 0
  if bits (j.word 0) 10 1 = 0 then s.endJob cluster j (j.result st (some x) none [])
  else if bits (j.word 0) 8 2 = 2 ∧ x.record.fmt = 7 then s.setJob cluster { j with status := 1 }
  else
    let (r, s) := s.exportOf x (bits (j.word 0) 8 2) (j.word 2) (j.word 3)
    match r with
    | .error e => s.setJob cluster { j with status := jobStatus e }
    | .ok (cs, k, bad) =>
      let seq := s.seq
      let s := cs.foldl (fun s c => s.writeHome x.reader 0 (some 1) false c) s
      s.endJob cluster j (j.result st (some { x with poison := bad }) (if x.record.wtd then none else some k) (s.writesSince seq))

/-- A discarded partial command is answered by a completion with status 8, in its order (R306, R361). -/
def State.dropJob (s : State) (cluster : Nat) (j : SelJob) : State :=
  let s := s.setCluster cluster { s.cluster cluster with jobs := (s.cluster cluster).jobs.drop 1 }
  s.complete cluster 2 j.hart
    (completionPayload (bits (j.word 0) 32 32) 0 8 (bits (j.word 0) 0 8) 0 0 0) [] j.helper

/-- One piece of work of the engine on its first job: it opens the session, takes a pass, or ends the job. -/
def execSelectionJob (cluster : Nat) (s : State) : Host.Outcome State Fault Refusal :=
  happen (
    let k := s.cluster cluster
    if cluster < Config.clusters ∧ k.sess = none then
      match k.jobs with
      | [] => s
      | j :: _ =>
        let room := decide ((s.hart j.hart).q3.length + 5 ≤ q3Size)
        if j.cfg then s
        else if j.status = 8 then s.dropJob cluster j
        else if j.status ≠ 0 then 
          if room then
            let unsent := bits (j.word 0) 10 1 = 1 ∧ (j.sess.map fun x => x.record.wtd) = some false
            s.endJob cluster j (j.result j.status j.sess (if unsent then some 0 else none) [])
          else s
        else
          match j.sess with
          | none => let (j, s) := s.startJob j; s.setJob cluster j
          | some x =>
            if x.done then (if room then s.finishJob cluster j x else s)
            else
              let (r, s) := s.countStep x
              match r with
              | .error e => s.setJob cluster { j with status := jobStatus e }
              | .ok y => s.setJob cluster { j with sess := some (y.decide y.cnts y.wts) }
    else s)

end Sys2Proof.Machine
end

