-- ==== Sys2Proof/Machine/Queues.lean ====
section
/-!
DEFINITION. The engine queues: q.push, q.pop, q.stat (R297-R301, R306, R337, R361), and the completion of lookahead
results (R59).
-/

namespace Sys2Proof.Machine

/-! ### q.push -/

/-- Words of a whole command of queue q that begins with this header. -/
def queueWords (q : Nat) (header : Word) : Nat :=
  match q with
  | 0 => cmdWords header
  | 1 => 8
  | _ => 4

/-- The words a hart holds of a partly pushed command. -/
def Hart.held (h : Hart) (q : Nat) : List Word :=
  match q with
  | 0 => h.q0
  | 1 => h.q1
  | _ => h.q2
def Hart.setHeld (h : Hart) (q : Nat) (l : List Word) : Hart :=
  match q with
  | 0 => { h with q0 := l }
  | 1 => { h with q1 := l }
  | _ => { h with q2 := l }

/-- The 512 bits of eight words. -/
def vecOfWords (l : List Word) : Vec := BitVec.ofNat 512 (l.foldr (fun w acc => w.toNat + 2 ^ 64 * acc) 0)
/-- The eight words of a register, lane 0 first. -/
def wordsOf (v : Vec) : List Word := (List.range 8).map fun i => v.extractLsb' (64 * i) 64

/-- A tile-task record pushed to q1: a failure of its check is its status (R337). -/
def State.recordJob (s : State) (n : Nat) (words : List Word) : Task × State :=
  let t := s.hartTask n
  let r := vecOfWords words
  let (x, s) := s.recordTask t r
  (match x with
    | .ok t => t
    | .error e => { t with op := 3, tag := bits r.toNat 32 32, status := e.status.1, addr := e.status.2 }, s)

/-- A whole command goes to its engine; it may have to wait. -/
def acceptQueue (n q : Nat) (words : List Word) : Ins Unit := do
  let k := hartCluster n
  match q with
  | 0 =>
    let help := (← hartOf n).helper.isSome
    let c : CopyCmd := { hart := n, root := ← Ins.get fun s => s.rootOf k, words := words, helper := help }
    match ← Ins.get fun s => s.acceptCmd k c fun s => s.takePin n with
    | none => .stop .stall
    | some s => Ins.upd fun _ => s
  | 1 => do
    let t ← Ins.act fun s => s.recordJob n words
    submitTask n t
  | _ =>
    match ← Ins.get fun s => s.takePin n with
    | none => .stop .stall
    | some (pin, s) =>
      Ins.upd fun _ =>
        let c := s.cluster k
        s.setCluster k { c with jobs := c.jobs ++ [{ hart := n, root := s.rootOf k, core := coreOf n, words := words, pin := pin, helper := (s.hart n).helper.isSome }] }

def execQPushX (q : BitVec 2) (rs1 : Reg) (s : State) : Host.Outcome State Fault Refusal :=
  runCompute (.qPushX q rs1) (fun n => do
    let w ← useX n rs1
    let l := (← hartOf n).held q.toNat ++ [w]
    if l.length < queueWords q.toNat (l.headD 0) then setHartOf n fun h => h.setHeld q.toNat l
    else do
      acceptQueue n q.toNat l
      setHartOf n fun h => h.setHeld q.toNat []
    pure (.seq)) s

def execQPushV (q : BitVec 2) (vs : Reg) (s : State) : Host.Outcome State Fault Refusal :=
  runCompute (.qPushV q vs) (fun n => do
    let v ← readV n vs
    if v.poison then .trap cPoison (RegId.v vs).id
    let ws := wordsOf v.val
    let k := queueWords q.toNat (ws.headD 0)
    Ins.deny (!((← hartOf n).held q.toNat).isEmpty || (ws.drop k).any fun w => w != 0) cRecord (RegId.v vs).id
    acceptQueue n q.toNat (ws.take k)
    pure (.seq)) s

/-! ### q.pop -/

/-- Take `k` words of q3; the pop captures what they cover. -/
def popQ3 (n k : Nat) : Ins (List ResWord) := do
  let h ← hartOf n
  if h.q3.length < k then .stop .stall
  let ws := h.q3.take k
  setHartOf n fun h => { h with q3 := h.q3.drop k }
  Ins.upd fun s => s.captureCover (.hart n) (ws.flatMap fun w => w.cover)
  pure ws

def execQPopX (rd : Reg) (s : State) : Host.Outcome State Fault Refusal :=
  runCompute (.qPopX rd) (fun n => do
    let w := (← popQ3 n 1).headD { val := 0 }
    writeXP n rd w.val w.poison
    pure (.seq)) s
def execQPopV (vd : Reg) (s : State) : Host.Outcome State Fault Refusal :=
  runCompute (.qPopV vd) (fun n => do
    let ws ← popQ3 n 8
    writeV n vd { val := vecOfWords (ws.map fun w => w.val), poison := ws.any fun w => w.poison }
    pure (.seq)) s

/-! ### q.stat (R301) -/

/-- Commands of the hart that a queue's engine has accepted and not completed; a partial command that was discarded was
never accepted (R304). -/
def State.underWay (s : State) (n q : Nat) : Nat :=
  let k := s.cluster (hartCluster n)
  match q with
  | 0 => (k.copy.filter fun c => c.hart == n && c.dir.isNone && c.status != 8).length
  | 1 => ((s.slice (hartSlice n)).tasks.filter fun t => t.hart == n && t.dir.isNone && t.status != 8).length
  | _ => (k.jobs.filter fun j => j.hart == n && !j.cfg && j.status != 8).length

def State.queueStat (s : State) (n q : Nat) : Word :=
  let h := s.hart n
  let held := if q = 3 then h.q3.length else (h.held q).length
  let size := if q = 3 then q3Size else 16
  let part := if q = 0 ∨ q = 2 then held else 0
  BitVec.ofNat 64 (size - held + 2 ^ 8 * held + 2 ^ 16 * (s.underWay n q % 256) + 2 ^ 24 * part)

def execQStat (rd : Reg) (q : BitVec 2) (s : State) : Host.Outcome State Fault Refusal :=
  runCompute (.qStat rd q) (fun n => do
    writeX n rd (← Ins.get fun s => s.queueStat n q.toNat)
    pure (.seq)) s

/-! ### Lookahead completion (R59) -/

/-- The result at place k of a hart's pending ones completes, if its window is over (R60) and what it waits for is
there. -/
def execLookaheadCompletion (hart k : Nat) (s : State) : Host.Outcome State Fault Refusal :=
  happen (
    match (s.hart hart).pending[k]? with
    | some p => if p.window = 0 ∧ hart < Config.harts then (s.completeAt hart k).getD s else s
    | none => s)

end Sys2Proof.Machine
end

