-- ==== Sys2Proof/Machine/RvG.lean ====
section
/-!
DEFINITION. What a director core has of RV64GC beyond RV64I and M (R45): A, F and D, fence.i, wfi, sret and
sfence.vma, as RISC-V defines them (log 6).
-/

namespace Sys2Proof.Machine

/-! ### Floating-point registers -/

def prec (dbl : Bool) : FFmt := if dbl then fp64 else fp32

/-- A single in a 64-bit register: NaN-boxed. -/
def boxS (w : Nat) : Word := BitVec.ofNat 64 (w % 2 ^ 32 + (2 ^ 32 - 1) * 2 ^ 32)
/-- The operand of an operation; a single that is not boxed is the canonical NaN. -/
def unboxF (dbl : Bool) (w : Word) : Nat :=
  if dbl then w.toNat else if bits w.toNat 32 32 = 2 ^ 32 - 1 then bits w.toNat 0 32 else fp32.nanBits

def fGet (d : Nat) (dbl : Bool) (r : Reg) : Ins Nat := do pure (unboxF dbl ((← dirOf d).getF r))
def fPutRaw (d : Nat) (r : Reg) (w : Word) : Ins Unit :=
  setDirOf d fun c => { c with f := KMap.set 0 c.f r.toNat w }.fpDirty
def fPut (d : Nat) (dbl : Bool) (r : Reg) (w : Nat) : Ins Unit := fPutRaw d r (if dbl then BitVec.ofNat 64 w else boxS w)

/-- RISC-V's order of the flags: NX, UF, OF, DZ, NV from bit 0. -/
def rvFlags (e : Events) : BitVec 5 :=
  BitVec.ofNat 5 ((if e.nx then 1 else 0) + (if e.uf then 2 else 0) + (if e.of then 4 else 0) + (if e.dz then 8 else 0) +
    (if e.nv then 16 else 0))

def raiseF (d : Nat) (e : Events) : Ins Unit :=
  if e = {} then pure () else setDirOf d fun c => { c with fflags := c.fflags ||| rvFlags e }.fpDirty

/-- The unit is off: illegal. -/
def needFp (d : Nat) : Ins Unit := do if !(← dirOf d).fpOn then .stop .illegal

/-- The rounding mode of an instruction; a reserved one is illegal. -/
def rvRm (d : Nat) (rm : BitVec 3) : Ins ROpts := do
  match rmOf rm (← dirOf d).frm with
  | some m => pure { rm := m, after := true }
  | none => .stop .illegal

/-- A signalling NaN. -/
def FFmt.isSNan (f : FFmt) (w : Nat) : Bool := f.isNan w && bits w (f.mbits - 1) 1 == 0

/-- The events with invalid for a signalling operand. -/
def withSNan (f : FFmt) (l : List Nat) (r : Nat × Events) : Nat × Events := (r.1, { r.2 with nv := r.2.nv || l.any f.isSNan })

/-! ### Operations -/

def signOf (f : FFmt) (w : Nat) : Nat := bits w (f.width - 1) 1
def withSign (f : FFmt) (s w : Nat) : Nat := w % 2 ^ (f.width - 1) + s % 2 * 2 ^ (f.width - 1)

/-- The two-operand operations; a sqrt has one. -/
def rvFp (op : RvFp) (f : FFmt) (o : ROpts) (a b : Nat) : Nat × Events :=
  match op with
  | .add => withSNan f [a, b] (fAdd f o a b)
  | .sub => withSNan f [a, b] (fSub f o a b)
  | .mul => withSNan f [a, b] (fMul f o a b)
  | .div => withSNan f [a, b] (fDiv f o a b)
  | .sqrt => withSNan f [a] (fSqrt f o a)
  | .sgnj => (withSign f (signOf f b) a, {})
  | .sgnjn => (withSign f (1 - signOf f b) a, {})
  | .sgnjx => (withSign f (signOf f a + signOf f b) a, {})
  | .min => withSNan f [a, b] (fMinMax f false false a b, {})
  | .max => withSNan f [a, b] (fMinMax f true false a b, {})

/-- The operation rounds. -/
def rvRounds : RvFp → Bool
  | .sgnj | .sgnjn | .sgnjx | .min | .max => false
  | _ => true

/-- a × b + c with the signs of the four fused forms. -/
def rvFma (f : FFmt) (o : ROpts) (neg sub : Bool) (a b c : Nat) : Nat × Events :=
  withSNan f [a, b, c] (fFma f o sub (if neg && !f.isNan a then fNeg f a else a) b c)

/-- fle, flt, feq: 0, 1, 2. -/
def rvCmp (f : FFmt) (k a b : Nat) : Nat × Events :=
  if f.isNan a || f.isNan b then (0, { nv := k != 2 || f.isSNan a || f.isSNan b })
  else
    let r := match fCmp f a b with
      | .lt => k != 2
      | .eq => k != 1
      | .gt => false
    (if r then 1 else 0, {})

/-- fclass. -/
def rvClass (f : FFmt) (w : Nat) : Nat :=
  let neg := signOf f w = 1
  match f.decode w with
  | .nan => if f.isSNan w then 2 ^ 8 else 2 ^ 9
  | .inf n => if n then 1 else 2 ^ 7
  | .fin _ s _ =>
    if s = 0 then (if neg then 2 ^ 3 else 2 ^ 4)
    else if f.isSubnormal w then (if neg then 2 ^ 2 else 2 ^ 5)
    else (if neg then 2 else 2 ^ 6)

/-- Width and signedness of an integer format: w, wu, l, lu. -/
def rvInt (k : BitVec 2) : Nat × Bool := (if k.getLsbD 1 then 64 else 32, k.getLsbD 0)

/-- A float to an integer, saturating; a NaN gives the largest. -/
def rvToInt (f : FFmt) (o : ROpts) (k : BitVec 2) (a : Nat) : Word × Events :=
  let (w, u) := rvInt k
  let r : Nat × Events :=
    match f.decode a with
    | .nan => (wrapInt w (intMax w u), { nv := true })
    | v => valToInt w u { o with sat := true } v
  (if w = 32 then (BitVec.ofNat 32 r.1).signExtend 64 else BitVec.ofNat 64 r.1, r.2)

/-- An integer to a float. -/
def rvFromInt (f : FFmt) (o : ROpts) (k : BitVec 2) (x : Word) : Nat × Events :=
  let (w, u) := rvInt k
  intToF f o (intOf w u (bits x.toNat 0 w))

/-! ### Atomics -/

def rvAmo (op : RvAmo) (w a b : Nat) : Nat :=
  let lt (u : Bool) : Bool := decide (intOf w u a < intOf w u b)
  match op with
  | .swap => b
  | .add => (a + b) % 2 ^ w
  | .xor => a ^^^ b
  | .and => a &&& b
  | .or => a ||| b
  | .min => if lt false then a else b
  | .max => if lt false then b else a
  | .minu => if lt true then a else b
  | .maxu => if lt true then b else a

/-- A loaded number as rd takes it. -/
def sextOf (w v : Nat) : Word := if w = 32 then (BitVec.ofNat 32 v).signExtend 64 else BitVec.ofNat 64 v

/-- The physical address of an access inside one granule. -/
def placePa (ps : List Place) : Nat :=
  match ps with
  | p :: _ => 32 * locGran p.loc + p.off
  | [] => 0

/-- Loads and stores of floating-point registers. -/
def fLoad (d : Nat) (dbl : Bool) (rd : Reg) (a : Nat) : Ins Unit := do
  let z := if dbl then 8 else 4
  excIf (a % z != 0) 4 a
  let w ← dLoad d a z
  fPutRaw d rd (if dbl then BitVec.ofNat 64 w else boxS w)
def fStore (d : Nat) (dbl : Bool) (rs2 : Reg) (a : Nat) : Ins Unit := do
  let z := if dbl then 8 else 4
  excIf (a % z != 0) 6 a
  dirWrite d a (leBytes z ((← dirOf d).getF rs2).toNat)

/-- The meaning of one operation. -/
def rvgBody (d : Nat) : RvgOp → Ins Ctl
  | .lr dw _ _ rd rs1 => do
    let a := (← dGet d rs1).toNat
    let w := if dw then 64 else 32
    excIf (a % (w / 8) != 0) 4 a
    let ps ← dirPlaces d .read a (w / 8)
    let v ← dLoad d a (w / 8)
    setDirOf d fun c => { c with resv := some (placePa ps, w / 8) }
    dPut d rd (sextOf w v)
    pure (.seq)
  | .sc dw _ _ rd rs1 rs2 => do
    let a := (← dGet d rs1).toNat
    let w := if dw then 64 else 32
    excIf (a % (w / 8) != 0) 6 a
    let ps ← dirPlaces d .write a (w / 8)
    let ok := (← dirOf d).resv == some (placePa ps, w / 8)
    setDirOf d fun c => { c with resv := none }
    if ok then dirWrite d a (leBytes (w / 8) (← dGet d rs2).toNat)
    dPut d rd (if ok then 0 else 1)
    pure (.seq)
  | .amo op dw _ _ rd rs1 rs2 => do
    let a := (← dGet d rs1).toNat
    let w := if dw then 64 else 32
    excIf (a % (w / 8) != 0) 6 a
    let _ ← dirPlaces d .write a (w / 8)
    let v ← dLoad d a (w / 8)
    let b := bits (← dGet d rs2).toNat 0 w
    dirWrite d a (leBytes (w / 8) (rvAmo op w v b))
    dPut d rd (sextOf w v)
    pure (.seq)
  | .fload dbl rd rs1 imm => do
    needFp d
    fLoad d dbl rd ((← dGet d rs1) + sx imm).toNat
    pure (.seq)
  | .fstore dbl rs2 rs1 imm => do
    needFp d
    fStore d dbl rs2 ((← dGet d rs1) + sx imm).toNat
    pure (.seq)
  | .fma neg sub dbl rm rd rs1 rs2 rs3 => do
    needFp d
    let o ← rvRm d rm
    let r := rvFma (prec dbl) o neg sub (← fGet d dbl rs1) (← fGet d dbl rs2) (← fGet d dbl rs3)
    fPut d dbl rd r.1
    raiseF d r.2
    pure (.seq)
  | .fop op dbl rm rd rs1 rs2 => do
    needFp d
    let o ← if rvRounds op then rvRm d rm else pure {}
    let r := rvFp op (prec dbl) o (← fGet d dbl rs1) (← fGet d dbl rs2)
    fPut d dbl rd r.1
    raiseF d r.2
    pure (.seq)
  | .fcmp k dbl rd rs1 rs2 => do
    needFp d
    let r := rvCmp (prec dbl) k.toNat (← fGet d dbl rs1) (← fGet d dbl rs2)
    dPut d rd (BitVec.ofNat 64 r.1)
    raiseF d r.2
    pure (.seq)
  | .fclass dbl rd rs1 => do
    needFp d
    dPut d rd (BitVec.ofNat 64 (rvClass (prec dbl) (← fGet d dbl rs1)))
    pure (.seq)
  | .fcvtToInt dbl k rm rd rs1 => do
    needFp d
    let o ← rvRm d rm
    let r := rvToInt (prec dbl) o k (← fGet d dbl rs1)
    dPut d rd r.1
    raiseF d r.2
    pure (.seq)
  | .fcvtFromInt dbl k rm rd rs1 => do
    needFp d
    let o ← rvRm d rm
    let r := rvFromInt (prec dbl) o k (← dGet d rs1)
    fPut d dbl rd r.1
    raiseF d r.2
    pure (.seq)
  | .fcvtFF toDbl rm rd rs1 => do
    needFp d
    let o ← rvRm d rm
    let src := prec (!toDbl)
    let a ← fGet d (!toDbl) rs1
    let r := withSNan src [a] (valToF (prec toDbl) o (src.decode a))
    fPut d toDbl rd r.1
    raiseF d r.2
    pure (.seq)
  | .fmvToX dbl rd rs1 => do
    needFp d
    let w := (← dirOf d).getF rs1
    dPut d rd (if dbl then w else (w.extractLsb' 0 32).signExtend 64)
    pure (.seq)
  | .fmvFromX dbl rd rs1 => do
    needFp d
    let w ← dGet d rs1
    fPutRaw d rd (if dbl then w else boxS w.toNat)
    pure (.seq)
  | .fenceI .. => pure (.seq)
  | .wfi => pure (.seq)
  | .sret => do
    if (← dirOf d).user then .stop .illegal
    setDirOf d Dir.sret
    pure .gone
  | .sfenceVma rs1 _ => do
    if (← dirOf d).user then .stop .illegal
    let a ← dGet d rs1
    setDirOf d fun c => { c with
      tlb := if rs1 = 0 then []
        else c.tlb.filter fun e => !(decide (e.vbase ≤ va57 a.toNat) && decide (va57 a.toNat < e.vbase + 2 ^ e.size)) }
    pure (.seq)
  | .cfld rd rs1 imm => do
    needFp d
    fLoad d true (8 + rd.zeroExtend 5) (addrAdd (← dGet d (8 + rs1.zeroExtend 5)).toNat (8 * imm.toNat))
    pure (.seq)
  | .cfsd rs2 rs1 imm => do
    needFp d
    fStore d true (8 + rs2.zeroExtend 5) (addrAdd (← dGet d (8 + rs1.zeroExtend 5)).toNat (8 * imm.toNat))
    pure (.seq)
  | .cfldsp rd imm => do
    needFp d
    fLoad d true rd (addrAdd (← dGet d 2).toNat (8 * imm.toNat))
    pure (.seq)
  | .cfsdsp rs2 imm => do
    needFp d
    fStore d true rs2 (addrAdd (← dGet d 2).toNat (8 * imm.toNat))
    pure (.seq)

def execRv64gcInstruction (op : RvgOp) (s : State) : Host.Outcome State Fault Refusal :=
  runDirector (.rv64gcInstruction op) (fun d => rvgBody d op) s

end Sys2Proof.Machine
end

