-- ==== Sys2Proof/Machine/Scalar.lean ====
section
/-!
DEFINITION. The scalar class: RV64I and M (R123), branches and jumps (R129), loads and stores (R205), fence, ecall and
ebreak (R125), Zca, and the illegal instruction (R43). Both kinds of core have these instructions (R14).
-/

namespace Sys2Proof

/-- The low 32 bits, sign-extended. -/
def sext32 (w : BitVec 32) : Word := w.signExtend 64
/-- The low 32 bits of a word. -/
def low32 (w : Word) : BitVec 32 := w.extractLsb' 0 32

/-- The integer operations of RV64I (R123). -/
def AluOp.eval (op : AluOp) (a b : Word) : Word :=
  match op with
  | .add => a + b
  | .sub => a - b
  | .sll => a <<< (b.toNat % 64)
  | .slt => if a.slt b then 1 else 0
  | .sltu => if a < b then 1 else 0
  | .xor => a ^^^ b
  | .srl => a >>> (b.toNat % 64)
  | .sra => a.sshiftRight (b.toNat % 64)
  | .or => a ||| b
  | .and => a &&& b
  | .addw => sext32 (low32 a + low32 b)
  | .subw => sext32 (low32 a - low32 b)
  | .sllw => sext32 (low32 a <<< (b.toNat % 32))
  | .srlw => sext32 (low32 a >>> (b.toNat % 32))
  | .sraw => sext32 ((low32 a).sshiftRight (b.toNat % 32))

/-- The products of M. -/
def MulOp.eval (op : MulOp) (a b : Word) : Word :=
  match op with
  | .mul => a * b
  | .mulh => BitVec.ofInt 64 (a.toInt * b.toInt / 2 ^ 64)
  | .mulhsu => BitVec.ofInt 64 (a.toInt * (b.toNat : Int) / 2 ^ 64)
  | .mulhu => BitVec.ofNat 64 (a.toNat * b.toNat / 2 ^ 64)
  | .mulw => sext32 (low32 a * low32 b)

/-- Quotients and remainders of M, with the results of R123 for a zero divisor and for signed overflow. -/
def DivOp.eval (op : DivOp) (a b : Word) : Word :=
  match op with
  | .div => if b = 0 then BitVec.allOnes 64 else a.sdiv b
  | .divu => if b = 0 then BitVec.allOnes 64 else a / b
  | .rem => if b = 0 then a else a.srem b
  | .remu => if b = 0 then a else a % b
  | .divw => sext32 (if low32 b = 0 then BitVec.allOnes 32 else (low32 a).sdiv (low32 b))
  | .divuw => sext32 (if low32 b = 0 then BitVec.allOnes 32 else low32 a / low32 b)
  | .remw => sext32 (if low32 b = 0 then low32 a else (low32 a).srem (low32 b))
  | .remuw => sext32 (if low32 b = 0 then low32 a else low32 a % low32 b)

/-- The condition of a branch. -/
def BrOp.taken (op : BrOp) (a b : Word) : Bool :=
  match op with
  | .beq => a == b
  | .bne => a != b
  | .blt => a.slt b
  | .bge => !(a.slt b)
  | .bltu => decide (a < b)
  | .bgeu => !decide (a < b)

/-- Bytes of a load, and its extension. -/
def LdOp.size : LdOp → Nat
  | .lb | .lbu => 1
  | .lh | .lhu => 2
  | .lw | .lwu => 4
  | .ld => 8
def LdOp.extend (op : LdOp) (v : Nat) : Word :=
  match op with
  | .lb => (BitVec.ofNat 8 v).signExtend 64
  | .lh => (BitVec.ofNat 16 v).signExtend 64
  | .lw => (BitVec.ofNat 32 v).signExtend 64
  | _ => BitVec.ofNat 64 v
def StOp.size : StOp → Nat
  | .sb => 1
  | .sh => 2
  | .sw => 4
  | .sd => 8

end Sys2Proof

namespace Sys2Proof.Machine

/-- rd := op(rs1, source); a result of poisoned sources is poisoned (R151, R282). With rd = x0 it is a HINT and does
nothing (R45). -/
def aluBody (op : AluOp) (rd rs1 : Reg) (src : AluSrc) (a : Agent) : Ins Ctl := do
  if rd = 0 then return .seq
  let x ← a.readX rs1
  let y ← match src with
    | .reg r => a.readX r
    | .imm i => pure { val := sx i }
  a.writeX rd (op.eval x.val y.val) (x.poison || y.poison)
  pure (.seq)

def mulBody (op : MulOp) (rd rs1 rs2 : Reg) (a : Agent) : Ins Ctl := do
  let x ← a.readX rs1
  let y ← a.readX rs2
  a.writeX rd (op.eval x.val y.val) (x.poison || y.poison)
  pure (.seq)

def divBody (op : DivOp) (rd rs1 rs2 : Reg) (a : Agent) : Ins Ctl := do
  let x ← a.readX rs1
  let y ← a.readX rs2
  a.writeX rd (op.eval x.val y.val) (x.poison || y.poison)
  pure (.seq)

def luiBody (rd : Reg) (imm : BitVec 20) (a : Agent) : Ins Ctl := do
  a.writeX rd (sxUpper imm)
  pure (.seq)

def auipcBody (rd : Reg) (imm : BitVec 20) (a : Agent) : Ins Ctl := do
  a.writeX rd ((← a.pc) + sxUpper imm)
  pure (.seq)

/-- A poisoned comparand traps (R283). -/
def branchBody (op : BrOp) (rs1 rs2 : Reg) (off : BitVec 12) (a : Agent) : Ins Ctl := do
  let (x, y) ← a.useX2 rs1 rs2
  if op.taken x y then pure (.jump ((← a.pc) + sxHalf off)) else pure (.seq)

def jalBody (len : Nat) (rd : Reg) (off : BitVec 20) (a : Agent) : Ins Ctl := do
  let pc ← a.pc
  a.writeX rd (pc + BitVec.ofNat 64 len)
  pure (.jump (pc + sxHalf off))

def jalrBody (len : Nat) (rd rs1 : Reg) (imm : BitVec 12) (a : Agent) : Ins Ctl := do
  let pc ← a.pc
  let x ← a.useX rs1
  a.writeX rd (pc + BitVec.ofNat 64 len)
  pure (.jump ((x + sx imm) &&& ~~~1#64))

/-- A scalar load (R123, R205): base, alignment, then the checks of the access. -/
def loadBody (op : LdOp) (rd rs1 : Reg) (imm : BitVec 12) (a : Agent) : Ins Ctl := do
  let x ← a.useX rs1
  let addr := (x + sx imm).toNat
  a.deny (addr % op.size != 0) cAlign .read addr
  let bs ← a.load addr op.size
  a.writeX rd (op.extend (leNat (PBytes.bytes bs))) (PBytes.poisoned bs)
  pure (.seq)

/-- A scalar store: a poisoned base or datum traps before any check of the address (R180). -/
def storeBody (op : StOp) (rs2 rs1 : Reg) (imm : BitVec 12) (a : Agent) : Ins Ctl := do
  let (x, y) ← a.useX2 rs1 rs2
  let addr := (x + sx imm).toNat
  a.deny (addr % op.size != 0) cAlign .write addr
  a.store addr (leBytes op.size y.toNat)
  pure (.seq)

/-- A debugger is attached to the cue of the hart (R125). -/
def State.debugged (s : State) (n : Nat) : Bool :=
  s.watched n || (s.inDebug n && !(s.hart n).house && s.dbg.plays.contains (s.hart n).curPlay)

/-- The stop reason of an ebreak (R125). -/
def whyEbreak : Nat := 514

/-- ebreak: a stop where a debugger is attached, else the breakpoint trap or exception (R125, R406). -/
def ebreakBody (a : Agent) : Ins Ctl := do
  let pc ← a.pc
  match a with
  | .hart n =>
    if ← Ins.get fun s => s.debugged n then
      Ins.upd fun s => s.stopHart n pc whyEbreak
      pure (.seq)
    else .trap cBreak pc.toNat
  | .dir d =>
    if ← Ins.get fun s => s.dbg.attached && s.dbg.threads.contains d && (s.dir d).user then
      Ins.upd fun s => s.stopDir d pc whyEbreak
      pure (.seq)
    else .exc 3 pc.toNat

def ecallBody (a : Agent) : Ins Ctl := do
  match a with
  | .hart _ => .trap cEcall 0
  | .dir d => .exc (if (← dirOf d).user then 8 else 9) 0

/-- The meaning of the instruction a Zca instruction stands for, with its own length (R123); a HINT does nothing (R45). -/
def zcaBody (c : ZcaOp) (a : Agent) : Ins Ctl :=
  if c.hint then pure (.seq) else
  match c.expand with
  | .rv64iAlu op rd rs1 src => aluBody op rd rs1 src a
  | .lui rd imm => luiBody rd imm a
  | .scalarLoad op rd rs1 imm => loadBody op rd rs1 imm a
  | .scalarStore op rs2 rs1 imm => storeBody op rs2 rs1 imm a
  | .jal rd off => jalBody 2 rd off a
  | .jalr rd rs1 imm => jalrBody 2 rd rs1 imm a
  | .branch op rs1 rs2 off => branchBody op rs1 rs2 off a
  | .ebreak => ebreakBody a
  | _ => .stop .illegal

/-! ### The meanings -/

def execRv64iAlu (op : AluOp) (rd rs1 : Reg) (src : AluSrc) (s : State) : Host.Outcome State Fault Refusal :=
  runBoth (.rv64iAlu op rd rs1 src) (aluBody op rd rs1 src) s
def execLui (rd : Reg) (imm : BitVec 20) (s : State) : Host.Outcome State Fault Refusal :=
  runBoth (.lui rd imm) (luiBody rd imm) s
def execAuipc (rd : Reg) (imm : BitVec 20) (s : State) : Host.Outcome State Fault Refusal :=
  runBoth (.auipc rd imm) (auipcBody rd imm) s
def execMul (op : MulOp) (rd rs1 rs2 : Reg) (s : State) : Host.Outcome State Fault Refusal :=
  runBoth (.mul op rd rs1 rs2) (mulBody op rd rs1 rs2) s
def execDiv (op : DivOp) (rd rs1 rs2 : Reg) (s : State) : Host.Outcome State Fault Refusal :=
  runBoth (.div op rd rs1 rs2) (divBody op rd rs1 rs2) s
def execBranch (op : BrOp) (rs1 rs2 : Reg) (off : BitVec 12) (s : State) : Host.Outcome State Fault Refusal :=
  runBoth (.branch op rs1 rs2 off) (branchBody op rs1 rs2 off) s
def execJal (rd : Reg) (off : BitVec 20) (s : State) : Host.Outcome State Fault Refusal :=
  runBoth (.jal rd off) (jalBody 4 rd off) s
def execJalr (rd rs1 : Reg) (imm : BitVec 12) (s : State) : Host.Outcome State Fault Refusal :=
  runBoth (.jalr rd rs1 imm) (jalrBody 4 rd rs1 imm) s
def execScalarLoad (op : LdOp) (rd rs1 : Reg) (imm : BitVec 12) (s : State) : Host.Outcome State Fault Refusal :=
  runBoth (.scalarLoad op rd rs1 imm) (loadBody op rd rs1 imm) s
def execScalarStore (op : StOp) (rs2 rs1 : Reg) (imm : BitVec 12) (s : State) : Host.Outcome State Fault Refusal :=
  runBoth (.scalarStore op rs2 rs1 imm) (storeBody op rs2 rs1 imm) s
/-- fence orders the hart's own accesses, which are in program order already (R125). -/
def execFence (fm pred succ : BitVec 4) (rs1 rd : Reg) (s : State) : Host.Outcome State Fault Refusal :=
  runBoth (.fence fm pred succ rs1 rd) (fun _ => pure (.seq)) s
def execEcall (s : State) : Host.Outcome State Fault Refusal := runBoth .ecall ecallBody s
def execEbreak (s : State) : Host.Outcome State Fault Refusal := runBoth .ebreak ebreakBody s
def execZcaInstruction (c : ZcaOp) (s : State) : Host.Outcome State Fault Refusal :=
  runBoth (.zcaInstruction c) (zcaBody c) s
/-- Bits that are no instruction: the illegal-instruction trap, or exception, with those bits (R43). -/
def execIllegalInstruction (w : BitVec 64) (s : State) : Host.Outcome State Fault Refusal :=
  runBoth (.illegalInstruction w) (fun _ => .stop .illegal) s

end Sys2Proof.Machine
end

