-- ==== Sys2Proof/Machine/Dispatch.lean ====
section
/-!
DEFINITION. One arm per instruction: its meaning.
-/

namespace Sys2Proof.Machine

/-- The effect of one instruction or event. -/
def exec (i : Instr) (s : State) : Host.Outcome State Fault Refusal :=
  match i with
  | .rv64iAlu op rd rs1 src => Sys2Proof.Machine.execRv64iAlu op rd rs1 src s
  | .lui rd imm => Sys2Proof.Machine.execLui rd imm s
  | .auipc rd imm => Sys2Proof.Machine.execAuipc rd imm s
  | .mul op rd rs1 rs2 => Sys2Proof.Machine.execMul op rd rs1 rs2 s
  | .div op rd rs1 rs2 => Sys2Proof.Machine.execDiv op rd rs1 rs2 s
  | .branch op rs1 rs2 off => Sys2Proof.Machine.execBranch op rs1 rs2 off s
  | .jal rd off => Sys2Proof.Machine.execJal rd off s
  | .jalr rd rs1 imm => Sys2Proof.Machine.execJalr rd rs1 imm s
  | .scalarLoad op rd rs1 imm => Sys2Proof.Machine.execScalarLoad op rd rs1 imm s
  | .scalarStore op rs2 rs1 imm => Sys2Proof.Machine.execScalarStore op rs2 rs1 imm s
  | .fence fm pred succ rs1 rd => Sys2Proof.Machine.execFence fm pred succ rs1 rd s
  | .csrrw rd csr rs1 => Sys2Proof.Machine.execCsrrw rd csr rs1 s
  | .csrrs rd csr rs1 => Sys2Proof.Machine.execCsrrs rd csr rs1 s
  | .csrrc rd csr rs1 => Sys2Proof.Machine.execCsrrc rd csr rs1 s
  | .csrrwi rd csr z => Sys2Proof.Machine.execCsrrwi rd csr z s
  | .csrrsi rd csr z => Sys2Proof.Machine.execCsrrsi rd csr z s
  | .csrrci rd csr z => Sys2Proof.Machine.execCsrrci rd csr z s
  | .zcaInstruction c => Sys2Proof.Machine.execZcaInstruction c s
  | .illegalInstruction w => Sys2Proof.Machine.execIllegalInstruction w s
  | .lpSet n cnt fin => Sys2Proof.Machine.execLpSet n cnt fin s
  | .lpOff n => Sys2Proof.Machine.execLpOff n s
  | .lpSetup n cnt imm => Sys2Proof.Machine.execLpSetup n cnt imm s
  | .lpSetupi n cnt imm => Sys2Proof.Machine.execLpSetupi n cnt imm s
  | .killX a b => Sys2Proof.Machine.execKillX a b s
  | .killV a b => Sys2Proof.Machine.execKillV a b s
  | .jalD rd imm => Sys2Proof.Machine.execJalD rd imm s
  | .jalrD rd rs1 imm => Sys2Proof.Machine.execJalrD rd rs1 imm s
  | .chorusForm rd size => Sys2Proof.Machine.execChorusForm rd size s
  | .chorusId rd => Sys2Proof.Machine.execChorusId rd s
  | .safept n => Sys2Proof.Machine.execSafept n s
  | .cueResume rd rs1 => Sys2Proof.Machine.execCueResume rd rs1 s
  | .cueYield rs1 => Sys2Proof.Machine.execCueYield rs1 s
  | .cueSpawn rd rs1 rs2 => Sys2Proof.Machine.execCueSpawn rd rs1 rs2 s
  | .cueWait rd rs1 rs2 => Sys2Proof.Machine.execCueWait rd rs1 rs2 s
  | .cueSelf rd => Sys2Proof.Machine.execCueSelf rd s
  | .salloc rd rs1 rs2 => Sys2Proof.Machine.execSalloc rd rs1 rs2 s
  | .sallocA rd rs1 rs2 => Sys2Proof.Machine.execSallocA rd rs1 rs2 s
  | .sfree rd rs1 => Sys2Proof.Machine.execSfree rd rs1 s
  | .genRd rd rs1 sel => Sys2Proof.Machine.execGenRd rd rs1 sel s
  | .lookaheadCompletion hart k => Sys2Proof.Machine.execLookaheadCompletion hart k s
  | .amoAdd acq rel sc rd rs1 rs2 => Sys2Proof.Machine.execAmoAdd acq rel sc rd rs1 rs2 s
  | .amoSwap acq rel sc rd rs1 rs2 => Sys2Proof.Machine.execAmoSwap acq rel sc rd rs1 rs2 s
  | .amoCas acq rel sc rd rs1 rs2 => Sys2Proof.Machine.execAmoCas acq rel sc rd rs1 rs2 s
  | .amoMin acq rel sc rd rs1 rs2 => Sys2Proof.Machine.execAmoMin acq rel sc rd rs1 rs2 s
  | .amoMax acq rel sc rd rs1 rs2 => Sys2Proof.Machine.execAmoMax acq rel sc rd rs1 rs2 s
  | .amoMinu acq rel sc rd rs1 rs2 => Sys2Proof.Machine.execAmoMinu acq rel sc rd rs1 rs2 s
  | .amoMaxu acq rel sc rd rs1 rs2 => Sys2Proof.Machine.execAmoMaxu acq rel sc rd rs1 rs2 s
  | .amoAnd acq rel sc rd rs1 rs2 => Sys2Proof.Machine.execAmoAnd acq rel sc rd rs1 rs2 s
  | .amoOr acq rel sc rd rs1 rs2 => Sys2Proof.Machine.execAmoOr acq rel sc rd rs1 rs2 s
  | .amoXor acq rel sc rd rs1 rs2 => Sys2Proof.Machine.execAmoXor acq rel sc rd rs1 rs2 s
  | .amoAddb acq rel sc rd rs1 rs2 => Sys2Proof.Machine.execAmoAddb acq rel sc rd rs1 rs2 s
  | .sbind strm rs1 => Sys2Proof.Machine.execSbind strm rs1 s
  | .sunbind strm => Sys2Proof.Machine.execSunbind strm s
  | .sstat rd strm => Sys2Proof.Machine.execSstat rd strm s
  | .seal rd rs1 rs2 => Sys2Proof.Machine.execSeal rd rs1 rs2 s
  | .unseal rd rs1 rs2 => Sys2Proof.Machine.execUnseal rd rs1 rs2 s
  | .streamReadAhead hart strm => Sys2Proof.Machine.execStreamReadAhead hart strm s
  | .streamCsrBind hart strm v => Sys2Proof.Machine.execStreamCsrBind hart strm v s
  | .msgRecv rd rs1 => Sys2Proof.Machine.execMsgRecv rd rs1 s
  | .msgPoll rd rs1 => Sys2Proof.Machine.execMsgPoll rd rs1 s
  | .msgPut n rs1 rs2 => Sys2Proof.Machine.execMsgPut n rs1 rs2 s
  | .dqPush rd vs rs2 => Sys2Proof.Machine.execDqPush rd vs rs2 s
  | .dqPop vd rs1 => Sys2Proof.Machine.execDqPop vd rs1 s
  | .qPushX n rs1 => Sys2Proof.Machine.execQPushX n rs1 s
  | .qPushV n vs => Sys2Proof.Machine.execQPushV n vs s
  | .qPopX rd => Sys2Proof.Machine.execQPopX rd s
  | .qPopV vd => Sys2Proof.Machine.execQPopV vd s
  | .qStat rd n => Sys2Proof.Machine.execQStat rd n s
  | .svcCall rd rs1 => Sys2Proof.Machine.execSvcCall rd rs1 s
  | .qkSet rs1 => Sys2Proof.Machine.execQkSet rs1 s
  | .qkScan rd rs1 => Sys2Proof.Machine.execQkScan rd rs1 s
  | .jlPut rd rs1 rs2 => Sys2Proof.Machine.execJlPut rd rs1 rs2 s
  | .barInit rs1 rs2 => Sys2Proof.Machine.execBarInit rs1 rs2 s
  | .publish sc => Sys2Proof.Machine.execPublish sc s
  | .refresh sc => Sys2Proof.Machine.execRefresh sc s
  | .msgSend rs1 rs2 => Sys2Proof.Machine.execMsgSend rs1 rs2 s
  | .msgSendRel sc rs1 rs2 => Sys2Proof.Machine.execMsgSendRel sc rs1 rs2 s
  | .barBind b rs1 => Sys2Proof.Machine.execBarBind b rs1 s
  | .barArrive rd rs1 b => Sys2Proof.Machine.execBarArrive rd rs1 b s
  | .barWait rd rs1 b => Sys2Proof.Machine.execBarWait rd rs1 b s
  | .messageDelivery k => Sys2Proof.Machine.execMessageDelivery k s
  | .depositArrival sender receiver n v => Sys2Proof.Machine.execDepositArrival sender receiver n v s
  | .vaddFp o f vd va vb => Sys2Proof.Machine.execVaddFp o f vd va vb s
  | .vsubFp o f vd va vb => Sys2Proof.Machine.execVsubFp o f vd va vb s
  | .vmulFp o f vd va vb => Sys2Proof.Machine.execVmulFp o f vd va vb s
  | .vfma o f vd va vb vc => Sys2Proof.Machine.execVfma o f vd va vb vc s
  | .vfms o f vd va vb vc => Sys2Proof.Machine.execVfms o f vd va vb vc s
  | .vdiv o f vd va vb => Sys2Proof.Machine.execVdiv o f vd va vb s
  | .vsqrt o f vd va => Sys2Proof.Machine.execVsqrt o f vd va s
  | .vminFp o f vd va vb => Sys2Proof.Machine.execVminFp o f vd va vb s
  | .vmaxFp o f vd va vb => Sys2Proof.Machine.execVmaxFp o f vd va vb s
  | .vcmpFp o f cond md va vb => Sys2Proof.Machine.execVcmpFp o f cond md va vb s
  | .vlmul o vd va vb => Sys2Proof.Machine.execVlmul o vd va vb s
  | .vldot o g vd va vb => Sys2Proof.Machine.execVldot o g vd va vb s
  | .vgumbel o vd va xs xb => Sys2Proof.Machine.execVgumbel o vd va xs xb s
  | .vaddInt o e vd va vb => Sys2Proof.Machine.execVaddInt o e vd va vb s
  | .vsubInt o e vd va vb => Sys2Proof.Machine.execVsubInt o e vd va vb s
  | .vmulInt o e vd va vb => Sys2Proof.Machine.execVmulInt o e vd va vb s
  | .vminInt o e vd va vb => Sys2Proof.Machine.execVminInt o e vd va vb s
  | .vmaxInt o e vd va vb => Sys2Proof.Machine.execVmaxInt o e vd va vb s
  | .vsll o f vd va vb => Sys2Proof.Machine.execVsll o f vd va vb s
  | .vsrl o f vd va vb => Sys2Proof.Machine.execVsrl o f vd va vb s
  | .vsra o f vd va vb => Sys2Proof.Machine.execVsra o f vd va vb s
  | .vand o f vd va vb => Sys2Proof.Machine.execVand o f vd va vb s
  | .vor o f vd va vb => Sys2Proof.Machine.execVor o f vd va vb s
  | .vxor o f vd va vb => Sys2Proof.Machine.execVxor o f vd va vb s
  | .vcmpInt o e cond md va vb => Sys2Proof.Machine.execVcmpInt o e cond md va vb s
  | .vsel o f vd va vb ms => Sys2Proof.Machine.execVsel o f vd va vb ms s
  | .vmlog o op md ma mb => Sys2Proof.Machine.execVmlog o op md ma mb s
  | .vmpop o xd ma => Sys2Proof.Machine.execVmpop o xd ma s
  | .vcvt o d strm vd va p => Sys2Proof.Machine.execVcvt o d strm vd va p s
  | .vtag o f vd va => Sys2Proof.Machine.execVtag o f vd va s
  | .vpackt o vd va => Sys2Proof.Machine.execVpackt o vd va s
  | .vunpackt o vd va => Sys2Proof.Machine.execVunpackt o vd va s
  | .vosplit o f strm vd va j => Sys2Proof.Machine.execVosplit o f strm vd va j s
  | .vrcp o f vd va => Sys2Proof.Machine.execVrcp o f vd va s
  | .vrsqrt o f vd va => Sys2Proof.Machine.execVrsqrt o f vd va s
  | .vexp2 o f vd va => Sys2Proof.Machine.execVexp2 o f vd va s
  | .vlog2 o f vd va => Sys2Proof.Machine.execVlog2 o f vd va s
  | .vredsum o e vd va => Sys2Proof.Machine.execVredsum o e vd va s
  | .vredmax o e vd va => Sys2Proof.Machine.execVredmax o e vd va s
  | .vredmin o e vd va => Sys2Proof.Machine.execVredmin o e vd va s
  | .vargmax o e vd va xb => Sys2Proof.Machine.execVargmax o e vd va xb s
  | .vperm o f vd va vi => Sys2Proof.Machine.execVperm o f vd va vi s
  | .vslide o f vd va xs => Sys2Proof.Machine.execVslide o f vd va xs s
  | .vbcast o f vd va xs => Sys2Proof.Machine.execVbcast o f vd va xs s
  | .vins o f vd xv xi => Sys2Proof.Machine.execVins o f vd xv xi s
  | .vext o f xd va xi => Sys2Proof.Machine.execVext o f xd va xi s
  | .vld o e vd xa off => Sys2Proof.Machine.execVld o e vd xa off s
  | .vldDiag o e vd xt => Sys2Proof.Machine.execVldDiag o e vd xt s
  | .vst o e vs xa off => Sys2Proof.Machine.execVst o e vs xa off s
  | .vstDiag o e vs xt => Sys2Proof.Machine.execVstDiag o e vs xt s
  | .vlds o e vd xa xs => Sys2Proof.Machine.execVlds o e vd xa xs s
  | .vsts o e vs xa xs => Sys2Proof.Machine.execVsts o e vs xa xs s
  | .vldx o e vd xa vi => Sys2Proof.Machine.execVldx o e vd xa vi s
  | .vstx o e vs xa vi => Sys2Proof.Machine.execVstx o e vs xa vi s
  | .tdecl o xt xb xs => Sys2Proof.Machine.execTdecl o xt xb xs s
  | .mxMma o zero cmpl xd xa xb xc xn => Sys2Proof.Machine.execMxMma o zero cmpl xd xa xb xc xn s
  | .mxMmsp o zero cmpl xd xa xb xc xn => Sys2Proof.Machine.execMxMmsp o zero cmpl xd xa xb xc xn s
  | .mxZero o xc xn => Sys2Proof.Machine.execMxZero o xc xn s
  | .mxLd o raw g vd xc => Sys2Proof.Machine.execMxLd o raw g vd xc s
  | .mxSt o g vs xc => Sys2Proof.Machine.execMxSt o g vs xc s
  | .mxCfg o xa => Sys2Proof.Machine.execMxCfg o xa s
  | .mxTask o xd xa => Sys2Proof.Machine.execMxTask o xd xa s
  | .taskIssue slice k cluster => Sys2Proof.Machine.execTaskIssue slice k cluster s
  | .taskCompletion slice k => Sys2Proof.Machine.execTaskCompletion slice k s
  | .slCfg o xa => Sys2Proof.Machine.execSlCfg o xa s
  | .slCfgClose o => Sys2Proof.Machine.execSlCfgClose o s
  | .slRun o xd => Sys2Proof.Machine.execSlRun o xd s
  | .slPassCount o xd xa => Sys2Proof.Machine.execSlPassCount o xd xa s
  | .slPassDecide o xd xa => Sys2Proof.Machine.execSlPassDecide o xd xa s
  | .slGet o sel xd => Sys2Proof.Machine.execSlGet o sel xd s
  | .slMask o mode xd xa xq => Sys2Proof.Machine.execSlMask o mode xd xa xq s
  | .selectionJob cluster => Sys2Proof.Machine.execSelectionJob cluster s
  | .phase o op sc b xd xv => Sys2Proof.Machine.execPhase o op sc b xd xv s
  | .netRedMaxi o sc ctx vd va => Sys2Proof.Machine.execNetRedMaxi o sc ctx vd va s
  | .netRedSum o sc ctx xd xa => Sys2Proof.Machine.execNetRedSum o sc ctx xd xa s
  | .netRedSumv o sc ctx xd xa => Sys2Proof.Machine.execNetRedSumv o sc ctx xd xa s
  | .netRedAnd o sc ctx xd xa => Sys2Proof.Machine.execNetRedAnd o sc ctx xd xa s
  | .netRedOr o sc ctx xd xa => Sys2Proof.Machine.execNetRedOr o sc ctx xd xa s
  | .copy1d cluster slot n => Sys2Proof.Machine.execCopy1d cluster slot n s
  | .copy2d cluster slot n => Sys2Proof.Machine.execCopy2d cluster slot n s
  | .gather cluster slot n => Sys2Proof.Machine.execGather cluster slot n s
  | .fill cluster slot n => Sys2Proof.Machine.execFill cluster slot n s
  | .decompress cluster slot => Sys2Proof.Machine.execDecompress cluster slot s
  | .decompressBlock cluster slot => Sys2Proof.Machine.execDecompressBlock cluster slot s
  | .winstore cluster slot n => Sys2Proof.Machine.execWinstore cluster slot n s
  | .landingBufferDelivery cluster slot n => Sys2Proof.Machine.execLandingBufferDelivery cluster slot n s
  | .copyCompletion cluster slot => Sys2Proof.Machine.execCopyCompletion cluster slot s
  | .bcNext rd rs1 rs2 => Sys2Proof.Machine.execBcNext rd rs1 rs2 s
  | .icInv rs1 => Sys2Proof.Machine.execIcInv rs1 s
  | .txIssue rd rs1 => Sys2Proof.Machine.execTxIssue rd rs1 s
  | .txWait rd rs1 => Sys2Proof.Machine.execTxWait rd rs1 s
  | .rcInc rd rs1 => Sys2Proof.Machine.execRcInc rd rs1 s
  | .rcDec rd rs1 => Sys2Proof.Machine.execRcDec rd rs1 s
  | .icLd rd rs1 site => Sys2Proof.Machine.execIcLd rd rs1 site s
  | .icSt rs2 rs1 site => Sys2Proof.Machine.execIcSt rs2 rs1 site s
  | .gdShape rs1 rs2 off => Sys2Proof.Machine.execGdShape rs1 rs2 off s
  | .gdTag rs1 rs2 off => Sys2Proof.Machine.execGdTag rs1 rs2 off s
  | .obLd rd rs1 slot => Sys2Proof.Machine.execObLd rd rs1 slot s
  | .obSt rs2 rs1 slot => Sys2Proof.Machine.execObSt rs2 rs1 slot s
  | .exceptionEntryRegister dc => Sys2Proof.Machine.execExceptionEntryRegister dc s
  | .storageReleaseEcall dc => Sys2Proof.Machine.execStorageReleaseEcall dc s
  | .holdRelease dc seq status => Sys2Proof.Machine.execHoldRelease dc seq status s
  | .heldRingDrain dc => Sys2Proof.Machine.execHeldRingDrain dc s
  | .castDispatch slice => Sys2Proof.Machine.execCastDispatch slice s
  | .vacateWatchdogExpiry hart => Sys2Proof.Machine.execVacateWatchdogExpiry hart s
  | .helperVacateTimeout hart => Sys2Proof.Machine.execHelperVacateTimeout hart s
  | .castingControlWrite slice w => Sys2Proof.Machine.execCastingControlWrite slice w s
  | .sweeperVisit cluster unit => Sys2Proof.Machine.execSweeperVisit cluster unit s
  | .playLaunch q harts pool share recs => Sys2Proof.Machine.execPlayLaunch q harts pool share recs s
  | .seedPortStore dc entry v => Sys2Proof.Machine.execSeedPortStore dc entry v s
  | .queueSlotSignalCheck k => Sys2Proof.Machine.execQueueSlotSignalCheck k s
  | .waitCycleTimeout members => Sys2Proof.Machine.execWaitCycleTimeout members s
  | .playCompletion entry => Sys2Proof.Machine.execPlayCompletion entry s
  | .playCompletionDelivery entry => Sys2Proof.Machine.execPlayCompletionDelivery entry s
  | .qsetWrite dc csr v => Sys2Proof.Machine.execQsetWrite dc csr v s
  | .imemMachineCheck dc => Sys2Proof.Machine.execImemMachineCheck dc s
  | .heartbeatTimeout n => Sys2Proof.Machine.execHeartbeatTimeout n s
  | .takeOver n => Sys2Proof.Machine.execTakeOver n s
  | .serviceCallReply svc k status result => Sys2Proof.Machine.execServiceCallReply svc k status result s
  | .attestationService k => Sys2Proof.Machine.execAttestationService k s
  | .firmwareSwitch svc ver => Sys2Proof.Machine.execFirmwareSwitch svc ver s
  | .faultBatch k pte resolved => Sys2Proof.Machine.execFaultBatch k pte resolved s
  | .tenantEnd p => Sys2Proof.Machine.execTenantEnd p s
  | .partitionMapChange p mask ranges root pasid queues dcs dbg svcs => Sys2Proof.Machine.execPartitionMapChange p mask ranges root pasid queues dcs dbg svcs s
  | .shootdownRequest root lo len => Sys2Proof.Machine.execShootdownRequest root lo len s
  | .hostMemoryWrite pa data => Sys2Proof.Machine.execHostMemoryWrite pa data s
  | .hostMemoryRead pa len => Sys2Proof.Machine.execHostMemoryRead pa len s
  | .doorbell v => Sys2Proof.Machine.execDoorbell v s
  | .capWrite v => Sys2Proof.Machine.execCapWrite v s
  | .hostRegisterWrite off v => Sys2Proof.Machine.execHostRegisterWrite off v s
  | .powerUp temp => Sys2Proof.Machine.execPowerUp temp s
  | .powerSample watts tj => Sys2Proof.Machine.execPowerSample watts tj s
  | .hbmScrub pa bad => Sys2Proof.Machine.execHbmScrub pa bad s
  | .sramScrub core gran bad => Sys2Proof.Machine.execSramScrub core gran bad s
  | .fatalError cause unit => Sys2Proof.Machine.execFatalError cause unit s
  | .ixdbRun q desc args harts blk signal => Sys2Proof.Machine.execIxdbRun q desc args harts blk signal s
  | .ixdbBreak pc => Sys2Proof.Machine.execIxdbBreak pc s
  | .ixdbStep n => Sys2Proof.Machine.execIxdbStep n s
  | .ixdbHart hart => Sys2Proof.Machine.execIxdbHart hart s
  | .ixdbFollow cue => Sys2Proof.Machine.execIxdbFollow cue s
  | .ixdbRegs ids => Sys2Proof.Machine.execIxdbRegs ids s
  | .ixdbMem addr n f => Sys2Proof.Machine.execIxdbMem addr n f s
  | .ixdbBank core off n => Sys2Proof.Machine.execIxdbBank core off n s
  | .ixdbCue addr => Sys2Proof.Machine.execIxdbCue addr s
  | .ixdbExplain w => Sys2Proof.Machine.execIxdbExplain w s
  | .ixdbCall dc pc args => Sys2Proof.Machine.execIxdbCall dc pc args s
  | .ixdbEngineHold cluster => Sys2Proof.Machine.execIxdbEngineHold cluster s
  | .ixdbEngineRelease cluster => Sys2Proof.Machine.execIxdbEngineRelease cluster s
  | .ixdbTakeover dc set pc => Sys2Proof.Machine.execIxdbTakeover dc set pc s
  | .ixdbInject dc => Sys2Proof.Machine.execIxdbInject dc s
  | .ixdbJournal set => Sys2Proof.Machine.execIxdbJournal set s
  | .ixdbPtab entry => Sys2Proof.Machine.execIxdbPtab entry s
  | .ixdbQueue q => Sys2Proof.Machine.execIxdbQueue q s
  | .ixdbWatch addr => Sys2Proof.Machine.execIxdbWatch addr s
  | .debuggerWrite hart what v f => Sys2Proof.Machine.execDebuggerWrite hart what v f s
  | .localInterrupt17Service set => Sys2Proof.Machine.execLocalInterrupt17Service set s
  | .forensicEntryRelease cluster table index => Sys2Proof.Machine.execForensicEntryRelease cluster table index s
  | .hostLinkRetrain width rate => Sys2Proof.Machine.execHostLinkRetrain width rate s
  | .hartReset hart => Sys2Proof.Machine.execHartReset hart s
  | .stagehouseUnpark hart v => Sys2Proof.Machine.execStagehouseUnpark hart v s
  | .rv64gcInstruction op => Sys2Proof.Machine.execRv64gcInstruction op s
  | .interpreterContextSwitch dc pc regs => Sys2Proof.Machine.execInterpreterContextSwitch dc pc regs s
  | .ecall => Sys2Proof.Machine.execEcall s
  | .ebreak => Sys2Proof.Machine.execEbreak s
  | .chorusLeave => Sys2Proof.Machine.execChorusLeave s
  | .cueExit => Sys2Proof.Machine.execCueExit s
  | .tret => Sys2Proof.Machine.execTret s
  | .reset => Sys2Proof.Machine.execReset s
  | .configRequest => Sys2Proof.Machine.execConfigRequest s
  | .dumpAck => Sys2Proof.Machine.execDumpAck s
  | .readWearCounters => Sys2Proof.Machine.execReadWearCounters s
  | .attestationReport => Sys2Proof.Machine.execAttestationReport s
  | .readFatalRecord => Sys2Proof.Machine.execReadFatalRecord s
  | .stopQueue => Sys2Proof.Machine.execStopQueue s
  | .resumeQueue => Sys2Proof.Machine.execResumeQueue s
  | .mailboxUnknownCommand => Sys2Proof.Machine.execMailboxUnknownCommand s
  | .clockStepUp => Sys2Proof.Machine.execClockStepUp s
  | .recalibration => Sys2Proof.Machine.execRecalibration s
  | .wearCheckpoint => Sys2Proof.Machine.execWearCheckpoint s
  | .telemetrySample => Sys2Proof.Machine.execTelemetrySample s
  | .ixdbCont => Sys2Proof.Machine.execIxdbCont s
  | .ixdbStepi => Sys2Proof.Machine.execIxdbStepi s
  | .ixdbList => Sys2Proof.Machine.execIxdbList s
  | .ixdbQuit => Sys2Proof.Machine.execIxdbQuit s
  | .ixdbKicks => Sys2Proof.Machine.execIxdbKicks s
  | .powerLoss => Sys2Proof.Machine.execPowerLoss s
  | .orderlyShutdown => Sys2Proof.Machine.execOrderlyShutdown s
  | .refreshManagement => Sys2Proof.Machine.execRefreshManagement s

end Sys2Proof.Machine
end

