-- ==== Sys2Proof/Machine/Fetch.lean ====
section
/-!
DEFINITION. Fetching an instruction's bytes parcel by parcel (R41, R42, R124), and decoding them.
-/

namespace Sys2Proof.Machine

/-- A parcel of a compute hart: from sealed global memory only (R124); none is a fetch fault. Sealed bytes are as they
lie at their home (R201). -/
def State.hartParcel (s : State) (n a : Nat) : Option Nat × State :=
  if rowOf a ≠ 3 then (none, s)
  else
    let (pa, s) := s.translate (hartCluster n) a .fetch
    match pa with
    | some pa => (if s.sealedAt pa && s.sealedAt (pa + 1) then some (leNat (getBytes s.mem pa 2)) else none, s)
    | none => (none, s)

/-- A parcel of a director core, and the exception where it faults. -/
def State.dirParcel (s : State) (d a : Nat) : (Nat ⊕ Nat) × State :=
  let (pa, s) := s.dirTranslate d a .fetch
  match pa with
  | some pa =>
    let (g, s) := s.loadGran (.dir d) (locMem (pa / 32))
    (if g.poison then .inr 1 else .inl (leNat (getBytes g.data (pa % 32) 2)), s)
  | none => (.inr 12, s)

/-- What a fetch gives: length in bytes and word, or the address and cause of the parcel that faulted. -/
inductive Fetched where
  | word (n w : Nat)
  | fault (addr cause : Nat)
deriving DecidableEq, Repr

def State.parcel (s : State) (a : Agent) (addr : Nat) : (Nat ⊕ Nat) × State :=
  match a with
  | .hart n =>
    let (p, s) := s.hartParcel n addr
    ((match p with | some w => .inl w | none => .inr cFetch), s)
  | .dir d => s.dirParcel d addr

/-- `k` further parcels at `addr`, the word so far being `w` with `bit` bits. -/
def parcels (a : Agent) : Nat → State → Nat → Nat → Nat → Fetched × State
  | 0, s, _, bit, w => (.word (bit / 8) w, s)
  | k + 1, s, addr, bit, w =>
    let (p, s) := s.parcel a addr
    match p with
    | .inl x => parcels a k s (addrAdd addr 2) (bit + 16) (w + 2 ^ bit * x)
    | .inr c => (.fault addr c, s)

/-- The parcels after the first. A director core has no long format: of such an encoding it fetches the first parcel alone,
and its illegal-instruction exception carries those 16 bits (log 108). -/
def moreParcels (dir : Bool) (first : Nat) : Nat :=
  match parcelLen first with
  | 4 => 1
  | 8 => if dir then 0 else 3
  | _ => 0

/-- Fetch at an address. -/
def State.fetch (s : State) (a : Agent) (pc : Nat) : Fetched × State :=
  let (p, s) := s.parcel a pc
  match p with
  | .inl x => parcels a (moreParcels (match a with | .dir _ => true | .hart _ => false) x) s (addrAdd pc 2) 16 x
  | .inr c => (.fault pc c, s)

/-- The instruction of fetched bits; what is none runs as the illegal instruction with those bits (R43, R45). -/
def decoded (a : Agent) (n w : Nat) : Instr :=
  match decode (match a with | .dir _ => true | .hart _ => false) n w with
  | .ok i => i
  | .error _ => .illegalInstruction (BitVec.ofNat 64 w)

end Sys2Proof.Machine
end

