-- ==== Sys2Proof/Machine/House.lean ====
section
/-!
DEFINITION. What the house code of a hart does: the house loop (R240-R242, R244) and the disposal of traps (R452, R438,
R145). The house code is firmware, so its own registers are not followed (log 26).
-/

namespace Sys2Proof.Machine

/-! ### The house loop -/

/-- The house code runs on the hart. -/
def Hart.atHome (h : Hart) : Bool := h.house && h.run == .active && h.helper.isNone

/-- The house buffer of a hart (R240). -/
def houseBuffer (n : Nat) : Nat := ownBase + 0x1FF00 + 64 * (n % 4)

/-- A record whose play is over is dropped; one of a play in error leaves its live count (R453). -/
def State.dropRecord (s : State) (v : Vec) : State :=
  match s.play? (recPlay v) with
  | some p => if p.error.isSome && !p.ended then s.addLive (recPlay v) (-1) else s
  | none => s

/-- One turn of the house loop: msg.recv into the house buffer, then cue.resume; with nothing to take the hart waits. After
a fatal error every play is halted, and no cue starts (R449). -/
def State.houseLoop (s : State) (n : Nat) : State :=
  let h := s.hart n
  if n ≥ Config.harts || !h.atHome || h.trapped || s.host.fatal then s
  else
    match s.take n fun e => e.kind == 5 with
    | none => s.setHart n { h with waiting := true }
    | some (e, s) =>
      let s := hwWrite n (houseBuffer n) (vecBytes e.payload) s
      match s.startOf n e.payload with
      | (.ok, s) => s.resumeCue n e.payload (h.pc, 0)
      | (.refused, s) => s.dropRecord e.payload
      | (.fault, s) => s.doubleTrap n

/-! ### The saved cue -/

/-- The record of the cue the hart was entered from. -/
def State.savedRecord (s : State) (n : Nat) : Vec :=
  match (hwRead n (s.hart n).cueptr.toNat 64 s).1 with
  | .ok b => vecOf (PBytes.bytes b)
  | .error _ => 0

/-- Rewrite the record's state and wait (R237). -/
def State.setRecord (s : State) (n state reason object : Nat) : State :=
  let v := s.savedRecord n
  let v := setField (setField (setField v 160 4 state) 220 4 reason) 192 26 object
  let v := setField v 218 2 (if state = 2 then n % 4 else 0)
  hwWrite n (s.hart n).cueptr.toNat (vecBytes v) s

/-- Give a register of the saved cue a value: its slot and its tag byte (R289). Only a0 to a3 are so written. -/
def State.setSaved (s : State) (n i : Nat) (w : Word) : State :=
  let p := (s.hart n).cueptr.toNat
  let s := hwWrite n (addrAdd p (32 + 8 * (i - 10))) (wordBytes w) s
  hwWrite n (addrAdd p (2432 + i)) [128] s

/-- Go back into the cue at the instruction `len` bytes on. -/
def State.tretPast (s : State) (n len : Nat) : State :=
  (s.setHart n { s.hart n with tepc := (s.hart n).tepc + BitVec.ofNat 64 len, svcWait := none }).tret n

/-- The play ends in error and so does this cue. -/
def State.failCue (s : State) (n cause : Nat) : State := (s.playError (s.hart n).curPlay cause).endCue n

/-! ### Vacate requests (R261) -/

/-- The cue leaves; a wait it was stalled on stays in its record, for the instruction that re-executes (R247). -/
def State.vacateSave (s : State) (n : Nat) : State :=
  let w := (recWait (s.savedRecord n)).getD (6, 0)
  let s := s.setRecord n 0 w.1 w.2
  ((s.release (.hart n) 4).toReturnList n).leaveCue n

/-! ### Page faults (R438) -/

/-- What the trapping instruction did at the page: bit 0 read, bit 1 write. -/
def writesMemory (i : Instr) : Bool :=
  match i with
  | .scalarStore .. | .vst .. | .vstDiag .. | .vsts .. | .vstx .. | .msgRecv .. | .msgPoll .. | .amoAdd .. | .amoSwap ..
  | .amoCas .. | .amoMin .. | .amoMax .. | .amoMinu .. | .amoMaxu .. | .amoAnd .. | .amoOr .. | .amoXor .. | .amoAddb ..
  | .barInit .. | .barArrive .. | .phase .. | .netRedSumv .. => true
  | .zcaInstruction c =>
    match c with
    | .sw .. | .sd .. | .swsp .. | .sdsp .. => true
    | _ => false
  | _ => false

/-- The kinds of the access that faulted: of the instruction at tepc, or of a write stream's element on the page. -/
def State.faultKinds (s : State) (n : Nat) : BitVec 3 :=
  let h := s.hart n
  let page := h.tval.toNat / 4096
  let stream := h.streams.any fun t => t.2.write && (t.2.addrOf t.2.index) / 4096 == page
  let write := match (s.fetch (.hart n) h.tepc.toNat).1 with
    | .word k w => writesMemory (decoded (.hart n) k w)
    | .fault .. => false
  if write || stream then 2 else 1

/-- The cue waits for its page. -/
def State.pageWait (s : State) (n : Nat) : State :=
  let h := s.hart n
  if !s.playLive h.curPlay then s.endCue n
  else
    let part := ((s.partOfCluster (hartCluster n)).map (·.1)).getD 0
    let e : FaultEnt := {
      page := h.tval &&& ~~~4095#64, part := part, kinds := s.faultKinds n, cues := [(n, h.curPlay, h.cueptr)], at_ := s.time.toNat }
    let ((k, last), s) := s.postFault e
    -- one in the overflow list has no entry yet: its number follows when it has one (log 105)
    let s := s.setRecord n 2 5 (k.getD 0)
    let s := hwWrite n (addrAdd h.cueptr.toNat 2896) (leBytes 8 0) s
    let s := match last with
      | some c => hwWrite n (addrAdd c.2.2.toNat 2896) (wordBytes h.cueptr) s
      | none => s
    (s.release (.hart n) 4).leaveCue n

/-! ### Environment calls (R452) -/

/-- The reply to call `k`. -/
def isReply (k : BitVec 32) (e : Entry) : Bool := e.kind == 2 && isDirId e.sender && bits e.payload.toNat 0 32 == k.toNat

/-- The answer goes to the cue's a0 and a1, and the cue goes on past the ecall. -/
def State.answer (s : State) (n : Nat) (a0 a1 : Word) : State := ((s.setSaved n 10 a0).setSaved n 11 a1).tretPast n 4

/-- Make the call, or look for its reply. -/
def State.ecallService (s : State) (n : Nat) : State :=
  match (s.hart n).svcWait with
  | some k =>
    match s.take n (isReply k) with
    | none => s
    | some (e, s) =>
      let s := s.refresh (.hart n) e.scope
      let v := e.payload.toNat
      s.answer n (BitVec.ofNat 64 (bits v 32 32)) (BitVec.ofNat 64 (bits v 64 64))
  | none =>
    match svcCallAs true (.hart n) (bits (s.savedRecord n).toNat 256 64) s with
    | (.ok k, t) => t.setHart n { t.hart n with svcWait := some k }
    | (.error .stall, _) => s
    | (.error .hold, t) => t
    | (.error _, _) => s.answer n 1 0

/-! ### Disposal of a trap (R452, R145) -/

/-- The length of the ebreak at an address. -/
def State.breakLen (s : State) (n : Nat) (pc : Word) : Nat :=
  match (s.fetch (.hart n) pc.toNat).1 with
  | .word k _ => k
  | .fault .. => 4

/-- The trap of a cue. -/
def State.disposeTrap (s : State) (n : Nat) : State :=
  let h := s.hart n
  let c := h.tcause.toNat
  if c = cVacate then s.vacateSave n
  else if c = cPage ∧ rowOf h.tval.toNat = 3 then s.pageWait n
  else if c = cEcall then s.ecallService n
  else if c = cBreak then s.tretPast n (s.breakLen n h.tepc)
  else s.failCue n c

/-- A trap with no cue: a call or a break returns past itself, any other leaves. -/
def State.disposeBare (s : State) (n : Nat) : State :=
  let h := s.hart n
  if h.tcause.toNat = cEcall then s.tretPast n 4
  else if h.tcause.toNat = cBreak then s.tretPast n (s.breakLen n h.tepc)
  else s.leaveCue n

/-- A helper that trapped or parked: once nothing of its is in flight, the leader is told and the helper ends. -/
def State.disposeHelper (s : State) (n cause : Nat) (tepc tval : Word) : State :=
  match (s.closeSession n).completeAll n with
  | none => s
  | some t => if t.busy n then s else (t.helperFault n cause tepc tval).endHelper n

/-- The house code disposes of the trap it was entered with; after a fatal error no cue goes on (R449). -/
def State.houseTrap (s : State) (n : Nat) : State :=
  let h := s.hart n
  if n ≥ Config.harts || s.host.fatal then s
  else if h.helper.isSome then
    match h.run with
    | .parked pc raised => s.disposeHelper n 0 pc (raised.zeroExtend 64)
    | .active => if h.trapped && h.house then s.disposeHelper n h.tcause.toNat h.tepc h.tval else s
    | _ => s
  else if h.trapped && h.house && h.run == .active then
    (if h.cueptr = 0 then s.disposeBare n else s.disposeTrap n)
  else s

end Sys2Proof.Machine
end

