-- ==== Sys2Proof/Machine/Setup.lean ====
section
/-!
DEFINITION. The acts of `Setup`: what Stagehouse configures, what the host does at enumeration and reads, soft errors, and
the lines that caches hold. No row of the opcode table stands for them (log 103).
-/

namespace Sys2Proof.Machine

/-! ### What Stagehouse configures -/

/-- The size of a ring: a power of two between two bounds. -/
def ringSizeOk (size lo hi : Nat) : Bool := (List.range 17).any fun k => size == 2 ^ k && decide (lo ≤ size ∧ size ≤ hi)

/-- A combine context is configured, or freed (R234). -/
def State.setCombine (s : State) (ctx : Nat) (c : Option Combine) : State :=
  if ctx < 256 then { s with combine := KMap.set none s.combine ctx c } else s

/-- The overflow ring of a receiver (R228); what the ring holds must fit. -/
def State.setRing (s : State) (id size : Nat) (base : Word) : State :=
  if !(isHartId id || isDirId id) || !ringSizeOk size 16 65536 || decide (size < (s.box id).ring.length) then s
  else if isDirId id then s.setDir (id - 0x10000) { s.dir (id - 0x10000) with ringSize := size, ringBase := base }
  else s.setHart id { s.hart id with ringSize := size, ringBase := base }

/-- Where a receiver's ring lies. -/
def State.ringBaseOf (s : State) (id : Nat) : Word := if isDirId id then (s.dir (id - 0x10000)).ringBase else (s.hart id).ringBase

/-- The 128 bytes of a ring entry (R228). -/
def Entry.ringBytes (e : Entry) : List Byte := vecBytes e.payload ++ wordBytes e.side ++ List.replicate 56 0

/-- A receiver's ring entries reach memory, the head at the ring's base (log 112). -/
def State.storeRing (s : State) (id : Nat) : State :=
  (s.box id).ring.zipIdx.foldl (fun t e => t.stgWrite 5 ((s.ringBaseOf id).toNat + 128 * e.2) e.1.ringBytes) s

/-- The call ring of a service (R426). -/
def State.setCallRing (s : State) (svc size : Nat) : State :=
  if decide (svc < 1024) && ringSizeOk size 16 4096 && decide ((s.svc svc).calls.length ≤ size) then
    s.setSvc svc { s.svc svc with size := size }
  else s

/-- The queue table lies in HBM (R409). -/
def State.setQueueTable (s : State) (base : Word) : State :=
  if base.toNat % 32 = 0 ∧ s.inHbm base.toNat = true then { s with qtable := base } else s

/-- A queue's descriptor is written: an empty ring, running (R409). -/
def State.initQueue (s : State) (q : Nat) (base : Word) (size : Nat) : State :=
  if q < 256 ∧ base.toNat % 16 = 0 ∧ 4 ≤ size ∧ size ≤ 16 then
    s.stgWrite 5 (s.queueAddr q) (wordBytes base ++ leBytes 1 size ++ List.replicate 23 0)
  else s

/-- The queue of the attached partition that Stagehouse reserves for ixdb (R371). -/
def State.reserveQueue (s : State) (q : Nat) : State :=
  if s.dbg.attached && (s.partOfQueue q).map (·.1) == some s.dbg.part then { s with dbg := { s.dbg with queue := some q } } else s

/-- Token counters of a slice are assigned to a play, and cleared (R339). -/
def State.assignTokens (s : State) (slice play lo hi : Nat) : State :=
  let clash (r : Nat × Nat × Nat × Nat) : Bool := r.1 == slice && r.2.1 != play && decide (r.2.2.1 ≤ hi ∧ lo ≤ r.2.2.2)
  if Config.slices ≤ slice ∨ hi < lo ∨ 255 < hi ∨ s.ranges.any clash = true then s
  else ({ s with ranges := s.ranges ++ [(slice, play, lo, hi)] }).clearTokens play

/-- A core's in-flight table is reset, once no entry of it is live (R400). -/
def State.resetFlight (s : State) (d : Nat) : State :=
  if d < Config.directors ∧ (s.dir d).flight.all (fun e => e.failed.isSome) = true then s.setDir d { s.dir d with flight := [] } else s

/-- The loader reports a .text region of an image of a partition (R124). -/
def State.addText (s : State) (part base len : Nat) : State :=
  { s with parts := s.parts.map fun p => if p.1 = part then (p.1, { p.2 with text := p.2.text ++ [(base, len)] }) else p }

/-! ### Uncorrectable errors (R282, R447) -/

def State.softX (s : State) (n r : Nat) : State :=
  let h := s.hart n
  if n < Config.harts ∧ 0 < r ∧ r < 32 then s.setHart n { h with x := KMap.set {} h.x r { KMap.get {} h.x r with poison := true } } else s
def State.softV (s : State) (n r : Nat) : State :=
  let h := s.hart n
  if n < Config.harts ∧ r < 32 then s.setHart n { h with v := KMap.set {} h.v r { KMap.get {} h.v r with poison := true } } else s
def State.softM (s : State) (n r : Nat) : State :=
  let h := s.hart n
  if n < Config.harts ∧ 0 < r ∧ r < 8 then s.setHart n { h with m := KMap.set {} h.m r { KMap.get {} h.m r with poison := true } } else s
def State.softAcc (s : State) (k g : Nat) : State :=
  let c := s.cluster k
  if k < Config.clusters ∧ g < 4096 then s.setCluster k { c with acc := KMap.set {} c.acc g { KMap.get {} c.acc g with poison := true } } else s
/-- A line of a read cache: what the core's harts read of it is poisoned until the copy goes. -/
def State.softCache (s : State) (core line : Nat) : State :=
  let c := s.core core
  s.setCore core { c with cache := c.cache.map fun l => if l.1 = line then (l.1, true) else l }
/-- A line of an L2 slice, which is the line's home copy. -/
def State.softL2 (s : State) (line : Nat) : State :=
  if (s.slice (s.homeSlice (64 * line))).l2.contains line then { s with memPoison := KMap.set false s.memPoison line true } else s

/-! ### Lines of the caches (R16, R19) -/

/-- Lines of a read cache of 16 KiB, and of an L2 slice of 8 MiB. -/
def cacheLines : Nat := 256
def l2Lines : Nat := 131072

/-- A line enters a read cache; the oldest one leaves a full one. -/
def State.cacheFill (s : State) (core line : Nat) : State :=
  let c := s.core core
  if Config.cores ≤ core ∨ c.cache.any (fun l => l.1 == line) = true then s
  else s.setCore core { c with cache := ((line, false) :: c.cache).take cacheLines }
def State.cacheDrop (s : State) (core line : Nat) : State :=
  let c := s.core core
  s.setCore core { c with cache := c.cache.filter fun l => l.1 != line }
/-- A line of HBM enters the L2 slice that is its home. -/
def State.l2Fill (s : State) (line : Nat) : State :=
  let k := s.homeSlice (64 * line)
  let x := s.slice k
  if s.inHbm (64 * line) && !x.l2.contains line then s.setSlice k { x with l2 := (line :: x.l2).take l2Lines } else s
def State.l2Drop (s : State) (line : Nat) : State :=
  let k := s.homeSlice (64 * line)
  s.setSlice k { s.slice k with l2 := (s.slice k).l2.filter fun l => l != line }

/-! ### Base dies and Glenal ports (R6, R9) -/

/-- A row of a stack is replaced by a spare one. -/
def State.rowRepair (s : State) (stack row spare : Nat) : State :=
  if stack < 8 then s.setBase stack { s.base stack with repaired := ((s.base stack).repaired.filter fun r => r.1 != row) ++ [(row, spare)] }
  else s

/-- A Glenal port under its controller. -/
def State.port (s : State) (p : Nat) : Glenal := KMap.get {} s.glenal p
def State.setPort (s : State) (p : Nat) (g : Glenal) : State := { s with glenal := KMap.set {} s.glenal p g }
/-- Traffic to a package leaves by a port. -/
def State.glenalRoute (s : State) (p package next : Nat) : State :=
  if p < 16 ∧ next < 16 then s.setPort p { s.port p with routes := ((s.port p).routes.filter fun r => r.1 != package) ++ [(package, next)] }
  else s
def State.glenalCredit (s : State) (p n : Nat) : State :=
  if p < 16 then s.setPort p { s.port p with credits := (s.port p).credits + n } else s

/-! ### An act -/

def State.setup (s : State) (c : Setup) : State :=
  match c with
  | .hbase base => s.assignBase base
  | .outside o => { s with outside := o }
  | .combine ctx c => s.setCombine ctx c
  | .ring id size base => s.setRing id size base
  | .callRing svc size => s.setCallRing svc size
  | .queueTable base => s.setQueueTable base
  | .queueInit q base size => s.initQueue q base size
  | .ixdbQueue q => s.reserveQueue q
  | .tokens slice play lo hi => s.assignTokens slice play lo hi
  | .flight dc => s.resetFlight dc
  | .loadDirector => s.icInv 0
  | .symbols y => { s with symbols := some y }
  | .heartbeat n => s.heartbeat n
  | .softX n r => s.softX n r
  | .softV n r => s.softV n r
  | .softM n r => s.softM n r
  | .softAcc k g => s.softAcc k g
  | .softCache core line => s.softCache core line
  | .softL2 line => s.softL2 line
  | .cacheFill core line => s.cacheFill core line
  | .cacheDrop core line => s.cacheDrop core line
  | .l2Fill line => s.l2Fill line
  | .l2Drop line => s.l2Drop line
  | .rowRepair stack row spare => s.rowRepair stack row spare
  | .glenalRoute p package next => s.glenalRoute p package next
  | .glenalCredit p n => s.glenalCredit p n
  | .regRead off len => s.readReg off len
  | .threadStack d top => s.provideStack d top
  | .text part base len => s.addText part base len
  | .faultWindow n => if 200 ≤ n ∧ n ≤ 20000 then { s with faultWindow := n } else s
  | .waitTimeout n => if 100000 ≤ n ∧ n ≤ 1000000000 then { s with waitTimeout := n } else s
  | .waitCycle members => s.noteCycle members
  | .ringStore id => s.storeRing id
  | .launchStep q harts pool share recs => s.playLaunch q ⟨harts, pool.toNat, share, recs⟩ 1
  | .stgCall d harts pool share recs => s.stgCall d ⟨harts, pool.toNat, share, recs⟩

end Sys2Proof.Machine
end

