-- ==== Sys2Proof/Machine/Turns.lean ====
section
/-!
DEFINITION. One turn of the machine: an agent executes one instruction, an event happens, time passes, or the house
code acts (log 1).
-/

namespace Sys2Proof.Machine

/-- A row of the opcode table that no agent executes as an instruction. -/
def isEvent (i : Instr) : Bool :=
  match i with
  | .illegalInstruction _ => false
  | i => encode i == .none

/-- Clock cycles pass; the 100 MHz time base follows at the present clock (R127, R448, log 2). -/
def State.elapse (s : State) (n : Nat) : State :=
  let f := s.tfrac + 100 * n
  { s with
    cycle := s.cycle + BitVec.ofNat 64 n
    time := s.time + BitVec.ofNat 64 (f / s.mhz)
    tfrac := f % s.mhz }

/-- The debugger's number of an agent. -/
def Agent.unit : Agent → Nat
  | .hart n => n
  | .dir d => 49152 + d

/-- A breakpoint stops the agent before the instruction at `pc` (R39); one it was resumed at is passed. -/
def State.breaksAt (s : State) (a : Agent) (pc : Word) : Bool :=
  s.dbg.breaks.contains pc && !s.dbg.skip.contains (a.unit, pc) &&
    (match a with
    | .hart n => s.inDebug n
    | .dir d => s.dirInDebug d)

def State.stop (s : State) (a : Agent) (pc : Word) (reason : Nat) : State :=
  match a with
  | .hart n => s.stopHart n pc reason
  | .dir d => s.stopDir d pc reason

/-- Stop reasons of the debugger that are no trap cause: a breakpoint, a step done (R40). -/
def whyBreak : Nat := 512
def whyStep : Nat := 513
/-- The core met a machine check (R424). -/
def whyMachineCheck : Nat := 515

/-- Instructions an agent may still execute before the debugger stops it. -/
def State.leash (s : State) (a : Agent) : Option Nat :=
  match a with
  | .hart n => (s.hart n).stopAfter
  | .dir d => (s.dir d).stopAfter

def State.setLeash (s : State) (a : Agent) (k : Option Nat) : State :=
  match a with
  | .hart n => s.setHart n { s.hart n with stopAfter := k }
  | .dir d => s.setDir d { s.dir d with stopAfter := k }

def State.pcOf (s : State) (a : Agent) : Word :=
  match a with
  | .hart n => (s.hart n).pc
  | .dir d => (s.dir d).pc

def State.countOf (s : State) (a : Agent) : Word :=
  match a with
  | .hart n => (s.hart n).instret
  | .dir d => (s.dir d).instret

def State.runOf (s : State) (a : Agent) : Run :=
  match a with
  | .hart n => (s.hart n).run
  | .dir d => (s.dir d).run

/-- After an instruction: count a debugger step, and stop when it is done. -/
def State.stepped (s old : State) (a : Agent) : State :=
  if s.countOf a = old.countOf a then s
  else
    let s := { s with dbg := { s.dbg with skip := s.dbg.skip.filter fun u => u.1 != a.unit } }
    match s.leash a with
    | none => s
    | some k => if k ≤ 1 then (if s.runOf a = .active then s.stop a (s.pcOf a) whyStep else s) else s.setLeash a (some (k - 1))

/-- The decoded instruction a follower runs next (R140). -/
def Hart.next? (h : Hart) : Option (Option Followed) :=
  match h.role, h.fqueue with
  | .follower .., f :: _ => some (some f)
  | .draining .., f :: _ => some (some f)
  | .follower .., [] => some none
  | _, _ => none

/-- ixdb has injected an error into the core's next fetch (R430). -/
def State.injectedAt (s : State) (a : Agent) : Bool :=
  match a with
  | .dir d => (s.dir d).injected
  | .hart _ => false

/-- The machine check of that fetch, which ixdb prints. -/
def State.injectedCheck (s : State) (a : Agent) : State :=
  match a with
  | .dir d => (s.machineCheck d).print (.stop a.unit (s.dir d).pc whyMachineCheck)
  | .hart _ => s

/-- An instruction of an agent that fetches for itself: fetch, decode, execute; or the fetch fault. -/
def fetchAndRun (a : Agent) (s : State) : Host.Outcome State Fault Refusal :=
  let pc := s.pcOf a
  if s.breaksAt a pc then .next (s.stop a pc whyBreak)
  else if s.injectedAt a then .next (s.injectedCheck a)
  else
    let (f, t) := s.fetch a pc.toNat
    match f with
    | .word n w => exec (decoded a n w) t
    | .fault addr c =>
      match a with
      | .hart n => .next (t.takeTrap n c addr pc)
      | .dir d => .next (t.takeExc d c addr pc)

/-- One instruction of an agent. One that is parked, halted or stopped does nothing; a cue of a play in error ends
(R453), a vacate trap that waited for a pin is taken (R261), and a core at one of Stagehouse's entries waits for it (R428). -/
def stepAgent (a : Agent) (s : State) : Host.Outcome State Fault Refusal :=
  if !a.ok then .fault .noSuchUnit
  else if (match a with | .hart n => s.mustEnd n | .dir _ => false) then
    .next (match a with | .hart n => s.endCue n | .dir _ => s)
  else if s.runOf a ≠ .active then .next s
  else if (match a with | .hart n => (s.hart n).vacateDue && (s.hart n).vacates | .dir _ => false) then
    .next (match a with | .hart n => s.takeTrap n cVacate 0 (s.hart n).pc | .dir _ => s)
  else
    let r : Host.Outcome State Fault Refusal :=
      match a with
      | .hart n =>
        match (s.hart n).next? with
        | some (some f) =>
          if s.breaksAt a f.pc then .next (s.stop a f.pc whyBreak)
          else exec f.instr (s.setHart n { s.hart n with pc := f.pc })
        | some none => .next s
        | none => fetchAndRun a s
      | .dir d =>
        if (s.dir d).returned then .next (s.endRoutine d)
        else if s.atEntry d then .next s
        else
          match s.irq d with
          | some k => .next (s.enterS d true k 0 (s.dir d).pc)
          | none => fetchAndRun a s
    match r with
    | .next t => .next (t.stepped s a)
    | r => r

/-- One turn. -/
def runTurn (t : Turn) (s : State) : Host.Outcome State Fault Refusal :=
  match t with
  | .run a part => stepAgent a { s with cur := a, part := part }
  | .event i => if isEvent i then exec i s else .next s
  | .elapse n => .next (s.elapse n).heartbeats
  | .houseLoop n => .next (s.houseLoop n)
  | .houseTrap n => .next (s.houseTrap n)
  | .dirTrap d => .next (s.dirTrap d)
  | .taskWork slice k elem n => .next (s.taskWork slice k elem n)
  | .txSend d => .next (if d < Config.directors then s.txSend d else s)
  | .setup c => .next (s.setup c)

/-- The turn that comes next: the head of the agenda, else one instruction of the current agent. -/
def State.nextTurn (s : State) : Turn × State :=
  match s.agenda with
  | [] => (.run s.cur none, s)
  | t :: rest => (t, { s with agenda := rest })

/-- After a turn: wakes of suspended cues whose event has happened (R247), the words ixdb watches (R430), the failures the
module sees (R449), and the wait cycles that hold no longer (R419). -/
def afterTurn (s : State) (r : Host.Outcome State Fault Refusal) : Host.Outcome State Fault Refusal :=
  match r with
  | .next t => .next { (t.settle s.seq).checkWatches.checkFatal.keepCycles with part := none }
  | r => r

/-- The bytes of an instruction word, with zeros up to the longest instruction. -/
def placeBytes (nbits w : Nat) : List Byte := leBytes 8 (w % 2 ^ nbits)

/-- A translation of the two 64 GiB pieces at and after an address, each to itself. -/
def identityTlb (root : Word) (va : Nat) : List TlbEntry :=
  let b := va57 va / 2 ^ 36 * 2 ^ 36
  [⟨root, b, 36, b, true, true, true, true, true⟩, ⟨root, b + 2 ^ 36, 36, b + 2 ^ 36, true, true, true, true, true⟩]

/-- An instruction where hart 0 fetches next: its own partition maps and seals the code. -/
def State.placeHart (s : State) (bytes : List Byte) : State :=
  let pc := (s.hart 0).pc.toNat
  let pa := va57 pc
  let (id, p) := (s.partOfCluster 0).getD (0, {})
  let p := { p with clusters := if p.clusters.contains 0 then p.clusters else 0 :: p.clusters, ranges := [(0, 2 ^ 58)] }
  let s := s.setHart 0 { s.hart 0 with run := .active, role := .solo, fqueue := [] }
  let s := s.setCluster 0 { s.cluster 0 with utlb := identityTlb p.root pc }
  { s with
    agenda := []
    cur := .hart 0
    parts := [(id, p)]
    sealTable := [(pa / 4096 * 4096, 8192, true)]
    mem := Memory.setBytes s.mem pa bytes
    dbg := { s.dbg with breaks := [] } }

/-- An instruction where director core 0 fetches next. -/
def State.placeDir (s : State) (bytes : List Byte) : State :=
  let pc := (s.dir 0).pc.toNat
  let c := s.dir 0
  let c := match c.root with
    | none => c
    | some root => { c with tlb := (identityTlb root pc).map fun (e : TlbEntry) => { e with user := c.user } }
  let s := s.setDir 0 { c with run := .active, sie := 0 }
  { s with
    agenda := []
    cur := .dir 0
    parts := []
    mem := Memory.setBytes s.mem (if c.root.isNone then pc else va57 pc) bytes
    dirBuf := []
    dbg := { s.dbg with breaks := [] } }

/-- The word is an instruction of director cores alone. -/
def onlyDirector (nbits w : Nat) : Bool :=
  let v := w % 2 ^ nbits
  let n := parcelLen (v % 65536)
  match decode false n v, decode true n v with
  | .error _, .ok _ => true
  | _, _ => false

end Sys2Proof.Machine
end

