-- ==== Sys2Proof/Machine/Step.lean ====
section
/-!
DEFINITION. The step of the machine, and an instruction placed where the next step fetches.
-/

namespace Sys2Proof.Machine

/-- One step: the next turn, and the wakes it causes. -/
def step (s : State) : Host.Outcome State Fault Refusal :=
  afterTurn s (runTurn s.nextTurn.1 s.nextTurn.2)

/-- The state with an instruction stored where the next step fetches: for hart 0, or for director core 0 where only a
director core has it (log 13). -/
def State.withFetchWord (s : State) (nbits w : Nat) : State :=
  if onlyDirector nbits w then s.placeDir (placeBytes nbits w) else s.placeHart (placeBytes nbits w)

end Sys2Proof.Machine
end

