-- ==== Sys2Proof/Safety.lean ====
section
/-!
DEFINITION. What a safe run is, and the terms the claims are stated in: when an agent is free to execute, and what its
registers read as.
-/

namespace Sys2Proof.Safety

open Sys2Proof.Machine

/-- The step from a state answers a next state: no fault, no refusal. The traps of the manual are next states. -/
def Goes (s : State) : Prop := ∃ t, step s = .next t

/-- Every state reached within `n` steps goes on. -/
def RunsFor : Nat → State → Prop
  | 0, _ => True
  | n + 1, s => ∃ t, step s = .next t ∧ RunsFor n t

/-- Hart `n` is the agent whose turn it is, it runs, leads and follows no one, no lookahead result is pending and no
stream is bound: what R59 to R64, R139 to R142 and R192 to R195 add to an instruction does not arise. -/
def Free (s : State) (n : Nat) : Prop :=
  s.cur = .hart n ∧ n < Config.harts ∧ (s.hart n).run = .active ∧ (s.hart n).role = .solo ∧ (s.hart n).pending = [] ∧
    ∀ p ∈ (s.hart n).streams, p.2.act = false

/-- Director core `d` is the agent whose turn it is. -/
def FreeDir (s : State) (d : Nat) : Prop := s.cur = .dir d ∧ d < Config.directors

end Sys2Proof.Safety

namespace Sys2Proof.Machine

/-! ### What the registers of a hart read as (R267) -/

/-- Reading the register takes no stale-read trap. -/
def Hart.xReads (h : Hart) (r : Reg) : Prop := r = 0 ∨ h.xLive r = true ∨ h.regTraps = false
def Hart.vReads (h : Hart) (r : Reg) : Prop := h.vLive r = true ∨ h.regTraps = false
def Hart.mReads (h : Hart) (r : Reg) : Prop := r = 0 ∨ h.mLive r = true ∨ h.regTraps = false

/-- The value a register reads as: x0 and a register that is not live read as zero, m0 as all ones (R150). -/
def Hart.xVal (h : Hart) (r : Reg) : Word := if r ≠ 0 ∧ h.xLive r = true then (KMap.get {} h.x r.toNat).val else 0
def Hart.vVal (h : Hart) (r : Reg) : Vec := if h.vLive r = true then (KMap.get {} h.v r.toNat).val else 0
def Hart.mVal (h : Hart) (r : Reg) : Word :=
  if r = 0 then BitVec.allOnes 64 else if h.mLive r = true then (KMap.get {} h.m r.toNat).val else 0

/-- The poison a register reads with. -/
def Hart.xPois (h : Hart) (r : Reg) : Bool := r != 0 && h.xLive r && (KMap.get {} h.x r.toNat).poison
def Hart.vPois (h : Hart) (r : Reg) : Bool := h.vLive r && (KMap.get {} h.v r.toNat).poison
def Hart.mPois (h : Hart) (r : Reg) : Bool := r != 0 && h.mLive r && (KMap.get {} h.m r.toNat).poison

/-- The format tag a v register reads with: raw where it is not live. -/
def Hart.vFmt (h : Hart) (r : Reg) : Nat := if h.vLive r = true then (KMap.get {} h.v r.toNat).fmt.toNat else 0

/-- An x register that can be used as an operand: no stale-read trap, no poison trap. -/
def Hart.xUse (h : Hart) (r : Reg) : Prop := h.xReads r ∧ h.xPois r = false

/-! ### What an instruction leaves behind -/

/-- x register `r` of hart `n` written; x0 is not. -/
def State.setX (s : State) (n : Nat) (r : Reg) (v : Word) (poison : Bool) : State :=
  if r = 0 then s else s.setHart n ((s.hart n).putX r v poison)

/-- v register `r` of hart `n` written, with its format tag. -/
def State.setV (s : State) (n : Nat) (r : Reg) (v : Vec) (fmt : Nat) (poison : Bool) : State :=
  s.setHart n ((s.hart n).putV r v (BitVec.ofNat 4 fmt) poison)

/-- A result written at once: registers, stores, accumulator cells, masks, the session it closes, and the events at the pc
of the instruction. -/
def State.wrote (s : State) (n : Nat) (p : Pending) : State :=
  let pc := (s.hart n).pc
  let s := p.xs.foldl (fun s q => s.setX n q.1 q.2.val q.2.poison) s
  let s := p.vs.foldl (fun s q => s.setHart n ((s.hart n).putV q.1 q.2.val q.2.fmt q.2.poison)) s
  let s := p.ms.foldl (fun s q => s.setHart n ((s.hart n).putM q.1 q.2.val q.2.poison)) s
  let s := p.stores.foldl (fun s c => s.hartStore n c) s
  let s := (p.accs.foldl (fun s c => s.accWrite (hartCluster n) c) s).maskWrites n p.engs
  let s := if p.closes then s.closeSession n else s
  if p.events = 0 then s else s.raiseEvents n pc p.events

/-- The result of a long-format instruction: at once, or, with a lookahead, as a pending result whose window opens after
the instruction (R59, R54). -/
def State.gave (s : State) (n : Nat) (i : Instr) (p : Pending) : State :=
  if (optsOf i).window = 0 then s.wrote n p
  else s.setHart n { s.hart n with
    pending := (s.hart n).pending ++ [{ p with window := (optsOf i).window + 1, pc := (s.hart n).pc }] }

/-- Hart `n` has completed the instruction: it is counted, windows close by one, and the pc moves on (R133). -/
def State.done (s : State) (n : Nat) (i : Instr) (c : Ctl) : State := s.setHart n ((s.hart n).retire i c)

/-- Director core `d` has completed the instruction. -/
def State.doneDir (s : State) (d : Nat) (i : Instr) (c : Ctl) : State := s.setDir d ((s.dir d).retire i c)

/-- x register of a director core written; x0 is not. -/
def State.setDirX (s : State) (d : Nat) (r : Reg) (v : Word) : State := s.setDir d ((s.dir d).putX r v)

/-- A v register that passes the format check for one of the tags (R98, R100). -/
def Hart.vUse (h : Hart) (r : Reg) (tags : List Nat) : Prop := h.vReads r ∧ (h.vFmt r = 0 ∨ h.vFmt r ∈ tags)

end Sys2Proof.Machine
end

