-- ==== Sys2Proof/Certificates/Slice0/Obligations.lean ====
section
/-!
DEFINITION. The statements for the provers. `Claims` holds the numbers they are stated in: what the manual's rules compute,
written apart from the definitions of the machine.
-/

section

open Sys2Proof Sys2Proof.Machine Sys2Proof.Safety

namespace Claims

/-- The bytes of a number, least significant first. -/
def bytes (k v : Nat) : List Byte := (List.range k).map fun i => BitVec.ofNat 8 (v / 256 ^ i)

/-- A field of a word. -/
def fld (w : Word) (lo len : Nat) : Nat := w.toNat / 2 ^ lo % 2 ^ len

end Claims

/-! ### RV64I and M on both kinds of core (R14, R123, R129) -/

namespace Claims

/-- The integer operations, computed exactly on numbers and then narrowed (R123). -/
def aluExact (op : AluOp) (a b : Word) : Word :=
  let w (z : Int) : Word := BitVec.ofInt 64 (BitVec.ofInt 32 z).toInt
  let lo (v : Word) : Nat := v.toNat % 2 ^ 32
  let slo (v : Word) : Int := (BitVec.ofNat 32 v.toNat).toInt
  match op with
  | .add => BitVec.ofInt 64 (a.toInt + b.toInt)
  | .sub => BitVec.ofInt 64 (a.toInt - b.toInt)
  | .sll => BitVec.ofNat 64 (a.toNat * 2 ^ (b.toNat % 64))
  | .slt => if a.toInt < b.toInt then 1 else 0
  | .sltu => if a.toNat < b.toNat then 1 else 0
  | .xor => a ^^^ b
  | .srl => BitVec.ofNat 64 (a.toNat / 2 ^ (b.toNat % 64))
  | .sra => BitVec.ofInt 64 (a.toInt / 2 ^ (b.toNat % 64))
  | .or => a ||| b
  | .and => a &&& b
  | .addw => w (a.toInt + b.toInt)
  | .subw => w (a.toInt - b.toInt)
  | .sllw => w (lo a * 2 ^ (b.toNat % 32))
  | .srlw => w (lo a / 2 ^ (b.toNat % 32))
  | .sraw => w (slo a / 2 ^ (b.toNat % 32))

/-- The products of M on numbers. -/
def mulExact (op : MulOp) (a b : Word) : Word :=
  match op with
  | .mul => BitVec.ofInt 64 (a.toInt * b.toInt)
  | .mulh => BitVec.ofInt 64 (a.toInt * b.toInt / 2 ^ 64)
  | .mulhsu => BitVec.ofInt 64 (a.toInt * b.toNat / 2 ^ 64)
  | .mulhu => BitVec.ofInt 64 (a.toNat * b.toNat / 2 ^ 64)
  | .mulw => BitVec.ofInt 64 (BitVec.ofInt 32 (a.toInt * b.toInt)).toInt

/-- The quotients and remainders of M on numbers: the quotient truncates; a zero divisor gives all ones and the dividend;
the signed overflow wraps to the dividend, with remainder 0. -/
def divExact (op : DivOp) (a b : Word) : Word :=
  let w (z : Int) : Word := BitVec.ofInt 64 (BitVec.ofInt 32 z).toInt
  let lo (v : Word) : Int := (v.toNat % 2 ^ 32 : Nat)
  let slo (v : Word) : Int := (BitVec.ofNat 32 v.toNat).toInt
  match op with
  | .div => if b.toNat = 0 then BitVec.allOnes 64 else BitVec.ofInt 64 (a.toInt.tdiv b.toInt)
  | .divu => if b.toNat = 0 then BitVec.allOnes 64 else BitVec.ofNat 64 (a.toNat / b.toNat)
  | .rem => if b.toNat = 0 then a else BitVec.ofInt 64 (a.toInt.tmod b.toInt)
  | .remu => if b.toNat = 0 then a else BitVec.ofNat 64 (a.toNat % b.toNat)
  | .divw => if lo b = 0 then BitVec.allOnes 64 else w ((slo a).tdiv (slo b))
  | .divuw => if lo b = 0 then BitVec.allOnes 64 else w (lo a / lo b)
  | .remw => if lo b = 0 then w (slo a) else w ((slo a).tmod (slo b))
  | .remuw => if lo b = 0 then w (lo a) else w (lo a % lo b)

/-- The condition of a branch on numbers. -/
def branchExact (op : BrOp) (a b : Word) : Bool :=
  match op with
  | .beq => decide (a.toNat = b.toNat)
  | .bne => decide (a.toNat ≠ b.toNat)
  | .blt => decide (a.toInt < b.toInt)
  | .bge => decide (b.toInt ≤ a.toInt)
  | .bltu => decide (a.toNat < b.toNat)
  | .bgeu => decide (b.toNat ≤ a.toNat)

/-- A sign-extended immediate. -/
def imm {n : Nat} (i : BitVec n) : Word := BitVec.ofInt 64 i.toInt
/-- An offset counted in halfwords. -/
def half {n : Nat} (i : BitVec n) : Word := BitVec.ofInt 64 (i.toInt * 2)
/-- A 20-bit upper immediate: × 4096, sign-extended. -/
def upper (i : BitVec 20) : Word := BitVec.ofInt 64 (i.toInt * 4096)
/-- An address with bit 0 cleared. -/
def even (w : Word) : Word := BitVec.ofNat 64 (w.toNat / 2 * 2)

/-- What the second operand of an integer instruction reads as on a hart: a register, or a sign-extended immediate. -/
def srcReads (h : Hart) (src : AluSrc) : Prop := match src with | .reg r => h.xReads r | .imm _ => True
def srcVal (h : Hart) (src : AluSrc) : Word := match src with | .reg r => h.xVal r | .imm i => imm i
def srcPois (h : Hart) (src : AluSrc) : Bool := match src with | .reg r => h.xPois r | .imm _ => false
def srcDir (c : Dir) (src : AluSrc) : Word := match src with | .reg r => c.getX r | .imm i => imm i

end Claims

/-- R123 on a compute hart: an integer instruction writes the exact result, narrowed, and the OR of its sources' poison
(R282); x0 is not written; nothing changes but the destination and what `done` counts. With rd = x0 the operations of
rv64i are HINTs (R45): they read nothing, whatever their sources hold. -/
def Claims.IntegerOnHart : Prop :=
  ∀ (s : State) (n : Nat), Free s n →
    let h := s.hart n
    (∀ op rd rs1 src, h.xReads rs1 → Claims.srcReads h src →
      exec (.rv64iAlu op rd rs1 src) s = .next ((s.setX n rd (Claims.aluExact op (h.xVal rs1) (Claims.srcVal h src))
        (h.xPois rs1 || Claims.srcPois h src)).done n (.rv64iAlu op rd rs1 src) (.seq none))) ∧
    (∀ op rs1 src, exec (.rv64iAlu op 0 rs1 src) s = .next (s.done n (.rv64iAlu op 0 rs1 src) (.seq none))) ∧
    (∀ rd imm, exec (.lui rd imm) s = .next ((s.setX n rd (Claims.upper imm) false).done n (.lui rd imm) (.seq none))) ∧
    (∀ rd imm, exec (.auipc rd imm) s =
      .next ((s.setX n rd (h.pc + Claims.upper imm) false).done n (.auipc rd imm) (.seq none))) ∧
    (∀ op rd rs1 rs2, h.xReads rs1 → h.xReads rs2 →
      exec (.mul op rd rs1 rs2) s = .next ((s.setX n rd (Claims.mulExact op (h.xVal rs1) (h.xVal rs2))
        (h.xPois rs1 || h.xPois rs2)).done n (.mul op rd rs1 rs2) (.seq none))) ∧
    (∀ op rd rs1 rs2, h.xReads rs1 → h.xReads rs2 →
      exec (.div op rd rs1 rs2) s = .next ((s.setX n rd (Claims.divExact op (h.xVal rs1) (h.xVal rs2))
        (h.xPois rs1 || h.xPois rs2)).done n (.div op rd rs1 rs2) (.seq none)))

/-- R129 on a compute hart: where branches and jumps go, and the link they write. -/
def Claims.JumpsOnHart : Prop :=
  ∀ (s : State) (n : Nat), Free s n →
    let h := s.hart n
    (∀ op rs1 rs2 off, h.xUse rs1 → h.xUse rs2 →
      exec (.branch op rs1 rs2 off) s = .next (s.done n (.branch op rs1 rs2 off)
        (if Claims.branchExact op (h.xVal rs1) (h.xVal rs2) then .jump (h.pc + Claims.half off) else .seq none))) ∧
    (∀ rd off, exec (.jal rd off) s =
      .next ((s.setX n rd (h.pc + 4) false).done n (.jal rd off) (.jump (h.pc + Claims.half off)))) ∧
    (∀ rd rs1 off, h.xUse rs1 → exec (.jalr rd rs1 off) s =
      .next ((s.setX n rd (h.pc + 4) false).done n (.jalr rd rs1 off)
        (.jump (Claims.even (h.xVal rs1 + Claims.imm off)))))

/-- The same instructions on a director core, whose registers carry neither tags nor poison (R14, R376). -/
def Obligations.IntegerOnDirector : Prop :=
  ∀ (s : State) (d : Nat), FreeDir s d →
    let c := s.dir d
    (∀ op rd rs1 src, exec (.rv64iAlu op rd rs1 src) s =
      .next ((s.setDirX d rd (Claims.aluExact op (c.getX rs1) (Claims.srcDir c src))).doneDir d (.rv64iAlu op rd rs1 src) .seq)) ∧
    (∀ rd imm, exec (.lui rd imm) s = .next ((s.setDirX d rd (Claims.upper imm)).doneDir d (.lui rd imm) .seq)) ∧
    (∀ rd imm, exec (.auipc rd imm) s =
      .next ((s.setDirX d rd (c.pc + Claims.upper imm)).doneDir d (.auipc rd imm) .seq)) ∧
    (∀ op rd rs1 rs2, exec (.mul op rd rs1 rs2) s =
      .next ((s.setDirX d rd (Claims.mulExact op (c.getX rs1) (c.getX rs2))).doneDir d (.mul op rd rs1 rs2) .seq)) ∧
    (∀ op rd rs1 rs2, exec (.div op rd rs1 rs2) s =
      .next ((s.setDirX d rd (Claims.divExact op (c.getX rs1) (c.getX rs2))).doneDir d (.div op rd rs1 rs2) .seq)) ∧
    (∀ op rs1 rs2 off, exec (.branch op rs1 rs2 off) s = .next (s.doneDir d (.branch op rs1 rs2 off)
      (if Claims.branchExact op (c.getX rs1) (c.getX rs2) then .jump (c.pc + Claims.half off) else .seq))) ∧
    (∀ rd off, exec (.jal rd off) s =
      .next ((s.setDirX d rd (c.pc + 4)).doneDir d (.jal rd off) (.jump (c.pc + Claims.half off)))) ∧
    (∀ rd rs1 off, exec (.jalr rd rs1 off) s =
      .next ((s.setDirX d rd (c.pc + 4)).doneDir d (.jalr rd rs1 off)
        (.jump (Claims.even (c.getX rs1 + Claims.imm off)))))

/-! ### What follows an instruction, loop sets, and dead marking (R130-R138) -/

namespace Claims

/-- The instruction just completed ends at the end of the loop set, which is active, and the set is looked at (R133). -/
def ends (l : LoopSet) (k : Nat) (next : Word) (skip : Option Nat) : Bool :=
  l.lpc != 0 && next == l.lpe && skip != some k

/-- ... and iterations remain: the set loops back. -/
def backs (l : LoopSet) (k : Nat) (next : Word) (skip : Option Nat) : Bool := ends l k next skip && decide (1 < l.lpc.toNat)

/-- A loop set after its evaluation. -/
def counted (l : LoopSet) (k : Nat) (next : Word) (skip : Option Nat) : LoopSet :=
  if ends l k next skip then { l with lpc := l.lpc - 1 } else l

/-- A register marked dead: tag 0, no poison, raw; of its data nothing is said (R135). -/
def deadX (r : XReg) : Prop := r.gen = 0 ∧ r.poison = false
def deadV (r : VReg) : Prop := r.gen = 0 ∧ r.poison = false ∧ r.fmt = 0

/-- The end of the immediate forms. -/
def loopEnd (pc : Word) (imm : BitVec 12) : Word := BitVec.ofNat 64 (pc.toNat + 2 * imm.toNat)

/-- What arming a loop set leaves: start, end and count; a zero count leaves the set inactive. -/
def armed (s : State) (n : Nat) (k : BitVec 1) (count fin : Word) : State :=
  let h := s.hart n
  let l : LoopSet := { lps := h.pc + 4, lpe := fin, lpc := count }
  s.setHart n (if k = 0 then { h with lp0 := l } else { h with lp1 := l })

/-- Where the hart goes after arming: past the body on a zero count, else on, the armed set not looked at. -/
def afterArm (k : BitVec 1) (count fin : Word) : Ctl := if count = 0 then .jump fin else .seq (some k.toNat)

end Claims

/-- R133: how a completed instruction leaves the hart. A jump leaves the loop sets alone. Otherwise set 1 is looked at
before set 0: a set that ends here with iterations left counts down and takes the hart to its start, and the last
iteration falls through. -/
def Claims.NextPc : Prop :=
  ∀ (h : Hart) (i : Instr),
    let next := h.pc + BitVec.ofNat 64 i.len
    let after (p : Word) (l0 l1 : LoopSet) : Hart := { h with
      instret := h.instret + 1, rewait := none, pending := h.pending.map fun p => { p with window := p.window - 1 }
      pc := p, lp0 := l0, lp1 := l1 }
    (∀ t, h.retire i (.jump t) = after t h.lp0 h.lp1) ∧
    ∀ skip,
      (Claims.backs h.lp1 1 next skip = true → h.retire i (.seq skip) = after h.lp1.lps h.lp0 (Claims.counted h.lp1 1 next skip)) ∧
      (Claims.backs h.lp1 1 next skip = false → Claims.backs h.lp0 0 next skip = true →
        h.retire i (.seq skip) = after h.lp0.lps (Claims.counted h.lp0 0 next skip) (Claims.counted h.lp1 1 next skip)) ∧
      (Claims.backs h.lp1 1 next skip = false → Claims.backs h.lp0 0 next skip = false →
        h.retire i (.seq skip) = after next (Claims.counted h.lp0 0 next skip) (Claims.counted h.lp1 1 next skip))

/-- R131, R132: arming a loop set and taking it off. lp.off of a set other than 0 and 1 does not decode. -/
def Claims.LoopSets : Prop :=
  ∀ (s : State) (n : Nat) (k : BitVec 1), Free s n →
    let h := s.hart n
    (∀ rc re, h.xUse rc → h.xUse re → exec (.lpSet k rc re) s =
      .next ((Claims.armed s n k (h.xVal rc) (Claims.even (h.xVal re))).done n (.lpSet k rc re)
        (Claims.afterArm k (h.xVal rc) (Claims.even (h.xVal re))))) ∧
    (∀ rc imm, h.xUse rc → exec (.lpSetup k rc imm) s =
      .next ((Claims.armed s n k (h.xVal rc) (Claims.loopEnd h.pc imm)).done n (.lpSetup k rc imm)
        (Claims.afterArm k (h.xVal rc) (Claims.loopEnd h.pc imm)))) ∧
    (∀ cnt imm, exec (.lpSetupi k cnt imm) s =
      .next ((Claims.armed s n k (BitVec.ofNat 64 cnt.toNat) (Claims.loopEnd h.pc imm)).done n (.lpSetupi k cnt imm)
        (Claims.afterArm k (BitVec.ofNat 64 cnt.toNat) (Claims.loopEnd h.pc imm)))) ∧
    (exec (.lpOff k) s = .next ((s.setHart n (if k = 0 then { h with lp0 := { h.lp0 with lpc := 0 } }
      else { h with lp1 := { h.lp1 with lpc := 0 } })).done n (.lpOff k) (.seq none))) ∧
    (∀ rd : Reg, decode false 4 (0x0200000B + 2 ^ 7 * rd.toNat) =
      if rd.toNat < 2 then .ok (.lpOff (BitVec.ofNat 1 rd.toNat)) else .error .reserved)

/-- R135 to R137: kill.x, kill.v, jal.d and jalr.d mark exactly the named registers dead, x0 never; jal.d and jalr.d then
write the link, which is live, and jump. A kill that names a range from high to low, or a destination, does not decode. -/
def Obligations.DeadMarking : Prop :=
  ∀ (s : State) (n : Nat), Free s n →
    let h := s.hart n
    let xs (h' : Hart) (p : Nat → Prop) : Prop := ∀ r, (p r → r ≠ 0 → Claims.deadX (KMap.get {} h'.x r)) ∧
      (¬ p r ∨ r = 0 → KMap.get {} h'.x r = KMap.get {} h.x r)
    let vs (h' : Hart) (p : Nat → Prop) : Prop := ∀ r, (p r → Claims.deadV (KMap.get {} h'.v r)) ∧
      (¬ p r → KMap.get {} h'.v r = KMap.get {} h.v r)
    let byMask (h' : Hart) : Prop := xs h' (fun r => r < 32 ∧ h.dmask.getLsbD r = true) ∧
      vs h' (fun r => r < 32 ∧ h.dmask.getLsbD (32 + r) = true) ∧ h' = { h with x := h'.x, v := h'.v }
    (∀ a b : Reg, ∃ h', exec (.killX a b) s = .next ((s.setHart n h').done n (.killX a b) (.seq none)) ∧
      xs h' (fun r => a.toNat ≤ r ∧ r ≤ b.toNat) ∧ h' = { h with x := h'.x }) ∧
    (∀ a b : Reg, ∃ h', exec (.killV a b) s = .next ((s.setHart n h').done n (.killV a b) (.seq none)) ∧
      vs h' (fun r => a.toNat ≤ r ∧ r ≤ b.toNat) ∧ h' = { h with v := h'.v }) ∧
    (∀ rd off, ∃ h', byMask h' ∧ exec (.jalD rd off) s =
      .next (((s.setHart n h').setX n rd (h.pc + 4) false).done n (.jalD rd off) (.jump (h.pc + Claims.half off)))) ∧
    (∀ rd rs1 off, h.xUse rs1 → ∃ h', byMask h' ∧ exec (.jalrD rd rs1 off) s =
      .next (((s.setHart n h').setX n rd (h.pc + 4) false).done n (.jalrD rd rs1 off)
        (.jump (Claims.even (h.xVal rs1 + Claims.imm off))))) ∧
    (∀ rd a b : Reg, let w (k : Nat) : Nat := 0x0B + 2 ^ 7 * rd.toNat + 2 ^ 15 * a.toNat + 2 ^ 20 * b.toNat + 2 ^ 25 * k
      decode false 4 (w 2) = (if rd = 0 ∧ a.toNat ≤ b.toNat then .ok (.killX a b) else .error .reserved) ∧
      decode false 4 (w 3) = (if rd = 0 ∧ a.toNat ≤ b.toNat then .ok (.killV a b) else .error .reserved))

/-! ### CSRs (R45, R80, R126-R128, R191, R402, R418) -/

namespace Claims

/-- A CSR: whether only house mode (S-mode, on a director core) has it, what it reads as, and what a write leaves. -/
structure Csr (α : Type) where
  own : Bool
  get : α → Nat
  put : Option (α → Nat → α)

/-- The CSRs of a hart as R126 and R127 list them, less the counters and the stream CSRs. Reserved bits read as zero and
are not written. -/
def hartCsr (c : Nat) : Option (Csr Hart) :=
  match c with
  | 0x800 => some ⟨false, fun h => h.vflags.toNat, some fun h v => { h with vflags := BitVec.ofNat 5 v }⟩
  | 0x801 => some ⟨false, fun h => h.venab.toNat, some fun h v => { h with venab := BitVec.ofNat 5 v }⟩
  | 0x802 => some ⟨false, fun h => h.vrm.toNat, some fun h v => { h with vrm := BitVec.ofNat 3 v }⟩
  | 0x803 => some ⟨false, fun h => h.dmask.toNat, some fun h v => { h with dmask := BitVec.ofNat 64 (v / 2 * 2) }⟩
  | 0x804 => some ⟨false, fun h => h.depmask.toNat, some fun h v => { h with depmask := BitVec.ofNat 32 (v / 2 * 2) }⟩
  | 0x805 => some ⟨false, fun h => h.gmode.toNat, some fun h v => { h with gmode := BitVec.ofNat 2 v }⟩
  | 0x806 => some ⟨true, fun h => h.fpsup.toNat, some fun h v =>
      if v % 2 ^ 18 ≤ 49151 then { h with fpsup := BitVec.ofNat 18 v } else h⟩
  | 0x810 => some ⟨false, fun h => h.lp0.lps.toNat, some fun h v => { h with lp0 := { h.lp0 with lps := BitVec.ofNat 64 (v / 2 * 2) } }⟩
  | 0x811 => some ⟨false, fun h => h.lp0.lpe.toNat, some fun h v => { h with lp0 := { h.lp0 with lpe := BitVec.ofNat 64 (v / 2 * 2) } }⟩
  | 0x812 => some ⟨false, fun h => h.lp0.lpc.toNat, some fun h v => { h with lp0 := { h.lp0 with lpc := BitVec.ofNat 64 v } }⟩
  | 0x813 => some ⟨false, fun h => h.lp1.lps.toNat, some fun h v => { h with lp1 := { h.lp1 with lps := BitVec.ofNat 64 (v / 2 * 2) } }⟩
  | 0x814 => some ⟨false, fun h => h.lp1.lpe.toNat, some fun h v => { h with lp1 := { h.lp1 with lpe := BitVec.ofNat 64 (v / 2 * 2) } }⟩
  | 0x815 => some ⟨false, fun h => h.lp1.lpc.toNat, some fun h v => { h with lp1 := { h.lp1 with lpc := BitVec.ofNat 64 v } }⟩
  | 0x840 => some ⟨true, fun h => h.tcause.toNat, some fun h v => { h with tcause := BitVec.ofNat 8 v }⟩
  | 0x841 => some ⟨true, fun h => h.tepc.toNat, some fun h v => { h with tepc := BitVec.ofNat 64 (v / 2 * 2) }⟩
  | 0x842 => some ⟨true, fun h => h.tval.toNat, some fun h v => { h with tval := BitVec.ofNat 64 v }⟩
  | 0x843 => some ⟨true, fun h => h.tvec.toNat, some fun h v => { h with tvec := BitVec.ofNat 64 (v / 4 * 4) }⟩
  | 0x844 => some ⟨true, fun h => h.cueptr.toNat, some fun h v => { h with cueptr := BitVec.ofNat 64 (v / 64 * 64) }⟩
  | 0xC02 => some ⟨false, fun h => h.instret.toNat, none⟩
  | 0xCC0 => some ⟨false, fun h => h.rgen.toNat, none⟩
  | _ => none

/-- A set gets owner `d`: what another thread had begun to serve of it goes (R425, log 117). -/
def newOwner (s : State) (n : Nat) (d : BitVec 4) : State :=
  if d = (s.qset n).owner then s
  else { s with kept := s.kept.filter (fun k => k.queue / 64 != n), serving := s.serving.filter (fun q => q / 64 != n) }

/-- CSRs of a director core: those of R402 and R418 (the ring's head and the journal's size with their bounds), and
sscratch of RISC-V (log 6). -/
def dirCsr (d c : Nat) : Option (Csr State) :=
  match c with
  | 0x140 => some ⟨true, fun s => (s.dir d).sscratch.toNat, some fun s v => s.setDir d { s.dir d with sscratch := BitVec.ofNat 64 v }⟩
  | 0x5C0 => some ⟨true, fun s => (s.dir d).hrbase.toNat, some fun s v => s.setDir d { s.dir d with hrbase := BitVec.ofNat 64 (v / 8 * 8) }⟩
  | 0xCC1 => some ⟨false, fun s => d * 2 ^ 32 + (s.dir d).txseq.toNat, none⟩
  | 0xCC2 => some ⟨false, fun s => (if (s.dir d).permit then 2 ^ 63 else 0) + (s.dir d).fillSite.toNat * 2 ^ 32 + (s.dir d).fillShape.toNat, none⟩
  | 0xDC0 => some ⟨true, fun s => ((s.dir d).flight.length * 2 ^ 16 + (s.dir d).flight.countP (fun e => e.failed.isSome) * 2 ^ 7
      + (s.dir d).tib.length) % 2 ^ 64, none⟩
  | c =>
    if 0x5D0 ≤ c ∧ c ≤ 0x5D3 then some ⟨true, fun s =>
        (if (s.qset (c - 0x5D0)).hold then 2 ^ 63 else 0) + (s.qset (c - 0x5D0)).owner.toNat * 2 ^ 56
          + (s.qset (c - 0x5D0)).jsize.toNat * 2 ^ 32 + (s.qset (c - 0x5D0)).jtail.toNat,
      some fun s v => (newOwner s (c - 0x5D0) (BitVec.ofNat 4 (v / 2 ^ 56))).setQset (c - 0x5D0) { s.qset (c - 0x5D0) with
        hold := decide (2 ^ 63 ≤ v), owner := BitVec.ofNat 4 (v / 2 ^ 56)
        jsize := if 6 ≤ v / 2 ^ 32 % 32 ∧ v / 2 ^ 32 % 32 ≤ 16 then BitVec.ofNat 5 (v / 2 ^ 32) else (s.qset (c - 0x5D0)).jsize }⟩
    else if 0x5D4 ≤ c ∧ c ≤ 0x5D7 then some ⟨true, fun s => (s.qset (c - 0x5D4)).jlbase.toNat,
      some fun s v => s.setQset (c - 0x5D4) { s.qset (c - 0x5D4) with jlbase := BitVec.ofNat 64 (v / 32 * 32) }⟩
    else if 0x5D8 ≤ c ∧ c ≤ 0x5DB then some ⟨true, fun s => (s.qset (c - 0x5D8)).jlhead.toNat,
      some fun s v => s.setQset (c - 0x5D8) { s.qset (c - 0x5D8) with jlhead := BitVec.ofNat 32 v }⟩
    else none

/-- A csr form: the instruction, what it writes from the old value, and whether it writes. -/
inductive CsrForm where
  | w (rs1 : Reg)
  | s (rs1 : Reg)
  | c (rs1 : Reg)
  | wi (z : BitVec 5)
  | si (z : BitVec 5)
  | ci (z : BitVec 5)

def CsrForm.instr (f : CsrForm) (rd : Reg) (csr : BitVec 12) : Instr :=
  match f with
  | .w r => .csrrw rd csr r
  | .s r => .csrrs rd csr r
  | .c r => .csrrc rd csr r
  | .wi z => .csrrwi rd csr z
  | .si z => .csrrsi rd csr z
  | .ci z => .csrrci rd csr z

/-- The register operand, where the form has one. -/
def CsrForm.reg : CsrForm → Option Reg
  | .w r | .s r | .c r => some r
  | _ => none

/-- The form writes: the set and clear forms only with a register other than x0, or a nonzero immediate. -/
def CsrForm.writes : CsrForm → Bool
  | .w _ | .wi _ => true
  | .s r | .c r => r != 0
  | .si z | .ci z => z != 0

/-- The new value, from the old one and what the register operand reads as. -/
def CsrForm.new (f : CsrForm) (old x : Word) : Word :=
  match f with
  | .w _ => x
  | .s _ => old ||| x
  | .c _ => old &&& ~~~x
  | .wi z => BitVec.ofNat 64 z.toNat
  | .si z => old ||| BitVec.ofNat 64 z.toNat
  | .ci z => old &&& ~~~BitVec.ofNat 64 z.toNat

/-- sctl as a write leaves it: its fields, and act only where the stream is bound (R191). -/
def sctlOf (v : Word) (bound : Bool) : Word := if bound then v &&& 0xC00F1F7F else v &&& 0x400F1F7F

/-- The checks of R190 on the values the stream CSRs hold. -/
def bindable (h : Hart) (k : Nat) (v : Word) : Prop :=
  let isV := v.getLsbD 5
  let reg := v.extractLsb' 0 5
  (reg ≠ 0 ∨ isV = true) ∧
  (∀ p ∈ h.streams, p.1 ≠ k → p.2.act = true → ¬ (p.2.isV = isV ∧ p.2.reg = reg)) ∧
  (v.getLsbD 12 = true → (h.stream k).stra = 0 ∧ (h.stream k).strb = 0 ∧ v.getLsbD 6 = false)

end Claims

/-- R45, R126, R127 on a hart: every csr form on every listed CSR reads the old value into rd, untagged by poison, and
writes the fields; a house CSR in cue mode, or a write of a read-only one, is illegal. -/
def Claims.CsrOnHart : Prop :=
  ∀ (s : State) (n : Nat), Free s n →
    let h := s.hart n
    ∀ (f : Claims.CsrForm) (rd : Reg) (csr : BitVec 12) (row : Claims.Csr Hart), Claims.hartCsr csr.toNat = some row →
      let old := BitVec.ofNat 64 (row.get h)
      let x := (f.reg.map h.xVal).getD 0
      let i := f.instr rd csr
      ((row.own = true → h.house = true) → (∀ r, f.reg = some r → h.xUse r) →
        (f.writes = false → exec i s = .next ((s.setX n rd old false).done n i (.seq none))) ∧
        (∀ put, f.writes = true → row.put = some put →
          exec i s = .next (((s.setHart n (put h (f.new old x).toNat)).setX n rd old false).done n i (.seq none)))) ∧
      ((row.own = true ∧ h.house = false) ∨ (f.writes = true ∧ row.put = none) →
        exec i s = .next (s.takeTrap n 1 i.bits h.pc))

/-- The counters every hart reads and none may write (R126), and the stream CSRs a cue reads (R191). -/
def Claims.CountersAndStreamCsrs : Prop :=
  ∀ (s : State) (n : Nat), Free s n →
    let h := s.hart n
    let reads (c : BitVec 12) (v : Word) : Prop := ∀ rd, exec (.csrrs rd c 0) s = .next ((s.setX n rd v false).done n (.csrrs rd c 0) (.seq none))
    let refuses (c : BitVec 12) : Prop := ∀ rd rs1, exec (.csrrw rd c rs1) s = .next (s.takeTrap n 1 (Instr.csrrw rd c rs1).bits h.pc)
    (reads 0xC00 s.cycle ∧ refuses 0xC00 ∧ reads 0xC01 s.time ∧ refuses 0xC01) ∧
    (∀ k, k < 4 → let t := KMap.get {} h.streams k
      let c (j : Nat) : BitVec 12 := BitVec.ofNat 12 (0x820 + 8 * k + j)
      reads (c 0) t.base ∧ reads (c 1) t.stra ∧ reads (c 2) t.strb ∧ reads (c 3) t.cnt ∧ reads (c 4) t.ctl ∧ reads (c 5) t.pos ∧
      refuses (c 6) ∧ refuses (c 7) ∧ (h.house = false → ∀ j, j ≤ 5 → refuses (c j))) ∧
    (∀ k v, k < 4 → h.house = true → (KMap.get {} h.streams k).act = false →
      let put (b : Bool) : State := s.setHart n { h with streams := KMap.set {} h.streams k { KMap.get {} h.streams k with
        ctl := Claims.sctlOf v b, moved := 0, last := none } }
      (v.getLsbD 31 = true → Claims.bindable h k v → exec (.streamCsrBind n k v) s = .next (put true)) ∧
      (¬ (v.getLsbD 31 = true ∧ Claims.bindable h k v) → exec (.streamCsrBind n k v) s = .next (put false)))

/-- R402 and R418 on a director core: the csr forms on its custom CSRs. From U-mode those of S-mode raise the
illegal-instruction exception, and so does a write of a read-only one; the exception's cause number is the model's reading of
RISC-V (log 6). A write of hrctl that makes room lets the appends that wait (R399) into the ring. A set that changes its owner
drops what its thread had begun (log 117). -/
def Obligations.CsrOnDirector : Prop :=
  ∀ (s : State) (d : Nat), FreeDir s d →
    let c := s.dir d
    (∀ (f : Claims.CsrForm) (rd : Reg) (csr : BitVec 12) (row : Claims.Csr State), Claims.dirCsr d csr.toNat = some row →
      let old := BitVec.ofNat 64 (row.get s)
      let x := (f.reg.map c.getX).getD 0
      let i := f.instr rd csr
      ((row.own = true → c.user = false) →
        (f.writes = false → exec i s = .next ((s.setDirX d rd old).doneDir d i (.seq none))) ∧
        (∀ put, f.writes = true → row.put = some put →
          exec i s = .next (((put s (f.new old x).toNat).setDirX d rd old).doneDir d i (.seq none)))) ∧
      ((row.own = true ∧ c.user = true) ∨ (f.writes = true ∧ row.put = none) →
        exec i s = .next (s.takeExc d 2 i.bits c.pc))) ∧
    -- hrctl: size and head are written, the tail is not
    (∀ (f : Claims.CsrForm) (rd : Reg),
      let old := BitVec.ofNat 64 (c.hrsize.toNat * 2 ^ 32 + c.hrhead.toNat * 2 ^ 16 + c.hrtail.toNat)
      let v := f.new old ((f.reg.map c.getX).getD 0)
      let i := f.instr rd 0x5C1
      let size := if 4 ≤ Claims.fld v 32 5 ∧ Claims.fld v 32 5 ≤ 16 then Claims.fld v 32 5 else c.hrsize.toNat
      let g : Dir := { c with hrsize := BitVec.ofNat 5 size, hrhead := BitVec.ofNat 16 (Claims.fld v 16 16) }
      let full (tail : Nat) : Prop := (tail + 1) % 2 ^ size = Claims.fld v 16 16
      (c.user = true → exec i s = .next (s.takeExc d 2 i.bits c.pc)) ∧
      (c.user = false → f.writes = false → exec i s = .next ((s.setDirX d rd old).doneDir d i (.seq none))) ∧
      (c.user = false → f.writes = true →
        ((c.appends = [] ∨ full c.hrtail.toNat) → exec i s = .next (((s.setDir d g).setDirX d rd old).doneDir d i (.seq none))) ∧
        (∀ w rest, c.appends = w :: rest → ¬ full c.hrtail.toNat → (rest = [] ∨ full ((c.hrtail.toNat + 1) % 2 ^ size)) → c.hrbase.toNat % 8 = 0 →
          ∃ t, exec i s = .next t ∧ (t.dir d).appends = rest ∧ (t.dir d).hrtail.toNat = (c.hrtail.toNat + 1) % 2 ^ size ∧
            (t.dir d).hrsize = g.hrsize ∧ (t.dir d).hrhead = g.hrhead ∧ (t.dir d).pc = c.pc + 4 ∧ (t.dir d).instret = c.instret + 1 ∧
            (t.dir d).getX rd = (if rd = 0 then 0 else old) ∧
            (s.log = [] → s.dirBuf = [] → t.sysRead (c.hrbase.toNat + 8 * c.hrtail.toNat) 8 = Claims.bytes 8 w.toNat))))

/-! ### Zca, fence, traps and returns (R43, R45, R123, R125, R287-R291, R376) -/

namespace Claims

/-- x(8 + r) of a three-bit field, and a register number as a field. -/
def x8 (r : BitVec 3) : Reg := BitVec.ofNat 5 (8 + r.toNat)

/-- A Zca instruction that is an integer operation: operation, rd, rs1 and the second operand, as RVC has them. -/
def zcaAlu : ZcaOp → Option (AluOp × Reg × Reg × (Reg ⊕ Int))
  | .addi4spn rd v => some (.add, x8 rd, 2, .inr (4 * v.toNat))
  | .addi rd v => some (.add, rd, rd, .inr v.toInt)
  | .addiw rd v => some (.addw, rd, rd, .inr v.toInt)
  | .li rd v => some (.add, rd, 0, .inr v.toInt)
  | .addi16sp v => some (.add, 2, 2, .inr (16 * v.toInt))
  | .srli rd v => some (.srl, x8 rd, x8 rd, .inr v.toNat)
  | .srai rd v => some (.sra, x8 rd, x8 rd, .inr v.toNat)
  | .andi rd v => some (.and, x8 rd, x8 rd, .inr v.toInt)
  | .sub rd r => some (.sub, x8 rd, x8 rd, .inl (x8 r))
  | .xor rd r => some (.xor, x8 rd, x8 rd, .inl (x8 r))
  | .or rd r => some (.or, x8 rd, x8 rd, .inl (x8 r))
  | .and rd r => some (.and, x8 rd, x8 rd, .inl (x8 r))
  | .subw rd r => some (.subw, x8 rd, x8 rd, .inl (x8 r))
  | .addw rd r => some (.addw, x8 rd, x8 rd, .inl (x8 r))
  | .slli rd v => some (.sll, rd, rd, .inr v.toNat)
  | .mv rd r => some (.add, rd, 0, .inl r)
  | .add rd r => some (.add, rd, rd, .inl r)
  | _ => none

/-- The second operand of a Zca operation on a hart, and on a director core. -/
def zcaReads (h : Hart) : Reg ⊕ Int → Prop
  | .inl r => h.xReads r
  | .inr _ => True
def zcaVal (h : Hart) : Reg ⊕ Int → Word
  | .inl r => h.xVal r
  | .inr v => BitVec.ofInt 64 v
def zcaPois (h : Hart) : Reg ⊕ Int → Bool
  | .inl r => h.xPois r
  | .inr _ => false
def zcaDir (c : Dir) : Reg ⊕ Int → Word
  | .inl r => c.getX r
  | .inr v => BitVec.ofInt 64 v

/-- What trap entry leaves alone in a hart: its registers and their tags, and the CSRs a save holds (R289). A write-bound
register takes the last element appended, which the save holds in its slot (R194). -/
def savedKept (h h' : Hart) : Prop :=
  ((∀ p ∈ h.streams, p.2.act = true → p.2.write = false) → h'.x = h.x ∧ h'.v = h.v) ∧ h'.m = h.m ∧ h'.rgen = h.rgen ∧ h'.vflags = h.vflags ∧ h'.venab = h.venab ∧ h'.vrm = h.vrm ∧
  h'.dmask = h.dmask ∧ h'.depmask = h.depmask ∧ h'.gmode = h.gmode ∧ h'.lp0 = h.lp0 ∧ h'.lp1 = h.lp1 ∧ h'.tvec = h.tvec ∧
  h'.cueptr = h.cueptr ∧ h'.instret = h.instret ∧ h'.fpsup = h.fpsup

/-- One bit of a word replaced. -/
def withBit (w : Word) (i : Nat) (b : Bool) : Word :=
  BitVec.ofNat 64 (w.toNat / 2 ^ (i + 1) * 2 ^ (i + 1) + (if b then 2 ^ i else 0) + w.toNat % 2 ^ i)

end Claims

/-- R45, R123: a Zca instruction that computes or jumps does what its RV64I instruction does, and is two bytes long: its
link is pc + 2. The encodings RV64I and Zca define as HINTs do nothing, whatever the registers they would name hold. -/
def Claims.ZcaOnHart : Prop :=
  ∀ (s : State) (n : Nat), Free s n →
    let h := s.hart n
    (∀ c, c.hint = true → exec (.zcaInstruction c) s = .next (s.done n (.zcaInstruction c) (.seq none))) ∧
    (∀ c op rd rs1 src, Claims.zcaAlu c = some (op, rd, rs1, src) → c.hint = false → h.xReads rs1 → Claims.zcaReads h src →
      exec (.zcaInstruction c) s = .next ((s.setX n rd (Claims.aluExact op (h.xVal rs1) (Claims.zcaVal h src))
        (h.xPois rs1 || Claims.zcaPois h src)).done n (.zcaInstruction c) (.seq none))) ∧
    (∀ rd v, exec (.zcaInstruction (.lui rd v)) s =
      .next ((s.setX n rd (BitVec.ofInt 64 (4096 * v.toInt)) false).done n (.zcaInstruction (.lui rd v)) (.seq none))) ∧
    (∀ v, exec (.zcaInstruction (.j v)) s = .next (s.done n (.zcaInstruction (.j v)) (.jump (h.pc + Claims.half v)))) ∧
    (∀ r v, h.xUse (Claims.x8 r) →
      exec (.zcaInstruction (.beqz r v)) s = .next (s.done n (.zcaInstruction (.beqz r v))
        (if h.xVal (Claims.x8 r) = 0 then .jump (h.pc + Claims.half v) else .seq none)) ∧
      exec (.zcaInstruction (.bnez r v)) s = .next (s.done n (.zcaInstruction (.bnez r v))
        (if h.xVal (Claims.x8 r) = 0 then .seq none else .jump (h.pc + Claims.half v)))) ∧
    (∀ r, h.xUse r →
      exec (.zcaInstruction (.jr r)) s = .next (s.done n (.zcaInstruction (.jr r)) (.jump (Claims.even (h.xVal r)))) ∧
      exec (.zcaInstruction (.jalr r)) s =
        .next ((s.setX n 1 (h.pc + 2) false).done n (.zcaInstruction (.jalr r)) (.jump (Claims.even (h.xVal r)))))

/-- The same on a director core. -/
def Claims.ZcaOnDirector : Prop :=
  ∀ (s : State) (d : Nat), FreeDir s d →
    let c := s.dir d
    (∀ z, z.hint = true → exec (.zcaInstruction z) s = .next (s.doneDir d (.zcaInstruction z) (.seq none))) ∧
    (∀ z op rd rs1 src, Claims.zcaAlu z = some (op, rd, rs1, src) → z.hint = false →
      exec (.zcaInstruction z) s = .next ((s.setDirX d rd (Claims.aluExact op (c.getX rs1) (Claims.zcaDir c src))).doneDir d
        (.zcaInstruction z) (.seq none))) ∧
    (∀ rd v, exec (.zcaInstruction (.lui rd v)) s =
      .next ((s.setDirX d rd (BitVec.ofInt 64 (4096 * v.toInt))).doneDir d (.zcaInstruction (.lui rd v)) (.seq none))) ∧
    (∀ v, exec (.zcaInstruction (.j v)) s = .next (s.doneDir d (.zcaInstruction (.j v)) (.jump (c.pc + Claims.half v)))) ∧
    (∀ r v, exec (.zcaInstruction (.beqz r v)) s = .next (s.doneDir d (.zcaInstruction (.beqz r v))
      (if c.getX (Claims.x8 r) = 0 then .jump (c.pc + Claims.half v) else .seq none)) ∧
      exec (.zcaInstruction (.bnez r v)) s = .next (s.doneDir d (.zcaInstruction (.bnez r v))
      (if c.getX (Claims.x8 r) = 0 then .seq none else .jump (c.pc + Claims.half v)))) ∧
    (∀ r, exec (.zcaInstruction (.jr r)) s = .next (s.doneDir d (.zcaInstruction (.jr r)) (.jump (Claims.even (c.getX r)))) ∧
      exec (.zcaInstruction (.jalr r)) s =
        .next ((s.setDirX d 1 (c.pc + 2)).doneDir d (.zcaInstruction (.jalr r)) (.jump (Claims.even (c.getX r)))))

/-- R43, R125, R287: fence has no effect but its completion; ecall, ebreak with no debugger attached, and bits that are no
instruction take their trap, with the pc of the instruction; ebreak under a debugger stops the hart past itself. -/
def Claims.SystemFormsOnHart : Prop :=
  ∀ (s : State) (n : Nat), Free s n →
    let h := s.hart n
    (∀ fm p q rs1 rd, exec (.fence fm p q rs1 rd) s = .next (s.done n (.fence fm p q rs1 rd) (.seq none))) ∧
    exec .ecall s = .next (s.takeTrap n 0x0F 0 h.pc) ∧
    (s.debugged n = false → exec .ebreak s = .next (s.takeTrap n 0x10 h.pc.toNat h.pc) ∧
      exec (.zcaInstruction .ebreak) s = .next (s.takeTrap n 0x10 h.pc.toNat h.pc)) ∧
    (s.debugged n = true → ∀ i, i = .ebreak ∨ i = .zcaInstruction .ebreak →
      ∃ t, exec i s = .next t ∧ (t.hart n).run = .stopped ∧ (∃ o, t.dbg.out = .stop n h.pc o :: s.dbg.out) ∧
        (h.lp0.lpc = 0 → h.lp1.lpc = 0 → (t.hart n).pc = h.pc + BitVec.ofNat 64 i.len) ∧ (t.hart n).x = h.x ∧
        (t.hart n).house = h.house) ∧
    (∀ w, exec (.illegalInstruction w) s = .next (s.takeTrap n 0x01 w.toNat h.pc)) ∧
    (∀ i, i.wf = true → i.onCompute = false → exec i s = .next (s.takeTrap n 0x01 i.bits h.pc))

/-- On a director core: ecall and ebreak raise the RISC-V exceptions, an instruction only compute harts have the
illegal-instruction exception with its bits (R14, R376). -/
def Claims.SystemFormsOnDirector : Prop :=
  ∀ (s : State) (d : Nat), FreeDir s d →
    let c := s.dir d
    (∀ fm p q rs1 rd, exec (.fence fm p q rs1 rd) s = .next (s.doneDir d (.fence fm p q rs1 rd) (.seq none))) ∧
    exec .ecall s = .next (s.takeExc d (if c.user then 8 else 9) 0 c.pc) ∧
    (s.dbg.attached = false → exec .ebreak s = .next (s.takeExc d 3 c.pc.toNat c.pc)) ∧
    (∀ w, exec (.illegalInstruction w) s = .next (s.takeExc d 2 w.toNat c.pc)) ∧
    (∀ i, i.wf = true → i.onDirector = false → exec i s = .next (s.takeExc d 2 i.bits c.pc))

/-- R289: a running hart takes a trap in cue mode with no result pending and no work pushed in part. The hart is in house mode at tvec
with cause, pc and value saved, in no chorus; its registers and the CSRs a save holds are as they were. -/
def Claims.TrapEntry : Prop :=
  ∀ (s : State) (n code tval : Nat) (pc : Word),
    let h := s.hart n
    let h' := (s.takeTrap n code tval pc).hart n
    h.house = false → h.run = .active → h.pending = [] → code < 256 → tval < 2 ^ 64 →
    h'.house = true ∧ h'.pc = h.tvec ∧ h'.tcause.toNat = code ∧ h'.tepc = Claims.even pc ∧ h'.tval.toNat = tval ∧
    h'.role = .solo ∧ Claims.savedKept h h' ∧
    (h.cueptr = 0 → h.role = .solo → h.q0 = [] → h.q1 = [] → h.q2 = [] → s.watched n = false →
      (∀ j ∈ (s.cluster (hartCluster n)).jobs, j.hart = n → j.cfg = false) →
      s.takeTrap n code tval pc = s.setHart n { h with
        house := true, pc := h.tvec, tcause := BitVec.ofNat 8 code, tepc := Claims.even pc, tval := BitVec.ofNat 64 tval
        run := .active, trapped := true })

/-- R291: a trap in house mode is a double trap: the hart halts with the trap registers as they stood, and Stagehouse is
told, with the time (R449 counts them). Nothing else changes, but that a waiting sl.cfg of the hart loses its place. -/
def Claims.DoubleTrap : Prop :=
  ∀ (s : State) (n code tval : Nat) (pc : Word), (s.hart n).house = true →
    let u := s.takeTrap n code tval pc
    u.hart n = { s.hart n with run := .halted } ∧ u.doubleTraps = s.doubleTraps ++ [n] ∧
    u.trapTimes = s.trapTimes ++ [(n, s.time.toNat)] ∧ u.mem = s.mem ∧ (∀ m, m ≠ n → u.hart m = s.hart m) ∧
    ((∀ j ∈ (s.cluster (hartCluster n)).jobs, j.hart = n → j.cfg = false) →
      u = { s.setHart n { s.hart n with run := .halted } with
        doubleTraps := s.doubleTraps ++ [n], trapTimes := s.trapTimes ++ [(n, s.time.toNat)] })

/-- R290: tret. Illegal in cue mode. With no cue it only leaves house mode for tepc; with a record that is not a running
full save it is a double trap; otherwise the hart is in cue mode at tepc under the next register generation (R269). -/
def Claims.TrapReturn : Prop :=
  ∀ (s : State) (n : Nat), Free s n →
    let h := s.hart n
    (h.house = false → exec .tret s = .next (s.takeTrap n 0x01 (Instr.tret).bits h.pc)) ∧
    (h.house = true → h.cueptr = 0 → exec .tret s = .next (s.setHart n { h with
      house := false, trapped := false, pc := h.tepc, instret := h.instret + 1 })) ∧
    (h.house = true → h.cueptr ≠ 0 → ∀ bs t, hwRead n h.cueptr.toNat 64 s = (.ok bs, t) →
      let rcd := vecOf (PBytes.bytes bs)
      ((rcd.extractLsb' 160 4 ≠ 1 ∨ rcd.extractLsb' 172 2 ≠ 2) → ∃ u, exec .tret s = .next u ∧ (u.hart n).run = .halted ∧
        u.doubleTraps = t.doubleTraps ++ [n] ∧ (u.hart n).house = true ∧
        (u.hart n).tcause = h.tcause ∧ (u.hart n).tepc = h.tepc ∧ (u.hart n).tval = h.tval) ∧
      (rcd.extractLsb' 160 4 = 1 → rcd.extractLsb' 172 2 = 2 → ∃ u, exec .tret s = .next u ∧ (u.hart n).house = false ∧
        (u.hart n).pc = h.tepc ∧ (u.hart n).run = .active ∧
        (h.rgen ≠ 255 → (u.hart n).rgen = h.rgen + 1) ∧ (h.rgen = 255 → (u.hart n).rgen = 1)))

/-- R376 (and the RISC-V trap rules it names, log 6): an exception of a director core enters S-mode with cause, value and
pc saved, the old mode and interrupt enable stacked in sstatus. -/
def Claims.ExceptionEntry : Prop :=
  ∀ (s : State) (d code tval : Nat) (pc : Word), code < 2 ^ 63 →
    let c := s.dir d
    let t := s.takeExc d code tval pc
    let c' := t.dir d
    c'.user = false ∧ c'.sepc = pc ∧ c'.scause.toNat = code ∧ c'.stval = BitVec.ofNat 64 tval ∧
    c'.pc = BitVec.ofNat 64 (c.stvec.toNat / 4 * 4) ∧
    c'.sstatus = Claims.withBit (Claims.withBit (Claims.withBit c.sstatus 8 (!c.user)) 5 (c.sstatus.getLsbD 1)) 1 false ∧
    c'.resv = none ∧ c'.x = c.x ∧ c'.f = c.f ∧ c'.satp = c.satp ∧ c'.stvec = c.stvec ∧ c'.instret = c.instret ∧
    t.mem = s.mem ∧ t.harts = s.harts ∧ ∀ e, e ≠ d → t.dir e = s.dir e

/-! ### Memory (R123, R175-R180, R205-R211, R277, R375, R436, R437) -/

namespace Claims

/-- The number a run of bytes stands for, least significant byte first. -/
def number : List Byte → Nat
  | [] => 0
  | b :: t => b.toNat + 256 * number t

/-- Bytes, and whether the value is signed. -/
def ldShape : LdOp → Nat × Bool
  | .lb => (1, true)
  | .lh => (2, true)
  | .lw => (4, true)
  | .ld => (8, false)
  | .lbu => (1, false)
  | .lhu => (2, false)
  | .lwu => (4, false)
def stSize : StOp → Nat
  | .sb => 1
  | .sh => 2
  | .sw => 4
  | .sd => 8

/-- What a scalar load writes. -/
def loaded (op : LdOp) (bs : List Byte) : Word :=
  let v : Int := number bs
  let w := 8 * (ldShape op).1
  BitVec.ofInt 64 (if (ldShape op).2 && decide (2 ^ (w - 1) ≤ v) then v - 2 ^ w else v)

/-- The address of a scalar access. -/
def addr (base : Word) (off : BitVec 12) : Nat := (base + imm off).toNat

/-- A Zca load or store: operation, data register, base and offset. -/
def zcaLoad : ZcaOp → Option (LdOp × Reg × Reg × Nat)
  | .lw rd r v => some (.lw, x8 rd, x8 r, 4 * v.toNat)
  | .ld rd r v => some (.ld, x8 rd, x8 r, 8 * v.toNat)
  | .lwsp rd v => some (.lw, rd, 2, 4 * v.toNat)
  | .ldsp rd v => some (.ld, rd, 2, 8 * v.toNat)
  | _ => none
def zcaStore : ZcaOp → Option (StOp × Reg × Reg × Nat)
  | .sw q r v => some (.sw, x8 q, x8 r, 4 * v.toNat)
  | .sd q r v => some (.sd, x8 q, x8 r, 8 * v.toNat)
  | .swsp q v => some (.sw, q, 2, 4 * v.toNat)
  | .sdsp q v => some (.sd, q, 2, 8 * v.toNat)
  | _ => none

/-- The first byte of a hart's own bank (R175), and a granule of it. -/
def bankBase : Nat := 0xFFFFFFFFFFFE0000
def bankGran (s : State) (core i : Nat) : Gran := KMap.get {} (s.core core).gran i

/-- One live allocation of generation `g` covers the bytes `o` to `o + len` of a bank (R178). -/
def covered (s : State) (core o len : Nat) (g : BitVec 16) : Prop :=
  ∀ i, o / 32 ≤ i → i ≤ (o + len - 1) / 32 → (covering (s.core core).alloc (32 * i)).map (fun e => e.2.gen) = some g

/-- A byte of a granule as a read under generation `g` sees it, with its poison: zero where the granule is stale (R277). -/
def seen (r : Gran) (g : BitVec 16) (j : Nat) : Byte × Bool := if r.tag = g then (KMap.get 0 r.data j, r.poison) else (0, false)

/-- Byte `j` of a granule after the bytes at `o` to `o + bs.length` of its bank are written under generation `g`; `first`
is the granule's first byte. -/
def written (r : Gran) (g : BitVec 16) (first o : Nat) (bs : List Byte) (j : Nat) : Byte :=
  if o ≤ first + j ∧ first + j < o + bs.length then bs.getD (first + j - o) 0 else (seen r g j).1

/-- A global address (R175). -/
def isGlobal (va : Nat) : Prop := va < 2 ^ 56 ∨ (2 ^ 64 - 2 ^ 56 ≤ va ∧ va < 0xFFFFFFFFFFC00000)

/-- A cached translation covers the address under the root. -/
def hit (e : TlbEntry) (root : Word) (va : Nat) : Bool :=
  e.root == root && decide (e.vbase ≤ va % 2 ^ 57 ∧ va % 2 ^ 57 < e.vbase + 2 ^ e.size)

/-- It has the permission (R436): a write needs D. -/
def may (e : TlbEntry) : Acc → Prop
  | .read => e.r = true
  | .write => e.w = true ∧ e.dirty = true
  | .fetch => e.x = true

/-- The partition owns the physical address. -/
def has (p : Partition) (pa : Nat) : Prop := ∃ r ∈ p.ranges, r.1 ≤ pa ∧ pa < r.1 + r.2

/-- A global address that the micro-TLB of the hart's cluster maps, in memory its partition owns (R436, R437). -/
def maps (s : State) (n va : Nat) (k : Acc) (pa : Nat) : Prop :=
  isGlobal va ∧ ∃ q p e, s.partOfCluster (hartCluster n) = some (q, p) ∧
    (s.cluster (hartCluster n)).utlb.find? (fun e => hit e p.root va) = some e ∧ may e k ∧
    pa = e.pbase + (va % 2 ^ 57 - e.vbase) ∧ has p pa

/-- One that it maps without the permission, or to memory the partition does not own. -/
def denies (s : State) (n va : Nat) (k : Acc) : Prop :=
  isGlobal va ∧ ∃ q p e, s.partOfCluster (hartCluster n) = some (q, p) ∧
    (s.cluster (hartCluster n)).utlb.find? (fun e => hit e p.root va) = some e ∧
    (¬ may e k ∨ ¬ has p (e.pbase + (va % 2 ^ 57 - e.vbase)))

/-- An address a director core reaches in memory, not in the tables of R409 and R421. -/
def plain (s : State) (d va : Nat) : Prop :=
  ∀ y, s.symbols = some y → (s.dir d).user = true ∨
    ((va < y.qtab.toNat ∨ y.qtab.toNat + 8192 ≤ va) ∧ (va < y.ptab.toNat ∨ y.ptab.toNat + 73728 ≤ va))

/-- The translation of a director core: none in Bare mode, else an entry of its own (R437). The U bit of a page goes with
the mode (RISC-V, log 6); a thread stays in its partition's memory. -/
def dirMaps (s : State) (d va : Nat) (k : Acc) (pa : Nat) : Prop :=
  ((s.dir d).root = none ∧ pa = va) ∨
  ∃ root e, (s.dir d).root = some root ∧ isGlobal va ∧ (s.dir d).tlb.find? (fun e => hit e root va) = some e ∧ may e k ∧
    e.user = (s.dir d).user ∧ pa = e.pbase + (va % 2 ^ 57 - e.vbase) ∧
    ((s.dir d).user = true → ∀ q p, s.partOfDir d = some (q, p) → has p pa)
def dirDenies (s : State) (d va : Nat) (k : Acc) : Prop :=
  ∃ root e, (s.dir d).root = some root ∧ isGlobal va ∧ (s.dir d).tlb.find? (fun e => hit e root va) = some e ∧
    (s.dir d).mxr = false ∧ (¬ may e k ∨ ((s.dir d).user = true ∧
      (e.user = false ∨ ∃ q p, s.partOfDir d = some (q, p) ∧ ¬ has p (e.pbase + (va % 2 ^ 57 - e.vbase)))))

end Claims

/-- R123, R180, R205, R287 on a hart: a scalar load or store whose base reads, at an aligned address, moves exactly its
bytes, least significant first; a misaligned one, a poisoned base or datum, and an access that is refused take their trap.
Of a store the generation checks of both registers come before their poison (R288), and poison before any check of the
address (R180). -/
def Obligations.ScalarMemoryOnHart : Prop :=
  ∀ (s : State) (n : Nat), Free s n →
    let h := s.hart n
    (∀ op rd rs1 off, h.xUse rs1 →
      let i := Instr.scalarLoad op rd rs1 off
      let a := Claims.addr (h.xVal rs1) off
      (a % (Claims.ldShape op).1 = 0 →
        (∀ bs t, hartLoad n a (Claims.ldShape op).1 s = (.ok bs, t) →
          exec i s = .next ((t.setX n rd (Claims.loaded op (bs.map (·.1))) (bs.any (·.2))).done n i (.seq none))) ∧
        (∀ c v t, hartLoad n a (Claims.ldShape op).1 s = (.error (.trap c v), t) → exec i s = .next (t.takeTrap n c v h.pc))) ∧
      (a % (Claims.ldShape op).1 ≠ 0 → exec i s = .next (s.takeTrap n 0x05 a h.pc))) ∧
    (∀ op rs2 rs1 off, h.xUse rs1 → h.xUse rs2 →
      let i := Instr.scalarStore op rs2 rs1 off
      let a := Claims.addr (h.xVal rs1) off
      let bs := Claims.bytes (Claims.stSize op) (h.xVal rs2).toNat
      (a % Claims.stSize op = 0 →
        (∀ t, hartWrite n a bs s = (.ok (), t) → exec i s = .next (t.done n i (.seq none))) ∧
        (∀ c v t, hartWrite n a bs s = (.error (.trap c v), t) → exec i s = .next (t.takeTrap n c v h.pc))) ∧
      (a % Claims.stSize op ≠ 0 → exec i s = .next (s.takeTrap n 0x05 a h.pc))) ∧
    (∀ rs1, h.xReads rs1 → h.xPois rs1 = true →
      (∀ op rd off, exec (.scalarLoad op rd rs1 off) s = .next (s.takeTrap n 0x04 rs1.toNat h.pc)) ∧
      (∀ op rs2 off, h.xReads rs2 → exec (.scalarStore op rs2 rs1 off) s = .next (s.takeTrap n 0x04 rs1.toNat h.pc))) ∧
    (∀ op rs2 rs1 off, h.xReads rs1 →
      (¬ h.xReads rs2 → exec (.scalarStore op rs2 rs1 off) s = .next (s.takeTrap n 0x03 rs2.toNat h.pc)) ∧
      (h.xReads rs2 → h.xPois rs1 = false → h.xPois rs2 = true →
        exec (.scalarStore op rs2 rs1 off) s = .next (s.takeTrap n 0x04 rs2.toNat h.pc))) ∧
    (∀ c op rd r off, Claims.zcaLoad c = some (op, rd, r, off) → h.xUse r →
      let a := (h.xVal r + BitVec.ofNat 64 off).toNat
      a % (Claims.ldShape op).1 = 0 → ∀ bs t, hartLoad n a (Claims.ldShape op).1 s = (.ok bs, t) →
        exec (.zcaInstruction c) s =
          .next ((t.setX n rd (Claims.loaded op (bs.map (·.1))) (bs.any (·.2))).done n (.zcaInstruction c) (.seq none))) ∧
    (∀ c op q r off, Claims.zcaStore c = some (op, q, r, off) → h.xUse r → h.xUse q →
      let a := (h.xVal r + BitVec.ofNat 64 off).toNat
      a % Claims.stSize op = 0 → ∀ t, hartWrite n a (Claims.bytes (Claims.stSize op) (h.xVal q).toNat) s = (.ok (), t) →
        exec (.zcaInstruction c) s = .next (t.done n (.zcaInstruction c) (.seq none)))

/-- R375, R376 and the RISC-V exceptions on a director core: the same loads and stores; a misaligned one raises the
misaligned exception (log 6). -/
def Claims.DirectorScalarForms : Prop :=
  ∀ (s : State) (d : Nat), FreeDir s d →
    let c := s.dir d
    (∀ op rd rs1 off,
      let i := Instr.scalarLoad op rd rs1 off
      let a := Claims.addr (c.getX rs1) off
      (a % (Claims.ldShape op).1 = 0 →
        (∀ bs t, dirLoad d a (Claims.ldShape op).1 s = (.ok bs, t) →
          exec i s = .next ((t.setDirX d rd (Claims.loaded op bs)).doneDir d i (.seq none))) ∧
        (∀ e v t, dirLoad d a (Claims.ldShape op).1 s = (.error (.exc e v), t) → exec i s = .next (t.takeExc d e v c.pc))) ∧
      (a % (Claims.ldShape op).1 ≠ 0 → exec i s = .next (s.takeExc d 4 a c.pc))) ∧
    (∀ op rs2 rs1 off,
      let i := Instr.scalarStore op rs2 rs1 off
      let a := Claims.addr (c.getX rs1) off
      let bs := Claims.bytes (Claims.stSize op) (c.getX rs2).toNat
      (a % Claims.stSize op = 0 →
        (∀ t, dirWrite d a bs s = (.ok (), t) → exec i s = .next (t.doneDir d i (.seq none))) ∧
        (∀ e v t, dirWrite d a bs s = (.error (.exc e v), t) → exec i s = .next (t.takeExc d e v c.pc))) ∧
      (a % Claims.stSize op ≠ 0 → exec i s = .next (s.takeExc d 6 a c.pc)))

/-- R207, R212, R375, R436, R437: what a director core's load reads and its store does, inside one granule of memory. With
no write of the granule outstanding a load reads memory, and a poisoned byte raises the load access fault; a store enters
the buffer the director cores share, leaves memory as it is, and every director core then reads the bytes stored. An
address the core's own translation refuses is a page fault, and a store into a sealed region an access fault (log 6 for
the codes of RISC-V). -/
def Claims.DirectorMemory : Prop :=
  ∀ (s : State) (d va len : Nat), 0 < len → va < 2 ^ 64 → va % 32 + len ≤ 32 → Claims.plain s d va →
    (∀ pa, Claims.dirMaps s d va .read pa → pa % 32 = va % 32 → (∀ e ∈ s.dirBuf, e.loc ≠ 2 * (pa / 32)) →
      (∀ r ∈ s.log, r.loc ≠ 2 * (pa / 32)) →
      ∃ t, t.mem = s.mem ∧ t.log = s.log ∧ t.harts = s.harts ∧ t.dirBuf = s.dirBuf ∧ (∀ e, t.dir e = s.dir e) ∧
        dirLoad d va len s = (if KMap.get false s.memPoison (pa / 64) = true then .error (.exc 5 va)
          else .ok ((List.range len).map fun i => KMap.get 0 s.mem (pa + i)), t)) ∧
    (Claims.dirDenies s d va .read → dirLoad d va len s = (.error (.exc 13 va), s)) ∧
    ∀ bs : List Byte, bs.length = len →
      (Claims.dirDenies s d va .write → dirWrite d va bs s = (.error (.exc 15 va), s)) ∧
      ∀ pa, Claims.dirMaps s d va .write pa → pa % 32 = va % 32 →
        ((∃ r ∈ s.sealTable, r.1 ≤ pa ∧ pa < r.1 + r.2.1) → dirWrite d va bs s = (.error (.exc 7 va), s)) ∧
        ((∀ r ∈ s.sealTable, ¬ (r.1 ≤ pa ∧ pa < r.1 + r.2.1)) → (∀ e ∈ s.dirBuf, e.loc = 2 * (pa / 32) → e.gen = 0) →
          ∃ t, dirWrite d va bs s = (.ok (), t) ∧ t.mem = s.mem ∧ t.log = s.log ∧ t.harts = s.harts ∧ t.cores = s.cores ∧
            (∀ e, e.loc ≠ 2 * (pa / 32) → (e ∈ t.dirBuf ↔ e ∈ s.dirBuf)) ∧
            ∀ m, Claims.plain t m va → Claims.dirMaps t m va .read pa → KMap.get false s.memPoison (pa / 64) = false →
              (∀ r ∈ s.log, r.loc = 2 * (pa / 32) → r.before.poison = false) →
              ∃ u, dirLoad m va len t = (.ok bs, u) ∧ u.mem = s.mem)

/-- R421, R428 (log 82): a core in S-mode reads the words of a play-table entry where Stagehouse has the table mapped; its
store to one of the four words software writes changes that word of that entry alone. -/
def Claims.PlayTableMapped : Prop :=
  ∀ (s : State) (d e : Nat) (y : Symbols), s.symbols = some y → (s.dir d).user = false → e < 1024 →
    y.ptab.toNat + 73728 ≤ 2 ^ 64 →
    let a (k : Nat) : Nat := y.ptab.toNat + 64 * e + 8 * k
    let x := KMap.get {} s.ptab e
    (∀ k w, (k, w) ∈ [(0, x.w0), (1, x.w1), (2, x.w2), (3, x.w3), (4, x.w4)] →
      dirLoad d (a k) 8 s = (.ok (Claims.bytes 8 w.toNat), s)) ∧
    (∀ k (v : Word), k < 4 → ∃ t, dirWrite d (a k) (Claims.bytes 8 v.toNat) s = (.ok (), t) ∧
      KMap.get {} t.ptab e = (if k = 0 then { x with w0 := v } else if k = 1 then { x with w1 := v } else if k = 2 then { x with w2 := v }
        else { x with w3 := v }) ∧
      (∀ f, f ≠ e → KMap.get {} t.ptab f = KMap.get {} s.ptab f) ∧ t = { s with ptab := t.ptab })

/-- R175, R178, R205, R277: a load from the hart's own bank under one live allocation, with no buffered store to it, reads
the granules as they are: zero where stale, unless stale reads trap. It changes nothing. -/
def Claims.OwnBankLoad : Prop :=
  ∀ (s : State) (n o len : Nat) (g : BitVec 16), 0 < len → o + len ≤ 2 ^ 17 →
    let core := n / 4
    Claims.covered s core o len g →
    (∀ e ∈ (s.core core).psb, e.loc % 2 = 0) →
    ((s.hart n).gmode.getLsbD 1 = false ∨ (s.hart n).house = true ∨
      ∀ i, o / 32 ≤ i → i ≤ (o + len - 1) / 32 → (Claims.bankGran s core i).tag = g) →
    hartLoad n (Claims.bankBase + o) len s =
      (.ok ((List.range len).map fun i => Claims.seen (Claims.bankGran s core ((o + i) / 32)) g ((o + i) % 32)), s)

/-- R175, R178, R199, R207, R277: a store to the hart's own bank under one live allocation that is not sealed lands in
place. Every byte of the granules it touches is as `written` says, under the allocation's generation; every other granule
of every bank, and all of memory, is as before. -/
def Claims.OwnBankStore : Prop :=
  ∀ (s : State) (n o : Nat) (bs : List Byte) (g : BitVec 16), 0 < bs.length → o + bs.length ≤ 2 ^ 17 →
    let core := n / 4
    Claims.covered s core o bs.length g →
    (∀ i, o / 32 ≤ i → i ≤ (o + bs.length - 1) / 32 → ∀ e, covering (s.core core).alloc (32 * i) = some e → e.2.sealed = false) →
    ∃ t, hartWrite n (Claims.bankBase + o) bs s = (.ok (), t) ∧
      t.mem = s.mem ∧ t.memPoison = s.memPoison ∧ t.harts = s.harts ∧ t.clusters = s.clusters ∧ t.dirs = s.dirs ∧
      (∀ c, c ≠ core → t.core c = s.core c) ∧ (t.core core).alloc = (s.core core).alloc ∧ (t.core core).psb = (s.core core).psb ∧
      ∀ i, i < 4096 →
        (o / 32 ≤ i ∧ i ≤ (o + bs.length - 1) / 32 →
          (Claims.bankGran t core i).tag = g ∧
          ∀ j, j < 32 → KMap.get 0 (Claims.bankGran t core i).data j = Claims.written (Claims.bankGran s core i) g (32 * i) o bs j) ∧
        (¬ (o / 32 ≤ i ∧ i ≤ (o + bs.length - 1) / 32) → Claims.bankGran t core i = Claims.bankGran s core i)

/-- R175, R178, R287: an own-bank access whose first byte no live allocation covers takes the unallocated-scratchpad trap
with that address, and a stale read traps where gmode.smem asks for it. -/
def Claims.BankTraps : Prop :=
  ∀ (s : State) (n o len : Nat), 0 < len → o + len ≤ 2 ^ 17 →
    let core := n / 4
    (covering (s.core core).alloc (o / 32 * 32) = none →
      hartLoad n (Claims.bankBase + o) len s = (.error (.trap 0x06 (Claims.bankBase + o)), s) ∧
      ∀ bs : List Byte, bs.length = len → hartWrite n (Claims.bankBase + o) bs s = (.error (.trap 0x06 (Claims.bankBase + o)), s)) ∧
    (∀ g, Claims.covered s core o len g → (s.hart n).house = false → (s.hart n).gmode.getLsbD 1 = true →
      (∀ e ∈ (s.core core).psb, e.loc % 2 = 0) → (Claims.bankGran s core (o / 32)).tag ≠ g →
      hartLoad n (Claims.bankBase + o) len s = (.error (.trap 0x03 (Claims.bankBase + o)), s)) ∧
    (∀ g, Claims.covered s core o len g → (∃ e, covering (s.core core).alloc (o / 32 * 32) = some e ∧ e.2.sealed = true) →
      ∀ bs : List Byte, bs.length = len → hartWrite n (Claims.bankBase + o) bs s = (.error (.trap 0x07 (Claims.bankBase + o)), s))

/-- R436, R437: a load of bytes inside one granule of memory that the micro-TLB maps, with no write of the granule
outstanding, no buffered store and no soft error in its cached line, reads memory; an address that is in no row of the
address map, one of a hart in no partition, and one the micro-TLB maps without the permission or to memory its partition
does not own, take a page fault with that address (log 16). -/
def Claims.GlobalLoad : Prop :=
  ∀ (s : State) (n va len : Nat), 0 < len → va < 2 ^ 64 → va % 32 + len ≤ 32 →
    (∀ pa, Claims.maps s n va .read pa → pa % 32 = va % 32 → (∀ e ∈ (s.core (n / 4)).psb, e.loc ≠ 2 * (pa / 32)) →
      (∀ r ∈ s.log, r.loc ≠ 2 * (pa / 32)) → (pa / 64, true) ∉ (s.core (n / 4)).cache →
      ∃ t, hartLoad n va len s =
          (.ok ((List.range len).map fun i => (KMap.get 0 s.mem (pa + i), KMap.get false s.memPoison (pa / 64))), t) ∧
        t.mem = s.mem ∧ t.cores = s.cores ∧ t.log = s.log ∧ ∀ m, t.hart m = s.hart m) ∧
    (2 ^ 56 ≤ va → va < 2 ^ 64 - 2 ^ 56 → hartLoad n va len s = (.error (.trap 0x0C va), s)) ∧
    (va < 2 ^ 56 → s.partOfCluster (hartCluster n) = none → hartLoad n va len s = (.error (.trap 0x0C va), s)) ∧
    (Claims.denies s n va .read → hartLoad n va len s = (.error (.trap 0x0C va), s)) ∧
    (Claims.denies s n va .write → ∀ bs : List Byte, bs.length = len → hartWrite n va bs s = (.error (.trap 0x0C va), s))

/-- R207, R211: a store inside one granule of memory that the micro-TLB maps enters the phase store buffer and leaves memory
as it is; the hart, and the other harts of its core, then read the bytes stored. -/
def Claims.StoreThenLoad : Prop :=
  ∀ (s : State) (n va pa : Nat) (bs : List Byte), 0 < bs.length → va < 2 ^ 64 → va % 32 + bs.length ≤ 32 →
    Claims.maps s n va .write pa → pa % 32 = va % 32 →
    (∀ r ∈ s.sealTable, ¬ (r.1 ≤ pa ∧ pa < r.1 + r.2.1)) →
    (s.core (n / 4)).psb.length < 512 → (∀ e ∈ (s.core (n / 4)).psb, e.loc = 2 * (pa / 32) → e.gen = 0) →
    ∃ t, hartWrite n va bs s = (.ok (), t) ∧ t.mem = s.mem ∧ t.log = s.log ∧ t.harts = s.harts ∧
      (∀ c, c ≠ n / 4 → t.core c = s.core c) ∧ (t.core (n / 4)).gran = (s.core (n / 4)).gran ∧
      (∀ e, e.loc ≠ 2 * (pa / 32) → (e ∈ (t.core (n / 4)).psb ↔ e ∈ (s.core (n / 4)).psb)) ∧
      ∀ m, m / 4 = n / 4 → Claims.maps t m va .read pa →
        ∃ (p : Bool) (u : State), hartLoad m va bs.length t = (.ok (bs.map fun b => (b, p)), u) ∧ u.mem = s.mem

/-- The canonical form of memory (rising addresses, nothing listed that reads as an unlisted byte) is kept by a write of
bytes, which changes its own bytes only, by the stores of harts and director cores, by releases and refreshes, and by
trap entry with its save. -/
def Obligations.MemoryCanonical : Prop :=
  (∀ (m : KMap Byte) (a : Nat) (bs : List Byte), Memory.wf m = true → Memory.wf (Memory.setBytes m a bs) = true) ∧
  (∀ (m : KMap Byte) (a : Nat) (bs : List Byte) (q : Nat), Memory.byte (Memory.setBytes m a bs) q =
    if a ≤ q ∧ q < a + bs.length then bs.getD (q - a) 0 else Memory.byte m q) ∧
  ∀ (s : State), Memory.wf s.mem = true →
    (∀ n a bs, Memory.wf (hartWrite n a bs s).2.mem = true) ∧ (∀ d a bs, Memory.wf (dirWrite d a bs s).2.mem = true) ∧
    (∀ a scope, Memory.wf (s.release a scope).mem = true) ∧ (∀ a scope, Memory.wf (s.refresh a scope).mem = true) ∧
    (∀ n c v pc, Memory.wf (s.takeTrap n c v pc).mem = true)

/-! ### Vector forms (R56, R82-R119, R149-R173) -/

namespace Claims

/-- Lane width and lane count of a format code (R149, R27). -/
def width (f : Nat) : Nat :=
  if f = 1 ∨ f = 9 then 64 else if f = 2 ∨ f = 7 ∨ f = 10 then 32 else if f = 3 ∨ f = 4 ∨ f = 11 then 16
  else if f = 13 then 128 else 8
def count (f : Nat) : Nat := 512 / width f

/-- Lane j of a register, and the register whose lanes a function gives. -/
def laneAt (w : Nat) (v : Vec) (j : Nat) : Nat := v.toNat / 2 ^ (w * j) % 2 ^ w
def join (w cnt : Nat) (L : Nat → Nat) : Vec :=
  BitVec.ofNat 512 ((List.range cnt).map fun j => L j % 2 ^ w * 2 ^ (w * j)).sum

/-- The events of lanes together. -/
def raised (cnt : Nat) (E : Nat → Events) : BitVec 5 := (List.range cnt).foldl (fun a j => a ||| (E j).toBits) 0

/-- A mask register, and whether the mask of an instruction has lane j active: m0 has every lane (R150). -/
def mreg (m : BitVec 3) : Reg := BitVec.ofNat 5 m.toNat
def on (h : Hart) (o : LOpts) (j : Nat) : Bool := (h.mVal (mreg o.m)).getLsbD j

/-- The register merged into is read only under a mask (R99). -/
def merged (o : LOpts) (vd : Reg) (tags : List Nat) : List (Reg × List Nat) := if o.m = 0 then [] else [(vd, tags)]

/-- Every register the form reads can be read: v sources with the tags they may carry, the mask, x sources (R98, R151). -/
def reads (h : Hart) (o : LOpts) (vs : List (Reg × List Nat)) (xs : List Reg) : Prop :=
  (∀ p ∈ vs, h.vUse p.1 p.2) ∧ h.mReads (mreg o.m) ∧ ∀ r ∈ xs, h.xReads r

/-- The OR of the poison of every register read (R151). -/
def poison (h : Hart) (o : LOpts) (vs : List (Reg × List Nat)) (xs : List Reg) : Bool :=
  vs.any (fun p => h.vPois p.1) || h.mPois (mreg o.m) || xs.any h.xPois

/-- What a lane-wise form gives: the function's value in active lanes, the old lanes elsewhere; the events of the active
lanes (R151). -/
def laneResult (h : Hart) (o : LOpts) (vd : Reg) (f : Nat) (poison : Bool) (g : Nat → Nat × Events) : Pending :=
  { window := 0
    vs := [(vd, { val := join (width f) (count f) fun j => if on h o j then (g j).1 else laneAt (width f) (h.vVal vd) j
                  fmt := BitVec.ofNat 4 f, poison := poison })]
    events := raised (count f) fun j => if on h o j then (g j).2 else {} }

/-- The form completes with a result given at once or, with a lookahead, later. -/
def gives (s : State) (n : Nat) (i : Instr) (p : Pending) : Prop := exec i s = .next ((s.gave n i p).done n i (.seq none))

/-- The rounding mode of a field: 0 rne, 1 rtz, 2 rdn, 3 rup, 4 rmm, 7 what vrm holds (R56, R127). -/
def mode (k : Nat) : Option RM := [RM.rne, .rtz, .rdn, .rup, .rmm][k]?
def rounding (h : Hart) (o : LOpts) : Option ROpts :=
  (mode (if o.rm = 7 then h.vrm.toNat else o.rm.toNat)).map fun rm =>
    { rm := rm, sat := o.sat, fi := !o.ed1 && o.fi, fo := !o.ed1 && o.fo }

/-- The forms on one, two and three float lanes. -/
def fp1 : List ((LOpts → BitVec 4 → Reg → Reg → Instr) × (FFmt → ROpts → Nat → Nat × Events)) :=
  [(.vsqrt, fSqrt), (.vrcp, fRcp), (.vrsqrt, fRsqrt), (.vexp2, fExp2), (.vlog2, fLog2)]
def fp2 : List ((LOpts → BitVec 4 → Reg → Reg → Reg → Instr) × (FFmt → ROpts → Nat → Nat → Nat × Events)) :=
  [(.vaddFp, fAdd), (.vsubFp, fSub), (.vmulFp, fMul), (.vdiv, fDiv),
   (.vminFp, fun f r a b => (fMinMax f false r.fi a b, {})), (.vmaxFp, fun f r a b => (fMinMax f true r.fi a b, {}))]
def fp3 : List ((LOpts → BitVec 4 → Reg → Reg → Reg → Reg → Instr) × Bool) := [(.vfma, false), (.vfms, true)]

/-- A w-bit lane as an integer, and an integer as a lane: modulo 2^w, or clamped (R88, R155). -/
def asInt (w : Nat) (uns : Bool) (x : Nat) : Int := if uns then x else if 2 * x < 2 ^ w then x else (x : Int) - 2 ^ w
def least (w : Nat) (uns : Bool) : Int := if uns then 0 else -2 ^ (w - 1)
def most (w : Nat) (uns : Bool) : Int := if uns then 2 ^ w - 1 else 2 ^ (w - 1) - 1
def toLane (w : Nat) (v : Int) : Nat := (v % 2 ^ w).toNat
def narrow (w : Nat) (uns sat : Bool) (v : Int) : Nat := toLane w (if sat then max (least w uns) (min (most w uns) v) else v)

/-- The integer forms: what they compute on w-bit lanes. -/
def int2 : List ((LOpts → Elem → Reg → Reg → Reg → Instr) × (Nat → Bool → Bool → Int → Int → Nat)) :=
  [(.vaddInt, fun w u sat a b => narrow w u sat (a + b)), (.vsubInt, fun w u sat a b => narrow w u sat (a - b)),
   (.vmulInt, fun w u sat a b => narrow w u sat (a * b)), (.vminInt, fun w _ _ a b => toLane w (min a b)),
   (.vmaxInt, fun w _ _ a b => toLane w (max a b))]
def shift2 : List ((LOpts → BitVec 4 → Reg → Reg → Reg → Instr) × (Nat → Nat → Nat → Nat)) :=
  [(.vsll, fun _ a k => a * 2 ^ k), (.vsrl, fun _ a k => a / 2 ^ k), (.vsra, fun w a k => toLane w (asInt w false a / 2 ^ k))]
def bit2 : List ((LOpts → BitVec 4 → Reg → Reg → Reg → Instr) × (Nat → Nat → Nat)) :=
  [(.vand, fun a b => a &&& b), (.vor, fun a b => a ||| b), (.vxor, fun a b => a ^^^ b)]

/-- The condition codes on the order of two operands, none where one is NaN (R158). -/
def holds (cond : Nat) (c : Option Ordering) : Bool :=
  match c with
  | none => cond == 1 || cond == 6
  | some c =>
    match cond with
    | 0 => c == .eq
    | 1 => c != .eq
    | 2 => c == .lt
    | 3 => c != .gt
    | 4 => c == .gt
    | 5 => c != .lt
    | 6 => false
    | _ => true

/-- The mask a compare writes: the condition in active lanes, the old bits in the others, zero above `cnt`. -/
def maskOf (cnt : Nat) (B : Nat → Bool) : Word := BitVec.ofNat 64 ((List.range cnt).map fun j => if B j then 2 ^ j else 0).sum
def maskResult (h : Hart) (o : LOpts) (md : BitVec 3) (cnt : Nat) (pois : Bool) (act c : Nat → Bool) : Pending :=
  { window := 0
    ms := [(mreg md, { val := maskOf cnt fun j => if act j then c j else (h.mVal (mreg md)).getLsbD j
                       poison := pois || (o.m != 0 && h.mPois (mreg md)) })] }

/-- The functions of vmlog, bit by bit (R160). -/
def logic (op : Nat) (a b : Bool) : Bool :=
  match op with
  | 0 => a && b
  | 1 => a || b
  | 2 => a != b
  | 3 => a && !b
  | 4 => a || !b
  | 5 => !(a && b)
  | 6 => !(a || b)
  | _ => a == b

end Claims

/-- R151 on the float forms of classes 1 and 4: in every active lane the format's operation of R153, R154 or R161 on the
lanes of the sources, in every other the old lane; the destination carries the format, the OR of the poison read, and the
events of the active lanes. A dynamic rounding mode that vrm does not hold makes a rounding form illegal (R56). -/
def Obligations.VectorFloat : Prop :=
  ∀ (s : State) (n : Nat), Free s n →
    let h := s.hart n
    ∀ (o : LOpts) (f : BitVec 4) (vd : Reg),
    let k := f.toNat
    let ln (r : Reg) (j : Nat) : Nat := Claims.laneAt (Claims.width k) (h.vVal r) j
    (∀ r, Claims.rounding h o = some r →
      (∀ q ∈ Claims.fp1, ∀ va, let vs := (va, [k]) :: Claims.merged o vd [k]
        Claims.reads h o vs [] → Claims.gives s n (q.1 o f vd va)
          (Claims.laneResult h o vd k (Claims.poison h o vs []) fun j => q.2 (ffmt k) r (ln va j))) ∧
      (∀ q ∈ Claims.fp2, ∀ va vb, let vs := (va, [k]) :: (vb, [k]) :: Claims.merged o vd [k]
        Claims.reads h o vs [] → Claims.gives s n (q.1 o f vd va vb)
          (Claims.laneResult h o vd k (Claims.poison h o vs []) fun j => q.2 (ffmt k) r (ln va j) (ln vb j))) ∧
      (∀ q ∈ Claims.fp3, ∀ va vb vc, let vs := (va, [k]) :: (vb, [k]) :: (vc, [k]) :: Claims.merged o vd [k]
        Claims.reads h o vs [] → Claims.gives s n (q.1 o f vd va vb vc)
          (Claims.laneResult h o vd k (Claims.poison h o vs []) fun j => fFma (ffmt k) r q.2 (ln va j) (ln vb j) (ln vc j)))) ∧
    (Claims.rounding h o = none →
      (∀ q ∈ Claims.fp1, ∀ va, exec (q.1 o f vd va) s = .next (s.takeTrap n 0x01 (q.1 o f vd va).bits h.pc)) ∧
      (∀ q ∈ Claims.fp2, ∀ va vb, exec (q.1 o f vd va vb) s = .next (s.takeTrap n 0x01 (q.1 o f vd va vb).bits h.pc)))

/-- R155 to R157: the integer forms compute the exact result of their lanes and keep it modulo 2^w, or clamp it; the shifts
take the amount modulo the lane width; the bitwise forms check no tag and give that of the first source (R100). None
raises an event. -/
def Obligations.VectorInteger : Prop :=
  ∀ (s : State) (n : Nat), Free s n →
    let h := s.hart n
    ∀ (o : LOpts) (vd va vb : Reg),
    (∀ q ∈ Claims.int2, ∀ e : Elem, let k := e.code.toNat
      let w := Claims.width k
      let vs := (va, [k]) :: (vb, [k]) :: Claims.merged o vd [k]
      Claims.reads h o vs [] → Claims.gives s n (q.1 o e vd va vb) (Claims.laneResult h o vd k (Claims.poison h o vs []) fun j =>
        (q.2 w e.uns o.sat (Claims.asInt w e.uns (Claims.laneAt w (h.vVal va) j)) (Claims.asInt w e.uns (Claims.laneAt w (h.vVal vb) j)), {}))) ∧
    (∀ q ∈ Claims.shift2, ∀ f : BitVec 4, let k := f.toNat
      let w := Claims.width k
      let vs := (va, [k]) :: (vb, [k]) :: Claims.merged o vd [k]
      Claims.reads h o vs [] → Claims.gives s n (q.1 o f vd va vb) (Claims.laneResult h o vd k (Claims.poison h o vs []) fun j =>
        (q.2 w (Claims.laneAt w (h.vVal va) j) (Claims.laneAt w (h.vVal vb) j % w), {}))) ∧
    (∀ q ∈ Claims.bit2, ∀ f : BitVec 4, let w := Claims.width f.toNat
      let any := List.range 16
      let vs := (va, any) :: (vb, any) :: Claims.merged o vd any
      Claims.reads h o vs [] → Claims.gives s n (q.1 o f vd va vb)
        { window := 0, vs := [(vd, {
            val := Claims.join w (512 / w) fun j => if Claims.on h o j
              then q.2 (Claims.laneAt w (h.vVal va) j) (Claims.laneAt w (h.vVal vb) j) else Claims.laneAt w (h.vVal vd) j
            fmt := BitVec.ofNat 4 (h.vFmt va), poison := Claims.poison h o vs [] })] })

/-- R158 to R160: compares, selection and mask logic. -/
def Obligations.VectorCompareSelect : Prop :=
  ∀ (s : State) (n : Nat), Free s n →
    let h := s.hart n
    ∀ (o : LOpts) (va vb : Reg),
    (∀ (e : Elem) (cond md : BitVec 3), let k := e.code.toNat
      let w := Claims.width k
      let vs := [(va, [k]), (vb, [k])]
      Claims.reads h o vs [] → (o.m = 0 ∨ h.mReads (Claims.mreg md)) → Claims.gives s n (.vcmpInt o e cond md va vb)
        (Claims.maskResult h o md (Claims.count k) (Claims.poison h o vs []) (Claims.on h o) fun j =>
          Claims.holds cond.toNat (some (compare (Claims.asInt w e.uns (Claims.laneAt w (h.vVal va) j))
            (Claims.asInt w e.uns (Claims.laneAt w (h.vVal vb) j)))))) ∧
    (∀ (f : BitVec 4) (cond md : BitVec 3), let k := f.toNat
      let w := Claims.width k
      let vs := [(va, [k]), (vb, [k])]
      k ≠ 7 → Claims.reads h o vs [] → (o.m = 0 ∨ h.mReads (Claims.mreg md)) → Claims.gives s n (.vcmpFp o f cond md va vb)
        (Claims.maskResult h o md (Claims.count k) (Claims.poison h o vs []) (Claims.on h o) fun j =>
          Claims.holds cond.toNat (fOrder (ffmt k) (!o.ed1 && o.fi) (Claims.laneAt w (h.vVal va) j) (Claims.laneAt w (h.vVal vb) j)))) ∧
    (∀ (cond md : BitVec 3), let vs := [(va, [7]), (vb, [7])]
      let el (r : Reg) (e : Nat) : Nat := log6Elem (Claims.laneAt 32 (h.vVal r) (e / 5)) (e % 5)
      Claims.reads h o vs [] → (o.m = 0 ∨ h.mReads (Claims.mreg md)) → Claims.gives s n (.vcmpFp o 7 cond md va vb)
        (Claims.maskResult h o md 64 (Claims.poison h o vs []) (fun e => Claims.on h o (e / 5)) fun e =>
          Claims.holds cond.toNat (log6Order (el va e) (el vb e)))) ∧
    (∀ (f : BitVec 4) (vd : Reg) (ms : BitVec 3), let k := f.toNat
      let w := Claims.width k
      let vs := (va, [k]) :: (vb, [k]) :: Claims.merged o vd [k]
      Claims.reads h o vs [] → h.mReads (Claims.mreg ms) → Claims.gives s n (.vsel o f vd va vb ms)
        (Claims.laneResult h o vd k (Claims.poison h o vs [] || h.mPois (Claims.mreg ms)) fun j =>
          (Claims.laneAt w (h.vVal (if (h.mVal (Claims.mreg ms)).getLsbD j then va else vb)) j, {}))) ∧
    (∀ op md ma mb, h.mReads (Claims.mreg ma) → h.mReads (Claims.mreg mb) → Claims.gives s n (.vmlog o op md ma mb)
      { window := 0, ms := [(Claims.mreg md, {
          val := Claims.maskOf 64 fun j => Claims.logic op.toNat ((h.mVal (Claims.mreg ma)).getLsbD j) ((h.mVal (Claims.mreg mb)).getLsbD j)
          poison := h.mPois (Claims.mreg ma) || h.mPois (Claims.mreg mb) })] }) ∧
    (∀ xd ma, h.mReads (Claims.mreg ma) → Claims.gives s n (.vmpop o xd ma)
      { window := 0, xs := [(xd, {
          val := BitVec.ofNat 64 ((List.range 64).countP fun j => (h.mVal (Claims.mreg ma)).getLsbD j)
          poison := h.mPois (Claims.mreg ma) })] })

/-- R171 to R173: vlmul multiplies the five elements of each word; vldot adds the exact sums of its lanes to eight 64-bit
accumulators, and a NaN pair leaves the marker; vgumbel adds the noise of its seed and index with one rounding. -/
def Obligations.VectorLogForms : Prop :=
  ∀ (s : State) (n : Nat), Free s n →
    let h := s.hart n
    ∀ (o : LOpts) (vd va : Reg),
    (∀ vb r, Claims.rounding h o = some r → let vs := (va, [7]) :: (vb, [7]) :: Claims.merged o vd [7]
      Claims.reads h o vs [] → Claims.gives s n (.vlmul o vd va vb) (Claims.laneResult h o vd 7 (Claims.poison h o vs []) fun j =>
        let a := Claims.laneAt 32 (h.vVal va) j
        let b := Claims.laneAt 32 (h.vVal vb) j
        let m (e : Nat) : Nat × Events := log6Mul r.rm o.sat (log6Elem a e) (log6Elem b e)
        ((m 0).1 + 2 ^ 6 * (m 1).1 + 2 ^ 12 * (m 2).1 + 2 ^ 18 * (m 3).1 + 2 ^ 24 * (m 4).1,
          ((m 0).2.or ((m 1).2.or ((m 2).2.or ((m 3).2.or (m 4).2)))).or { nv := decide (2 ^ 30 ≤ a) || decide (2 ^ 30 ≤ b) }))) ∧
    (∀ vb g, let sz := 2 ^ g.toNat
      let rs (b : Reg) : List Reg := (List.range sz).map fun i => b + BitVec.ofNat 5 i
      let vs := (rs va).map (fun r => (r, [7])) ++ (rs vb).map (fun r => (r, [7])) ++ [(vd, [9])]
      let word (r : Reg) (q L c : Nat) : Nat := Claims.laneAt 32 (h.vVal (r + BitVec.ofNat 5 q)) (2 * L + c)
      let terms (L : Nat) : List (Option Int) := (List.range sz).flatMap fun q => (List.range 2).flatMap fun c =>
        (List.range 5).map fun e => log6Term (log6Elem (word va q L c) e) (log6Elem (word vb q L c) e)
      let bad (L : Nat) : Bool := (List.range sz).any fun q => (List.range 2).any fun c =>
        decide (2 ^ 30 ≤ word va q L c) || decide (2 ^ 30 ≤ word vb q L c)
      Claims.reads h o vs [] → Claims.gives s n (.vldot o g vd va vb) {
        window := 0
        events := Claims.raised 8 fun L => { nv := Claims.on h o L && bad L }
        vs := [(vd, {
          fmt := 9
          poison := Claims.poison h o vs []
          val := Claims.join 64 8 fun L =>
            let acc := Claims.laneAt 64 (h.vVal vd) L
            if !Claims.on h o L then acc
            else if (terms L).any (·.isNone) || acc == 2 ^ 63 then 2 ^ 63
            else Claims.toLane 64 ((acc : Int) + ((terms L).map fun t => t.getD 0).sum) })] }) ∧
    (∀ xs xb r, Claims.rounding h o = some r → let vs := (va, [2]) :: Claims.merged o vd [2]
      Claims.reads h o vs [xs, xb] → Claims.gives s n (.vgumbel o vd va xs xb)
        (Claims.laneResult h o vd 2 (Claims.poison h o vs [xs, xb]) fun j =>
          fAdd fp32 r (Claims.laneAt 32 (h.vVal va) j) (gumbel (h.xVal xs) (BitVec.ofNat 64 ((h.xVal xb).toNat + j)))))

/-- R98, R151, R266, R267, R287: the checks of a vector form come in the order of its operands. A first source that is not
live traps as a stale read where gmode.reg asks for it, and one of another format as a format mismatch, each with the
register's id; nothing is written. -/
def Obligations.VectorChecks : Prop :=
  ∀ (s : State) (n : Nat), Free s n →
    let h := s.hart n
    ∀ (o : LOpts) (vd va vb : Reg),
    (∀ q ∈ Claims.fp2, ∀ f r, Claims.rounding h o = some r →
      (¬ h.vReads va → exec (q.1 o f vd va vb) s = .next (s.takeTrap n 0x03 (32 + va.toNat) h.pc)) ∧
      (h.vReads va → h.vFmt va ≠ 0 → h.vFmt va ≠ f.toNat → exec (q.1 o f vd va vb) s = .next (s.takeTrap n 0x02 (32 + va.toNat) h.pc)) ∧
      (h.vUse va [f.toNat] → h.vReads vb → h.vFmt vb ≠ 0 → h.vFmt vb ≠ f.toNat →
        exec (q.1 o f vd va vb) s = .next (s.takeTrap n 0x02 (32 + vb.toNat) h.pc)) ∧
      (h.vUse va [f.toNat] → h.vUse vb [f.toNat] → o.m ≠ 0 → ¬ h.mReads (Claims.mreg o.m) →
        exec (q.1 o f vd va vb) s = .next (s.takeTrap n 0x03 (64 + o.m.toNat) h.pc)) ∧
      (h.vUse va [f.toNat] → h.vUse vb [f.toNat] → o.m ≠ 0 → h.mReads (Claims.mreg o.m) → h.vReads vd → h.vFmt vd ≠ 0 →
        h.vFmt vd ≠ f.toNat → exec (q.1 o f vd va vb) s = .next (s.takeTrap n 0x02 (32 + vd.toNat) h.pc))) ∧
    (∀ q ∈ Claims.int2, ∀ e : Elem,
      (¬ h.vReads va → exec (q.1 o e vd va vb) s = .next (s.takeTrap n 0x03 (32 + va.toNat) h.pc)) ∧
      (h.vReads va → h.vFmt va ≠ 0 → h.vFmt va ≠ e.code.toNat → exec (q.1 o e vd va vb) s = .next (s.takeTrap n 0x02 (32 + va.toNat) h.pc)))

/-! ### Vector classes 3 and 5 (R94, R95, R102-R105, R109, R111-R117, R163-R170) -/

namespace Claims

def isFp (f : Nat) : Bool := decide (1 ≤ f ∧ f ≤ 6)

/-- One element of a format converted to another (R111 to R117). -/
def conv (d : Elem) (s : Elem) (r : ROpts) (x : Nat) : Nat × Events :=
  let kd := d.code.toNat
  let ks := s.code.toNat
  if ks = 7 ∧ kd = 7 then (x, {})
  else if ks = 7 then log6ToF (ffmt kd) r x
  else if kd = 7 then fToLog6 (ffmt ks) r x
  else if isFp ks && isFp kd then
    if ks = kd then (if (ffmt ks).isNan x then (ffmt ks).nanBits else (ffmt ks).flushIn r.fi x, {}) else fToF (ffmt ks) (ffmt kd) r x
  else if isFp ks then fToInt (ffmt ks) (width kd) d.uns r x
  else if isFp kd then intToF (ffmt kd) r (asInt (width ks) s.uns x)
  else (narrow (width kd) d.uns (r.sat && decide (width kd ≤ width ks)) (asInt (width ks) s.uns x), {})

/-- Elements of a format, log6 counted in elements, and the element of a register with the reserved-word flag (R91). -/
def elems (f : Nat) : Nat := if f = 7 then 80 else count f
def elemAt (f : Nat) (v : Vec) (i : Nat) : Nat × Bool :=
  if f = 7 then (log6Elem (laneAt 32 v (i / 5)) (i % 5), decide (2 ^ 30 ≤ laneAt 32 v (i / 5))) else (laneAt (width f) v i, false)

/-- The source element that part `p` converts into destination element `i` (R167). -/
def partSrc (d s p i : Nat) : Option Nat :=
  if elems d ≤ elems s then (if p * elems d + i < elems s then some (p * elems d + i) else none)
  else if p * elems s ≤ i ∧ i < p * elems s + elems s then some (i - p * elems s) else none

/-- Node j of level L of the tree over the active lanes (R104), and what all nodes raise. -/
def node (g : Nat → Nat → Nat × Events) (leaf : Nat → Option Nat) : Nat → Nat → Option Nat
  | 0, j => leaf j
  | L + 1, j =>
    match node g leaf L (2 * j), node g leaf L (2 * j + 1) with
    | some x, some y => some (g x y).1
    | some x, none => some x
    | none, y => y
def nodeEvents (g : Nat → Nat → Nat × Events) (leaf : Nat → Option Nat) (L : Nat) : BitVec 5 :=
  (List.range L).foldl (fun a l => a ||| raised (2 ^ (L - 1 - l)) fun j =>
    match node g leaf l (2 * j), node g leaf l (2 * j + 1) with
    | some x, some y => (g x y).2
    | _, _ => {}) 0

/-- What a reduction gives: a NaN is the canonical one (R84). -/
def canon (f x : Nat) : Nat := if isFp f && (ffmt f).isNan x then (ffmt f).nanBits else x

/-- Levels of the tree: the logarithm of the lane count. -/
def levels (f : Nat) : Nat := if width f = 64 then 3 else if width f = 32 then 4 else if width f = 16 then 5 else 6

/-- The order-preserving image of a lane under NaN low, zeros merged (R102). -/
def key (e : Elem) (fi : Bool) (x : Nat) : Nat :=
  let k := e.code.toNat
  let w := width k
  if isFp k then
    let x := (ffmt k).flushIn fi x
    if (ffmt k).isNan x then 0 else if x = 2 ^ (w - 1) then 2 ^ (w - 1)
    else if x < 2 ^ (w - 1) then x + 2 ^ (w - 1) else 2 ^ w - 1 - x
  else if e.uns then x else (x + 2 ^ (w - 1)) % 2 ^ w

/-- Five trits as a byte, the digit of a trit, and the trit a byte holds (R94, R95). -/
def digit (t : Int) : Nat := if t = 0 then 0 else if 0 < t then 1 else 2
def tritIn (b k : Nat) : Int :=
  let d := b / 3 ^ k % 3
  if 243 ≤ b then 0 else if d = 2 then -1 else d

/-- Register `b + k` of a group. -/
def member (b : Reg) (k : Nat) : Reg := b + BitVec.ofNat 5 k

end Claims

/-- R167, R168: vcvt converts the elements of its part whose destination lane is active and keeps every other; the
register merged into is checked under a mask or where the part leaves an element. vtag copies the bits and the poison and
sets the tag, with no check of the old one. An integer that is widened is sign-extended and never clamped (R115); a
conversion to the same format raises nothing (R117). The model's choices: fi acts between equal formats too (log 46); a
conversion into log6 is masked by whole words (log 57). -/
def Claims.VectorConvert : Prop :=
  ∀ (s : State) (n : Nat), Free s n →
    let h := s.hart n
    ∀ (o : LOpts) (vd va : Reg),
    (∀ (d src : Elem) (p : BitVec 5) r, Claims.rounding h o = some r → let kd := d.code.toNat
      let ks := src.code.toNat
      let whole := (List.range (Claims.elems kd)).all fun i => (Claims.partSrc kd ks p.toNat i).isSome
      let vs := (va, [ks]) :: (if o.m = 0 ∧ whole = true then [] else [(vd, [kd])])
      let from' (i : Nat) : Option Nat := if Claims.on h o (if kd = 7 then i / 5 else i) then Claims.partSrc kd ks p.toNat i else none
      let out (i : Nat) : Nat × Events := match from' i with
        | some j => let x := Claims.elemAt ks (h.vVal va) j
          let c := Claims.conv d src r x.1
          (c.1, c.2.or { nv := x.2 && decide (kd ≠ ks) })
        | none => (if kd = 7 then Claims.laneAt 6 (h.vVal vd >>> (32 * (i / 5))) (i % 5) else Claims.laneAt (Claims.width kd) (h.vVal vd) i, {})
      (Instr.vcvt o d src vd va p).wf = true → Claims.reads h o vs [] → Claims.gives s n (.vcvt o d src vd va p) {
        window := 0
        events := Claims.raised (Claims.elems kd) fun i => (out i).2
        vs := [(vd, {
          fmt := d.code
          poison := Claims.poison h o vs []
          val := if kd = 7 then Claims.join 32 16 fun w =>
              if (List.range 5).any (fun e => (from' (5 * w + e)).isSome)
              then ((List.range 5).map fun e => 2 ^ (6 * e) * ((out (5 * w + e)).1 % 2 ^ 6)).sum else Claims.laneAt 32 (h.vVal vd) w
            else Claims.join (Claims.width kd) (Claims.count kd) fun i => (out i).1 })] }) ∧
    (∀ f, h.vReads va → Claims.gives s n (.vtag o f vd va) {
      window := 0, vs := [(vd, { val := h.vVal va, fmt := f, poison := h.vPois va })] })

/-- R169, R170: packing and unpacking trits over a group of five registers, and the split of a lane into parts, each the
residual rounded towards zero. The upper lanes of a split are +0 where they are active (log 57, the model's choice). -/
def Claims.VectorTernarySplit : Prop :=
  ∀ (s : State) (n : Nat), Free s n →
    let h := s.hart n
    ∀ (o : LOpts) (vd va : Reg),
    (let vs := (List.range 5).map (fun k => (Claims.member va k, [12])) ++ Claims.merged o vd [8]
      let x (l : Nat) : Int := Claims.asInt 8 false (Claims.laneAt 8 (h.vVal (Claims.member va (l / 64))) (l % 64))
      let t (l : Nat) : Int := if -1 ≤ x l ∧ x l ≤ 1 then x l else if o.sat then (if x l < 0 then -1 else 1) else 0
      Claims.reads h o vs [] → Claims.gives s n (.vpackt o vd va) (Claims.laneResult h o vd 8 (Claims.poison h o vs []) fun j =>
        (((List.range 5).map fun k => 3 ^ k * Claims.digit (t (5 * j + k))).sum,
          { nv := !o.sat && (List.range 5).any fun k => !decide (-1 ≤ x (5 * j + k) ∧ x (5 * j + k) ≤ 1) }))) ∧
    (let vs := (va, [8]) :: (if o.m = 0 then [] else (List.range 5).map fun k => (Claims.member vd k, [12]))
      let b (j : Nat) : Nat := Claims.laneAt 8 (h.vVal va) j
      Claims.reads h o vs [] → Claims.gives s n (.vunpackt o vd va) {
        window := 0
        events := Claims.raised 64 fun j => { nv := Claims.on h o j && decide (243 ≤ b j) }
        vs := (List.range 5).map fun k => (Claims.member vd k, {
          fmt := 12
          poison := Claims.poison h o vs []
          val := Claims.join 8 64 fun j => let l := 64 * k + j
            if Claims.on h o (l / 5) then Claims.toLane 8 (Claims.tritIn (b (l / 5)) (l % 5)) else Claims.laneAt 8 (h.vVal (Claims.member vd k)) j }) }) ∧
    (∀ (f src : BitVec 4) (j : BitVec 2), let kd := f.toNat
      let ks := src.toNat
      let vs := (va, [ks]) :: Claims.merged o vd [kd]
      let fd := ffmt kd
      let fs := ffmt ks
      let fi := !o.ed1 && o.fi
      -- the parts and the residuals of a finite number, in order
      let rz : ROpts := { rm := .rtz, sat := true }
      let step (p : Nat × Nat) : Nat × Nat := let q := (fToF fs fd rz p.2).1
        (q, (fSub fs {} p.2 (fToF fd fs {} q).1).1)
      let part (x : Nat) : Nat → Nat × Nat := fun k => Nat.rec (step (0, x)) (fun _ p => step p) k
      (Instr.vosplit o f src vd va j).wf = true → Claims.reads h o vs [] → Claims.gives s n (.vosplit o f src vd va j)
        (Claims.laneResult h o vd kd (Claims.poison h o vs []) fun l =>
          if l < Claims.count ks then
            let x := fs.flushIn fi (Claims.laneAt (Claims.width ks) (h.vVal va) l)
            if fs.isNan x || decide (x % 2 ^ (fs.ebits + fs.mbits) / 2 ^ fs.mbits = 2 ^ fs.ebits - 1) then
              (if j = 0 then (fToF fs fd { sat := true } x).1 else 0, {})
            else ((part x j.toNat).1, { nx := j == 2 && decide ((part x 2).2 % 2 ^ (fs.ebits + fs.mbits) ≠ 0) })
          else (0, {})))

/-- R104, R105, R163, R164: reductions take the fixed tree over the active lanes. vredsum rounds at every node, FP16 and
BF16 in FP32 with one more rounding at the root; the other lanes of vd are zero, and a NaN is the canonical one, also
where one lane alone is active (R84, log 47). vargmax takes the greatest image, the
lowest lane among equals. -/
def Obligations.VectorReduce : Prop :=
  ∀ (s : State) (n : Nat), Free s n →
    let h := s.hart n
    ∀ (o : LOpts) (e : Elem) (vd va : Reg),
      let k := e.code.toNat
      let w := Claims.width k
      let vs := (va, [k]) :: Claims.merged o vd [k]
      let leaf (j : Nat) : Option Nat := if Claims.on h o j then some (Claims.laneAt w (h.vVal va) j) else none
      let root (ev : BitVec 5) (x : Nat) : Pending := {
        window := 0, events := ev
        vs := [(vd, { val := BitVec.ofNat 512 (x % 2 ^ w), fmt := e.code, poison := Claims.poison h o vs [] })] }
      let pick (mx : Bool) (a b : Nat) : Nat × Events :=
        if Claims.isFp k then (fMinMax (ffmt k) mx (!o.ed1 && o.fi) a b, {})
        else (if decide (Claims.asInt w e.uns a < Claims.asInt w e.uns b) = mx then b else a, {})
    (∀ r, Claims.rounding h o = some r → Claims.reads h o vs [] → (k = 1 ∨ k = 2 ∨ k = 5 ∨ k = 6) →
      Claims.gives s n (.vredsum o e vd va)
        (root (Claims.nodeEvents (fAdd (ffmt k) r) leaf (Claims.levels k)) (Claims.canon k ((Claims.node (fAdd (ffmt k) r) leaf (Claims.levels k) 0).getD 0)))) ∧
    (∀ r, Claims.rounding h o = some r → Claims.reads h o vs [] → (k = 3 ∨ k = 4) →
      let wide (j : Nat) : Option Nat := (leaf j).map fun x => (fToF (ffmt k) fp32 { fi := r.fi } x).1
      let top := Claims.node (fAdd fp32 r) wide 5 0
      let last : Nat × Events := match top with
        | some x => fToF fp32 (ffmt k) { r with fi := false } x
        | none => (0, {})
      Claims.gives s n (.vredsum o e vd va) (root (Claims.nodeEvents (fAdd fp32 r) wide 5 ||| last.2.toBits) last.1)) ∧
    (∀ r, Claims.rounding h o = some r → Claims.reads h o vs [] → (9 ≤ k ∧ k ≤ 12) →
      Claims.gives s n (.vredsum o e vd va)
        (root 0 (((List.range (Claims.count k)).map fun j => (leaf j).getD 0).sum % 2 ^ w))) ∧
    (Claims.reads h o vs [] → (Claims.isFp k = true ∨ (9 ≤ k ∧ k ≤ 12)) →
      Claims.gives s n (.vredmax o e vd va) (root 0 (Claims.canon k ((Claims.node (pick true) leaf (Claims.levels k) 0).getD 0))) ∧
      Claims.gives s n (.vredmin o e vd va) (root 0 (Claims.canon k ((Claims.node (pick false) leaf (Claims.levels k) 0).getD 0)))) ∧
    (∀ xb, let vs := (va, [k]) :: Claims.merged o vd [13]
      (Claims.isFp k = true ∨ (9 ≤ k ∧ k ≤ 12)) → Claims.reads h o vs [xb] →
      let key (j : Nat) : Nat := Claims.key e (!o.ed1 && o.fi) (Claims.laneAt w (h.vVal va) j)
      let best (j : Nat) : Prop := j < Claims.count k ∧ Claims.on h o j = true ∧
        ∀ i, i < Claims.count k → Claims.on h o i = true → key i < key j ∨ (key i = key j ∧ j ≤ i)
      let pair (a b : Nat) : Pending := {
        window := 0, vs := [(vd, { val := BitVec.ofNat 512 (a + 2 ^ 64 * b), fmt := 13, poison := Claims.poison h o vs [xb] })] }
      (∀ j, best j → Claims.gives s n (.vargmax o e vd va xb) (pair (key j) (((h.xVal xb).toNat + j) % 2 ^ 64))) ∧
      ((∀ j, j < Claims.count k → Claims.on h o j = false) → Claims.gives s n (.vargmax o e vd va xb) (pair 0 (2 ^ 64 - 1))))

/-- R165, R166: the lane moves. A lane that does not exist reads as zero; vins past the last lane writes nothing, not even
the tag; vext sign-extends the signed integer formats. -/
def Obligations.VectorMove : Prop :=
  ∀ (s : State) (n : Nat), Free s n →
    let h := s.hart n
    ∀ (o : LOpts) (f : BitVec 4), f.toNat ≤ 13 →
      let k := f.toNat
      let w := Claims.width k
      let cnt := Claims.count k
      let lanes (vd : Reg) (vs : List (Reg × List Nat)) (xs : List Reg) (g : Nat → Nat) : Pending :=
        Claims.laneResult h o vd k (Claims.poison h o vs xs) fun j => (g j, {})
    (∀ vd va vi, let vs := (va, [k]) :: (vi, [12]) :: Claims.merged o vd [k]
      Claims.reads h o vs [] → Claims.gives s n (.vperm o f vd va vi) (lanes vd vs [] fun j =>
        Claims.laneAt w (h.vVal va) (Claims.laneAt 8 (h.vVal vi) j % cnt))) ∧
    (∀ vd va xs, let vs := (va, [k]) :: Claims.merged o vd [k]
      Claims.reads h o vs [xs] →
      Claims.gives s n (.vslide o f vd va xs) (lanes vd vs [xs] fun j =>
        let q : Int := j + (h.xVal xs).toInt
        if 0 ≤ q ∧ q < cnt then Claims.laneAt w (h.vVal va) q.toNat else 0) ∧
      Claims.gives s n (.vbcast o f vd va xs) (lanes vd vs [xs] fun _ =>
        if (h.xVal xs).toNat < cnt then Claims.laneAt w (h.vVal va) (h.xVal xs).toNat else 0)) ∧
    (∀ w, w = (if k = 13 then 64 else Claims.width k) →
      (∀ vd xv xi,  o.m = 0 → Claims.reads h o [(vd, [k])] [xv, xi] →
        let j := (h.xVal xi).toNat
        (512 / w ≤ j → exec (.vins o f vd xv xi) s = .next (s.done n (.vins o f vd xv xi) (.seq none))) ∧
        (j < 512 / w → Claims.gives s n (.vins o f vd xv xi) {
          window := 0
          vs := [(vd, { val := Claims.join w (512 / w) fun l => if l = j then (h.xVal xv).toNat else Claims.laneAt w (h.vVal vd) l
                        fmt := f, poison := Claims.poison h o [(vd, [k])] [xv, xi] })] })) ∧
      (∀ xd va xi, o.m = 0 → Claims.reads h o [(va, [k])] [xi] →
        let j := (h.xVal xi).toNat
        let x := if j < 512 / w then Claims.laneAt w (h.vVal va) j else 0
        Claims.gives s n (.vext o f xd va xi) {
          window := 0
          xs := [(xd, { val := BitVec.ofInt 64 (Claims.asInt w (!decide (9 ≤ k ∧ k ≤ 12)) x)
                        poison := Claims.poison h o [(va, [k])] [xi] })] }))

/-! ### Vector loads and stores, tiles (R183-R189) -/

namespace Claims

/-- The generation that covers a byte of the bank (R178). -/
def genAt (s : State) (core q : Nat) : BitVec 16 := ((covering (s.core core).alloc (q / 32 * 32)).map (·.2.gen)).getD 0

/-- A lane of `sz` bytes at address `a` passes the checks of R185 in the hart's own bank. -/
def laneFine (s : State) (n sz : Nat) (store : Bool) (a : Nat) : Prop :=
  a % sz = 0 ∧ bankBase ≤ a ∧ a < bankBase + 2 ^ 17 ∧
    ∃ e, covering (s.core (n / 4)).alloc ((a - bankBase) / 32 * 32) = some e ∧
      (if store then e.2.sealed = false
       else (s.hart n).gmode.getLsbD 1 = false ∨ (s.hart n).house = true ∨ (bankGran s (n / 4) ((a - bankBase) / 32)).tag = e.2.gen)

/-- The bytes of a lane as a load sees them, and whether their granule is poisoned. -/
def laneSeen (s : State) (n sz a : Nat) : Nat × Bool :=
  let q := a - bankBase
  let r := bankGran s (n / 4) (q / 32)
  let g := genAt s (n / 4) q
  (number ((List.range sz).map fun b => (seen r g (q % 32 + b)).1), (seen r g 0).2)

/-- A load of the lanes at `A`; a lane that has no address loads zero. -/
def loads (s : State) (n : Nat) (i : Instr) (o : LOpts) (k : Nat) (vd : Reg) (pois : Bool) (A : Nat → Option Nat) : Prop :=
  let h := s.hart n
  let w := width k
  let acts (j : Nat) : Bool := decide (j < count k) && on h o j
  (∀ j a, acts j = true → A j = some a → laneFine s n (w / 8) false a) → (∀ e ∈ (s.core (n / 4)).psb, e.loc % 2 = 0) →
  gives s n i (laneResult h o vd k
    (pois || (List.range (count k)).any fun j => on h o j && match A j with | some a => (laneSeen s n (w / 8) a).2 | none => false)
    fun j => (match A j with | some a => (laneSeen s n (w / 8) a).1 | none => 0, {}))

/-- A store of the lanes at `A`: the last active lane that covers a byte decides it; no register changes. -/
def stores (s : State) (n : Nat) (i : Instr) (o : LOpts) (k : Nat) (v : Vec) (A : Nat → Option Nat) : Prop :=
  let h := s.hart n
  let sz := width k / 8
  let core := n / 4
  let acts (j : Nat) : Bool := decide (j < count k) && on h o j
  (optsOf i).window = 0 → (∀ j a, acts j = true → A j = some a → laneFine s n sz true a) →
  ∃ t, exec i s = .next t ∧ t.mem = s.mem ∧ t.memPoison = s.memPoison ∧ t.clusters = s.clusters ∧ t.dirs = s.dirs ∧
    (∀ m, t.hart m = (s.done n i (.seq none)).hart m) ∧ (∀ c, c ≠ core → t.core c = s.core c) ∧
    (t.core core).alloc = (s.core core).alloc ∧ (t.core core).psb = (s.core core).psb ∧ (t.core core).tiles = (s.core core).tiles ∧
    ∀ g, g < 4096 →
      let covers (x j : Nat) : Bool := on h o j && match A j with | some a => decide (a ≤ bankBase + x ∧ bankBase + x < a + sz) | none => false
      let touched := (List.range (count k)).any fun j => on h o j && match A j with | some a => (a - bankBase) / 32 == g | none => false
      (touched = false → bankGran t core g = bankGran s core g) ∧
      (touched = true → (bankGran t core g).tag = genAt s core (32 * g) ∧ ∀ b, b < 32 →
        KMap.get 0 (bankGran t core g).data b =
          match (List.range (count k)).reverse.find? (covers (32 * g + b)) with
          | some j => match A j with
            | some a => BitVec.ofNat 8 (laneAt (8 * sz) v j / 256 ^ (bankBase + 32 * g + b - a))
            | none => 0
          | none => (seen (bankGran s core g) (genAt s core (32 * g)) b).1)

/-- A lane that fails after lanes that pass: the trap of the first check it breaks, and nothing is written. -/
def laneTraps (s : State) (n : Nat) (i : Instr) (o : LOpts) (k : Nat) (store : Bool) (A : Nat → Option Nat) : Prop :=
  let h := s.hart n
  let sz := width k / 8
  ∀ j a, j < count k → on h o j = true → A j = some a →
    (∀ l b, l < j → on h o l = true → A l = some b → laneFine s n sz store b) →
    (a % sz ≠ 0 → exec i s = .next (s.takeTrap n 0x05 a h.pc)) ∧
    (a % sz = 0 → bankBase ≤ a → a < bankBase + 2 ^ 17 → covering (s.core (n / 4)).alloc ((a - bankBase) / 32 * 32) = none →
      exec i s = .next (s.takeTrap n 0x06 a h.pc))

/-- The lane addresses: unit stride, a stride, an index register (R184). -/
def unitAt (h : Hart) (k : Nat) (xa : Reg) (off : BitVec 5) (j : Nat) : Option Nat :=
  some (h.xVal xa + BitVec.ofInt 64 (64 * off.toInt) + BitVec.ofNat 64 (j * (width k / 8))).toNat
def strideAt (h : Hart) (xa xs : Reg) (j : Nat) : Option Nat :=
  some (h.xVal xa + BitVec.ofInt 64 (j * (h.xVal xs).toInt)).toNat
def indexAt (h : Hart) (k : Nat) (xa vi : Reg) (j : Nat) : Option Nat :=
  some (h.xVal xa + BitVec.ofNat 64 (laneAt (width k) (h.vVal vi) j % 2 ^ 64 * (width k / 8))).toNat
def indexTag (k : Nat) : Nat :=
  if width k = 8 then 12 else if width k = 16 then 11 else if width k = 32 then 10 else if width k = 64 then 9 else 13

/-- The lane addresses of a tile reference, where it meets the conditions of R189; elements are skewed by R188. -/
def tileAt (s : State) (n k : Nat) (r : Word) : Option (Nat → Option Nat) :=
  let i0 := fld r 16 16
  let j0 := fld r 32 16
  match KMap.get none (s.core (n / 4)).tiles (fld r 0 6) with
  | none => none
  | some t =>
    let e := t.esz
    let q := 4 / e
    if fld r 48 16 = 0 ∧ fld r 7 9 = 0 ∧ i0 < t.rows ∧ j0 < t.cols ∧ (e < 4 → j0 % q = 0) ∧ width k = 8 * e then
      some fun l =>
        let ij : Nat × Nat := if fld r 6 1 = 0 then (i0, j0 + l) else if e < 4 then (i0 + l / q, j0 + l % q) else (i0 + l, j0)
        let cells := t.cols * e / 4
        let cell (c : Nat) : Nat := bankBase + t.base + ij.1 * t.cols * e + 4 * ((c + (if e = 8 then 2 else 1) * ij.1) % cells)
        if ij.1 < t.rows ∧ ij.2 < t.cols then
          some (if e < 4 then cell (ij.2 / q) + ij.2 % q * e else if e = 4 then cell ij.2 else cell (2 * ij.2))
        else none
    else none

end Claims

/-- R184, R185 on the hart's own bank: vld, vlds and vldx load each active lane from its address and leave the others;
vst, vsts and vstx store the active lanes in ascending order. The first failing lane decides the trap. A poisoned base,
index or datum takes the poison trap with the id of the register, and so does a poisoned stride (log 37); those checks come
before the lanes (log 59). -/
def Obligations.VectorMemory : Prop :=
  ∀ (s : State) (n : Nat), Free s n →
    let h := s.hart n
    ∀ (o : LOpts) (e : Elem) (v xa : Reg), h.xReads xa →
      let k := e.code.toNat
      let prior := Claims.merged o v [k]
    (∀ off, h.xPois xa = false → Claims.reads h o prior [] →
      Claims.loads s n (.vld o e v xa off) o k v (Claims.poison h o prior []) (Claims.unitAt h k xa off) ∧
      Claims.laneTraps s n (.vld o e v xa off) o k false (Claims.unitAt h k xa off)) ∧
    (∀ xs, h.xPois xa = false → h.xPois xs = false → Claims.reads h o prior [xs] →
      Claims.loads s n (.vlds o e v xa xs) o k v (Claims.poison h o prior [xs]) (Claims.strideAt h xa xs) ∧
      Claims.laneTraps s n (.vlds o e v xa xs) o k false (Claims.strideAt h xa xs)) ∧
    (∀ vi, h.xPois xa = false → h.vPois vi = false → Claims.reads h o ((vi, [Claims.indexTag k]) :: prior) [] →
      Claims.loads s n (.vldx o e v xa vi) o k v (Claims.poison h o prior []) (Claims.indexAt h k xa vi) ∧
      Claims.laneTraps s n (.vldx o e v xa vi) o k false (Claims.indexAt h k xa vi)) ∧
    (∀ off, h.xPois xa = false → h.vPois v = false → Claims.reads h o [(v, [k])] [] →
      Claims.stores s n (.vst o e v xa off) o k (h.vVal v) (Claims.unitAt h k xa off) ∧
      Claims.laneTraps s n (.vst o e v xa off) o k true (Claims.unitAt h k xa off)) ∧
    (∀ xs, h.xPois xa = false → h.xPois xs = false → h.vPois v = false → Claims.reads h o [(v, [k])] [xs] →
      Claims.stores s n (.vsts o e v xa xs) o k (h.vVal v) (Claims.strideAt h xa xs) ∧
      Claims.laneTraps s n (.vsts o e v xa xs) o k true (Claims.strideAt h xa xs)) ∧
    (∀ vi, h.xPois xa = false → h.vPois v = false → h.vPois vi = false → Claims.reads h o [(v, [k]), (vi, [Claims.indexTag k])] [] →
      Claims.stores s n (.vstx o e v xa vi) o k (h.vVal v) (Claims.indexAt h k xa vi) ∧
      Claims.laneTraps s n (.vstx o e v xa vi) o k true (Claims.indexAt h k xa vi)) ∧
    -- the poison of base, stride, index and datum, in that order
    (let trap (i : Instr) (r : Nat) : Prop := exec i s = .next (s.takeTrap n 0x04 r h.pc)
      let dat : List (Reg × List Nat) := [(v, [k])]
      let idx (vi : Reg) : Reg × List Nat := (vi, [Claims.indexTag k])
      (h.xPois xa = true →
        (∀ off, (Claims.reads h o prior [] → trap (.vld o e v xa off) xa.toNat) ∧
          (Claims.reads h o dat [] → trap (.vst o e v xa off) xa.toNat)) ∧
        (∀ xs, (Claims.reads h o prior [xs] → trap (.vlds o e v xa xs) xa.toNat) ∧
          (Claims.reads h o dat [xs] → trap (.vsts o e v xa xs) xa.toNat)) ∧
        (∀ vi, (Claims.reads h o (idx vi :: prior) [] → trap (.vldx o e v xa vi) xa.toNat) ∧
          (Claims.reads h o (idx vi :: dat) [] → trap (.vstx o e v xa vi) xa.toNat))) ∧
      (h.xPois xa = false →
        (∀ xs, h.xPois xs = true → (Claims.reads h o prior [xs] → trap (.vlds o e v xa xs) xs.toNat) ∧
          (Claims.reads h o dat [xs] → trap (.vsts o e v xa xs) xs.toNat)) ∧
        (∀ vi, h.vPois vi = true → (Claims.reads h o (idx vi :: prior) [] → trap (.vldx o e v xa vi) (32 + vi.toNat)) ∧
          (Claims.reads h o (idx vi :: dat) [] → trap (.vstx o e v xa vi) (32 + vi.toNat))) ∧
        (h.vPois v = true →
          (∀ off, Claims.reads h o dat [] → trap (.vst o e v xa off) (32 + v.toNat)) ∧
          (∀ xs, h.xPois xs = false → Claims.reads h o dat [xs] → trap (.vsts o e v xa xs) (32 + v.toNat)) ∧
          (∀ vi, h.vPois vi = false → Claims.reads h o (idx vi :: dat) [] → trap (.vstx o e v xa vi) (32 + v.toNat)))))

/-- R186 to R189: a valid declaration enters the tile table of the core, a row count of zero removes; one that breaks a
condition or overlaps another declared tile, and a tile reference that breaks one, takes the diagonal-misuse trap with the
operand; a fetch moves the lanes at their skewed places. A removal is not held to the conditions on place and shape
(log 58). -/
def Obligations.Tiles : Prop :=
  ∀ (s : State) (n : Nat), Free s n →
    let h := s.hart n
    ∀ (o : LOpts),
    (∀ (e : Elem) (v xt : Reg), h.xUse xt → let k := e.code.toNat
      let prior := Claims.merged o v [k]
      (∀ A, Claims.tileAt s n k (h.xVal xt) = some A →
        (Claims.reads h o prior [] → Claims.loads s n (.vldDiag o e v xt) o k v (Claims.poison h o prior []) A) ∧
        (h.vPois v = false → Claims.reads h o [(v, [k])] [] → Claims.stores s n (.vstDiag o e v xt) o k (h.vVal v) A)) ∧
      (Claims.tileAt s n k (h.xVal xt) = none →
        (Claims.reads h o prior [] → exec (.vldDiag o e v xt) s = .next (s.takeTrap n 0x08 (h.xVal xt).toNat h.pc)) ∧
        (h.vPois v = false → Claims.reads h o [(v, [k])] [] →
          exec (.vstDiag o e v xt) s = .next (s.takeTrap n 0x08 (h.xVal xt).toNat h.pc)))) ∧
    (∀ xt xb xs, h.xUse xt → h.xUse xb → h.xUse xs →
      let i := Instr.tdecl o xt xb xs
      let core := s.core (n / 4)
      let num := (h.xVal xt).toNat
      let shape := h.xVal xs
      let rows := Claims.fld shape 0 16
      let cols := Claims.fld shape 16 16
      let e := 2 ^ Claims.fld shape 32 2
      let base := (h.xVal xb).toNat
      let size := rows * cols * e
      let put (d : Option Tile) : State := s.setCore (n / 4) { core with tiles := KMap.set none core.tiles num d }
      (num < 64 → Claims.fld shape 34 30 = 0 → rows = 0 → exec i s = .next ((put none).done n i (.seq none))) ∧
      (num < 64 → Claims.fld shape 34 30 = 0 → rows ≠ 0 → cols ≠ 0 → base % 64 = 0 → cols * e % 64 = 0 →
        (∃ a ∈ core.alloc, a.2.st = .live ∧ a.2.base ≤ base ∧ base + size ≤ a.2.base + 32 * a.2.len) →
        (∀ q ∈ core.tiles, q.1 ≠ num → ∀ t, q.2 = some t → t.base + t.rows * t.cols * t.esz ≤ base ∨ base + size ≤ t.base) →
        exec i s = .next ((put (some ⟨base, rows, cols, e⟩)).done n i (.seq none))) ∧
      ((64 ≤ num ∨ Claims.fld shape 34 30 ≠ 0 ∨ (rows ≠ 0 ∧ (cols = 0 ∨ base % 64 ≠ 0 ∨ cols * e % 64 ≠ 0 ∨
          (∀ a ∈ core.alloc, a.2.st = .live → ¬ (a.2.base ≤ base ∧ base + size ≤ a.2.base + 32 * a.2.len)) ∨
          ∃ q ∈ core.tiles, q.1 ≠ num ∧ ∃ t, q.2 = some t ∧ t.base < base + size ∧ base < t.base + t.rows * t.cols * t.esz))) →
        exec i s = .next (s.takeTrap n 0x08 shape.toNat h.pc)))

/-! ### Chorus and cues (R139-R146, R237-R251) -/

namespace Claims

/-- Hart `n` leads a chorus of base core `b` and size `z` with the members `ms`, has no result pending and no stream
bound, and every member's queue has room (R140). -/
def leads (s : State) (n b z : Nat) (ms : List Nat) : Prop :=
  s.cur = .hart n ∧ n < Config.harts ∧ (s.hart n).run = .active ∧ (s.hart n).role = .leader b z ms ∧ (s.hart n).pending = [] ∧
    (∀ p ∈ (s.hart n).streams, p.2.act = false) ∧ ms.Nodup ∧ ∀ m ∈ ms, m ≠ n ∧ (s.hart m).fqueue.length < 4

/-- A hart that joins (R139): in the house loop with nothing to take, no helper, not pinned, of the leader's partition. -/
def ready (s : State) (n m : Nat) : Bool :=
  let h := s.hart m
  h.house && h.waiting && h.run == .active && h.helper.isNone && h.pins.isEmpty &&
    !((s.box m).inbox.any fun e => e.kind == 5) && !((s.box m).ring.any fun e => e.kind == 5) &&
    !(s.transit.any fun t => t.receiver == m && t.entry.kind == 5) &&
    ((s.partOfCluster (hartCluster m)).map (·.1) == (s.partOfCluster (hartCluster n)).map (·.1))

/-- The members of the group of `z` cores that join hart `n`. -/
def joiners (s : State) (n z : Nat) : List Nat :=
  ((List.range z).map fun i => (n / 4 / z * z + i) * 4 + n % 4).filter fun m => m != n && ready s n m

/-- The mask of the members in a group. -/
def memberMask (base : Nat) (ms : List Nat) : Word := BitVec.ofNat 64 ((ms.map fun m => 2 ^ (m / 4 - base)).sum)

/-- The hart has left its cue for the instruction after the cue.resume that started it, whose register reads 0 (R244). -/
def left (h h' : Hart) : Prop :=
  h'.house = true ∧ h'.pc = (h.resume.getD (h.tvec, 0)).1 ∧ h'.resume = none ∧ h'.vacate = none ∧ h'.role = .solo ∧
    h'.xVal (h.resume.getD (h.tvec, 0)).2 = 0

/-- A field of a cue record. -/
def vfld (v : Vec) (lo len : Nat) : Nat := v.toNat / 2 ^ lo % 2 ^ len

/-- The record is faulty (R237). -/
def faulty (v : Vec) : Prop :=
  vfld v 224 32 ≠ 0 ∨ vfld v 164 8 ≠ 0 ∨ 3 < vfld v 160 4 ∨ vfld v 172 2 = 3 ∨ 6 < vfld v 220 4 ∨ vfld v 0 1 = 1 ∨ vfld v 64 64 % 64 ≠ 0

/-- The play is live: launched, not ended, not in error. -/
def liveIn (s : State) (p : Nat) : Prop := ∃ q x, s.plays.find? (fun e => e.1 == p) = some (q, x) ∧ x.ended = false ∧ x.error = none

/-- A 64-byte record that hart `n` reads at an address, with no poison. -/
def record (s : State) (n a : Nat) (v : Vec) (t : State) : Prop :=
  ∃ bs, hartLoad n a 64 s = (.ok bs, t) ∧ (∀ b ∈ bs, b.2 = false) ∧ v = BitVec.ofNat 512 (number (bs.map (·.1)))

/-- The cue of the hart can leave it: it runs a cue, is no helper, is not pinned, and its releases are whole. -/
def canLeave (s : State) (n : Nat) : Prop :=
  (s.hart n).house = false ∧ (s.hart n).helper = none ∧ (∀ p ∈ (s.hart n).pins, p.cue ≠ (s.hart n).cueptr) ∧ s.part = none

end Claims

/-- R139 to R143: chorus.form writes the mask of the members; with none to join the hart runs solo; each joiner becomes a
follower with the leader's x registers, no cue, and the leader's next instruction. In a chorus it writes the member mask.
chorus.leave disbands; chorus.id gives index, size and leader. A follower that still has instructions of a chorus now
disbanded to run is, for chorus.id, the member it was (log 29). -/
def Claims.Chorus : Prop :=
  (∀ (s : State) (n : Nat), Free s n → ∀ rd,
    (∀ size : BitVec 2, let z := 2 ^ size.toNat
      let i := Instr.chorusForm rd size
      let ms := Claims.joiners s n z
      (ms = [] → exec i s = .next ((s.setX n rd (Claims.memberMask (n / 4 / z * z) [n]) false).done n i (.seq none))) ∧
      (ms ≠ [] → ∃ t, exec i s = .next t ∧ (t.hart n).role = .leader (n / 4 / z * z) z ms ∧
        (t.hart n).xVal rd = (if rd = 0 then 0 else Claims.memberMask (n / 4 / z * z) (n :: ms)) ∧ (t.hart n).instret = (s.hart n).instret + 1 ∧
        ∀ m ∈ ms, (t.hart m).role = .follower n (n / 4 / z * z) z ∧ (t.hart m).house = false ∧ (t.hart m).cueptr = 0 ∧
          (t.hart m).pc = (t.hart n).pc ∧ (t.hart m).helper = some (n, (s.hart n).cueptr) ∧
          (t.hart m).vrm = (s.hart n).vrm ∧ (t.hart m).gmode = (s.hart n).gmode ∧ (t.hart m).dmask = (s.hart n).dmask ∧
          ∀ r, (t.hart n).xLive r = true → (t.hart m).xVal r = (t.hart n).xVal r ∧ (t.hart m).xPois r = (t.hart n).xPois r)) ∧
    exec .chorusLeave s = .next (s.done n .chorusLeave (.seq none)) ∧
    exec (.chorusId rd) s = .next ((s.setX n rd 0x100 false).done n (.chorusId rd) (.seq none))) ∧
  (∀ (s : State) (n b z : Nat) (ms : List Nat), Claims.leads s n b z ms →
    (∀ rd size, ∃ t, exec (.chorusForm rd size) s = .next t ∧ (t.hart n).role = .leader b z ms ∧
      (t.hart n).xVal rd = if rd = 0 then 0 else Claims.memberMask b (n :: ms)) ∧
    (∀ rd, ∃ t, exec (.chorusId rd) s = .next t ∧ (t.hart n).xVal rd =
      (if rd = 0 then 0 else BitVec.ofNat 64 ((n / 4 - b) + 2 ^ 8 * z + 2 ^ 16 * (n / 4 - b))) ∧
      ∀ m ∈ ms, (t.hart m).fqueue = (s.hart m).fqueue ++ [⟨.chorusId rd, (s.hart n).pc, (t.hart n).pc⟩]) ∧
    (∃ t, exec .chorusLeave s = .next t ∧ (t.hart n).role = .solo ∧ ∀ m ∈ ms, (t.hart m).role = .draining n b z (n :: ms))) ∧
  (∀ (s : State) (n l b z : Nat) (ms : List Nat) (rd : Reg), s.cur = .hart n → n < Config.harts → (s.hart n).run = .active →
    (s.hart n).role = .draining l b z ms → (s.hart n).pending = [] → (∀ p ∈ (s.hart n).streams, p.2.act = false) →
    ∃ t, exec (.chorusId rd) s = .next t ∧ (t.hart n).xVal rd =
      if rd = 0 then 0 else BitVec.ofNat 64 ((n / 4 - b) + 2 ^ 8 * z + 2 ^ 16 * (l / 4 - b)))

/-- R146, R246, R250, R251: safept without a request has no effect; an answered request, cue.yield and cue.exit leave the
cue; a live map the play does not have is a record fault; the house code may use none of yield and exit. The model's choice:
a safept whose map is missing saves under the empty map (log 31). -/
def Claims.LeavingCues : Prop :=
  ∀ (s : State) (n : Nat), Free s n →
    let h := s.hart n
    (∀ k, (h.house = true ∨ h.helper.isSome = true ∨ h.vacate = none) → exec (.safept k) s = .next (s.done n (.safept k) (.seq none))) ∧
    (∀ k, Claims.canLeave s n → h.depmask = 0 → (∃ c, h.vacate = some c ∧ c < s.cycle.toNat) →
      ∃ t, exec (.safept k) s = .next t ∧ Claims.left h (t.hart n) ∧ (t.hart n).instret = h.instret + 1) ∧
    (Claims.canLeave s n → ∃ t, exec (.cueYield 0) s = .next t ∧ Claims.left h (t.hart n)) ∧
    (∀ rs1, Claims.canLeave s n → rs1 ≠ 0 → h.xReads rs1 →
      (s.liveMap? h.curPlay ((h.xVal rs1).toNat % 2 ^ 16) ≠ none → ∃ t, exec (.cueYield rs1) s = .next t ∧ Claims.left h (t.hart n)) ∧
      (s.liveMap? h.curPlay ((h.xVal rs1).toNat % 2 ^ 16) = none →
        exec (.cueYield rs1) s = .next (s.takeTrap n 0x09 h.cueptr.toNat h.pc))) ∧
    (Claims.canLeave s n → ∃ t, exec .cueExit s = .next t ∧ Claims.left h (t.hart n)) ∧
    (Claims.canLeave s n → (s.cluster (hartCluster n)).sess = none → h.net = none → ∀ q x, s.plays.find? (fun e => e.1 == h.curPlay) = some (q, x) →
      ∃ t, exec .cueExit s = .next t ∧
        (t.pentry x.entry).w3.toNat / 2 ^ 32 % 2 ^ 16 = (s.pentry x.entry).w3.toNat / 2 ^ 32 % 2 ^ 16 - 1 ∧
        KMap.get [] (t.slice (hartSlice n)).pools h.curPlay = KMap.get [] (s.slice (hartSlice n)).pools h.curPlay ++ [h.cueptr]) ∧
    ((h.house = true ∨ h.helper.isSome = true) → ∀ rs1, exec (.cueYield rs1) s = .next (s.takeTrap n 0x01 (Instr.cueYield rs1).bits h.pc)) ∧
    (h.house = true → exec .cueExit s = .next (s.takeTrap n 0x01 (Instr.cueExit).bits h.pc)) ∧
    (∀ rd, exec (.cueSelf rd) s = .next ((s.setX n rd h.cueptr false).done n (.cueSelf rd) (.seq none)))

/-- R244, R237: cue.resume, in house mode only. A faulty record, or one that is not ready, is a record fault (a double trap,
since it is taken in house mode); a play that is not live refuses with 1; a fresh record starts in cue mode at its pc with
a0 to a3 from the record, under the next register generation. -/
def Claims.CueResumed : Prop :=
  ∀ (s : State) (n : Nat) (rd rs1 : Reg), Free s n → (s.hart n).xUse rs1 →
    let h := s.hart n
    let i := Instr.cueResume rd rs1
    let a := (h.xVal rs1).toNat
    (h.house = false → exec i s = .next (s.takeTrap n 0x01 i.bits h.pc)) ∧
    (h.house = true → ∀ v t, Claims.record s n a v t →
      ((Claims.faulty v ∨ Claims.vfld v 160 4 ≠ 0) → exec i s = .next (t.doubleTrap n)) ∧
      (¬ Claims.faulty v → Claims.vfld v 160 4 = 0 → ¬ Claims.liveIn t (Claims.vfld v 128 16) →
        exec i s = .next ((t.setX n rd 1 false).done n i (.seq none))) ∧
      (¬ Claims.faulty v → Claims.vfld v 160 4 = 0 → Claims.liveIn t (Claims.vfld v 128 16) → Claims.vfld v 175 1 = 0 → Claims.vfld v 172 2 = 0 →
        ∃ u, exec i s = .next u ∧ (u.hart n).house = false ∧ (u.hart n).pc.toNat = Claims.vfld v 0 64 ∧
          (u.hart n).cueptr.toNat = Claims.vfld v 64 64 ∧ (u.hart n).curPlay = Claims.vfld v 128 16 ∧
          (u.hart n).curAct = Claims.vfld v 144 16 ∧ (u.hart n).resume = some (h.pc + 4, rd) ∧
          (∀ k, k < 4 → ((u.hart n).xVal (BitVec.ofNat 5 (10 + k))).toNat = Claims.vfld v (256 + 64 * k) 64) ∧
          (h.rgen ≠ 255 → (u.hart n).rgen = h.rgen + 1) ∧ (h.rgen = 255 → (u.hart n).rgen = 1) ∧
          (u.hart n).lp0.lpc = 0 ∧ (u.hart n).vflags = 0 ∧ (u.hart n).venab = 0 ∧ (u.hart n).gmode = 0 ∧ (u.hart n).dmask = 0))

/-- R247, R248 on the hart's own bank: cue.wait reads the word at its home; one that differs is the result, one that equals
suspends the cue with a watch on its granule. -/
def Claims.CueWait : Prop :=
  ∀ (s : State) (n : Nat) (rd rs1 rs2 : Reg) (o : Nat) (g : BitVec 16), Free s n → (s.hart n).xUse rs1 → (s.hart n).xUse rs2 →
    let h := s.hart n
    let i := Instr.cueWait rd rs1 rs2
    (h.xVal rs1).toNat = Claims.bankBase + o → o + 8 ≤ 2 ^ 17 → Claims.canLeave s n → Claims.covered s (n / 4) o 8 g →
    (h.gmode.getLsbD 1 = false ∨ (Claims.bankGran s (n / 4) (o / 32)).tag = g) →
    let w := Claims.number ((List.range 8).map fun k => (Claims.seen (Claims.bankGran s (n / 4) (o / 32)) g (o % 32 + k)).1)
    (o % 8 ≠ 0 → exec i s = .next (s.takeTrap n 0x05 (Claims.bankBase + o) h.pc)) ∧
    (o % 8 = 0 → w ≠ (h.xVal rs2).toNat → exec i s =
      .next ((s.setX n rd (BitVec.ofNat 64 w) (Claims.seen (Claims.bankGran s (n / 4) (o / 32)) g 0).2).done n i (.seq none))) ∧
    (o % 8 = 0 → w = (h.xVal rs2).toNat → (s.core (n / 4)).watch.length < 64 →
      ∃ t, exec i s = .next t ∧ Claims.left h (t.hart n) ∧
        (t.core (n / 4)).watch = (s.core (n / 4)).watch ++ [⟨n, h.cueptr, h.curPlay, .word (2 * (n / 4 * 4096 + o / 32) + 1)⟩])

/-- R249: cue.spawn. A queue number or template that breaks a condition is a record fault, after the traps of the template's
load that the order of R288 puts before it; a full queue gives 1, an empty
pool 2; else the fresh record, with the first area of the pool, is the last of the act's queue and rd is 0. -/
def Claims.CueSpawn : Prop :=
  ∀ (s : State) (n : Nat) (rd rs1 rs2 : Reg), Free s n → (s.hart n).xUse rs1 → (s.hart n).xUse rs2 → (s.hart n).house = false →
    let h := s.hart n
    let i := Instr.cueSpawn rd rs1 rs2
    let a := (h.xVal rs1).toNat
    let q := (h.xVal rs2).toNat
    let acts : List Act := match s.plays.find? (fun e => e.1 == h.curPlay) with | some e => e.2.acts | none => []
    ((16 ≤ q ∨ acts.length ≤ q) →
      (∀ v t, Claims.record s n a v t → exec i s = .next (t.takeTrap n 0x09 q h.pc)) ∧
      ∀ c w t, hartLoad n a 64 s = (.error (.trap c w), t) →
        exec i s = .next (if c = 0x0C then t.takeTrap n 0x09 q h.pc else t.takeTrap n c w h.pc)) ∧
    (q < 16 → ∀ act, acts[q]? = some act → ∀ v t, Claims.record s n a v t →
      ((Claims.vfld v 64 192 ≠ 0 ∨ Claims.vfld v 0 1 = 1) → exec i s = .next (t.takeTrap n 0x09 a h.pc)) ∧
      (Claims.vfld v 64 192 = 0 → Claims.vfld v 0 1 = 0 →
        let k := hartSlice n
        let aq : ActQ := KMap.get {} (t.slice k).acts (h.curPlay * 16 + q)
        let pool : List Word := KMap.get [] (t.slice k).pools h.curPlay
        (act.depth ≤ aq.queue.length → exec i s = .next ((t.setX n rd 1 false).done n i (.seq none))) ∧
        (aq.queue.length < act.depth → pool = [] → exec i s = .next ((t.setX n rd 2 false).done n i (.seq none))) ∧
        (aq.queue.length < act.depth → ∀ sap rest, pool = sap :: rest → Claims.liveIn t h.curPlay → act.latency = false → h.curPlay < 2 ^ 16 →
          ∃ u, exec i s = .next u ∧ (u.hart n).xVal rd = 0 ∧ KMap.get [] (u.slice k).pools h.curPlay = rest ∧
            ∃ r : Vec, (KMap.get {} (u.slice k).acts (h.curPlay * 16 + q) : ActQ).queue = aq.queue ++ [⟨r, t.cycle.toNat⟩] ∧
              Claims.vfld r 0 64 = Claims.vfld v 0 64 ∧ Claims.vfld r 64 64 = sap.toNat ∧ Claims.vfld r 128 16 = h.curPlay ∧
              Claims.vfld r 144 16 = q ∧ Claims.vfld r 160 96 = 0 ∧ Claims.vfld r 256 256 = Claims.vfld v 256 256)))

/-! ### Lookahead and events (R59-R62, R119, R120) -/

/-- R59, R61: a pending result whose window has closed, of registers alone, is written and is no longer pending; one whose
window is open does not complete. An instruction with a window leaves its result pending, and each window closes by one
as an instruction completes. -/
def Obligations.LookaheadCompletes : Prop :=
  (∀ (s : State) (n k : Nat) (p : Pending), (s.hart n).pending[k]? = some p → p.window ≠ 0 →
    exec (.lookaheadCompletion n k) s = .next s) ∧
  (∀ (s : State) (n k : Nat) (p : Pending), n < Config.harts → (s.hart n).pending[k]? = some p → p.net = none → p.accs = [] →
    p.engs = [] → p.closes = false → p.stores = [] → p.events = 0 → p.window = 0 → (∀ q ∈ (s.hart n).streams, q.2.act = false) →
    ∃ t, exec (.lookaheadCompletion n k) s = .next t ∧ (t.hart n).pending = (s.hart n).pending.eraseIdx k ∧
      t.mem = s.mem ∧ t.cores = s.cores ∧ (t.hart n).pc = (s.hart n).pc ∧
      (∀ x v, p.xs = [(x, v)] → p.vs = [] → p.ms = [] → (t.hart n).xVal x = (if x = 0 then 0 else v.val) ∧ (t.hart n).xPois x = (x != 0 && v.poison)) ∧
      (∀ x v, p.xs = [] → p.vs = [(x, v)] → p.ms = [] → (t.hart n).vVal x = v.val ∧ (t.hart n).vPois x = v.poison ∧
        (t.hart n).vFmt x = v.fmt.toNat)) ∧
  (∀ (s : State) (n : Nat) (i : Instr) (p : Pending), (optsOf i).window ≠ 0 →
    ((s.gave n i p).done n i (.seq none)).hart n = { s.hart n with
      instret := (s.hart n).instret + 1, rewait := none
      pending := (s.hart n).pending.map (fun q => { q with window := q.window - 1 }) ++
        [{ p with window := (optsOf i).window, pc := (s.hart n).pc }]
      pc := (((s.hart n).evalLoops i.len none)).pc
      lp0 := (((s.hart n).evalLoops i.len none)).lp0
      lp1 := (((s.hart n).evalLoops i.len none)).lp1 })

/-- R119, R120: events are accumulated in vflags; where none of them is enabled the hart goes on; where one is, it parks
with the pc and the events, and the kind-7 message of R292 is on its way to its supervisor or there. -/
def Obligations.EventsAndParking : Prop :=
  ∀ (s : State) (n : Nat) (pc : Word) (ev : BitVec 5), n < Config.harts → (s.hart n).run = .active → (s.hart n).role = .solo →
    let h := s.hart n
    let t := s.raiseEvents n pc ev
    (t.hart n).vflags = h.vflags ||| ev ∧ (t.hart n).x = h.x ∧ (t.hart n).v = h.v ∧ (t.hart n).venab = h.venab ∧ t.mem = s.mem ∧
    (ev &&& h.venab = 0 → t = s.setHart n { h with vflags := h.vflags ||| ev }) ∧
    (ev &&& h.venab ≠ 0 →
      (t.hart n).run = .parked pc ev ∧
      ∃ e : Entry, e.payload.toNat = pc.toNat + 2 ^ 64 * ev.toNat + 2 ^ 72 * h.venab.toNat ∧ Claims.fld e.side 60 4 = 7 ∧
        Claims.fld e.side 0 20 = n % 2 ^ 20 ∧
        ((∃ q ∈ t.transit, q.sender = n ∧ q.receiver = h.fpsup.toNat ∧ q.entry = e) ∨
          e ∈ (t.box h.fpsup.toNat).inbox ∨ e ∈ (t.box h.fpsup.toNat).ring))

/-! ### Allocation (R271-R276) -/

namespace Claims

/-- The allocation table of a bank (0 to 15) or of the accumulator store (16) of a cluster, and it replaced. -/
def table (s : State) (cl u : Nat) : KMap Alloc := if u < 16 then (s.core (16 * cl + u)).alloc else (s.cluster cl).accAlloc
def withTable (s : State) (cl u : Nat) (t : KMap Alloc) : State :=
  if u < 16 then s.setCore (16 * cl + u) { s.core (16 * cl + u) with alloc := t }
  else s.setCluster cl { s.cluster cl with accAlloc := t }

/-- The value `i` steps upwards from `g`, 65,535 being followed by 1 (R271). -/
def upFrom (g : BitVec 16) (i : Nat) : BitVec 16 := BitVec.ofNat 16 ((g.toNat + i - 1) % 65535 + 1)
/-- An entry of the cluster holds the value. -/
def heldIn (s : State) (cl : Nat) (g : BitVec 16) : Prop :=
  ∃ u, u < 17 ∧ ∃ e ∈ table s cl u, e.2.st ≠ .free ∧ e.2.gen = g
/-- The next value to issue: the first upwards that no entry holds. -/
def nextIs (s : State) (cl : Nat) (g : BitVec 16) : Prop :=
  ∃ i, 1 ≤ i ∧ i ≤ 265 ∧ g = upFrom (s.cluster cl).kgen i ∧ ¬ heldIn s cl g ∧
    ∀ j, 1 ≤ j → j < i → heldIn s cl (upFrom (s.cluster cl).kgen j)

/-- The handle of an entry (R272). -/
def handleOf (u i : Nat) (a : Alloc) : Word :=
  BitVec.ofNat 64 (2 ^ 48 * a.gen.toNat + 2 ^ 44 * i + (if u = 16 then 2 ^ 43 else 2 ^ 37 * u) + (if a.sealed then 2 ^ 42 else 0) +
    (if a.forensic then 2 ^ 41 else 0) + 2 ^ 17 * a.len + a.base)

/-- A handle names a live entry: gen, index, store, bank, length and base match (R275). -/
def names (s : State) (cl : Nat) (h : Word) (u i : Nat) (a : Alloc) : Prop :=
  u ≤ 16 ∧ i = fld h 44 4 ∧ fld h 43 1 = (if u = 16 then 1 else 0) ∧ fld h 37 4 = (if u = 16 then 0 else u) ∧
    KMap.get {} (table s cl u) i = a ∧ a.st = .live ∧ a.gen.toNat = fld h 48 16 ∧ a.base = fld h 0 17 ∧ a.len = fld h 17 13

/-- The partition of a cluster permits forensic allocation. -/
def forensicIn (s : State) (cl : Nat) : Prop := ∃ q p, s.partOfCluster cl = some (q, p) ∧ p.dbg.getLsbD 0 = true

/-- What an allocation of the granules `base` to `base + 32 len` in table `u` gives (R274). -/
def allocates (s : State) (n u base len : Nat) (forensic limits : Prop) (i : Instr) (rd : Reg) : Prop :=
  let cl := n / 4 / 16
  let size := if u = 16 then 8 else 16
  let last := if (s.hart n).house then size else size - 1
  let answers (w : Word) : Prop := exec i s = .next ((s.setX n rd w false).done n i (.seq none))
  let clash : Prop := ∃ e ∈ table s cl u, e.2.st ≠ .free ∧ e.2.base < base + 32 * len ∧ base < e.2.base + 32 * e.2.len
  (¬ limits → answers 3) ∧
  (limits → forensic → ¬ forensicIn s cl → answers 4) ∧
  (limits → (forensic → forensicIn s cl) → clash → answers 2) ∧
  (limits → (forensic → forensicIn s cl) → ¬ clash → (∀ j, j < last → (KMap.get {} (table s cl u) j).st ≠ .free) → answers 1) ∧
  (limits → (forensic → forensicIn s cl) → ¬ clash → ∀ j g, j < last → (KMap.get {} (table s cl u) j).st = .free →
    (∀ l, l < j → (KMap.get {} (table s cl u) l).st ≠ .free) → nextIs s cl g →
    (∀ r ∈ (s.cluster cl).reuse, r.gen ≠ g) → ∀ f : Bool, (f = true ↔ forensic) →
      let a : Alloc := { st := .live, base := base, len := len, gen := g, sealed := false, forensic := f }
      let t := withTable s cl u (KMap.set {} (table s cl u) j a)
      let t := t.setCluster cl { t.cluster cl with kgen := g }
      exec i s = .next ((t.setX n rd (handleOf u j a) false).done n i (.seq none)))

end Claims

/-- R271 to R274: salloc and salloc.a give their status code, or take the lowest free entry under the next generation value
and give its handle; no granule changes. The last entry is never taken in cue mode. -/
def Claims.Allocation : Prop :=
  ∀ (s : State) (n : Nat) (rd rs1 rs2 : Reg), Free s n → (s.hart n).xUse rs1 → (s.hart n).xUse rs2 →
    let b := ((s.hart n).xVal rs1).toNat
    let l := (s.hart n).xVal rs2
    let len := Claims.fld l 0 18
    let rows := Claims.fld l 0 9
    Claims.allocates s n (n / 4 % 16) b (len / 32) (Claims.fld l 63 1 = 1)
      (b % 32 = 0 ∧ len % 32 = 0 ∧ 32 ≤ len ∧ len ≤ 131072 ∧ b + len ≤ 0x20000 ∧ Claims.fld l 18 45 = 0) (.salloc rd rs1 rs2) rd ∧
    Claims.allocates s n 16 (512 * b) (16 * rows) (Claims.fld l 63 1 = 1)
      (1 ≤ rows ∧ rows ≤ 256 ∧ b + rows ≤ 256 ∧ Claims.fld l 9 54 = 0) (.sallocA rd rs1 rs2) rd

/-- R275, R276, R285: sfree of a handle that names a live entry frees it (a forensic one is retired), removes its tiles and
moves the counter to the next value; no granule changes. gen.rd reads the handle, the granule or the counter. -/
def Claims.FreeAndInspect : Prop :=
  ∀ (s : State) (n : Nat) (rd rs1 : Reg), Free s n → (s.hart n).xUse rs1 →
    let h := s.hart n
    let cl := n / 4 / 16
    let w := h.xVal rs1
    let i := Instr.sfree rd rs1
    ((∀ u j a, ¬ Claims.names s cl w u j a) → exec i s = .next ((s.setX n rd 1 false).done n i (.seq none))) ∧
    (∀ u j a, Claims.names s cl w u j a →
      (h.house = false → j = (if u = 16 then 7 else 15) → exec i s = .next ((s.setX n rd 2 false).done n i (.seq none))) ∧
      ((h.house = true ∨ j ≠ (if u = 16 then 7 else 15)) → ∃ t, exec i s = .next t ∧ (t.hart n).xVal rd = 0 ∧
        KMap.get {} (Claims.table t cl u) j = (if a.forensic then { a with st := .retired, sealed := false } else {}) ∧
        (∀ v k, (v, k) ≠ (u, j) → v < 17 → KMap.get {} (Claims.table t cl v) k = KMap.get {} (Claims.table s cl v) k) ∧
        (∀ g, Claims.nextIs (Claims.withTable s cl u (KMap.set {} (Claims.table s cl u) j (KMap.get {} (Claims.table t cl u) j))) cl g →
          (t.cluster cl).kgen = g) ∧
        (∀ c, (t.core c).gran = (s.core c).gran) ∧ (t.cluster cl).acc = (s.cluster cl).acc ∧ t.mem = s.mem ∧
        (u < 16 → ∀ q ∈ (t.core (16 * cl + u)).tiles, ∀ x, q.2 = some x → ¬ (a.base ≤ x.base ∧ x.base < a.base + 32 * a.len)))) ∧
    (let gives (sel : BitVec 2) (v : Word) : Prop :=
       exec (.genRd rd rs1 sel) s = .next ((s.setX n rd v false).done n (.genRd rd rs1 sel) (.seq none))
     (∀ o, w.toNat = Claims.bankBase + o → o < 2 ^ 17 →
        gives 0 (match covering (s.core (n / 4)).alloc o with | some e => Claims.handleOf (n / 4 % 16) e.1 e.2 | none => 0) ∧
        (let r := Claims.bankGran s (n / 4) (o / 32)
         gives 1 (BitVec.ofNat 64 (r.tag.toNat + (if r.poison then 2 ^ 16 else 0) +
            (if (covering (s.core (n / 4)).alloc (32 * (o / 32))).map (·.2.gen) = some r.tag then 2 ^ 17 else 0))))) ∧
      gives 2 (BitVec.ofNat 64 (s.cluster cl).kgen.toNat) ∧
      (∀ _ : w.toNat < 0x20000, gives 3 (match covering (s.cluster cl).accAlloc w.toNat with | some e => Claims.handleOf 16 e.1 e.2 | none => 0)) ∧
      (w.toNat < 2 ^ 56 → gives 0 0 ∧ gives 1 0))

/-! ### Atomics (R202-R204) -/

namespace Claims

/-- The atomics: what they write from old, v and c, and whether they read c. -/
def amos : List ((Bool → Bool → BitVec 3 → Reg → Reg → Reg → Instr) × (Word → Word → Word → Word) × Bool) :=
  [(.amoAdd, (fun old v _ => BitVec.ofNat 64 (old.toNat + v.toNat)), false), (.amoSwap, (fun _ v _ => v), false),
   (.amoCas, (fun old v c => if old = c then v else old), true),
   (.amoMin, (fun old v _ => BitVec.ofInt 64 (min old.toInt v.toInt)), false),
   (.amoMax, (fun old v _ => BitVec.ofInt 64 (max old.toInt v.toInt)), false),
   (.amoMinu, (fun old v _ => BitVec.ofNat 64 (min old.toNat v.toNat)), false),
   (.amoMaxu, (fun old v _ => BitVec.ofNat 64 (max old.toNat v.toNat)), false),
   (.amoAnd, (fun old v _ => old &&& v), false), (.amoOr, (fun old v _ => old ||| v), false), (.amoXor, (fun old v _ => old ^^^ v), false),
   (.amoAddb, (fun old v c => if old.toNat + v.toNat ≤ c.toNat then old + v else old), true)]

end Claims

/-- R202, R203, R204 with no release or acquire: an atomic on a word of the own bank, or of memory, returns the old value
and writes the new one at the home; the other bytes of the bank granule are kept. A poisoned register, a misaligned
address and a poisoned word trap. -/
def Obligations.Atomics : Prop :=
  ∀ (s : State) (n : Nat) (sc : BitVec 3) (rd rs1 rs2 : Reg), Free s n →
    let h := s.hart n
    ∀ q ∈ Claims.amos, let i := q.1 false false sc rd rs1 rs2
      h.xReads rs1 → h.xReads rs2 → (q.2.2 = true → h.xReads rd) →
      let a := (h.xVal rs1).toNat
      let v := h.xVal rs2
      let c := if q.2.2 then h.xVal rd else 0
      (h.xPois rs1 = true → exec i s = .next (s.takeTrap n 0x04 rs1.toNat h.pc)) ∧
      (h.xPois rs1 = false → h.xPois rs2 = true → exec i s = .next (s.takeTrap n 0x04 rs2.toNat h.pc)) ∧
      (h.xPois rs1 = false → h.xPois rs2 = false → (q.2.2 = true → h.xPois rd = false) →
        (a % 8 ≠ 0 → exec i s = .next (s.takeTrap n 0x05 a h.pc)) ∧
        (∀ o e, a % 8 = 0 → a = Claims.bankBase + o → o < 2 ^ 17 → covering (s.core (n / 4)).alloc (o / 32 * 32) = some e → e.2.sealed = false →
          let r := Claims.bankGran s (n / 4) (o / 32)
          (h.gmode.getLsbD 1 = false ∨ h.house = true ∨ r.tag = e.2.gen) →
          (r.tag = e.2.gen → r.poison = true → exec i s = .next (s.takeTrap n 0x04 a h.pc)) ∧
          ((r.tag = e.2.gen → r.poison = false) →
            let old : Word := BitVec.ofNat 64 (Claims.number ((List.range 8).map fun k => (Claims.seen r e.2.gen (o % 32 + k)).1))
            ∃ t, exec i s = .next t ∧ (∀ m, t.hart m = ((s.setX n rd old false).done n i (.seq none)).hart m) ∧ t.mem = s.mem ∧
              (Claims.bankGran t (n / 4) (o / 32)).tag = e.2.gen ∧
              (∀ j, j < 32 → KMap.get 0 (Claims.bankGran t (n / 4) (o / 32)).data j =
                Claims.written r e.2.gen (o / 32 * 32) o (Claims.bytes 8 (q.2.1 old v c).toNat) j) ∧
              ∀ g, g ≠ o / 32 → Claims.bankGran t (n / 4) g = Claims.bankGran s (n / 4) g)) ∧
        (∀ pa, a % 8 = 0 → Claims.maps s n a .write pa → pa % 32 = a % 32 → (∀ r ∈ s.sealTable, ¬ (r.1 ≤ pa ∧ pa < r.1 + r.2.1)) →
          KMap.get false s.memPoison (pa / 64) = false →
          let old : Word := BitVec.ofNat 64 (Claims.number ((List.range 8).map fun k => KMap.get 0 s.mem (pa + k)))
          ∃ t, exec i s = .next t ∧ (∀ m, (t.hart m).x = (((s.setX n rd old false).done n i (.seq none)).hart m).x) ∧
            (∀ x, KMap.get 0 t.mem x = if pa ≤ x ∧ x < pa + 8 then (Claims.bytes 8 (q.2.1 old v c).toNat).getD (x - pa) 0 else KMap.get 0 s.mem x) ∧
            ∀ k, (t.core k).gran = (s.core k).gran))

/-! ### Streams (R190-R197) -/

namespace Claims

/-- The stream a descriptor gives (R190). -/
def streamOf (bs : List Byte) : Stream :=
  let f (i k : Nat) : Nat := number ((bs.drop i).take k)
  let sx (v : Nat) : Word := BitVec.ofInt 64 (BitVec.ofNat 32 v).toInt
  { base := BitVec.ofNat 64 (f 0 8), stra := sx (f 8 4), strb := sx (f 12 4), cnt := BitVec.ofNat 64 (f 16 8)
    ctl := BitVec.ofNat 64 (f 24 4) }

/-- The descriptor keeps the conditions of R190, with no other stream active. -/
def descFine (bs : List Byte) : Prop :=
  let t := streamOf bs
  fld t.ctl 30 2 = 0 ∧ fld t.ctl 20 10 = 0 ∧ fld t.ctl 13 3 = 0 ∧ fld t.ctl 7 1 = 0 ∧ number (bs.drop 28) = 0 ∧
    (fld t.ctl 5 1 = 0 → fld t.ctl 0 5 ≠ 0) ∧ (fld t.ctl 12 1 = 1 → t.stra = 0 ∧ t.strb = 0 ∧ fld t.ctl 6 1 = 0)

/-- The address and size of the next element (R192). -/
def elemAddr (t : Stream) : Nat :=
  (t.base + BitVec.ofInt 64 (fld t.pos 0 32 * t.stra.toInt) + BitVec.ofInt 64 (fld t.pos 32 32 * t.strb.toInt)).toNat
def elemSize (t : Stream) : Nat := if fld t.ctl 5 1 = 1 then 64 else 2 ^ fld t.ctl 8 2

/-- Hart `n` runs with one active stream, number `k`, that reads memory into x register `r`, with elements left and none
fetched ahead. -/
def streaming (s : State) (n k : Nat) (r : Reg) (t : Stream) : Prop :=
  s.cur = .hart n ∧ n < Config.harts ∧ (s.hart n).run = .active ∧ (s.hart n).role = .solo ∧ (s.hart n).pending = [] ∧
    (s.hart n).streams = [(k, t)] ∧ r ≠ 0 ∧ fld t.ctl 31 1 = 1 ∧ fld t.ctl 0 5 = r.toNat ∧ fld t.ctl 5 2 = 0 ∧ fld t.ctl 12 1 = 0 ∧ t.ahead = [] ∧
    fld t.pos 0 32 < fld t.cnt 0 32 ∧ fld t.pos 32 32 < fld t.cnt 32 32

end Claims

/-- R190, R196: sbind reads its descriptor and binds the stream from it; sunbind of an inactive stream has no effect; sstat
gives the status of a stream that is not active. A misaligned or bad descriptor traps and binds nothing. -/
def Claims.StreamBinding : Prop :=
  ∀ (s : State) (n : Nat), Free s n →
    let h := s.hart n
    (∀ (k : BitVec 2) rs1, h.xUse rs1 → let i := Instr.sbind k rs1
      let a := (h.xVal rs1).toNat
      (a % 32 ≠ 0 → exec i s = .next (s.takeTrap n 0x05 a h.pc)) ∧
      (a % 32 = 0 → ∀ bs t, hartLoad n a 32 s = (.ok bs, t) → (∀ b ∈ bs, b.2 = false) →
        let d := Claims.streamOf (bs.map (·.1))
        (¬ Claims.descFine (bs.map (·.1)) → exec i s = .next (t.takeTrap n 0x09 a h.pc)) ∧
        (Claims.descFine (bs.map (·.1)) → Claims.fld d.ctl 12 1 = 0 → exec i s =
          .next ((t.setHart n ((t.hart n).setStream k.toNat { d with ctl := BitVec.ofNat 64 (d.ctl.toNat + 2 ^ 31) })).done n i (.seq none))))) ∧
    (∀ k, exec (.sunbind k) s = .next (s.done n (.sunbind k) (.seq none))) ∧
    (∀ rd (k : BitVec 2), let t : Stream := KMap.get {} h.streams k.toNat
      exec (.sstat rd k) s = .next ((s.setX n rd (BitVec.ofNat 64 (2 * Claims.fld t.ctl 6 1 + 4 * Claims.fld t.ctl 30 1 +
        2 ^ 32 * min t.moved (2 ^ 32 - 1))) false).done n (.sstat rd k) (.seq none)))

/-- R192, R193, R195, R196, R343: an instruction that names a read-bound register pops the next element, extended as the control
word says, once; past the last element it pops zero and notes the overrun; a read-ahead keeps the element for the pop;
sunbind ends the stream. A fault of the element leaves the stream and every register alone; where the instruction itself
then traps, as a branch on a poisoned element does, the pop stands. -/
def Claims.StreamPop : Prop :=
  (∀ (s : State) (n k : Nat) (r rd : Reg) (t : Stream), Claims.streaming s n k r t → rd ≠ r → rd ≠ 0 →
    let i := Instr.rv64iAlu .add rd r (.reg r)
    let a := Claims.elemAddr t
    let sz := Claims.elemSize t
    (a % sz ≠ 0 → exec i s = .next (s.takeTrap n 0x05 a (s.hart n).pc)) ∧
    (a % sz = 0 → ∀ bs u, hartLoad n a sz s = (.ok bs, u) →
      let v : Int := Claims.number (bs.map (·.1))
      let e : Word := BitVec.ofInt 64 (if Claims.fld t.ctl 10 1 = 1 ∧ 2 ^ (8 * sz - 1) ≤ v then v - 2 ^ (8 * sz) else v)
      ∃ w, exec i s = .next w ∧ (w.hart n).xVal rd = e + e ∧ (w.hart n).xVal r = e ∧ (w.hart n).xPois rd = bs.any (·.2) ∧
        ∃ t', (w.hart n).streams = [(k, t')] ∧ t'.moved = t.moved + 1 ∧ t'.ctl = t.ctl ∧
          (Claims.fld t.pos 0 32 + 1 < Claims.fld t.cnt 0 32 → t'.pos.toNat = t.pos.toNat + 1) ∧
          (Claims.fld t.pos 0 32 + 1 = Claims.fld t.cnt 0 32 → t'.pos.toNat = 2 ^ 32 * ((Claims.fld t.pos 32 32 + 1) % 2 ^ 32))) ∧
    (a % sz = 0 → ∀ c v u, hartLoad n a sz s = (.error (.trap c v), u) → exec i s = .next (s.takeTrap n c a (s.hart n).pc)) ∧
    (a % sz = 0 → ∀ bs u, hartLoad n a sz s = (.ok bs, u) → bs.any (·.2) = true → ∀ off,
      ∃ w : State, exec (.branch .beq r r off) s = .next (w.takeTrap n 0x04 r.toNat (s.hart n).pc) ∧ (w.hart n).xPois r = true ∧
        (∃ t', (w.hart n).streams = [(k, t')] ∧ t'.moved = t.moved + 1) ∧ (w.hart n).pc = (s.hart n).pc ∧
        (w.hart n).instret = (s.hart n).instret ∧ ∀ q, q ≠ r → (w.hart n).xVal q = (s.hart n).xVal q) ∧
    (a % sz = 0 → k < 4 → ∀ bs u, hartLoad n a sz s = (.ok bs, u) → exec (.streamReadAhead n k) s =
      .next (u.setHart n ((u.hart n).setStream k { t with ahead := [{ bytes := bs.map (·.1), poison := bs.any (·.2) }] }))) ∧
    (∀ k2 : BitVec 2, k2.toNat = k → t.last = none → t.pin = none → ∃ w, exec (.sunbind k2) s = .next w ∧ (w.hart n).xVal r = 0 ∧
      ∃ t', (w.hart n).streams = [(k, t')] ∧ t'.ctl.toNat = t.ctl.toNat - 2 ^ 31 - 2 ^ 30 * Claims.fld t.ctl 30 1 ∧ t'.pos = t.pos)) ∧
  (∀ (s : State) (n k : Nat) (r rd : Reg) (t : Stream), s.cur = .hart n → n < Config.harts → (s.hart n).run = .active →
    (s.hart n).role = .solo → (s.hart n).pending = [] → (s.hart n).streams = [(k, t)] → r ≠ 0 → rd ≠ r → rd ≠ 0 →
    Claims.fld t.ctl 31 1 = 1 → Claims.fld t.ctl 0 5 = r.toNat → Claims.fld t.ctl 5 2 = 0 → t.cnt = 0 →
    let i := Instr.rv64iAlu .add rd r (.reg r)
    (Claims.fld t.ctl 11 1 = 1 → exec i s = .next (s.takeTrap n 0x0B k (s.hart n).pc)) ∧
    (Claims.fld t.ctl 11 1 = 0 → ∃ w, exec i s = .next w ∧ (w.hart n).xVal rd = 0 ∧
      ∃ t', (w.hart n).streams = [(k, t')] ∧ Claims.fld t'.ctl 30 1 = 1))

/-! ### Sealing (R198-R201) -/

/-- R198 to R200: seal and unseal give 3 for a bad region, 4 for a scratchpad region that is no whole allocation, 2 where
it is sealed, or (for unseal) no whole region of one seal; else the allocation, or the physical page, is sealed (no longer
is) and the code is 0 (log 53 for the order of the codes). What a store buffer holds of the page is written first, and no
older value of an unsealed page is left to be read (R201). -/
def Obligations.Sealing : Prop :=
  ∀ (s : State) (n : Nat) (rd rs1 rs2 : Reg), Free s n → (s.hart n).xUse rs1 → (s.hart n).xUse rs2 →
    let h := s.hart n
    let a := (h.xVal rs1).toNat
    let len := (h.xVal rs2).toNat
    let is := Instr.seal rd rs1 rs2
    let iu := Instr.unseal rd rs1 rs2
    let answers (i : Instr) (w : Word) : Prop := exec i s = .next ((s.setX n rd w false).done n i (.seq none))
    -- no other hart has a lookahead store that it has not made
    let quiet : Prop := ∀ q ∈ s.harts, q.1 ≠ n → ∀ x ∈ q.2.pending, x.stores = []
    ((a % 4096 ≠ 0 ∨ len % 4096 ≠ 0 ∨ len = 0 ∨ 2 ^ 36 < len) → answers is 3 ∧ answers iu 3) ∧
    (∀ o, a = Claims.bankBase + o → a % 4096 = 0 → len % 4096 = 0 → len ≠ 0 → o + len ≤ 2 ^ 17 →
      let t := (s.core (n / 4)).alloc
      let exact (e : Nat × Alloc) : Bool := e.2.st == .live && e.2.base == o && 32 * e.2.len == len
      (t.find? exact = none → answers is 4 ∧ answers iu 4) ∧
      (∀ e, t.find? exact = some e →
        (e.2.sealed = true → answers is 2 ∧ ∃ u, exec iu s = .next u ∧ (u.hart n).xVal rd = 0 ∧
          (u.core (n / 4)).alloc = KMap.set {} t e.1 { e.2 with sealed := false } ∧ u.mem = s.mem) ∧
        (e.2.sealed = false → answers iu 2 ∧ (quiet → ∃ u, exec is s = .next u ∧ (u.hart n).xVal rd = 0 ∧
          (u.core (n / 4)).alloc = KMap.set {} t e.1 { e.2 with sealed := true })))) ∧
    (∀ pa, len = 4096 → a % 4096 = 0 → Claims.maps s n a .read pa → pa % 4096 = 0 →
      let mine (e : Nat × Nat × Bool) : Bool := e.1 < pa + 4096 && pa < e.1 + e.2.1
      (s.sealTable.any mine = true → ∃ u, exec is s = .next u ∧ (u.hart n).xVal rd = (if rd = 0 then 0 else 2) ∧ u.sealTable = s.sealTable) ∧
      (s.sealTable.any mine = false → (s.sealTable.filter fun e => !e.2.2).length < 960 → quiet →
        ∃ u, exec is s = .next u ∧ (u.hart n).xVal rd = 0 ∧ u.sealTable = s.sealTable ++ [(pa, 4096, false)] ∧
          u.seals = s.seals ++ [[(pa, 4096)]] ∧
          ∀ c, ∀ e ∈ (u.core c).psb, ¬ (e.loc % 2 = 0 ∧ pa ≤ 32 * (e.loc / 2) ∧ 32 * (e.loc / 2) < pa + 4096)) ∧
      ([(pa, 4096)] ∈ s.seals → ∃ u, exec iu s = .next u ∧ (u.hart n).xVal rd = 0 ∧
        u.sealTable = (s.sealTable.filter fun e => e != (pa, 4096, false)) ∧ u.seals = s.seals.erase [(pa, 4096)] ∧
        ∀ r ∈ u.log, ¬ (r.loc % 2 = 0 ∧ pa ≤ 32 * (r.loc / 2) ∧ 32 * (r.loc / 2) < pa + 4096)) ∧
      ([(pa, 4096)] ∉ s.seals → ∃ u, exec iu s = .next u ∧ (u.hart n).xVal rd = (if rd = 0 then 0 else 2) ∧
        u.sealTable = s.sealTable ∧ u.seals = s.seals))

/-! ### Messages, queues, barriers, calls, the combine network (R209-R236, R297-R301, R414-R426) -/

namespace Claims

/-- A sideband word (R226). -/
def side (kind scope reg sender : Nat) : Word := BitVec.ofNat 64 (2 ^ 60 * kind + 2 ^ 57 * scope + 2 ^ 52 * reg + sender)

/-- The receiver with one more entry in its inbox, or in its ring (R228). -/
def toInbox (s : State) (r : Nat) (e : Entry) : State := s.setBox r { s.box r with inbox := (s.box r).inbox ++ [e] }
def toRing (s : State) (r : Nat) (e : Entry) : State := s.setBox r { s.box r with ring := (s.box r).ring ++ [e] }

/-- How a hart's entry goes: into an inbox with room and an empty ring; else into a ring with more than sixteen entries
free; else nowhere (R228). -/
def inboxTakes (s : State) (r : Nat) : Prop := (s.box r).inbox.length < 16 ∧ (s.box r).ring = []
def ringTakes (s : State) (r : Nat) : Prop :=
  ¬ inboxTakes s r ∧ 16 < (s.box r).size - (s.box r).ring.length
def boxFull (s : State) (r : Nat) : Prop := ¬ inboxTakes s r ∧ ¬ 16 < (s.box r).size - (s.box r).ring.length

/-- An earlier message of the sender to the receiver is still on its way: a later one waits for it (R228). -/
def onTheWay (s : State) (n m : Nat) : Prop := ∃ q ∈ s.transit, q.sender = n ∧ q.receiver = m

/-- The instruction has not completed: it issues again. -/
def waits (s : State) (n : Nat) (i : Instr) : Prop :=
  ∃ t, exec i s = .next t ∧ (t.hart n).pc = (s.hart n).pc ∧ (t.hart n).instret = (s.hart n).instret

/-- The pins of a hart on one cue. -/
def pinsOn (h : Hart) (cue : Word) : List Pin := h.pins.filter fun p => p.cue == cue

/-- The two harts are of one partition. -/
def samePart (s : State) (n m : Nat) : Prop :=
  ∃ q p p', s.partOfCluster (hartCluster n) = some (q, p) ∧ s.partOfCluster (hartCluster m) = some (q, p')

/-- A 64-byte slot of the own bank that stores may write: its two granules lie in live allocations that are not sealed. -/
def ownSlot (s : State) (n o len : Nat) : Prop :=
  o + len ≤ 2 ^ 17 ∧ ∀ g, o / 32 ≤ g → g ≤ (o + len - 1) / 32 →
    ∃ e, covering (s.core (n / 4)).alloc (32 * g) = some e ∧ e.2.sealed = false
/-- The bytes of the own bank from an offset. -/
def bankBytes (s : State) (n o len : Nat) : List Byte :=
  (List.range len).map fun i => KMap.get 0 (bankGran s (n / 4) ((o + i) / 32)).data ((o + i) % 32)

end Claims

/-- R226 to R230: msg.send delivers 64 bytes as kind 1, msg.send.rel releases and delivers kind 2, msg.put lands in the
register or becomes a kind-3 entry; msg.recv and msg.poll take the oldest entry of the kinds the mode takes, store the
payload and give the sideband. A receiver without room, a receiver of another partition and a misaligned address trap; a
message behind an earlier one of its sender to that receiver waits. A message the inbox has room for is taken whatever is
free in the ring: that is the model's reading (log 32). -/
def Obligations.Messages : Prop :=
  (∀ (s : State) (n : Nat), Free s n →
    let h := s.hart n
    (∀ rs1 rs2, h.xUse rs1 → h.xUse rs2 → let a := (h.xVal rs1).toNat
      let id := (h.xVal rs2).toNat
      let i := Instr.msgSend rs1 rs2
      (id < Config.harts → ¬ Claims.samePart s n id → exec i s = .next (s.takeTrap n 0x09 id h.pc)) ∧
      (id < Config.harts → Claims.samePart s n id → a % 64 ≠ 0 → exec i s = .next (s.takeTrap n 0x05 a h.pc)) ∧
      (id < Config.harts → Claims.samePart s n id → a % 64 = 0 → ∀ bs t, hartLoad n a 64 s = (.ok bs, t) → (∀ b ∈ bs, b.2 = false) →
        let e : Entry := { payload := BitVec.ofNat 512 (Claims.number (bs.map (·.1))), side := Claims.side 1 0 0 n }
        (Claims.onTheWay t n id → Claims.waits s n i) ∧
        (¬ Claims.onTheWay t n id →
          (Claims.inboxTakes t id → exec i s = .next ((Claims.toInbox t id e).done n i (.seq none))) ∧
          (Claims.ringTakes t id → exec i s = .next ((Claims.toRing t id e).done n i (.seq none))) ∧
          (Claims.boxFull t id → exec i s = .next (t.takeTrap n 0x0A id h.pc)))) ∧
      (∀ sc : BitVec 3, let i := Instr.msgSendRel sc rs1 rs2
        id < Config.harts → Claims.samePart s n id → a % 64 = 0 → s.part = none → ∀ bs t,
        hartLoad n a 64 (s.release (.hart n) sc.toNat) = (.ok bs, t) → (∀ b ∈ bs, b.2 = false) → ¬ Claims.onTheWay t n id → Claims.inboxTakes t id →
        exec i s = .next ((Claims.toInbox t id { payload := BitVec.ofNat 512 (Claims.number (bs.map (·.1))), side := Claims.side 2 sc.toNat 0 n }).done n i (.seq none)))) ∧
    (∀ r rs1 rs2, h.xUse rs2 → let id := (h.xVal rs2).toNat
      let i := Instr.msgPut r rs1 rs2
      ((Config.harts ≤ id ∨ ¬ Claims.samePart s n id) → exec i s = .next (s.takeTrap n 0x09 id h.pc)) ∧
      (id < Config.harts → Claims.samePart s n id → h.xUse rs1 → (∀ q ∈ (s.hart id).streams, q.2.act = false) →
        let g := s.hart id
        (Claims.onTheWay s n id → Claims.waits s n i) ∧
        (¬ Claims.onTheWay s n id → g.house = false → r ≠ 0 → g.depmask.getLsbD r.toNat = true →
          exec i s = .next ((s.setX id r (h.xVal rs1) false).done n i (.seq none))) ∧
        (¬ Claims.onTheWay s n id → (g.house = true ∨ r = 0 ∨ g.depmask.getLsbD r.toNat = false) → g.run = .active → Claims.inboxTakes s id →
          exec i s = .next ((Claims.toInbox s id { payload := (h.xVal rs1).zeroExtend 512, side := Claims.side 3 0 r.toNat n }).done n i (.seq none))))) ∧
    (∀ rd rs1 o, h.xUse rs1 → (h.xVal rs1).toNat = Claims.bankBase + o →
      (o % 64 ≠ 0 → exec (.msgRecv rd rs1) s = .next (s.takeTrap n 0x05 (Claims.bankBase + o) h.pc) ∧
        exec (.msgPoll rd rs1) s = .next (s.takeTrap n 0x05 (Claims.bankBase + o) h.pc)) ∧
      (o % 64 = 0 → Claims.ownSlot s n o 64 → h.ring = [] →
        -- an entry is wanted: kind 5 in house mode, any other in cue mode
        let wants (e : Entry) : Bool := decide (Claims.fld e.side 60 4 = 5) == h.house
        (∀ pre e post, h.inbox = pre ++ e :: post → (∀ x ∈ pre, wants x = false) → wants e = true → Claims.fld e.side 60 4 ≠ 2 → Claims.fld e.side 60 4 ≠ 4 →
          ∀ i, i = .msgRecv rd rs1 ∨ i = .msgPoll rd rs1 → ∃ t, exec i s = .next t ∧
            (t.hart n).xVal rd = (if rd = 0 then 0 else e.side) ∧ (t.hart n).inbox = pre ++ post ∧ (t.hart n).ring = [] ∧ t.mem = s.mem ∧
            Claims.bankBytes t n o 64 = Claims.bytes 64 e.payload.toNat ∧ (t.hart n).instret = h.instret + 1) ∧
        ((∀ x ∈ h.inbox, wants x = false) →
          exec (.msgPoll rd rs1) s = .next ((s.setX n rd 0 false).done n (.msgPoll rd rs1) (.seq none)) ∧
          (h.house = true → ∃ t, exec (.msgRecv rd rs1) s = .next t ∧ (t.hart n).waiting = true ∧ (t.hart n).pc = h.pc ∧ (t.hart n).instret = h.instret) ∧
          (Claims.canLeave s n → (s.core (n / 4)).watch.length < 64 → (∀ w ∈ (s.core (n / 4)).watch, w.hart = n → w.on ≠ .inbox) →
            ∃ t, exec (.msgRecv rd rs1) s = .next t ∧ Claims.left h (t.hart n) ∧
              (t.core (n / 4)).watch = (s.core (n / 4)).watch ++ [⟨n, h.cueptr, h.curPlay, .inbox⟩]))))) ∧
  (∀ (s : State) (n m : Nat) (r : Reg) (v : Word), n < Config.harts → m < Config.harts → Claims.samePart s n m →
    (s.hart m).house = false → r ≠ 0 → (s.hart m).depmask.getLsbD r.toNat = true → (∀ q ∈ (s.hart m).streams, q.2.act = false) → ¬ Claims.onTheWay s n m →
    exec (.depositArrival n m r v) s = .next (s.setX m r v false)) ∧
  (∀ (s : State) (k : Nat) (q : Transit), s.transit[k]? = some q → q.entry.wake = false → Claims.inboxTakes s q.receiver →
    (∀ u ∈ s.transit.take k, ¬ (u.sender = q.sender ∧ u.receiver = q.receiver)) →
    ∃ t, exec (.messageDelivery k) s = .next t ∧ t.transit = s.transit.eraseIdx k ∧
      (t.box q.receiver).inbox = (s.box q.receiver).inbox ++ [q.entry])

/-- R231 to R233: dq.push appends under the tail number and gives it; dq.pop takes the head where its number is the expected
one, else traps and leaves it. -/
def Claims.DieQueues : Prop :=
  ∀ (s : State) (n : Nat), Free s n →
    let h := s.hart n
    let die := n / 12288
    ∀ part p, s.partOfCluster (hartCluster n) = some (part, p) →
    (∀ rd vs rs2, h.vReads vs → h.xUse rs2 → let i := Instr.dqPush rd vs rs2
      let t := (h.xVal rs2).toNat
      let k := (4 * die + t) * 16 + part
      let q : DieQ := KMap.get {} s.dieqs k
      (h.vPois vs = true → exec i s = .next (s.takeTrap n 0x04 (32 + vs.toNat) h.pc)) ∧
      (h.vPois vs = false → (4 ≤ t ∨ t = die) → exec i s = .next (s.takeTrap n 0x09 t h.pc)) ∧
      (h.vPois vs = false → t < 4 → t ≠ die → q.ents.length < 256 → exec i s =
        .next ((({ s with dieqs := KMap.set {} s.dieqs k { q with ents := q.ents ++ [(h.vVal vs, q.tail)], tail := q.tail + 1 } }).setX n rd
          (BitVec.ofNat 64 q.tail.toNat) false).done n i (.seq none)))) ∧
    (∀ vd rs1, h.xUse rs1 → let i := Instr.dqPop vd rs1
      let t := (h.xVal rs1).toNat
      let k := (4 * t + die) * 16 + part
      let q : DieQ := KMap.get {} s.dieqs k
      ((4 ≤ t ∨ t = die) → exec i s = .next (s.takeTrap n 0x09 t h.pc)) ∧
      (t < 4 → t ≠ die → ∀ v num rest, q.ents = (v, num) :: rest →
        (num = q.want → exec i s = .next ((({ s with dieqs := KMap.set {} s.dieqs k { q with ents := rest, want := q.want + 1 } }).setV n vd v 0 false).done n i (.seq none))) ∧
        (num ≠ q.want → exec i s = .next (s.takeTrap n 0x09 (q.want.toNat * 2 ^ 32 + num.toNat) h.pc))))

/-- The cue that what a hart hands over pins, with the hart that keeps the count: the leader's for a helper, else the cue
the hart runs (R252, R254). -/
def Claims.cueOf (h : Hart) (n : Nat) : Option (Nat × Word) :=
  match h.helper with
  | some l => some l
  | none => if h.house = true ∨ h.cueptr = 0 then none else some (n, h.cueptr)

/-- Its hart can keep one more pinned cue (R252). -/
def Claims.pinRoom (s : State) (n : Nat) : Prop := ∀ m cue, Claims.cueOf (s.hart n) n = some (m, cue) → (s.hart m).pins.length < 8

/-- A whole command of q0 stands last among those of the cluster's copy engine: as its check leaves it (R304), and either
failed by it, or pinning the cue. -/
def Claims.handsCmd (s t : State) (n : Nat) (c : CopyCmd) (l : List Word) : Prop :=
  (t.cluster (hartCluster n)).copy = (s.cluster (hartCluster n)).copy ++ [c] ∧ c.hart = n ∧ c.dir = none ∧ c.words = l ∧
    (if c.finished then c.status ≠ 0 ∧ (t.hart n).pins = (s.hart n).pins
     else c.pin = Claims.cueOf (s.hart n) n)

/-- A whole record of q1 stands last among the tasks of the slice, under the hart's next ticket (R337, R338). -/
def Claims.handsTask (s t : State) (n : Nat) (x : Task) (l : List Word) : Prop :=
  (t.slice (hartSlice n)).tasks = (s.slice (hartSlice n)).tasks ++ [x] ∧ x.hart = n ∧ x.dir = none ∧ x.op = 3 ∧
    x.tag = (l.headD 0).toNat / 2 ^ 32 ∧ x.ticket = (s.hart n).ticket.toNat ∧ x.pin = Claims.cueOf (s.hart n) n ∧
    (t.hart n).ticket = (s.hart n).ticket + 1

/-- R297 to R301: pushes gather the words of a command and hand a whole one to the engine, under a pin of the running cue;
pops take result words in order; q.stat counts, and a partial command that was discarded is none under way (R304). That the count of commands under way is taken modulo 256, and what it
counts for q3, is the model's reading (log 70 and 102). -/
def Claims.EngineQueues : Prop :=
  ∀ (s : State) (n : Nat), Free s n →
    let h := s.hart n
    let cl := hartCluster n
    let held (q : Nat) : List Word := if q = 0 then h.q0 else if q = 1 then h.q1 else h.q2
    let setHeld (g : Hart) (q : Nat) (l : List Word) : Hart :=
      if q = 0 then { g with q0 := l } else if q = 1 then { g with q1 := l } else { g with q2 := l }
    (∀ (q : BitVec 2) rs1, h.xUse rs1 → q ≠ 3 → let i := Instr.qPushX q rs1
      let l := held q.toNat ++ [h.xVal rs1]
      let size := if q = 0 then cmdWords (l.headD 0) else if q = 1 then 8 else 4
      (l.length < size → exec i s = .next ((s.setHart n (setHeld h q.toNat l)).done n i (.seq none))) ∧
      (size ≤ l.length → Claims.pinRoom s n →
        (q = 0 → Claims.fld (l.headD 0) 19 1 = 0 → ∃ t c, exec i s = .next t ∧ Claims.handsCmd s t n c l ∧ (t.hart n).q0 = [] ∧
          (t.hart n).instret = h.instret + 1) ∧
        (q = 1 → (s.slice (hartSlice n)).tasks.length < 64 → ∃ t x, exec i s = .next t ∧ Claims.handsTask s t n x l ∧ (t.hart n).q1 = [] ∧
          (t.hart n).instret = h.instret + 1) ∧
        (q = 2 → ∃ t j, exec i s = .next t ∧ (t.cluster cl).jobs = (s.cluster cl).jobs ++ [j] ∧
          j.hart = n ∧ j.words = l ∧ j.pin = Claims.cueOf h n ∧ (t.hart n).q2 = [] ∧ (t.hart n).instret = h.instret + 1))) ∧
    (∀ (q : BitVec 2) vs, h.vReads vs → let i := Instr.qPushV q vs
      (h.vPois vs = true → exec i s = .next (s.takeTrap n 0x04 (32 + vs.toNat) h.pc)) ∧
      (h.vPois vs = false → held q.toNat ≠ [] → q ≠ 3 → exec i s = .next (s.takeTrap n 0x09 (32 + vs.toNat) h.pc)) ∧
      (q = 0 → h.vPois vs = false → h.q0 = [] → let l := (List.range 8).map fun k => BitVec.ofNat 64 (Claims.laneAt 64 (h.vVal vs) k)
        (∀ j, cmdWords (l.headD 0) ≤ j → Claims.laneAt 64 (h.vVal vs) j = 0) → Claims.fld (l.headD 0) 19 1 = 0 → Claims.pinRoom s n →
        ∃ t c, exec i s = .next t ∧ Claims.handsCmd s t n c (l.take (cmdWords (l.headD 0))) ∧ (t.hart n).q0 = []) ∧
      (q = 1 → h.vPois vs = false → h.q1 = [] → Claims.pinRoom s n → (s.slice (hartSlice n)).tasks.length < 64 →
        ∃ t x, exec i s = .next t ∧
          Claims.handsTask s t n x ((List.range 8).map fun k => BitVec.ofNat 64 (Claims.laneAt 64 (h.vVal vs) k)) ∧ (t.hart n).q1 = []) ∧
      (q = 2 → h.vPois vs = false → h.q2 = [] → (∀ j, 4 ≤ j → Claims.laneAt 64 (h.vVal vs) j = 0) → Claims.pinRoom s n →
        ∃ t j, exec i s = .next t ∧ (t.cluster cl).jobs = (s.cluster cl).jobs ++ [j] ∧ j.hart = n ∧
          j.words = (List.range 4).map (fun k => BitVec.ofNat 64 (Claims.laneAt 64 (h.vVal vs) k)) ∧ (t.hart n).q2 = [])) ∧
    (∀ rd w rest, h.q3 = w :: rest → let i := Instr.qPopX rd
      ∃ t, exec i s = .next t ∧ (t.hart n).q3 = rest ∧ (t.hart n).xVal rd = (if rd = 0 then 0 else w.val) ∧
        (t.hart n).xPois rd = (rd != 0 && w.poison) ∧ (t.hart n).instret = h.instret + 1) ∧
    (∀ vd ws rest, h.q3 = ws ++ rest → ws.length = 8 → ∃ t, exec (.qPopV vd) s = .next t ∧ (t.hart n).q3 = rest ∧ (t.hart n).vFmt vd = 0 ∧
      (t.hart n).vPois vd = ws.any (·.poison) ∧ ∀ k, k < 8 → Claims.laneAt 64 ((t.hart n).vVal vd) k = (ws.map (·.val.toNat)).getD k 0) ∧
    (∀ rd, exec (.qStat rd 3) s = .next ((s.setX n rd (BitVec.ofNat 64 (32 - h.q3.length + 2 ^ 8 * h.q3.length +
        2 ^ 16 * (((s.cluster cl).jobs.filter fun j => j.hart == n && !j.cfg && j.status != 8).length % 256))) false).done n (.qStat rd 3) (.seq none)) ∧
      exec (.qStat rd 2) s = .next ((s.setX n rd (BitVec.ofNat 64 (16 - h.q2.length + 2 ^ 8 * h.q2.length + 2 ^ 24 * h.q2.length +
        2 ^ 16 * (((s.cluster cl).jobs.filter fun j => j.hart == n && !j.cfg && j.status != 8).length % 256))) false).done n (.qStat rd 2) (.seq none)) ∧
      exec (.qStat rd 0) s = .next ((s.setX n rd (BitVec.ofNat 64 (16 - h.q0.length + 2 ^ 8 * h.q0.length + 2 ^ 24 * h.q0.length +
        2 ^ 16 * (((s.cluster cl).copy.filter fun c => c.hart == n && c.dir.isNone && c.status != 8).length % 256))) false).done n (.qStat rd 0) (.seq none)) ∧
      exec (.qStat rd 1) s = .next ((s.setX n rd (BitVec.ofNat 64 (16 - h.q1.length + 2 ^ 8 * h.q1.length +
        2 ^ 16 * (((s.slice (hartSlice n)).tasks.filter fun x => x.hart == n && x.dir.isNone && x.status != 8).length % 256))) false).done n (.qStat rd 1) (.seq none)))

/-- Die queues and the words of the engine queues. -/
def Obligations.Queues : Prop := Claims.DieQueues ∧ Claims.EngineQueues

/-! #### Barriers -/

namespace Claims

/-- A barrier slot in the own bank, as its home has it: a stale granule reads as zero (R218). -/
structure Slot where
  result : Nat
  cfg : Nat
  vote : Nat
  gen : Nat
  pending : Nat
  inbound : Nat
  outbound : Nat
  init : Nat
  pflow : Nat
def slotAt (s : State) (n o : Nat) : Slot :=
  let w := number ((List.range 32).map fun k => (seen (bankGran s (n / 4) (o / 32)) (genAt s (n / 4) o) k).1)
  let f (lo len : Nat) : Nat := w / 2 ^ lo % 2 ^ len
  ⟨f 192 64, f 128 64, f 64 64, f 60 4, f 40 20, f 24 16, f 8 16, f 7 1, f 6 1⟩

/-- The slot a named barrier of the core is bound to lies at offset `o` of the own bank, and may be written. -/
def bound (s : State) (n : Nat) (b : BitVec 6) (o : Nat) : Prop :=
  o % 32 = 0 ∧ o < 2 ^ 17 ∧ KMap.get none (s.core (n / 4)).bars b.toNat = some (BitVec.ofNat 64 (bankBase + o)) ∧
    ∃ e, covering (s.core (n / 4)).alloc o = some e ∧ e.2.sealed = false

/-- The vote operations on numbers, and the value a vote starts from. -/
def vote (op a b : Nat) : Nat := if op = 0 then a &&& b else if op = 1 then a ||| b else if op = 2 then (a + b) % 2 ^ 64 else max a b
def voteStart (op : Nat) : Nat := if op = 0 then 2 ^ 64 - 1 else 0

/-- What an arrival makes of a slot (R221, R223). -/
def arrived (b b' : Slot) (v pf : Nat) : Prop :=
  let op := b.cfg / 2 ^ 24 % 4
  let w := vote op b.vote v
  let p := if pf = 1 then 1 else b.pflow
  if b.pending = 1 ∧ b.inbound = 0 ∧ b.outbound = 0 then
    b'.result = w ∧ b'.vote = voteStart op ∧ b'.gen = (b.gen + 1) % 16 ∧ b'.pending = b.cfg % 2 ^ 20 ∧ b'.pflow = 0 ∧
      b'.cfg = b.cfg % 2 ^ 63 + 2 ^ 63 * p ∧ b'.init = b.init
  else b'.result = b.result ∧ b'.vote = w ∧ b'.gen = b.gen ∧ b'.pending = b.pending - 1 ∧ b'.pflow = p ∧ b'.cfg = b.cfg ∧ b'.init = b.init

end Claims

/-- R216, R218 to R225: publish and refresh; bar.init writes a whole slot; bar.bind binds; an arrival votes, counts down and
completes the generation with the last; a wait on a past generation gives the result and one on the present suspends the
cue; phase arrives and waits. An empty binding, an uninitialised slot and a bad configuration word are record faults. That
a misaligned slot address of bar.init takes the misaligned-access trap is the model's reading (log 54). -/
def Obligations.Barriers : Prop :=
  ∀ (s : State) (n : Nat), Free s n →
    let h := s.hart n
    (∀ sc : BitVec 3, s.part = none →
      exec (.publish sc) s = .next ((s.release (.hart n) sc.toNat).done n (.publish sc) (.seq none)) ∧
      exec (.refresh sc) s = .next ((s.refresh (.hart n) sc.toNat).done n (.refresh sc) (.seq none))) ∧
    (∀ rs1 rs2 o, h.xUse rs1 → h.xUse rs2 → (h.xVal rs1).toNat = Claims.bankBase + o → o < 2 ^ 17 →
      let c := h.xVal rs2
      let i := Instr.barInit rs1 rs2
      (o % 32 ≠ 0 → exec i s = .next (s.takeTrap n 0x05 (Claims.bankBase + o) h.pc)) ∧
      (o % 32 = 0 → Claims.ownSlot s n o 32 →
        ((Claims.fld c 26 38 ≠ 0 ∨ Claims.fld c 23 1 ≠ 0 ∨ Claims.fld c 0 20 = 0 ∨ 6 ≤ Claims.fld c 20 3) →
          exec i s = .next (s.takeTrap n 0x09 (Claims.bankBase + o) h.pc)) ∧
        (Claims.fld c 26 38 = 0 → Claims.fld c 23 1 = 0 → Claims.fld c 0 20 ≠ 0 → Claims.fld c 20 3 < 6 →
          ∃ t, exec i s = .next t ∧ Claims.slotAt t n o =
            ⟨0, c.toNat, Claims.voteStart (Claims.fld c 24 2), 0, Claims.fld c 0 20, 0, 0, 1, 0⟩ ∧ t.mem = s.mem))) ∧
    (∀ b rs1, h.xUse rs1 → let i := Instr.barBind b rs1
      let c := s.core (n / 4)
      ((h.xVal rs1).toNat % 32 ≠ 0 → exec i s = .next (s.takeTrap n 0x05 (h.xVal rs1).toNat h.pc)) ∧
      ((h.xVal rs1).toNat % 32 = 0 → exec i s =
        .next ((s.setCore (n / 4) { c with bars := KMap.set none c.bars b.toNat (some (h.xVal rs1)) }).done n i (.seq none)))) ∧
    (∀ rd rs1 b, h.xUse rs1 → KMap.get none (s.core (n / 4)).bars b.toNat = none →
      exec (.barArrive rd rs1 b) s = .next (s.takeTrap n 0x09 b.toNat h.pc) ∧ exec (.barWait rd rs1 b) s = .next (s.takeTrap n 0x09 b.toNat h.pc)) ∧
    (∀ rd rs1 b o, h.xUse rs1 → Claims.bound s n b o → s.part = none → (s.core (n / 4)).psb = [] → s.log = [] →
      let sl := Claims.slotAt s n o
      (sl.init = 1 → sl.pending ≠ 0 → ∃ t, exec (.barArrive rd rs1 b) s = .next t ∧
        Claims.arrived sl (Claims.slotAt t n o) (h.xVal rs1).toNat (if h.pflow then 1 else 0) ∧ (t.hart n).pflow = false ∧
        ((t.hart n).xVal rd).toNat = if rd = 0 then 0 else sl.gen + (if sl.pending = 1 then 16 else 0)) ∧
      ((sl.init = 0 ∨ sl.pending = 0) → ∃ t, exec (.barArrive rd rs1 b) s = .next t ∧
        (h.house = false → (t.hart n).tcause = 0x09 ∧ (t.hart n).tval.toNat = Claims.bankBase + o ∧ (t.hart n).house = true)) ∧
      (sl.init = 0 → exec (.barWait rd rs1 b) s = .next (s.takeTrap n 0x09 (Claims.bankBase + o) h.pc)) ∧
      (sl.init = 1 → h.rewait = none → sl.gen ≠ (h.xVal rs1).toNat % 16 → ∃ t, exec (.barWait rd rs1 b) s = .next t ∧
        ((t.hart n).xVal rd).toNat = (if rd = 0 then 0 else sl.result) ∧ (t.hart n).instret = h.instret + 1) ∧
      (sl.init = 1 → h.rewait = none → sl.gen = (h.xVal rs1).toNat % 16 → Claims.canLeave s n → (s.core (n / 4)).watch.length < 64 →
        ∃ t, exec (.barWait rd rs1 b) s = .next t ∧ Claims.left h (t.hart n)) ∧
      -- a phase that issues again does not arrive again, and takes no result of a slot that is gone
      (∀ x (op : BitVec 2) (sc : BitVec 3) g, h.rewait = some (3, 16 * b.toNat + g) → g < 16 →
        (sl.init = 0 → exec (.phase x op sc b rd rs1) s = .next (s.takeTrap n 0x09 (Claims.bankBase + o) h.pc)) ∧
        (sl.init = 1 → sl.gen ≠ g → ∃ t, exec (.phase x op sc b rd rs1) s = .next t ∧ ((t.hart n).xVal rd).toNat = (if rd = 0 then 0 else sl.result) ∧
          (t.hart n).instret = h.instret + 1)) ∧
      (∀ x (op : BitVec 2) (sc : BitVec 3), sl.init = 1 → h.rewait = none → sl.pending = 1 → sl.inbound = 0 → sl.outbound = 0 →
        (sl.cfg / 2 ^ 24 % 4 = op.toNat → ∃ t, exec (.phase x op sc b rd rs1) s = .next t ∧
          ((t.hart n).xVal rd).toNat = (if rd = 0 then 0 else Claims.vote op.toNat sl.vote (h.xVal rs1).toNat) ∧
          Claims.arrived sl (Claims.slotAt t n o) (h.xVal rs1).toNat (if h.pflow then 1 else 0)) ∧
        (sl.cfg / 2 ^ 24 % 4 ≠ op.toNat → h.house = false → ∃ t, exec (.phase x op sc b rd rs1) s = .next t ∧
          (t.hart n).tcause = 0x09 ∧ (t.hart n).tval.toNat = Claims.bankBase + o)))

/-! #### Calls and kicks; the combine network -/

/-- R414 to R416, R420, R426: svc.call appends its packet with the caller's number; qk.set sets the kick bit; qk.scan takes
the lowest set bit of an owned set; jl.put appends to the journal of an owned set. -/
def Claims.Calls : Prop :=
  (∀ (s : State) (n : Nat), Free s n → s.part = none →
    let h := s.hart n
    (∀ rd rs1, h.xUse rs1 → let i := Instr.svcCall rd rs1
      let a := (h.xVal rs1).toNat
      (a % 32 ≠ 0 → exec i s = .next (s.takeTrap n 0x05 a h.pc)) ∧
      (a % 32 = 0 → ∀ bs t, hartLoad n a 32 s = (.ok bs, t) → (∀ b ∈ bs, b.2 = false) →
        let w := Claims.number (bs.map (·.1))
        let svc := w % 2 ^ 16
        let known : Prop := ∃ q p, t.partOfCluster (hartCluster n) = some (q, p) ∧ (svc = 1 ∨ svc ∈ p.svcs)
        let sv : Svc := KMap.get {} t.svcs svc
        -- a strong call publishes first, and then waits where the ring is full
        let r : State := if w / 2 ^ 16 % 2 = 1 then t.release (.hart n) 4 else t
        ((1023 < svc ∨ w / 2 ^ 18 % 2 ^ 46 ≠ 0 ∨ ¬ known) → exec i s = .next (t.takeTrap n 0x09 a h.pc)) ∧
        (svc ≤ 1023 → w / 2 ^ 18 % 2 ^ 46 = 0 → known → sv.size ≤ sv.calls.length → ∃ u, exec i s = .next u ∧ u.mem = r.mem ∧ u.log = r.log ∧
          u.svcs = s.svcs ∧ (u.hart n).pc = h.pc ∧ (u.hart n).instret = h.instret) ∧
        (svc ≤ 1023 → w / 2 ^ 18 % 2 ^ 46 = 0 → known → sv.calls.length < sv.size → ∃ u, exec i s = .next u ∧ u.mem = r.mem ∧ u.log = r.log ∧
          (KMap.get {} u.svcs svc : Svc).calls = sv.calls ++ [⟨BitVec.ofNat 256 w, n, h.svcCount⟩] ∧
          (u.hart n).svcCount = h.svcCount + 1 ∧ ((u.hart n).xVal rd).toNat = if rd = 0 then 0 else h.svcCount.toNat))) ∧
    (∀ rs1, h.xUse rs1 → let i := Instr.qkSet rs1
      let q := (h.xVal rs1).toNat
      let mine : Prop := ∃ k p, s.partOfCluster (hartCluster n) = some (k, p) ∧ q ∈ p.queues
      ((255 < q ∨ ¬ mine) → exec i s = .next (s.takeTrap n 0x09 q h.pc)) ∧
      (q ≤ 255 → mine → ∃ t, exec i s = .next t ∧ t.kicks = s.kicks ||| BitVec.ofNat 256 (2 ^ q) ∧ (t.hart n).instret = h.instret + 1))) ∧
  (∀ (s : State) (d : Nat), FreeDir s d →
    let c := s.dir d
    (∀ rd rs1, let i := Instr.qkScan rd rs1
      let x := (c.getX rs1).toNat
      (c.user = true → exec i s = .next (s.takeExc d 2 i.bits c.pc)) ∧
      (c.user = false → (3 < x ∨ (s.qset x).owner.toNat ≠ d) → exec i s = .next (s.takeExc d 28 x c.pc)) ∧
      (c.user = false → x ≤ 3 → (s.qset x).owner.toNat = d →
        (s.kicks.toNat / 2 ^ (64 * x) % 2 ^ 64 = 0 → ∃ t, exec i s = .next t ∧
          ((t.dir d).getX rd).toNat = (if rd = 0 then 0 else 2 ^ 64 - 1) ∧ t.kicks = s.kicks ∧ (t.dir d).pc = c.pc + 4) ∧
        (∀ k, k < 64 → s.kicks.getLsbD (64 * x + k) = true → (∀ l, l < k → s.kicks.getLsbD (64 * x + l) = false) →
          ∃ t, exec i s = .next t ∧ ((t.dir d).getX rd).toNat = (if rd = 0 then 0 else 64 * x + k) ∧
            t.kicks.toNat = s.kicks.toNat - 2 ^ (64 * x + k) ∧ (t.dir d).pc = c.pc + 4))) ∧
    (∀ rd rs1 rs2, let i := Instr.jlPut rd rs1 rs2
      let a := (c.getX rs1).toNat
      let j := (c.getX rs2).toNat
      let x := s.qset j
      (c.user = true → exec i s = .next (s.takeExc d 2 i.bits c.pc)) ∧
      (c.user = false → (3 < j ∨ x.owner.toNat ≠ d) → exec i s = .next (s.takeExc d 28 j c.pc)) ∧
      (c.user = false → j ≤ 3 → x.owner.toNat = d → a % 32 ≠ 0 → exec i s = .next (s.takeExc d 4 a c.pc)) ∧
      (c.user = false → j ≤ 3 → x.owner.toNat = d → a % 32 = 0 → s.part = none → ∀ e t, dirLoad d a 32 s = (.ok e, t) →
        let f (lo len : Nat) : Nat := Claims.number ((e.drop lo).take len)
        let fine : Prop := 1 ≤ f 4 1 ∧ f 4 1 ≤ 5 ∧ f 5 1 = 0 ∧
          (if f 4 1 = 1 then f 12 4 = 0 else if f 4 1 = 4 then f 20 12 = 0 else f 16 16 = 0)
        (¬ fine → exec i s = .next (t.takeExc d 28 a c.pc)) ∧
        (fine → (x.jtail - x.jlhead).toNat = 2 ^ x.jsize.toNat → exec i s = .next (t.takeExc d 28 j c.pc)) ∧
        (fine → (x.jtail - x.jlhead).toNat ≠ 2 ^ x.jsize.toNat → ∀ u,
          dirWrite d ((x.jlbase + BitVec.ofNat 64 (32 * (x.jtail.toNat % 2 ^ x.jsize.toNat))).toNat) (Claims.bytes 4 x.jtail.toNat ++ e.drop 4) t = (.ok (), u) →
          ∃ w, exec i s = .next w ∧ (w.qset j).jtail = x.jtail + 1 ∧ ((w.dir d).getX rd).toNat = (if rd = 0 then 0 else x.jtail.toNat)))))

namespace Claims

/-- What contributions combine to (R101, R234, R235). -/
def combined (op : Nat) (cs : List (Nat × BitVec 1024)) (r : BitVec 1024) : Prop :=
  let lane (v : BitVec 1024) (j : Nat) : Nat := v.toNat / 2 ^ (64 * j) % 2 ^ 64
  if op = 0 then ∃ y ∈ cs, r = y.2 ∧ ∀ z ∈ cs, lane z.2 0 ≤ lane r 0 ∧ (lane z.2 0 = lane r 0 → lane r 1 ≤ lane z.2 1)
  else if op = 1 then r.toNat = (cs.map (·.2.toNat)).sum % 2 ^ 64
  else if op = 2 then ∀ j, j < 16 → lane r j = (cs.map fun y => lane y.2 j).sum % 2 ^ 64
  else if op = 3 then ∀ k, k < 1024 → r.getLsbD k = cs.all fun y => y.2.getLsbD k
  else ∀ k, k < 1024 → r.getLsbD k = cs.any fun y => y.2.getLsbD k

/-- A contribution joins the round of its context, and the last one ends it: every contributor has the combination. -/
def joins (c c' : Combine) (n : Nat) (v : BitVec 1024) : Prop :=
  let cs := c.got ++ [(n, v)]
  (cs.length < c.n → c' = { c with got := cs }) ∧
  (c.n ≤ cs.length → ∃ r, combined c.op cs r ∧
    c' = { c with got := [], round := c.round + 1, results := c.results ++ cs.map fun y => (y.1, c.round, r) })

/-- The hart may contribute to the context for an operation and scope. -/
def mayJoin (s : State) (n op : Nat) (sc : BitVec 3) (c : Combine) : Prop :=
  c.op = op ∧ c.scope = sc.toNat ∧ (Writer.core (n / 4)).group c.scope = some c.group ∧
    (s.partOfCluster (hartCluster n)).map (·.1) = some c.part

/-- What a contribution leaves: the hart waits for the round with `w`, what it read at issue, and its cue is pinned. -/
def contributes (s : State) (n : Nat) (i : Instr) (ctx : Nat) (c : Combine) (v : BitVec 1024) (w : Pending) : Prop :=
  ∃ t, exec i s = .next t ∧ (t.hart n).net = some { w with net := some (ctx, c.round), pc := (s.hart n).pc } ∧
    (t.hart n).pc = (s.hart n).pc ∧ (t.hart n).instret = (s.hart n).instret ∧
    (∀ m cue, cueOf (s.hart n) n = some (m, cue) → pinsOn (s.hart m) cue = [] → pinsOn (t.hart m) cue = [⟨cue, 1⟩]) ∧
    ∃ c', KMap.get none t.combine ctx = some c' ∧ joins c c' n v

/-- The hart waits for a round of the context with `w`, and its result of the round stands there. -/
def resultIs (s : State) (n ctx round : Nat) (c : Combine) (r : BitVec 1024) (w : Pending) : Prop :=
  (∃ pc, (s.hart n).net = some { w with net := some (ctx, round), pc := pc }) ∧ KMap.get none s.combine ctx = some c ∧
    ∃ pre post, c.results = pre ++ (n, round, r) :: post ∧ ∀ x ∈ pre, ¬ (x.1 = n ∧ x.2.1 = round)

/-- The stores of the bytes `bs` over the 128 bytes at `k` of the own bank, granule by granule. -/
def backStores (n k : Nat) (g : BitVec 16) (bs : List Byte) : List Chunk :=
  (List.range 4).map fun j =>
    { loc := locBank (n / 4) (k / 32 + j), off := 0, bytes := (bs.drop (32 * j)).take 32, gen := g, own := true }

/-- The hart has taken its result and goes on; the pin of the contribution is given back. -/
def takenBy (s t : State) (n : Nat) : Prop :=
  (t.hart n).net = none ∧ (t.hart n).instret = (s.hart n).instret + 1 ∧
    ∀ m cue, cueOf (s.hart n) n = some (m, cue) → pinsOn (s.hart m) cue = [⟨cue, 1⟩] → pinsOn (t.hart m) cue = []

end Claims

/-- R234 to R236: a contribution joins the round of a context of its operation, scope, group and partition, and pins the
cue; the one that completes the round gives every contributor the combination, which its hart takes when it issues again,
with what it read at issue. Which trap an operand of sumv outside the own bank takes, and that a context of another partition
counts as not configured, are the model's reading (log 55). -/
def Claims.Combine : Prop :=
  ∀ (s : State) (n : Nat), Free s n →
    let h := s.hart n
    ∀ (o : LOpts) (sc : BitVec 3) (ctx : BitVec 8), o.ed1 = true →
    let forms : List (Nat × (LOpts → BitVec 3 → BitVec 8 → Reg → Reg → Instr)) := [(1, .netRedSum), (3, .netRedAnd), (4, .netRedOr)]
    let cell := KMap.get none s.combine ctx.toNat
    (∀ q ∈ forms, ∀ xd xa, let i := q.2 o sc ctx xd xa
      let w : Pending := { window := 0, netDest := xd }
      (h.net = none → h.xUse xa → (∀ c, cell = some c → ¬ Claims.mayJoin s n q.1 sc c) → exec i s = .next (s.takeTrap n 0x09 0 h.pc)) ∧
      (∀ c, h.net = none → h.xUse xa → cell = some c → Claims.mayJoin s n q.1 sc c → Claims.pinRoom s n →
        Claims.contributes s n i ctx.toNat c (BitVec.ofNat 1024 (h.xVal xa).toNat) w) ∧
      (∀ round c r, Claims.resultIs s n ctx.toNat round c r w → c.op = q.1 →
        ∃ t, exec i s = .next t ∧ Claims.takenBy s t n ∧ ((t.hart n).xVal xd).toNat = (if xd = 0 then 0 else r.toNat % 2 ^ 64))) ∧
    (∀ vd va, let i := Instr.netRedMaxi o sc ctx vd va
      let w : Pending := { window := 0, netDest := vd }
      (h.net = none → h.vUse va [13] →
        (h.vPois va = true → exec i s = .next (s.takeTrap n 0x04 (32 + va.toNat) h.pc)) ∧
        (h.vPois va = false → (∀ c, cell = some c → ¬ Claims.mayJoin s n 0 sc c) → exec i s = .next (s.takeTrap n 0x09 0 h.pc)) ∧
        (∀ c, h.vPois va = false → cell = some c → Claims.mayJoin s n 0 sc c → Claims.pinRoom s n →
          Claims.contributes s n i ctx.toNat c (BitVec.ofNat 1024 ((h.vVal va).toNat % 2 ^ 128)) w)) ∧
      (∀ round c r, Claims.resultIs s n ctx.toNat round c r w → c.op = 0 →
        ∃ t, exec i s = .next t ∧ Claims.takenBy s t n ∧ ((t.hart n).vVal vd).toNat = r.toNat % 2 ^ 128 ∧ (t.hart n).vFmt vd = 13)) ∧
    (∀ xd xa, let i := Instr.netRedSumv o sc ctx xd xa
      let a := (h.xVal xa).toNat
      (h.net = none → h.xUse xa → a % 128 ≠ 0 → exec i s = .next (s.takeTrap n 0x05 a h.pc)) ∧
      (h.net = none → h.xUse xa → a % 128 = 0 → a < Claims.bankBase → exec i s = .next (s.takeTrap n 0x06 a h.pc)) ∧
      (∀ k, h.net = none → h.xUse xa → a = Claims.bankBase + k → k % 128 = 0 → Claims.ownSlot s n k 128 →
        Claims.covered s (n / 4) k 128 (Claims.genAt s (n / 4) k) → (∀ e ∈ (s.core (n / 4)).psb, e.loc % 2 = 0) →
        (∀ g, k / 32 ≤ g → g < k / 32 + 4 → (Claims.bankGran s (n / 4) g).tag = Claims.genAt s (n / 4) k ∧ (Claims.bankGran s (n / 4) g).poison = false) →
        ((∀ c, cell = some c → ¬ Claims.mayJoin s n 2 sc c) → exec i s = .next (s.takeTrap n 0x09 0 h.pc)) ∧
        (∀ c, cell = some c → Claims.mayJoin s n 2 sc c → Claims.pinRoom s n →
          let bs := Claims.bankBytes s n k 128
          Claims.contributes s n i ctx.toNat c (BitVec.ofNat 1024 (Claims.number bs))
            { window := 0, netDest := xd, stores := Claims.backStores n k (Claims.genAt s (n / 4) k) bs })) ∧
      (∀ k bs round c r, k % 128 = 0 → bs.length = 128 → Claims.ownSlot s n k 128 →
        Claims.covered s (n / 4) k 128 (Claims.genAt s (n / 4) k) → (∀ e ∈ (s.core (n / 4)).psb, e.loc % 2 = 0) →
        Claims.resultIs s n ctx.toNat round c r
          { window := 0, netDest := xd, stores := Claims.backStores n k (Claims.genAt s (n / 4) k) bs } → c.op = 2 →
        ∃ t, exec i s = .next t ∧ Claims.takenBy s t n ∧ ((t.hart n).xVal xd).toNat = (if xd = 0 then 0 else c.n % 2 ^ 64) ∧
          Claims.bankBytes t n k 128 = Claims.bytes 128 r.toNat))

/-- Service calls, kicks and the journal; rounds of net.red. -/
def Obligations.CallsAndCombining : Prop := Claims.Calls ∧ Claims.Combine

/-! ### The matrix class and its tasks (R319-R342) -/

namespace Claims

/-- Cells of an accumulator element, and the tag of an accumulator, for a pair (R319). -/
def accCells (pair : Nat) : Nat := if pair = 0 ∨ pair = 8 then 2 else 1
def accTag (pair : Nat) : Nat := if pair = 0 then 1 else if pair = 8 then 9 else if pair = 9 then 10 else 2

/-- Bytes of a storage unit of A and of B (R326). -/
def unitOf (pair : Nat) : Nat × Nat :=
  match pair with
  | 0 => (8, 8)
  | 1 => (4, 4)
  | 2 | 3 => (2, 2)
  | 8 => (4, 4)
  | _ => (1, 1)

/-- The configuration record breaks a range (R322). -/
def badCfg (v : Vec) : Prop :=
  vfld v 448 64 ≠ 0 ∨ vfld v 417 31 ≠ 0 ∨ vfld v 384 32 % 8 ≠ 0 ∨ vfld v 320 64 % 8 ≠ 0 ∨ vfld v 256 64 % 4 ≠ 0 ∨
    (vfld v 32 6 = 0 ∧ vfld v 256 64 ≠ 0) ∨ vfld v 38 26 ≠ 0 ∨ 48 < vfld v 32 6 ∨ vfld v 25 7 ≠ 0 ∨ vfld v 21 3 ≠ 0 ∨
    (vfld v 16 4 = 7 ∨ vfld v 16 4 = 8 ∨ 12 < vfld v 16 4) ∨ vfld v 14 2 ≠ 0 ∨ 4 < vfld v 8 3 ∨ 9 < vfld v 0 8 ∨
    (9 ≤ vfld v 16 4 ∧ vfld v 0 8 = 8) ∨ (vfld v 20 1 = 1 ∧ vfld v 16 4 < 9) ∨
    vfld v 64 32 % (unitOf (vfld v 0 8)).1 ≠ 0 ∨ vfld v 96 32 % (unitOf (vfld v 0 8)).2 ≠ 0 ∨
    vfld v 128 32 % (4 * accCells (vfld v 0 8)) ≠ 0

/-- No two entries of an allocation table that hold a range share a byte of it (R274). -/
def apart (t : KMap Alloc) : Prop :=
  t.Pairwise fun e f => e.2.st = .free ∨ f.2.st = .free ∨ e.2.base + 32 * e.2.len ≤ f.2.base ∨ f.2.base + 32 * f.2.len ≤ e.2.base

/-- The tables of every bank and of every accumulator store are so. -/
def Apart (s : State) : Prop := (∀ c, apart (s.core c).alloc) ∧ ∀ k, apart (s.cluster k).accAlloc

/-- One live allocation of the cluster's accumulator store covers the range. -/
def accCovered (s : State) (cl lo len : Nat) (g : BitVec 16) : Prop :=
  ∃ e, covering (s.cluster cl).accAlloc lo = some e ∧ e.2.gen = g ∧ lo + len ≤ e.2.base + 32 * e.2.len

/-- An accumulator byte as a reader finds it (R277, R320). -/
def accSeen (s : State) (cl o : Nat) : Byte × Bool :=
  seen (KMap.get {} (s.cluster cl).acc (o / 32)) (((covering (s.cluster cl).accAlloc (o / 32 * 32)).map (·.2.gen)).getD 0) (o % 32)

/-- Reading accumulator bytes takes no stale-read trap. -/
def accReads (s : State) (n lo len : Nat) : Prop :=
  (s.hart n).staleTraps = false ∨ ∀ o, lo ≤ o → o < lo + len →
    ∃ e, covering (s.cluster (hartCluster n)).accAlloc (o / 32 * 32) = some e ∧
      (KMap.get {} (s.cluster (hartCluster n)).acc (o / 32)).tag = e.2.gen

/-- No covered byte of the range is stale, or a stale read does not trap (R277). -/
def accFresh (s : State) (n lo len : Nat) : Prop :=
  (s.hart n).staleTraps = false ∨ ∀ o, lo ≤ o → o < lo + len → ∀ e, covering (s.cluster (hartCluster n)).accAlloc o = some e →
    (KMap.get {} (s.cluster (hartCluster n)).acc (o / 32)).tag = e.2.gen

/-- Byte `o` is the first of the range that lies in a stale granule, and stale reads trap. -/
def accStale (s : State) (n lo len o : Nat) : Prop :=
  (s.hart n).staleTraps = true ∧ lo ≤ o ∧ o < lo + len ∧ (o = lo ∨ o % 32 = 0) ∧
    (∃ e, covering (s.cluster (hartCluster n)).accAlloc o = some e ∧ (KMap.get {} (s.cluster (hartCluster n)).acc (o / 32)).tag ≠ e.2.gen) ∧
    accFresh s n lo (o - lo)

/-- No task of the slice is unfinished. -/
def idle (s : State) (n : Nat) : Prop := (s.slice (hartSlice n)).tasks = []

/-- The trap id of an accumulator offset (R277). -/
def accName (o : Nat) : Nat := 2 ^ 32 + o % 2 ^ 17

/-- Byte `b` of a register group. -/
def groupByte (h : Hart) (v : Reg) (b : Nat) : Byte := BitVec.ofNat 8 (laneAt 8 (h.vVal (member v (b / 64))) (b % 64))

end Claims

/-- R274: no step gives two entries of one allocation table a byte in common, live or forensic-retired. -/
def Obligations.StepKeepsAllocationsApart : Prop :=
  ∀ s t : State, Claims.Apart s → step s = .next t → Claims.Apart t

/-- R323: mx.cfg installs a record that breaks no range of R322; a faulty one is a record fault and leaves the configuration
as it was; a misaligned address traps first. R331 to R334: mx.zero clears the elements of a tile, a raw mx.ld takes the
cells unchanged and mx.st writes them, each inside one live allocation, and a stale granule of what mx.ld reads traps first (R277, R288); the accumulator table's entries share no byte
(StepKeepsAllocationsApart). What is checked where the manual writes no order, and that mx.st without a configuration
meets no format check, is the model's reading (log 64). -/
def Obligations.MatrixCells : Prop :=
  ∀ (s : State) (n : Nat), Free s n →
    let h := s.hart n
    let cl := hartCluster n
    ∀ (o : LOpts) (xc : Reg), h.xUse xc →
    let lo := (h.xVal xc).toNat
    ((lo % 64 ≠ 0 → exec (.mxCfg o xc) s = .next (s.takeTrap n 0x05 lo h.pc)) ∧
      (lo % 64 = 0 → ∀ v t, Claims.record s n lo v t →
        (¬ Claims.badCfg v → exec (.mxCfg o xc) s = .next ((t.setHart n { t.hart n with mxcfg := some v }).done n (.mxCfg o xc) (.seq none))) ∧
        (Claims.badCfg v → exec (.mxCfg o xc) s = .next (t.takeTrap n 0x09 lo h.pc)))) ∧
    (h.mxcfg = none → (∀ xn, h.xUse xn → exec (.mxZero o xc xn) s = .next (s.takeTrap n 0x09 0 h.pc)) ∧
      ∀ (g : BitVec 2) v, (lo % 64 = 0 → exec (.mxLd o false g v xc) s = .next (s.takeTrap n 0x09 0 h.pc)) ∧
        (lo % 64 = 0 → ∀ gen, Claims.accCovered s cl lo (64 * 2 ^ g.toNat) gen →
          (Claims.accFresh s n lo (64 * 2 ^ g.toNat) → exec (.mxLd o true g v xc) s = .next (s.takeTrap n 0x09 0 h.pc)) ∧
          ((∀ r, r < 2 ^ g.toNat → h.vReads (Claims.member v r) ∧ h.vPois (Claims.member v r) = false) →
            exec (.mxSt o g v xc) s = .next (s.takeTrap n 0x09 0 h.pc)))) ∧
    (∀ raw (g : BitVec 2) v, lo % 64 ≠ 0 → Claims.accFresh s n lo (64 * 2 ^ g.toNat) →
      exec (.mxLd o raw g v xc) s = .next (s.takeTrap n 0x05 (Claims.accName lo) h.pc)) ∧
    -- a stale granule of a raw load's range comes first
    (∀ (g : BitVec 2) v q, Claims.accStale s n lo (64 * 2 ^ g.toNat) q → Claims.idle s n →
      exec (.mxLd o true g v xc) s = .next (s.takeTrap n 0x03 (Claims.accName q) h.pc)) ∧
    ∀ cfg, h.mxcfg = some cfg → Claims.apart (s.cluster cl).accAlloc →
      let pair := Claims.vfld cfg 0 8
      let cell := 4 * Claims.accCells pair
      let ldc := Claims.vfld cfg 128 32
      (∀ xn, h.xUse xn → let d := h.xVal xn
        let i := Instr.mxZero o xc xn
        let m := Claims.fld d 0 16
        let w := Claims.fld d 16 16 * cell
        ((m = 0 ∨ w = 0 ∨ Claims.fld d 32 32 ≠ 0) → exec i s = .next (s.takeTrap n 0x09 d.toNat h.pc)) ∧
        (m ≠ 0 → w ≠ 0 → Claims.fld d 32 32 = 0 →
          ((lo % cell ≠ 0 ∨ ldc < w) → exec i s = .next (s.takeTrap n 0x09 lo h.pc)) ∧
          (lo % cell = 0 → w ≤ ldc →
            (covering (s.cluster cl).accAlloc lo = none → exec i s = .next (s.takeTrap n 0x06 (Claims.accName lo) h.pc)) ∧
            (∀ g, Claims.accCovered s cl lo ((m - 1) * ldc + w) g → Claims.idle s n → h.window i = 0 → ∃ t, exec i s = .next t ∧
              (∀ r b, r < m → b < w → (Claims.accSeen t cl (lo + r * ldc + b)).1 = 0) ∧
              (∀ q, (∀ r, r < m → q + 32 ≤ lo + r * ldc ∨ lo + r * ldc + w + 31 ≤ q) → Claims.accSeen t cl q = Claims.accSeen s cl q) ∧
              (t.hart n).instret = h.instret + 1)))) ∧
      (∀ (raw : Bool) (g : BitVec 2) (v : Reg), (raw = true ∨ Claims.vfld cfg 16 4 = 0) →
        let i := Instr.mxLd o raw g v xc
        let len := 64 * 2 ^ g.toNat
        (∀ q, Claims.accStale s n lo len q → Claims.idle s n → exec i s = .next (s.takeTrap n 0x03 (Claims.accName q) h.pc)) ∧
        (lo % 64 = 0 → covering (s.cluster cl).accAlloc lo = none → Claims.accFresh s n lo len → exec i s = .next (s.takeTrap n 0x06 (Claims.accName lo) h.pc)) ∧
        (lo % 64 = 0 → ∀ gen, Claims.accCovered s cl lo len gen → Claims.accReads s n lo len → Claims.idle s n →
          Claims.gives s n i { window := 0, mx := true, vs := (List.range (2 ^ g.toNat)).map fun r =>
            (Claims.member v r, { val := Claims.join 8 64 fun b => (Claims.accSeen s cl (lo + 64 * r + b)).1.toNat
                                  fmt := BitVec.ofNat 4 (Claims.accTag pair)
                                  poison := (List.range 64).any fun b => (Claims.accSeen s cl (lo + 64 * r + b)).2 }) })) ∧
      (∀ (g : BitVec 2) (v : Reg), ¬ Claims.badCfg cfg → Claims.vfld cfg 16 4 ≠ 0 →
        -- read-out: as many elements a register as lanes of the output format, or as fill 64 bytes
        let outf := Claims.vfld cfg 16 4
        let i := Instr.mxLd o false g v xc
        let per := min (Claims.count outf) (64 / cell)
        let elem (r e : Nat) : Nat := Claims.number ((List.range cell).map fun b => (Claims.accSeen s cl (lo + (r * per + e) * cell + b)).1)
        let len := 2 ^ g.toNat * per * cell
        (∀ q, Claims.accStale s n lo len q → Claims.idle s n → exec i s = .next (s.takeTrap n 0x03 (Claims.accName q) h.pc)) ∧
        (lo % 64 = 0 → covering (s.cluster cl).accAlloc lo = none → Claims.accFresh s n lo len → exec i s = .next (s.takeTrap n 0x06 (Claims.accName lo) h.pc)) ∧
        (lo % 64 = 0 → ∀ gen, Claims.accCovered s cl lo len gen → Claims.accReads s n lo len → Claims.idle s n →
          Claims.gives s n i { window := 0, mx := true
                               vs := (List.range (2 ^ g.toNat)).map fun r =>
                                (Claims.member v r, { val := Claims.join (Claims.width outf) per fun e => (MxCfg.readOut cfg (elem r e)).1
                                                      fmt := BitVec.ofNat 4 outf
                                                      poison := (List.range (per * cell)).any fun b => (Claims.accSeen s cl (lo + r * per * cell + b)).2 })
                               events := (List.range (2 ^ g.toNat)).foldl (fun a r => a ||| Claims.raised per fun e => (MxCfg.readOut cfg (elem r e)).2) 0 })) ∧
      (∀ (g : BitVec 2) (v : Reg), (∀ r, r < 2 ^ g.toNat → h.vUse (Claims.member v r) [Claims.accTag pair]) →
        h.vPois (Claims.member v 0) = true → exec (.mxSt o g v xc) s = .next (s.takeTrap n 0x04 (32 + (Claims.member v 0).toNat) h.pc)) ∧
      (∀ (g : BitVec 2) (v : Reg), (∀ r, r < 2 ^ g.toNat → h.vUse (Claims.member v r) [Claims.accTag pair] ∧ h.vPois (Claims.member v r) = false) →
        let i := Instr.mxSt o g v xc
        let len := 64 * 2 ^ g.toNat
        (lo % 64 ≠ 0 → exec i s = .next (s.takeTrap n 0x05 (Claims.accName lo) h.pc)) ∧
        (lo % 64 = 0 → covering (s.cluster cl).accAlloc lo = none → exec i s = .next (s.takeTrap n 0x06 (Claims.accName lo) h.pc)) ∧
        (lo % 64 = 0 → ∀ gen, Claims.accCovered s cl lo len gen → Claims.idle s n → h.window i = 0 → ∃ t, exec i s = .next t ∧
          (∀ b, b < len → Claims.accSeen t cl (lo + b) = (Claims.groupByte h v b, false)) ∧
          (∀ q, (q < lo ∨ lo + len ≤ q) → Claims.accSeen t cl q = Claims.accSeen s cl q) ∧ (t.hart n).instret = h.instret + 1))

namespace Claims

/-- The dims break the limits of R326. -/
def badDims (d : Word) : Prop := fld d 0 16 = 0 ∨ fld d 16 16 = 0 ∨ fld d 32 32 = 0 ∨ 2 ^ 24 < fld d 32 32

/-- Bytes of a row of `p` positions in the format whose storage unit is `u` bytes: five positions a unit for log6 and
ternary, one for the others (R326). -/
def rowBytes (packed : Bool) (u p : Nat) : Nat := if packed then (p + 4) / 5 * u else p * u

/-- The rows of A and of B that a task reads (R326, R329, R330). -/
def rows (sparse : Bool) (cfg : Vec) (a b : Word) (d : Word) : List (Nat × Nat) :=
  let pair := vfld cfg 0 8
  let u := unitOf pair
  let k := fld d 32 32
  let more := vfld cfg 32 6
  let ka := if vfld cfg 24 1 = 1 then k else k + more
  let kb := if vfld cfg 24 1 = 1 then k + more else k
  let kept := if vfld cfg 416 1 = 1 then 12 else 24
  let la := if sparse then (k + 47) / 48 * kept * u.1 else rowBytes (pair == 8 || pair == 9) u.1 ka
  (List.range (fld d 0 16)).map (fun i => ((a.toNat + i * vfld cfg 64 32) % 2 ^ 64, la)) ++
    (List.range (fld d 16 16)).map fun j => ((b.toNat + j * vfld cfg 96 32) % 2 ^ 64, rowBytes (pair == 8) u.2 kb)

/-- A tile-task record breaks a range of R336. -/
def badTask (r : Vec) : Prop :=
  vfld r 0 8 ≠ 1 ∨ vfld r 8 9 ≠ 0 ∨ vfld r 24 8 ≠ 0 ∨ 6 ≤ vfld r 20 3 ∨ vfld r 320 64 % 64 ≠ 0 ∨ vfld r 393 7 ≠ 0 ∨
    vfld r 409 7 ≠ 0 ∨ vfld r 425 23 ≠ 0

/-- A slice has room for a task, and the hart's pins do too. -/
def taskRoom (s : State) (n : Nat) : Prop :=
  (s.slice (hartSlice n)).tasks.length < 64 ∧ pinRoom s n

/-- The task was handed over: it stands last in the slice's scheduler, not started, under the next ticket. -/
def handed (s t : State) (n : Nat) (k : Task) : Prop :=
  (t.slice (hartSlice n)).tasks = (s.slice (hartSlice n)).tasks ++ [k] ∧ k.hart = n ∧ k.dir = none ∧ k.cluster = hartCluster n ∧
    k.engine = none ∧ k.pin = cueOf (s.hart n) n ∧ k.ticket = (s.hart n).ticket.toNat ∧ (t.hart n).ticket = (s.hart n).ticket + 1 ∧
    (t.hart n).instret = (s.hart n).instret + 1

end Claims

/-- R327: the checks of mx.mma and mx.mmsp in their order, and the task they hand over, with the ticket. R337: mx.task, the
record fault of its record and dims, and the task it hands over; a faulty configuration makes it a task of status 1. That
mx.mmsp over a pair without sparsity takes the record fault with tval 0, and that mx.task reads the configuration as it is
accepted, is the model's reading (log 64). -/
def Claims.MatrixTasks : Prop :=
  ∀ (s : State) (n : Nat), Free s n →
    let h := s.hart n
    let cl := hartCluster n
    ∀ (o : LOpts) (xd xa xb xc xn : Reg), h.xUse xa →
    (∀ (zero cmpl sparse : Bool), h.xUse xb → h.xUse xc → h.xUse xn →
      let lo := (h.xVal xc).toNat
      let d := h.xVal xn
      let i := if sparse then Instr.mxMmsp o zero cmpl xd xa xb xc xn else Instr.mxMma o zero cmpl xd xa xb xc xn
      (h.mxcfg = none → exec i s = .next (s.takeTrap n 0x09 0 h.pc)) ∧
      ∀ cfg, h.mxcfg = some cfg →
        let pair := Claims.vfld cfg 0 8
        let cell := 4 * Claims.accCells pair
        let w := Claims.fld d 16 16 * cell
        let ldc := Claims.vfld cfg 128 32
        let off (x : Reg) (u : Nat) : Prop := (h.xVal x).toNat % u ≠ 0
        (Claims.badDims d → exec i s = .next (s.takeTrap n 0x09 d.toNat h.pc)) ∧
        (¬ Claims.badDims d → sparse = true → (pair < 2 ∨ 7 < pair ∨ Claims.vfld cfg 32 6 ≠ 0) → exec i s = .next (s.takeTrap n 0x09 0 h.pc)) ∧
        (¬ Claims.badDims d → (sparse = true → 2 ≤ pair ∧ pair ≤ 7 ∧ Claims.vfld cfg 32 6 = 0) → pair < 10 →
          ((lo % cell ≠ 0 ∨ ldc < w) → exec i s = .next (s.takeTrap n 0x09 lo h.pc)) ∧
          (lo % cell = 0 → w ≤ ldc →
            (off xa (Claims.unitOf pair).1 → exec i s = .next (s.takeTrap n 0x05 (h.xVal xa).toNat h.pc)) ∧
            (¬ off xa (Claims.unitOf pair).1 → off xb (Claims.unitOf pair).2 → exec i s = .next (s.takeTrap n 0x05 (h.xVal xb).toNat h.pc)) ∧
            (¬ off xa (Claims.unitOf pair).1 → ¬ off xb (Claims.unitOf pair).2 →
              (covering (s.cluster cl).accAlloc lo = none → exec i s = .next (s.takeTrap n 0x06 (Claims.accName lo) h.pc)) ∧
              (∀ g gens, Claims.accCovered s cl lo ((Claims.fld d 0 16 - 1) * ldc + w) g →
                s.recordRanges (n / 4) (Claims.rows sparse cfg (h.xVal xa) (h.xVal xb) d) [] = .ok gens →
                Claims.taskRoom s n → h.window i = 0 → ∃ t k, exec i s = .next t ∧ Claims.handed s t n k ∧
                k.op = (if sparse then 2 else 1) ∧ k.a = h.xVal xa ∧ k.b = h.xVal xb ∧ k.dst = h.xVal xc ∧ k.dims = d ∧
                k.zero = zero ∧ k.cmpl = cmpl ∧ k.sparse = sparse ∧ k.area = false ∧ k.cfg = cfg ∧ k.accGen = g ∧ k.gens = gens ∧
                k.tag = h.ticket.toNat ∧ k.status = 0 ∧ ((t.hart n).xVal xd).toNat = (if xd = 0 then 0 else h.ticket.toNat)))))) ∧
    (∀ r t, Claims.record s n (h.xVal xa).toNat r t →
      let i := Instr.mxTask o xd xa
      let d := BitVec.ofNat 64 (Claims.vfld r 192 64)
      ((Claims.badTask r ∨ Claims.badDims d) → exec i s = .next (t.takeTrap n 0x09 (h.xVal xa).toNat h.pc)) ∧
      (¬ Claims.badTask r → ¬ Claims.badDims d → Claims.vfld r 19 1 = 0 → Claims.taskRoom s n → h.window i = 0 →
        -- the scheduler reads the configuration as an engine of the cluster
        ∀ bs u, t.engRead (.cluster cl) (n / 4) (s.rootOf cl) .now (Claims.vfld r 320 64) 0 64 = (bs, none, u) →
        let cfg : Vec := BitVec.ofNat 512 (Claims.number (bs.map (·.1)))
        let lo := Claims.vfld r 256 64
        let cell := 4 * Claims.accCells (Claims.vfld cfg 0 8)
        let w := Claims.fld d 16 16 * cell
        (Claims.badCfg cfg → ∃ v k, exec i s = .next v ∧ Claims.handed s v n k ∧ k.status = 1) ∧
        (¬ Claims.badCfg cfg → Claims.vfld r 17 1 = 0 → lo % cell = 0 → w ≤ Claims.vfld cfg 128 32 →
          Claims.vfld r 64 64 % (Claims.unitOf (Claims.vfld cfg 0 8)).1 = 0 → Claims.vfld r 128 64 % (Claims.unitOf (Claims.vfld cfg 0 8)).2 = 0 →
          ∀ g gens, Claims.accCovered u cl lo ((Claims.fld d 0 16 - 1) * Claims.vfld cfg 128 32 + w) g →
          u.recordRanges (n / 4) (Claims.rows false cfg (BitVec.ofNat 64 (Claims.vfld r 64 64)) (BitVec.ofNat 64 (Claims.vfld r 128 64)) d) [] = .ok gens →
          ∃ v k, exec i s = .next v ∧ Claims.handed s v n k ∧ k.op = 3 ∧ k.a.toNat = Claims.vfld r 64 64 ∧ k.b.toNat = Claims.vfld r 128 64 ∧
            k.dst.toNat = lo ∧ k.dims = d ∧ k.area = false ∧ k.sparse = false ∧ k.cfg = cfg ∧ k.accGen = g ∧ k.gens = gens ∧
            k.zero = decide (Claims.vfld r 18 1 = 1) ∧ k.cmpl = decide (Claims.vfld r 23 1 = 1) ∧ k.tag = Claims.vfld r 32 32 ∧ k.status = 0 ∧
            k.sig = (if Claims.vfld r 424 1 = 1 then some (Claims.vfld r 416 8) else none) ∧
            ((v.hart n).xVal xd).toNat = (if xd = 0 then 0 else h.ticket.toNat))))

namespace Claims

/-- The task at a place of a slice's scheduler waits to start, its tokens have their counts, and no older task of its hart
names the same cells (R338). -/
def startable (s : State) (sl k : Nat) (t : Task) : Prop :=
  (s.slice sl).tasks[k]? = some t ∧ t.engine = none ∧ t.status = 0 ∧
    (∀ w ∈ t.waits, w.2 ≤ KMap.get 0 (s.slice sl).tokens w.1) ∧
    (t.dir = none → ∀ p ∈ (s.hart t.hart).pending, p.mx = false) ∧
    ∀ u ∈ (s.slice sl).tasks.take k, u.dir = none → t.dir = none → u.hart = t.hart → u.cluster = t.cluster → rowsMeet u.cells t.cells = false

/-- The four bytes an engine reads at an offset of the own bank, under the generation the task recorded. -/
def operand (s : State) (t : Task) (o w : Nat) : Prop :=
  o % 4 = 0 ∧ o < 2 ^ 17 ∧ ∃ g, covered s t.core o 4 g ∧ genOf t.gens (locBank t.core (o / 32)) = some g ∧
    w = number ((List.range 4).map fun j => (seen (bankGran s t.core (o / 32)) g (o % 32 + j)).1)

end Claims

/-- R338: the oldest task that may start goes to a free engine. R339, R341: a task on an engine completes: it leaves the
scheduler, its token goes up by one, and its completion is posted where it asks for one; a task of one FP32 product has the
product of the two operands in its accumulator, rounded as vmul rounds it. That a task that fails still counts its token is
the model's reading (log 65). -/
def Claims.TaskRuns : Prop :=
  (∀ (s : State) (sl k cl : Nat) (t : Task), sl < Config.slices → Claims.startable s sl k t →
    (∀ j u, j < k → ¬ Claims.startable s sl j u) → t.anywhere = false → cl = t.cluster →
    (∀ u ∈ (s.slice sl).tasks, u.engine ≠ some cl) →
    ∃ v, exec (.taskIssue sl k cl) s = .next v ∧ (v.slice sl).tasks.length = (s.slice sl).tasks.length ∧
      (∃ u, (v.slice sl).tasks[k]? = some u ∧ u.engine = some cl ∧ (t.area = false → u = { t with engine := some cl })) ∧
      ∀ j, j ≠ k → (v.slice sl).tasks[j]? = (s.slice sl).tasks[j]?) ∧
  (∀ (s : State) (sl k : Nat) (t : Task), sl < Config.slices → (s.slice sl).tasks[k]? = some t →
    (t.engine = none → t.status ≠ 0 → t.dir = none → t.pin = none → t.sig = none → t.cover = [] →
      let payload : Vec := BitVec.ofNat 512 (t.op + 2 ^ 8 * t.status + 2 ^ 16 * t.poisoned.toNat + 2 ^ 17 * t.events.toNat +
        2 ^ 32 * (t.tag % 2 ^ 32) + 2 ^ 64 * (t.ticket % 2 ^ 32 + 2 ^ 32 * t.cluster) + 2 ^ 128 * (t.addr % 2 ^ 64))
      let e : Entry := { payload := payload, side := Claims.side 4 0 0 (schedId sl), cover := [], helper := t.helper }
      exec (.taskCompletion sl k) s = .next (s.setSlice sl { s.slice sl with tasks := (s.slice sl).tasks.eraseIdx k } |>.post (schedId sl) t.hart e)) ∧
    (∀ c, t.engine = some c → ∃ v, exec (.taskCompletion sl k) s = .next v ∧ (v.slice sl).tasks.length + 1 = (s.slice sl).tasks.length ∧
      (∀ q, t.sig = some q → KMap.get 0 (v.slice sl).tokens q = min (KMap.get 0 (s.slice sl).tokens q + 1) (2 ^ 32 - 1)) ∧
      (t.sig = none → (v.slice sl).tokens = (s.slice sl).tokens)) ∧
    (∀ c p q x y g, t.engine = some c → t.status = 0 → t.started = false → t.steps = [] → t.op = 1 → t.zero = true → t.sparse = false →
      t.area = false → t.anywhere = false → t.dir = none → t.cmpl = false → t.pin = none → t.sig = none → s.log = [] → c = t.cluster →
      Claims.vfld t.cfg 0 8 = 1 → Claims.vfld t.cfg 32 6 = 0 → Claims.vfld t.cfg 12 1 = 0 → Claims.vfld t.cfg 8 3 < 5 →
      t.dims.toNat = 1 + 2 ^ 16 + 2 ^ 32 → t.core < Config.cores →
      t.a.toNat = Claims.bankBase + p → t.b.toNat = Claims.bankBase + q → Claims.operand s t p x → Claims.operand s t q y →
      t.dst.toNat % 4 = 0 → Claims.accCovered s c t.dst.toNat 4 g → t.accGen = g →
      -- two finite operands that are not zero
      (x % 2 ^ 31 / 2 ^ 23 < 255 ∧ x % 2 ^ 31 ≠ 0 ∧ y % 2 ^ 31 / 2 ^ 23 < 255 ∧ y % 2 ^ 31 ≠ 0) →
      ∃ v, exec (.taskCompletion sl k) s = .next v ∧ (v.slice sl).tasks = (s.slice sl).tasks.eraseIdx k ∧
        ∀ r, (Claims.mode (Claims.vfld t.cfg 8 3)) = some r →
        Claims.number ((List.range 4).map fun b => (Claims.accSeen v c (t.dst.toNat + b)).1) = (fMul fp32 { rm := r } x y).1))

/-! ### The selection engine (R343-R361) -/

namespace Claims

/-- The hart's open session. -/
def opened (s : State) (n : Nat) (x : Session) : Prop := (s.cluster (hartCluster n)).sess = some x ∧ x.hart = n
/-- The hart has no session open. -/
def unopened (s : State) (n : Nat) : Prop := ∀ x, (s.cluster (hartCluster n)).sess = some x → x.hart ≠ n

/-- Image bits, digit bits and passes of a selection record (R344, R347). -/
def imgBits (r : Vec) : Nat := if vfld r 384 4 = 7 then 7 else width (vfld r 384 4)
def digBits (r : Vec) : Nat := 2 ^ vfld r 392 2
def passCount (r : Vec) : Nat := (imgBits r + digBits r - 1) / digBits r
/-- Digit j of a directed image: digit 0 is the most significant. -/
def digitOf (r : Vec) (j img : Nat) : Nat := img / 2 ^ ((passCount r - 1 - j) * digBits r) % 2 ^ digBits r

/-- The record breaks a range of R347. -/
def badSel (r : Vec) : Prop :=
  let f := vfld r 384 4
  vfld r 397 115 ≠ 0 ∨ vfld r 392 2 = 3 ∨ vfld r 389 2 = 3 ∨ f = 0 ∨ f = 8 ∨ 12 < f ∨ (vfld r 388 1 = 1 ∧ f < 9) ∨ vfld r 352 32 ≠ 0 ∨
    vfld r 320 32 = 0 ∨ 1048576 < vfld r 320 32 ∨ vfld r 256 64 = 0 ∨ (vfld r 394 1 = 0 ∧ 2 ^ 48 ≤ vfld r 256 64) ∨
    vfld r 128 64 % 8 ≠ 0 ∨ vfld r 64 64 % 4 ≠ 0 ∨ (vfld r 394 1 = 1 ∧ vfld r 64 64 = 0) ∨ (vfld r 394 1 = 0 ∧ vfld r 64 64 ≠ 0) ∨
    (vfld r 396 1 = 1 ∧ (vfld r 0 64 % 32 ≠ 0 ∨ f = 7))

/-- The directed image of an element as a pass read it; none where the element is no candidate. -/
def imgOf (l : List Seen) (i : Nat) : Option Nat := (l[i]?).bind (·.img)
def wtOf (l : List Seen) (i : Nat) : Nat := ((l[i]?).map (·.wt)).getD 0

/-- The candidates of a pass, and their count and weight by digit (R351, count step). -/
def still (x : Session) (l : List Seen) : List Nat := x.cand.filter fun i => (imgOf l i).isSome
def withDigit (x : Session) (l : List Seen) (v : Nat) : List Nat :=
  (still x l).filter fun i => (imgOf l i).map (digitOf x.rcd x.passes) == some v
def cntOf (x : Session) (l : List Seen) (v : Nat) : Nat := (withDigit x l v).length
def wgtOf (x : Session) (l : List Seen) (v : Nat) : Nat := if vfld x.rcd 394 1 = 1 then ((withDigit x l v).map (wtOf l)).sum else 0

def past (f : Nat → Nat) (v : Nat) : Nat := ((List.range 16).map fun u => if v < u then f u else 0).sum
def total (f : Nat → Nat) : Nat := ((List.range 16).map f).sum

/-- The decide step from counts c and weights w (R351): the session before it, with its candidates and their digits, and
after. -/
def decided (x y : Session) (cand : List Nat) (dig : Nat → Option Nat) (c w : Nat → Nat) : Prop :=
  y.passes = x.passes + 1 ∧ y.counted = false ∧ y.hart = x.hart ∧ y.rcd = x.rcd ∧
  (total c = 0 → y.empty = true ∧ y.done = true) ∧
  (total c ≠ 0 → ∃ D, D < 16 ∧
    let key := if vfld x.rcd 394 1 = 1 then w else c
    (total key < x.rem → y.short = true ∧ 0 < c D ∧ ∀ v, v < D → c v = 0) ∧
    (x.rem ≤ total key → y.short = x.short ∧ x.rem ≤ past key D + key D ∧ past key D < x.rem) ∧
    y.above = x.above + past c D ∧ y.wabove = x.wabove + past w D ∧ y.rem = (if y.short then x.rem else x.rem - past key D) ∧
    y.cand = cand.filter (fun i => dig i == some D) ∧
    y.pre = x.pre + D * 2 ^ ((passCount x.rcd - 1 - x.passes) * digBits x.rcd) ∧ y.eq = c D ∧ y.weq = w D ∧
    y.done = decide (x.passes + 1 = passCount x.rcd) ∧ y.empty = x.empty)

/-- The status word (R355). -/
def statusWord (y : Session) : Word :=
  BitVec.ofNat 64 (y.done.toNat + 2 * y.short.toNat + 4 * y.empty.toNat + 8 * y.poison.toNat + 16 * y.invalid.toNat + 32 * y.counted.toNat +
    2 ^ 8 * y.passes + 2 ^ 16 * passCount y.rcd)

/-- The threshold, undirected (R356). -/
def thresholdOf (x : Session) : Nat :=
  if x.empty then 0 else if vfld x.rcd 395 1 = 1 then 2 ^ imgBits x.rcd - 1 - x.pre else x.pre

/-- The ties a quota takes, in ascending order: by number, or by the weight of those taken before (R357). -/
def takes (wtd : Bool) (wt : Nat → Nat) (q : Nat) (ties : List Nat) : List Nat :=
  if wtd then (ties.foldl (fun (a : List Nat × Nat) i => if a.2 < q then (a.1 ++ [i], a.2 + wt i) else a) ([], 0)).1 else ties.take q

/-- The elements selected (R357). -/
def chosen (x : Session) (l : List Seen) (q : Nat) (i : Nat) : Prop :=
  x.empty = false ∧ i ∈ x.start ∧
    (x.short = true ∨ (∃ v, imgOf l i = some v ∧ x.pre < v) ∨
      i ∈ takes (vfld x.rcd 394 1 = 1) (wtOf l)
        (if q = 2 ^ 64 - 1 then vfld x.rcd 256 64 - (if vfld x.rcd 394 1 = 1 then x.wabove else x.above) else q)
        (x.start.filter fun i => imgOf l i == some x.pre))

end Claims

/-- R346, R353: sl.cfg opens a session on a record that breaks no range of R347, pinning the cue, and takes its place behind
the requests before it; sl.cfg close closes the hart's. R354, R358: sl.run takes the passes left, each by the count step and
the decide step of R351, and gives the status word with the last; a fault in one leaves the session as it was; a session
done gives it at once; one that awaits its decide step, and a hart without a session, are record faults. That the bitmap
and the descriptor are read again at each pass is the model's reading (log 71). -/
def Claims.Selection : Prop :=
  ∀ (s : State) (n : Nat), Free s n →
    let h := s.hart n
    let cl := hartCluster n
    ∀ (o : LOpts),
    (∀ xa, h.xUse xa → let a := (h.xVal xa).toNat
      let i := Instr.slCfg o xa
      (a % 64 ≠ 0 → exec i s = .next (s.takeTrap n 0x05 a h.pc)) ∧
      (a % 64 = 0 → ∀ v t, Claims.record s n a v t →
        (Claims.badSel v → exec i s = .next (t.takeTrap n 0x09 a h.pc)) ∧
        (¬ Claims.badSel v → Claims.vfld v 396 1 = 0 → Claims.vfld v 128 64 = 0 → (t.cluster cl).sess = none →
          (∀ j rest, (t.cluster cl).jobs = j :: rest → j.cfg = true ∧ j.hart = n) →
          Claims.pinRoom t n →
          ∀ gens, t.recordRanges (n / 4) (SelRec.ranges v none) [] = .ok gens → ∃ u x, exec i s = .next u ∧ Claims.opened u n x ∧
            x.rcd = v ∧ x.cand = List.range (Claims.vfld v 320 32) ∧ x.rem = Claims.vfld v 256 64 ∧ x.gens = gens ∧ x.pin = Claims.cueOf h n ∧ x.above = 0 ∧ x.wabove = 0 ∧
            x.pre = 0 ∧ x.passes = 0 ∧ x.counted = false ∧ x.done = false ∧ x.short = false ∧ x.empty = false ∧
            (u.hart n).instret = h.instret + 1) ∧
        -- the engine is held by another hart, or earlier requests wait
        (¬ Claims.badSel v → Claims.vfld v 396 1 = 0 → Claims.vfld v 128 64 = 0 → Claims.unopened t n →
          ((t.cluster cl).sess ≠ none ∨ (∃ j rest, (t.cluster cl).jobs = j :: rest ∧ ¬ (j.cfg = true ∧ j.hart = n))) →
          ∀ gens, t.recordRanges (n / 4) (SelRec.ranges v none) [] = .ok gens → ∃ u, exec i s = .next u ∧ (u.hart n).pc = h.pc ∧
            (u.hart n).instret = h.instret ∧ (u.cluster cl).sess = (t.cluster cl).sess ∧
            ((∃ j ∈ (t.cluster cl).jobs, j.cfg = true ∧ j.hart = n) → (u.cluster cl).jobs = (t.cluster cl).jobs) ∧
            ((∀ j ∈ (t.cluster cl).jobs, ¬ (j.cfg = true ∧ j.hart = n)) →
              ∃ r, (u.cluster cl).jobs = (t.cluster cl).jobs ++ [r] ∧ r.cfg = true ∧ r.hart = n)))) ∧
    (Claims.unopened s n → exec (.slCfgClose o) s = .next (s.done n (.slCfgClose o) (.seq none))) ∧
    (∀ x, Claims.opened s n x → x.pin = none →
      exec (.slCfgClose o) s = .next ((s.setCluster cl { s.cluster cl with sess := none }).done n (.slCfgClose o) (.seq none))) ∧
    (∀ xd, let i := Instr.slRun o xd
      (Claims.unopened s n → exec i s = .next (s.takeTrap n 0x09 0 h.pc)) ∧
      ∀ x, Claims.opened s n x →
        (x.done = true → Claims.gives s n i { window := 0, xs := [(xd, { val := Claims.statusWord x })] }) ∧
        (x.done = false → x.counted = true → exec i s = .next (s.takeTrap n 0x09 0 h.pc)) ∧
        (x.done = false → x.counted = false → x.passes < Claims.passCount x.rcd → 0 < x.rem → ∀ l p u, s.selPass x = (.ok (l, p), u) → h.window i = 0 →
          ∃ y,
          Claims.decided x y (Claims.still x l) (fun i => (Claims.imgOf l i).map (Claims.digitOf x.rcd x.passes)) (Claims.cntOf x l) (Claims.wgtOf x l) ∧
          (y.done = true → ∃ t, exec i s = .next t ∧ Claims.opened t n y ∧ (t.hart n).xVal xd = (if xd = 0 then 0 else Claims.statusWord y) ∧
            (t.hart n).instret = h.instret + 1) ∧
          -- the passes after the first are those the instruction takes from there
          (y.done = false → ∀ t, exec i (u.setCluster cl { u.cluster cl with sess := some y }) = .next t → (t.hart n).instret = h.instret + 1 →
            exec i s = .next t)) ∧
        (x.done = false → x.counted = false → x.passes < Claims.passCount x.rcd → ∀ e u, s.selPass x = (.error e, u) →
          ∃ c v, exec i s = .next (u.takeTrap n c v h.pc)))

/-- R354: sl.pass count makes the count step and writes the block of local counts; sl.pass decide makes the decide step from
the combined block; the traps of the block's address come before the record fault of a step out of turn (R288). R356: what sl.get gives. R357: sl.mask exports the cut as a bitmap and closes the session; poison met in
the column it reads again poisons the number too. R361: a job whose selection is decided posts its five words, one whose export fails too; one discarded
in part has a completion of status 8. -/
def Claims.SelectionSteps : Prop :=
  (∀ (s : State) (n : Nat), Free s n →
    let h := s.hart n
    let cl := hartCluster n
    ∀ (o : LOpts) (xd xa : Reg) (x : Session), Claims.opened s n x → h.xUse xa →
    let a := (h.xVal xa).toNat
    let wtd := Claims.vfld x.rcd 394 1 = 1
    let len := if wtd then 256 else 128
    (x.done = true → Claims.gives s n (.slPassCount o xd xa) { window := 0, xs := [(xd, { val := Claims.statusWord x })] }) ∧
    -- the block's address is tested before a step out of turn
    (a % 128 ≠ 0 → (x.done = false → exec (.slPassCount o xd xa) s = .next (s.takeTrap n 0x05 a h.pc)) ∧
      exec (.slPassDecide o xd xa) s = .next (s.takeTrap n 0x05 a h.pc)) ∧
    (a % 128 = 0 → a < Claims.bankBase → (x.done = false → exec (.slPassCount o xd xa) s = .next (s.takeTrap n 0x06 a h.pc)) ∧
      exec (.slPassDecide o xd xa) s = .next (s.takeTrap n 0x06 a h.pc)) ∧
    (∀ off g, a = Claims.bankBase + off → off % 128 = 0 → Claims.ownSlot s n off len → Claims.covered s (n / 4) off len g →
      (x.done = false → x.counted = true → exec (.slPassCount o xd xa) s = .next (s.takeTrap n 0x09 0 h.pc)) ∧
      (x.counted = false → exec (.slPassDecide o xd xa) s = .next (s.takeTrap n 0x09 0 h.pc))) ∧
    (∀ off, a = Claims.bankBase + off → off % 128 = 0 → Claims.ownSlot s n off len →
      (∀ g, Claims.covered s (n / 4) off len g →
        (x.done = false → x.counted = false → ∀ l p u, s.selPass x = (.ok (l, p), u) → h.window (.slPassCount o xd xa) = 0 →
          ∃ t y, exec (.slPassCount o xd xa) s = .next t ∧ Claims.opened t n y ∧ y.counted = true ∧ y.done = false ∧ y.passes = x.passes ∧
            y.cand = Claims.still x l ∧ y.rcd = x.rcd ∧ (t.hart n).xVal xd = (if xd = 0 then 0 else Claims.statusWord y) ∧
            (∀ v, v < 16 → y.cnts.getD v 0 = Claims.cntOf x l v ∧ y.wts.getD v 0 = Claims.wgtOf x l v) ∧
            ((s.core (n / 4)).psb = [] → s.log = [] → s.part = none → 
              ∀ v, v < 16 → Claims.number (Claims.bankBytes (t.release (.hart n) 4) n (off + (if wtd then 128 else 0) + 8 * v) 8) = Claims.cntOf x l v % 2 ^ 64)) ∧
        (x.counted = true → ∀ bs : List Byte, (∀ k, k < len → Claims.seen (Claims.bankGran s (n / 4) ((off + k) / 32)) g ((off + k) % 32) = (bs.getD k 0, false)) →
          s.log = [] → s.part = none → (s.core (n / 4)).psb = [] → h.window (.slPassDecide o xd xa) = 0 →
          let c (v : Nat) : Nat := Claims.number ((List.range 8).map fun k => bs.getD ((if wtd then 128 else 0) + 8 * v + k) 0)
          let w (v : Nat) : Nat := if wtd then Claims.number ((List.range 8).map fun k => bs.getD (8 * v + k) 0) else 0
          ((∃ v, v < 16 ∧ c v < x.cnts.getD v 0) → x.cnts.length = 16 → x.wts.length = 16 →
            ∃ t, exec (.slPassDecide o xd xa) s = .next t ∧ Claims.opened t n x ∧
              (h.house = false → (t.hart n).tcause = 0x09 ∧ (t.hart n).tval = h.xVal xa ∧ (t.hart n).house = true)) ∧
          ((∀ v, v < 16 → x.cnts.getD v 0 ≤ c v ∧ x.wts.getD v 0 ≤ w v) → x.cnts.length = 16 → x.wts.length = 16 → x.digs.length = x.cand.length →
            x.cand.Nodup → x.passes < Claims.passCount x.rcd → 0 < x.rem → ∃ t y, exec (.slPassDecide o xd xa) s = .next t ∧ Claims.opened t n y ∧
            Claims.decided x y x.cand (fun i => ((x.cand.zip x.digs).find? fun p => p.1 == i).map (·.2)) c w ∧
            (t.hart n).xVal xd = (if xd = 0 then 0 else Claims.statusWord y))))) ∧
    (∀ sel : BitVec 3, let i := Instr.slGet o sel xd
      let v : Nat := if sel = 0 then Claims.thresholdOf x else if sel = 2 then x.above else if sel = 3 then x.eq else if sel = 4 then x.wabove
        else if sel = 5 then (Claims.statusWord x).toNat else if sel = 6 then x.leq else x.lweq
      (sel ≠ 1 → h.window i = 0 → ∃ t, exec i s = .next t ∧ (t.hart n).xVal xd = (if xd = 0 then 0 else BitVec.ofNat 64 v) ∧
        (t.hart n).xPois xd = (xd != 0 && x.poison) ∧ (t.cluster cl).sess = some x ∧ (t.hart n).instret = h.instret + 1) ∧
      -- sel 1: the value whose image the threshold is
      (sel = 1 → h.window i = 0 → xd ≠ 0 → x.empty = false → ¬ Claims.badSel x.rcd →
        (∃ e, e < 2 ^ Claims.imgBits x.rcd ∧ Machine.image { code := BitVec.ofNat 4 (Claims.vfld x.rcd 384 4), uns := decide (Claims.vfld x.rcd 388 1 = 1) }
          (Claims.vfld x.rcd 389 2) (decide (Claims.vfld x.rcd 391 1 = 1)) e = some (Claims.thresholdOf x)) →
        ∃ t, exec i s = .next t ∧ Machine.image { code := BitVec.ofNat 4 (Claims.vfld x.rcd 384 4), uns := decide (Claims.vfld x.rcd 388 1 = 1) }
          (Claims.vfld x.rcd 389 2) (decide (Claims.vfld x.rcd 391 1 = 1)) ((t.hart n).xVal xd).toNat = some (Claims.thresholdOf x))) ∧
    (∀ xq off, h.xUse xq → a = Claims.bankBase + off → ∀ l p u, s.selPass x = (.ok (l, p), u) →
      let i (m : BitVec 2) := Instr.slMask o m xd xa xq
      let cnt := Claims.vfld x.rcd 320 32
      let len := (cnt + 63) / 64 * 8
      (x.done = false → ∀ m, exec (i m) s = .next (s.takeTrap n 0x09 0 h.pc)) ∧
      (x.done = true → off % 8 = 0 → Claims.ownSlot s n off len → x.pin = none → (∀ j ∈ x.start, j < cnt) → x.core = n / 4 → h.window (i 0) = 0 →
        ∃ t, exec (i 0) s = .next t ∧ (t.cluster cl).sess = none ∧
          (∀ b, b < 8 * len → ((Claims.bankBytes t n (off + b / 8) 1).getD 0 0).getLsbD (b % 8) = true ↔
            (b < cnt ∧ Claims.chosen x l (h.xVal xq).toNat b)) ∧
          ∀ L : List Nat, L.Nodup → (∀ b, b ∈ L ↔ (b < cnt ∧ Claims.chosen x l (h.xVal xq).toNat b)) →
            (t.hart n).xVal xd = (if xd = 0 then 0 else BitVec.ofNat 64 L.length) ∧
            (t.hart n).xPois xd = (xd != 0 && (x.poison || p || l.any (·.poison)))))) ∧
  (∀ (s : State) (cl : Nat) (j : SelJob) (rest : List SelJob), cl < Config.clusters → (s.cluster cl).sess = none →
    (s.cluster cl).jobs = j :: rest → j.cfg = false → (s.hart j.hart).q3.length ≤ 27 →
    let w0 := (j.words.getD 0 0).toNat
    (j.status = 8 → exec (.selectionJob cl) s = .next ((s.setCluster cl { s.cluster cl with jobs := rest }).post (engineId cl 2) j.hart
      { payload := BitVec.ofNat 512 (w0 % 256 + 256 * 8 + 2 ^ 32 * (w0 / 2 ^ 32 % 2 ^ 32)), side := Claims.side 4 0 0 (0x20000 + 4 * cl + 2)
        cover := [], helper := j.helper })) ∧
    (j.status ≠ 0 → j.status ≠ 8 → j.status < 256 → j.pin = none → j.sess = none → ∃ t, exec (.selectionJob cl) s = .next t ∧ (t.cluster cl).jobs = rest ∧
      (t.hart j.hart).q3.map (·.val.toNat) = (s.hart j.hart).q3.map (·.val.toNat) ++
        [w0 % 256 + 256 * j.status + 2 ^ 32 * (w0 / 2 ^ 32 % 2 ^ 32), 0, 0, 0, 0]) ∧
    -- one whose export failed has its selection decided, and nothing exported (log 116)
    (∀ x, j.status ≠ 0 → j.status ≠ 8 → j.status < 256 → j.pin = none → j.sess = some x → x.done = true → x.wabove < 2 ^ 64 → x.above < 2 ^ 64 → x.eq < 2 ^ 64 →
      x.pre < 2 ^ Claims.imgBits x.rcd → ∃ t, exec (.selectionJob cl) s = .next t ∧ (t.cluster cl).jobs = rest ∧
      (t.hart j.hart).q3.map (·.val.toNat) = (s.hart j.hart).q3.map (·.val.toNat) ++
        [w0 % 256 + 256 * j.status + (if x.poison then 2 ^ 16 else 0) + 2 ^ 32 * (w0 / 2 ^ 32 % 2 ^ 32), Claims.thresholdOf x, x.above, x.eq,
          if w0 / 2 ^ 10 % 2 = 1 ∧ Claims.vfld x.rcd 394 1 = 0 then 0 else x.wabove]) ∧
    (∀ x, j.status = 0 → j.sess = some x → x.done = true → w0 / 2 ^ 10 % 2 = 0 → j.pin = none → x.wabove < 2 ^ 64 → x.above < 2 ^ 64 → x.eq < 2 ^ 64 →
      x.pre < 2 ^ Claims.imgBits x.rcd → ∃ t, exec (.selectionJob cl) s = .next t ∧ (t.cluster cl).jobs = rest ∧
      (t.hart j.hart).q3.map (·.val.toNat) = (s.hart j.hart).q3.map (·.val.toNat) ++
        [w0 % 256 + 256 * (if x.empty then 10 else if x.short then 11 else 0) + (if x.poison then 2 ^ 16 else 0) + 2 ^ 32 * (w0 / 2 ^ 32 % 2 ^ 32),
          Claims.thresholdOf x, x.above, x.eq, x.wabove]) ∧
    (∀ x l p u, j.status = 0 → j.sess = some x → x.done = false → x.passes < Claims.passCount x.rcd → 0 < x.rem → s.selPass x = (.ok (l, p), u) →
      ∃ t y k, exec (.selectionJob cl) s = .next t ∧ (t.cluster cl).jobs = k :: rest ∧ k.sess = some y ∧ k.words = j.words ∧
        Claims.decided x y (Claims.still x l) (fun i => (Claims.imgOf l i).map (Claims.digitOf x.rcd x.passes)) (Claims.cntOf x l) (Claims.wgtOf x l)))

/-! ### The copy engine (R302-R318) -/

namespace Claims

/-- The command stands first in the engine's queue, and the engine may work on it (R306, R407). -/
def heads (s : State) (cl : Nat) (c : CopyCmd) : Prop :=
  cl < Config.clusters ∧ (∃ rest, (s.cluster cl).copy = c :: rest) ∧ (s.cluster cl).copyHold = false ∧ c.finished = false ∧ c.core < Config.cores

/-- Word k of a command. -/
def wordOf (c : CopyCmd) (k : Nat) : Nat := (c.words.getD k 0).toNat
def opOf (c : CopyCmd) : Nat := wordOf c 0 % 256
def landing (c : CopyCmd) : Prop := wordOf c 0 / 2 ^ 23 % 2 = 1
/-- The word that names its landing buffer. -/
def landWord (c : CopyCmd) : Nat := if opOf c = 3 then wordOf c 3 else wordOf c 2

/-- The first row a block-moving command moves: source, destination, length (R303, R317, R318). -/
def firstRow (c : CopyCmd) : Nat × Nat × Nat :=
  match opOf c with
  | 6 => (wordOf c 2, (c.next.toNat + wordOf c 3 % c.bad * c.block) % 2 ^ 64, c.block)
  | _ => (wordOf c 1, wordOf c 2, wordOf c 3 % 2 ^ 32)
/-- Rows of a block-moving command. -/
def rowsOf (c : CopyCmd) : Nat :=
  match opOf c with
  | 1 => 1
  | 2 => wordOf c 3 / 2 ^ 32
  | _ => wordOf c 4 % 2 ^ 16

/-- The bytes of the own bank of a core from an offset, as an engine reads them under the generation recorded (R277, R305). -/
def engSees (s : State) (c : CopyCmd) (o len : Nat) (bs : PBytes) : Prop :=
  0 < len ∧ o + len ≤ 2 ^ 17 ∧ bs.length = len ∧ ∃ g, covered s c.core o len g ∧
    ∀ k, k < len → genOf c.gens (locBank c.core ((o + k) / 32)) = some g ∧
      bs.getD k (0, false) = seen (bankGran s c.core ((o + k) / 32)) g ((o + k) % 32)

/-- The bytes of the own bank of a core from an offset may be written by an engine: one live allocation whose generation is
the one recorded, not sealed. -/
def engTakes (s : State) (c : CopyCmd) (o len : Nat) : Prop :=
  0 < len ∧ o + len ≤ 2 ^ 17 ∧ ∀ k, k < len → ∃ e, covering (s.core c.core).alloc ((o + k) / 32 * 32) = some e ∧ e.2.sealed = false ∧
    genOf c.gens (locBank c.core ((o + k) / 32)) = some e.2.gen

/-- The bytes of the bank of a core from an offset. -/
def coreBytes (s : State) (core o len : Nat) : List Byte :=
  (List.range len).map fun i => KMap.get 0 (bankGran s core ((o + i) / 32)).data ((o + i) % 32)

end Claims

/-- R303, R305: the first row of a copy1d, copy2d or winstore that lies in one line at either end is read, then written; a
gather moves the element its first index names; a fill writes its pattern. Each counts what it wrote, and a command that
wrote all is finished; one of no bytes is finished as it starts, and a held engine starts none (R407). R308: bytes enter a
landing buffer as far as it has room. That a row is read whole and then written, and a gathered element read and then
written, is the model's reading (log 62), and so is the order in which the commands of one buffer fill it (log 63). -/
def Claims.CopyEngine : Prop :=
  (∀ (s : State) (cl : Nat) (c : CopyCmd), Claims.heads s cl c → s.log = [] → c.status = 0 → c.unit = 0 → c.written = 0 → c.buf = [] → c.slot = none →
    ¬ Claims.landing c →
    let op := Claims.opOf c
    let (src, dst, len) := Claims.firstRow c
    ∀ a b bs i, (op = 1 ∧ i = Instr.copy1d cl 0 2) ∨ (op = 2 ∧ i = .copy2d cl 0 2) ∨ (op = 6 ∧ 0 < c.bad ∧ i = .winstore cl 0 2) → 0 < Claims.rowsOf c →
      src = Claims.bankBase + a → dst = Claims.bankBase + b → a % 64 + len ≤ 64 → b % 64 + len ≤ 64 →
      Claims.engSees s c a len bs → Claims.engTakes s c b len →
      ∃ t d rest, exec i s = .next t ∧ (t.cluster cl).copy = d :: rest ∧ Claims.coreBytes t c.core b len = bs.map (·.1) ∧
        (∀ q, (q < b / 32 ∨ (b + len - 1) / 32 < q) → Claims.bankGran t c.core q = Claims.bankGran s c.core q) ∧
        d.written = len ∧ d.unit = len ∧ d.status = 0 ∧ d.poisoned = (c.poisoned || bs.any (·.2)) ∧ d.finished = decide (Claims.rowsOf c = 1) ∧
        d.words = c.words) ∧
  (∀ (s : State) (cl k n : Nat) (c : CopyCmd), (s.cluster cl).copyHold = true → k < 16 → (s.cluster cl).copy[k]? = some c → c.started = false →
    ∀ i ∈ [Instr.copy1d cl k n, .copy2d cl k n, .gather cl k n, .fill cl k n, .winstore cl k n, .decompress cl k], exec i s = .next s) ∧
  (∀ (s : State) (cl : Nat) (c : CopyCmd), Claims.heads s cl c → Claims.opOf c = 1 → Claims.wordOf c 3 % 2 ^ 32 = 0 →
    ∃ t rest, exec (.copy1d cl 0 1) s = .next t ∧ (t.cluster cl).copy = { c with started := true, finished := true } :: rest) ∧
  (∀ (s : State) (cl : Nat) (c : CopyCmd), Claims.heads s cl c → s.log = [] → c.status = 0 → c.unit = 0 → c.written = 0 → c.slot = none → ¬ Claims.landing c →
    let size := Claims.wordOf c 4 % 2 ^ 16
    let count := Claims.wordOf c 4 / 2 ^ 16 % 2 ^ 32
    ∀ x ib a b bs, Claims.opOf c = 3 → 0 < count → Claims.wordOf c 1 = Claims.bankBase + x → x % 64 ≤ 60 → Claims.engSees s c x 4 ib →
      Claims.wordOf c 2 + Claims.number (ib.map (·.1)) * size = Claims.bankBase + a → a % 64 + size ≤ 64 → Claims.engSees s c a size bs →
      Claims.wordOf c 3 = Claims.bankBase + b → b % 64 + size ≤ 64 → Claims.engTakes s c b size →
      ∃ t d rest, exec (.gather cl 0 1) s = .next t ∧ (t.cluster cl).copy = d :: rest ∧ Claims.coreBytes t c.core b size = bs.map (·.1) ∧
        d.written = size ∧ d.unit = 1 ∧ d.status = 0 ∧ d.poisoned = (c.poisoned || ib.any (·.2) || bs.any (·.2)) ∧ d.finished = decide (count = 1)) ∧
  (∀ (s : State) (cl : Nat) (c : CopyCmd), Claims.heads s cl c → c.status = 0 → c.written = 0 → c.slot = none →
    let len := Claims.wordOf c 3 % 2 ^ 32
    ∀ b, Claims.opOf c = 4 → Claims.wordOf c 1 = Claims.bankBase + b → b % 64 + len ≤ 64 → Claims.engTakes s c b len →
      ∃ t d rest, exec (.fill cl 0 1) s = .next t ∧ (t.cluster cl).copy = d :: rest ∧
        Claims.coreBytes t c.core b len = (List.range len).map (fun i => BitVec.ofNat 8 (Claims.wordOf c 2 / 256 ^ (i % 8))) ∧
        d.written = len ∧ d.status = 0 ∧ d.finished = true) ∧
  (∀ (s : State) (cl k n : Nat) (c : CopyCmd), cl < Config.clusters → k < 16 → (s.cluster cl).copy[k]? = some c → Claims.landing c → c.started = true → c.finished = false →
    (∀ d ∈ (s.cluster cl).copy.take k, ¬ Claims.landing d ∨ d.finished = true ∨ Claims.landWord d % 256 ≠ Claims.landWord c % 256) →
    let w := Claims.landWord c
    let core := 16 * cl + w / 16 % 16
    let b := w % 16
    let have_ : PBytes := KMap.get [] (s.core core).landing b
    let m := min n (min c.land.length (512 - have_.length))
    ∃ t d, exec (.landingBufferDelivery cl k n) s = .next t ∧ KMap.get [] (t.core core).landing b = have_ ++ c.land.take m ∧
      (t.cluster cl).copy[k]? = some d ∧ d.land = c.land.drop m ∧ d.written = c.written + m)

namespace Claims

/-- The header of a block is whole (R310). -/
def headFine (w : Nat) : Prop :=
  w % 2 ^ 32 = 0x4B4C4243 ∧ w / 2 ^ 48 % 2 ^ 16 = 0 ∧ w / 2 ^ 160 = 0 ∧ w / 2 ^ 32 % 2 ^ 8 ≤ 1 ∧ 1 ≤ w / 2 ^ 64 % 2 ^ 32 ∧ w / 2 ^ 64 % 2 ^ 32 ≤ 4096 ∧
    (w / 2 ^ 32 % 2 ^ 8 = 0 → w / 2 ^ 96 % 2 ^ 32 = w / 2 ^ 64 % 2 ^ 32) ∧
    (w / 2 ^ 32 % 2 ^ 8 = 1 → 1 ≤ w / 2 ^ 96 % 2 ^ 32 ∧ w / 2 ^ 96 % 2 ^ 32 ≤ 6144)

end Claims

/-- R310, R314 to R316: the decompressor of the source's stack takes a command over, one of at most sixteen; a header that is
not whole, or coded bytes of another stack, stop it with status 1, counted and named first; a block that does not fit its
destination stops it with status 3 as its header is read (R304); a stored block that lands is delivered as it is, and with a
wrong checksum it is delivered poisoned and the command goes on with status 5. That a block at which the command stops is
counted once is the model's reading (log 43), and so is the poison bit (log 44). R313: the checksum of "123456789". R309: a finished command completes with its payload. -/
def Claims.Decompression : Prop :=
  crc32c (("123456789".toList).map fun c => BitVec.ofNat 8 c.toNat) = 0xE3069283#32 ∧
  (∀ (s : State) (cl : Nat) (c : CopyCmd), Claims.heads s cl c → Claims.opOf c = 5 →
    (c.started = false → ∀ st s1, s.engStack c (Claims.wordOf c 1) = (st, s1) →
      ((s1.unpacking st).length < 16 → ∃ t d rest, exec (.decompress cl 0) s = .next t ∧ (t.cluster cl).copy = d :: rest ∧
        d = { c with started := true, stack := st, turn := d.turn }) ∧
      (16 ≤ (s1.unpacking st).length → exec (.decompress cl 0) s = .next s1)) ∧
    (c.started = true → c.land = [] → c.block < Claims.wordOf c 3 % 2 ^ 16 → c.bad = 0 → s.myTurn c = true →
      ∀ st' s2 hb s3, (s.nextBlock c.stack).2.engStack c c.next.toNat = (st', s2) → let must := s.earlierCmds cl c
      s2.engRead (.domain (c.stack.getD 0)) c.core c.root .now c.next.toNat 0 32 must = (hb, none, s3) →
      let w := Claims.number (hb.map (·.1))
      let raw := w / 2 ^ 64 % 2 ^ 32
      ((c.next.toNat % 32 ≠ 0 ∨ st' = none ∨ st' ≠ c.stack ∨ ¬ Claims.headFine w) → ∃ t d rest, exec (.decompressBlock cl 0) s = .next t ∧
        (t.cluster cl).copy = d :: rest ∧ d.status = 1 ∧ d.finished = true ∧ d.bad = 1 ∧ d.firstBad = c.block ∧ d.written = c.written) ∧
      (c.next.toNat % 32 = 0 → st'.isSome = true → st' = c.stack → Claims.headFine w → ¬ Claims.landing c → ∀ a, s3.blockFits c raw = some a →
        ∃ t d rest, exec (.decompressBlock cl 0) s = .next t ∧ (t.cluster cl).copy = d :: rest ∧ d.status = 3 ∧ d.addr = BitVec.ofNat 64 a ∧
          d.finished = true ∧ d.bad = 1 ∧ d.firstBad = c.block ∧ d.written = c.written) ∧
      (c.next.toNat % 32 = 0 → st'.isSome = true → st' = c.stack → Claims.headFine w → Claims.landing c → ∀ s5,
        s3.strays c ((c.next.toNat + 32) % 2 ^ 64) (w / 2 ^ 96 % 2 ^ 32) = (true, s5) → ∃ t d rest, exec (.decompressBlock cl 0) s = .next t ∧
        (t.cluster cl).copy = d :: rest ∧ d.status = 1 ∧ d.finished = true ∧ d.bad = 1 ∧ d.firstBad = c.block ∧ d.written = c.written) ∧
      (c.next.toNat % 32 = 0 → st'.isSome = true → st' = c.stack → Claims.headFine w → w / 2 ^ 32 % 2 ^ 8 = 0 → Claims.landing c → c.status = 0 →
        c.block + 1 < Claims.wordOf c 3 % 2 ^ 16 →
        ∀ s5 cb s4, s3.strays c ((c.next.toNat + 32) % 2 ^ 64) raw = (false, s5) →
        s5.engRead (.domain (c.stack.getD 0)) c.core c.root .now ((c.next.toNat + 32) % 2 ^ 64) 0 raw must = (cb, none, s4) →
        let wrong := (crc32c (cb.map (·.1))).toNat ≠ w / 2 ^ 128 % 2 ^ 32
        let read : Bool := hb.any (·.2) || cb.any (·.2)
        ∃ t d rest, exec (.decompressBlock cl 0) s = .next t ∧ (t.cluster cl).copy = d :: rest ∧ d.block = c.block + 1 ∧
          d.next.toNat = (c.next.toNat + 32 + (raw + 31) / 32 * 32) % 2 ^ 64 ∧ d.finished = false ∧ d.poisoned = (c.poisoned || read) ∧
          (wrong → d.status = 5 ∧ d.bad = 1 ∧ d.firstBad = c.block ∧ d.land = cb.map fun b => (b.1, true)) ∧
          (¬ wrong → d.status = 0 ∧ d.bad = 0 ∧ d.land = cb.map fun b => (b.1, read))))) ∧
  (∀ (s : State) (cl : Nat) (c : CopyCmd) (rest : List CopyCmd), cl < Config.clusters → (s.cluster cl).copy = c :: rest → c.finished = true →
    c.outDone = true → c.slot = none → c.dir = none → c.pin = none → c.cover = [] →
    -- a decrement of its barrier that found zero gives status 1, whatever else stopped it (R224)
    let st := if c.under = true then 1 else c.status
    let payload : Vec := BitVec.ofNat 512 (Claims.opOf c + 2 ^ 8 * (st % 256) + 2 ^ 16 * c.poisoned.toNat + 2 ^ 32 * (Claims.wordOf c 0 / 2 ^ 32 % 2 ^ 32) +
      2 ^ 64 * (c.written % 2 ^ 64) + 2 ^ 128 * (if st = 2 ∨ st = 3 ∨ st = 4 then c.addr.toNat else 0) +
      2 ^ 192 * ((if Claims.opOf c = 5 then c.firstBad + 2 ^ 32 * c.bad else if Claims.opOf c = 6 then c.commit.toNat else 0) % 2 ^ 64))
    let k := s.cluster cl
    let t := s.setCluster cl { k with copy := rest, wrote := KMap.set [] k.wrote c.hart (KMap.get [] k.wrote c.hart) }
    let post := st ≠ 0 ∨ Claims.wordOf c 0 / 2 ^ 18 % 2 = 1
    (¬ post → exec (.copyCompletion cl 0) s = .next t) ∧
    (post → (∀ u ∈ s.transit, ¬ (u.sender = 0x20000 + 4 * cl ∧ u.receiver = c.hart)) → Claims.inboxTakes t c.hart →
      exec (.copyCompletion cl 0) s = .next (Claims.toInbox t c.hart { payload := payload, side := Claims.side 4 0 0 (0x20000 + 4 * cl), cover := [], helper := c.helper })))

/-! ### The director class (R373-R405, R451) and RV64GC (R45) -/

namespace Claims

/-- A number loaded by a director core, and the state after. -/
def dirLoads (s : State) (d a len v : Nat) (t : State) : Prop := ∃ bs, dirLoad d a len s = (.ok bs, t) ∧ v = number bs

/-- A well-formed handle (R378), its address and its generation (R377). -/
def handle (v : Word) : Prop := fld v 56 1 = 0 ∧ fld v 0 2 = 0 ∧ fld v 3 2 = 0 ∧ fld v 3 53 ≠ 0
def place (v : Word) : Nat := 8 * fld v 3 54
def handleGeneration (v : Word) : Nat := fld v 57 7

/-- The class of a value (R377). -/
def valueClass (v : Word) (c : Nat) : Prop :=
  if fld v 0 1 = 1 then c = 0
  else if fld v 1 1 = 1 then
    c = if v = 2 then 2 else if v = 6 then 3 else if v = 10 then 4 else if fld v 0 32 = 14 then 5 else 6
  else (handle v → c = 1) ∧ (¬ handle v → c = 7)

/-- Branch target of a guard. -/
def guardTo (pc : Word) (off : BitVec 12) : Word := BitVec.ofInt 64 (pc.toInt + 2 * off.toInt)

/-- The inline cache set of a key (R387). -/
def icSetOf (site : BitVec 12) (shape : Nat) : Nat :=
  (site.toNat ^^^ shape % 4096 ^^^ shape / 4096 % 4096 ^^^ shape / 2 ^ 24 % 256) % 1024

end Claims

/-- R382: bc.next writes the instruction word and goes to the handler's address, bit 0 cleared. R383: ob.ld and ob.st reach
a slot of the object, directly below 8 and through the overflow block from there on, after the checks of the handle. R385,
R386: a guard falls through when the value passes and branches when it fails; it never traps. -/
def Obligations.DirectorObjects : Prop :=
  ∀ (s : State) (d : Nat), FreeDir s d →
    let c := s.dir d
    (∀ rd rs1 rs2, let i := Instr.bcNext rd rs1 rs2
      let p := (c.getX rs1).toNat
      let t := (c.getX rs2).toNat
      (p % 4 ≠ 0 → exec i s = .next (s.takeExc d 4 p c.pc)) ∧
      (p % 4 = 0 → t % 8 ≠ 0 → exec i s = .next (s.takeExc d 4 t c.pc)) ∧
      (p % 4 = 0 → t % 8 = 0 → ∀ w u x v, Claims.dirLoads s d p 4 w u → Claims.dirLoads u d ((t + 8 * (w % 256)) % 2 ^ 64) 8 x v →
        exec i s = .next ((v.setDirX d rd (BitVec.ofNat 64 w)).doneDir d i (.jump (BitVec.ofNat 64 (x / 2 * 2)))))) ∧
    (∀ rd xh (slot : BitVec 12), let v := c.getX xh
      let ld := Instr.obLd rd xh slot
      let st := Instr.obSt rd xh slot
      (¬ Claims.handle v → exec ld s = .next (s.takeExc d 25 v.toNat c.pc) ∧ exec st s = .next (s.takeExc d 25 v.toNat c.pc)) ∧
      (Claims.handle v → ∀ h t, Claims.dirLoads s d (Claims.place v) 8 h t →
        (h / 2 ^ 48 % 128 ≠ Claims.handleGeneration v →
          exec ld s = .next (t.takeExc d 24 v.toNat c.pc) ∧ exec st s = .next (t.takeExc d 24 v.toNat c.pc)) ∧
        (h / 2 ^ 48 % 128 = Claims.handleGeneration v →
          (slot.toNat < 8 → let a := Claims.place v + 32 + 8 * slot.toNat
            (∀ x u, Claims.dirLoads t d a 8 x u → exec ld s = .next ((u.setDirX d rd (BitVec.ofNat 64 x)).doneDir d ld (.seq none))) ∧
            (∀ u, dirWrite d a (Claims.bytes 8 (c.getX rd).toNat) t = (.ok (), u) → exec st s = .next (u.doneDir d st (.seq none)))) ∧
          (8 ≤ slot.toNat → ∀ o u, Claims.dirLoads t d (Claims.place v + 24) 8 o u →
            (o = 2 → exec ld s = .next (u.takeExc d 26 slot.toNat c.pc) ∧ exec st s = .next (u.takeExc d 26 slot.toNat c.pc)) ∧
            (o ≠ 2 → ∀ g, g = BitVec.ofNat 64 o → Claims.handle g → ∀ k u1, Claims.dirLoads u d (Claims.place g) 8 k u1 →
              k / 2 ^ 48 % 128 = Claims.handleGeneration g → ∀ cap u2, Claims.dirLoads u1 d (Claims.place g + 16) 8 cap u2 →
              -- a capacity is a small integer
              cap < 2 ^ 63 →
              (cap / 2 ≤ slot.toNat - 8 → exec ld s = .next (u2.takeExc d 26 slot.toNat c.pc) ∧ exec st s = .next (u2.takeExc d 26 slot.toNat c.pc)) ∧
              (slot.toNat - 8 < cap / 2 → let a := Claims.place g + 32 + 8 * (slot.toNat - 8)
                (∀ x u3, Claims.dirLoads u2 d a 8 x u3 → exec ld s = .next ((u3.setDirX d rd (BitVec.ofNat 64 x)).doneDir d ld (.seq none))) ∧
                (∀ u3, dirWrite d a (Claims.bytes 8 (c.getX rd).toNat) u2 = (.ok (), u3) → exec st s = .next (u3.doneDir d st (.seq none))))))))) ∧
    (∀ xv xs (off : BitVec 12), let i := Instr.gdShape xv xs off
      let v := c.getX xv
      (¬ Claims.handle v → exec i s = .next (s.doneDir d i (.jump (Claims.guardTo c.pc off)))) ∧
      (Claims.handle v → ∀ h t, Claims.dirLoads s d (Claims.place v) 32 h t →
        let pass := h / 2 ^ 48 % 128 = Claims.handleGeneration v ∧ h % 2 ^ 32 = Claims.fld (c.getX xs) 0 32
        (pass → exec i s = .next (t.doneDir d i (.seq none))) ∧ (¬ pass → exec i s = .next (t.doneDir d i (.jump (Claims.guardTo c.pc off))))) ∧
      (Claims.handle v → ∀ e t, dirLoad d (Claims.place v) 32 s = (.error e, t) → ∃ u, exec i s = .next u ∧ (u.dir d).pc = Claims.guardTo c.pc off ∧
        (u.dir d).user = c.user ∧ (u.dir d).sepc = c.sepc)) ∧
    (∀ xv xm (off : BitVec 12) k, Claims.valueClass (c.getX xv) k → let i := Instr.gdTag xv xm off
      ((c.getX xm).getLsbD k = true → exec i s = .next (s.doneDir d i (.seq none))) ∧
      ((c.getX xm).getLsbD k = false → exec i s = .next (s.doneDir d i (.jump (Claims.guardTo c.pc off)))))

/-- R388 to R390: ic.ld gives the result of the entry with the key, or the miss word and a pending fill; ic.st fills the
entry with the key, else the lowest invalid way, else the one the counter names, when the pending fill is permitted for the
key, and always clears the pending fill; ic.inv reaches all 16 stores. -/
def Claims.InlineCaches : Prop :=
  ∀ (s : State) (d : Nat), FreeDir s d →
    let c := s.dir d
    (∀ rd xk (site : BitVec 12), let i := Instr.icLd rd xk site
      let shape := (c.getX xk).extractLsb' 0 32
      let ways := (KMap.get {} c.ic (Claims.icSetOf site shape.toNat)).ways
      (∀ e, some e ∈ ways → e.site = site → e.shape = shape → (∀ f, some f ∈ ways → f.site = site → f.shape = shape → f = e) →
        exec i s = .next ((s.setDirX d rd e.result).doneDir d i (.seq none))) ∧
      ((∀ f, some f ∈ ways → ¬ (f.site = site ∧ f.shape = shape)) →
        exec i s = .next (((s.setDir d { c with permit := true, fillSite := site, fillShape := shape }).setDirX d rd 0xFE).doneDir d i (.seq none)))) ∧
    (∀ xr xk (site : BitVec 12), let i := Instr.icSt xr xk site
      let k := c.getX xk
      let shape := k.extractLsb' 0 32
      let new : IcEntry := ⟨site, shape, k.extractLsb' 32 32, c.getX xr⟩
      let j := Claims.icSetOf site shape.toNat
      let set := KMap.get {} c.ic j
      let fills := c.permit = true ∧ c.fillSite = site ∧ c.fillShape = shape
      let key (w : Nat) : Prop := ∃ f, set.ways[w]? = some (some f) ∧ f.site = site ∧ f.shape = shape
      (c.getX xr = 0xFE → exec i s = .next (s.takeExc d 25 0xFE c.pc)) ∧
      (c.getX xr ≠ 0xFE → ∃ t, exec i s = .next t ∧ (t.dir d).permit = false ∧ (t.dir d).fillSite = 0 ∧ (t.dir d).fillShape = 0 ∧
        (t.dir d).pc = c.pc + 4 ∧ (t.dir d).instret = c.instret + 1 ∧
        (¬ fills → (t.dir d).ic = c.ic) ∧
        (fills → let set' := KMap.get {} (t.dir d).ic j
          (∀ w, key w → (∀ v, v < w → ¬ key v) → set'.ways = set.ways.set w (some new) ∧ set'.ctr = set.ctr) ∧
          ((∀ w, ¬ key w) → (∀ w, set.ways[w]? = some none → (∀ v, v < w → set.ways[v]? ≠ some none) →
            set'.ways = set.ways.set w (some new) ∧ set'.ctr = set.ctr)) ∧
          ((∀ w, ¬ key w) → none ∉ set.ways → set'.ways = set.ways.set set.ctr.toNat (some new) ∧ set'.ctr = set.ctr + 1) ∧
          ∀ q, q ≠ j → KMap.get {} (t.dir d).ic q = KMap.get {} c.ic q))) ∧
    (∀ (xr xk : Reg) (site : BitVec 12), decode true 4 (0x7B + 2 ^ 7 * (site.toNat % 32) + 2 ^ 12 * 2 + 2 ^ 15 * xk.toNat + 2 ^ 20 * xr.toNat +
      2 ^ 25 * (site.toNat / 32)) = .ok (.icSt xr xk site)) ∧
    (∀ xc, (∀ e, e < Config.directors → KMap.wf {} (s.dir e).ic = true) → let i := Instr.icInv xc
      let cls := (c.getX xc).extractLsb' 0 32
      ∃ t, exec i s = .next t ∧ (t.dir d).pc = c.pc + 4 ∧ (t.dir d).x = c.x ∧ ∀ e, e < Config.directors → (t.dir e).permit = false ∧
        ∀ q w, (KMap.get {} (t.dir e).ic q).ways.getD w none =
          match (KMap.get {} (s.dir e).ic q).ways.getD w none with
          | some f => if cls = 0 ∨ f.cls = cls then none else some f
          | none => none)

/-- R392: rc.inc and rc.dec change the reference count of a live, mortal object and give header word 1; a value that is no
handle gives all ones. R394, R396, R397: tx.issue reads the descriptor and its body, refuses a faulty one, and without holds
enters the in-flight table and the tensor issue buffer under the next ticket; a hold that fails is an issue fault that leaves
the ticket in rd. R400: what tx.wait gives. That rc.inc and rc.dec need a header page they may write is the model's reading
(log 41), and that a tx.wait which waits changes nothing (log 100). -/
def Claims.DirectorCounts : Prop :=
  ∀ (s : State) (d : Nat), FreeDir s d →
    let c := s.dir d
    (∀ rd xh (inc : Bool), let i := if inc then Instr.rcInc rd xh else Instr.rcDec rd xh
      let v := c.getX xh
      (Claims.fld v 0 2 ≠ 0 → exec i s = .next ((s.setDirX d rd (BitVec.allOnes 64)).doneDir d i (.seq none))) ∧
      (Claims.fld v 0 2 = 0 → ¬ Claims.handle v → exec i s = .next (s.takeExc d 25 v.toNat c.pc)) ∧
      (Claims.handle v → ∀ ps t h u, dirPlaces d .write (Claims.place v) 16 s = (.ok ps, t) → Claims.dirLoads t d (Claims.place v) 16 h u →
        let refs := h / 2 ^ 64 % 2 ^ 32
        let hold := h / 2 ^ 96 % 2 ^ 32
        (h / 2 ^ 48 % 128 ≠ Claims.handleGeneration v → exec i s = .next (u.takeExc d 24 v.toNat c.pc)) ∧
        (h / 2 ^ 48 % 128 = Claims.handleGeneration v →
          (refs = 0 → exec i s = .next (u.takeExc d 27 v.toNat c.pc)) ∧
          (refs = 2 ^ 32 - 1 → exec i s = .next ((u.setDirX d rd (BitVec.ofNat 64 (h / 2 ^ 64))).doneDir d i (.seq none))) ∧
          (refs ≠ 0 → refs ≠ 2 ^ 32 - 1 → (inc = true ∨ refs ≠ 1 ∨ hold = 0) →
            let w := (if inc then refs + 1 else refs - 1) + 2 ^ 32 * hold
            ∀ u1, dirWrite d (Claims.place v + 8) (Claims.bytes 8 w) u = (.ok (), u1) →
              exec i s = .next ((u1.setDirX d rd (BitVec.ofNat 64 w)).doneDir d i (.seq none))) ∧
          (inc = false → refs = 1 → hold ≠ 0 → h / 2 ^ 36 % 2 = 0 →
            ∀ u1 u2, dirWrite d (Claims.place v + 4) [BitVec.ofNat 8 (h / 2 ^ 32 % 256 + 16)] u = (.ok (), u1) →
              dirWrite d (Claims.place v + 8) (Claims.bytes 8 (2 ^ 32 * hold)) u1 = (.ok (), u2) →
              exec i s = .next ((u2.setDirX d rd (BitVec.ofNat 64 (2 ^ 32 * hold))).doneDir d i (.seq none)))))) ∧
    (∀ rd xs, let i := Instr.txIssue rd xs
      let a := (c.getX xs).toNat
      (a % 64 ≠ 0 → exec i s = .next (s.takeExc d 4 a c.pc)) ∧
      (a % 64 = 0 → ∀ w t, ((List.range 8).mapM (fun k => do pure (Claims.number (← dirLoad d (a + 8 * k) 8))) : Ins (List Nat)) s = (.ok w, t) → w.length = 8 →
        let h := w.getD 0 0
        let kind := h % 256
        ((kind = 0 ∨ 3 < kind ∨ 4 < h / 2 ^ 8 % 8 ∨ h / 2 ^ 11 % 2 ^ 5 ≠ 0 ∨ 767 < h / 2 ^ 16 % 2 ^ 10 ∨ h / 2 ^ 26 % 2 ^ 38 ≠ 0 ∨ w.getD 7 0 ≠ 0 ∨
            (kind ≠ 3 ∧ w.getD 6 0 ≠ 0) ∨ (kind = 3 ∧ (255 < w.getD 6 0 ∨ h / 2 ^ 16 % 2 ^ 10 ≠ 0)) ∨ (kind ≠ 1 ∧ w.getD 5 0 % 64 ≠ 0) ∨ w.getD 5 0 % 8 ≠ 0) →
          ((kind = 0 ∨ 3 < kind) → exec i s = .next (t.takeExc d 28 a c.pc)) ∧
          (1 ≤ kind → kind ≤ 3 → ∀ r u, loadBodyWords d kind (w.getD 5 0) t = (r, u) →
            (∀ b, r = .ok b → exec i s = .next (u.takeExc d 28 a c.pc)) ∧
            (∀ k v, r = .error (.exc k v) → exec i s = .next (u.takeExc d k v c.pc)))) ∧
        -- a queue packet with one storage that is no handle
        (h = 3 + 2 ^ 8 → (∀ j, 2 ≤ j → j < 5 → w.getD j 0 = 0) → w.getD 6 0 ≤ 255 → w.getD 7 0 = 0 → w.getD 5 0 % 64 = 0 →
          ¬ Claims.handle (BitVec.ofNat 64 (w.getD 1 0)) → w.getD 1 0 < 2 ^ 64 → ∀ b u, loadBodyWords d 3 (w.getD 5 0) t = (.ok b, u) →
          u.part = none → (u.dir d).flight.length < 256 → (u.dir d).tib.length < 64 →
          exec i s = .next ((u.setDirX d rd (BitVec.ofNat 64 ((d * 2 ^ 32 + (u.dir d).txseq.toNat) * 2 + 1))).takeExc d 28 (w.getD 1 0) c.pc)) ∧
        -- a queue packet without storages
        (h = 3 → (∀ j, 1 ≤ j → j < 5 → w.getD j 0 = 0) → w.getD 6 0 ≤ 255 → w.getD 7 0 = 0 → w.getD 5 0 % 64 = 0 →
          ∀ b u, ((List.range 2).mapM (fun k => do pure (BitVec.ofNat 64 (Claims.number (← dirLoad d ((w.getD 5 0 + 8 * k) % 2 ^ 64) 8)))) : Ins (List Word)) t = (.ok b, u) →
          u.part = none → (u.dir d).flight.length < 256 → (u.dir d).tib.length < 64 → ∃ r, exec i s = .next r ∧ (r.dir d).txseq = (u.dir d).txseq + 1 ∧
            (r.dir d).flight = (u.dir d).flight ++ [{ seq := (u.dir d).txseq.toNat, handles := [], root := (u.dir d).root }] ∧
            (∃ root, (r.dir d).tib = (u.dir d).tib ++ [{ kind := 3, dst := w.getD 6 0, seq := (u.dir d).txseq.toNat, words := b, root := root }]) ∧
            ((r.dir d).getX rd).toNat = (if rd = 0 then 0 else (d * 2 ^ 32 + (u.dir d).txseq.toNat) * 2 + 1) ∧ (r.dir d).instret = (u.dir d).instret + 1))) ∧
    (∀ rd xt, s.part = none → let i := Instr.txWait rd xt
      let v := c.getX xt
      (v = 2 → exec i s = .next (((s.refresh (.dir d) 4).setDirX d rd 0).doneDir d i (.seq none))) ∧
      (v ≠ 2 → (v.toNat % 2 = 0 ∨ 2 ^ 37 ≤ v.toNat) → exec i s = .next (s.takeExc d 25 v.toNat c.pc)) ∧
      (∀ e q, e < Config.directors → q < 2 ^ 32 → v.toNat = (e * 2 ^ 32 + q) * 2 + 1 →
        let g := s.dir e
        ((BitVec.ofNat 32 q - g.txseq).toNat < 2 ^ 31 → exec i s = .next ((s.setDirX d rd (BitVec.allOnes 64)).doneDir d i (.seq none))) ∧
        (2 ^ 31 ≤ (BitVec.ofNat 32 q - g.txseq).toNat →
          ((∀ f ∈ g.flight, f.seq ≠ q) → exec i s = .next (((s.refresh (.dir d) 4).setDirX d rd 0).doneDir d i (.seq none))) ∧
          (∀ f, g.flight.find? (fun f => f.seq == q) = some f →
            (f.failed = none → exec i s = .next s) ∧
            (∀ st, f.failed = some st → let r := s.refresh (.dir d) 4
              exec i s = .next (((r.setDir e { r.dir e with flight := (r.dir e).flight.filter fun f => f.seq != q }).setDirX d rd
                (BitVec.ofNat 64 st)).doneDir d i (.seq none)))))))

/-- The first two words of an object, as director core `d` has them at a physical address. -/
def Claims.headerAt (s : State) (d pa : Nat) : Nat := Claims.number (s.dieRead d pa 16).1

/-- R398, R399: the hold unit drops one hold of each handle of the entry of a completion; the last hold of an object marked
held clears the mark and puts the handle, under the header's generation, into the core's ring; then it frees the entry of a
completion with status 0 and keeps a failed one, whose kind-4 entry it posts. R404: the release ecall frees the object's
allocation and then advances its generation. R405: the drain takes the ring's head to its tail, before the core is
interrupted for it or from its handler, which then returns. R451: an exception entry is a multiple of 4. R402: a context
switch loads the registers given and drops the pending fill's permit. That all holds of a completion drop in one act is the
model's reading (log 73); so is what a failing sfree leaves (log 75) and how contexts are told apart (log 92). -/
def Obligations.HoldsAndServices : Prop :=
  (∀ (s : State) (d : Nat) (r : Report) (rest : List Report) (f : InFlight) (v : Word), d < Config.directors → (s.dir d).reports = r :: rest →
    (s.dir d).flight.find? (fun e => e.seq == r.seq) = some f → f.handles = [v] → Claims.handle v → s.log = [] → (s.dir d).appends = [] →
    let c := s.dir d
    ∀ pa h t0, s.header d f.root v = (some (pa, h), t0) →
    let hold := h / 2 ^ 96 % 2 ^ 32
    let last : Prop := hold = 1 ∧ h / 2 ^ 36 % 2 = 1
    let size := 2 ^ c.hrsize.toNat
    let full : Prop := (c.hrtail.toNat + 1) % size = c.hrhead.toNat
    let entry := v.toNat % 2 ^ 57 + h / 2 ^ 48 % 128 * 2 ^ 57
    let at_ := c.hrbase.toNat + 8 * c.hrtail.toNat
    1 ≤ hold → pa / 32 ≠ at_ / 32 → ∃ t, exec (.holdRelease d r.seq r.status) s = .next t ∧
      (¬ last → Claims.headerAt t d pa = h - 2 ^ 96 ∧ (t.dir d).hrtail = c.hrtail ∧ (t.dir d).appends = []) ∧
      (last → Claims.headerAt t d pa = h - 2 ^ 96 - 2 ^ 36 ∧
        (full → (t.dir d).hrtail = c.hrtail ∧ (t.dir d).appends = [BitVec.ofNat 64 entry]) ∧
        (¬ full → (t.dir d).hrtail = BitVec.ofNat 16 ((c.hrtail.toNat + 1) % size) ∧ (t.dir d).appends = [] ∧
          (at_ % 8 = 0 → Claims.number (t.dieRead d at_ 8).1 = entry))) ∧
      (r.status = 0 → ∀ e ∈ (t.dir d).flight, e.seq ≠ r.seq) ∧
      (r.status ≠ 0 → ∃ e ∈ (t.dir d).flight, e.seq = r.seq ∧ e.failed = some r.status)) ∧
  (∀ (s : State) (d : Nat) (r : Report) (rest : List Report) (f : InFlight), d < Config.directors → (s.dir d).reports = r :: rest →
    (s.dir d).flight.find? (fun e => e.seq == r.seq) = some f → f.handles = [] →
    (r.status = 0 → exec (.holdRelease d r.seq 0) s =
      .next (s.setDir d { s.dir d with reports := rest, flight := (s.dir d).flight.filter fun e => e.seq != r.seq })) ∧
    (r.status ≠ 0 → ∃ t, exec (.holdRelease d r.seq r.status) s = .next t ∧ (t.dir d).reports = rest ∧
      (t.dir d).flight = (s.dir d).flight.map (fun e => if e.seq = r.seq then { e with failed := some r.status } else e) ∧
      ((∀ u ∈ s.transit, ¬ (u.sender = r.sender ∧ u.receiver = dirId d)) → Claims.inboxTakes s (dirId d) → ∃ e, (t.box (dirId d)).inbox = (s.box (dirId d)).inbox ++ [e] ∧
        e.side = Claims.side 4 0 0 r.sender ∧ Claims.vfld e.payload 32 32 = r.seq % 2 ^ 32 ∧ Claims.vfld e.payload 0 32 = Claims.vfld r.payload 0 32 ∧
        Claims.vfld e.payload 64 448 = Claims.vfld r.payload 64 448))) ∧
  -- a thread on director core d whose ecall waits for Stagehouse
  (∀ (s : State) (d : Nat), d < Config.directors → (s.dir d).trapped = true → (s.dir d).run = .active → (s.dir d).scause = 8 →
    let c := s.dir d
    let a := c.getX 10
    let back (c : Dir) : Dir := { c.sret with pc := c.sepc + 4, trapped := false }
    ((c.getX 17).toNat = 0x121 →
      (a.toNat % 4 = 0 → exec (.exceptionEntryRegister d) s = .next (s.setDir d (back { c.putX 10 0 with excEntry := some a }))) ∧
      (a.toNat % 4 ≠ 0 → exec (.exceptionEntryRegister d) s = .next (s.setDir d (back (c.putX 10 1))))) ∧
    ((c.getX 17).toNat = 0x120 →
      (¬ Claims.handle a → exec (.storageReleaseEcall d) s = .next (s.setDir d (back (c.putX 10 1)))) ∧
      (Claims.handle a → ∀ pa h t, s.header d c.root a = (some (pa, h), t) →
        let fine := h / 2 ^ 48 % 128 = Claims.handleGeneration a ∧ h / 2 ^ 33 % 2 = 1 ∧ h / 2 ^ 64 % 2 ^ 64 = 0
        (¬ fine → exec (.storageReleaseEcall d) s = .next (t.setDir d (back ((t.dir d).putX 10 1)))) ∧
        (fine → s.log = [] → ∀ w2 t2 w3 t3, t.slotWord d c.root a 2 = (w2, t2) → t2.slotWord d c.root a 3 = (w3, t3) →
          let on := (w2.getD 0).toNat
          -- the header under the next generation
          let next := h - h / 2 ^ 48 % 128 * 2 ^ 48 + (h / 2 ^ 48 + 1) % 128 * 2 ^ 48
          ∃ u, exec (.storageReleaseEcall d) s = .next u ∧ (u.dir d).getX 10 = 0 ∧ (u.dir d).pc = c.sepc + 4 ∧ (u.dir d).trapped = false ∧
            -- memory of no cluster
            (on / 2 ^ 10 % 2 = 0 → Claims.headerAt u d pa = next ∧ u.cores = s.cores ∧ u.clusters = s.clusters) ∧
            (on / 2 ^ 10 % 2 = 1 → on % 2 ^ 10 < Config.clusters →
              (∀ unit i e, s.named (on % 2 ^ 10) (w3.getD 0) = some (unit, i, e) → Claims.headerAt u d pa = next ∧
                KMap.get {} (u.table (on % 2 ^ 10) unit) i = if e.forensic then { e with st := .retired, sealed := false } else {}) ∧
              (s.named (on % 2 ^ 10) (w3.getD 0) = none → Claims.headerAt u d pa = h ∧ u.cores = s.cores ∧ u.clusters = s.clusters)))))) ∧
  (∀ (s : State) (d : Nat), d < Config.directors →
    let c := s.dir d
    -- the core has just entered the handler of local interrupt 16
    let in16 : Prop := c.user = false ∧ c.scause.toNat = 2 ^ 63 + 16 ∧ c.pc = (c.stvec &&& ~~~3#64) + (if c.stvec.getLsbD 0 then 64 else 0)
    ((c.hrhead = c.hrtail ∨ (c.user = false ∧ c.sieBit = false ∧ ¬ in16)) → exec (.heldRingDrain d) s = .next s) ∧
    (c.hrhead ≠ c.hrtail → (c.user = true ∨ c.sieBit = true ∨ in16) → c.hrsize.toNat ≤ 16 → c.hrhead.toNat < 2 ^ c.hrsize.toNat → c.hrtail.toNat < 2 ^ c.hrsize.toNat →
      c.appends = [] → ∃ t, exec (.heldRingDrain d) s = .next t ∧ (t.dir d).hrhead = c.hrtail ∧ (t.dir d).hrtail = c.hrtail ∧
        (¬ in16 → (t.dir d).pc = c.pc) ∧ (in16 → (t.dir d).pc = c.sepc))) ∧
  (∀ (s : State) (d : Nat) (pc : Word) (regs : List Word), d < Config.directors → (s.dir d).user = true →
    ∃ t, exec (.interpreterContextSwitch d pc regs) s = .next t ∧ (t.dir d).pc = pc ∧ (t.dir d).permit = false ∧ (t.dir d).ic = (s.dir d).ic ∧
      (t.dir d).user = true ∧ (∀ r : Reg, r ≠ 0 → (t.dir d).getX r = regs.getD (r.toNat - 1) 0) ∧ (∀ r : Reg, (t.dir d).getF r = regs.getD (31 + r.toNat) 0) ∧
      ∃ x ∈ (t.dir d).contexts, x.pc = (s.dir d).pc ∧ x.x = (s.dir d).x ∧ x.f = (s.dir d).f ∧ x.entry = (s.dir d).excEntry)

namespace Claims

/-- Precision of an F or D operation. -/
def fmtOf (dbl : Bool) : FFmt := if dbl then fp64 else fp32
/-- A floating-point operand: a single lies boxed in ones, and one that does not reads as the canonical NaN. -/
def fReg (c : Dir) (dbl : Bool) (r : Reg) : Nat :=
  let w := (c.getF r).toNat
  if dbl then w else if w / 2 ^ 32 = 2 ^ 32 - 1 then w % 2 ^ 32 else 0x7FC00000
/-- A floating-point register written, and the unit marked dirty; flags raised. -/
def withF (c : Dir) (r : Reg) (w : Word) : Dir := { c with f := KMap.set 0 c.f r.toNat w }.fpDirty
def boxed (dbl : Bool) (w : Nat) : Word := BitVec.ofNat 64 (if dbl then w else w % 2 ^ 32 + (2 ^ 32 - 1) * 2 ^ 32)
def withFlags (c : Dir) (e : Events) : Dir := if e = {} then c else { c with fflags := c.fflags ||| rvFlags e }.fpDirty
/-- The rounding mode an instruction names, or the one of frm. -/
def rounds (c : Dir) (rm : BitVec 3) (o : ROpts) : Prop :=
  ∃ m, mode (if rm = 7 then c.frm.toNat else rm.toNat) = some m ∧ o = { rm := m, after := true }

end Claims

/-- R45 and RISC-V's A, F and D on a director core, as the family has them (log 6, 48, 49, 50): arithmetic rounds as the vector forms do, with signalling NaNs
invalid; loads, stores, moves, comparisons and conversions; a reserved rounding mode and a unit that is off are illegal;
load-reserve, store-conditional and the atomics; wfi and fence.i only move on; sret and sfence.vma are of S-mode. -/
def Obligations.DirectorRv64gc : Prop :=
  ∀ (s : State) (d : Nat), FreeDir s d →
    let c := s.dir d
    let ill (op : RvgOp) : Prop := exec (.rv64gcInstruction op) s = .next (s.takeExc d 2 (Instr.rv64gcInstruction op).bits c.pc)
    let fin (op : RvgOp) (t : State) : Prop := exec (.rv64gcInstruction op) s = .next (t.doneDir d (.rv64gcInstruction op) (.seq none))
    (c.fpOn = false → (∀ op dbl rm a b r, ill (.fop op dbl rm r a b)) ∧ (∀ dbl r a, ill (.fmvToX dbl r a) ∧ ill (.fmvFromX dbl r a) ∧ ill (.fclass dbl r a)) ∧
      (∀ dbl r a i, ill (.fload dbl r a i) ∧ ill (.fstore dbl r a i)) ∧ (∀ k dbl r a b, ill (.fcmp k dbl r a b)) ∧
      (∀ neg sub dbl rm r a b e, ill (.fma neg sub dbl rm r a b e)) ∧ (∀ dbl k rm r a, ill (.fcvtToInt dbl k rm r a) ∧ ill (.fcvtFromInt dbl k rm r a) ∧ ill (.fcvtFF dbl rm r a))) ∧
    (c.fpOn = true →
      (∀ dbl rm r a b e, (rm = 5 ∨ rm = 6 ∨ (rm = 7 ∧ 5 ≤ c.frm.toNat)) → (∀ op, op = RvFp.add ∨ op = .sub ∨ op = .mul ∨ op = .div ∨ op = .sqrt → ill (.fop op dbl rm r a b)) ∧
        (∀ neg sub, ill (.fma neg sub dbl rm r a b e)) ∧ ∀ k, ill (.fcvtToInt dbl k rm r a) ∧ ill (.fcvtFromInt dbl k rm r a) ∧ ill (.fcvtFF dbl rm r a)) ∧
      (∀ dbl rm o r a b e, Claims.rounds c rm o →
        let f := Claims.fmtOf dbl
        let x := Claims.fReg c dbl a
        let y := Claims.fReg c dbl b
        let z := Claims.fReg c dbl e
        let put (op : RvgOp) (q : Nat × Events) : Prop := fin op (s.setDir d (Claims.withFlags (Claims.withF c r (Claims.boxed dbl q.1)) q.2))
        let sn (l : List Nat) (q : Nat × Events) : Nat × Events := (q.1, { q.2 with nv := q.2.nv || l.any f.isSNan })
        put (.fop .add dbl rm r a b) (sn [x, y] (fAdd f o x y)) ∧ put (.fop .sub dbl rm r a b) (sn [x, y] (fSub f o x y)) ∧
        put (.fop .mul dbl rm r a b) (sn [x, y] (fMul f o x y)) ∧ put (.fop .div dbl rm r a b) (sn [x, y] (fDiv f o x y)) ∧
        put (.fop .sqrt dbl rm r a b) (sn [x] (fSqrt f o x)) ∧
        (∀ neg sub, (neg = true → f.isNan x = false) →
          put (.fma neg sub dbl rm r a b e) (sn [x, y, z] (fFma f o sub (if neg then (if x < 2 ^ (f.width - 1) then x + 2 ^ (f.width - 1) else x - 2 ^ (f.width - 1)) else x) y z))) ∧
        (∀ k, put (.fcvtFromInt dbl k rm r a) (rvFromInt f o k (c.getX a)) ∧
          (let q := rvToInt f o k x
           fin (.fcvtToInt dbl k rm r a) (s.setDir d (Claims.withFlags (c.putX r q.1) q.2)))) ∧
        (let g := Claims.fmtOf (!dbl)
         let w := Claims.fReg c (!dbl) a
         let q := valToF f o (g.decode w)
         put (.fcvtFF dbl rm r a) (q.1, { q.2 with nv := q.2.nv || g.isSNan w }))) ∧
      (∀ dbl rm r a b, let f := Claims.fmtOf dbl
        let x := Claims.fReg c dbl a
        let y := Claims.fReg c dbl b
        let sign (w : Nat) : Nat := w / 2 ^ (f.width - 1) % 2
        let mag (w : Nat) : Nat := w % 2 ^ (f.width - 1)
        let signed (op : RvFp) (sg : Nat) : Prop := fin (.fop op dbl rm r a b) (s.setDir d (Claims.withF c r (Claims.boxed dbl (mag x + sg * 2 ^ (f.width - 1)))))
        signed .sgnj (sign y) ∧ signed .sgnjn (1 - sign y) ∧ signed .sgnjx ((sign x + sign y) % 2) ∧
        (∀ big : Bool, fin (.fop (if big then .max else .min) dbl rm r a b) (s.setDir d (Claims.withFlags (Claims.withF c r (Claims.boxed dbl (fMinMax f big false x y)))
          { nv := f.isSNan x || f.isSNan y }))) ∧
        -- le, lt, eq
        (∀ k : BitVec 2, k ≠ 3 → f.isNan x = false → f.isNan y = false →
          let p := match fCmp f x y with
            | .lt => k ≠ 2
            | .eq => k ≠ 1
            | .gt => False
          (p → fin (.fcmp k dbl r a b) (s.setDirX d r 1)) ∧ (¬ p → fin (.fcmp k dbl r a b) (s.setDirX d r 0))) ∧
        (∀ k : BitVec 2, (f.isNan x = true ∨ f.isNan y = true) →
          fin (.fcmp k dbl r a b) (s.setDir d (Claims.withFlags (c.putX r 0) { nv := decide (k ≠ 2) || f.isSNan x || f.isSNan y }))) ∧
        fin (.fclass dbl r a) (s.setDirX d r (BitVec.ofNat 64 (rvClass f x))) ∧
        fin (.fmvToX dbl r a) (s.setDirX d r (if dbl then c.getF a else ((c.getF a).extractLsb' 0 32).signExtend 64)) ∧
        fin (.fmvFromX dbl r a) (s.setDir d (Claims.withF c r (Claims.boxed dbl (c.getX a).toNat)))) ∧
      (∀ dbl r a (i : BitVec 12), let z := if dbl then 8 else 4
        let at_ := Claims.addr (c.getX a) i
        (at_ % z = 0 → (∀ v t, Claims.dirLoads s d at_ z v t → fin (.fload dbl r a i) (t.setDir d (Claims.withF (t.dir d) r (Claims.boxed dbl v)))) ∧
          (∀ t, dirWrite d at_ (Claims.bytes z (c.getF r).toNat) s = (.ok (), t) → fin (.fstore dbl r a i) t)) ∧
        (at_ % z ≠ 0 → exec (.rv64gcInstruction (.fload dbl r a i)) s = .next (s.takeExc d 4 at_ c.pc) ∧
          exec (.rv64gcInstruction (.fstore dbl r a i)) s = .next (s.takeExc d 6 at_ c.pc)))) ∧
    (∀ dw aq rl r a b, let z := if dw then 8 else 4
      let at_ := (c.getX a).toNat
      let sx (v : Nat) : Word := if dw then BitVec.ofNat 64 v else (BitVec.ofNat 32 v).signExtend 64
      (at_ % z ≠ 0 → exec (.rv64gcInstruction (.lr dw aq rl r a)) s = .next (s.takeExc d 4 at_ c.pc) ∧
        exec (.rv64gcInstruction (.sc dw aq rl r a b)) s = .next (s.takeExc d 6 at_ c.pc) ∧
        ∀ op, exec (.rv64gcInstruction (.amo op dw aq rl r a b)) s = .next (s.takeExc d 6 at_ c.pc)) ∧
      (at_ % z = 0 →
        (∀ p t v u, dirPlaces d .read at_ z s = (.ok [p], t) → Claims.dirLoads t d at_ z v u →
          fin (.lr dw aq rl r a) ((u.setDir d { u.dir d with resv := some (32 * locGran p.loc + p.off, z) }).setDirX d r (sx v))) ∧
        (∀ p t, dirPlaces d .write at_ z s = (.ok [p], t) →
          let u := t.setDir d { t.dir d with resv := none }
          ((t.dir d).resv = some (32 * locGran p.loc + p.off, z) → ∀ v, dirWrite d at_ (Claims.bytes z (c.getX b).toNat) u = (.ok (), v) →
            fin (.sc dw aq rl r a b) (v.setDirX d r 0)) ∧
          ((t.dir d).resv ≠ some (32 * locGran p.loc + p.off, z) → fin (.sc dw aq rl r a b) (u.setDirX d r 1))) ∧
        (∀ ps t v u, dirPlaces d .write at_ z s = (.ok ps, t) → Claims.dirLoads t d at_ z v u →
          let y := (c.getX b).toNat % 2 ^ (8 * z)
          let sg (x : Nat) : Int := if 2 * x < 2 ^ (8 * z) then x else (x : Int) - 2 ^ (8 * z)
          let does (op : RvAmo) (new : Nat) : Prop := ∀ w, dirWrite d at_ (Claims.bytes z new) u = (.ok (), w) → fin (.amo op dw aq rl r a b) (w.setDirX d r (sx v))
          does .swap y ∧ does .add ((v + y) % 2 ^ (8 * z)) ∧ does .xor (v ^^^ y) ∧ does .and (v &&& y) ∧ does .or (v ||| y) ∧
            does .min (if sg v < sg y then v else y) ∧ does .max (if sg v < sg y then y else v) ∧ does .minu (min v y) ∧ does .maxu (max v y)))) ∧
    (∀ i r a, fin (.fenceI i r a) s) ∧ fin .wfi s ∧
    (c.user = true → ill .sret ∧ ∀ a b, ill (.sfenceVma a b)) ∧
    (c.user = false →
      (exec (.rv64gcInstruction .sret) s = .next (s.setDir d { c.sret with instret := c.instret + 1, trapped := false }) ∧
        c.sret.pc = c.sepc ∧ c.sret.user = !c.sstatus.getLsbD 8 ∧ c.sret.sieBit = c.sstatus.getLsbD 5 ∧ c.sret.sstatus.getLsbD 8 = false) ∧
      ∀ a b, ∃ t, exec (.rv64gcInstruction (.sfenceVma a b)) s = .next t ∧ (t.dir d).pc = c.pc + 4 ∧ (a = 0 → (t.dir d).tlb = []) ∧
        ∀ e ∈ (t.dir d).tlb, e ∈ c.tlb ∧ ¬ (e.vbase ≤ (c.getX a).toNat % 2 ^ 57 ∧ (c.getX a).toNat % 2 ^ 57 < e.vbase + 2 ^ e.size)) ∧
    (c.fpOn = true → ∀ (r a : BitVec 3) (q : Reg) (i : BitVec 5) (j : BitVec 6),
      let x := ((c.getX (Claims.x8 a)).toNat + 8 * i.toNat) % 2 ^ 64
      let y := ((c.getX 2).toNat + 8 * j.toNat) % 2 ^ 64
      (x % 8 = 0 → (∀ v t, Claims.dirLoads s d x 8 v t → fin (.cfld r a i) (t.setDir d (Claims.withF (t.dir d) (Claims.x8 r) (BitVec.ofNat 64 v)))) ∧
        (∀ t, dirWrite d x (Claims.bytes 8 (c.getF (Claims.x8 r)).toNat) s = (.ok (), t) → fin (.cfsd r a i) t)) ∧
      (y % 8 = 0 → (∀ v t, Claims.dirLoads s d y 8 v t → fin (.cfldsp q j) (t.setDir d (Claims.withF (t.dir d) q (BitVec.ofNat 64 v)))) ∧
        (∀ t, dirWrite d y (Claims.bytes 8 (c.getF q).toNat) s = (.ok (), t) → fin (.cfsdsp q j) t)))

/-! ### The casting unit, the sweepers and Stagehouse's acts on harts (R145, R257-R261, R279, R280, R285, R291, R293) -/

namespace Claims

/-- An idle hart of slice `k` in the play's mask. -/
def canTake (s : State) (k : Nat) (p : Play) (n : Nat) : Prop := s.idle n = true ∧ n / 1024 = k ∧ n / 64 ∈ p.clusters
/-- The hart lies in one of the slice's reserved clusters, the highest-numbered ones. -/
def reservedFor (s : State) (k n : Nat) : Prop := 16 - (s.slice k).rsv.toNat ≤ n / 64 % 16
/-- The lowest of the harts that meet a condition. -/
def lowest (P : Nat → Prop) (n : Nat) : Prop := P n ∧ ∀ m, P m → n ≤ m

/-- Act `key` (play × 16 + act) of slice `k` is eligible with the record `c`, which goes to hart `n` (R257, R259). -/
def castsTo (s : State) (k key : Nat) (c : CueRec) (n : Nat) : Prop :=
  ∃ q p, (key, q) ∈ (s.slice k).acts ∧ s.plays.find? (fun e => e.1 == key / 16) = some (key / 16, p) ∧ p.ended = false ∧ p.error = none ∧
    (q.back.head? = some c ∨ (q.back = [] ∧ q.queue.head? = some c)) ∧
    -- the save area of a pinned record lies under the tables of its play's partition
    if vfld c.rcd 175 1 = 1 then s.pinHart (16 * (p.clusters.find? fun c => c / 16 == k).getD 0) c.rcd = some n ∧ s.idle n = true
    else if vfld c.rcd 174 1 = 1 then
      lowest (fun m => canTake s k p m ∧ reservedFor s k m) n ∨
        ((∀ m, canTake s k p m → ¬ reservedFor s k m) ∧ lowest (canTake s k p) n)
    else
      lowest (fun m => canTake s k p m ∧ ¬ reservedFor s k m) n ∨
        ((∀ m, canTake s k p m → reservedFor s k m) ∧ (s.slice k).borrow = true ∧ lowest (canTake s k p) n)

def latencyAct (s : State) (key : Nat) : Prop :=
  ∃ p a, s.plays.find? (fun e => e.1 == key / 16) = some (key / 16, p) ∧ p.acts[key % 16]? = some a ∧ a.latency = true
/-- When the act last dispatched, or its oldest record arrived. -/
def waitsFrom (s : State) (k key t : Nat) : Prop :=
  ∃ q, (key, q) ∈ (s.slice k).acts ∧
    (q.last = some t ∨ (q.last = none ∧ (∃ c ∈ q.back ++ q.queue, c.at_ = t) ∧ ∀ c ∈ q.back ++ q.queue, t ≤ c.at_))
/-- A bulk act that waits since then, 65,536 or more cycles ago. -/
def agedAct (s : State) (k key t : Nat) : Prop := ¬ latencyAct s key ∧ waitsFrom s k key t ∧ 65536 ≤ s.cycle.toNat - t
/-- A declared next act of the act has a full queue. -/
def fullBelow (s : State) (k key : Nat) : Prop :=
  ∃ p a d, s.plays.find? (fun e => e.1 == key / 16) = some (key / 16, p) ∧ p.acts[key % 16]? = some a ∧ d ∈ a.down ∧
    ((p.acts[d]?).map (·.depth)).getD 0 ≤ (KMap.get {} (s.slice k).acts (key / 16 * 16 + d)).queue.length
def held (s : State) (k key : Nat) : Nat := let q := KMap.get {} (s.slice k).acts key; q.queue.length + q.back.length

/-- A core on which a cue of the play is cast: its landing buffers are empty where it was another play's (R308). -/
def castCore (s : State) (core play : Nat) : State :=
  let c := s.core core
  if c.castPlay = some play then s
  else s.setCore core { c with castPlay := some play, landing := if c.castPlay = none then c.landing else [] }

/-- The slice with the record of the act dispatched, and the entry on its way to the hart. -/
def dispatched (s : State) (k key : Nat) (c : CueRec) (n : Nat) (rr : Option Nat) : State :=
  let x := s.slice k
  let q := KMap.get {} x.acts key
  let q' : ActQ := { queue := if q.back = [] then q.queue.tail else q.queue, back := q.back.tail, last := some s.cycle.toNat }
  (castCore (s.setSlice k { x with acts := KMap.set {} x.acts key q', rr := rr }) (n / 4) (key / 16)).post (castId k) n { payload := c.rcd, side := side 5 0 0 (castId k) }

/-- A hart that a vacate request is sent to: it runs a bulk cue in a reserved cluster of the slice (R261). -/
def asked (s : State) (k n : Nat) : Prop :=
  (s.hart n).house = false ∧ (s.hart n).curLat = false ∧ (s.hart n).run ≠ .halted ∧ n / 1024 = k ∧ reservedFor s k n
/-- The request has gone 65,536 cycles without an answer. -/
def timedOut (s : State) (n : Nat) : Prop := ∃ t, (s.hart n).vacate = some t ∧ 65536 ≤ s.cycle.toNat - t

/-- What a sweeper at granule `i` does to the passes a value waits for (R280). -/
def passed (r : Reuse) (u i : Nat) : Reuse :=
  let p := r.passes.getD u 2
  { r with passes := r.passes.set u (if i = 0 ∧ p = 0 then 1 else if i = 4095 ∧ p = 1 then 2 else p) }
/-- A granule after the visit: untouched where a live allocation of its tag covers it, or in a forensic-retired entry. -/
def swept (t : KMap Alloc) (i : Nat) (g : Gran) : Gran :=
  let inside (a : Alloc) : Bool := decide (a.base ≤ 32 * i ∧ 32 * i < a.base + 32 * a.len)
  if (t.any fun e => e.2.st == .retired && inside e.2) || (t.find? fun e => e.2.st == .live && inside e.2).any (fun e => e.2.gen == g.tag) then g else {}

end Claims

/-- R257 to R259: the casting unit dispatches the head record of the act R258 chooses, aged bulk acts first, then latency
acts round-robin, then the bulk act with the most records whose next acts have room; an act goes to the hart R259 names.
R260, R261: a write of the control word, and the vacate requests it makes. R261: the watchdog's trap. R145: a helper that runs
and has nothing in flight is ended in time; one that is parked, halted or stopped is not. Which of several aged acts goes
first is the model's reading (log 35), and so is when a core's landing buffers are cleared (log 113). -/
def Obligations.CastingUnit : Prop :=
  (∀ (s : State) (k : Nat), k < Config.slices → s.host.fatal = false → KMap.wf {} (s.slice k).acts = true → KMap.wf {} s.harts = true →
    ((∀ key c n, ¬ Claims.castsTo s k key c n) → exec (.castDispatch k) s = .next s) ∧
    (∀ key c n t, Claims.castsTo s k key c n → Claims.agedAct s k key t →
      (∀ key' c' n' t', Claims.castsTo s k key' c' n' → Claims.agedAct s k key' t' → t < t' ∨ (t = t' ∧ key ≤ key')) →
      exec (.castDispatch k) s = .next (Claims.dispatched s k key c n (s.slice k).rr)) ∧
    ((∀ key c n t, Claims.castsTo s k key c n → ¬ Claims.agedAct s k key t) → ∀ key c n, Claims.castsTo s k key c n →
      (Claims.latencyAct s key →
        (match (s.slice k).rr with
         | none => ∀ key' c' n', Claims.castsTo s k key' c' n' → Claims.latencyAct s key' → key ≤ key'
         | some r => (r < key ∧ ∀ key' c' n', Claims.castsTo s k key' c' n' → Claims.latencyAct s key' → r < key' → key ≤ key') ∨
             ∀ key' c' n', Claims.castsTo s k key' c' n' → Claims.latencyAct s key' → key ≤ key' ∧ key' ≤ r) →
        exec (.castDispatch k) s = .next (Claims.dispatched s k key c n (some key))) ∧
      (¬ Claims.fullBelow s k key → (∀ key' c' n', Claims.castsTo s k key' c' n' → ¬ Claims.latencyAct s key' ∧
          (Claims.fullBelow s k key' ∨ Claims.held s k key' < Claims.held s k key ∨ (Claims.held s k key' = Claims.held s k key ∧ key ≤ key'))) →
        exec (.castDispatch k) s = .next (Claims.dispatched s k key c n (s.slice k).rr)))) ∧
  (∀ (s : State) (k : Nat) (w : BitVec 64), k < Config.slices →
    let rsv := if Claims.fld w 0 5 ≤ 16 then w.extractLsb' 0 5 else (s.slice k).rsv
    let t := s.setSlice k { s.slice k with borrow := w.getLsbD 5, rsv := rsv }
    (rsv.toNat ≤ (s.slice k).rsv.toNat → exec (.castingControlWrite k w) s = .next t) ∧
    ((s.slice k).rsv.toNat < rsv.toNat → (∀ n, s.idle n = true → n / 1024 = k → ¬ Claims.reservedFor t k n) →
      ∃ u, exec (.castingControlWrite k w) s = .next u ∧ u.slices = t.slices ∧ ∀ n,
        (Claims.asked t k n → u.hart n = { s.hart n with vacate := some (((s.hart n).vacate).getD s.cycle.toNat) }) ∧
        (¬ Claims.asked t k n → u.hart n = s.hart n))) ∧
  (∀ (s : State) (n : Nat), n < Config.harts → Claims.timedOut s n → (s.hart n).house = false → (s.hart n).helper = none →
    let h := s.hart n
    let free := h.run = .active ∧ h.depmask = 0 ∧ ∀ p ∈ h.pins, p.cue ≠ h.cueptr
    (free → exec (.vacateWatchdogExpiry n) s = .next ((s.setHart n { h with vacateDue := true }).takeTrap n 0x0E 0 h.pc)) ∧
    (¬ free → exec (.vacateWatchdogExpiry n) s = .next (s.setHart n { h with vacateDue := true }))) ∧
  (∀ (s : State) (n : Nat), (s.hart n).run ≠ .active → exec (.helperVacateTimeout n) s = .next s) ∧
  -- a helper with nothing in flight is ended, and its leader told (R145)
  (∀ (s : State) (n l : Nat) (c : Word), n < Config.harts → Claims.timedOut s n → (s.hart n).helper = some (l, c) → (s.hart n).run = .active → (s.hart n).pending = [] →
    (s.hart n).net = none → (∀ p ∈ (s.hart n).streams, p.2.pin = none) → l ≠ n → l < Config.harts →
    (∀ x ∈ (s.cluster (n / 64)).copy, x.hart ≠ n) → (∀ x ∈ (s.cluster (n / 64)).jobs, x.hart ≠ n) → (s.cluster (n / 64)).sess = none →
    (∀ x ∈ (s.slice (n / 1024)).tasks, x.hart ≠ n) →
    let h := s.hart n
    ∃ t, exec (.helperVacateTimeout n) s = .next t ∧ (t.hart n).house = true ∧ (t.hart n).pc = (h.resume.getD (h.tvec, 0)).1 ∧
      (t.hart n).resume = none ∧ (t.hart n).vacate = none ∧ (t.hart n).role = .solo ∧ (t.hart n).helper = none ∧
      -- of its inbox only the completions of its own commands are gone
      (h.ring = [] → (t.hart n).inbox = h.inbox.filter fun e => !(Claims.fld e.side 60 4 == 4 && e.helper)) ∧
      ((∀ u ∈ s.transit, ¬ (u.sender = n ∧ u.receiver = l)) → Claims.inboxTakes s l → ∃ e, (t.box l).inbox = (s.box l).inbox ++ [e] ∧
        e.side = Claims.side 6 0 0 n ∧ e.payload.toNat = n / 4 + 2 ^ 32 * (n % 4) + 2 ^ 40 * 0x0E + 2 ^ 192 * s.time.toNat))

/-- R279, R280: a sweeper's visit clears a granule that is not current and not forensic, goes to the next one, and marks
the passes the reuse rule waits for. R285: Stagehouse's release frees a forensic-retired entry, whose generation then waits
for every sweeper (log 93). R293: Stagehouse unparks a hart whose fpsup names itself. R291: a hart reset restarts a halted hart; what it keeps is
the model's reading (log 89). -/
def Obligations.SweepersAndHartActs : Prop :=
  (∀ (s : State) (k u : Nat), k < Config.clusters → u < 17 →
    let i := if u < 16 then (s.core (16 * k + u)).sweep else (s.cluster k).accSweep
    let reuse := ((s.cluster k).reuse.map fun r => Claims.passed r u i).filter fun r => i != 4095 || r.passes.any (fun p => p != 2)
    let g := if u < 16 then Claims.bankGran s (16 * k + u) else KMap.get {} (s.cluster k).acc
    ∃ t, exec (.sweeperVisit k u) s = .next t ∧ (t.cluster k).reuse = reuse ∧ t.harts = s.harts ∧ t.mem = s.mem ∧
      (u < 16 → (t.core (16 * k + u)).sweep = (i + 1) % 4096 ∧ ∀ j, Claims.bankGran t (16 * k + u) j =
        if j = i then Claims.swept (Claims.table s k u) i (g i) else g j) ∧
      (u = 16 → (t.cluster k).accSweep = (i + 1) % 4096 ∧ ∀ j, KMap.get {} (t.cluster k).acc j =
        if j = i then Claims.swept (Claims.table s k u) i (g i) else g j)) ∧
  (∀ (s : State) (k u i : Nat), k < Config.clusters → u < 17 → i < 16 →
    let a := KMap.get {} (Claims.table s k u) i
    (a.st ≠ .retired → exec (.forensicEntryRelease k u i) s = .next s) ∧
    (a.st = .retired → ∃ t, exec (.forensicEntryRelease k u i) s = .next t ∧ t.mem = s.mem ∧ (∀ j, KMap.get {} (Claims.table t k u) j = if j = i then {} else KMap.get {} (Claims.table s k u) j) ∧
      (∃ r ∈ (t.cluster k).reuse, r.gen = a.gen ∧ r.passes = List.replicate 17 0) ∧ ∀ c j, Claims.bankGran t c j = Claims.bankGran s c j)) ∧
  (∀ (s : State) (n : Nat) (v : BitVec 64), n < Config.harts → (s.hart n).fpsup.toNat = n → ∀ pc ev, (s.hart n).run = .parked pc ev →
    exec (.stagehouseUnpark n v) s = .next (s.setHart n { s.hart n with
      run := .active, vflags := (s.hart n).vflags &&& ~~~(v.extractLsb' 0 5), venab := (s.hart n).venab &&& ~~~(v.extractLsb' 8 5) })) ∧
  (∀ (s : State) (n : Nat), n < Config.harts → n ∈ s.doubleTraps → (s.hart n).curPlay = 0 →
    ∃ t, exec (.hartReset n) s = .next t ∧ (t.hart n).run = .active ∧ (t.hart n).house = true ∧ (t.hart n).pc = 0 ∧ (t.hart n).cueptr = 0 ∧
      (t.hart n).rgen = 1 ∧ (t.hart n).vflags = 0 ∧ (t.hart n).venab = 0 ∧ n ∉ t.doubleTraps ∧ (t.hart n).inbox = (s.hart n).inbox ∧
      -- it pins what its commands pin; where nothing else of it is outstanding, no other hart changes
      ((s.hart n).net = none → (s.hart n).pending = [] → (∀ p ∈ (s.hart n).streams, p.2.pin = none) → Claims.unopened s n →
        (t.hart n).pins = (s.hart n).pins ∧ ∀ m, m ≠ n → t.hart m = s.hart m))

/-! ### The play table, the scheduler threads and the services (R409-R429, R438-R443) -/

namespace Claims

def entryIs (s : State) (e : Nat) : PEntry := KMap.get {} s.ptab e
def eState (e : PEntry) : Nat := fld e.w0 0 3
def ePlay (e : PEntry) : Nat := fld e.w0 3 16
def eSet (e : PEntry) : Nat := fld e.w0 19 2
def eRel (e : PEntry) : Nat := fld e.w0 21 3
def eQueue (e : PEntry) : Nat := fld e.w0 24 8
def ePos (e : PEntry) : Nat := fld e.w0 32 32
/-- Word 0 with another state, and word 3 of a declared, an accepted and a live count. -/
def inState (e : PEntry) (st : Nat) : PEntry := { e with w0 := BitVec.ofNat 64 (e.w0.toNat / 8 * 8 + st) }
def counts (d a l : Nat) : Word := BitVec.ofNat 64 (d + 2 ^ 16 * a + 2 ^ 32 * l)
/-- Another entry of the set, in one of the states, has an earlier completion number (R423). -/
def waitsFor (s : State) (e : PEntry) (states : List Nat) : Prop :=
  ∃ x ∈ s.ptab, eSet x.2 = eSet e ∧ eState x.2 ∈ states ∧
    ((e.w4.extractLsb' 0 32 : BitVec 32) - x.2.w4.extractLsb' 0 32 - 1).toNat < 2 ^ 31

/-- What Stagehouse reads at a physical address, as a number; and a queue's descriptor fields (R409). -/
def stgNum (s : State) (pa len : Nat) : Nat := number (s.stgRead pa len)
def qAt (s : State) (q : Nat) : Nat := s.qtable.toNat + 32 * q
/-- The descriptor's status, cause and error position written. -/
def stopped (s : State) (q status pos cause : Nat) : State := s.stgWrite 5 (qAt s q + 9) (bytes 1 status ++ bytes 2 cause ++ bytes 4 pos)
/-- The wait conditions hold: each signal is at most its value. -/
def signalsDown (s : State) (l : List (Nat × Int)) : Prop := ∀ c ∈ l, asInt 64 false (stgNum s c.1 8) ≤ c.2
/-- A packet of the queue is launched and not delivered. -/
def undelivered (s : State) (q : Nat) : Prop := ∃ e ∈ s.ptab, eQueue e.2 = q ∧ 1 ≤ eState e.2 ∧ eState e.2 ≤ 3
def kicked (s : State) (q : Nat) : State := { s with kicks := s.kicks ||| (1#256 <<< q) }
def ownerOf (s : State) (set : Nat) : Nat := (s.qset set).owner.toNat

/-- The slots of a queue are free. -/
def unslotted (s : State) (q : Nat) : State :=
  { s with qslots := s.qslots.filter (fun z => z.queue != q), evicted := s.evicted.filter (fun z => z.queue != q) }
/-- The core stands at neither of Stagehouse's entries (R428). -/
def atNoEntry (s : State) (d : Nat) : Prop :=
  ∀ y, s.symbols = some y → (s.dir d).user = true ∨ ((s.dir d).pc ≠ y.launch ∧ (s.dir d).pc ≠ y.reseed)
/-- A pin holds a cue whose home lies in the play's pool; and engine work accepted for the play goes on (R453). -/
def pinsPlay (x : Play) (q : Option (Nat × Word)) : Prop :=
  ∃ n cue, q = some (n, cue) ∧ n / 64 ∈ x.clusters ∧ x.pool.1 ≤ cue.toNat ∧ cue.toNat < x.pool.1 + x.pool.2
def working (s : State) (p : Nat) (x : Play) : Prop :=
  (∃ k ∈ s.clusters, (∃ c ∈ k.2.copy, pinsPlay x c.pin) ∨ ∃ j ∈ k.2.jobs, pinsPlay x j.pin) ∨
    ∃ k ∈ s.slices, ∃ t ∈ k.2.tasks, t.play = some p
/-- Two queues wait only on signals that the other's pending packets complete (R419). -/
def waitOnEach (s : State) (a b : Nat) : Prop :=
  ∃ x y, (s.qslots ++ s.evicted).find? (fun z => z.queue == a) = some x ∧ (s.qslots ++ s.evicted).find? (fun z => z.queue == b) = some y ∧
    (x.order = true → ¬ undelivered s a) ∧ (y.order = true → ¬ undelivered s b) ∧ ¬ signalsDown s x.conds ∧ ¬ signalsDown s y.conds ∧
    (∀ c ∈ x.conds, ¬ signalsDown s [c] → c.1 ∈ s.pendingSignals b) ∧ (∀ c ∈ y.conds, ¬ signalsDown s [c] → c.1 ∈ s.pendingSignals a)

/-- Stagehouse serves queues (R433), no play is halted (R449), queue `q` is kicked, its set's thread runs no routine and
takes nothing over, its journal has room, and its head packet is `w` at `pos`. -/
def serves (s : State) (q pos w : Nat) (part : Nat × Partition) : Prop :=
  q < 256 ∧ s.host.ready = true ∧ s.host.fatal = false ∧
    (s.dir (ownerOf s (q / 64))).run = .active ∧ (s.dir (ownerOf s (q / 64))).routine = none ∧ atNoEntry s (ownerOf s (q / 64)) ∧
    (s.qset (q / 64)).taking = false ∧
    ((s.qset (q / 64)).jtail - (s.qset (q / 64)).jlhead).toNat + 3 ≤ 2 ^ (s.qset (q / 64)).jsize.toNat ∧
    s.kicks.getLsbD q = true ∧ stgNum s (qAt s q + 9) 1 = 0 ∧ (∀ k ∈ s.kept, k.queue ≠ q) ∧ pos = stgNum s (qAt s q + 20) 4 ∧
    pos ≠ stgNum s (qAt s q + 16) 4 ∧ w = stgNum s (stgNum s (qAt s q) 8 + 16 * (pos % 2 ^ stgNum s (qAt s q + 8) 1)) 16 ∧
    s.parts.find? (fun p => p.2.queues.contains q) = some part
/-- A play-table entry that is free, and that no kept packet has journaled its intent to take. -/
def freeSlot (s : State) (e : Nat) : Prop := eState (entryIs s e) = 0 ∧ ∀ k ∈ s.kept, k.stage = 3 → k.entry ≠ e
/-- The kick bit cleared and the queue claimed. -/
def claimed (s : State) (q : Nat) : State :=
  { s with kicks := s.kicks &&& ~~~(1#256 <<< q), serving := if q ∈ s.serving then s.serving else s.serving ++ [q] }
def unclaimed (s : State) (q : Nat) : State := { s with serving := s.serving.filter fun x => x != q }

/-- A packet fault: the queue is stopped with status 1, its position and no cause, and waits in no slot (R412). -/
def faulted (s : State) (q pos : Nat) : State := unslotted (unclaimed (stopped s q 1 pos 0) q) q

/-- A packet's first 64 bits are faulty (R410), whatever its block holds. -/
def badPacket (w : Nat) : Prop := (w % 256 ≠ 1 ∧ w % 256 ≠ 2) ∨ 5 < w / 2 ^ 8 % 8 ∨ w / 2 ^ 12 % 2 ^ 20 ≠ 0 ∨ w / 2 ^ 64 % 64 ≠ 0
/-- A block that no packet may name (R411), for a packet of type 1 or 2. -/
def badBlock (w : Nat) (b : List Byte) : Prop :=
  let f (o k : Nat) : Nat := number ((b.drop o).take k)
  f 26 6 ≠ 0 ∨ f 48 8 % 8 ≠ 0 ∨ f 32 8 % 8 ≠ 0 ∨ (w % 256 = 2 ∧ (f 0 16 ≠ 0 ∨ f 24 2 ≠ 0)) ∨
    (w % 256 = 1 ∧ (f 8 8 % 2 ^ 48 = 0 ∨ f 8 8 / 2 ^ 48 = 0 ∨ f 24 2 = 0 ∨ 4096 < f 24 2))

/-- The 32 bytes of a journal entry (R420), and the entry with number `k` of a set. -/
def journaled (k : BitVec 32) (kind q pos entry : Nat) (extra : List Byte) : List Byte :=
  bytes 4 k.toNat ++ bytes 1 kind ++ bytes 1 0 ++ bytes 2 q ++ bytes 4 pos ++ bytes 4 entry ++ extra
def journalAt (s : State) (set k : Nat) (bs : List Byte) : Prop :=
  ∃ pa, (s.rootPlace (s.dir (ownerOf s set)).root false .write (((s.qset set).jlbase.toNat + 32 * (k % 2 ^ (s.qset set).jsize.toNat)) % 2 ^ 64)).1 = some pa ∧ s.stgRead pa 32 = bs

/-- The plain part of a play's end: nothing of its image, no record left (R423). -/
def gone (t : State) (p : Nat) : Prop := (∃ x, t.plays.find? (fun e => e.1 == p) = some (p, x) ∧ x.ended = true) ∧ ∀ k, ∀ a ∈ (t.slice k).acts, a.1 / 16 ≠ p

/-- The service call may run: a strong call waits for its caller's earlier strong calls (R426). -/
def runs (s : State) (v k : Nat) (c : Call) : Prop :=
  ((KMap.get {} s.svcs v).calls)[k]? = some c ∧ (c.packet.getLsbD 16 = true → ∀ j d, j < k → ((KMap.get {} s.svcs v).calls)[j]? = some d →
    d.caller = c.caller → d.packet.getLsbD 16 = false)
/-- The call leaves its ring. -/
def served (s : State) (v k : Nat) : State :=
  { s with svcs := KMap.set {} s.svcs v { KMap.get {} s.svcs v with calls := ((KMap.get {} s.svcs v).calls).eraseIdx k } }
/-- A reply of status `st` and results `r` to a call, from some director core (R426). -/
def replied (s : State) (c : Call) (st : Nat) (r : List Word) (t : State) : Prop :=
  if c.packet.getLsbD 17 = true then ∃ d u, d < Config.directors ∧ (u = s.picks ∨ u = s.picks + 1) ∧
    t = ({ s with picks := u }).post (dirId d) c.caller
      { payload := BitVec.ofNat 512 (c.n.toNat + 2 ^ 32 * st + 2 ^ 64 * (number (r.flatMap fun (w : Word) => bytes 8 w.toNat) % 2 ^ 448)), side := side 2 4 0 (dirId d) }
  else t = s

end Claims

/-- R422: a seed-port store delivers the record in turn, ignores another index, and faults for a core that does not own
the set. R423: an entry whose seeds are accepted and whose cues are gone takes the next number; it is delivered, or held,
after the earlier ones. R418, R425: a write that clears hold. R420, R423: the owner retires a delivered entry. R419: slots
and wait cycles. The model's choices: an entry that is not in state 1 ignores its port, and the exception of another core
has a free stval (log 79); a held entry counts as delivered for the numbering (log 80); engines and units of the placement
publish too (log 40), and what engine work of a play in error is (log 126); a wait cycle counts from when Stagehouse notices it (log
125); a set that changes its owner (log 117). -/
def Claims.PlaysInTable : Prop :=
  (∀ (s : State) (d e : Nat) (v : BitVec 64), d < Config.directors → e < 1024 →
    let E := Claims.entryIs s e
    let j := Claims.fld v 0 16
    let hart := Claims.fld v 16 18
    let acc := Claims.fld E.w3 16 16
    (Claims.ownerOf s (Claims.eSet E) ≠ d → ∃ w, exec (.seedPortStore d e v) s = .next ({ s with freeCount := s.freeCount + 1 }.takeExc d 7 w (s.dir d).pc)) ∧
    (Claims.ownerOf s (Claims.eSet E) = d → (Claims.eState E ≠ 1 ∨ j ≠ acc ∨ Config.harts ≤ hart) → exec (.seedPortStore d e v) s = .next s) ∧
    (Claims.ownerOf s (Claims.eSet E) = d → Claims.eState E = 1 → j = acc → hart < Config.harts → acc < 65535 → Claims.fld E.w3 32 16 < 65535 → Claims.fld E.w3 48 16 = 0 →
      ∀ pa t, s.rootPlace (s.dir d).root false .read ((E.w1.toNat + 64 * j) % 2 ^ 64) = (some pa, t) → exec (.seedPortStore d e v) s =
        .next (({ t with ptab := KMap.set {} t.ptab e { E with w3 := Claims.counts (Claims.fld E.w3 0 16) (acc + 1) (Claims.fld E.w3 32 16 + 1) } }).post
          (dirId d) hart { payload := BitVec.ofNat 512 (Claims.stgNum t pa 64), side := Claims.side 5 0 0 (dirId d) }))) ∧
  (∀ (s : State) (e : Nat), e < 1024 →
    let E := Claims.entryIs s e
    let x := s.qset (Claims.eSet E)
    let done := Claims.eState E = 1 ∧ Claims.fld E.w3 16 16 = Claims.fld E.w3 0 16 ∧ Claims.fld E.w3 32 16 = 0
    let E' := Claims.inState { E with w4 := x.compSeq.zeroExtend 64 } 2
    (¬ done → exec (.playCompletion e) s = .next s) ∧
    (done → Claims.ePlay E = 0 → exec (.playCompletion e) s =
      .next { s.setQset (Claims.eSet E) { x with compSeq := x.compSeq + 1 } with ptab := KMap.set {} s.ptab e E' }) ∧
    -- of a play in error, the engine work accepted for it completes first (R453)
    (done → Claims.ePlay E ≠ 0 → ∀ p, s.plays.find? (fun q => q.1 == Claims.ePlay E) = some (Claims.ePlay E, p) → p.error ≠ none → Claims.working s (Claims.ePlay E) p →
      exec (.playCompletion e) s = .next s) ∧
    (done → Claims.ePlay E ≠ 0 → ∀ p, s.plays.find? (fun q => q.1 == Claims.ePlay E) = some (Claims.ePlay E, p) → (p.error = none ∨ ¬ Claims.working s (Claims.ePlay E) p) →
      ∃ t, exec (.playCompletion e) s = .next t ∧
      Claims.entryIs t e = E' ∧ (t.qset (Claims.eSet E)).compSeq = x.compSeq + 1 ∧ Claims.gone t (Claims.ePlay E) ∧
      (∀ f, f ≠ e → Claims.entryIs t f = Claims.entryIs s f) ∧
      -- the placement has published its stores, and its engines and units theirs
      (∀ c, c ∈ s.cores.map (·.1) → c / 16 ∈ p.clusters → (t.core c).psb = []) ∧
      (∀ r ∈ t.log, ∀ c ∈ p.clusters, r.writer = .cluster c ∨ r.writer = .slice (c / 16) ∨ r.writer = .domain (c / 96) →
        ∃ k, r.pub = some k ∧ Claims.eRel E ≤ k) ∧
      -- nothing is left assigned to it
      (∀ r ∈ t.ranges, r.2.1 ≠ Claims.ePlay E) ∧ ∀ k, KMap.get [] (t.slice k).pools (Claims.ePlay E) = [])) ∧
  (∀ (s : State) (e : Nat), e < 1024 →
    let E := Claims.entryIs s e
    let hold := (s.qset (Claims.eSet E)).hold
    (hold = true → (Claims.eState E = 2 → ¬ Claims.waitsFor s E [2] → exec (.playCompletionDelivery e) s =
        .next { s with ptab := KMap.set {} s.ptab e (Claims.inState E 3) }) ∧
      ((Claims.eState E ≠ 2 ∨ Claims.waitsFor s E [2]) → exec (.playCompletionDelivery e) s = .next s)) ∧
    (hold = false → ((Claims.eState E ≠ 2 ∧ Claims.eState E ≠ 3) ∨ Claims.waitsFor s E [2, 3]) → exec (.playCompletionDelivery e) s = .next s) ∧
    (hold = false → (Claims.eState E = 2 ∨ Claims.eState E = 3) → ¬ Claims.waitsFor s E [2, 3] → ∃ t, exec (.playCompletionDelivery e) s = .next t ∧
      Claims.entryIs t e = Claims.inState E 4 ∧ (∀ f, f ≠ e → Claims.entryIs t f = Claims.entryIs s f) ∧
      (E.w2 = 0 → t.mem = s.mem) ∧
      (∀ r p pa u, E.w2 ≠ 0 → (∀ x ∈ s.dbg.runs, x.1 ≠ Claims.eQueue E * 2 ^ 32 + Claims.ePos E) → s.parts.find? (fun p => p.2.queues.contains (Claims.eQueue E)) = some (r, p) → s.partPlace p E.w2.toNat .write = (some pa, u) →
        t.mem = (u.stgWrite (max (Claims.eRel E) 4) pa (Claims.bytes 8 ((Claims.stgNum u pa 8 + (2 ^ 64 - 1)) % 2 ^ 64))).mem) ∧
      -- the signal of a run of ixdb lies in Stagehouse memory (R371)
      (∀ r, E.w2 ≠ 0 → (∃ x ∈ s.dbg.runs, x.1 = Claims.eQueue E * 2 ^ 32 + Claims.ePos E) → s.parts.find? (fun p => p.2.queues.contains (Claims.eQueue E)) = some r →
        t.mem = (s.stgWrite (max (Claims.eRel E) 4) E.w2.toNat (Claims.bytes 8 ((Claims.stgNum s E.w2.toNat 8 + (2 ^ 64 - 1)) % 2 ^ 64))).mem) ∧
      (∀ i, s.issued = [i] → i.queue = Claims.eQueue E → i.pos = Claims.ePos E → i.dc < Config.directors → (t.dir i.dc).reports = (s.dir i.dc).reports ++
        [{ sender := dirId i.dc, seq := i.seq, status := 0, payload := 0 }] ∧ t.issued = []))) ∧
  (∀ (s : State) (d n : Nat) (v : BitVec 64), d < Config.directors → (s.dir d).user = false → n < 4 →
    let x := s.qset n
    let z := Claims.fld v 32 5
    let y := { x with hold := v.getLsbD 63, owner := v.extractLsb' 56 4, jsize := if 6 ≤ z ∧ z ≤ 16 then v.extractLsb' 32 5 else x.jsize }
    ((v.getLsbD 63 = true ∨ ∀ e ∈ s.ptab, Claims.eSet e.2 = n → Claims.eState e.2 ≠ 3) → exec (.qsetWrite d (0x5D0 + n) v) s = .next ((Claims.newOwner s n y.owner).setQset n y)) ∧
    (v.getLsbD 63 = false → ∀ e, e < 1024 → s.ptab.length ≤ 1024 → (∀ q ∈ s.ptab, Claims.eSet q.2 = n → Claims.eState q.2 = 3 → q.1 = e) →
      Claims.eState (Claims.entryIs s e) = 3 → Claims.eSet (Claims.entryIs s e) = n → ¬ Claims.waitsFor s (Claims.entryIs s e) [2, 3] →
      ∃ t, exec (.qsetWrite d (0x5D0 + n) v) s = .next t ∧ t.qset n = y ∧ Claims.entryIs t e = Claims.inState (Claims.entryIs s e) 4) ∧
    exec (.qsetWrite d (0x5D4 + n) v) s = .next (s.setQset n { x with jlbase := v &&& ~~~31#64 }) ∧
    exec (.qsetWrite d (0x5D8 + n) v) s = .next (s.setQset n { x with jlhead := v.extractLsb' 0 32 })) ∧
  (∀ (s : State) (n : Nat), n < 4 →
    let d := s.dir (Claims.ownerOf s n)
    ((d.run ≠ .active ∨ (d.user = false ∧ d.sieBit = false) ∨ ∀ e ∈ s.ptab, Claims.eSet e.2 = n → Claims.eState e.2 ≠ 4) →
      exec (.localInterrupt17Service n) s = .next s) ∧
    (d.run = .active → (d.user = true ∨ d.sieBit = true) → ∀ e, (∀ q ∈ s.ptab, Claims.eSet q.2 = n → Claims.eState q.2 = 4 → q.1 = e) →
      Claims.eState (Claims.entryIs s e) = 4 → Claims.eSet (Claims.entryIs s e) = n → let x := s.qset n
      (x.jtail - x.jlhead).toNat + 2 ≤ 2 ^ x.jsize.toNat → ∃ t, exec (.localInterrupt17Service n) s = .next t ∧
        Claims.eState (Claims.entryIs t e) = 0 ∧ (∀ f, f ≠ e → Claims.entryIs t f = Claims.entryIs s f) ∧ (t.qset n).jtail = x.jtail + 2 ∧
        let E := Claims.entryIs s e
        (d.root = none → x.jlbase.toNat + 2 ^ 21 < 2 ^ 64 → x.jlbase.toNat % 32 = 0 → 1 ≤ x.jsize.toNat →
          Claims.journalAt t n x.jtail.toNat (Claims.journaled x.jtail 4 (Claims.eQueue E) (Claims.ePos E) e (Claims.bytes 4 (Claims.fld E.w4 0 32) ++ Claims.bytes 12 0)) ∧
          Claims.journalAt t n (x.jtail + 1).toNat (Claims.journaled (x.jtail + 1) 5 (Claims.eQueue E) (Claims.ePos E) e (Claims.bytes 16 0))))) ∧
  (∀ (s : State) (k : Nat) (x : QSlot), s.qslots[k]? = some x →
    let ready := Claims.signalsDown s x.conds ∧ (x.order = true → ¬ Claims.undelivered s x.queue)
    (ready → exec (.queueSlotSignalCheck k) s = .next (Claims.kicked { s with qslots := s.qslots.eraseIdx k } x.queue)) ∧
    (¬ ready → exec (.queueSlotSignalCheck k) s = .next s)) ∧
  (∀ (s : State) (a b : Nat), a ≠ b → Claims.waitOnEach s a b →
    let out (s : State) (q : Nat) : State := Claims.unslotted (Claims.stopped s q 2 (Claims.stgNum s (Claims.qAt s q + 20) 4) 0) q
    -- noticed once; it is broken when it has held for the timeout
    ((∀ c ∈ s.cycles, c.1 ≠ [a, b]) → s.setup (.waitCycle [a, b]) = { s with cycles := s.cycles ++ [([a, b], s.time.toNat)] } ∧
      exec (.waitCycleTimeout [a, b]) s = .next s) ∧
    (∀ since, s.cycles = [([a, b], since)] → s.setup (.waitCycle [a, b]) = s ∧
      (s.time.toNat < since + s.waitTimeout → exec (.waitCycleTimeout [a, b]) s = .next s) ∧
      (since + s.waitTimeout ≤ s.time.toNat → (∀ k ∈ s.kept, k.queue ≠ a ∧ k.queue ≠ b) → exec (.waitCycleTimeout [a, b]) s = .next (out (out s a) b)))) ∧
  -- the timeout is configured between 1 ms and 10 s of the 100 MHz time base
  (∀ (s : State) (n : Nat), s.setup (.waitTimeout n) = if 100000 ≤ n ∧ n ≤ 1000000000 then { s with waitTimeout := n } else s)

/-- R409 to R412, R417, R454: a packet that is faulty stops its queue with status 1 and its position; a packet whose signals
are still up goes to a queue slot; a wait-only packet that is ready gets its play-table entry; a launch makes the play and
seeds it. All is journaled. R424, R425, R429: the machine check tells the standby, the heartbeat's end does, and the
standby takes the set over, or calls the routine registered. The model's choices: the numbers of plays, entries and acts
(log 76); what the event carries for a launch, and that a choice outside its bounds is a packet fault or waits (log 77); the
read index stays at a faulty packet (log 78); kept packets launch after the replay, and hold falls with the last (log 81);
the entries of Stagehouse's routines come from `symbols` (log 82); the heartbeat word is written at the end of each passage
of time by a thread whose core runs (log 83); what a routine's caller saves, and what a new owner drops (log 117). -/
def Obligations.SchedulerThreads : Prop :=
  (∀ (s : State) (q pos w : Nat) (part : Nat × Partition) (harts : List Nat) (pool recs : BitVec 64) (share : Nat), Claims.serves s q pos w part →
    let go := exec (.playLaunch q harts pool share recs) s
    let c := Claims.claimed s q
    let set := q / 64
    (Claims.badPacket w → go = .next (Claims.faulted c q pos)) ∧
    (¬ Claims.badPacket w → ∀ t, (lookBytes part.2 (w / 2 ^ 64) 64 : Look (List Byte)) c = (none, t) →
      go = .next (Claims.faulted t q pos)) ∧
    (¬ Claims.badPacket w → ∀ b t, (lookBytes part.2 (w / 2 ^ 64) 64 : Look (List Byte)) c = (some b, t) →
      let f (o k : Nat) : Nat := Claims.number ((b.drop o).take k)
      (Claims.badBlock w b → ∃ u, go = .next (Claims.faulted u q pos) ∧ u.mem = t.mem ∧ u.ptab = s.ptab ∧ u.plays = s.plays) ∧
      -- a wait-only packet of one block
      (¬ Claims.badBlock w b → w % 256 = 2 → f 56 8 = 0 →
        (f 32 8 = 0 → (w / 2 ^ 11 % 2 = 1 → ¬ Claims.undelivered t q) → ∀ e, e < 1024 → Claims.freeSlot s e → (∀ g, g < e → ¬ Claims.freeSlot s g) →
          ∃ u, go = .next u ∧ Claims.entryIs u e = { w0 := BitVec.ofNat 64 (2 ^ 32 * pos + 2 ^ 24 * q + 2 ^ 21 * (w / 2 ^ 8 % 8) + 2 ^ 19 * set + 1), w2 := BitVec.ofNat 64 (f 48 8) } ∧
            (∀ g, g ≠ e → Claims.entryIs u g = Claims.entryIs s g) ∧ (u.qset set).jtail = (s.qset set).jtail + 3 ∧ u.plays = s.plays ∧ q ∈ u.serving) ∧
        (∀ pa v, lookPlace part.2 (f 32 8) .read t = (some pa, v) → f 32 8 ≠ 0 → Claims.asInt 64 false (f 40 8) < Claims.asInt 64 false (Claims.stgNum v pa 8) →
          v.qslots.length < 128 → (∀ z ∈ v.qslots ++ v.evicted, z.queue ≠ q) →
          go = .next (Claims.unclaimed { v with qslots := v.qslots ++ [⟨q, [(pa, Claims.asInt 64 false (f 40 8))], w / 2 ^ 11 % 2 == 1, v.time.toNat⟩] } q)) ∧
        -- one that waits already has waited since then
        (∀ pa v z, lookPlace part.2 (f 32 8) .read t = (some pa, v) → f 32 8 ≠ 0 → Claims.asInt 64 false (f 40 8) < Claims.asInt 64 false (Claims.stgNum v pa 8) →
          v.qslots.length < 128 → z ∈ v.qslots ++ v.evicted → z.queue = q → (∀ y ∈ v.qslots ++ v.evicted, y.queue = q → y = z) →
          let others (l : List QSlot) : List QSlot := l.filter fun y => y.queue != q
          go = .next (Claims.unclaimed { v with
            qslots := others v.qslots ++ [⟨q, [(pa, Claims.asInt 64 false (f 40 8))], w / 2 ^ 11 % 2 == 1, z.since⟩], evicted := others v.evicted } q)) ∧
        (∀ v, lookPlace part.2 (f 32 8) .read t = (none, v) → f 32 8 ≠ 0 → go = .next (Claims.faulted v q pos))))) ∧
  -- a launch, of a descriptor that R454 admits (`lookJob` reads it), on the harts given
  (∀ (s : State) (q pos w : Nat) (part : Nat × Partition) (harts : List Nat) (pool recs : BitVec 64) (share : Nat) (job : Job) (plan : Plan) (cs : List Nat) (t : State),
    Claims.serves s q pos w part → (lookJob part.2 w : Look Job) (Claims.claimed s q) = (some job, t) → job.plan = some (plan, cs) →
    Claims.signalsDown t job.conds → job.order = false → (s.dbg.runs = []) →
    ((cs = [] ∨ share = 0) → exec (.playLaunch q harts pool share recs) s = .next (Claims.faulted t q pos)) ∧
    (cs ≠ [] → plan.len = 0 → harts.length = job.seeds.length → (∀ n ∈ harts, n < Config.harts ∧ n / 64 ∈ cs) → pool.toNat % 64 = 0 →
      job.seeds.length + (plan.acts.map (·.depth)).sum ≤ share → share ≤ 65536 → share ≠ 0 → (s.dir (Claims.ownerOf s (q / 64))).root = none →
      recs.toNat + 64 * 4096 < 2 ^ 64 → (∃ g, g < 1024 ∧ Claims.freeSlot s g) →
      let room := 3072 * (share * ((cs.map (· / 16)).eraseDups).length)
      -- the pool's shares lie in the partition's memory, apart from those of its other plays (R256)
      let fits := pool.toNat + room ≤ 2 ^ 64 ∧ (∀ i, pool.toNat / 4096 * 4096 + 4096 * i < pool.toNat + room →
          ∃ pa, (t.partPlace part.2 (pool.toNat / 4096 * 4096 + 4096 * i) .write).1 = some pa) ∧
        ∀ y ∈ t.plays, y.2.part = part.1 → y.2.ended = false → y.2.pool.1 + y.2.pool.2 ≤ pool.toNat ∨ pool.toNat + room ≤ y.2.pool.1
      (¬ fits → ∃ u, exec (.playLaunch q harts pool share recs) s = .next u ∧ u.ptab = s.ptab ∧ u.plays = s.plays) ∧
      (fits → ∃ u e p x, exec (.playLaunch q harts pool share recs) s = .next u ∧ e < 1024 ∧ Claims.eState (Claims.entryIs s e) = 0 ∧
        Claims.eState (Claims.entryIs u e) = 1 ∧ Claims.ePlay (Claims.entryIs u e) = p ∧ Claims.fld (Claims.entryIs u e).w3 0 16 = job.seeds.length ∧
        Claims.fld (Claims.entryIs u e).w3 16 16 = job.seeds.length ∧ Claims.fld (Claims.entryIs u e).w3 32 16 = job.seeds.length ∧ (Claims.entryIs u e).w2 = job.comp ∧
        u.plays.find? (fun y => y.1 == p) = some (p, x) ∧ x.acts = plan.acts ∧ x.lives = plan.lives ∧ x.clusters = cs ∧ x.part = part.1 ∧ x.ended = false ∧ x.error = none ∧
        (u.qset (q / 64)).jtail = (s.qset (q / 64)).jtail + 3 ∧ u.kicks = (Claims.claimed s q).kicks ∧
        -- the last line of R445
        u.host.step = (if s.host.step = 5 then 6 else s.host.step) ∧ x.pool = (pool.toNat, room)))) ∧
  (∀ (s : State) (d : Nat), d < Config.directors → (s.dir d).run ≠ .halted →
    ∃ t, exec (.imemMachineCheck d) s = .next t ∧ (t.dir d).run = .halted ∧ (∀ n, n < 4 →
      (Claims.ownerOf s n ≠ d → t.qset n = s.qset n) ∧
      (Claims.ownerOf s n = d → (t.qset n).alarm = true ∧ (t.qset n).owner = (s.qset n).owner ∧
        let b := s.standbyOf n
        (b ≠ d → (∀ m, m < 4 → m ≠ n → Claims.ownerOf s m ≠ d) → (∀ u ∈ s.transit, ¬ (u.sender = dirId d ∧ u.receiver = dirId b)) → Claims.inboxTakes s (dirId b) → ∃ e, (t.box (dirId b)).inbox = (s.box (dirId b)).inbox ++ [e] ∧
          e.side = Claims.side 1 0 0 (dirId d) ∧ e.payload.toNat = 1 + 2 ^ 64 * d))) ∧ t.harts = s.harts) ∧
  -- a thread whose core runs writes its heartbeat word
  (∀ (s : State) (n : Nat), n < 4 → KMap.get (0, 0) s.heartbeats.beats n =
    if (s.dir (Claims.ownerOf s n)).run = .active then ((KMap.get (0, 0) s.beats n).1 + 1, s.time.toNat) else KMap.get (0, 0) s.beats n) ∧
  -- stg.launch and stg.reseed as calls of a core in S-mode (R428)
  (∀ (s : State) (d : Nat) (y : Symbols) (harts : List Nat) (pool recs : BitVec 64) (share : Nat), s.symbols = some y → d < Config.directors →
    (s.dir d).user = false → (s.dir d).run = .active → y.launch ≠ y.reseed → s.host.fatal = false →
    let t := s.setup (.stgCall d harts pool share recs)
    let set := ((s.dir d).getX 10).toNat
    let e := ((s.dir d).getX 11).toNat % 1024
    let mine := set < 4 ∧ Claims.ownerOf s set = d
    ((s.dir d).pc = y.launch → ¬ mine → t = s.takeExc d 28 set (s.dir d).pc) ∧
    -- a jl.put that finds the journal full faults (R420); else a wait-only packet that is ready takes an entry
    ((s.dir d).pc = y.launch → mine → ∀ b u q pos part job v, ((s.dir d).getX 11).toNat = q → ((s.dir d).getX 12).toNat % 2 ^ 32 = pos →
      dirLoad d ((s.dir d).getX 13).toNat 16 s = (.ok b, u) → u.parts.find? (fun p => p.2.queues.contains q) = some part →
      (lookJob part.2 (Claims.number b % 2 ^ 128) : Look Job) u = (some job, v) → job.plan = none → job.order = false → Claims.signalsDown v job.conds →
      (∀ k ∈ v.kept, k.queue ≠ q) → let x := v.qset set
      ((x.jtail - x.jlhead).toNat = 2 ^ x.jsize.toNat → t = (Claims.unslotted v q).takeExc d 28 set (s.dir d).pc) ∧
      ((x.jtail - x.jlhead).toNat + 2 ≤ 2 ^ x.jsize.toNat → (v.qset (q / 64)).taking = false → ∀ g, g < 1024 → Claims.freeSlot v g → (∀ f, f < g → ¬ Claims.freeSlot v f) →
        (t.dir d).getX 10 = BitVec.ofNat 64 g ∧ (t.dir d).pc = (v.dir d).getX 1 ∧ (t.qset set).jtail = x.jtail + 2 ∧ Claims.eState (Claims.entryIs t g) = 1)) ∧
    -- the port of an entry whose set the core does not own faults (R422)
    ((s.dir d).pc = y.reseed → KMap.get [] s.targets e ≠ [] → Claims.ownerOf s (Claims.eSet (Claims.entryIs s e)) ≠ d →
      t = s.takeExc d 7 (y.ptab.toNat + 65536 + 8 * e) (s.dir d).pc) ∧
    -- every seed the entry has taken is ignored (R422)
    ((s.dir d).pc = y.reseed → Claims.ownerOf s (Claims.eSet (Claims.entryIs s e)) = d → Claims.ePlay (Claims.entryIs s e) = 0 → (KMap.get [] s.targets e).length ≤ Claims.fld (Claims.entryIs s e).w3 16 16 →
      (t.dir d).getX 10 = 0 ∧ (t.dir d).pc = (s.dir d).getX 1 ∧ t.ptab = s.ptab ∧ t.transit = s.transit ∧ t.harts = s.harts ∧
      ∀ r : Reg, r ∈ [2, 3, 4, 8, 9, 18, 19, 20, 21, 22, 23, 24, 25, 26, 27] → (t.dir d).getX r = (s.dir d).getX r)) ∧
  (∀ (s : State) (n : Nat), n < 4 → let since := (KMap.get (0, 0) s.beats n).2
    -- 100 µs of the 100 MHz time base
    (since + 10000 ≤ s.time.toNat → exec (.heartbeatTimeout n) s = .next (s.setQset n { s.qset n with alarm := true })) ∧
    (s.time.toNat < since + 10000 → exec (.heartbeatTimeout n) s = .next s)) ∧
  (∀ (s : State) (n : Nat), n < 4 → (s.qset n).alarm = true → let d := s.standbyOf n
    (s.dir d).run = .active → (s.dir d).routine = none →
    (∀ pc, (s.dir d).takeover.find? (fun r => r.1 == n) = some (n, pc) → d < Config.directors → ∃ t, exec (.takeOver n) s = .next t ∧ (t.dir d).pc = pc ∧ (t.dir d).user = false ∧
      (t.dir d).getX 10 = BitVec.ofNat 64 n ∧ (t.dir d).sieBit = true ∧ (t.qset n).owner = (s.qset n).owner ∧ (t.qset n).alarm = false ∧
      ∃ c b, (t.dir d).routine = some (c, b) ∧ c.set = n ∧ c.failed = Claims.ownerOf s n ∧ c.ctx.pc = (s.dir d).pc ∧ c.ctx.x = (s.dir d).x ∧
        c.ctx.f = (s.dir d).f ∧ c.user = (s.dir d).user ∧ c.sstatus = (s.dir d).sstatus ∧ c.sepc = (s.dir d).sepc ∧ c.scause = (s.dir d).scause ∧
        c.frm = (s.dir d).frm ∧ c.fflags = (s.dir d).fflags ∧ c.stvec = (s.dir d).stvec ∧ c.sip = (s.dir d).sip ∧ (t.dir d).getX 1 = b ∧ b.getLsbD 0 = false) ∧
    ((∀ r ∈ (s.dir d).takeover, r.1 ≠ n) → d < Config.directors → (s.qset n).jtail = (s.qset n).jlhead → ∃ t, exec (.takeOver n) s = .next t ∧
      (t.qset n).owner = BitVec.ofNat 4 d ∧ (t.qset n).hold = false ∧ (t.qset n).alarm = false ∧ t.harts = s.harts ∧
      (∀ m, m < 4 → t.standbyOf m = if s.standbyOf m = Claims.ownerOf s n then d else s.standbyOf m) ∧
      ((∀ e ∈ s.ptab, Claims.eSet e.2 = n → Claims.eState e.2 ≠ 3) → ∀ i, i < 64 → let q := 64 * n + i
        t.kicks.getLsbD q = (s.kicks.getLsbD q || (s.parts.any fun p => p.2.queues.contains q) && Claims.stgNum s (Claims.qAt s q + 20) 4 != Claims.stgNum s (Claims.qAt s q + 16) 4)))) ∧
  -- back from a routine: every register but sp and ra is as it was, and a pending fill is permitted no more (R402, R429)
  (∀ (s : State) (d : Nat) (c : Routine) (b : Word), d < Config.directors → (s.dir d).routine = some (c, b) → let t := s.endRoutine d
    (t.dir d).routine = none ∧ (t.dir d).pc = c.ctx.pc ∧ (t.dir d).user = c.user ∧ (∀ r : Reg, r ≠ 1 → r ≠ 2 → (t.dir d).getX r = if r = 0 then 0 else KMap.get 0 c.ctx.x r.toNat) ∧
      (t.dir d).f = c.ctx.f ∧ (t.dir d).sstatus = c.sstatus ∧ (t.dir d).sepc = c.sepc ∧ (t.dir d).stvec = c.stvec ∧ (t.dir d).sip = c.sip ∧ (t.dir d).permit = false ∧
      (t.dir d).ic = (s.dir d).ic) ∧
  -- while it runs, its core takes no other set over and its thread serves no queue
  (∀ (s : State) (n : Nat) (x : Routine × Word), (s.dir n).routine = some x →
    (∀ m, m < 4 → s.standbyOf m = n → exec (.takeOver m) s = .next s) ∧
    ∀ q harts pool share recs, Claims.ownerOf s (q / 64) = n → exec (.playLaunch q harts pool share recs) s = .next s)

/-- R426: a service's reply to a call that may run. R443: the attestation service. R427: a firmware switch. R438: a batch of
faults resolves an entry, or ends its plays in error. R441: the end of a tenant. R440: the partition map. The model's
choices: a service acts as a whole at its reply, misaligned attestation addresses give status 1, and firmware switches
between calls (log 84); where mapPage writes its entry (log 85); what the end of a tenant leaves of Stagehouse's own (log
86). -/
def Obligations.Services : Prop :=
  (∀ (s : State) (v k st : Nat) (r : List (BitVec 64)) (c : Call), v ≠ 1 → st ≤ 2 → Claims.runs s v k c →
    ∃ t, exec (.serviceCallReply v k st r) s = .next t ∧ Claims.replied (Claims.served s v k) c st r t) ∧
  (∀ (s : State) (k : Nat) (c : Call) (id : Nat) (p : Partition), Claims.runs s 1 k c → s.partOfId c.caller = some (id, p) →
    let w := c.packet.toNat
    let nonce := w / 2 ^ 64 % 2 ^ 64
    let buf := w / 2 ^ 128 % 2 ^ 64
    ((w / 2 ^ 192 % 2 ^ 64 < 3584 ∨ nonce % 32 ≠ 0 ∨ buf % 64 ≠ 0) →
      ∃ t, exec (.attestationService k) s = .next t ∧ Claims.replied (Claims.served s 1 k) c 1 [] t) ∧
    (3584 ≤ w / 2 ^ 192 % 2 ^ 64 → nonce % 32 = 0 → buf % 64 = 0 → ∀ n u pl u', (lookBytes p nonce 32 : Look (List Byte)) s = (some n, u) → lookWrite p buf 3524 u = (some pl, u') →
      (2 ^ 30 ≤ s.flash.leaf → ∃ t, exec (.attestationService k) s = .next t ∧ Claims.replied (Claims.served u' 1 k) c 2 [] t) ∧
      (s.flash.leaf < 2 ^ 30 → s.meas.length = 4 → ∃ t rep y, exec (.attestationService k) s = .next t ∧ t.flash.leaf = s.flash.leaf + 1 ∧ rep.length = 3524 ∧
        Claims.replied (Claims.served y 1 k) c 0 [3524] t ∧ y.mem = (u'.writePieces 4 pl rep).mem ∧
        rep.take 168 = Claims.bytes 4 1 ++ Claims.bytes 4 id ++ n ++ s.meas.flatMap (fun m => Claims.bytes 32 m.toNat) ∧
        Claims.number ((rep.drop 232).take 8) = 2 ^ 30 - (s.flash.leaf + 1)))) ∧
  (∀ (s : State) (v ver : Nat), v < 1024 → ∃ t h, exec (.firmwareSwitch v ver) s = .next t ∧
    KMap.get {} t.svcs v = { KMap.get {} s.svcs v with version := ver } ∧ (∀ u, u ≠ v → KMap.get {} t.svcs u = KMap.get {} s.svcs u) ∧
    (∀ m0 m1 m2 m3, s.meas = [m0, m1, m2, m3] → t.meas = [m0, m1, m2, Config.sha256 (Claims.bytes 32 m3.toNat ++ h)]) ∧ t.plays = s.plays ∧ t.ptab = s.ptab) ∧
  (∀ (s : State) (k : Nat) (pte : BitVec 64) (f : FaultEnt), KMap.get none s.faults k = some f →
    let due := ∃ e ∈ s.faults, ∃ g, e.2 = some g ∧ g.at_ + s.faultWindow ≤ s.time.toNat
    (∀ b, ¬ due → exec (.faultBatch k pte b) s = .next s) ∧
    (due → s.faultOver = [] →
      (f.cues = [] → exec (.faultBatch k pte true) s = .next
        ({ s with faults := KMap.set none s.faults k none }.mapPage (((s.parts.find? fun (p : Nat × Partition) => p.1 == f.part).map fun (p : Nat × Partition) => p.2.root).getD 0).toNat (va57 f.page.toNat) pte 4)) ∧
      (∀ b, ∃ t, exec (.faultBatch k pte b) s = .next t ∧ KMap.get none t.faults k = none ∧ (b = true → t.faults = KMap.set none s.faults k none) ∧
        (b = false → ∀ c ∈ f.cues, ∀ x, s.plays.find? (fun p => p.1 == c.2.1) = some (c.2.1, x) → x.ended = false → x.error = none →
          ∃ y, t.plays.find? (fun p => p.1 == c.2.1) = some (c.2.1, y) ∧ y.error = some 0x0C)))) ∧
  (∀ (s : State) (p : Nat) (x : Partition), s.parts.find? (fun q => q.1 == p) = some (p, x) → (∀ q ∈ s.plays, q.2.part = p → q.2.ended = true) →
    ∃ t, exec (.tenantEnd p) s = .next t ∧ (∀ c ∈ x.clusters, c < Config.clusters → ∀ u, u < 17 → ∀ e ∈ Claims.table t c u,
        e.2.st ≠ .free → e.2.st = .live ∧ e.1 = (if u = 16 then 7 else 15)) ∧
      (∀ a r, r ∈ x.ranges → r.1 ≤ a → a < r.1 + r.2 → s.hbase ≤ a → a < s.hbase + 2 ^ 39 → KMap.get 0 t.mem a = 0) ∧
      (∀ e ∈ t.sealTable, ∀ r ∈ x.ranges, ¬ (r.1 ≤ e.1 ∧ e.1 < r.1 + r.2)) ∧ (∀ c, ∀ e ∈ (t.cluster c).utlb, e.root ≠ x.root) ∧
      (∀ q ∈ t.dieqs, q.1 % 16 ≠ p) ∧ t.plays = s.plays ∧
      -- what Stagehouse's own entries held of the tenant is zeroed
      (∀ c ∈ x.clusters, c < Config.clusters → ∀ i, i < 16 → ∀ e ∈ (t.core (16 * c + i)).alloc, e.2.st = .live → ∀ g, e.2.base ≤ 32 * g →
        32 * g < e.2.base + 32 * e.2.len → Claims.bankGran t (16 * c + i) g = {})) ∧
  (∀ (s : State) (p : Nat) (mask : List Nat) (ranges : List (Nat × Nat)) (root : BitVec 64) (pasid : Nat) (queues : List Nat) (dcs : BitVec 16)
    (dbg : BitVec 3) (svcs : List Nat),
    let x : Partition := {
      clusters := mask, ranges := ranges, root := root, pasid := pasid, queues := queues, dcs := dcs, dbg := dbg, svcs := svcs,
      text := ((s.parts.find? (fun q => q.1 == p)).map (·.2.text)).getD [] }
    let fine := p < 16 ∧ ranges.length ≤ 16 ∧ (∀ r ∈ ranges, r.1 % 2 ^ 21 = 0 ∧ r.2 % 2 ^ 21 = 0) ∧ (∀ c ∈ mask, c < 768) ∧ (∀ q ∈ queues, q < 256) ∧
      (∀ y ∈ s.parts, y.1 ≠ p → (∀ c ∈ y.2.clusters, c ∉ mask) ∧ y.2.dcs &&& dcs = 0 ∧ ∀ q ∈ y.2.queues, q ∉ queues) ∧
      ∀ q ∈ s.plays, q.2.part = p → q.2.ended = true
    (¬ fine → exec (.partitionMapChange p mask ranges root pasid queues dcs dbg svcs) s = .next s) ∧
    (fine → ∃ t, exec (.partitionMapChange p mask ranges root pasid queues dcs dbg svcs) s = .next t ∧ t.parts = KMap.insert s.parts p x ∧
      ((∀ y ∈ s.parts, y.1 ≠ p) → ∀ q ∈ t.dieqs, q.1 % 16 ≠ p) ∧ ((∃ y ∈ s.parts, y.1 = p) → t.dieqs = s.dieqs) ∧ t.plays = s.plays ∧ t.mem = s.mem ∧
      -- a core that the partition loses runs only Stagehouse
      ∀ y, s.parts.find? (fun q => q.1 == p) = some (p, y) → ∀ d, d < Config.directors → y.dcs.getLsbD d = true → dcs.getLsbD d = false →
        (t.dir d).user = false ∧ (t.dir d).contexts = [])) ∧
  -- the window of the fault buffer is configured between 2 and 200 µs of the 100 MHz time base
  (∀ (s : State) (n : Nat), s.setup (.faultWindow n) = if 200 ≤ n ∧ n ≤ 20000 then { s with faultWindow := n } else s)

/-! ### The host, start-up, power and failure (R281, R431-R434, R439, R442-R449) -/

namespace Claims

/-- Mailbox command `c` runs: Stagehouse serves the mailbox (R433). -/
def mail (s : State) (c : Nat) : Prop := s.host.mbfree = false ∧ s.host.ready = true ∧ fld s.host.cmd 0 16 = c
/-- Byte `i` of the mailbox's data area. -/
def dataByte (d : KMap Word) (i : Nat) : Nat := (KMap.get 0 d (i / 8)).toNat / 256 ^ (i % 8) % 256
/-- A number of `k` bytes in the data area. -/
def dataNum (s : State) (i k : Nat) : Nat := ((List.range k).map fun j => dataByte s.host.data (i + j) * 256 ^ j).sum
/-- The command is answered with a status and result bytes (R434): the rest of the data area stays. -/
def answered (s : State) (st : Nat) (res : List Byte) (t : State) : Prop :=
  ∃ d, (∀ i, i < 256 → dataByte d i = (if h : i < res.length then res[i].toNat else dataByte s.host.data i)) ∧
    t = { s with host := { s.host with data := d, mbfree := true, mbstat := BitVec.ofNat 64 (2 ^ 8 * st + 2 ^ 16 * res.length + 2 ^ 32 * fld s.host.cmd 32 32) } }
/-- The lines of a write that it covers whole. -/
def wholeLine (pa len l : Nat) : Prop := pa ≤ 64 * l ∧ 64 * l + 64 ≤ pa + len
/-- The address lies in the module's HBM. -/
abbrev inModule (s : State) (a : Nat) : Prop := s.hbase ≤ a ∧ a < s.hbase + 2 ^ 39
/-- The counter of a temperature difference (R446). -/
def bin (dt : Nat) : Nat := if dt < 10 then 0 else if dt < 20 then 1 else if dt < 40 then 2 else if dt < 60 then 3 else 4
/-- The bytes of a training record that its HMAC signs (log 10), and a record of a unit with fresh settings (R444). -/
def recBytes (r : TrainRec) : List Byte :=
  bytes 8 r.unit ++ bytes 8 r.settings.toNat ++ bytes 8 r.temp ++ bytes 8 r.volt ++ bytes 8 r.serial.toNat ++ bytes 8 r.version
def reusable (o : Outside) (temp : Nat) (r : TrainRec) : Prop :=
  r.mac = Config.hmac (recBytes r) ∧ r.serial = KMap.get 0 o.serials r.unit ∧ r.version = o.version ∧ r.temp ≤ temp + 10 ∧ temp ≤ r.temp + 10 ∧
    100 * o.volt ≤ 102 * r.volt ∧ 98 * r.volt ≤ 100 * o.volt ∧ r.unit ∉ o.badPattern
def trainedNow (o : Outside) (temp u : Nat) (r : TrainRec) : Prop :=
  r.unit = u ∧ r.temp = temp ∧ r.volt = o.volt ∧ r.serial = KMap.get 0 o.serials u ∧ r.version = o.version ∧ r.mac = Config.hmac (recBytes r)
/-- A failure that the module meets by itself (R449). -/
def fails (s : State) : Prop :=
  105 < s.host.tj ∨ 64 ≤ ((s.trapTimes.filter fun t => decide (s.time.toNat ≤ t.2 + 100000000)).map (·.1)).eraseDups.length ∨
    ∀ d, d ∈ [0, 4, 8, 12] → (s.dir d).run = .halted
/-- The five words of a hart in the dump (log 104). -/
def dumped (h : Hart) : List Byte := bytes 8 h.tcause.toNat ++ bytes 8 h.tepc.toNat ++ bytes 8 h.tval.toNat ++ bytes 8 h.cueptr.toNat ++ bytes 8 h.pc.toNat
/-- A page that a request names, and a lookahead result with stores made under one, or with engine writes (R439). -/
def namedPage (root : Option Word) (lo len : Nat) (p : Word × Nat) : Prop :=
  (∀ r, root = some r → p.1 = r) ∧ va57 (4096 * p.2) < lo + len ∧ lo < va57 (4096 * p.2) + 4096
def namedResult (root : Option Word) (lo len : Nat) (p : Pending) : Prop :=
  p.engs ≠ [] ∨ ∃ c ∈ p.stores, locIsMem c.loc = true ∧ namedPage root lo len c.page
/-- A register as a read of 8 bytes at `off` gives it (R433). -/
def regIs (h : HostRegs) (off : Nat) : Word :=
  let w (n : Nat) : Word := BitVec.ofNat 64 n
  let b (x : Bool) : Nat := if x = true then 1 else 0
  if off = 0 then w 0x00090001
  else if off = 8 then w (16 * (h.step % 16) + 8 * b h.mbfree + 4 * b h.dump + 2 * b h.fatal + b h.ready)
  else if off = 0x18 then w (h.cap % 2 ^ 16)
  else if off = 0x20 then w (2 ^ 16 * (h.tj % 2 ^ 16) + h.power % 2 ^ 16)
  else if off = 0x40 then h.cmd
  else if off = 0x48 then h.mbstat
  else if 0x100 ≤ off ∧ off < 0x200 then KMap.get 0 h.data ((off - 0x100) / 8)
  else 0
/-- A translation that a request names (R439). -/
def named (root : Option Word) (lo len : Nat) (e : TlbEntry) : Prop :=
  (∀ r, root = some r → e.root = r) ∧ e.vbase < lo + len ∧ lo < e.vbase + 2 ^ e.size

end Claims

/-- R413, R432, R433: the host's writes and reads of memory, and its writes of registers; other offsets and misaligned
writes have no effect, and such reads give zero or all ones. R431, R445: configuration requests get retry status until step
2; the link trains down. The model's choice: what a register that is only written reads as is free (log 10); the event
carries what the link trained to (log 91). -/
def Claims.HostAccess : Prop :=
  (∀ (s : State) (pa : Nat) (data : List (BitVec 8)), ∃ t, exec (.hostMemoryWrite pa data) s = .next t ∧ t.harts = s.harts ∧ t.host = s.host ∧
    (∀ a, KMap.get 0 t.mem a = if h : pa ≤ a ∧ a - pa < data.length then data[a - pa]'h.2 else KMap.get 0 s.mem a) ∧
    (∀ l, (Claims.wholeLine pa data.length l → KMap.get false t.memPoison l = false) ∧ (¬ Claims.wholeLine pa data.length l → KMap.get false t.memPoison l = KMap.get false s.memPoison l)) ∧
    -- at system scope from the start
    (∀ r ∈ t.log, r ∉ s.log → r.pub = some 5)) ∧
  (∀ (s : State) (pa len : Nat), exec (.hostMemoryRead pa len) s =
    .next { s with host := { s.host with lastRead := (List.range len).map fun i => KMap.get 0 s.mem (pa + i) } }) ∧
  (∀ (s : State) (v : BitVec 64), exec (.doorbell v) s = .next (Claims.kicked s (v.toNat % 256)) ∧
    (900 ≤ Claims.fld v 0 16 → Claims.fld v 0 16 ≤ 1800 → exec (.capWrite v) s = .next { s with host := { s.host with cap := Claims.fld v 0 16 } }) ∧
    ((Claims.fld v 0 16 < 900 ∨ 1800 < Claims.fld v 0 16) → exec (.capWrite v) s = .next s) ∧
    (s.host.dumpKept = false → exec .dumpAck s = .next { s with host := { s.host with dump := false, errIrq := false } }) ∧
    -- the dump that a start has left is zeroed
    (s.host.dumpKept = true → ∃ t, exec .dumpAck s = .next t ∧ t.host = { s.host with dump := false, dumpKept := false, errIrq := false } ∧
      ∀ a, KMap.get 0 t.mem a = if s.hbase + 0x7FF0000000 ≤ a ∧ a < s.hbase + 2 ^ 39 then 0 else KMap.get 0 s.mem a) ∧
    exec (.hostRegisterWrite 0x10 v) s = exec (.doorbell v) s ∧ exec (.hostRegisterWrite 0x18 v) s = exec (.capWrite v) s ∧
    (v.getLsbD 0 = true → exec (.hostRegisterWrite 0x28 v) s = exec .dumpAck s) ∧ (v.getLsbD 0 = false → exec (.hostRegisterWrite 0x28 v) s = .next s) ∧
    (s.host.mbfree = true → exec (.hostRegisterWrite 0x40 v) s = .next { s with host := { s.host with cmd := v, mbfree := false } }) ∧
    (s.host.mbfree = false → exec (.hostRegisterWrite 0x40 v) s = .next s) ∧
    (∀ i, i < 32 → exec (.hostRegisterWrite (0x100 + 8 * i) v) s = .next { s with host := { s.host with data := KMap.set 0 s.host.data i v } }) ∧
    (∀ off, (off % 8 ≠ 0 ∨ (off ∉ [0x10, 0x18, 0x28, 0x40] ∧ (off < 0x100 ∨ 0x200 ≤ off))) → exec (.hostRegisterWrite off v) s = .next s)) ∧
  -- reads of the registers
  (∀ (s : State) (off : Nat), let read (len : Nat) : Word := (s.setup (.regRead off len)).host.lastReg
    (off % 8 = 0 → off ∉ [0x10, 0x28] → read 8 = Claims.regIs s.host off) ∧
    (∀ len, off % 8 ≠ 0 ∨ len ≠ 8 → read len = BitVec.allOnes 64) ∧
    ∀ len, { s.setup (.regRead off len) with freeCount := s.freeCount, host := s.host } = s) ∧
  (∀ (s : State), exec .configRequest s = .next { s with host := { s.host with lastConfig := decide (2 ≤ s.host.step) } }) ∧
  (∀ (s : State) (width rate : Nat), (width ∈ [1, 2, 4, 8, 16] → width ≤ s.host.width → 0 < rate → rate ≤ s.host.rate →
      exec (.hostLinkRetrain width rate) s = .next { s with host := { s.host with width := width, rate := rate } }) ∧
    ((width ∉ [1, 2, 4, 8, 16] ∨ s.host.width < width ∨ rate = 0 ∨ s.host.rate < rate) → exec (.hostLinkRetrain width rate) s = .next s))

/-- R434: the mailbox's commands and their answers; one that the thread of a stopped core would serve waits; an unknown one
gets status 3, and none is served while the mailbox is free or Stagehouse not ready (R433). The model's choices: service and firmware acts are whole (log
84); a queue number above 255 gives status 1 (log 90). -/
def Claims.Mailbox : Prop :=
  ∀ (s : State),
    (Claims.mail s 1 → ∃ t, exec .readWearCounters s = .next t ∧ Claims.answered s 0 (s.flash.wear.flatMap fun w => Claims.bytes 4 w) t) ∧
    (Claims.mail s 3 → ∃ t, exec .readFatalRecord s = .next t ∧
      Claims.answered s 0 (Claims.bytes 8 (s.flash.fatal.getD (0, 0)).1.toNat ++ Claims.bytes 8 (s.flash.fatal.getD (0, 0)).2.toNat) t) ∧
    (Claims.mail s 2 → let id := Claims.dataNum s 0 4
      let buf := Claims.dataNum s 40 8
      (((∀ p ∈ s.parts, p.1 ≠ id) ∨ Claims.dataNum s 48 8 < 3584 ∨ buf % 64 ≠ 0) → ∃ t, exec .attestationReport s = .next t ∧ Claims.answered s 1 [] t) ∧
      ((∃ p ∈ s.parts, p.1 = id) → 3584 ≤ Claims.dataNum s 48 8 → buf % 64 = 0 →
        (2 ^ 30 ≤ s.flash.leaf → ∃ t, exec .attestationReport s = .next t ∧ Claims.answered s 2 [] t) ∧
        (s.flash.leaf < 2 ^ 30 → s.meas.length = 4 → ∃ (u t : State) (rep : List Byte), exec .attestationReport s = .next t ∧ Claims.answered u 0 (Claims.bytes 8 3524) t ∧ u.host = s.host ∧
          t.flash.leaf = s.flash.leaf + 1 ∧ rep.length = 3524 ∧ (∀ i, i < 3524 → KMap.get 0 t.mem (buf + i) = rep.getD i 0) ∧
          rep.take 8 = Claims.bytes 4 1 ++ Claims.bytes 4 id ∧ (∀ j, j < 32 → (rep.getD (8 + j) 0).toNat = Claims.dataByte s.host.data (8 + j)) ∧
          (rep.drop 40).take 128 = s.meas.flatMap (fun m => Claims.bytes 32 m.toNat) ∧
          Claims.number ((rep.drop 232).take 8) = 2 ^ 30 - (s.flash.leaf + 1)))) ∧
    (let q := Claims.dataNum s 0 2
      let up := (s.dir (Claims.ownerOf s (q / 64))).run = .active
      (Claims.mail s 4 → (255 < q → ∃ t, exec .stopQueue s = .next t ∧ Claims.answered s 1 [] t) ∧
        (q ≤ 255 → up → (s.qset (q / 64)).taking = false → ∃ t, exec .stopQueue s = .next t ∧
          Claims.answered (s.stgWrite 5 (Claims.qAt s q + 9) [3, 0, 0]) 0 [] t) ∧
        (q ≤ 255 → ¬ up → exec .stopQueue s = .next s)) ∧
      (Claims.mail s 5 → (255 < q → ∃ t, exec .resumeQueue s = .next t ∧ Claims.answered s 1 [] t) ∧
        (q ≤ 255 → up → ∃ t, exec .resumeQueue s = .next t ∧ Claims.answered (Claims.kicked (s.stgWrite 5 (Claims.qAt s q + 9) [0, 0, 0]) q) 0 [] t) ∧
        (q ≤ 255 → ¬ up → exec .resumeQueue s = .next s))) ∧
    (∀ c, Claims.mail s c → (c = 0 ∨ 5 < c) → ∃ t, exec .mailboxUnknownCommand s = .next t ∧ Claims.answered s 3 [] t) ∧
    ((s.host.mbfree = true ∨ s.host.ready = false) → ∀ i, i ∈ [Instr.readWearCounters, .attestationReport, .readFatalRecord, .stopQueue, .resumeQueue, .mailboxUnknownCommand] → exec i s = .next s)

/-- R442 to R446: a start goes line by line: it extends the measurements with two images each, and halts at one whose
signature fails; it counts the thermal cycle, takes the training records that match or trains afresh, zeroes the stacks,
takes Stagehouse's allocations, and is ready. R281: reset. R444, R446: what power leaves. R447: background work. R448: the
clock's steps. R449: a fatal error, and the failures that become one. R439: a shootdown. The model's choices: the dump's
words (log 24, 104); the writes a shootdown publishes, and a lookahead result it waits for (log 85); writes under way at a
zeroing (log 87); the base kept through a reset (log 124); what halts at a fatal error, and fatal after a reset (log 127); a start is a power-up event for each line (log 88); the events carry measured values (log 91). -/
def Obligations.PowerAndFailure : Prop :=
  (∀ (s : State) (temp : Nat), let go := exec (.powerUp temp) s
    let wears (t : State) : Prop := ∀ i, i < s.flash.wear.length → (t.flash.wear)[i]? =
      some (if s.warm = false ∧ i = Claims.bin (s.flash.peak - s.flash.low) then min (s.flash.wear.getD i 0 + 1) (2 ^ 32 - 1) else s.flash.wear.getD i 0)
    ((s.host.ioError = true ∨ 5 ≤ s.host.step) → go = .next s) ∧
    (s.host.ioError = false → s.host.step = 0 →
      (s.outside.badImages = [] → ∃ t h0 g0 h1 g1 h2 g2, go = .next t ∧ t.host = { s.host with step := 1 } ∧ wears t ∧
        (s.warm = false → t.tempPeak = temp ∧ t.tempLow = temp) ∧ t.mem = s.mem ∧
        (∀ m0 m1 m2 m3, s.meas = [m0, m1, m2, m3] → let ext (m : BitVec 256) (h : List Byte) := Config.sha256 (Claims.bytes 32 m.toNat ++ h)
          t.meas = [ext (ext m0 h0) g0, ext (ext m1 h1) g1, ext (ext m2 h2) g2, m3])) ∧
      (∀ k, k < 6 → k ∈ s.outside.badImages → ∃ t, go = .next t ∧ t.host = { s.host with ioError := true } ∧ wears t)) ∧
    (s.host.ioError = false → s.host.step = 1 → go = .next { s with host := { s.host with step := 2 } }) ∧
    (s.host.ioError = false → s.host.step = 2 → ∃ t, go = .next t ∧ t.host = { s.host with step := 3 } ∧ t.mem = s.mem ∧ t.flash.training.length = 32 ∧
      ∀ u, u < 32 → ∃ r, (t.flash.training)[u]? = some r ∧
        (∀ o, s.flash.training.find? (fun r => r.unit == u) = some o → Claims.reusable s.outside temp o → r = o) ∧
        ((∀ o, s.flash.training.find? (fun r => r.unit == u) = some o → ¬ Claims.reusable s.outside temp o) → Claims.trainedNow s.outside temp u r) ∧
        (u < 8 → r.unit = u → (t.base u).trained = some r) ∧ (16 ≤ u → r.unit = u → (KMap.get {} t.glenal (u - 16)).trained = some r)) ∧
    (s.host.ioError = false → s.host.step = 3 → ∃ t, go = .next t ∧ t.host = { s.host with step := 4, dumpKept := s.host.dump || s.host.dumpKept } ∧
      (∀ a, KMap.get 0 t.mem a = if s.hbase ≤ a ∧ a < s.hbase + (if s.host.dump = true then 0x7FF0000000 else 2 ^ 39) then 0 else KMap.get 0 s.mem a) ∧
      (∀ k, k < Config.clusters → (t.cluster k).kgen = 17 ∧
        (t.cluster k).accAlloc = [(7, { st := .live, base := 224 * 512, len := 512, gen := 17, sealed := false, forensic := false })] ∧
        ∀ i, i < 16 → (t.core (16 * k + i)).alloc =
          [(15, { st := .live, base := 0x1FF00, len := 8, gen := BitVec.ofNat 16 (i + 1), sealed := false, forensic := false })])) ∧
    (s.host.ioError = false → s.host.step = 4 → go = .next { s with host := { s.host with step := 5, ready := true } })) ∧
  (∀ (s : State), ∃ m, (∀ a, KMap.get 0 m a = if Claims.inModule s a ∧ ¬ (s.host.dump = true ∧ s.hbase + 0x7FF0000000 ≤ a) then 0 else KMap.get 0 s.mem a) ∧
    exec .reset s = .next { State.reset with
      agenda := s.agenda, picks := s.picks, freeCount := s.freeCount, hbase := s.hbase, online := s.online, outside := s.outside, warm := true, mem := m
      flash := s.flash, tempPeak := s.tempPeak, tempLow := s.tempLow
      host := { State.reset.host with dump := s.host.dump, errIrq := s.host.dump && s.host.errIrq } }) ∧
  (∀ (s : State), let kept := { s.flash with peak := s.tempPeak, low := s.tempLow }
    ∃ m, (∀ a, KMap.get 0 m a = if Claims.inModule s a then 0 else KMap.get 0 s.mem a) ∧
      (let off := { State.reset with
        agenda := s.agenda, picks := s.picks, freeCount := s.freeCount, hbase := s.hbase, online := s.online, outside := s.outside, mem := m }
       exec .powerLoss s = .next { off with flash := s.flash } ∧ exec .orderlyShutdown s = .next { off with flash := kept }) ∧
      exec .wearCheckpoint s = .next { s with flash := kept }) ∧
  (∀ (s : State), exec .recalibration s = .next s ∧ exec .telemetrySample s = .next s ∧
    -- each base die counts the refreshes it manages (R6)
    (∃ t, exec .refreshManagement s = .next t ∧ t = { s with bases := t.bases } ∧
      ∀ n, t.base n = if n < 8 then { s.base n with refreshes := (s.base n).refreshes + 1 } else s.base n) ∧
    (∀ pa bad, exec (.hbmScrub pa bad) s = .next (if bad = true ∧ Claims.inModule s pa then { s with memPoison := KMap.set false s.memPoison (pa / 64) true } else s)) ∧
    (∀ c g, c < Config.cores → g < 4096 → exec (.sramScrub c g false) s = .next s ∧ ∃ t, exec (.sramScrub c g true) s = .next t ∧ t.mem = s.mem ∧
      ∀ d j, Claims.bankGran t d j = if d = c ∧ j = g then { Claims.bankGran s c g with poison := true } else Claims.bankGran s d j)) ∧
  (∀ (s : State) (watts tj : Nat), watts < 2 ^ 16 → tj < 2 ^ 16 →
    let t : State := { s with host := { s.host with power := watts, tj := tj }, tempPeak := max s.tempPeak tj, tempLow := min s.tempLow tj }
    ((s.host.cap < watts ∨ 95 < tj) → exec (.powerSample watts tj) s = .next { t with mhz := max 600 (s.mhz - 25), clearSince := none }) ∧
    (watts ≤ s.host.cap → tj ≤ 95 → exec (.powerSample watts tj) s = .next { t with clearSince := some (s.clearSince.getD s.time.toNat) })) ∧
  (∀ (s : State), (∀ c, s.clearSince = some c → c + 1000000 ≤ s.time.toNat → s.mhz < 1200 → exec .clockStepUp s = .next { s with mhz := s.mhz + 25 }) ∧
    ((s.clearSince = none ∨ 1200 ≤ s.mhz ∨ ∃ c, s.clearSince = some c ∧ s.time.toNat < c + 1000000) → exec .clockStepUp s = .next s)) ∧
  (∀ (s : State) (cause unit : Nat), cause < 2 ^ 32 → unit < 2 ^ 32 → s.meas.length = 4 → let w := BitVec.ofNat 64 (cause + 2 ^ 32 * unit)
    ∃ t, exec (.fatalError cause unit) s = .next t ∧ t.host = { s.host with fatal := true, dump := true, errIrq := true } ∧ t.flash.fatal = some (w, s.time) ∧
      (∀ n, (t.hart n).run = if (s.hart n).house = true ∧ (s.hart n).helper = none then (s.hart n).run else .halted) ∧
      t.sysRead (s.hbase + 0x7FF0000000) 152 = Claims.bytes 8 0x504D554453395346 ++ Claims.bytes 8 w.toNat ++ Claims.bytes 8 s.time.toNat ++ s.meas.flatMap (fun m => Claims.bytes 32 m.toNat) ∧
      ∀ n, n < Config.harts → t.sysRead (s.hbase + 0x7FF0000000 + 4096 + 160 * (n / 4) + 40 * (n % 4)) 40 = Claims.dumped (s.hart n)) ∧
  (∀ (s : State), ((s.host.fatal = true ∨ ¬ Claims.fails s) → s.checkFatal = s) ∧
    (s.host.fatal = false → Claims.fails s → ∃ w, s.checkFatal.host = { s.host with fatal := true, dump := true, errIrq := true } ∧
      s.checkFatal.flash.fatal = some (w, s.time) ∧ ∀ n, (s.checkFatal.hart n).run = if (s.hart n).house = true ∧ (s.hart n).helper = none then (s.hart n).run else .halted)) ∧
  -- every play is halted: no cue starts or goes on
  (∀ (s : State), s.host.fatal = true → (∀ n, s.houseLoop n = s ∧ s.houseTrap n = s) ∧ (∀ k, exec (.castDispatch k) s = .next s) ∧
    ∀ q harts pool share recs, exec (.playLaunch q harts pool share recs) s = .next s) ∧
  (∀ (s : State) (root : Option (BitVec 64)) (lo len : Nat),
    -- it is acknowledged unless a lookahead result that it must wait for cannot complete yet
    ((∀ h ∈ s.harts, ∀ p ∈ h.2.pending, ¬ Claims.namedResult root lo len p) →
      ∃ t, exec (.shootdownRequest root lo len) s = .next t ∧ t.host = { s.host with acked := s.host.acked + 1 }) ∧
    ∀ t, exec (.shootdownRequest root lo len) s = .next t → t = s ∨ (t.host = { s.host with acked := s.host.acked + 1 } ∧
      (∀ k e, (e ∈ (t.cluster k).utlb ↔ e ∈ (s.cluster k).utlb ∧ ¬ Claims.named root lo len e) ∧ (e ∈ (t.slice k).tlb ↔ e ∈ (s.slice k).tlb ∧ ¬ Claims.named root lo len e) ∧
        (e ∈ (t.dir k).tlb ↔ e ∈ (s.dir k).tlb ∧ ¬ Claims.named root lo len e)) ∧
      (∀ c, ∀ e ∈ (t.core c).psb, locIsMem e.loc = true → ∀ p ∈ e.pages, ¬ Claims.namedPage root lo len p) ∧
      ∀ h ∈ t.harts, ∀ p ∈ h.2.pending, ¬ Claims.namedResult root lo len p))

/-! ### The debugger (R39, R40, R125, R284, R371, R406-R408, R430) -/

namespace Claims

/-- What ixdb prints, and its refusal. -/
def prints (s : State) (o : DbgOut) : State := { s with dbg := { s.dbg with out := o :: s.dbg.out } }
def refuses (s : State) : State := prints s .refused
/-- ixdb may name something of the partition, and the state in which it does: the first such command attaches (R39). -/
def admits (s : State) (p : Option (Nat × Partition)) (a : State) : Prop :=
  ∃ id x, p = some (id, x) ∧ ((s.dbg.attached = true ∧ s.dbg.part = id ∧ a = s) ∨
    (s.dbg.attached = false ∧ x.dbg.getLsbD 2 = true ∧ a = { s with dbg := { s.dbg with attached := true, part := id } }))
/-- It may not: there is no such partition, or it is another one, or the partition's debug word forbids it. -/
def bars (s : State) (p : Option (Nat × Partition)) : Prop :=
  p = none ∨ ∃ id x, p = some (id, x) ∧ ((s.dbg.attached = true ∧ s.dbg.part ≠ id) ∨ (s.dbg.attached = false ∧ x.dbg.getLsbD 2 = false))
/-- Unit `u` is selected, and ixdb is attached. -/
def selects (s : State) (u : Nat) : Prop := s.dbg.attached = true ∧ s.dbg.follow = none ∧ s.dbg.sel = some u
/-- Unit `u` passes the breakpoint where it stands, and no other. -/
def skips (s : State) (u : Nat) : State :=
  let p : Nat × Word := (u, if u < 49152 then (s.hart u).pc else (s.dir (u - 49152)).pc)
  { s with dbg := { s.dbg with skip := if p ∈ s.dbg.skip then s.dbg.skip else s.dbg.skip ++ [p] } }
def again (r : Run) : Run := if r = .stopped then .active else r
/-- The commands that name nothing. -/
def plainCommands : List Instr :=
  [.ixdbFollow 0, .ixdbCont, .ixdbStep 1, .ixdbStepi, .ixdbQuit, .ixdbRegs [0], .ixdbMem 0 1 0, .ixdbCue 0, .ixdbExplain 0, .ixdbList,
    .ixdbJournal 0, .ixdbPtab 0, .ixdbKicks, .ixdbWatch 0]
/-- An aligned word of Stagehouse's memory: in the module's HBM, and no partition's (R371). -/
def stgWord (s : State) (pa : Nat) : Prop :=
  pa % 8 = 0 ∧ 0 < pa ∧ s.hbase ≤ pa ∧ pa + 7 < s.hbase + 2 ^ 39 ∧ ∀ p ∈ s.parts, ∀ r ∈ p.2.ranges, pa + 8 ≤ r.1 ∨ r.1 + r.2 ≤ pa
/-- Words as ixdb prints them. -/
def row (k : Nat) (l : List Nat) : DbgOut := .entry k (l.map (BitVec.ofNat 64))
/-- g<n>, stale or dead (R40). -/
def tagState (live : Bool) (gen : BitVec 8) : Nat := if live = true then 0 else if gen = 0 then 2 else 1
/-- The seeds of a run (R371). -/
def seedOf (pc : Word) (a : List Word) : List Byte :=
  bytes 8 pc.toNat ++ bytes 24 0 ++ (List.range 4).flatMap fun i => bytes 8 (a.getD i 0).toNat

end Claims

/-- R39: a command that names nothing is refused until ixdb is attached; one that names something of a partition attaches
or is refused (log 25). hart, break, cont, step, stepi, follow, quit; engine hold and release (R407), call (R406), takeover
and inject (R429, R430), run (R371), watch. The model's choice: where no queue is reserved for ixdb yet, a run reserves the one it
names, and a reservation ends when ixdb detaches (log 96). -/
def Obligations.DebuggerControls : Prop :=
  (∀ (s : State), s.dbg.attached = false → ∀ i ∈ Claims.plainCommands, exec i s = .next (Claims.refuses s)) ∧
  (∀ (s : State) (n : Nat), n < Config.harts →
    (Claims.bars s (s.partOfCluster (n / 64)) → exec (.ixdbHart n) s = .next (Claims.refuses s)) ∧
    (∀ a, Claims.admits s (s.partOfCluster (n / 64)) a → exec (.ixdbHart n) s = .next { a with dbg := { a.dbg with sel := some n, follow := none } })) ∧
  -- a breakpoint may be set before a command attaches
  (∀ (s : State) (pc : BitVec 64),
    exec (.ixdbBreak pc) s = .next { s with dbg := { s.dbg with breaks := if pc ∈ s.dbg.breaks then s.dbg.breaks else s.dbg.breaks ++ [pc] } }) ∧
  (∀ (s : State) (u : Nat), Claims.selects s u →
    (∀ i k, (i, k) ∈ [(Instr.ixdbCont, none), (.ixdbStepi, some 1), (.ixdbStep 1, some 1), (.ixdbStep 5, some 5)] → let t := Claims.skips s u
      (u < Config.harts → exec i s = .next (t.setHart u { s.hart u with stopAfter := k, run := Claims.again (s.hart u).run })) ∧
      (∀ d, d < Config.directors → u = 49152 + d → exec i s = .next (t.setDir d { s.dir d with stopAfter := k, run := Claims.again (s.dir d).run }))) ∧
    (∀ cue, u < Config.harts →
      ((s.hart u).house = false → (s.hart u).cueptr = cue → exec (.ixdbFollow cue) s = .next { s with dbg := { s.dbg with follow := some cue } }) ∧
      (((s.hart u).house = true ∨ (s.hart u).cueptr ≠ cue) → exec (.ixdbFollow cue) s = .next (Claims.refuses s)))) ∧
  (∀ (s : State), s.dbg.attached = true → s.dbg.threads = [] → ∃ t, exec .ixdbQuit s = .next t ∧ t.dbg = { out := s.dbg.out, runs := s.dbg.runs } ∧
    (∀ n, t.hart n = { s.hart n with run := Claims.again (s.hart n).run, stopAfter := none }) ∧
    (∀ d, t.dir d = { s.dir d with run := Claims.again (s.dir d).run, stopAfter := none }) ∧
    (∀ k, (t.cluster k).copyHold = false) ∧ t.mem = s.mem) ∧
  -- a thread that call started is over, on its core or put aside
  (∀ (s : State) (d : Nat), s.dbg.attached = true → s.dbg.threads = [d] → d < Config.directors → ∃ t, exec .ixdbQuit s = .next t ∧
    (t.dir d).called = false ∧ ∀ x ∈ (t.dir d).contexts, x.called = false) ∧
  (∀ (s : State) (k : Nat), (Claims.bars s (s.partOfCluster k) → exec (.ixdbEngineHold k) s = .next (Claims.refuses s) ∧ exec (.ixdbEngineRelease k) s = .next (Claims.refuses s)) ∧
    (∀ a, Claims.admits s (s.partOfCluster k) a → exec (.ixdbEngineHold k) s = .next (a.setCluster k { a.cluster k with copyHold := true }) ∧
      exec (.ixdbEngineRelease k) s = .next (a.setCluster k { a.cluster k with copyHold := false }))) ∧
  (∀ (s : State) (d : Nat) (pc : BitVec 64), d < Config.directors →
    let p := s.partOfDir d
    (Claims.bars s p → (∀ set, exec (.ixdbTakeover d set pc) s = .next (Claims.refuses s)) ∧ exec (.ixdbInject d) s = .next (Claims.refuses s)) ∧
    (∀ a id x, Claims.admits s p a → s.parts.find? (fun q => q.1 == id) = some (id, x) → a.dbg.part = id →
      (x.dbg.getLsbD 1 = false → (∀ set, exec (.ixdbTakeover d set pc) s = .next (Claims.refuses a)) ∧ exec (.ixdbInject d) s = .next (Claims.refuses a)) ∧
      (x.dbg.getLsbD 1 = true → exec (.ixdbInject d) s = .next (a.setDir d { a.dir d with injected := true }) ∧
        ∀ set, set < 4 → exec (.ixdbTakeover d set pc) s =
          .next (a.setDir d { a.dir d with takeover := ((a.dir d).takeover.filter fun r => r.1 != set) ++ [(set, pc)] }))) ∧
    (∀ args, Claims.bars s p → (s.dir d).run ≠ .halted → exec (.ixdbCall d pc args) s = .next (Claims.refuses s)) ∧
    (∀ args a id x, Claims.admits s p a → s.parts.find? (fun q => q.1 == id) = some (id, x) → a.dbg.part = id → (s.dir d).run ≠ .halted → x.root.toNat < 2 ^ 56 →
      -- at the top of a stack that Stagehouse has provided and no thread has; nothing starts before (log 103)
      ((∀ k ∈ a.threadStacks, k.1 = d → k.2.2 = true) → exec (.ixdbCall d pc args) s = .next a) ∧
      ∀ top, a.threadStacks.find? (fun k => k.1 == d && !k.2.2) = some (d, top, false) → ∃ t, exec (.ixdbCall d pc args) s = .next t ∧ (t.dir d).pc = pc ∧ (t.dir d).user = true ∧ (t.dir d).run = .active ∧ (t.dir d).trapped = false ∧
        (∀ i, i < 4 → (t.dir d).getX (BitVec.ofNat 5 (10 + i)) = args.getD i 0) ∧
        (t.dir d).satp = BitVec.ofNat 64 (2 ^ 60 * 10 + 2 ^ 44 * (x.pasid % 2 ^ 16) + x.root.toNat / 4096) ∧ t.dbg.sel = some (49152 + d) ∧ t.dbg.follow = none ∧
        (t.dir d).called = true ∧ (t.dir d).getX 2 = top ∧ (d, top, true) ∈ t.threadStacks ∧ (d, top, false) ∉ t.threadStacks)) ∧
  -- run: refused for a hart listed twice or outside the partition; else a type-1 packet, and the queue kicked
  (∀ (s : State) (q id : Nat) (x : Partition) (desc blk signal : BitVec 64) (args : List (BitVec 64)) (harts : List Nat),
    s.dbg.attached = true → s.dbg.part = id → s.parts.find? (fun p => p.2.queues.contains q) = some (id, x) → s.parts.find? (fun p => p.1 == id) = some (id, x) →
    ((¬ harts.Nodup ∨ 64 < harts.length ∨ (∃ n ∈ harts, n / 64 ∉ x.clusters) ∨ (∃ r, s.dbg.queue = some r ∧ r ∈ x.queues ∧ r ≠ q) ∨ ¬ Claims.stgWord s signal.toNat) → exec (.ixdbRun q desc args harts blk signal) s = .next (Claims.refuses s)) ∧
    (harts.Nodup → harts ≠ [] → harts.length ≤ 64 → (∀ n ∈ harts, n / 64 ∈ x.clusters ∧ n < Config.harts) → blk.toNat % 64 = 0 → Claims.stgWord s signal.toNat → (∀ r, s.dbg.queue = some r → r ∈ x.queues → r = q) →
      -- all on the clusters of one slice
      (∀ n ∈ harts, ∀ m ∈ harts, n / 1024 = m / 1024) → ∀ plan u0 act, lookPlan x desc.toNat s = (some plan, u0) → plan.acts.head? = some act →
      let seeds := (List.range harts.length).flatMap fun j => Claims.seedOf act.entry [args.getD 0 0, BitVec.ofNat 64 j]
      let slices := 2 ^ (harts.headD 0 / 1024)
      let inner := ((List.range 16).map fun i => if ∃ n ∈ harts, n / 64 % 16 = i then 2 ^ (48 + i) else 0).sum
      let block := Claims.bytes 8 desc.toNat ++ Claims.bytes 8 (slices + inner) ++ Claims.bytes 8 (blk.toNat + 64) ++ Claims.bytes 2 harts.length ++ Claims.bytes 6 0 ++
        Claims.bytes 16 0 ++ Claims.bytes 8 signal.toNat ++ Claims.bytes 8 0
      ∀ s1 s2, s.partWrite x ((blk.toNat + 64) % 2 ^ 64) seeds = some s1 → s1.partWrite x blk.toNat block = some s2 →
        -- the signal lies in Stagehouse memory
        let s3 := s2.stgWrite 5 signal.toNat (Claims.bytes 8 1)
        let w := Claims.stgNum s3 (Claims.qAt s3 q + 16) 4
        let z := 2 ^ Claims.stgNum s3 (Claims.qAt s3 q + 8) 1
        (w + 2 ^ 32 - Claims.stgNum s3 (Claims.qAt s3 q + 20) 4) % 2 ^ 32 < z →
        let s4 := s3.stgWrite 5 (Claims.stgNum s3 (Claims.qAt s3 q) 8 + 16 * (w % z)) (Claims.bytes 16 (0x501 + 2 ^ 64 * blk.toNat))
        let s5 := Claims.kicked (s4.stgWrite 5 (Claims.qAt s4 q + 16) (Claims.bytes 4 (w + 1))) q
        exec (.ixdbRun q desc args harts blk signal) s = .next { s5 with dbg := { s5.dbg with runs := s5.dbg.runs ++ [(q * 2 ^ 32 + w, harts)], queue := some q } })) ∧
  (∀ (s : State) (addr : BitVec 64), s.dbg.attached = true →
    (∀ b, Claims.fld addr 63 1 = 0 → s.dbgBytes none addr.toNat 8 = some b →
      exec (.ixdbWatch addr) s = .next { s with dbg := { s.dbg with watches := s.dbg.watches ++ [(addr.toNat, BitVec.ofNat 64 (Claims.number b))] } }) ∧
    (s.dbgBytes none addr.toNat 8 = none → exec (.ixdbWatch addr) s = .next (Claims.refuses s)))

/-- R40, R284, R296, R285, R408, R430: what regs, mem, bank, cue, explain, list, journal, ptab, queue and kicks print; a
register that is not live shows as zero, a stale granule as zeros, a granule with its poison. R284: a debugger's write leaves
a live value. How output stands as lines is the model's choice (log 25). -/
def Obligations.DebuggerShows : Prop :=
  (∀ (s : State) (n : Nat), Claims.selects s n → n < Config.harts → (∀ p ∈ (s.hart n).streams, p.2.act = false) →
    let h := s.hart n
    (∀ r : Reg, let x := KMap.get {} h.x r.toNat
      exec (.ixdbRegs [r.toNat]) s = .next (Claims.prints s (.reg r.toNat ((h.xVal r).zeroExtend 512) (if r = 0 then h.rgen else x.gen)
        (Claims.tagState (h.xLive r) x.gen) (h.xLive r && x.poison) 0))) ∧
    (∀ r : Reg, let x := KMap.get {} h.v r.toNat
      exec (.ixdbRegs [32 + r.toNat]) s = .next (Claims.prints s (.reg (32 + r.toNat) (h.vVal r) x.gen
        (Claims.tagState (h.vLive r) x.gen) (h.vPois r) (BitVec.ofNat 4 (h.vFmt r))))) ∧
    (∀ r : Reg, r.toNat < 8 → let x := KMap.get {} h.m r.toNat
      exec (.ixdbRegs [64 + r.toNat]) s = .next (Claims.prints s (.reg (64 + r.toNat) ((h.mVal r).zeroExtend 512) (if r = 0 then h.rgen else x.gen)
        (Claims.tagState (h.mLive r) x.gen) (h.mLive r && x.poison) 0))) ∧
    exec .ixdbList s = .next (Claims.prints s (.line h.pc)) ∧
    -- an element with its format, the nN formats apart (R344)
    (∀ (a : BitVec 64) (f : BitVec 5) b, let k := f.toNat % 16
      1 ≤ k → k ≤ 12 → k ≠ 7 → k ≠ 8 → s.dbgBytes (some n) a.toNat (Claims.width k / 8) = some b →
      exec (.ixdbMem a 1 f) s = .next (Claims.prints s (.word a.toNat f (BitVec.ofNat 64 (Claims.number b))))) ∧
    (∀ (a : BitVec 64) b, a ≠ 0 → s.dbgBytes (some n) a.toNat 64 = some b → exec (.ixdbCue a) s = .next (Claims.prints s (.rcd a (BitVec.ofNat 512 (Claims.number b))))) ∧
    (∀ (w : BitVec 64), let k := parcelLen (w.toNat % 65536)
      let v := w.toNat % 2 ^ (8 * k)
      (∀ i, decode false k v = .ok i → exec (.ixdbExplain w) s = .next (Claims.prints s (.instr (some i) k (BitVec.ofNat 64 v)))) ∧
      (∀ e, decode false k v = .error e → exec (.ixdbExplain w) s = .next (Claims.prints s (.instr none k (BitVec.ofNat 64 v)))))) ∧
  -- a register bound to a write stream is live and shows the last element, with the stream's tag (R194)
  (∀ (s : State) (n : Nat) (r : Reg) (k : Nat) (w : Stream), Claims.selects s n → n < Config.harts → let h := s.hart n
    (h.boundWrite true r = some (k, w) → exec (.ixdbRegs [32 + r.toNat]) s =
      .next (Claims.prints s (.reg (32 + r.toNat) (BitVec.ofNat 512 (Claims.number (w.last.getD []))) h.rgen 0 false w.fmt))) ∧
    (r ≠ 0 → h.boundWrite false r = some (k, w) → w.last = none → exec (.ixdbRegs [r.toNat]) s = .next (Claims.prints s (.reg r.toNat 0 h.rgen 0 false 0)))) ∧
  -- what a unit sees of its own bank, and of memory with nothing unpublished
  (∀ (s : State) (n o len : Nat), n < Config.harts → s.log = [] → (s.core (n / 4)).psb = [] → o + len ≤ 2 ^ 17 → o % 32 + len ≤ 32 → 0 < len →
    s.dbgBytes (some n) (Claims.bankBase + o) len = some (let g := Claims.bankGran s (n / 4) (o / 32)
      (List.range len).map fun i => if s.coverGen (locBank (n / 4) (o / 32)) = some g.tag then KMap.get 0 g.data (o % 32 + i) else 0)) ∧
  (∀ (s : State) (va pa len id : Nat) (x : Partition) (u : State), s.dbg.attached = true → s.dbg.part = id → s.parts.find? (fun p => p.1 == id) = some (id, x) →
    s.partPlace x va .read = (some pa, u) → 0 < len → va % 32 + len ≤ 32 → pa % 32 = va % 32 → va + len ≤ 2 ^ 64 →
    s.dbgBytes none va len = some ((List.range len).map fun i => KMap.get 0 s.mem (pa + i))) ∧
  (∀ (s : State) (c i : Nat), c < Config.cores → i < 4096 →
    let g := Claims.bankGran s c i
    let inside (a : Alloc) : Prop := a.base ≤ 32 * i ∧ 32 * i < a.base + 32 * a.len
    let word (d : Bool) : Nat := if d then Claims.number ((List.range 4).map fun k => KMap.get 0 g.data (4 + k)) else 0
    (Claims.bars s (s.partOfCluster (c / 16)) → exec (.ixdbBank c (32 * i + 4) 1) s = .next (Claims.refuses s)) ∧
    (∀ a, Claims.admits s (s.partOfCluster (c / 16)) a →
      (∀ e, (s.core c).alloc.find? (fun e => e.2.st == .live && decide (e.2.base ≤ 32 * i ∧ 32 * i < e.2.base + 32 * e.2.len)) = some e →
        (∀ r ∈ (s.core c).alloc, r.2.st = .retired → ¬ inside r.2) →
        exec (.ixdbBank c (32 * i + 4) 1) s = .next (Claims.prints a (.granule (32 * i + 4) g.tag (if e.2.gen = g.tag then 0 else 1) (e.2.gen == g.tag && g.poison) [word (e.2.gen == g.tag)]))) ∧
      ((∀ e ∈ (s.core c).alloc, e.2.st = .live → ¬ inside e.2) → (∀ raw : Bool, (raw = true ↔ (∃ r ∈ (s.core c).alloc, r.2.st = .retired ∧ inside r.2) ∧ Claims.forensicIn s (c / 16)) →
        exec (.ixdbBank c (32 * i + 4) 1) s = .next (Claims.prints a (.granule (32 * i + 4) g.tag 2 (raw && g.poison) [word raw])))))) ∧
  (∀ (s : State), s.dbg.attached = true →
    exec .ixdbKicks s = .next (Claims.prints s (Claims.row 0 ((List.range 256).filter fun q => s.kicks.getLsbD q))) ∧
    (∀ set, set < 4 → (s.qset set).jtail = (s.qset set).jlhead → exec (.ixdbJournal set) s =
      .next (Claims.prints s (Claims.row set [(s.qset set).jlhead.toNat, (s.qset set).jtail.toNat]))) ∧
    (∀ set bs, set < 4 → (s.qset set).jtail = (s.qset set).jlhead + 1 → Claims.journalAt s set (s.qset set).jlhead.toNat bs → let f (o k : Nat) := Claims.number ((bs.drop o).take k)
      exec (.ixdbJournal set) s = .next (Claims.prints (Claims.prints s (Claims.row (s.qset set).jlhead.toNat [f 0 4, f 4 1, f 6 2, f 8 4, f 12 4]))
        (Claims.row set [(s.qset set).jlhead.toNat, (s.qset set).jtail.toNat]))) ∧
    (∀ e, e < 1024 → let E := Claims.entryIs s e
      (Claims.eState E = 0 ∨ ∃ p, s.parts.find? (fun p => p.2.queues.contains (Claims.eQueue E)) = some (s.dbg.part, p)) →
      exec (.ixdbPtab e) s = .next (Claims.prints s (Claims.row e [Claims.eQueue E, Claims.ePos E, Claims.eSet E, Claims.ePlay E, Claims.eRel E, Claims.eState E,
        Claims.fld E.w3 16 16, Claims.fld E.w3 0 16, Claims.fld E.w3 32 16, Claims.fld E.w4 0 32])))) ∧
  (∀ (s : State) (q : Nat), (Claims.bars s (s.partOfQueue q) → exec (.ixdbQueue q) s = .next (Claims.refuses s)) ∧
    (∀ a, Claims.admits s (s.partOfQueue q) a → exec (.ixdbQueue q) s =
      .next (Claims.prints a (Claims.row q [Claims.stgNum s (Claims.qAt s q + 9) 1, Claims.stgNum s (Claims.qAt s q + 20) 4, Claims.stgNum s (Claims.qAt s q + 16) 4])))) ∧
  (∀ (s : State) (n : Nat) (v : BitVec 512) (f : BitVec 4), n < Config.harts → let p := s.partOfCluster (n / 64)
    (∀ w, Claims.bars s p → exec (.debuggerWrite n w v f) s = .next (Claims.refuses s)) ∧
    (∀ a, Claims.admits s p a →
      (∀ r : Reg, exec (.debuggerWrite n r.toNat v f) s = .next (a.setHart n ((a.hart n).putX r (v.extractLsb' 0 64) false)) ∧
        exec (.debuggerWrite n (32 + r.toNat) v f) s = .next (a.setHart n ((a.hart n).putV r v f false)) ∧
        (r.toNat < 8 → exec (.debuggerWrite n (64 + r.toNat) v f) s = .next (a.setHart n ((a.hart n).putM r (v.extractLsb' 0 64) false)))) ∧
      (∀ i, i < 4096 → (∀ g, s.coverGen (locBank (n / 4) i) = some g → ∃ t, exec (.debuggerWrite n (0x100 + i) v f) s = .next t ∧ t.harts = s.harts ∧ t.mem = s.mem ∧
          ∀ c j, (c = n / 4 ∧ j = i → (Claims.bankGran t c j).tag = g ∧ (Claims.bankGran t c j).poison = false ∧
              ∀ b, b < 32 → KMap.get 0 (Claims.bankGran t c j).data b = v.extractLsb' (8 * b) 8) ∧ (¬ (c = n / 4 ∧ j = i) → Claims.bankGran t c j = Claims.bankGran s c j)) ∧
        (s.coverGen (locBank (n / 4) i) = none → exec (.debuggerWrite n (0x100 + i) v f) s = .next (Claims.refuses a)))))

/-! ### The machine as a whole: reset, encodings, the step, and what every step keeps -/

namespace Claims

/-- Words of the manual's own listings (compute cores, and director cores) and the instructions they stand for. -/
def computeWords : List (Nat × Instr) := [
  (0x12345537, .lui 10 0x12345), (0x6785051B, .rv64iAlu .addw 10 10 (.imm 1656)), (0x00008067, .jalr 0 1 0),
  (0x020E4663, .branch .blt 28 0 22), (0xFDDFF06F, .jal 0 0xFFFEE), (0x5D129073, .csrrw 0 0x5D1 5), (0x5D12B073, .csrrc 0 0x5D1 5),
  (0x01E2A00B, .lpSetupi 0 5 30), (0x00A2908B, .lpSetup 1 5 10), (0x0200008B, .lpOff 1), (0x0010408B, .jalD 1 32), (0x0003D00B, .safept 7),
  (0x20C5850B, .salloc 10 11 12), (0x0015602B, .sbind 1 10), (0x0662E52B, .seal 10 5 6), (0x52B6152B, .amoAddb false true 1 10 12 11),
  (0x0A00105B, .publish 5), (0x1800105B, .refresh 4), (0x18B5005B, .barInit 10 11), (0x0035205B, .barBind 3 10), (0x1035A55B, .barArrive 10 11 3),
  (0x2035A55B, .barWait 10 11 3), (0x20B5105B, .msgSend 10 11), (0x0005855B, .msgRecv 10 11), (0x04B5035B, .msgPut 6 10 11), (0x06B2055B, .dqPush 10 4 11),
  (0x0805825B, .dqPop 4 11), (0x0A0E005B, .qPushX 0 28), (0x0E0009DB, .qStat 19 0), (0x1005855B, .svcCall 10 11),
  (0x002106421882123F, .vfma { la := 2, rm := 1, m := 2 } 2 4 1 2 3), (0x002126421882123F, .vfma { ed1 := true, la := 2, rm := 1, m := 2 } 2 4 1 2 3),
  (0x000000A0008431BF, .vcvt {} { code := 5 } { code := 2 } 3 2 0), (0x00000C40048851BF, .vbcast {} 2 3 4 18), (0x100000400038623F, .vldDiag {} { code := 2 } 4 28),
  (0x3000000E6B16753F, .mxMma {} true true 10 11 12 13 14), (0x00000600101A743F, .mxLd {} false 2 8 13), (0x00000A000014703F, .mxCfg {} 10),
  (0x100000000000803F, .slCfgClose {}), (0x220000000026953F, .phase {} 2 1 0 10 19), (0x180002200016A53F, .netRedSum {} 4 17 10 11)]
def directorWords : List (Nat × Instr) := [
  (0x0124857B, .bcNext 10 9 18), (0x0025D57B, .obLd 10 11 2), (0x00C5E1FB, .obSt 12 11 3), (0x04B5307B, .gdShape 10 11 32), (0x0455407B, .gdTag 10 5 32),
  (0x0115957B, .icLd 10 11 17), (0x00C5A8FB, .icSt 12 11 17), (0x0205007B, .icInv 10), (0x0805857B, .rcInc 10 11), (0x0A0402FB, .rcDec 5 8),
  (0x0405857B, .txIssue 10 11), (0x0605857B, .txWait 10 11), (0x120A805B, .qkSet 21), (0x173902DB, .jlPut 5 18 19), (0x1005855B, .svcCall 10 11)]

/-- Hart `n` steps for itself: it is the current agent with nothing on the agenda, it runs, follows no one, meets no
breakpoint, and neither an ended play nor an overdue vacate request stops it. -/
def stepsHart (s : State) (n : Nat) : Prop :=
  s.agenda = [] ∧ s.cur = .hart n ∧ n < Config.harts ∧ s.mustEnd n = false ∧ (s.hart n).run = .active ∧ (s.hart n).vacateDue = false ∧
    ((s.hart n).role = .solo ∨ ∃ b z ms, (s.hart n).role = .leader b z ms) ∧ (s.hart n).pc ∉ s.dbg.breaks
/-- The same of a director core, with no interrupt pending. -/
def stepsDir (s : State) (d : Nat) : Prop :=
  s.agenda = [] ∧ s.cur = .dir d ∧ d < Config.directors ∧ (s.dir d).run = .active ∧ (s.dir d).routine = none ∧ (s.dir d).injected = false ∧
    s.irq d = none ∧ (s.dir d).pc ∉ s.dbg.breaks ∧
    -- it does not stand at one of Stagehouse's entries
    ∀ y, s.symbols = some y → (s.dir d).user = true ∨ ((s.dir d).pc ≠ y.launch ∧ (s.dir d).pc ≠ y.reseed)
/-- The state the step executes in, and what follows an instruction: a debugger's step counted, suspended cues woken
(R247), watched words looked at, a failure of the module noticed (R449), wait cycles that hold no longer forgotten (log 125). -/
def turn (s : State) : State := { s with part := none }
def after (s t : State) (a : Agent) : State := { ((t.stepped (turn s) a).settle s.seq).checkWatches.checkFatal.keepCycles with part := none }

end Claims

/-- Reset (R281 and the reset columns of R127, R191, R237, R260, R402, R418, R433): rgen 1, every register and granule
dead, every allocation entry free, kgen 0, qset n owned by core 4 n, no kick, no play. House mode, a hart that runs, empty
play and page tables, and memory with nothing listed are the model's choice (log 4, 5). Memory has its canonical form, and no
two live allocations overlap. -/
def Obligations.ResetState : Prop :=
  (∀ n, (State.reset.hart n).rgen = 1 ∧ (State.reset.hart n).house = true ∧ (State.reset.hart n).run = .active ∧ (State.reset.hart n).vflags = 0 ∧ (State.reset.hart n).venab = 0 ∧
    (State.reset.hart n).vrm = 0 ∧ (State.reset.hart n).dmask = 0 ∧ (State.reset.hart n).gmode = 0 ∧ (State.reset.hart n).cueptr = 0 ∧ (State.reset.hart n).pending = [] ∧
    ∀ r : Reg, (r ≠ 0 → (State.reset.hart n).xLive r = false ∧ (State.reset.hart n).mLive r = false) ∧ (State.reset.hart n).vLive r = false) ∧
  (∀ c i, Claims.bankGran State.reset c i = {} ∧ (KMap.get {} (State.reset.core c).alloc i).st = .free) ∧
  (∀ k i, (State.reset.cluster k).kgen = 0 ∧ KMap.get {} (State.reset.cluster k).acc i = {} ∧ (KMap.get {} (State.reset.cluster k).accAlloc i).st = .free ∧
    (State.reset.slice k).rsv = 2 ∧ (State.reset.slice k).borrow = true) ∧
  (∀ n, n < 4 → (State.reset.qset n).owner.toNat = 4 * n ∧ (State.reset.qset n).hold = false ∧ (State.reset.qset n).jsize = 12 ∧ (State.reset.qset n).jtail = 0) ∧
  State.reset.kicks = 0 ∧ State.reset.ptab = [] ∧ State.reset.plays = [] ∧ State.reset.host.cap = 1800 ∧ State.reset.host.mbfree = true ∧
  Memory.wf State.reset.mem = true ∧ Claims.Apart State.reset

/-- Words of the manual's listings decode to the instructions they stand for; the director class is illegal on a compute
core, and reserved words are refused by name. A sanity statement. -/
def Obligations.ListedWordsDecode : Prop :=
  (∀ p ∈ Claims.computeWords, decode false (parcelLen (p.1 % 65536)) p.1 = .ok p.2) ∧
  (∀ p ∈ Claims.directorWords, decode true (parcelLen (p.1 % 65536)) p.1 = .ok p.2) ∧
  decode false 4 0x0124857B = .error .otherCore ∧ decode true 4 0x20C5850B = .error .otherCore ∧ decode false 2 0 = .error .reserved ∧
  decode false 8 0x1021264218824 = .error .unknownOpcode

/-- R46 to R79: for every well-formed instruction the decoder reads its encoding back, with every operand, on the cores
that have it, and its first parcel tells its length (R41); and what the decoder accepts is well formed and encodes to the
word it was read from, so no reserved bit is lost (R79). -/
def Obligations.DecodeEncodeAgree : Prop :=
  (∀ i : Instr, i.wf = true → (encode i).len = i.len ∧ (encode i).toNat < 2 ^ (8 * i.len) ∧ parcelLen ((encode i).toNat % 65536) = i.len ∧
    (i.onCompute = true → decode false i.len (encode i).toNat = .ok i) ∧ (i.onDirector = true → decode true i.len (encode i).toNat = .ok i)) ∧
  (∀ (dir : Bool) (n w : Nat) (i : Instr), w < 2 ^ (8 * n) → parcelLen (w % 65536) = n → decode dir n w = .ok i →
    i.wf = true ∧ i.len = n ∧ (encode i).toNat = w ∧ (if dir then i.onDirector else i.onCompute) = true)

/-- R41, R42, R124: a hart fetches parcels of sealed, translated memory, lowest byte first; a step at bytes that decode is
exec of the decoded instruction, with the debugger's count, the wakes and the watches after it; bytes that decode to
nothing run as the illegal instruction; a parcel that cannot be fetched takes the fetch fault. The same for a director core
and for an event of the agenda (log 1). -/
def Obligations.StepRunsDecoded : Prop :=
  (∀ (s : State) (n : Nat), Claims.stepsHart s n →
    let a : Agent := .hart n
    let pc := (s.hart n).pc
    (∀ k w t, (Claims.turn s).fetch a pc.toNat = (.word k w, t) →
      (∀ i, decode false k w = .ok i → ∀ u, exec i t = .next u → step s = .next (Claims.after s u a)) ∧
      (∀ e, decode false k w = .error e → ∀ u, exec (.illegalInstruction (BitVec.ofNat 64 w)) t = .next u → step s = .next (Claims.after s u a))) ∧
    (∀ adr c t, (Claims.turn s).fetch a pc.toNat = (.fault adr c, t) → step s = .next (Claims.after s (t.takeTrap n c adr pc) a))) ∧
  (∀ (s : State) (d : Nat), Claims.stepsDir s d →
    let a : Agent := .dir d
    let pc := (s.dir d).pc
    (∀ k w t, (Claims.turn s).fetch a pc.toNat = (.word k w, t) →
      (∀ i, decode true k w = .ok i → ∀ u, exec i t = .next u → step s = .next (Claims.after s u a)) ∧
      (∀ e, decode true k w = .error e → ∀ u, exec (.illegalInstruction (BitVec.ofNat 64 w)) t = .next u → step s = .next (Claims.after s u a))) ∧
    (∀ adr c t, (Claims.turn s).fetch a pc.toNat = (.fault adr c, t) → step s = .next (Claims.after s (t.takeExc d c adr pc) a))) ∧
  (∀ (s : State) (i : Instr) (rest : List Turn), s.agenda = .event i :: rest → encode i = .none → (∀ w, i ≠ .illegalInstruction w) →
    ∀ u, exec i { s with agenda := rest } = .next u → step s = .next { (u.settle s.seq).checkWatches.checkFatal.keepCycles with part := none }) ∧
  -- the bytes of a fetch on a hart: parcels at pc, pc + 2, … that translate to pa, pa + 2, … and are sealed
  (∀ (s : State) (n pc pa k : Nat), rowOf pc = 3 → pc + 8 < 2 ^ 56 → (∀ j, j < k → s.translate (hartCluster n) (pc + 2 * j) .fetch = (some (pa + 2 * j), s)) →
    (∀ j, j < 2 * k → ∃ e ∈ s.sealTable, e.1 ≤ pa + j ∧ pa + j < e.1 + e.2.1) → 2 * k = parcelLen (Claims.number (getBytes s.mem pa 2)) → k ∈ [1, 2, 4] →
    s.fetch (.hart n) pc = (.word (2 * k) (Claims.number (getBytes s.mem pa (2 * k))), s))

/-- Every step keeps memory in its canonical form: rising addresses, and no entry that reads as an unlisted address does. -/
def Obligations.StepKeepsMemoryCanonical : Prop :=
  ∀ s t : State, Memory.wf s.mem = true → step s = .next t → Memory.wf t.mem = true

/-! ### Statements of several parts -/

/-- The rule that gives the next pc, and what the loop instructions arm. -/
def Obligations.LoopsAndNextPc : Prop := Claims.NextPc ∧ Claims.LoopSets

/-- The compressed forms, on compute harts and on director cores. -/
def Obligations.CompressedForms : Prop := Claims.ZcaOnHart ∧ Claims.ZcaOnDirector

/-- Conversions, packing of ternary bytes, and outlier splitting. -/
def Obligations.VectorConversions : Prop := Claims.VectorConvert ∧ Claims.VectorTernarySplit

/-- Cue.resume, cue.wait and cue.spawn. -/
def Obligations.CueResumeWaitAndSpawn : Prop := Claims.CueResumed ∧ Claims.CueWait ∧ Claims.CueSpawn

/-- Scalar loads and stores of a director core, and what they do to memory. -/
def Obligations.ScalarMemoryOnDirector : Prop := Claims.DirectorScalarForms ∧ Claims.DirectorMemory

/-- The life of a play in the play table, and the table in Stagehouse's address space. -/
def Obligations.PlayTable : Prop := Claims.PlaysInTable ∧ Claims.PlayTableMapped

/-- Streams are bound, stopped and inspected, and their elements read. -/
def Obligations.StreamsBoundAndRead : Prop := Claims.StreamBinding ∧ Claims.StreamPop

/-- Loads and stores of the own bank, and their traps. -/
def Obligations.OwnBankAccess : Prop := Claims.OwnBankLoad ∧ Claims.OwnBankStore ∧ Claims.BankTraps

/-- Loads of global memory, and a load of what the same core has stored. -/
def Obligations.GlobalAccess : Prop := Claims.GlobalLoad ∧ Claims.StoreThenLoad

/-- CSR instructions of a compute hart. -/
def Obligations.CsrAccessOnHart : Prop := Claims.CsrOnHart ∧ Claims.CountersAndStreamCsrs

/-- What a trap saves and where it goes, and the double trap. -/
def Obligations.TrapsAreTaken : Prop := Claims.TrapEntry ∧ Claims.DoubleTrap

/-- Sessions, their steps, results and masks, and queued selections. -/
def Obligations.SelectionUnit : Prop := Claims.Selection ∧ Claims.SelectionSteps

/-- The copy engine's commands and its decompressor. -/
def Obligations.CopyEngineWork : Prop := Claims.CopyEngine ∧ Claims.Decompression

/-- Matrix tasks are handed over, issued, run and completed. -/
def Obligations.MatrixTaskWork : Prop := Claims.MatrixTasks ∧ Claims.TaskRuns

/-- The inline cache store, reference counts, and tensor issue. -/
def Obligations.CachesAndCounts : Prop := Claims.InlineCaches ∧ Claims.DirectorCounts

/-- Ecall, ebreak, fence and illegal words, on harts and director cores. -/
def Obligations.SystemForms : Prop := Claims.SystemFormsOnHart ∧ Claims.SystemFormsOnDirector

/-- Salloc, salloc.a, sfree and gen.rd. -/
def Obligations.AllocationAndGenerations : Prop := Claims.Allocation ∧ Claims.FreeAndInspect

/-- Choruses, and the instructions that leave a cue. -/
def Obligations.ChorusAndLeaving : Prop := Claims.Chorus ∧ Claims.LeavingCues

/-- Tret, and what a director core's exception saves. -/
def Obligations.ReturnsAndExceptions : Prop := Claims.TrapReturn ∧ Claims.ExceptionEntry

/-- The host's accesses, its registers and the mailbox. -/
def Obligations.HostPort : Prop := Claims.HostAccess ∧ Claims.Mailbox

/-- The integer class, branches and jumps on a compute hart. -/
def Obligations.IntegerAndJumpsOnHart : Prop := Claims.IntegerOnHart ∧ Claims.JumpsOnHart

end
end

