-- ==== Sys2Proof/Laws/KMap.lean ====
section
/-!
SUPPORT. The laws of the sparse maps: a read after a write, a write after a write, and the canonical form.
-/

namespace Sys2Proof.Machine

variable {α : Type}

@[simp] theorem KMap.get_nil (d : α) (n : Nat) : KMap.get d [] n = d := rfl

theorem KMap.get_erase (d : α) (m : KMap α) (n k : Nat) :
    KMap.get d (KMap.erase m n) k = if k = n then d else KMap.get d m k := by
  induction m with
  | nil => simp [KMap.erase, KMap.get]
  | cons p t ih =>
    obtain ⟨a, v⟩ := p
    by_cases h : n = a
    · subst h
      by_cases hk : k = n <;> simp_all [KMap.erase, KMap.get]
    · by_cases hk : k = a
      · subst hk
        have : ¬ k = n := fun e => h e.symm
        simp [KMap.erase, KMap.get, h, this]
      · simp [KMap.erase, KMap.get, h, hk, ih]

theorem KMap.get_insert (d : α) (m : KMap α) (n : Nat) (x : α) (k : Nat) :
    KMap.get d (KMap.insert m n x) k = if k = n then x else KMap.get d m k := by
  induction m with
  | nil => simp [KMap.insert, KMap.get]
  | cons p t ih =>
    obtain ⟨a, v⟩ := p
    by_cases h1 : n < a
    · simp [KMap.insert, KMap.get, h1]
    · by_cases h2 : n = a
      · subst h2
        by_cases hk : k = n <;> simp [KMap.insert, KMap.get, hk]
      · by_cases hk : k = a
        · subst hk
          have : ¬ k = n := fun e => h2 e.symm
          simp [KMap.insert, KMap.get, h1, h2, this]
        · simp [KMap.insert, KMap.get, h1, h2, hk, ih]

variable [DecidableEq α]

/-- A read after a write, of the same number or of another. -/
theorem KMap.get_set (d : α) (m : KMap α) (n : Nat) (x : α) (k : Nat) :
    KMap.get d (KMap.set d m n x) k = if k = n then x else KMap.get d m k := by
  by_cases hx : x = d
  · simp [KMap.set, hx, KMap.get_erase]
  · simp only [KMap.set, hx, if_false, KMap.get_insert, KMap.get_erase]
    split <;> rfl

@[simp] theorem KMap.get_set_self (d : α) (m : KMap α) (n : Nat) (x : α) : KMap.get d (KMap.set d m n x) n = x := by
  simp [KMap.get_set]

theorem KMap.get_set_ne (d : α) (m : KMap α) {n k : Nat} (x : α) (h : k ≠ n) :
    KMap.get d (KMap.set d m n x) k = KMap.get d m k := by
  simp [KMap.get_set, h]

omit [DecidableEq α] in
theorem KMap.erase_erase (m : KMap α) (n : Nat) : KMap.erase (KMap.erase m n) n = KMap.erase m n := by
  induction m with
  | nil => rfl
  | cons p t ih =>
    obtain ⟨a, v⟩ := p
    by_cases h : n = a <;> simp [KMap.erase, h, ih]
    · subst h; exact ih

omit [DecidableEq α] in
theorem KMap.erase_insert (m : KMap α) (n : Nat) (x : α) : KMap.erase (KMap.insert m n x) n = KMap.erase m n := by
  induction m with
  | nil => simp [KMap.insert, KMap.erase]
  | cons p t ih =>
    obtain ⟨a, v⟩ := p
    by_cases h1 : n < a
    · simp [KMap.insert, KMap.erase, h1]
    · by_cases h2 : n = a
      · subst h2; simp [KMap.insert, KMap.erase]
      · simp [KMap.insert, KMap.erase, h1, h2, ih]

/-- The last write counts. -/
@[simp] theorem KMap.set_set (d : α) (m : KMap α) (n : Nat) (x y : α) :
    KMap.set d (KMap.set d m n x) n y = KMap.set d m n y := by
  have e : KMap.erase (KMap.set d m n x) n = KMap.erase m n := by
    by_cases hx : x = d <;> simp [KMap.set, hx, KMap.erase_erase, KMap.erase_insert]
  rw [KMap.set, e, KMap.set]

/-! ### The canonical form -/

theorem KMap.wfFrom_mono (d : α) {m : KMap α} {a b : Nat} (h : b ≤ a) (w : KMap.wfFrom d a m = true) :
    KMap.wfFrom d b m = true := by
  cases m with
  | nil => rfl
  | cons p t =>
    obtain ⟨k, v⟩ := p
    simp only [KMap.wfFrom, Bool.and_eq_true, decide_eq_true_eq] at w ⊢
    exact ⟨⟨Nat.le_trans h w.1.1, w.1.2⟩, w.2⟩

theorem KMap.wfFrom_erase (d : α) (n : Nat) : ∀ {m : KMap α} {b : Nat}, KMap.wfFrom d b m = true →
    KMap.wfFrom d b (KMap.erase m n) = true := by
  intro m
  induction m with
  | nil => intro b _; rfl
  | cons p t ih =>
    obtain ⟨k, v⟩ := p
    intro b w
    simp only [KMap.wfFrom, Bool.and_eq_true, decide_eq_true_eq] at w
    by_cases h : n = k
    · simp only [KMap.erase, h, if_true]
      subst h
      exact KMap.wfFrom_mono d (by omega) (ih w.2)
    · simp only [KMap.erase, h, if_false, KMap.wfFrom, Bool.and_eq_true, decide_eq_true_eq]
      exact ⟨w.1, ih w.2⟩

theorem KMap.wfFrom_insert (d : α) (n : Nat) {x : α} (hx : x ≠ d) : ∀ {m : KMap α} {b : Nat}, b ≤ n →
    KMap.wfFrom d b m = true → KMap.wfFrom d b (KMap.insert m n x) = true := by
  intro m
  induction m with
  | nil => intro b hb _; simp [KMap.insert, KMap.wfFrom, hb, hx]
  | cons p t ih =>
    obtain ⟨k, v⟩ := p
    intro b hb w
    simp only [KMap.wfFrom, Bool.and_eq_true, decide_eq_true_eq] at w
    by_cases h1 : n < k
    · simp only [KMap.insert, h1, if_true, KMap.wfFrom, Bool.and_eq_true, decide_eq_true_eq]
      exact ⟨⟨hb, hx⟩, ⟨⟨by omega, w.1.2⟩, w.2⟩⟩
    · by_cases h2 : n = k
      · simp only [KMap.insert, h2, Nat.lt_irrefl, if_false, if_true, KMap.wfFrom, Bool.and_eq_true, decide_eq_true_eq]
        exact ⟨⟨w.1.1, hx⟩, w.2⟩
      · simp only [KMap.insert, h1, h2, if_false, KMap.wfFrom, Bool.and_eq_true, decide_eq_true_eq]
        exact ⟨w.1, ih (by omega) w.2⟩

/-- Every write keeps the canonical form. -/
theorem KMap.wf_set (d : α) {m : KMap α} (n : Nat) (x : α) (w : KMap.wf d m = true) : KMap.wf d (KMap.set d m n x) = true := by
  by_cases hx : x = d
  · simpa [KMap.set, hx, KMap.wf] using KMap.wfFrom_erase d n w
  · simpa [KMap.set, hx, KMap.wf] using KMap.wfFrom_insert d n hx (Nat.zero_le n) (KMap.wfFrom_erase d n w)

end Sys2Proof.Machine
end

