-- ==== Sys2Proof/Laws/State.lean ====
section
/-!
SUPPORT. What the setters of the numbered parts change and keep: one lemma per field and setter.
-/

namespace Sys2Proof.Machine

/-! ### setHart -/

section
variable (s : State) (n k : Nat) (h : Hart)

@[simp] theorem State.setHart_cur : (s.setHart n h).cur = s.cur := rfl
@[simp] theorem State.setHart_agenda : (s.setHart n h).agenda = s.agenda := rfl
@[simp] theorem State.setHart_picks : (s.setHart n h).picks = s.picks := rfl
@[simp] theorem State.setHart_part : (s.setHart n h).part = s.part := rfl
@[simp] theorem State.setHart_cores : (s.setHart n h).cores = s.cores := rfl
@[simp] theorem State.setHart_clusters : (s.setHart n h).clusters = s.clusters := rfl
@[simp] theorem State.setHart_slices : (s.setHart n h).slices = s.slices := rfl
@[simp] theorem State.setHart_dirs : (s.setHart n h).dirs = s.dirs := rfl
@[simp] theorem State.setHart_dirBuf : (s.setHart n h).dirBuf = s.dirBuf := rfl
@[simp] theorem State.setHart_mem : (s.setHart n h).mem = s.mem := rfl
@[simp] theorem State.setHart_memPoison : (s.setHart n h).memPoison = s.memPoison := rfl
@[simp] theorem State.setHart_hbase : (s.setHart n h).hbase = s.hbase := rfl
@[simp] theorem State.setHart_online : (s.setHart n h).online = s.online := rfl
@[simp] theorem State.setHart_log : (s.setHart n h).log = s.log := rfl
@[simp] theorem State.setHart_seq : (s.setHart n h).seq = s.seq := rfl
@[simp] theorem State.setHart_cycle : (s.setHart n h).cycle = s.cycle := rfl
@[simp] theorem State.setHart_time : (s.setHart n h).time = s.time := rfl
@[simp] theorem State.setHart_tfrac : (s.setHart n h).tfrac = s.tfrac := rfl
@[simp] theorem State.setHart_mhz : (s.setHart n h).mhz = s.mhz := rfl
@[simp] theorem State.setHart_sealTable : (s.setHart n h).sealTable = s.sealTable := rfl
@[simp] theorem State.setHart_seals : (s.setHart n h).seals = s.seals := rfl
@[simp] theorem State.setHart_parts : (s.setHart n h).parts = s.parts := rfl
@[simp] theorem State.setHart_plays : (s.setHart n h).plays = s.plays := rfl
@[simp] theorem State.setHart_dieqs : (s.setHart n h).dieqs = s.dieqs := rfl
@[simp] theorem State.setHart_combine : (s.setHart n h).combine = s.combine := rfl
@[simp] theorem State.setHart_kicks : (s.setHart n h).kicks = s.kicks := rfl
@[simp] theorem State.setHart_qsets : (s.setHart n h).qsets = s.qsets := rfl
@[simp] theorem State.setHart_ptab : (s.setHart n h).ptab = s.ptab := rfl
@[simp] theorem State.setHart_targets : (s.setHart n h).targets = s.targets := rfl
@[simp] theorem State.setHart_serving : (s.setHart n h).serving = s.serving := rfl
@[simp] theorem State.setHart_kept : (s.setHart n h).kept = s.kept := rfl
@[simp] theorem State.setHart_qslots : (s.setHart n h).qslots = s.qslots := rfl
@[simp] theorem State.setHart_evicted : (s.setHart n h).evicted = s.evicted := rfl
@[simp] theorem State.setHart_qtable : (s.setHart n h).qtable = s.qtable := rfl
@[simp] theorem State.setHart_svcs : (s.setHart n h).svcs = s.svcs := rfl
@[simp] theorem State.setHart_faults : (s.setHart n h).faults = s.faults := rfl
@[simp] theorem State.setHart_faultOver : (s.setHart n h).faultOver = s.faultOver := rfl
@[simp] theorem State.setHart_faultWindow : (s.setHart n h).faultWindow = s.faultWindow := rfl
@[simp] theorem State.setHart_waitTimeout : (s.setHart n h).waitTimeout = s.waitTimeout := rfl
@[simp] theorem State.setHart_cycles : (s.setHart n h).cycles = s.cycles := rfl
@[simp] theorem State.setHart_transit : (s.setHart n h).transit = s.transit := rfl
@[simp] theorem State.setHart_issued : (s.setHart n h).issued = s.issued := rfl
@[simp] theorem State.setHart_symbols : (s.setHart n h).symbols = s.symbols := rfl
@[simp] theorem State.setHart_beats : (s.setHart n h).beats = s.beats := rfl
@[simp] theorem State.setHart_ranges : (s.setHart n h).ranges = s.ranges := rfl
@[simp] theorem State.setHart_threadStacks : (s.setHart n h).threadStacks = s.threadStacks := rfl
@[simp] theorem State.setHart_bases : (s.setHart n h).bases = s.bases := rfl
@[simp] theorem State.setHart_glenal : (s.setHart n h).glenal = s.glenal := rfl
@[simp] theorem State.setHart_outside : (s.setHart n h).outside = s.outside := rfl
@[simp] theorem State.setHart_host : (s.setHart n h).host = s.host := rfl
@[simp] theorem State.setHart_flash : (s.setHart n h).flash = s.flash := rfl
@[simp] theorem State.setHart_meas : (s.setHart n h).meas = s.meas := rfl
@[simp] theorem State.setHart_tempPeak : (s.setHart n h).tempPeak = s.tempPeak := rfl
@[simp] theorem State.setHart_tempLow : (s.setHart n h).tempLow = s.tempLow := rfl
@[simp] theorem State.setHart_clearSince : (s.setHart n h).clearSince = s.clearSince := rfl
@[simp] theorem State.setHart_doubleTraps : (s.setHart n h).doubleTraps = s.doubleTraps := rfl
@[simp] theorem State.setHart_trapTimes : (s.setHart n h).trapTimes = s.trapTimes := rfl
@[simp] theorem State.setHart_warm : (s.setHart n h).warm = s.warm := rfl
@[simp] theorem State.setHart_dbg : (s.setHart n h).dbg = s.dbg := rfl
@[simp] theorem State.setHart_freeCount : (s.setHart n h).freeCount = s.freeCount := rfl

@[simp] theorem State.setHart_hart_self : (s.setHart n h).hart n = h := by simp [State.setHart, State.hart]
theorem State.setHart_hart : (s.setHart n h).hart k = if k = n then h else s.hart k := by
  simp only [State.setHart, State.hart, KMap.get_set]
theorem State.setHart_hart_ne (ne : k ≠ n) : (s.setHart n h).hart k = s.hart k := by simp [State.setHart_hart, ne]
@[simp] theorem State.setHart_setHart (h' : Hart) : (s.setHart n h).setHart n h' = s.setHart n h' := by simp [State.setHart]
@[simp] theorem State.setHart_core : (s.setHart n h).core k = s.core k := rfl
@[simp] theorem State.setHart_cluster : (s.setHart n h).cluster k = s.cluster k := rfl
@[simp] theorem State.setHart_slice : (s.setHart n h).slice k = s.slice k := rfl
@[simp] theorem State.setHart_dir : (s.setHart n h).dir k = s.dir k := rfl
@[simp] theorem State.setHart_qset : (s.setHart n h).qset k = s.qset k := rfl
end

/-! ### setCore -/

section
variable (s : State) (n k : Nat) (c : Core)

@[simp] theorem State.setCore_cur : (s.setCore n c).cur = s.cur := rfl
@[simp] theorem State.setCore_agenda : (s.setCore n c).agenda = s.agenda := rfl
@[simp] theorem State.setCore_picks : (s.setCore n c).picks = s.picks := rfl
@[simp] theorem State.setCore_part : (s.setCore n c).part = s.part := rfl
@[simp] theorem State.setCore_harts : (s.setCore n c).harts = s.harts := rfl
@[simp] theorem State.setCore_clusters : (s.setCore n c).clusters = s.clusters := rfl
@[simp] theorem State.setCore_slices : (s.setCore n c).slices = s.slices := rfl
@[simp] theorem State.setCore_dirs : (s.setCore n c).dirs = s.dirs := rfl
@[simp] theorem State.setCore_dirBuf : (s.setCore n c).dirBuf = s.dirBuf := rfl
@[simp] theorem State.setCore_mem : (s.setCore n c).mem = s.mem := rfl
@[simp] theorem State.setCore_memPoison : (s.setCore n c).memPoison = s.memPoison := rfl
@[simp] theorem State.setCore_hbase : (s.setCore n c).hbase = s.hbase := rfl
@[simp] theorem State.setCore_online : (s.setCore n c).online = s.online := rfl
@[simp] theorem State.setCore_log : (s.setCore n c).log = s.log := rfl
@[simp] theorem State.setCore_seq : (s.setCore n c).seq = s.seq := rfl
@[simp] theorem State.setCore_cycle : (s.setCore n c).cycle = s.cycle := rfl
@[simp] theorem State.setCore_time : (s.setCore n c).time = s.time := rfl
@[simp] theorem State.setCore_tfrac : (s.setCore n c).tfrac = s.tfrac := rfl
@[simp] theorem State.setCore_mhz : (s.setCore n c).mhz = s.mhz := rfl
@[simp] theorem State.setCore_sealTable : (s.setCore n c).sealTable = s.sealTable := rfl
@[simp] theorem State.setCore_seals : (s.setCore n c).seals = s.seals := rfl
@[simp] theorem State.setCore_parts : (s.setCore n c).parts = s.parts := rfl
@[simp] theorem State.setCore_plays : (s.setCore n c).plays = s.plays := rfl
@[simp] theorem State.setCore_dieqs : (s.setCore n c).dieqs = s.dieqs := rfl
@[simp] theorem State.setCore_combine : (s.setCore n c).combine = s.combine := rfl
@[simp] theorem State.setCore_kicks : (s.setCore n c).kicks = s.kicks := rfl
@[simp] theorem State.setCore_qsets : (s.setCore n c).qsets = s.qsets := rfl
@[simp] theorem State.setCore_ptab : (s.setCore n c).ptab = s.ptab := rfl
@[simp] theorem State.setCore_targets : (s.setCore n c).targets = s.targets := rfl
@[simp] theorem State.setCore_serving : (s.setCore n c).serving = s.serving := rfl
@[simp] theorem State.setCore_kept : (s.setCore n c).kept = s.kept := rfl
@[simp] theorem State.setCore_qslots : (s.setCore n c).qslots = s.qslots := rfl
@[simp] theorem State.setCore_evicted : (s.setCore n c).evicted = s.evicted := rfl
@[simp] theorem State.setCore_qtable : (s.setCore n c).qtable = s.qtable := rfl
@[simp] theorem State.setCore_svcs : (s.setCore n c).svcs = s.svcs := rfl
@[simp] theorem State.setCore_faults : (s.setCore n c).faults = s.faults := rfl
@[simp] theorem State.setCore_faultOver : (s.setCore n c).faultOver = s.faultOver := rfl
@[simp] theorem State.setCore_faultWindow : (s.setCore n c).faultWindow = s.faultWindow := rfl
@[simp] theorem State.setCore_waitTimeout : (s.setCore n c).waitTimeout = s.waitTimeout := rfl
@[simp] theorem State.setCore_cycles : (s.setCore n c).cycles = s.cycles := rfl
@[simp] theorem State.setCore_transit : (s.setCore n c).transit = s.transit := rfl
@[simp] theorem State.setCore_issued : (s.setCore n c).issued = s.issued := rfl
@[simp] theorem State.setCore_symbols : (s.setCore n c).symbols = s.symbols := rfl
@[simp] theorem State.setCore_beats : (s.setCore n c).beats = s.beats := rfl
@[simp] theorem State.setCore_ranges : (s.setCore n c).ranges = s.ranges := rfl
@[simp] theorem State.setCore_threadStacks : (s.setCore n c).threadStacks = s.threadStacks := rfl
@[simp] theorem State.setCore_bases : (s.setCore n c).bases = s.bases := rfl
@[simp] theorem State.setCore_glenal : (s.setCore n c).glenal = s.glenal := rfl
@[simp] theorem State.setCore_outside : (s.setCore n c).outside = s.outside := rfl
@[simp] theorem State.setCore_host : (s.setCore n c).host = s.host := rfl
@[simp] theorem State.setCore_flash : (s.setCore n c).flash = s.flash := rfl
@[simp] theorem State.setCore_meas : (s.setCore n c).meas = s.meas := rfl
@[simp] theorem State.setCore_tempPeak : (s.setCore n c).tempPeak = s.tempPeak := rfl
@[simp] theorem State.setCore_tempLow : (s.setCore n c).tempLow = s.tempLow := rfl
@[simp] theorem State.setCore_clearSince : (s.setCore n c).clearSince = s.clearSince := rfl
@[simp] theorem State.setCore_doubleTraps : (s.setCore n c).doubleTraps = s.doubleTraps := rfl
@[simp] theorem State.setCore_trapTimes : (s.setCore n c).trapTimes = s.trapTimes := rfl
@[simp] theorem State.setCore_warm : (s.setCore n c).warm = s.warm := rfl
@[simp] theorem State.setCore_dbg : (s.setCore n c).dbg = s.dbg := rfl
@[simp] theorem State.setCore_freeCount : (s.setCore n c).freeCount = s.freeCount := rfl

@[simp] theorem State.setCore_core_self : (s.setCore n c).core n = c := by simp [State.setCore, State.core]
theorem State.setCore_core : (s.setCore n c).core k = if k = n then c else s.core k := by
  simp only [State.setCore, State.core, KMap.get_set]
theorem State.setCore_core_ne (ne : k ≠ n) : (s.setCore n c).core k = s.core k := by simp [State.setCore_core, ne]
@[simp] theorem State.setCore_setCore (c' : Core) : (s.setCore n c).setCore n c' = s.setCore n c' := by simp [State.setCore]
@[simp] theorem State.setCore_hart : (s.setCore n c).hart k = s.hart k := rfl
@[simp] theorem State.setCore_cluster : (s.setCore n c).cluster k = s.cluster k := rfl
@[simp] theorem State.setCore_slice : (s.setCore n c).slice k = s.slice k := rfl
@[simp] theorem State.setCore_dir : (s.setCore n c).dir k = s.dir k := rfl
@[simp] theorem State.setCore_qset : (s.setCore n c).qset k = s.qset k := rfl
end

/-! ### setCluster -/

section
variable (s : State) (n k : Nat) (c : Cluster)

@[simp] theorem State.setCluster_cur : (s.setCluster n c).cur = s.cur := rfl
@[simp] theorem State.setCluster_agenda : (s.setCluster n c).agenda = s.agenda := rfl
@[simp] theorem State.setCluster_picks : (s.setCluster n c).picks = s.picks := rfl
@[simp] theorem State.setCluster_part : (s.setCluster n c).part = s.part := rfl
@[simp] theorem State.setCluster_harts : (s.setCluster n c).harts = s.harts := rfl
@[simp] theorem State.setCluster_cores : (s.setCluster n c).cores = s.cores := rfl
@[simp] theorem State.setCluster_slices : (s.setCluster n c).slices = s.slices := rfl
@[simp] theorem State.setCluster_dirs : (s.setCluster n c).dirs = s.dirs := rfl
@[simp] theorem State.setCluster_dirBuf : (s.setCluster n c).dirBuf = s.dirBuf := rfl
@[simp] theorem State.setCluster_mem : (s.setCluster n c).mem = s.mem := rfl
@[simp] theorem State.setCluster_memPoison : (s.setCluster n c).memPoison = s.memPoison := rfl
@[simp] theorem State.setCluster_hbase : (s.setCluster n c).hbase = s.hbase := rfl
@[simp] theorem State.setCluster_online : (s.setCluster n c).online = s.online := rfl
@[simp] theorem State.setCluster_log : (s.setCluster n c).log = s.log := rfl
@[simp] theorem State.setCluster_seq : (s.setCluster n c).seq = s.seq := rfl
@[simp] theorem State.setCluster_cycle : (s.setCluster n c).cycle = s.cycle := rfl
@[simp] theorem State.setCluster_time : (s.setCluster n c).time = s.time := rfl
@[simp] theorem State.setCluster_tfrac : (s.setCluster n c).tfrac = s.tfrac := rfl
@[simp] theorem State.setCluster_mhz : (s.setCluster n c).mhz = s.mhz := rfl
@[simp] theorem State.setCluster_sealTable : (s.setCluster n c).sealTable = s.sealTable := rfl
@[simp] theorem State.setCluster_seals : (s.setCluster n c).seals = s.seals := rfl
@[simp] theorem State.setCluster_parts : (s.setCluster n c).parts = s.parts := rfl
@[simp] theorem State.setCluster_plays : (s.setCluster n c).plays = s.plays := rfl
@[simp] theorem State.setCluster_dieqs : (s.setCluster n c).dieqs = s.dieqs := rfl
@[simp] theorem State.setCluster_combine : (s.setCluster n c).combine = s.combine := rfl
@[simp] theorem State.setCluster_kicks : (s.setCluster n c).kicks = s.kicks := rfl
@[simp] theorem State.setCluster_qsets : (s.setCluster n c).qsets = s.qsets := rfl
@[simp] theorem State.setCluster_ptab : (s.setCluster n c).ptab = s.ptab := rfl
@[simp] theorem State.setCluster_targets : (s.setCluster n c).targets = s.targets := rfl
@[simp] theorem State.setCluster_serving : (s.setCluster n c).serving = s.serving := rfl
@[simp] theorem State.setCluster_kept : (s.setCluster n c).kept = s.kept := rfl
@[simp] theorem State.setCluster_qslots : (s.setCluster n c).qslots = s.qslots := rfl
@[simp] theorem State.setCluster_evicted : (s.setCluster n c).evicted = s.evicted := rfl
@[simp] theorem State.setCluster_qtable : (s.setCluster n c).qtable = s.qtable := rfl
@[simp] theorem State.setCluster_svcs : (s.setCluster n c).svcs = s.svcs := rfl
@[simp] theorem State.setCluster_faults : (s.setCluster n c).faults = s.faults := rfl
@[simp] theorem State.setCluster_faultOver : (s.setCluster n c).faultOver = s.faultOver := rfl
@[simp] theorem State.setCluster_faultWindow : (s.setCluster n c).faultWindow = s.faultWindow := rfl
@[simp] theorem State.setCluster_waitTimeout : (s.setCluster n c).waitTimeout = s.waitTimeout := rfl
@[simp] theorem State.setCluster_cycles : (s.setCluster n c).cycles = s.cycles := rfl
@[simp] theorem State.setCluster_transit : (s.setCluster n c).transit = s.transit := rfl
@[simp] theorem State.setCluster_issued : (s.setCluster n c).issued = s.issued := rfl
@[simp] theorem State.setCluster_symbols : (s.setCluster n c).symbols = s.symbols := rfl
@[simp] theorem State.setCluster_beats : (s.setCluster n c).beats = s.beats := rfl
@[simp] theorem State.setCluster_ranges : (s.setCluster n c).ranges = s.ranges := rfl
@[simp] theorem State.setCluster_threadStacks : (s.setCluster n c).threadStacks = s.threadStacks := rfl
@[simp] theorem State.setCluster_bases : (s.setCluster n c).bases = s.bases := rfl
@[simp] theorem State.setCluster_glenal : (s.setCluster n c).glenal = s.glenal := rfl
@[simp] theorem State.setCluster_outside : (s.setCluster n c).outside = s.outside := rfl
@[simp] theorem State.setCluster_host : (s.setCluster n c).host = s.host := rfl
@[simp] theorem State.setCluster_flash : (s.setCluster n c).flash = s.flash := rfl
@[simp] theorem State.setCluster_meas : (s.setCluster n c).meas = s.meas := rfl
@[simp] theorem State.setCluster_tempPeak : (s.setCluster n c).tempPeak = s.tempPeak := rfl
@[simp] theorem State.setCluster_tempLow : (s.setCluster n c).tempLow = s.tempLow := rfl
@[simp] theorem State.setCluster_clearSince : (s.setCluster n c).clearSince = s.clearSince := rfl
@[simp] theorem State.setCluster_doubleTraps : (s.setCluster n c).doubleTraps = s.doubleTraps := rfl
@[simp] theorem State.setCluster_trapTimes : (s.setCluster n c).trapTimes = s.trapTimes := rfl
@[simp] theorem State.setCluster_warm : (s.setCluster n c).warm = s.warm := rfl
@[simp] theorem State.setCluster_dbg : (s.setCluster n c).dbg = s.dbg := rfl
@[simp] theorem State.setCluster_freeCount : (s.setCluster n c).freeCount = s.freeCount := rfl

@[simp] theorem State.setCluster_cluster_self : (s.setCluster n c).cluster n = c := by simp [State.setCluster, State.cluster]
theorem State.setCluster_cluster : (s.setCluster n c).cluster k = if k = n then c else s.cluster k := by
  simp only [State.setCluster, State.cluster, KMap.get_set]
theorem State.setCluster_cluster_ne (ne : k ≠ n) : (s.setCluster n c).cluster k = s.cluster k := by simp [State.setCluster_cluster, ne]
@[simp] theorem State.setCluster_setCluster (c' : Cluster) : (s.setCluster n c).setCluster n c' = s.setCluster n c' := by simp [State.setCluster]
@[simp] theorem State.setCluster_hart : (s.setCluster n c).hart k = s.hart k := rfl
@[simp] theorem State.setCluster_core : (s.setCluster n c).core k = s.core k := rfl
@[simp] theorem State.setCluster_slice : (s.setCluster n c).slice k = s.slice k := rfl
@[simp] theorem State.setCluster_dir : (s.setCluster n c).dir k = s.dir k := rfl
@[simp] theorem State.setCluster_qset : (s.setCluster n c).qset k = s.qset k := rfl
end

/-! ### setSlice -/

section
variable (s : State) (n k : Nat) (c : Slice)

@[simp] theorem State.setSlice_cur : (s.setSlice n c).cur = s.cur := rfl
@[simp] theorem State.setSlice_agenda : (s.setSlice n c).agenda = s.agenda := rfl
@[simp] theorem State.setSlice_picks : (s.setSlice n c).picks = s.picks := rfl
@[simp] theorem State.setSlice_part : (s.setSlice n c).part = s.part := rfl
@[simp] theorem State.setSlice_harts : (s.setSlice n c).harts = s.harts := rfl
@[simp] theorem State.setSlice_cores : (s.setSlice n c).cores = s.cores := rfl
@[simp] theorem State.setSlice_clusters : (s.setSlice n c).clusters = s.clusters := rfl
@[simp] theorem State.setSlice_dirs : (s.setSlice n c).dirs = s.dirs := rfl
@[simp] theorem State.setSlice_dirBuf : (s.setSlice n c).dirBuf = s.dirBuf := rfl
@[simp] theorem State.setSlice_mem : (s.setSlice n c).mem = s.mem := rfl
@[simp] theorem State.setSlice_memPoison : (s.setSlice n c).memPoison = s.memPoison := rfl
@[simp] theorem State.setSlice_hbase : (s.setSlice n c).hbase = s.hbase := rfl
@[simp] theorem State.setSlice_online : (s.setSlice n c).online = s.online := rfl
@[simp] theorem State.setSlice_log : (s.setSlice n c).log = s.log := rfl
@[simp] theorem State.setSlice_seq : (s.setSlice n c).seq = s.seq := rfl
@[simp] theorem State.setSlice_cycle : (s.setSlice n c).cycle = s.cycle := rfl
@[simp] theorem State.setSlice_time : (s.setSlice n c).time = s.time := rfl
@[simp] theorem State.setSlice_tfrac : (s.setSlice n c).tfrac = s.tfrac := rfl
@[simp] theorem State.setSlice_mhz : (s.setSlice n c).mhz = s.mhz := rfl
@[simp] theorem State.setSlice_sealTable : (s.setSlice n c).sealTable = s.sealTable := rfl
@[simp] theorem State.setSlice_seals : (s.setSlice n c).seals = s.seals := rfl
@[simp] theorem State.setSlice_parts : (s.setSlice n c).parts = s.parts := rfl
@[simp] theorem State.setSlice_plays : (s.setSlice n c).plays = s.plays := rfl
@[simp] theorem State.setSlice_dieqs : (s.setSlice n c).dieqs = s.dieqs := rfl
@[simp] theorem State.setSlice_combine : (s.setSlice n c).combine = s.combine := rfl
@[simp] theorem State.setSlice_kicks : (s.setSlice n c).kicks = s.kicks := rfl
@[simp] theorem State.setSlice_qsets : (s.setSlice n c).qsets = s.qsets := rfl
@[simp] theorem State.setSlice_ptab : (s.setSlice n c).ptab = s.ptab := rfl
@[simp] theorem State.setSlice_targets : (s.setSlice n c).targets = s.targets := rfl
@[simp] theorem State.setSlice_serving : (s.setSlice n c).serving = s.serving := rfl
@[simp] theorem State.setSlice_kept : (s.setSlice n c).kept = s.kept := rfl
@[simp] theorem State.setSlice_qslots : (s.setSlice n c).qslots = s.qslots := rfl
@[simp] theorem State.setSlice_evicted : (s.setSlice n c).evicted = s.evicted := rfl
@[simp] theorem State.setSlice_qtable : (s.setSlice n c).qtable = s.qtable := rfl
@[simp] theorem State.setSlice_svcs : (s.setSlice n c).svcs = s.svcs := rfl
@[simp] theorem State.setSlice_faults : (s.setSlice n c).faults = s.faults := rfl
@[simp] theorem State.setSlice_faultOver : (s.setSlice n c).faultOver = s.faultOver := rfl
@[simp] theorem State.setSlice_faultWindow : (s.setSlice n c).faultWindow = s.faultWindow := rfl
@[simp] theorem State.setSlice_waitTimeout : (s.setSlice n c).waitTimeout = s.waitTimeout := rfl
@[simp] theorem State.setSlice_cycles : (s.setSlice n c).cycles = s.cycles := rfl
@[simp] theorem State.setSlice_transit : (s.setSlice n c).transit = s.transit := rfl
@[simp] theorem State.setSlice_issued : (s.setSlice n c).issued = s.issued := rfl
@[simp] theorem State.setSlice_symbols : (s.setSlice n c).symbols = s.symbols := rfl
@[simp] theorem State.setSlice_beats : (s.setSlice n c).beats = s.beats := rfl
@[simp] theorem State.setSlice_ranges : (s.setSlice n c).ranges = s.ranges := rfl
@[simp] theorem State.setSlice_threadStacks : (s.setSlice n c).threadStacks = s.threadStacks := rfl
@[simp] theorem State.setSlice_bases : (s.setSlice n c).bases = s.bases := rfl
@[simp] theorem State.setSlice_glenal : (s.setSlice n c).glenal = s.glenal := rfl
@[simp] theorem State.setSlice_outside : (s.setSlice n c).outside = s.outside := rfl
@[simp] theorem State.setSlice_host : (s.setSlice n c).host = s.host := rfl
@[simp] theorem State.setSlice_flash : (s.setSlice n c).flash = s.flash := rfl
@[simp] theorem State.setSlice_meas : (s.setSlice n c).meas = s.meas := rfl
@[simp] theorem State.setSlice_tempPeak : (s.setSlice n c).tempPeak = s.tempPeak := rfl
@[simp] theorem State.setSlice_tempLow : (s.setSlice n c).tempLow = s.tempLow := rfl
@[simp] theorem State.setSlice_clearSince : (s.setSlice n c).clearSince = s.clearSince := rfl
@[simp] theorem State.setSlice_doubleTraps : (s.setSlice n c).doubleTraps = s.doubleTraps := rfl
@[simp] theorem State.setSlice_trapTimes : (s.setSlice n c).trapTimes = s.trapTimes := rfl
@[simp] theorem State.setSlice_warm : (s.setSlice n c).warm = s.warm := rfl
@[simp] theorem State.setSlice_dbg : (s.setSlice n c).dbg = s.dbg := rfl
@[simp] theorem State.setSlice_freeCount : (s.setSlice n c).freeCount = s.freeCount := rfl

@[simp] theorem State.setSlice_slice_self : (s.setSlice n c).slice n = c := by simp [State.setSlice, State.slice]
theorem State.setSlice_slice : (s.setSlice n c).slice k = if k = n then c else s.slice k := by
  simp only [State.setSlice, State.slice, KMap.get_set]
theorem State.setSlice_slice_ne (ne : k ≠ n) : (s.setSlice n c).slice k = s.slice k := by simp [State.setSlice_slice, ne]
@[simp] theorem State.setSlice_setSlice (c' : Slice) : (s.setSlice n c).setSlice n c' = s.setSlice n c' := by simp [State.setSlice]
@[simp] theorem State.setSlice_hart : (s.setSlice n c).hart k = s.hart k := rfl
@[simp] theorem State.setSlice_core : (s.setSlice n c).core k = s.core k := rfl
@[simp] theorem State.setSlice_cluster : (s.setSlice n c).cluster k = s.cluster k := rfl
@[simp] theorem State.setSlice_dir : (s.setSlice n c).dir k = s.dir k := rfl
@[simp] theorem State.setSlice_qset : (s.setSlice n c).qset k = s.qset k := rfl
end

/-! ### setDir -/

section
variable (s : State) (n k : Nat) (d : Dir)

@[simp] theorem State.setDir_cur : (s.setDir n d).cur = s.cur := rfl
@[simp] theorem State.setDir_agenda : (s.setDir n d).agenda = s.agenda := rfl
@[simp] theorem State.setDir_picks : (s.setDir n d).picks = s.picks := rfl
@[simp] theorem State.setDir_part : (s.setDir n d).part = s.part := rfl
@[simp] theorem State.setDir_harts : (s.setDir n d).harts = s.harts := rfl
@[simp] theorem State.setDir_cores : (s.setDir n d).cores = s.cores := rfl
@[simp] theorem State.setDir_clusters : (s.setDir n d).clusters = s.clusters := rfl
@[simp] theorem State.setDir_slices : (s.setDir n d).slices = s.slices := rfl
@[simp] theorem State.setDir_dirBuf : (s.setDir n d).dirBuf = s.dirBuf := rfl
@[simp] theorem State.setDir_mem : (s.setDir n d).mem = s.mem := rfl
@[simp] theorem State.setDir_memPoison : (s.setDir n d).memPoison = s.memPoison := rfl
@[simp] theorem State.setDir_hbase : (s.setDir n d).hbase = s.hbase := rfl
@[simp] theorem State.setDir_online : (s.setDir n d).online = s.online := rfl
@[simp] theorem State.setDir_log : (s.setDir n d).log = s.log := rfl
@[simp] theorem State.setDir_seq : (s.setDir n d).seq = s.seq := rfl
@[simp] theorem State.setDir_cycle : (s.setDir n d).cycle = s.cycle := rfl
@[simp] theorem State.setDir_time : (s.setDir n d).time = s.time := rfl
@[simp] theorem State.setDir_tfrac : (s.setDir n d).tfrac = s.tfrac := rfl
@[simp] theorem State.setDir_mhz : (s.setDir n d).mhz = s.mhz := rfl
@[simp] theorem State.setDir_sealTable : (s.setDir n d).sealTable = s.sealTable := rfl
@[simp] theorem State.setDir_seals : (s.setDir n d).seals = s.seals := rfl
@[simp] theorem State.setDir_parts : (s.setDir n d).parts = s.parts := rfl
@[simp] theorem State.setDir_plays : (s.setDir n d).plays = s.plays := rfl
@[simp] theorem State.setDir_dieqs : (s.setDir n d).dieqs = s.dieqs := rfl
@[simp] theorem State.setDir_combine : (s.setDir n d).combine = s.combine := rfl
@[simp] theorem State.setDir_kicks : (s.setDir n d).kicks = s.kicks := rfl
@[simp] theorem State.setDir_qsets : (s.setDir n d).qsets = s.qsets := rfl
@[simp] theorem State.setDir_ptab : (s.setDir n d).ptab = s.ptab := rfl
@[simp] theorem State.setDir_targets : (s.setDir n d).targets = s.targets := rfl
@[simp] theorem State.setDir_serving : (s.setDir n d).serving = s.serving := rfl
@[simp] theorem State.setDir_kept : (s.setDir n d).kept = s.kept := rfl
@[simp] theorem State.setDir_qslots : (s.setDir n d).qslots = s.qslots := rfl
@[simp] theorem State.setDir_evicted : (s.setDir n d).evicted = s.evicted := rfl
@[simp] theorem State.setDir_qtable : (s.setDir n d).qtable = s.qtable := rfl
@[simp] theorem State.setDir_svcs : (s.setDir n d).svcs = s.svcs := rfl
@[simp] theorem State.setDir_faults : (s.setDir n d).faults = s.faults := rfl
@[simp] theorem State.setDir_faultOver : (s.setDir n d).faultOver = s.faultOver := rfl
@[simp] theorem State.setDir_faultWindow : (s.setDir n d).faultWindow = s.faultWindow := rfl
@[simp] theorem State.setDir_waitTimeout : (s.setDir n d).waitTimeout = s.waitTimeout := rfl
@[simp] theorem State.setDir_cycles : (s.setDir n d).cycles = s.cycles := rfl
@[simp] theorem State.setDir_transit : (s.setDir n d).transit = s.transit := rfl
@[simp] theorem State.setDir_issued : (s.setDir n d).issued = s.issued := rfl
@[simp] theorem State.setDir_symbols : (s.setDir n d).symbols = s.symbols := rfl
@[simp] theorem State.setDir_beats : (s.setDir n d).beats = s.beats := rfl
@[simp] theorem State.setDir_ranges : (s.setDir n d).ranges = s.ranges := rfl
@[simp] theorem State.setDir_threadStacks : (s.setDir n d).threadStacks = s.threadStacks := rfl
@[simp] theorem State.setDir_bases : (s.setDir n d).bases = s.bases := rfl
@[simp] theorem State.setDir_glenal : (s.setDir n d).glenal = s.glenal := rfl
@[simp] theorem State.setDir_outside : (s.setDir n d).outside = s.outside := rfl
@[simp] theorem State.setDir_host : (s.setDir n d).host = s.host := rfl
@[simp] theorem State.setDir_flash : (s.setDir n d).flash = s.flash := rfl
@[simp] theorem State.setDir_meas : (s.setDir n d).meas = s.meas := rfl
@[simp] theorem State.setDir_tempPeak : (s.setDir n d).tempPeak = s.tempPeak := rfl
@[simp] theorem State.setDir_tempLow : (s.setDir n d).tempLow = s.tempLow := rfl
@[simp] theorem State.setDir_clearSince : (s.setDir n d).clearSince = s.clearSince := rfl
@[simp] theorem State.setDir_doubleTraps : (s.setDir n d).doubleTraps = s.doubleTraps := rfl
@[simp] theorem State.setDir_trapTimes : (s.setDir n d).trapTimes = s.trapTimes := rfl
@[simp] theorem State.setDir_warm : (s.setDir n d).warm = s.warm := rfl
@[simp] theorem State.setDir_dbg : (s.setDir n d).dbg = s.dbg := rfl
@[simp] theorem State.setDir_freeCount : (s.setDir n d).freeCount = s.freeCount := rfl

@[simp] theorem State.setDir_dir_self : (s.setDir n d).dir n = d := by simp [State.setDir, State.dir]
theorem State.setDir_dir : (s.setDir n d).dir k = if k = n then d else s.dir k := by
  simp only [State.setDir, State.dir, KMap.get_set]
theorem State.setDir_dir_ne (ne : k ≠ n) : (s.setDir n d).dir k = s.dir k := by simp [State.setDir_dir, ne]
@[simp] theorem State.setDir_setDir (d' : Dir) : (s.setDir n d).setDir n d' = s.setDir n d' := by simp [State.setDir]
@[simp] theorem State.setDir_hart : (s.setDir n d).hart k = s.hart k := rfl
@[simp] theorem State.setDir_core : (s.setDir n d).core k = s.core k := rfl
@[simp] theorem State.setDir_cluster : (s.setDir n d).cluster k = s.cluster k := rfl
@[simp] theorem State.setDir_slice : (s.setDir n d).slice k = s.slice k := rfl
@[simp] theorem State.setDir_qset : (s.setDir n d).qset k = s.qset k := rfl
end

/-! ### setQset -/

section
variable (s : State) (n k : Nat) (q : QSet)

@[simp] theorem State.setQset_cur : (s.setQset n q).cur = s.cur := rfl
@[simp] theorem State.setQset_agenda : (s.setQset n q).agenda = s.agenda := rfl
@[simp] theorem State.setQset_picks : (s.setQset n q).picks = s.picks := rfl
@[simp] theorem State.setQset_part : (s.setQset n q).part = s.part := rfl
@[simp] theorem State.setQset_harts : (s.setQset n q).harts = s.harts := rfl
@[simp] theorem State.setQset_cores : (s.setQset n q).cores = s.cores := rfl
@[simp] theorem State.setQset_clusters : (s.setQset n q).clusters = s.clusters := rfl
@[simp] theorem State.setQset_slices : (s.setQset n q).slices = s.slices := rfl
@[simp] theorem State.setQset_dirs : (s.setQset n q).dirs = s.dirs := rfl
@[simp] theorem State.setQset_dirBuf : (s.setQset n q).dirBuf = s.dirBuf := rfl
@[simp] theorem State.setQset_mem : (s.setQset n q).mem = s.mem := rfl
@[simp] theorem State.setQset_memPoison : (s.setQset n q).memPoison = s.memPoison := rfl
@[simp] theorem State.setQset_hbase : (s.setQset n q).hbase = s.hbase := rfl
@[simp] theorem State.setQset_online : (s.setQset n q).online = s.online := rfl
@[simp] theorem State.setQset_log : (s.setQset n q).log = s.log := rfl
@[simp] theorem State.setQset_seq : (s.setQset n q).seq = s.seq := rfl
@[simp] theorem State.setQset_cycle : (s.setQset n q).cycle = s.cycle := rfl
@[simp] theorem State.setQset_time : (s.setQset n q).time = s.time := rfl
@[simp] theorem State.setQset_tfrac : (s.setQset n q).tfrac = s.tfrac := rfl
@[simp] theorem State.setQset_mhz : (s.setQset n q).mhz = s.mhz := rfl
@[simp] theorem State.setQset_sealTable : (s.setQset n q).sealTable = s.sealTable := rfl
@[simp] theorem State.setQset_seals : (s.setQset n q).seals = s.seals := rfl
@[simp] theorem State.setQset_parts : (s.setQset n q).parts = s.parts := rfl
@[simp] theorem State.setQset_plays : (s.setQset n q).plays = s.plays := rfl
@[simp] theorem State.setQset_dieqs : (s.setQset n q).dieqs = s.dieqs := rfl
@[simp] theorem State.setQset_combine : (s.setQset n q).combine = s.combine := rfl
@[simp] theorem State.setQset_kicks : (s.setQset n q).kicks = s.kicks := rfl
@[simp] theorem State.setQset_ptab : (s.setQset n q).ptab = s.ptab := rfl
@[simp] theorem State.setQset_targets : (s.setQset n q).targets = s.targets := rfl
@[simp] theorem State.setQset_serving : (s.setQset n q).serving = s.serving := rfl
@[simp] theorem State.setQset_kept : (s.setQset n q).kept = s.kept := rfl
@[simp] theorem State.setQset_qslots : (s.setQset n q).qslots = s.qslots := rfl
@[simp] theorem State.setQset_evicted : (s.setQset n q).evicted = s.evicted := rfl
@[simp] theorem State.setQset_qtable : (s.setQset n q).qtable = s.qtable := rfl
@[simp] theorem State.setQset_svcs : (s.setQset n q).svcs = s.svcs := rfl
@[simp] theorem State.setQset_faults : (s.setQset n q).faults = s.faults := rfl
@[simp] theorem State.setQset_faultOver : (s.setQset n q).faultOver = s.faultOver := rfl
@[simp] theorem State.setQset_faultWindow : (s.setQset n q).faultWindow = s.faultWindow := rfl
@[simp] theorem State.setQset_waitTimeout : (s.setQset n q).waitTimeout = s.waitTimeout := rfl
@[simp] theorem State.setQset_cycles : (s.setQset n q).cycles = s.cycles := rfl
@[simp] theorem State.setQset_transit : (s.setQset n q).transit = s.transit := rfl
@[simp] theorem State.setQset_issued : (s.setQset n q).issued = s.issued := rfl
@[simp] theorem State.setQset_symbols : (s.setQset n q).symbols = s.symbols := rfl
@[simp] theorem State.setQset_beats : (s.setQset n q).beats = s.beats := rfl
@[simp] theorem State.setQset_ranges : (s.setQset n q).ranges = s.ranges := rfl
@[simp] theorem State.setQset_threadStacks : (s.setQset n q).threadStacks = s.threadStacks := rfl
@[simp] theorem State.setQset_bases : (s.setQset n q).bases = s.bases := rfl
@[simp] theorem State.setQset_glenal : (s.setQset n q).glenal = s.glenal := rfl
@[simp] theorem State.setQset_outside : (s.setQset n q).outside = s.outside := rfl
@[simp] theorem State.setQset_host : (s.setQset n q).host = s.host := rfl
@[simp] theorem State.setQset_flash : (s.setQset n q).flash = s.flash := rfl
@[simp] theorem State.setQset_meas : (s.setQset n q).meas = s.meas := rfl
@[simp] theorem State.setQset_tempPeak : (s.setQset n q).tempPeak = s.tempPeak := rfl
@[simp] theorem State.setQset_tempLow : (s.setQset n q).tempLow = s.tempLow := rfl
@[simp] theorem State.setQset_clearSince : (s.setQset n q).clearSince = s.clearSince := rfl
@[simp] theorem State.setQset_doubleTraps : (s.setQset n q).doubleTraps = s.doubleTraps := rfl
@[simp] theorem State.setQset_trapTimes : (s.setQset n q).trapTimes = s.trapTimes := rfl
@[simp] theorem State.setQset_warm : (s.setQset n q).warm = s.warm := rfl
@[simp] theorem State.setQset_dbg : (s.setQset n q).dbg = s.dbg := rfl
@[simp] theorem State.setQset_freeCount : (s.setQset n q).freeCount = s.freeCount := rfl

@[simp] theorem State.setQset_qset_self : (s.setQset n q).qset n = q := by simp [State.setQset, State.qset]
@[simp] theorem State.setQset_setQset (q' : QSet) : (s.setQset n q).setQset n q' = s.setQset n q' := by simp [State.setQset]
@[simp] theorem State.setQset_hart : (s.setQset n q).hart k = s.hart k := rfl
@[simp] theorem State.setQset_core : (s.setQset n q).core k = s.core k := rfl
@[simp] theorem State.setQset_cluster : (s.setQset n q).cluster k = s.cluster k := rfl
@[simp] theorem State.setQset_slice : (s.setQset n q).slice k = s.slice k := rfl
@[simp] theorem State.setQset_dir : (s.setQset n q).dir k = s.dir k := rfl
end

end Sys2Proof.Machine
end

