-- ==== Sys2Proof/Laws/Run.lean ====
section
/-!
SUPPORT. Running the actions of an instruction, register reads and writes of a hart with no bound stream, and the frame
around an instruction of a free hart or of a director core.
-/

namespace Sys2Proof.Machine

open Sys2Proof.Safety

/-! ### Actions -/

@[simp] theorem Ins.bind_run {α β : Type} (x : Ins α) (f : α → Ins β) (s : State) :
    (x >>= f) s = match (x s).1 with
      | .ok a => f a (x s).2
      | .error e => (.error e, (x s).2) := by
  show (ExceptT.bind x f : Ins β) s = _
  unfold ExceptT.bind ExceptT.mk ExceptT.bindCont
  show (StateT.bind x _ : StateM State _) s = _
  unfold StateT.bind
  rcases h : x s with ⟨a | a, t⟩ <;> rfl

@[simp] theorem Ins.map_run {α β : Type} (f : α → β) (x : Ins α) (s : State) :
    (f <$> x) s = match (x s).1 with
      | .ok a => (.ok (f a), (x s).2)
      | .error e => (.error e, (x s).2) := by
  show (ExceptT.map f x : Ins β) s = _
  unfold ExceptT.map ExceptT.mk
  show (StateT.bind x _ : StateM State _) s = _
  unfold StateT.bind
  rcases h : x s with ⟨a | a, t⟩ <;> rfl

@[simp] theorem Ins.pure_run {α : Type} (a : α) (s : State) : (pure a : Ins α) s = (.ok a, s) := rfl
@[simp] theorem Ins.throw_run {α : Type} (e : Stop) (s : State) : (throw e : Ins α) s = (.error e, s) := rfl
@[simp] theorem Ins.stop_run {α : Type} (e : Stop) (s : State) : (Ins.stop e : Ins α) s = (.error e, s) := rfl
@[simp] theorem Ins.trap_run {α : Type} (c v : Nat) (s : State) : (Ins.trap c v : Ins α) s = (.error (.trap c v), s) := rfl
@[simp] theorem Ins.exc_run {α : Type} (c v : Nat) (s : State) : (Ins.exc c v : Ins α) s = (.error (.exc c v), s) := rfl
@[simp] theorem Ins.get_run {α : Type} (f : State → α) (s : State) : Ins.get f s = (.ok (f s), s) := rfl
@[simp] theorem Ins.upd_run (f : State → State) (s : State) : Ins.upd f s = (.ok (), f s) := rfl
@[simp] theorem Ins.act_run {α : Type} (f : State → α × State) (s : State) : Ins.act f s = (.ok (f s).1, (f s).2) := rfl
@[simp] theorem Ins.ite_run {α : Type} (b : Prop) [Decidable b] (x y : Ins α) (s : State) :
    (if b then x else y) s = if b then x s else y s := by split <;> rfl
@[simp] theorem Ins.deny_false_run (c v : Nat) (s : State) : Ins.deny false c v s = (.ok (), s) := rfl
@[simp] theorem Ins.deny_true_run (c v : Nat) (s : State) : Ins.deny true c v s = (.error (.trap c v), s) := rfl
@[simp] theorem Ins.need_true_run (c v : Nat) (s : State) : Ins.need true c v s = (.ok (), s) := rfl
@[simp] theorem Ins.need_false_run (c v : Nat) (s : State) : Ins.need false c v s = (.error (.trap c v), s) := rfl
@[simp] theorem hartOf_run (n : Nat) (s : State) : hartOf n s = (.ok (s.hart n), s) := rfl
@[simp] theorem setHartOf_run (n : Nat) (f : Hart → Hart) (s : State) : setHartOf n f s = (.ok (), s.setHart n (f (s.hart n))) := rfl
@[simp] theorem dirOf_run (d : Nat) (s : State) : dirOf d s = (.ok (s.dir d), s) := rfl
@[simp] theorem setDirOf_run (d : Nat) (f : Dir → Dir) (s : State) : setDirOf d f s = (.ok (), s.setDir d (f (s.dir d))) := rfl

/-! ### Streams that are not bound -/

/-- No stream of the hart is bound. -/
def Hart.Unbound (h : Hart) : Prop := ∀ p ∈ h.streams, p.2.act = false

theorem Hart.bound_none {h : Hart} (u : h.Unbound) (v : Bool) (r : Reg) : h.bound v r = none := by
  unfold Hart.bound
  rw [List.find?_eq_none]
  intro p hp
  simp [u p hp]

theorem Hart.boundWrite_none {h : Hart} (u : h.Unbound) (v : Bool) (r : Reg) : h.boundWrite v r = none := by
  simp [Hart.boundWrite, Hart.bound_none u]

theorem Hart.boundRead_none {h : Hart} (u : h.Unbound) (v : Bool) (r : Reg) : h.boundRead v r = none := by
  simp [Hart.boundRead, Hart.bound_none u]

theorem Hart.popped_nil {h : Hart} (u : h.Unbound) (i : Instr) : h.popped i = [] := by
  unfold Hart.popped
  split
  · rfl
  · rw [List.filter_eq_nil_iff]
    intro p hp
    simp [u p hp]

theorem popSources_unbound {s : State} {n : Nat} (u : (s.hart n).Unbound) (i : Instr) : popSources n i s = (.ok (), s) := by
  simp [popSources, Hart.popped_nil u]

theorem illegalFirst_unbound {s : State} {n : Nat} (u : (s.hart n).Unbound) (i : Instr) (body : Nat → Ins Ctl) :
    illegalFirst n i body s = false := by
  simp [illegalFirst, Hart.popped_nil u]

@[simp] theorem State.popEnd_nil (s : State) (n : Nat) : s.popEnd n [] = s := rfl

/-! ### Register reads -/

theorem readX_run {s : State} {n : Nat} (u : (s.hart n).Unbound) {r : Reg} (h : (s.hart n).xReads r) :
    ∃ g, readX n r s = (.ok ⟨(s.hart n).xVal r, g, (s.hart n).xPois r⟩, s) := by
  by_cases h0 : r = 0#5
  · exact ⟨0, by simp [readX, Hart.xVal, Hart.xPois, h0]⟩
  · by_cases hl : (s.hart n).xLive r = true
    · exact ⟨(KMap.get {} (s.hart n).x r.toNat).gen, by
        simp [readX, Hart.boundWrite_none u, Hart.xVal, Hart.xPois, h0, hl, bne_iff_ne.mpr h0]⟩
    · have hr : (s.hart n).regTraps = false := by
        rcases h with h | h | h
        · exact absurd h h0
        · exact absurd h hl
        · exact h
      exact ⟨0, by simp [readX, Hart.boundWrite_none u, Hart.xVal, Hart.xPois, h0, hl, hr]⟩

theorem useX_run {s : State} {n : Nat} (u : (s.hart n).Unbound) {r : Reg} (h : (s.hart n).xUse r) :
    useX n r s = (.ok ((s.hart n).xVal r), s) := by
  obtain ⟨g, e⟩ := readX_run u h.1
  simp [useX, e, h.2]

theorem useX2_run {s : State} {n : Nat} (u : (s.hart n).Unbound) {r q : Reg} (h : (s.hart n).xUse r) (k : (s.hart n).xUse q) :
    useX2 n r q s = (.ok ((s.hart n).xVal r, (s.hart n).xVal q), s) := by
  obtain ⟨g, e⟩ := readX_run u h.1
  obtain ⟨g', e'⟩ := readX_run u k.1
  simp [useX2, e, e', h.2, k.2]

theorem readV_run {s : State} {n : Nat} (u : (s.hart n).Unbound) {r : Reg} (h : (s.hart n).vReads r) :
    ∃ g f, readV n r s = (.ok ⟨(s.hart n).vVal r, g, (s.hart n).vPois r, f⟩, s) ∧ f.toNat = (s.hart n).vFmt r := by
  by_cases hl : (s.hart n).vLive r = true
  · exact ⟨(KMap.get {} (s.hart n).v r.toNat).gen, (KMap.get {} (s.hart n).v r.toNat).fmt, by
      simp [readV, Hart.boundWrite_none u, Hart.vVal, Hart.vPois, hl], by simp [Hart.vFmt, hl]⟩
  · have hr : (s.hart n).regTraps = false := h.resolve_left hl
    exact ⟨0, 0, by simp [readV, Hart.boundWrite_none u, Hart.vVal, Hart.vPois, hl, hr], by simp [Hart.vFmt, hl]⟩

theorem readVAs_run {s : State} {n : Nat} (u : (s.hart n).Unbound) {r : Reg} {tags : List Nat} (h : (s.hart n).vUse r tags) :
    ∃ g f, readVAs n r tags s = (.ok ⟨(s.hart n).vVal r, g, (s.hart n).vPois r, f⟩, s) ∧ f.toNat = (s.hart n).vFmt r := by
  obtain ⟨g, f, e, hf⟩ := readV_run u h.1
  refine ⟨g, f, ?_, hf⟩
  have hc : (f ≠ 0 && !tags.contains f.toNat) = false := by
    rcases h.2 with h0 | h0
    · have : f = 0 := BitVec.eq_of_toNat_eq (by rw [hf, h0]; rfl)
      simp [this]
    · simp [hf, h0]
  simp only [readVAs, Ins.bind_run, e, hc]
  rfl

theorem readM_run {s : State} {n : Nat} {m : BitVec 3} (h : (s.hart n).mReads ((0 : BitVec 2) ++ m)) :
    ∃ g, readM n m s = (.ok ⟨(s.hart n).mVal ((0 : BitVec 2) ++ m), g, (s.hart n).mPois ((0 : BitVec 2) ++ m)⟩, s) := by
  unfold readM
  generalize ((0 : BitVec 2) ++ m) = r at h ⊢
  by_cases h0 : r = 0#5
  · exact ⟨(s.hart n).rgen, by simp [Hart.mVal, Hart.mPois, h0]⟩
  · by_cases hl : (s.hart n).mLive r = true
    · exact ⟨(KMap.get {} (s.hart n).m r.toNat).gen, by simp [Hart.mVal, Hart.mPois, h0, hl, bne_iff_ne.mpr h0]⟩
    · have hr : (s.hart n).regTraps = false := by
        rcases h with h | h | h
        · exact absurd h h0
        · exact absurd h hl
        · exact h
      exact ⟨0, by simp [Hart.mVal, Hart.mPois, h0, hl, hr]⟩

/-! ### Register writes -/

theorem Hart.putX_streams (h : Hart) (r : Reg) (v : Word) (p : Bool) : (h.putX r v p).streams = h.streams := by
  unfold Hart.putX; split <;> rfl
theorem Hart.putX_pc (h : Hart) (r : Reg) (v : Word) (p : Bool) : (h.putX r v p).pc = h.pc := by
  unfold Hart.putX; split <;> rfl
@[simp] theorem Hart.putX_role (h : Hart) (r : Reg) (v : Word) (p : Bool) : (h.putX r v p).role = h.role := by
  unfold Hart.putX; split <;> rfl
@[simp] theorem Hart.putV_role (h : Hart) (r : Reg) (v : Vec) (f : BitVec 4) (p : Bool) : (h.putV r v f p).role = h.role := rfl
@[simp] theorem Hart.putM_role (h : Hart) (r : Reg) (v : Word) (p : Bool) : (h.putM r v p).role = h.role := by
  unfold Hart.putM; split <;> rfl
theorem Hart.putM_streams (h : Hart) (r : Reg) (v : Word) (p : Bool) : (h.putM r v p).streams = h.streams := by
  unfold Hart.putM; split <;> rfl

theorem State.setX_unbound {s : State} {n : Nat} (u : (s.hart n).Unbound) (r : Reg) (v : Word) (p : Bool) :
    ((s.setX n r v p).hart n).Unbound := by
  unfold State.setX
  split
  · exact u
  · simpa [Hart.Unbound, Hart.putX_streams] using u

theorem writeXP_run {s : State} {n : Nat} (u : (s.hart n).Unbound) (r : Reg) (v : Word) (p : Bool) :
    writeXP n r v p s = (.ok (), s.setX n r v p) := by
  by_cases h0 : r = 0#5 <;> simp [writeXP, Hart.bound_none u, h0, State.setX]

theorem writeX_run {s : State} {n : Nat} (u : (s.hart n).Unbound) (r : Reg) (v : Word) :
    writeX n r v s = (.ok (), s.setX n r v false) := writeXP_run u r v false

theorem writeV_run {s : State} {n : Nat} (u : (s.hart n).Unbound) (r : Reg) (x : VReg) :
    writeV n r x s = (.ok (), s.setHart n ((s.hart n).putV r x.val x.fmt x.poison)) := by
  simp [writeV, Hart.bound_none u]

/-- A loop of actions that each complete, under an invariant. -/
theorem forM_run {α : Type} {I : State → Prop} {f : α → Ins Unit} {g : State → α → State}
    (h : ∀ s a, I s → f a s = (.ok (), g s a) ∧ I (g s a)) : ∀ (l : List α) (s : State), I s →
    l.forM f s = (.ok (), l.foldl g s) ∧ I (l.foldl g s)
  | [], s, hs => ⟨rfl, hs⟩
  | a :: t, s, hs => by
    obtain ⟨e, hi⟩ := h s a hs
    obtain ⟨e2, hi2⟩ := forM_run h t _ hi
    refine ⟨?_, hi2⟩
    show (f a >>= fun _ => t.forM f) s = _
    rw [Ins.bind_run, e]
    exact e2

/-- A result of a hart with no bound stream is given at once, or becomes a pending one. -/
theorem commit_run {s : State} {n : Nat} (u : (s.hart n).Unbound) (i : Instr) (p : Pending) :
    commit n i p s = (.ok (), s.gave n i p) := by
  have hw : (s.hart n).window i = (optsOf i).window := by
    unfold Hart.window
    split
    · rename_i hh
      rw [List.any_eq_true] at hh
      obtain ⟨d, -, hd⟩ := hh
      cases d <;> simp [Hart.boundWrite_none u] at hd
    · rfl
  by_cases h0 : (optsOf i).window = 0
  · let I : State → Prop := fun s => (s.hart n).Unbound
    obtain ⟨e1, u1⟩ := forM_run (I := I) (f := fun (q : Reg × XReg) => writeXP n q.1 q.2.val q.2.poison)
      (fun s q hs => ⟨writeXP_run hs q.1 q.2.val q.2.poison, State.setX_unbound hs _ _ _⟩) p.xs s u
    obtain ⟨e2, u2⟩ := forM_run (I := I) (f := fun (q : Reg × VReg) => writeV n q.1 q.2)
      (g := fun s q => s.setHart n ((s.hart n).putV q.1 q.2.val q.2.fmt q.2.poison))
      (fun s q hs => ⟨writeV_run hs q.1 q.2, by simpa [I, Hart.Unbound, Hart.putV] using hs⟩) p.vs _ u1
    obtain ⟨e3, -⟩ := forM_run (I := I) (f := fun (q : Reg × XReg) => writeM n q.1 q.2)
      (g := fun s q => s.setHart n ((s.hart n).putM q.1 q.2.val q.2.poison))
      (fun s q hs => ⟨by simp [writeM], by simpa [I, Hart.Unbound, Hart.putM_streams] using hs⟩) p.ms _ u2
    simp only [commit, Ins.bind_run, hartOf_run, hw, h0, State.gave, State.wrote, Ins.ite_run, if_true, e1, e2, e3,
      hartStores, Ins.upd_run]
    by_cases he : p.events = 0#5 <;> by_cases hc : p.closes = true <;> simp [he, hc]
  · simp [commit, hw, h0, State.gave]

/-! ### The frame around an instruction -/

theorem Free.unbound {s : State} {n : Nat} (f : Free s n) : (s.hart n).Unbound := f.2.2.2.2.2

/-- An instruction of a free hart whose body completes: its effect, then the retirement (R133). -/
theorem runHart_ok {s t : State} {n : Nat} {i : Instr} {body : Nat → Ins Ctl} {c : Ctl} (f : Free s n)
    (ci : i.onCompute = true) (e : body n s = (.ok c, t)) (r : ((t.hart n).retire i c).role = .solo) :
    runHart n i body s = t.setHart n ((t.hart n).retire i c) := by
  obtain ⟨-, -, hrun, hrole, hp, hu⟩ := f
  have hm : (s.hart n).members = [] := by simp [Hart.members, hrole]
  have hm' : (t.setHart n ((t.hart n).retire i c)).followed n = t.setHart n ((t.hart n).retire i c) := by
    simp [State.followed, r]
  simp [runHart, hm, hp, State.completeWhere, hrun, runOn, ci, popSources_unbound hu, Hart.popped_nil hu, illegalFirst_unbound hu, e, hm']

/-- One that traps: the trap is taken with the pc of the instruction. -/
theorem runHart_trap {s t : State} {n : Nat} {i : Instr} {body : Nat → Ins Ctl} {c v : Nat} (f : Free s n)
    (ci : i.onCompute = true) (e : body n s = (.error (.trap c v), t)) :
    runHart n i body s = t.takeTrap n c v (s.hart n).pc := by
  obtain ⟨-, -, hrun, hrole, hp', hu⟩ := f
  have hm : (s.hart n).members = [] := by simp [Hart.members, hrole]
  simp [runHart, hm, hp', State.completeWhere, State.completeAll, hrun, runOn, ci, popSources_unbound hu, Hart.popped_nil hu,
    illegalFirst_unbound hu, e]

theorem runBoth_hart {s : State} {n : Nat} (f : Free s n) (i : Instr) (body : Agent → Ins Ctl) :
    runBoth i body s = .next (runHart n i (fun n => body (.hart n)) s) := by
  simp [runBoth, f.1, Agent.ok, f.2.1]

theorem runCompute_hart {s : State} {n : Nat} (f : Free s n) (i : Instr) (body : Nat → Ins Ctl) :
    runCompute i body s = .next (runHart n i body s) := by
  simp [runCompute, runBoth_hart f]

theorem runBoth_dir {s : State} {d : Nat} (f : FreeDir s d) (i : Instr) (body : Agent → Ins Ctl) :
    runBoth i body s = .next (runDir d i (fun d => body (.dir d)) s) := by
  simp [runBoth, f.1, Agent.ok, f.2]

theorem runDirector_dir {s : State} {d : Nat} (f : FreeDir s d) (i : Instr) (body : Nat → Ins Ctl) :
    runDirector i body s = .next (runDir d i body s) := by
  simp [runDirector, runBoth_dir f]

theorem runDir_ok {s t : State} {d : Nat} {i : Instr} {body : Nat → Ins Ctl} {c : Ctl}
    (ci : i.onDirector = true) (e : body d s = (.ok c, t)) :
    runDir d i body s = t.setDir d ((t.dir d).retire i c) := by
  simp [runDir, ci, e]

theorem runDir_exc {s t : State} {d : Nat} {i : Instr} {body : Nat → Ins Ctl} {c v : Nat}
    (ci : i.onDirector = true) (e : body d s = (.error (.exc c v), t)) :
    runDir d i body s = t.takeExc d c v (s.dir d).pc := by
  simp [runDir, ci, e]

@[simp] theorem Hart.retire_role (h : Hart) (i : Instr) (c : Ctl) : (h.retire i c).role = h.role := by
  unfold Hart.retire
  cases c with
  | seq skip =>
    simp only [Hart.evalLoops]
    repeat' split
    all_goals rfl
  | jump t => rfl
  | gone => rfl

end Sys2Proof.Machine
end

