-- ==== Sys2Proof/Laws/Roles.lean ====
section
/-!
SUPPORT. The operations an instruction is built from keep every hart's place in a chorus (R139), except that a park ends
it (R142); and the completion of an instruction of a free hart.
-/

namespace Sys2Proof.Machine

open Sys2Proof.Safety

/-- Every hart has the role it had. -/
def RolesKept (s t : State) : Prop := ∀ m, (t.hart m).role = (s.hart m).role

theorem RolesKept.refl (s : State) : RolesKept s s := fun _ => rfl
theorem RolesKept.trans {s t u : State} (a : RolesKept s t) (b : RolesKept t u) : RolesKept s u :=
  fun m => (b m).trans (a m)

theorem rolesKept_of_harts {s t : State} (h : t.harts = s.harts) : RolesKept s t := fun m => by simp [State.hart, h]

theorem rolesKept_setHart {s : State} {n : Nat} {h : Hart} (e : h.role = (s.hart n).role) : RolesKept s (s.setHart n h) := by
  intro m
  rw [State.setHart_hart]
  split
  · next k => rw [k, e]
  · rfl

theorem rolesKept_setCore (s : State) (k : Nat) (c : Core) : RolesKept s (s.setCore k c) := rolesKept_of_harts (by simp)
theorem rolesKept_setCluster (s : State) (k : Nat) (c : Cluster) : RolesKept s (s.setCluster k c) := rolesKept_of_harts (by simp)
theorem rolesKept_setDir (s : State) (k : Nat) (c : Dir) : RolesKept s (s.setDir k c) := rolesKept_of_harts (by simp)

theorem rolesKept_foldl {α : Type} {f : State → α → State} (h : ∀ s a, RolesKept s (f s a)) :
    ∀ (l : List α) (s : State), RolesKept s (l.foldl f s)
  | [], s => RolesKept.refl s
  | a :: t, s => (h s a).trans (rolesKept_foldl h t (f s a))

theorem rolesKept_setX (s : State) (n : Nat) (r : Reg) (v : Word) (p : Bool) : RolesKept s (s.setX n r v p) := by
  unfold State.setX
  split
  · exact RolesKept.refl s
  · exact rolesKept_setHart (by simp)

theorem rolesKept_writeHome (s : State) (w : Writer) (m : Nat) (p : Option Nat) (b : Bool) (c : Chunk) :
    RolesKept s (s.writeHome w m p b c) := by
  apply rolesKept_of_harts
  unfold State.writeHome
  repeat' split
  all_goals rfl

theorem rolesKept_publishEntry (s : State) (w : Writer) (k : Nat) (e : SbEntry) : RolesKept s (s.publishEntry w k e) := by
  apply rolesKept_of_harts
  unfold State.publishEntry
  repeat' split
  all_goals rfl

theorem rolesKept_setPflow (s : State) (k : Nat) : RolesKept s (s.setPflow k) := by
  unfold State.setPflow
  apply rolesKept_foldl
  intro s j
  apply rolesKept_setHart
  rfl

theorem rolesKept_earlyPublish (s : State) (k : Nat) : RolesKept s (s.earlyPublish k) := by
  unfold State.earlyPublish
  split
  · exact RolesKept.refl s
  · dsimp only
    intro m
    rw [rolesKept_setPflow, rolesKept_publishEntry, State.setCore_hart]

theorem rolesKept_hartStore (s : State) (n : Nat) (c : Chunk) : RolesKept s (s.hartStore n c) := by
  unfold State.hartStore
  split
  · exact rolesKept_writeHome _ _ _ _ _ _
  · dsimp only
    split
    · exact (rolesKept_earlyPublish _ _).trans (rolesKept_setCore _ _ _)
    · exact rolesKept_setCore _ _ _

theorem rolesKept_accWrite (s : State) (k : Nat) (c : Chunk) : RolesKept s (s.accWrite k c) := by
  apply rolesKept_of_harts
  unfold State.accWrite
  dsimp only
  repeat' split
  all_goals rfl

theorem rolesKept_capture (s : State) (n : Nat) (l : List WriteRec) : RolesKept s (s.capture (.hart n) l) := by
  unfold State.capture
  dsimp only [State.setView, State.setCaptured]
  refine RolesKept.trans (rolesKept_setHart ?_) (rolesKept_setHart ?_) <;> rfl

theorem rolesKept_maskWrites (s : State) (n : Nat) (cs : List Chunk) : RolesKept s (s.maskWrites n cs) := by
  unfold State.maskWrites
  split
  · exact RolesKept.refl s
  · exact (rolesKept_foldl (fun _ _ => rolesKept_writeHome _ _ _ _ _ _) _ _).trans (rolesKept_capture _ _ _)

theorem rolesKept_setBox (s : State) (r : Nat) (b : Box) : RolesKept s (s.setBox r b) := by
  unfold State.setBox
  split
  · exact rolesKept_setDir _ _ _
  · apply rolesKept_setHart; rfl

theorem rolesKept_accept {s t : State} {r keep : Nat} {e : Entry} (h : s.accept r keep e = some t) : RolesKept s t := by
  unfold State.accept at h
  rw [Option.map_eq_some_iff] at h
  obtain ⟨b, -, rfl⟩ := h
  exact rolesKept_setBox _ _ _

theorem rolesKept_post (s : State) (a r : Nat) (e : Entry) : RolesKept s (s.post a r e) := by
  unfold State.post
  dsimp only
  split
  · exact rolesKept_of_harts rfl
  · cases h : s.accept r 0 e with
    | none => exact rolesKept_of_harts rfl
    | some t => exact rolesKept_accept h

/-! ### What reads and writes at the home leave of the harts -/

theorem choose_harts (s : State) (n : Nat) : (s.choose n).2.harts = s.harts := by unfold State.choose; split <;> rfl

theorem engineGran_harts (s : State) (w : Writer) (loc : Nat) : (s.engineGran w loc).2.harts = s.harts := by
  unfold State.engineGran; exact choose_harts _ _

theorem walk_harts (l : Nat) : ∀ (s : State) (t v : Nat), (walk l s t v).2.harts = s.harts := by
  induction l with
  | zero =>
    intro s t v
    unfold walk
    have e := engineGran_harts s .host (locMem ((t + 8 * (v / 2 ^ (12 + 9 * 0) % 512)) / 32))
    dsimp only [State.readPte]
    split <;> exact e
  | succ l ih =>
    intro s t v
    unfold walk
    have e := engineGran_harts s .host (locMem ((t + 8 * (v / 2 ^ (12 + 9 * (l + 1)) % 512)) / 32))
    dsimp only [State.readPte]
    split
    · exact e
    · rw [ih]; exact e
    · exact e

theorem tlbPut_harts (s : State) (t : List TlbEntry) (c : Nat) (e : TlbEntry) : (s.tlbPut t c e).2.harts = s.harts := by
  unfold State.tlbPut; split
  · rfl
  · exact choose_harts _ _

theorem lookup_harts (s : State) (c : Nat) (r : Word) (own : Nat → Bool) (va : Nat) (k : Acc) :
    (s.lookup c r own va k).2.harts = s.harts := by
  unfold State.lookup
  dsimp only
  split
  · rfl
  · split
    · split
      · simp [tlbPut_harts]
      · rfl
    · have e := walk_harts 4 s r.toNat (va57 va)
      split
      · exact e
      · split
        · simp [tlbPut_harts, e]
        · exact e

theorem translate_harts (s : State) (c va : Nat) (k : Acc) : (s.translate c va k).2.harts = s.harts := by
  unfold State.translate
  split
  · rfl
  · exact lookup_harts _ _ _ _ _ _

theorem homePlace_harts (s : State) (c va : Nat) (k : Acc) : (s.homePlace c va k).2.harts = s.harts := by
  unfold State.homePlace
  split
  · rfl
  · exact translate_harts _ _ _ _
  · rfl

theorem writeHome_harts (s : State) (w : Writer) (m : Nat) (p : Option Nat) (b : Bool) (c : Chunk) :
    (s.writeHome w m p b c).harts = s.harts := by
  unfold State.writeHome
  repeat' split
  all_goals rfl

theorem homeRecord_harts (s : State) (c va : Nat) : (s.homeRecord c va).2.harts = s.harts := by
  unfold State.homeRecord
  dsimp only
  split <;> simp only [homePlace_harts]

theorem homeWrite_harts (s : State) (c va : Nat) (b : List Byte) : (s.homeWrite c va b).harts = s.harts := by
  unfold State.homeWrite
  dsimp only
  split <;> simp only [homePlace_harts, writeHome_harts]

theorem rolesKept_unpin (s : State) (p : Option (Nat × Word)) : RolesKept s (s.unpin p) := by
  unfold State.unpin
  split
  · exact RolesKept.refl s
  · next n cue =>
    dsimp only
    generalize hp : List.filter (fun (q : Pin) => q.count != 0) _ = pins
    have e : RolesKept s (s.setHart n { s.hart n with pins := pins }) := rolesKept_setHart rfl
    split
    · exact e
    · refine e.trans (rolesKept_of_harts ?_)
      split
      · split
        · rw [homeWrite_harts, homeRecord_harts]
        · exact homeRecord_harts _ _ _
      · exact homeRecord_harts _ _ _

theorem rolesKept_closeSession (s : State) (n : Nat) : RolesKept s (s.closeSession n) := by
  unfold State.closeSession
  dsimp only
  split
  · split
    · refine RolesKept.trans (RolesKept.trans (rolesKept_setHart (n := n) ?_) (rolesKept_setCluster _ _ _)) (rolesKept_unpin _ _)
      rfl
    · exact RolesKept.refl s
  · exact RolesKept.refl s

/-- A hart that belongs to no chorus has none to disband. -/
theorem disband_solo {s : State} {n : Nat} (h : (s.hart n).role = .solo) : s.disband n = s := by
  simp [State.disband, h]

theorem park_role {s : State} {n : Nat} (h : (s.hart n).role = .solo) (pc : Word) (ev : BitVec 5) :
    ((s.park n pc ev).hart n).role = .solo := by
  have hp := (rolesKept_post s n (s.hart n).fpsup.toNat
    { payload := eventPayload pc ev (s.hart n).venab, side := sideWord 7 0 0 n } n).trans h
  have key : ∀ t : State, (t.hart n).role = .solo →
      ((t.setHart n { t.hart n with run := .parked pc ev }).hart n).role = .solo := by
    intro t ht; simpa using ht
  unfold State.park
  dsimp only
  rw [disband_solo hp]
  split
  · exact key _ hp
  · exact key _ hp

theorem raiseEvents_role {s : State} {n : Nat} (h : (s.hart n).role = .solo) (pc : Word) (ev : BitVec 5) :
    ((s.raiseEvents n pc ev).hart n).role = .solo := by
  have h' : ((s.setHart n { s.hart n with vflags := (s.hart n).vflags ||| ev }).hart n).role = .solo := by simpa using h
  unfold State.raiseEvents
  dsimp only
  split
  · exact park_role h' _ _
  · exact h'

theorem wrote_role {s : State} {n : Nat} (h : (s.hart n).role = .solo) (p : Pending) : ((s.wrote n p).hart n).role = .solo := by
  have e1 := rolesKept_foldl (fun s (q : Reg × XReg) => rolesKept_setX s n q.1 q.2.val q.2.poison) p.xs s
  have e2 := rolesKept_foldl (f := fun s (q : Reg × VReg) => s.setHart n ((s.hart n).putV q.1 q.2.val q.2.fmt q.2.poison))
    (fun s q => rolesKept_setHart (by simp)) p.vs (p.xs.foldl (fun s q => s.setX n q.1 q.2.val q.2.poison) s)
  have e3 := rolesKept_foldl (f := fun s (q : Reg × XReg) => s.setHart n ((s.hart n).putM q.1 q.2.val q.2.poison))
    (fun s q => rolesKept_setHart (by simp)) p.ms
  have e4 := rolesKept_foldl (f := fun s c => State.hartStore s n c) (fun s c => rolesKept_hartStore s n c) p.stores
  have e5 := rolesKept_foldl (f := fun s c => State.accWrite s (hartCluster n) c) (fun s c => rolesKept_accWrite s _ c) p.accs
  have e6 := fun s => rolesKept_maskWrites s n p.engs
  have e7 : ∀ s : State, RolesKept s (if p.closes then s.closeSession n else s) := fun s => by
    split
    · exact rolesKept_closeSession s n
    · exact RolesKept.refl s
  unfold State.wrote
  dsimp only
  split
  · rw [e7, e6, e5, e4, e3, e2, e1, h]
  · apply raiseEvents_role
    rw [e7, e6, e5, e4, e3, e2, e1, h]

theorem gave_role {s : State} {n : Nat} (h : (s.hart n).role = .solo) (i : Instr) (p : Pending) :
    ((s.gave n i p).hart n).role = .solo := by
  unfold State.gave
  split
  · exact wrote_role h p
  · simpa using h

/-! ### Completion -/

/-- A body that completes on a free hart: the instruction has its effect and is retired. -/
theorem compute_done {s t : State} {n : Nat} {i : Instr} {body : Nat → Ins Ctl} {c : Ctl} (f : Free s n)
    (ci : i.onCompute = true) (e : body n s = (.ok c, t)) (r : (t.hart n).role = .solo) :
    runCompute i body s = .next (t.done n i c) := by
  rw [runCompute_hart f, runHart_ok f ci e (by simpa using r)]
  rfl

theorem both_done {s t : State} {n : Nat} {i : Instr} {body : Agent → Ins Ctl} {c : Ctl} (f : Free s n)
    (ci : i.onCompute = true) (e : body (.hart n) s = (.ok c, t)) (r : (t.hart n).role = .solo) :
    runBoth i body s = .next (t.done n i c) := by
  rw [runBoth_hart f, runHart_ok f ci (body := fun n => body (.hart n)) e (by simpa using r)]
  rfl

theorem both_done_dir {s t : State} {d : Nat} {i : Instr} {body : Agent → Ins Ctl} {c : Ctl} (f : FreeDir s d)
    (ci : i.onDirector = true) (e : body (.dir d) s = (.ok c, t)) :
    runBoth i body s = .next (t.doneDir d i c) := by
  rw [runBoth_dir f, runDir_ok ci (body := fun d => body (.dir d)) e]
  rfl

theorem director_done {s t : State} {d : Nat} {i : Instr} {body : Nat → Ins Ctl} {c : Ctl} (f : FreeDir s d)
    (ci : i.onDirector = true) (e : body d s = (.ok c, t)) :
    runDirector i body s = .next (t.doneDir d i c) := by
  rw [runDirector_dir f, runDir_ok ci e]
  rfl

/-- A body that ends in a result given by `commit`. -/
theorem compute_gave {s : State} {n : Nat} {i : Instr} {body : Nat → Ins Ctl} {p : Pending} {c : Ctl} (f : Free s n)
    (ci : i.onCompute = true) (e : body n s = (do commit n i p; pure c : Ins Ctl) s) :
    runCompute i body s = .next ((s.gave n i p).done n i c) := by
  apply compute_done f ci _ (gave_role f.2.2.2.1 i p)
  rw [e]
  simp [commit_run (Free.unbound f)]

end Sys2Proof.Machine
end

