-- ==== Sys2Proof/Laws/Access.lean ====
section
/-!
SUPPORT. What memory accesses leave of a hart: everything but its view, what it has captured, and pflow (R208, R210).
-/

namespace Sys2Proof.Machine

/-- A hart without what memory accesses move. -/
def Hart.apart (h : Hart) : Hart := { h with view := [], captured := [], pflow := false }

/-- Every hart is as it was, less what memory accesses move. -/
def HartsKept (s t : State) : Prop := ∀ m, (t.hart m).apart = (s.hart m).apart

theorem HartsKept.refl (s : State) : HartsKept s s := fun _ => rfl
theorem HartsKept.trans {s t u : State} (a : HartsKept s t) (b : HartsKept t u) : HartsKept s u := fun m => (b m).trans (a m)
theorem HartsKept.of_harts {s t : State} (h : t.harts = s.harts) : HartsKept s t := fun m => by simp [State.hart, h]

theorem HartsKept.of_setHart {s : State} {n : Nat} {h : Hart} (e : h.apart = (s.hart n).apart) : HartsKept s (s.setHart n h) := by
  intro m
  rw [State.setHart_hart]
  split
  · next k => rw [k, e]
  · rfl

theorem HartsKept.foldl {α : Type} {f : State → α → State} (h : ∀ s a, HartsKept s (f s a)) :
    ∀ (l : List α) (s : State), HartsKept s (l.foldl f s)
  | [], s => HartsKept.refl s
  | a :: t, s => (h s a).trans (HartsKept.foldl h t (f s a))

section
variable {s t : State} (k : HartsKept s t) (n : Nat)
include k
theorem HartsKept.streams : (t.hart n).streams = (s.hart n).streams := by
  have e := congrArg Hart.streams (k n)
  exact e
theorem HartsKept.role : (t.hart n).role = (s.hart n).role := by
  have e := congrArg Hart.role (k n)
  exact e
theorem HartsKept.pending : (t.hart n).pending = (s.hart n).pending := by
  have e := congrArg Hart.pending (k n)
  exact e
theorem HartsKept.x : (t.hart n).x = (s.hart n).x := by
  have e := congrArg Hart.x (k n)
  exact e
theorem HartsKept.v : (t.hart n).v = (s.hart n).v := by
  have e := congrArg Hart.v (k n)
  exact e
theorem HartsKept.m : (t.hart n).m = (s.hart n).m := by
  have e := congrArg Hart.m (k n)
  exact e
theorem HartsKept.rgen : (t.hart n).rgen = (s.hart n).rgen := by
  have e := congrArg Hart.rgen (k n)
  exact e
theorem HartsKept.pc : (t.hart n).pc = (s.hart n).pc := by
  have e := congrArg Hart.pc (k n)
  exact e
theorem HartsKept.house : (t.hart n).house = (s.hart n).house := by
  have e := congrArg Hart.house (k n)
  exact e
theorem HartsKept.gmode : (t.hart n).gmode = (s.hart n).gmode := by
  have e := congrArg Hart.gmode (k n)
  exact e
theorem HartsKept.run : (t.hart n).run = (s.hart n).run := by
  have e := congrArg Hart.run (k n)
  exact e
theorem HartsKept.unbound (u : (s.hart n).Unbound) : (t.hart n).Unbound := by unfold Hart.Unbound; rw [k.streams]; exact u
end

/-! ### Actions that keep a relation -/

/-- Whatever the action answers, the state after it stands in the relation to the state before. -/
def Ins.Keeps (R : State → State → Prop) {α : Type} (x : Ins α) : Prop := ∀ s, R s (x s).2

section
variable {R : State → State → Prop} (rfl' : ∀ s, R s s) (tr : ∀ s t u, R s t → R t u → R s u)
include rfl'
theorem Ins.Keeps.pure {α : Type} (a : α) : Ins.Keeps R (Pure.pure a : Ins α) := fun s => rfl' s
theorem Ins.Keeps.throw {α : Type} (e : Stop) : Ins.Keeps R (throw e : Ins α) := fun s => rfl' s
omit rfl' in
include tr in
theorem Ins.Keeps.bind {α β : Type} {x : Ins α} {f : α → Ins β} (hx : Ins.Keeps R x) (hf : ∀ a, Ins.Keeps R (f a)) :
    Ins.Keeps R (x >>= f) := by
  intro s
  rw [Ins.bind_run]
  split
  · exact tr _ _ _ (hx s) (hf _ _)
  · exact hx s
include tr in
theorem Ins.Keeps.mapM {α β : Type} {f : α → Ins β} (hf : ∀ a, Ins.Keeps R (f a)) (l : List α) : Ins.Keeps R (l.mapM f) := by
  induction l with
  | nil => exact Ins.Keeps.pure rfl' []
  | cons a t ih =>
    rw [List.mapM_cons]
    exact Ins.Keeps.bind tr (hf a) fun b => Ins.Keeps.bind tr ih fun bs => Ins.Keeps.pure rfl' _
end

/-! ### The accesses of a hart -/

theorem loadGran_kept (s : State) (n loc : Nat) : HartsKept s (s.loadGran (.hart n) loc).2 := by
  unfold State.loadGran
  dsimp only
  split
  · exact HartsKept.refl s
  · have e : ∀ j, (s.choose j).2.hart n = s.hart n := fun j => by simp [State.hart, choose_harts]
    intro m
    show ((State.setHart _ n _).hart m).apart = _
    rw [State.setHart_hart]
    split
    · next k => rw [k, e]; rfl
    · simp only [State.hart, choose_harts]

theorem hartPlace_kept (n : Nat) (k : Acc) (a : Nat) (p : Nat × Nat) : Ins.Keeps HartsKept (hartPlace n k a p) := by
  unfold hartPlace
  have rf := HartsKept.refl
  have tr : ∀ s t u, HartsKept s t → HartsKept t u → HartsKept s u := fun _ _ _ a b => a.trans b
  split
  · refine Ins.Keeps.bind tr (fun s => rf s) fun g => ?_
    split
    · exact Ins.Keeps.pure rf _
    · exact Ins.Keeps.throw rf _
  · have hact : Ins.Keeps HartsKept (Ins.act fun s => s.translate (hartCluster n) p.1 k) :=
      fun s => HartsKept.of_harts (translate_harts _ _ _ _)
    have hgo : Ins.Keeps HartsKept (do
        let root ← Ins.get fun s => s.rootOf (hartCluster n)
        match ← Ins.act fun s => s.translate (hartCluster n) p.1 k with
        | some pa => pure { loc := locMem (pa / 32), off := pa % 32, len := p.2, addr := p.1, page := (root, p.1 / 4096) }
        | none => .trap cPage p.1 : Ins Place) := by
      refine Ins.Keeps.bind tr (fun s => rf s) fun g => ?_
      refine Ins.Keeps.bind tr hact fun g => ?_
      split
      · exact Ins.Keeps.pure rf _
      · exact Ins.Keeps.throw rf _
    dsimp only
    split
    · exact Ins.Keeps.bind tr (Ins.Keeps.throw rf _) fun _ => hgo
    · exact hgo
  · exact Ins.Keeps.throw rf _

theorem hartPlaces_kept (n : Nat) (k : Acc) (a len : Nat) : Ins.Keeps HartsKept (hartPlaces n k a len) := by
  have rf := HartsKept.refl
  have tr : ∀ s t u, HartsKept s t → HartsKept t u → HartsKept s u := fun _ _ _ a b => a.trans b
  unfold hartPlaces
  have key : Ins.Keeps HartsKept (do
      let ps ← (pieces a len).mapM (hartPlace n k a)
      match ps.find? fun p => !locIsMem p.loc && p.gen != (ps.headD p).gen with
      | some p => .trap cUnalloc p.addr
      | none => pure ()
      if k = .write then
        let s ← Ins.get id
        if ps.any s.placeSealed then .trap cSealed a
      pure ps : Ins (List Place)) := by
    refine Ins.Keeps.bind tr (Ins.Keeps.mapM rf tr (hartPlace_kept n k a) _) fun ps => ?_
    have fin : Ins.Keeps HartsKept (do
        if k = .write then
          let s ← Ins.get id
          if ps.any s.placeSealed then .trap cSealed a
        pure ps : Ins (List Place)) := by
      dsimp only
      split
      · refine Ins.Keeps.bind tr (fun s => rf s) fun s => ?_
        split
        · exact Ins.Keeps.bind tr (Ins.Keeps.throw rf _) fun _ => Ins.Keeps.pure rf _
        · exact Ins.Keeps.pure rf _
      · exact Ins.Keeps.pure rf _
    dsimp only
    split
    · exact Ins.Keeps.bind tr (Ins.Keeps.throw rf _) fun _ => fin
    · exact fin
  dsimp only
  split
  · exact Ins.Keeps.bind tr (Ins.Keeps.throw rf _) fun _ => key
  · exact key

theorem loadPlace_kept (n : Nat) (p : Place) : Ins.Keeps HartsKept (loadPlace n p) := by
  have rf := HartsKept.refl
  have tr : ∀ s t u, HartsKept s t → HartsKept t u → HartsKept s u := fun _ _ _ a b => a.trans b
  unfold loadPlace
  refine Ins.Keeps.bind tr (fun s => loadGran_kept s n p.loc) fun g => ?_
  split
  · exact Ins.Keeps.pure rf _
  · refine Ins.Keeps.bind tr (fun s => rf s) fun s => ?_
    dsimp only
    split
    · exact Ins.Keeps.bind tr (Ins.Keeps.throw rf _) fun _ => Ins.Keeps.pure rf _
    · exact Ins.Keeps.pure rf _

/-- A load leaves every hart as it was, less its view. -/
theorem hartLoad_kept (n a len : Nat) : Ins.Keeps HartsKept (hartLoad n a len) := by
  have rf := HartsKept.refl
  have tr : ∀ s t u, HartsKept s t → HartsKept t u → HartsKept s u := fun _ _ _ a b => a.trans b
  unfold hartLoad
  refine Ins.Keeps.bind tr (hartPlaces_kept n .read a len) fun ps => ?_
  refine Ins.Keeps.bind tr (Ins.Keeps.mapM rf tr (fun p => ?_) ps) fun bs => Ins.Keeps.pure rf _
  exact Ins.Keeps.bind tr (loadPlace_kept n p) fun g => Ins.Keeps.pure rf _

theorem publishEntry_harts (s : State) (w : Writer) (k : Nat) (e : SbEntry) : (s.publishEntry w k e).harts = s.harts := by
  unfold State.publishEntry
  repeat' split
  all_goals rfl

theorem setPflow_kept (s : State) (k : Nat) : HartsKept s (s.setPflow k) := by
  unfold State.setPflow
  apply HartsKept.foldl
  intro s j
  apply HartsKept.of_setHart
  rfl

theorem earlyPublish_kept (s : State) (k : Nat) : HartsKept s (s.earlyPublish k) := by
  unfold State.earlyPublish
  split
  · exact HartsKept.refl s
  · exact HartsKept.trans (HartsKept.of_harts (by simp [publishEntry_harts])) (setPflow_kept _ _)

theorem hartStore_kept (s : State) (n : Nat) (c : Chunk) : HartsKept s (s.hartStore n c) := by
  unfold State.hartStore
  split
  · exact HartsKept.of_harts (writeHome_harts _ _ _ _ _ _)
  · dsimp only
    split
    · refine (earlyPublish_kept s (coreOf n)).trans (HartsKept.of_harts ?_)
      simp
    · exact HartsKept.of_harts (by simp)

/-- A store leaves every hart as it was, less pflow. -/
theorem hartWrite_kept (n a : Nat) (bs : List Byte) : Ins.Keeps HartsKept (hartWrite n a bs) := by
  have tr : ∀ s t u, HartsKept s t → HartsKept t u → HartsKept s u := fun _ _ _ a b => a.trans b
  unfold hartWrite
  refine Ins.Keeps.bind tr (hartPlaces_kept n .write a _) fun ps => ?_
  intro s
  exact HartsKept.foldl (fun s c => hartStore_kept s n c) _ s

/-! ### Lengths -/

theorem getBytes_length (m : KMap Byte) : ∀ (n a : Nat), (getBytes m a n).length = n
  | 0, _ => rfl
  | n + 1, a => by simp [getBytes, getBytes_length m n]

/-- The pieces of an access together are as long as the access. -/
theorem splitRange_sum : ∀ (k a n : Nat), n ≤ 32 * (k - 1) + (32 - a % 32) → 1 ≤ k → a < 2 ^ 64 →
    ((splitRange k a n).map (·.2)).sum = n := by
  intro k
  induction k with
  | zero => intro a n _ h; omega
  | succ k ih =>
    intro a n h _ ha
    unfold splitRange
    split
    · next h0 => simp [h0]
    · by_cases hn : n ≤ 32 - a % 32
      · rw [Nat.min_eq_left hn]
        have h0 : ∀ j b, splitRange j b 0 = [] := by intro j b; cases j <;> simp [splitRange]
        simp [h0]
      · rw [Nat.min_eq_right (by omega)]
        have hm : (addrAdd a (32 - a % 32)) % 32 = 0 := by unfold addrAdd; omega
        rw [List.map_cons, List.sum_cons, ih (addrAdd a (32 - a % 32)) (n - (32 - a % 32)) (by omega) (by omega) (Nat.mod_lt _ (by decide))]
        show 32 - a % 32 + (n - (32 - a % 32)) = n
        omega

theorem pieces_sum {a n : Nat} (ha : a < 2 ^ 64) : ((pieces a n).map (·.2)).sum = n := by
  apply splitRange_sum _ _ _ _ (by omega) ha
  omega

/-- What `mapM` answers where it completes, in a measure of the elements that every run of the action gives its answer. -/
theorem Ins.mapM_ok {α β γ : Type} {f : α → Ins β} {p : β → γ} {q : α → γ}
    (hf : ∀ a s b t, f a s = (.ok b, t) → p b = q a) :
    ∀ (l : List α) (s : State) (bs : List β) (t : State), l.mapM f s = (.ok bs, t) → bs.map p = l.map q := by
  intro l
  induction l with
  | nil =>
    intro s bs t h
    have h : (Except.ok [], s) = ((Except.ok bs, t) : Except Stop (List β) × State) := h
    injection h with h1 _
    injection h1 with h1
    subst h1
    rfl
  | cons a l ih =>
    intro s bs t h
    rw [List.mapM_cons, Ins.bind_run] at h
    rcases e1 : f a s with ⟨b | b, t1⟩
    · rw [e1] at h; injection h with h1 _; cases h1
    · rw [e1] at h
      dsimp only at h
      rw [Ins.bind_run] at h
      rcases e2 : l.mapM f t1 with ⟨b2 | b2, t2⟩
      · rw [e2] at h; injection h with h1 _; cases h1
      · rw [e2] at h
        have h : (Except.ok (b :: b2), t2) = ((Except.ok bs, t) : Except Stop (List β) × State) := h
        injection h with h1 _
        injection h1 with h1
        subst h1
        rw [List.map_cons, List.map_cons, hf _ _ _ _ e1, ih _ _ _ e2]

theorem hartPlace_len {n : Nat} {k : Acc} {a : Nat} {p : Nat × Nat} {s t : State} {q : Place}
    (h : hartPlace n k a p s = (.ok q, t)) : q.len = p.2 := by
  have no : ∀ {c v : Nat} {s t : State}, (Ins.trap c v : Ins Place) s ≠ (.ok q, t) := by
    intro c v s t e; injection e with e _; cases e
  unfold hartPlace at h
  revert h
  cases spaceOf (coreOf n) a with
  | bank c off =>
    dsimp only
    intro h
    rw [Ins.bind_run, Ins.get_run] at h
    generalize (if off + (p.1 + 2 ^ 64 - a) % 2 ^ 64 < 2 ^ 17 then
        s.coverGen (locBank c ((off + (p.1 + 2 ^ 64 - a) % 2 ^ 64) / 32)) else none) = r at h
    cases r with
    | none => exact absurd h no
    | some g => injection h with h1 _; injection h1 with h1; rw [← h1]
  | global =>
    dsimp only
    intro h
    by_cases hr : rowOf p.1 ≠ 3
    · rw [if_pos hr, Ins.bind_run] at h
      injection h with h1 _; cases h1
    · rw [if_neg hr, Ins.bind_run, Ins.get_run] at h
      dsimp only at h
      rw [Ins.bind_run, Ins.act_run] at h
      dsimp only at h
      generalize s.translate (hartCluster n) p.1 k = r at h
      obtain ⟨r, t'⟩ := r
      cases r with
      | none => exact absurd h no
      | some g => injection h with h1 _; injection h1 with h1; rw [← h1]
  | reserved => intro h; exact absurd h no
  | none => intro h; exact absurd h no

theorem hartPlaces_len {n : Nat} {k : Acc} {a len : Nat} {s t : State} {ps : List Place}
    (h : hartPlaces n k a len s = (.ok ps, t)) : ps.map (·.len) = (pieces a len).map (·.2) := by
  have no : ∀ {c v : Nat} {s t : State} {f : Unit → Ins (List Place)}, ((Ins.trap c v : Ins Unit) >>= f) s ≠ (.ok ps, t) := by
    intro c v s t f e; rw [Ins.bind_run] at e; injection e with e _; cases e
  unfold hartPlaces at h
  dsimp only at h
  cases hf : (pieces a len).find? fun p => rowOf a == 0 && rowOf p.1 != 0 with
  | some p => simp only [hf] at h; exact absurd h no
  | none =>
    simp only [hf] at h
    rw [Ins.bind_run] at h
    rcases e : (pieces a len).mapM (hartPlace n k a) s with ⟨b | b, t1⟩
    · rw [e] at h; injection h with h1 _; cases h1
    · rw [e] at h
      dsimp only at h
      have hb : b = ps := by
        cases hg : b.find? fun p => !locIsMem p.loc && p.gen != (b.headD p).gen with
        | some p => simp only [hg] at h; exact absurd h no
        | none =>
          simp only [hg] at h
          by_cases hk : k = .write
          · simp only [if_pos hk, Ins.bind_run, Ins.get_run] at h
            by_cases hq : (b.any (id t1 : State).placeSealed) = true
            · simp only [if_pos hq, Ins.bind_run] at h
              injection h with h1 _; cases h1
            · simp only [if_neg hq] at h
              injection h with h1 _; injection h1
          · simp only [if_neg hk] at h
            injection h with h1 _; injection h1
      rw [← hb]
      exact Ins.mapM_ok (p := Place.len) (q := Prod.snd) (fun _ _ _ _ => hartPlace_len) _ _ _ _ e

/-- A load answers as many bytes as it asks for. -/
theorem hartLoad_length {n a len : Nat} {s t : State} {bs : PBytes} (ha : a < 2 ^ 64) (h : hartLoad n a len s = (.ok bs, t)) :
    bs.length = len := by
  unfold hartLoad at h
  rw [Ins.bind_run] at h
  rcases e : hartPlaces n .read a len s with ⟨ps | ps, t1⟩
  · rw [e] at h; injection h with h1 _; cases h1
  · rw [e] at h
    dsimp only at h
    rw [Ins.bind_run] at h
    rcases e2 : (ps.mapM fun p => do
        let g ← loadPlace n p
        pure ((getBytes g.data p.off p.len).map fun b => (b, g.poison)) : Ins (List PBytes)) t1 with ⟨b | b, t2⟩
    · rw [e2] at h; injection h with h1 _; cases h1
    · rw [e2] at h
      have h : (Except.ok b.flatten, t2) = ((Except.ok bs, t) : Except Stop PBytes × State) := h
      injection h with h1 _
      injection h1 with h1
      have hl : b.map List.length = ps.map Place.len := by
        refine Ins.mapM_ok (p := List.length) (q := Place.len) (fun p s c t hh => ?_) _ _ _ _ e2
        rw [Ins.bind_run] at hh
        split at hh
        · injection hh with h1 _
          injection h1 with h1
          rw [← h1, List.length_map, getBytes_length]
        · injection hh with h1 _; cases h1
      rw [← h1, List.length_flatten, hl, hartPlaces_len e, pieces_sum ha]

end Sys2Proof.Machine
end

