-- ==== Sys2Proof/Laws/Memory.lean ====
section
/-!
SUPPORT. Bytes of memory: a byte read after a write, and that every operation over memory keeps its canonical form.
-/

namespace Sys2Proof.Machine

theorem Memory.wf_nil : Memory.wf [] = true := rfl

theorem Memory.wf_setByte {m : KMap Byte} (w : Memory.wf m = true) (a : Nat) (b : Byte) : Memory.wf (Memory.setByte m a b) = true :=
  KMap.wf_set _ _ _ w

theorem Memory.wf_setBytes {m : KMap Byte} (w : Memory.wf m = true) (a : Nat) (bs : List Byte) :
    Memory.wf (Memory.setBytes m a bs) = true := by
  induction bs generalizing m a with
  | nil => exact w
  | cons b t ih => exact ih (Memory.wf_setByte w a b) _

theorem Memory.byte_setByte (m : KMap Byte) (a : Nat) (b : Byte) (q : Nat) :
    Memory.byte (Memory.setByte m a b) q = if q = a then b else Memory.byte m q := KMap.get_set _ _ _ _ _

/-- A byte after a run of bytes was written: the run's byte inside it, else what was there. -/
theorem Memory.byte_setBytes (m : KMap Byte) (a : Nat) (bs : List Byte) (q : Nat) :
    Memory.byte (Memory.setBytes m a bs) q =
      if a ≤ q ∧ q < a + bs.length then bs.getD (q - a) 0 else Memory.byte m q := by
  induction bs generalizing m a with
  | nil => rw [Memory.setBytes, if_neg (by simp)]
  | cons b t ih =>
    rw [Memory.setBytes, ih, Memory.byte_setByte]
    by_cases h : q = a
    · subst h; rw [if_neg (by omega), if_pos rfl, if_pos (by simp)]; simp
    · by_cases h2 : a + 1 ≤ q ∧ q < a + 1 + t.length
      · rw [if_pos h2, if_pos (by simp; omega), show q - a = (q - (a + 1)) + 1 by omega]
        simp
      · rw [if_neg h2, if_neg h, if_neg (by simp at h2 ⊢; omega)]

theorem Memory.wf_filter {m : KMap Byte} (w : Memory.wf m = true) (p : Nat × Byte → Bool) : Memory.wf (m.filter p) = true := by
  have key : ∀ (m : KMap Byte) (b : Nat), KMap.wfFrom Memory.blank b m = true → KMap.wfFrom Memory.blank b (m.filter p) = true := by
    intro m
    induction m with
    | nil => intro b h; exact h
    | cons e t ih =>
      intro b h
      obtain ⟨k, v⟩ := e
      simp only [KMap.wfFrom, Bool.and_eq_true, decide_eq_true_eq] at h
      rw [List.filter_cons]
      split
      · simp [KMap.wfFrom, h.1.1, h.1.2, ih _ h.2]
      · exact KMap.wfFrom_mono _ (by omega) (ih _ h.2)
  exact key m 0 w

/-- Memory in canonical form before is in canonical form after. -/
def WfKept (s t : State) : Prop := Memory.wf s.mem = true → Memory.wf t.mem = true

theorem WfKept.of_eq {s t : State} (h : t.mem = s.mem) : WfKept s t := fun w => by rw [h]; exact w
theorem WfKept.trans {s t u : State} (a : WfKept s t) (b : WfKept t u) : WfKept s u := fun w => b (a w)

theorem WfKept.foldl {α : Type} {f : State → α → State} (h : ∀ s a, WfKept s (f s a)) : ∀ (l : List α) (s : State), WfKept s (l.foldl f s)
  | [], _ => id
  | a :: t, s => (h s a).trans (WfKept.foldl h t (f s a))

theorem wfKept_writeHome (s : State) (w : Writer) (m : Nat) (p : Option Nat) (b : Bool) (c : Chunk) :
    WfKept s (s.writeHome w m p b c) := by
  intro h
  unfold State.writeHome
  dsimp only
  split
  · exact Memory.wf_setBytes h _ _
  · split <;> exact h

theorem wfKept_publishEntry (s : State) (w : Writer) (k : Nat) (e : SbEntry) : WfKept s (s.publishEntry w k e) := by
  intro h
  unfold State.publishEntry
  dsimp only
  split
  · show Memory.wf (e.runs.foldl (fun m r => Memory.setBytes m (32 * locGran e.loc + r.1) r.2) s.mem) = true
    generalize e.runs = l
    have key : ∀ (l : List (Nat × List Byte)) (m : KMap Byte), Memory.wf m = true →
        Memory.wf (l.foldl (fun m r => Memory.setBytes m (32 * locGran e.loc + r.1) r.2) m) = true := by
      intro l
      induction l with
      | nil => intro m w; exact w
      | cons r t ih => intro m w; exact ih _ (Memory.wf_setBytes w _ _)
    exact key l _ h
  · split <;> exact h

theorem wfKept_setPflow (s : State) (k : Nat) : WfKept s (s.setPflow k) := by
  unfold State.setPflow
  apply WfKept.foldl
  intro s j
  exact WfKept.of_eq (by simp)

theorem wfKept_earlyPublish (s : State) (k : Nat) : WfKept s (s.earlyPublish k) := by
  unfold State.earlyPublish
  split
  · exact id
  · dsimp only
    refine WfKept.trans ?_ (wfKept_setPflow _ _)
    refine WfKept.trans ?_ (wfKept_publishEntry _ _ _ _)
    exact WfKept.of_eq (by simp)

theorem wfKept_hartStore (s : State) (n : Nat) (c : Chunk) : WfKept s (s.hartStore n c) := by
  unfold State.hartStore
  split
  · exact wfKept_writeHome _ _ _ _ _ _
  · dsimp only
    split
    · exact (wfKept_earlyPublish _ _).trans (WfKept.of_eq rfl)
    · exact WfKept.of_eq rfl

theorem wfKept_dirStore (s : State) (d : Nat) (c : Chunk) : WfKept s (s.dirStore d c) := WfKept.of_eq rfl

theorem wfKept_publishOne (s : State) (a : Agent) (scope k : Nat) : WfKept s (s.publishOne a scope k) := by
  unfold State.publishOne
  split
  · exact id
  · exact (WfKept.of_eq (by cases a <;> rfl)).trans (wfKept_publishEntry _ _ _ _)

theorem wfKept_publishAll (s : State) (a : Agent) (scope : Nat) : WfKept s (s.publishAll a scope) :=
  (WfKept.of_eq (by cases a <;> rfl)).trans (WfKept.foldl (fun _ _ => wfKept_publishEntry _ _ _ _) _ _)

theorem wfKept_raise (s : State) (a : Agent) (scope : Nat) : WfKept s (s.raise a scope) := WfKept.of_eq rfl

theorem wfKept_release (s : State) (a : Agent) (scope : Nat) : WfKept s (s.release a scope) :=
  (wfKept_publishAll _ _ _).trans (wfKept_raise _ _ _)

theorem wfKept_capture (s : State) (a : Agent) (l : List WriteRec) : WfKept s (s.capture a l) := WfKept.of_eq (by cases a <;> rfl)

theorem wfKept_dropLines (s : State) (a : Agent) : WfKept s (s.dropLines a) := by
  unfold State.dropLines
  cases a
  · dsimp only; split
    · exact id
    · exact WfKept.of_eq rfl
  · exact id

theorem wfKept_refresh (s : State) (a : Agent) (scope : Nat) : WfKept s (s.refresh a scope) :=
  (wfKept_dropLines _ _).trans (wfKept_capture _ _ _)

theorem wfKept_loadGran (s : State) (a : Agent) (loc : Nat) : WfKept s (s.loadGran a loc).2 := by
  unfold State.loadGran
  dsimp only
  split
  · exact id
  · refine WfKept.of_eq ?_
    have hc : ∀ n, (s.choose n).2.mem = s.mem := by intro n; unfold State.choose; split <;> rfl
    cases a <;> exact hc _

end Sys2Proof.Machine
end

