-- ==== Sys2Proof/Laws/PerInstr.lean ====
section
/-!
SUPPORT. Per instruction: its encoding has the length the instruction takes at the pc (R41).
-/

namespace Sys2Proof.Laws

/-- A well-formed instruction is encoded in as many bytes as the pc moves past it. -/
def Encoding.Statement (i : Instr) : Prop := i.wf = true → (encode i).len = i.len

theorem Encoding.rv64iAlu (op : AluOp) (rd rs1 : Reg) (src : AluSrc) : Encoding.Statement (.rv64iAlu op rd rs1 src) := by
  cases op <;> cases src <;> exact fun _ => rfl
theorem Encoding.lui (rd : Reg) (imm : BitVec 20) : Encoding.Statement (.lui rd imm) := fun _ => rfl
theorem Encoding.auipc (rd : Reg) (imm : BitVec 20) : Encoding.Statement (.auipc rd imm) := fun _ => rfl
theorem Encoding.mul (op : MulOp) (rd rs1 rs2 : Reg) : Encoding.Statement (.mul op rd rs1 rs2) := fun _ => rfl
theorem Encoding.div (op : DivOp) (rd rs1 rs2 : Reg) : Encoding.Statement (.div op rd rs1 rs2) := fun _ => rfl
theorem Encoding.branch (op : BrOp) (rs1 rs2 : Reg) (off : BitVec 12) : Encoding.Statement (.branch op rs1 rs2 off) := fun _ => rfl
theorem Encoding.jal (rd : Reg) (off : BitVec 20) : Encoding.Statement (.jal rd off) := fun _ => rfl
theorem Encoding.jalr (rd rs1 : Reg) (imm : BitVec 12) : Encoding.Statement (.jalr rd rs1 imm) := fun _ => rfl
theorem Encoding.scalarLoad (op : LdOp) (rd rs1 : Reg) (imm : BitVec 12) : Encoding.Statement (.scalarLoad op rd rs1 imm) := fun _ => rfl
theorem Encoding.scalarStore (op : StOp) (rs2 rs1 : Reg) (imm : BitVec 12) : Encoding.Statement (.scalarStore op rs2 rs1 imm) := fun _ => rfl
theorem Encoding.fence (fm pred succ : BitVec 4) (rs1 rd : Reg) : Encoding.Statement (.fence fm pred succ rs1 rd) := fun _ => rfl
theorem Encoding.csrrw (rd : Reg) (csr : BitVec 12) (rs1 : Reg) : Encoding.Statement (.csrrw rd csr rs1) := fun _ => rfl
theorem Encoding.csrrs (rd : Reg) (csr : BitVec 12) (rs1 : Reg) : Encoding.Statement (.csrrs rd csr rs1) := fun _ => rfl
theorem Encoding.csrrc (rd : Reg) (csr : BitVec 12) (rs1 : Reg) : Encoding.Statement (.csrrc rd csr rs1) := fun _ => rfl
theorem Encoding.csrrwi (rd : Reg) (csr : BitVec 12) (z : BitVec 5) : Encoding.Statement (.csrrwi rd csr z) := fun _ => rfl
theorem Encoding.csrrsi (rd : Reg) (csr : BitVec 12) (z : BitVec 5) : Encoding.Statement (.csrrsi rd csr z) := fun _ => rfl
theorem Encoding.csrrci (rd : Reg) (csr : BitVec 12) (z : BitVec 5) : Encoding.Statement (.csrrci rd csr z) := fun _ => rfl
theorem Encoding.zcaInstruction (c : ZcaOp) : Encoding.Statement (.zcaInstruction c) := by
  cases c <;> exact fun _ => rfl
theorem Encoding.illegalInstruction (w : BitVec 64) : Encoding.Statement (.illegalInstruction w) := fun h => nomatch h
theorem Encoding.lpSet (n : BitVec 1) (cnt fin : Reg) : Encoding.Statement (.lpSet n cnt fin) := fun _ => rfl
theorem Encoding.lpOff (n : BitVec 1) : Encoding.Statement (.lpOff n) := fun _ => rfl
theorem Encoding.lpSetup (n : BitVec 1) (cnt : Reg) (imm : BitVec 12) : Encoding.Statement (.lpSetup n cnt imm) := fun _ => rfl
theorem Encoding.lpSetupi (n : BitVec 1) (cnt : BitVec 5) (imm : BitVec 12) : Encoding.Statement (.lpSetupi n cnt imm) := fun _ => rfl
theorem Encoding.killX (a b : Reg) : Encoding.Statement (.killX a b) := fun _ => rfl
theorem Encoding.killV (a b : Reg) : Encoding.Statement (.killV a b) := fun _ => rfl
theorem Encoding.jalD (rd : Reg) (imm : BitVec 17) : Encoding.Statement (.jalD rd imm) := fun _ => rfl
theorem Encoding.jalrD (rd rs1 : Reg) (imm : BitVec 12) : Encoding.Statement (.jalrD rd rs1 imm) := fun _ => rfl
theorem Encoding.chorusForm (rd : Reg) (size : BitVec 2) : Encoding.Statement (.chorusForm rd size) := fun _ => rfl
theorem Encoding.chorusId (rd : Reg) : Encoding.Statement (.chorusId rd) := fun _ => rfl
theorem Encoding.safept (n : BitVec 16) : Encoding.Statement (.safept n) := fun _ => rfl
theorem Encoding.cueResume (rd rs1 : Reg) : Encoding.Statement (.cueResume rd rs1) := fun _ => rfl
theorem Encoding.cueYield (rs1 : Reg) : Encoding.Statement (.cueYield rs1) := fun _ => rfl
theorem Encoding.cueSpawn (rd rs1 rs2 : Reg) : Encoding.Statement (.cueSpawn rd rs1 rs2) := fun _ => rfl
theorem Encoding.cueWait (rd rs1 rs2 : Reg) : Encoding.Statement (.cueWait rd rs1 rs2) := fun _ => rfl
theorem Encoding.cueSelf (rd : Reg) : Encoding.Statement (.cueSelf rd) := fun _ => rfl
theorem Encoding.salloc (rd rs1 rs2 : Reg) : Encoding.Statement (.salloc rd rs1 rs2) := fun _ => rfl
theorem Encoding.sallocA (rd rs1 rs2 : Reg) : Encoding.Statement (.sallocA rd rs1 rs2) := fun _ => rfl
theorem Encoding.sfree (rd rs1 : Reg) : Encoding.Statement (.sfree rd rs1) := fun _ => rfl
theorem Encoding.genRd (rd rs1 : Reg) (sel : BitVec 2) : Encoding.Statement (.genRd rd rs1 sel) := fun _ => rfl
theorem Encoding.lookaheadCompletion (hart k : Nat) : Encoding.Statement (.lookaheadCompletion hart k) := fun h => nomatch h
theorem Encoding.amoAdd (acq rel : Bool) (sc : BitVec 3) (rd rs1 rs2 : Reg) : Encoding.Statement (.amoAdd acq rel sc rd rs1 rs2) := fun _ => rfl
theorem Encoding.amoSwap (acq rel : Bool) (sc : BitVec 3) (rd rs1 rs2 : Reg) : Encoding.Statement (.amoSwap acq rel sc rd rs1 rs2) := fun _ => rfl
theorem Encoding.amoCas (acq rel : Bool) (sc : BitVec 3) (rd rs1 rs2 : Reg) : Encoding.Statement (.amoCas acq rel sc rd rs1 rs2) := fun _ => rfl
theorem Encoding.amoMin (acq rel : Bool) (sc : BitVec 3) (rd rs1 rs2 : Reg) : Encoding.Statement (.amoMin acq rel sc rd rs1 rs2) := fun _ => rfl
theorem Encoding.amoMax (acq rel : Bool) (sc : BitVec 3) (rd rs1 rs2 : Reg) : Encoding.Statement (.amoMax acq rel sc rd rs1 rs2) := fun _ => rfl
theorem Encoding.amoMinu (acq rel : Bool) (sc : BitVec 3) (rd rs1 rs2 : Reg) : Encoding.Statement (.amoMinu acq rel sc rd rs1 rs2) := fun _ => rfl
theorem Encoding.amoMaxu (acq rel : Bool) (sc : BitVec 3) (rd rs1 rs2 : Reg) : Encoding.Statement (.amoMaxu acq rel sc rd rs1 rs2) := fun _ => rfl
theorem Encoding.amoAnd (acq rel : Bool) (sc : BitVec 3) (rd rs1 rs2 : Reg) : Encoding.Statement (.amoAnd acq rel sc rd rs1 rs2) := fun _ => rfl
theorem Encoding.amoOr (acq rel : Bool) (sc : BitVec 3) (rd rs1 rs2 : Reg) : Encoding.Statement (.amoOr acq rel sc rd rs1 rs2) := fun _ => rfl
theorem Encoding.amoXor (acq rel : Bool) (sc : BitVec 3) (rd rs1 rs2 : Reg) : Encoding.Statement (.amoXor acq rel sc rd rs1 rs2) := fun _ => rfl
theorem Encoding.amoAddb (acq rel : Bool) (sc : BitVec 3) (rd rs1 rs2 : Reg) : Encoding.Statement (.amoAddb acq rel sc rd rs1 rs2) := fun _ => rfl
theorem Encoding.sbind (s : BitVec 2) (rs1 : Reg) : Encoding.Statement (.sbind s rs1) := fun _ => rfl
theorem Encoding.sunbind (s : BitVec 2) : Encoding.Statement (.sunbind s) := fun _ => rfl
theorem Encoding.sstat (rd : Reg) (s : BitVec 2) : Encoding.Statement (.sstat rd s) := fun _ => rfl
theorem Encoding.seal (rd rs1 rs2 : Reg) : Encoding.Statement (.seal rd rs1 rs2) := fun _ => rfl
theorem Encoding.unseal (rd rs1 rs2 : Reg) : Encoding.Statement (.unseal rd rs1 rs2) := fun _ => rfl
theorem Encoding.streamReadAhead (hart s : Nat) : Encoding.Statement (.streamReadAhead hart s) := fun h => nomatch h
theorem Encoding.streamCsrBind (hart s : Nat) (v : BitVec 64) : Encoding.Statement (.streamCsrBind hart s v) := fun h => nomatch h
theorem Encoding.msgRecv (rd rs1 : Reg) : Encoding.Statement (.msgRecv rd rs1) := fun _ => rfl
theorem Encoding.msgPoll (rd rs1 : Reg) : Encoding.Statement (.msgPoll rd rs1) := fun _ => rfl
theorem Encoding.msgPut (n rs1 rs2 : Reg) : Encoding.Statement (.msgPut n rs1 rs2) := fun _ => rfl
theorem Encoding.dqPush (rd vs rs2 : Reg) : Encoding.Statement (.dqPush rd vs rs2) := fun _ => rfl
theorem Encoding.dqPop (vd rs1 : Reg) : Encoding.Statement (.dqPop vd rs1) := fun _ => rfl
theorem Encoding.qPushX (n : BitVec 2) (rs1 : Reg) : Encoding.Statement (.qPushX n rs1) := fun _ => rfl
theorem Encoding.qPushV (n : BitVec 2) (vs : Reg) : Encoding.Statement (.qPushV n vs) := fun _ => rfl
theorem Encoding.qPopX (rd : Reg) : Encoding.Statement (.qPopX rd) := fun _ => rfl
theorem Encoding.qPopV (vd : Reg) : Encoding.Statement (.qPopV vd) := fun _ => rfl
theorem Encoding.qStat (rd : Reg) (n : BitVec 2) : Encoding.Statement (.qStat rd n) := fun _ => rfl
theorem Encoding.svcCall (rd rs1 : Reg) : Encoding.Statement (.svcCall rd rs1) := fun _ => rfl
theorem Encoding.qkSet (rs1 : Reg) : Encoding.Statement (.qkSet rs1) := fun _ => rfl
theorem Encoding.qkScan (rd rs1 : Reg) : Encoding.Statement (.qkScan rd rs1) := fun _ => rfl
theorem Encoding.jlPut (rd rs1 rs2 : Reg) : Encoding.Statement (.jlPut rd rs1 rs2) := fun _ => rfl
theorem Encoding.barInit (rs1 rs2 : Reg) : Encoding.Statement (.barInit rs1 rs2) := fun _ => rfl
theorem Encoding.publish (sc : BitVec 3) : Encoding.Statement (.publish sc) := fun _ => rfl
theorem Encoding.refresh (sc : BitVec 3) : Encoding.Statement (.refresh sc) := fun _ => rfl
theorem Encoding.msgSend (rs1 rs2 : Reg) : Encoding.Statement (.msgSend rs1 rs2) := fun _ => rfl
theorem Encoding.msgSendRel (sc : BitVec 3) (rs1 rs2 : Reg) : Encoding.Statement (.msgSendRel sc rs1 rs2) := fun _ => rfl
theorem Encoding.barBind (b : BitVec 6) (rs1 : Reg) : Encoding.Statement (.barBind b rs1) := fun _ => rfl
theorem Encoding.barArrive (rd rs1 : Reg) (b : BitVec 6) : Encoding.Statement (.barArrive rd rs1 b) := fun _ => rfl
theorem Encoding.barWait (rd rs1 : Reg) (b : BitVec 6) : Encoding.Statement (.barWait rd rs1 b) := fun _ => rfl
theorem Encoding.messageDelivery (k : Nat) : Encoding.Statement (.messageDelivery k) := fun h => nomatch h
theorem Encoding.depositArrival (sender receiver : Nat) (n : Reg) (v : BitVec 64) : Encoding.Statement (.depositArrival sender receiver n v) := fun h => nomatch h
theorem Encoding.vaddFp (o : LOpts) (f : BitVec 4) (vd va vb : Reg) : Encoding.Statement (.vaddFp o f vd va vb) := fun _ => rfl
theorem Encoding.vsubFp (o : LOpts) (f : BitVec 4) (vd va vb : Reg) : Encoding.Statement (.vsubFp o f vd va vb) := fun _ => rfl
theorem Encoding.vmulFp (o : LOpts) (f : BitVec 4) (vd va vb : Reg) : Encoding.Statement (.vmulFp o f vd va vb) := fun _ => rfl
theorem Encoding.vfma (o : LOpts) (f : BitVec 4) (vd va vb vc : Reg) : Encoding.Statement (.vfma o f vd va vb vc) := fun _ => rfl
theorem Encoding.vfms (o : LOpts) (f : BitVec 4) (vd va vb vc : Reg) : Encoding.Statement (.vfms o f vd va vb vc) := fun _ => rfl
theorem Encoding.vdiv (o : LOpts) (f : BitVec 4) (vd va vb : Reg) : Encoding.Statement (.vdiv o f vd va vb) := fun _ => rfl
theorem Encoding.vsqrt (o : LOpts) (f : BitVec 4) (vd va : Reg) : Encoding.Statement (.vsqrt o f vd va) := fun _ => rfl
theorem Encoding.vminFp (o : LOpts) (f : BitVec 4) (vd va vb : Reg) : Encoding.Statement (.vminFp o f vd va vb) := fun _ => rfl
theorem Encoding.vmaxFp (o : LOpts) (f : BitVec 4) (vd va vb : Reg) : Encoding.Statement (.vmaxFp o f vd va vb) := fun _ => rfl
theorem Encoding.vcmpFp (o : LOpts) (f : BitVec 4) (cond : BitVec 3) (md : BitVec 3) (va vb : Reg) : Encoding.Statement (.vcmpFp o f cond md va vb) := fun _ => rfl
theorem Encoding.vlmul (o : LOpts) (vd va vb : Reg) : Encoding.Statement (.vlmul o vd va vb) := fun _ => rfl
theorem Encoding.vldot (o : LOpts) (g : BitVec 2) (vd va vb : Reg) : Encoding.Statement (.vldot o g vd va vb) := fun _ => rfl
theorem Encoding.vgumbel (o : LOpts) (vd va xs xb : Reg) : Encoding.Statement (.vgumbel o vd va xs xb) := fun _ => rfl
theorem Encoding.vaddInt (o : LOpts) (e : Elem) (vd va vb : Reg) : Encoding.Statement (.vaddInt o e vd va vb) := fun _ => rfl
theorem Encoding.vsubInt (o : LOpts) (e : Elem) (vd va vb : Reg) : Encoding.Statement (.vsubInt o e vd va vb) := fun _ => rfl
theorem Encoding.vmulInt (o : LOpts) (e : Elem) (vd va vb : Reg) : Encoding.Statement (.vmulInt o e vd va vb) := fun _ => rfl
theorem Encoding.vminInt (o : LOpts) (e : Elem) (vd va vb : Reg) : Encoding.Statement (.vminInt o e vd va vb) := fun _ => rfl
theorem Encoding.vmaxInt (o : LOpts) (e : Elem) (vd va vb : Reg) : Encoding.Statement (.vmaxInt o e vd va vb) := fun _ => rfl
theorem Encoding.vsll (o : LOpts) (f : BitVec 4) (vd va vb : Reg) : Encoding.Statement (.vsll o f vd va vb) := fun _ => rfl
theorem Encoding.vsrl (o : LOpts) (f : BitVec 4) (vd va vb : Reg) : Encoding.Statement (.vsrl o f vd va vb) := fun _ => rfl
theorem Encoding.vsra (o : LOpts) (f : BitVec 4) (vd va vb : Reg) : Encoding.Statement (.vsra o f vd va vb) := fun _ => rfl
theorem Encoding.vand (o : LOpts) (f : BitVec 4) (vd va vb : Reg) : Encoding.Statement (.vand o f vd va vb) := fun _ => rfl
theorem Encoding.vor (o : LOpts) (f : BitVec 4) (vd va vb : Reg) : Encoding.Statement (.vor o f vd va vb) := fun _ => rfl
theorem Encoding.vxor (o : LOpts) (f : BitVec 4) (vd va vb : Reg) : Encoding.Statement (.vxor o f vd va vb) := fun _ => rfl
theorem Encoding.vcmpInt (o : LOpts) (e : Elem) (cond : BitVec 3) (md : BitVec 3) (va vb : Reg) : Encoding.Statement (.vcmpInt o e cond md va vb) := fun _ => rfl
theorem Encoding.vsel (o : LOpts) (f : BitVec 4) (vd va vb : Reg) (ms : BitVec 3) : Encoding.Statement (.vsel o f vd va vb ms) := fun _ => rfl
theorem Encoding.vmlog (o : LOpts) (op : BitVec 3) (md ma mb : BitVec 3) : Encoding.Statement (.vmlog o op md ma mb) := fun _ => rfl
theorem Encoding.vmpop (o : LOpts) (xd : Reg) (ma : BitVec 3) : Encoding.Statement (.vmpop o xd ma) := fun _ => rfl
theorem Encoding.vcvt (o : LOpts) (d s : Elem) (vd va : Reg) (p : BitVec 5) : Encoding.Statement (.vcvt o d s vd va p) := fun _ => rfl
theorem Encoding.vtag (o : LOpts) (f : BitVec 4) (vd va : Reg) : Encoding.Statement (.vtag o f vd va) := fun _ => rfl
theorem Encoding.vpackt (o : LOpts) (vd va : Reg) : Encoding.Statement (.vpackt o vd va) := fun _ => rfl
theorem Encoding.vunpackt (o : LOpts) (vd va : Reg) : Encoding.Statement (.vunpackt o vd va) := fun _ => rfl
theorem Encoding.vosplit (o : LOpts) (f s : BitVec 4) (vd va : Reg) (j : BitVec 2) : Encoding.Statement (.vosplit o f s vd va j) := fun _ => rfl
theorem Encoding.vrcp (o : LOpts) (f : BitVec 4) (vd va : Reg) : Encoding.Statement (.vrcp o f vd va) := fun _ => rfl
theorem Encoding.vrsqrt (o : LOpts) (f : BitVec 4) (vd va : Reg) : Encoding.Statement (.vrsqrt o f vd va) := fun _ => rfl
theorem Encoding.vexp2 (o : LOpts) (f : BitVec 4) (vd va : Reg) : Encoding.Statement (.vexp2 o f vd va) := fun _ => rfl
theorem Encoding.vlog2 (o : LOpts) (f : BitVec 4) (vd va : Reg) : Encoding.Statement (.vlog2 o f vd va) := fun _ => rfl
theorem Encoding.vredsum (o : LOpts) (e : Elem) (vd va : Reg) : Encoding.Statement (.vredsum o e vd va) := fun _ => rfl
theorem Encoding.vredmax (o : LOpts) (e : Elem) (vd va : Reg) : Encoding.Statement (.vredmax o e vd va) := fun _ => rfl
theorem Encoding.vredmin (o : LOpts) (e : Elem) (vd va : Reg) : Encoding.Statement (.vredmin o e vd va) := fun _ => rfl
theorem Encoding.vargmax (o : LOpts) (e : Elem) (vd va xb : Reg) : Encoding.Statement (.vargmax o e vd va xb) := fun _ => rfl
theorem Encoding.vperm (o : LOpts) (f : BitVec 4) (vd va vi : Reg) : Encoding.Statement (.vperm o f vd va vi) := fun _ => rfl
theorem Encoding.vslide (o : LOpts) (f : BitVec 4) (vd va xs : Reg) : Encoding.Statement (.vslide o f vd va xs) := fun _ => rfl
theorem Encoding.vbcast (o : LOpts) (f : BitVec 4) (vd va xs : Reg) : Encoding.Statement (.vbcast o f vd va xs) := fun _ => rfl
theorem Encoding.vins (o : LOpts) (f : BitVec 4) (vd xv xi : Reg) : Encoding.Statement (.vins o f vd xv xi) := fun _ => rfl
theorem Encoding.vext (o : LOpts) (f : BitVec 4) (xd va xi : Reg) : Encoding.Statement (.vext o f xd va xi) := fun _ => rfl
theorem Encoding.vld (o : LOpts) (e : Elem) (vd xa : Reg) (off : BitVec 5) : Encoding.Statement (.vld o e vd xa off) := fun _ => rfl
theorem Encoding.vldDiag (o : LOpts) (e : Elem) (vd xt : Reg) : Encoding.Statement (.vldDiag o e vd xt) := fun _ => rfl
theorem Encoding.vst (o : LOpts) (e : Elem) (vs xa : Reg) (off : BitVec 5) : Encoding.Statement (.vst o e vs xa off) := fun _ => rfl
theorem Encoding.vstDiag (o : LOpts) (e : Elem) (vs xt : Reg) : Encoding.Statement (.vstDiag o e vs xt) := fun _ => rfl
theorem Encoding.vlds (o : LOpts) (e : Elem) (vd xa xs : Reg) : Encoding.Statement (.vlds o e vd xa xs) := fun _ => rfl
theorem Encoding.vsts (o : LOpts) (e : Elem) (vs xa xs : Reg) : Encoding.Statement (.vsts o e vs xa xs) := fun _ => rfl
theorem Encoding.vldx (o : LOpts) (e : Elem) (vd xa vi : Reg) : Encoding.Statement (.vldx o e vd xa vi) := fun _ => rfl
theorem Encoding.vstx (o : LOpts) (e : Elem) (vs xa vi : Reg) : Encoding.Statement (.vstx o e vs xa vi) := fun _ => rfl
theorem Encoding.tdecl (o : LOpts) (xt xb xs : Reg) : Encoding.Statement (.tdecl o xt xb xs) := fun _ => rfl
theorem Encoding.mxMma (o : LOpts) (zero cmpl : Bool) (xd xa xb xc xn : Reg) : Encoding.Statement (.mxMma o zero cmpl xd xa xb xc xn) := fun _ => rfl
theorem Encoding.mxMmsp (o : LOpts) (zero cmpl : Bool) (xd xa xb xc xn : Reg) : Encoding.Statement (.mxMmsp o zero cmpl xd xa xb xc xn) := fun _ => rfl
theorem Encoding.mxZero (o : LOpts) (xc xn : Reg) : Encoding.Statement (.mxZero o xc xn) := fun _ => rfl
theorem Encoding.mxLd (o : LOpts) (raw : Bool) (g : BitVec 2) (vd xc : Reg) : Encoding.Statement (.mxLd o raw g vd xc) := fun _ => rfl
theorem Encoding.mxSt (o : LOpts) (g : BitVec 2) (vs xc : Reg) : Encoding.Statement (.mxSt o g vs xc) := fun _ => rfl
theorem Encoding.mxCfg (o : LOpts) (xa : Reg) : Encoding.Statement (.mxCfg o xa) := fun _ => rfl
theorem Encoding.mxTask (o : LOpts) (xd xa : Reg) : Encoding.Statement (.mxTask o xd xa) := fun _ => rfl
theorem Encoding.taskIssue (slice k cluster : Nat) : Encoding.Statement (.taskIssue slice k cluster) := fun h => nomatch h
theorem Encoding.taskCompletion (slice k : Nat) : Encoding.Statement (.taskCompletion slice k) := fun h => nomatch h
theorem Encoding.slCfg (o : LOpts) (xa : Reg) : Encoding.Statement (.slCfg o xa) := fun _ => rfl
theorem Encoding.slCfgClose (o : LOpts) : Encoding.Statement (.slCfgClose o) := fun _ => rfl
theorem Encoding.slRun (o : LOpts) (xd : Reg) : Encoding.Statement (.slRun o xd) := fun _ => rfl
theorem Encoding.slPassCount (o : LOpts) (xd xa : Reg) : Encoding.Statement (.slPassCount o xd xa) := fun _ => rfl
theorem Encoding.slPassDecide (o : LOpts) (xd xa : Reg) : Encoding.Statement (.slPassDecide o xd xa) := fun _ => rfl
theorem Encoding.slGet (o : LOpts) (sel : BitVec 3) (xd : Reg) : Encoding.Statement (.slGet o sel xd) := fun _ => rfl
theorem Encoding.slMask (o : LOpts) (mode : BitVec 2) (xd xa xq : Reg) : Encoding.Statement (.slMask o mode xd xa xq) := fun _ => rfl
theorem Encoding.selectionJob (cluster : Nat) : Encoding.Statement (.selectionJob cluster) := fun h => nomatch h
theorem Encoding.phase (o : LOpts) (op : BitVec 2) (sc : BitVec 3) (b : BitVec 6) (xd xv : Reg) : Encoding.Statement (.phase o op sc b xd xv) := fun _ => rfl
theorem Encoding.netRedMaxi (o : LOpts) (sc : BitVec 3) (ctx : BitVec 8) (vd va : Reg) : Encoding.Statement (.netRedMaxi o sc ctx vd va) := fun _ => rfl
theorem Encoding.netRedSum (o : LOpts) (sc : BitVec 3) (ctx : BitVec 8) (xd xa : Reg) : Encoding.Statement (.netRedSum o sc ctx xd xa) := fun _ => rfl
theorem Encoding.netRedSumv (o : LOpts) (sc : BitVec 3) (ctx : BitVec 8) (xd xa : Reg) : Encoding.Statement (.netRedSumv o sc ctx xd xa) := fun _ => rfl
theorem Encoding.netRedAnd (o : LOpts) (sc : BitVec 3) (ctx : BitVec 8) (xd xa : Reg) : Encoding.Statement (.netRedAnd o sc ctx xd xa) := fun _ => rfl
theorem Encoding.netRedOr (o : LOpts) (sc : BitVec 3) (ctx : BitVec 8) (xd xa : Reg) : Encoding.Statement (.netRedOr o sc ctx xd xa) := fun _ => rfl
theorem Encoding.copy1d (cluster slot n : Nat) : Encoding.Statement (.copy1d cluster slot n) := fun h => nomatch h
theorem Encoding.copy2d (cluster slot n : Nat) : Encoding.Statement (.copy2d cluster slot n) := fun h => nomatch h
theorem Encoding.gather (cluster slot n : Nat) : Encoding.Statement (.gather cluster slot n) := fun h => nomatch h
theorem Encoding.fill (cluster slot n : Nat) : Encoding.Statement (.fill cluster slot n) := fun h => nomatch h
theorem Encoding.decompress (cluster slot : Nat) : Encoding.Statement (.decompress cluster slot) := fun h => nomatch h
theorem Encoding.decompressBlock (cluster slot : Nat) : Encoding.Statement (.decompressBlock cluster slot) := fun h => nomatch h
theorem Encoding.winstore (cluster slot n : Nat) : Encoding.Statement (.winstore cluster slot n) := fun h => nomatch h
theorem Encoding.landingBufferDelivery (cluster slot n : Nat) : Encoding.Statement (.landingBufferDelivery cluster slot n) := fun h => nomatch h
theorem Encoding.copyCompletion (cluster slot : Nat) : Encoding.Statement (.copyCompletion cluster slot) := fun h => nomatch h
theorem Encoding.bcNext (rd rs1 rs2 : Reg) : Encoding.Statement (.bcNext rd rs1 rs2) := fun _ => rfl
theorem Encoding.icInv (rs1 : Reg) : Encoding.Statement (.icInv rs1) := fun _ => rfl
theorem Encoding.txIssue (rd rs1 : Reg) : Encoding.Statement (.txIssue rd rs1) := fun _ => rfl
theorem Encoding.txWait (rd rs1 : Reg) : Encoding.Statement (.txWait rd rs1) := fun _ => rfl
theorem Encoding.rcInc (rd rs1 : Reg) : Encoding.Statement (.rcInc rd rs1) := fun _ => rfl
theorem Encoding.rcDec (rd rs1 : Reg) : Encoding.Statement (.rcDec rd rs1) := fun _ => rfl
theorem Encoding.icLd (rd rs1 : Reg) (site : BitVec 12) : Encoding.Statement (.icLd rd rs1 site) := fun _ => rfl
theorem Encoding.icSt (rs2 rs1 : Reg) (site : BitVec 12) : Encoding.Statement (.icSt rs2 rs1 site) := fun _ => rfl
theorem Encoding.gdShape (rs1 rs2 : Reg) (off : BitVec 12) : Encoding.Statement (.gdShape rs1 rs2 off) := fun _ => rfl
theorem Encoding.gdTag (rs1 rs2 : Reg) (off : BitVec 12) : Encoding.Statement (.gdTag rs1 rs2 off) := fun _ => rfl
theorem Encoding.obLd (rd rs1 : Reg) (slot : BitVec 12) : Encoding.Statement (.obLd rd rs1 slot) := fun _ => rfl
theorem Encoding.obSt (rs2 rs1 : Reg) (slot : BitVec 12) : Encoding.Statement (.obSt rs2 rs1 slot) := fun _ => rfl
theorem Encoding.exceptionEntryRegister (dc : Nat) : Encoding.Statement (.exceptionEntryRegister dc) := fun h => nomatch h
theorem Encoding.storageReleaseEcall (dc : Nat) : Encoding.Statement (.storageReleaseEcall dc) := fun h => nomatch h
theorem Encoding.holdRelease (dc seq status : Nat) : Encoding.Statement (.holdRelease dc seq status) := fun h => nomatch h
theorem Encoding.heldRingDrain (dc : Nat) : Encoding.Statement (.heldRingDrain dc) := fun h => nomatch h
theorem Encoding.castDispatch (slice : Nat) : Encoding.Statement (.castDispatch slice) := fun h => nomatch h
theorem Encoding.vacateWatchdogExpiry (hart : Nat) : Encoding.Statement (.vacateWatchdogExpiry hart) := fun h => nomatch h
theorem Encoding.helperVacateTimeout (hart : Nat) : Encoding.Statement (.helperVacateTimeout hart) := fun h => nomatch h
theorem Encoding.castingControlWrite (slice : Nat) (w : BitVec 64) : Encoding.Statement (.castingControlWrite slice w) := fun h => nomatch h
theorem Encoding.sweeperVisit (cluster unit : Nat) : Encoding.Statement (.sweeperVisit cluster unit) := fun h => nomatch h
theorem Encoding.playLaunch (q : Nat) (harts : List Nat) (pool : BitVec 64) (share : Nat) (recs : BitVec 64) : Encoding.Statement (.playLaunch q harts pool share recs) := fun h => nomatch h
theorem Encoding.seedPortStore (dc entry : Nat) (v : BitVec 64) : Encoding.Statement (.seedPortStore dc entry v) := fun h => nomatch h
theorem Encoding.queueSlotSignalCheck (k : Nat) : Encoding.Statement (.queueSlotSignalCheck k) := fun h => nomatch h
theorem Encoding.waitCycleTimeout (members : List Nat) : Encoding.Statement (.waitCycleTimeout members) := fun h => nomatch h
theorem Encoding.playCompletion (entry : Nat) : Encoding.Statement (.playCompletion entry) := fun h => nomatch h
theorem Encoding.playCompletionDelivery (entry : Nat) : Encoding.Statement (.playCompletionDelivery entry) := fun h => nomatch h
theorem Encoding.qsetWrite (dc csr : Nat) (v : BitVec 64) : Encoding.Statement (.qsetWrite dc csr v) := fun h => nomatch h
theorem Encoding.imemMachineCheck (dc : Nat) : Encoding.Statement (.imemMachineCheck dc) := fun h => nomatch h
theorem Encoding.heartbeatTimeout (n : Nat) : Encoding.Statement (.heartbeatTimeout n) := fun h => nomatch h
theorem Encoding.takeOver (n : Nat) : Encoding.Statement (.takeOver n) := fun h => nomatch h
theorem Encoding.serviceCallReply (svc k status : Nat) (result : List (BitVec 64)) : Encoding.Statement (.serviceCallReply svc k status result) := fun h => nomatch h
theorem Encoding.attestationService (k : Nat) : Encoding.Statement (.attestationService k) := fun h => nomatch h
theorem Encoding.firmwareSwitch (svc ver : Nat) : Encoding.Statement (.firmwareSwitch svc ver) := fun h => nomatch h
theorem Encoding.faultBatch (k : Nat) (pte : BitVec 64) (resolved : Bool) : Encoding.Statement (.faultBatch k pte resolved) := fun h => nomatch h
theorem Encoding.tenantEnd (p : Nat) : Encoding.Statement (.tenantEnd p) := fun h => nomatch h
theorem Encoding.partitionMapChange (p : Nat) (mask : List Nat) (ranges : List (Nat × Nat)) (root : BitVec 64) (pasid : Nat) (queues : List Nat) (dcs : BitVec 16) (dbg : BitVec 3) (svcs : List Nat) : Encoding.Statement (.partitionMapChange p mask ranges root pasid queues dcs dbg svcs) := fun h => nomatch h
theorem Encoding.shootdownRequest (root : Option (BitVec 64)) (lo len : Nat) : Encoding.Statement (.shootdownRequest root lo len) := fun h => nomatch h
theorem Encoding.hostMemoryWrite (pa : Nat) (data : List (BitVec 8)) : Encoding.Statement (.hostMemoryWrite pa data) := fun h => nomatch h
theorem Encoding.hostMemoryRead (pa len : Nat) : Encoding.Statement (.hostMemoryRead pa len) := fun h => nomatch h
theorem Encoding.doorbell (v : BitVec 64) : Encoding.Statement (.doorbell v) := fun h => nomatch h
theorem Encoding.capWrite (v : BitVec 64) : Encoding.Statement (.capWrite v) := fun h => nomatch h
theorem Encoding.hostRegisterWrite (off : Nat) (v : BitVec 64) : Encoding.Statement (.hostRegisterWrite off v) := fun h => nomatch h
theorem Encoding.powerUp (temp : Nat) : Encoding.Statement (.powerUp temp) := fun h => nomatch h
theorem Encoding.powerSample (watts tj : Nat) : Encoding.Statement (.powerSample watts tj) := fun h => nomatch h
theorem Encoding.hbmScrub (pa : Nat) (bad : Bool) : Encoding.Statement (.hbmScrub pa bad) := fun h => nomatch h
theorem Encoding.sramScrub (core gran : Nat) (bad : Bool) : Encoding.Statement (.sramScrub core gran bad) := fun h => nomatch h
theorem Encoding.fatalError (cause unit : Nat) : Encoding.Statement (.fatalError cause unit) := fun h => nomatch h
theorem Encoding.ixdbRun (q : Nat) (desc : BitVec 64) (args : List (BitVec 64)) (harts : List Nat) (blk signal : BitVec 64) : Encoding.Statement (.ixdbRun q desc args harts blk signal) := fun h => nomatch h
theorem Encoding.ixdbBreak (pc : BitVec 64) : Encoding.Statement (.ixdbBreak pc) := fun h => nomatch h
theorem Encoding.ixdbStep (n : Nat) : Encoding.Statement (.ixdbStep n) := fun h => nomatch h
theorem Encoding.ixdbHart (hart : Nat) : Encoding.Statement (.ixdbHart hart) := fun h => nomatch h
theorem Encoding.ixdbFollow (cue : BitVec 64) : Encoding.Statement (.ixdbFollow cue) := fun h => nomatch h
theorem Encoding.ixdbRegs (ids : List Nat) : Encoding.Statement (.ixdbRegs ids) := fun h => nomatch h
theorem Encoding.ixdbMem (addr : BitVec 64) (n : Nat) (f : BitVec 5) : Encoding.Statement (.ixdbMem addr n f) := fun h => nomatch h
theorem Encoding.ixdbBank (core off n : Nat) : Encoding.Statement (.ixdbBank core off n) := fun h => nomatch h
theorem Encoding.ixdbCue (addr : BitVec 64) : Encoding.Statement (.ixdbCue addr) := fun h => nomatch h
theorem Encoding.ixdbExplain (w : BitVec 64) : Encoding.Statement (.ixdbExplain w) := fun h => nomatch h
theorem Encoding.ixdbCall (dc : Nat) (pc : BitVec 64) (args : List (BitVec 64)) : Encoding.Statement (.ixdbCall dc pc args) := fun h => nomatch h
theorem Encoding.ixdbEngineHold (cluster : Nat) : Encoding.Statement (.ixdbEngineHold cluster) := fun h => nomatch h
theorem Encoding.ixdbEngineRelease (cluster : Nat) : Encoding.Statement (.ixdbEngineRelease cluster) := fun h => nomatch h
theorem Encoding.ixdbTakeover (dc set : Nat) (pc : BitVec 64) : Encoding.Statement (.ixdbTakeover dc set pc) := fun h => nomatch h
theorem Encoding.ixdbInject (dc : Nat) : Encoding.Statement (.ixdbInject dc) := fun h => nomatch h
theorem Encoding.ixdbJournal (set : Nat) : Encoding.Statement (.ixdbJournal set) := fun h => nomatch h
theorem Encoding.ixdbPtab (entry : Nat) : Encoding.Statement (.ixdbPtab entry) := fun h => nomatch h
theorem Encoding.ixdbQueue (q : Nat) : Encoding.Statement (.ixdbQueue q) := fun h => nomatch h
theorem Encoding.ixdbWatch (addr : BitVec 64) : Encoding.Statement (.ixdbWatch addr) := fun h => nomatch h
theorem Encoding.debuggerWrite (hart : Nat) (what : Nat) (v : BitVec 512) (f : BitVec 4) : Encoding.Statement (.debuggerWrite hart what v f) := fun h => nomatch h
theorem Encoding.localInterrupt17Service (set : Nat) : Encoding.Statement (.localInterrupt17Service set) := fun h => nomatch h
theorem Encoding.forensicEntryRelease (cluster table index : Nat) : Encoding.Statement (.forensicEntryRelease cluster table index) := fun h => nomatch h
theorem Encoding.hostLinkRetrain (width rate : Nat) : Encoding.Statement (.hostLinkRetrain width rate) := fun h => nomatch h
theorem Encoding.hartReset (hart : Nat) : Encoding.Statement (.hartReset hart) := fun h => nomatch h
theorem Encoding.stagehouseUnpark (hart : Nat) (v : BitVec 64) : Encoding.Statement (.stagehouseUnpark hart v) := fun h => nomatch h
theorem Encoding.rv64gcInstruction (op : RvgOp) : Encoding.Statement (.rv64gcInstruction op) := by
  cases op <;> first | exact fun _ => rfl | (rename_i k _ _ _ _ _; cases k <;> exact fun _ => rfl)
theorem Encoding.interpreterContextSwitch (dc : Nat) (pc : BitVec 64) (regs : List (BitVec 64)) : Encoding.Statement (.interpreterContextSwitch dc pc regs) := fun h => nomatch h
theorem Encoding.ecall : Encoding.Statement (.ecall) := fun _ => rfl
theorem Encoding.ebreak : Encoding.Statement (.ebreak) := fun _ => rfl
theorem Encoding.chorusLeave : Encoding.Statement (.chorusLeave) := fun _ => rfl
theorem Encoding.cueExit : Encoding.Statement (.cueExit) := fun _ => rfl
theorem Encoding.tret : Encoding.Statement (.tret) := fun _ => rfl
theorem Encoding.reset : Encoding.Statement (.reset) := fun h => nomatch h
theorem Encoding.configRequest : Encoding.Statement (.configRequest) := fun h => nomatch h
theorem Encoding.dumpAck : Encoding.Statement (.dumpAck) := fun h => nomatch h
theorem Encoding.readWearCounters : Encoding.Statement (.readWearCounters) := fun h => nomatch h
theorem Encoding.attestationReport : Encoding.Statement (.attestationReport) := fun h => nomatch h
theorem Encoding.readFatalRecord : Encoding.Statement (.readFatalRecord) := fun h => nomatch h
theorem Encoding.stopQueue : Encoding.Statement (.stopQueue) := fun h => nomatch h
theorem Encoding.resumeQueue : Encoding.Statement (.resumeQueue) := fun h => nomatch h
theorem Encoding.mailboxUnknownCommand : Encoding.Statement (.mailboxUnknownCommand) := fun h => nomatch h
theorem Encoding.clockStepUp : Encoding.Statement (.clockStepUp) := fun h => nomatch h
theorem Encoding.recalibration : Encoding.Statement (.recalibration) := fun h => nomatch h
theorem Encoding.wearCheckpoint : Encoding.Statement (.wearCheckpoint) := fun h => nomatch h
theorem Encoding.telemetrySample : Encoding.Statement (.telemetrySample) := fun h => nomatch h
theorem Encoding.ixdbCont : Encoding.Statement (.ixdbCont) := fun h => nomatch h
theorem Encoding.ixdbStepi : Encoding.Statement (.ixdbStepi) := fun h => nomatch h
theorem Encoding.ixdbList : Encoding.Statement (.ixdbList) := fun h => nomatch h
theorem Encoding.ixdbQuit : Encoding.Statement (.ixdbQuit) := fun h => nomatch h
theorem Encoding.ixdbKicks : Encoding.Statement (.ixdbKicks) := fun h => nomatch h
theorem Encoding.powerLoss : Encoding.Statement (.powerLoss) := fun h => nomatch h
theorem Encoding.orderlyShutdown : Encoding.Statement (.orderlyShutdown) := fun h => nomatch h
theorem Encoding.refreshManagement : Encoding.Statement (.refreshManagement) := fun h => nomatch h

end Sys2Proof.Laws
end

