-- ==== Sys2Proof/Tests/Slice0.lean ====
section
/-!
SUPPORT. Tests: words written from the encoding tables decode to their instructions, ill-formed terms are refused, single
steps give the results the manual states, and the hypotheses of every statement are met by a state written here.
-/

namespace Sys2Proof.Tests

open Machine Safety

-- one theorem after another: each worker of its own would take memory the whole package needs
set_option Elab.async false

/-- The decoder reads the word as the instruction. -/
def reads (dir : Bool) (p : Nat × Instr) : Bool :=
  match decode dir (parcelLen (p.1 % 65536)) p.1 with
  | .ok i => i == p.2
  | .error _ => false

/-! ### Words (R46 to R75) -/


theorem test_words_RV64I_1 : [
    (0x405201B3, .rv64iAlu .sub 3 4 (.reg 5)), (0x4020DFBB, .rv64iAlu .sraw 31 1 (.reg 2)),
    (0xFFD42393, .rv64iAlu .slt 7 8 (.imm 0xFFD)), (0x43F45393, .rv64iAlu .sra 7 8 (.imm 63)),
    (0xABCDE497, .auipc 9 0xABCDE), (0x23130B3, .mul .mulhu 1 2 3),
    (0x23160BB, .div .remw 1 2 3), (0x80B56063, .branch .bltu 10 11 0x800),
    (0x7EB51F63, .branch .bne 10 11 0x3FF), (0x1000EF, .jal 1 0x400),
    (0x7FF100E7, .jalr 1 2 0x7FF), (0xFFF36283, .scalarLoad .lwu 5 6 0xFFF),
    (0xFE533023, .scalarStore .sd 5 6 0xFE0), (0x8C30000F, .fence 8 12 3 0 0)].all (reads false) = true := by decide +kernel

theorem test_words_RV64I_2 : [
    (0x73, .ecall), (0x100073, .ebreak),
    (0xCC029273, .csrrw 4 0xCC0 5), (0xCC02A273, .csrrs 4 0xCC0 5),
    (0xCC02B273, .csrrc 4 0xCC0 5), (0x805FD273, .csrrwi 4 0x805 31),
    (0x805FE273, .csrrsi 4 0x805 31), (0x805FF273, .csrrci 4 0x805 31),
    (0x1, .zcaInstruction (.addi 0 0)), (0x9002, .zcaInstruction .ebreak),
    (0x8082, .zcaInstruction (.jr 1)), (0x4501, .zcaInstruction (.li 10 0)),
    (0x6188, .zcaInstruction (.ld 2 3 0))].all (reads false) = true := by decide +kernel

theorem test_words_custom0_1 : [
    (0x83808B, .lpSet 1 7 8), (0x200000B, .lpOff 0),
    (0xFFF3108B, .lpSetup 1 6 0xFFF), (0x3FA00B, .lpSetupi 0 31 3),
    (0x491800B, .killX 3 9), (0x7F0000B, .killV 0 31),
    (0xFFE2B08B, .jalrD 1 5 0xFFE), (0x8020C10B, .jalD 2 0x10041),
    (0x830048B, .chorusForm 9 3), (0xA00000B, .chorusLeave),
    (0xC00048B, .chorusId 9), (0x7FFFD00B, .safept 0xFFFF),
    (0x1002018B, .cueResume 3 4), (0x1202000B, .cueYield 4)].all (reads false) = true := by decide +kernel

theorem test_words_custom0_2 : [
    (0x1452018B, .cueSpawn 3 4 5), (0x1652018B, .cueWait 3 4 5),
    (0x1800000B, .cueExit), (0x1A00018B, .cueSelf 3),
    (0x20C5850B, .salloc 10 11 12), (0x22C5850B, .sallocA 10 11 12),
    (0x2405080B, .sfree 16 10), (0x2612888B, .genRd 17 5 1),
    (0x3000000B, .tret)].all (reads false) = true := by decide +kernel

theorem test_words_custom1_1 : [
    (0x25201AB, .amoAdd false true 0 3 4 5), (0xE5211AB, .amoSwap true true 1 3 4 5),
    (0x125221AB, .amoCas false true 2 3 4 5), (0x1E5231AB, .amoMin true true 3 3 4 5),
    (0x225241AB, .amoMax false true 4 3 4 5), (0x2E5251AB, .amoMinu true true 5 3 4 5),
    (0x325201AB, .amoMaxu false true 0 3 4 5), (0x3E5211AB, .amoAnd true true 1 3 4 5),
    (0x425221AB, .amoOr false true 2 3 4 5), (0x4E5231AB, .amoXor true true 3 3 4 5),
    (0x525241AB, .amoAddb false true 4 3 4 5), (0x15602B, .sbind 1 10),
    (0x230602B, .sunbind 3), (0x420632B, .sstat 6 2)].all (reads false) = true := by decide +kernel

theorem test_words_custom1_2 : [
    (0x662E52B, .seal 10 5 6), (0x862E52B, .unseal 10 5 6)].all (reads false) = true := by decide +kernel

theorem test_words_custom2_1 : [
    (0x5855B, .msgRecv 10 11), (0x205855B, .msgPoll 10 11),
    (0x4B5035B, .msgPut 6 10 11), (0x6B2055B, .dqPush 10 4 11),
    (0x805825B, .dqPop 4 11), (0xA25005B, .qPushX 2 10),
    (0xA1200DB, .qPushV 1 4), (0xC30055B, .qPopX 10),
    (0xC30825B, .qPopV 4), (0xE30055B, .qStat 10 3),
    (0x1005855B, .svcCall 10 11), (0x1205005B, .qkSet 10),
    (0x18B5005B, .barInit 10 11), (0xA00105B, .publish 5)].all (reads false) = true := by decide +kernel

theorem test_words_custom2_2 : [
    (0x1200105B, .refresh 1), (0x20B5105B, .msgSend 10 11),
    (0x32B5105B, .msgSendRel 1 10 11), (0x35205B, .barBind 3 10),
    (0x13F5A55B, .barArrive 10 11 63), (0x2035A55B, .barWait 10 11 3)].all (reads false) = true := by decide +kernel

theorem test_words_class1 : [
    (0x17A808600C410BF, .vaddFp { la := 5, fi := true, fo := true, rm := 3, sat := true, m := 6 } 4 1 2 3), (0x17A828600C410BF, .vsubFp { la := 5, fi := true, fo := true, rm := 3, sat := true, m := 6 } 4 1 2 3),
    (0x17A848600C410BF, .vmulFp { la := 5, fi := true, fo := true, rm := 3, sat := true, m := 6 } 4 1 2 3), (0x17A8A8600C410BF, .vdiv { la := 5, fi := true, fo := true, rm := 3, sat := true, m := 6 } 4 1 2 3),
    (0x17A86C620C410BF, .vfma { la := 5, fi := true, fo := true, rm := 3, sat := true, m := 6 } 6 1 2 3 4), (0x17A88C620C410BF, .vfms { la := 5, fi := true, fo := true, rm := 3, sat := true, m := 6 } 6 1 2 3 4),
    (0x17A8C26000410BF, .vsqrt { la := 5, fi := true, fo := true, rm := 3, sat := true, m := 6 } 1 1 2), (0x80EA7077C1FBF, .vminFp { fi := true, m := 7 } 5 31 30 29),
    (0x810A7077C1FBF, .vmaxFp { fi := true, m := 7 } 5 31 30 29), (0x2000124400C410BF, .vcmpFp { m := 4 } 2 2 1 2 3),
    (0x1E014E100C410BF, .vlmul { rm := 7, sat := true, m := 1 } 1 2 3), (0x496E2141010BF, .vldot { la := 9, m := 2 } 2 1 8 16),
    (0x80184020C410BF, .vgumbel { rm := 4 } 1 2 3 4)].all (reads false) = true := by decide +kernel

theorem test_words_class2_1 : [
    (0x8104812200C420BF, .vaddInt { la := 9, sat := true, m := 2 } ⟨9, true⟩ 1 2 3), (0x8104834200C420BF, .vsubInt { la := 9, sat := true, m := 2 } ⟨10, true⟩ 1 2 3),
    (0x8104856200C420BF, .vmulInt { la := 9, sat := true, m := 2 } ⟨11, true⟩ 1 2 3), (0x8004878200C420BF, .vminInt { la := 9, m := 2 } ⟨12, true⟩ 1 2 3),
    (0x8004898200C420BF, .vmaxInt { la := 9, m := 2 } ⟨12, true⟩ 1 2 3), (0x48B4200C420BF, .vsll { la := 9, m := 2 } 10 1 2 3),
    (0x48D4200C420BF, .vsrl { la := 9, m := 2 } 10 1 2 3), (0x48F4200C420BF, .vsra { la := 9, m := 2 } 10 1 2 3),
    (0x4900200C420BF, .vand { la := 9, m := 2 } 0 1 2 3), (0x4920200C420BF, .vor { la := 9, m := 2 } 0 1 2 3),
    (0x4940200C420BF, .vxor { la := 9, m := 2 } 0 1 2 3), (0xB004976200C422BF, .vcmpInt { la := 9, m := 2 } ⟨11, true⟩ 3 5 2 3),
    (0x499A238C420BF, .vsel { la := 9, m := 2 } 13 1 2 3 7), (0x50049A0000C420BF, .vmlog { la := 9 } 5 1 2 3)].all (reads false) = true := by decide +kernel

theorem test_words_class2_2 : [
    (0x49C00000E24BF, .vmpop { la := 9 } 9 7)].all (reads false) = true := by decide +kernel

theorem test_words_class3 : [
    (0x17A80461F0430BF, .vcvt { la := 5, fi := true, fo := true, rm := 3, sat := true, m := 6 } ⟨2, false⟩ ⟨12, true⟩ 1 2 3), (0x483A0000430BF, .vtag { la := 9 } 13 1 2),
    (0x1048502002030BF, .vpackt { la := 9, sat := true, m := 2 } 1 16), (0x4870200023C3F, .vunpackt { la := 9, m := 2 } 24 1),
    (0xC8882108430BF, .vosplit { la := 9, fi := true, m := 2 } 4 2 1 2 2)].all (reads false) = true := by decide +kernel

theorem test_words_class4 : [
    (0x7A8026000440BF, .vrcp { la := 5, fi := true, fo := true, rm := 3, m := 6 } 1 1 2), (0x7A8246000440BF, .vrsqrt { la := 5, fi := true, fo := true, rm := 3, m := 6 } 2 1 2),
    (0x7A8466000440BF, .vexp2 { la := 5, fi := true, fo := true, rm := 3, m := 6 } 3 1 2), (0x7A8686000440BF, .vlog2 { la := 5, fi := true, fo := true, rm := 3, m := 6 } 4 1 2)].all (reads false) = true := by decide +kernel

theorem test_words_class5 : [
    (0xF80061000450BF, .vredsum { fi := true, fo := true, rm := 7, m := 1 } ⟨3, false⟩ 1 2), (0x80048362000450BF, .vredmax { la := 9, m := 2 } ⟨11, true⟩ 1 2),
    (0x80048562000450BF, .vredmin { la := 9, m := 2 } ⟨11, true⟩ 1 2), (0x806C000C450BF, .vargmax { fi := true } ⟨6, false⟩ 1 2 3),
    (0x4890200C450BF, .vperm { la := 9, m := 2 } 8 1 2 3), (0x48B0200C450BF, .vslide { la := 9, m := 2 } 8 1 2 3),
    (0x48D0200C450BF, .vbcast { la := 9, m := 2 } 8 1 2 3), (0x48FA000C450BF, .vins { la := 9 } 13 1 2 3),
    (0x491A000C450BF, .vext { la := 9 } 13 1 2 3)].all (reads false) = true := by decide +kernel

theorem test_words_class6 : [
    (0x41100A623F, .vld { m := 1 } ⟨2, false⟩ 4 5 2), (0x80048322F80A623F, .vst { la := 9, m := 2 } ⟨9, true⟩ 4 5 31),
    (0x100000400038623F, .vldDiag {} ⟨2, false⟩ 4 28), (0x10048222000A623F, .vstDiag { la := 9, m := 2 } ⟨1, false⟩ 4 5),
    (0x485A2018A623F, .vlds { la := 9, m := 2 } ⟨13, false⟩ 4 5 6), (0x487A2018A623F, .vsts { la := 9, m := 2 } ⟨13, false⟩ 4 5 6),
    (0x489A2018A623F, .vldx { la := 9, m := 2 } ⟨13, false⟩ 4 5 6), (0x48BA2018A623F, .vstx { la := 9, m := 2 } ⟨13, false⟩ 4 5 6),
    (0x48C00398A603F, .tdecl { la := 9 } 5 6 7)].all (reads false) = true := by decide +kernel

theorem test_words_class7 : [
    (0x3000000E6B16753F, .mxMma {} true true 10 11 12 13 14), (0x2004820E6B16753F, .mxMmsp { la := 9 } false true 10 11 12 13 14),
    (0x484000316703F, .mxZero { la := 9 } 11 12), (0x10048600181A743F, .mxLd { la := 9 } true 3 8 13),
    (0x48800101A743F, .mxSt { la := 9 } 2 8 13), (0x48A000014703F, .mxCfg { la := 9 } 10),
    (0x48C00001474BF, .mxTask { la := 9 } 9 10)].all (reads false) = true := by decide +kernel

theorem test_words_class8 : [
    (0x14803F, .slCfg {} 10), (0x100000000000803F, .slCfgClose {}),
    (0x2000000853F, .slRun {} 10), (0x4000016853F, .slPassCount {} 10 11),
    (0x100004000016853F, .slPassDecide {} 10 11), (0x200006000000853F, .slGet {} 2 10),
    (0x200008000316853F, .slMask {} 2 10 11 12)].all (reads false) = true := by decide +kernel

theorem test_words_class910 : [
    (0x180000A00016953F, .phase {} 1 4 5 10 11), (0x49FE00016A53F, .netRedMaxi { la := 9 } 0 255 10 11),
    (0x12049FE00016A53F, .netRedSum { la := 9 } 1 255 10 11), (0x24049FE00016A53F, .netRedSumv { la := 9 } 2 255 10 11),
    (0x36049FE00016A53F, .netRedAnd { la := 9 } 3 255 10 11), (0x48049FE00016A53F, .netRedOr { la := 9 } 4 255 10 11)].all (reads false) = true := by decide +kernel

theorem test_words_director_1 : [
    (0x124857B, .bcNext 10 9 18), (0x205007B, .icInv 10),
    (0x405857B, .txIssue 10 11), (0x605857B, .txWait 10 11),
    (0x805857B, .rcInc 10 11), (0xA05857B, .rcDec 10 11),
    (0xFFF5957B, .icLd 10 11 0xFFF), (0xFEC5A0FB, .icSt 12 11 0xFE1),
    (0xFEB53FFB, .gdShape 10 11 0xFFF), (0x455407B, .gdTag 10 5 32),
    (0x25D57B, .obLd 10 11 2), (0xC5E1FB, .obSt 12 11 3),
    (0x1405855B, .qkScan 10 11), (0x16C5855B, .jlPut 10 11 12)].all (reads true) = true := by decide +kernel

theorem test_words_director_2 : [
    (0x10200073, .rv64gcInstruction .sret), (0x10500073, .rv64gcInstruction .wfi),
    (0x12B50073, .rv64gcInstruction (.sfenceVma 10 11)), (0x160332AF, .rv64gcInstruction (.lr true true true 5 6)),
    (0x187322AF, .rv64gcInstruction (.sc false false false 5 6 7)), (0xE27322AF, .rv64gcInstruction (.amo .maxu false false true 5 6 7)),
    (0xFF833287, .rv64gcInstruction (.fload true 5 6 0xFF8)), (0x532227, .rv64gcInstruction (.fstore false 5 6 4)),
    (0x223170CF, .rv64gcInstruction (.fma true true true 7 1 2 3 4)), (0x123110D3, .rv64gcInstruction (.fop .mul true 1 1 2 3)),
    (0x580170D3, .rv64gcInstruction (.fop .sqrt false 7 1 2 0)), (0x203120D3, .rv64gcInstruction (.fop .sgnjx false 0 1 2 3)),
    (0x2A3110D3, .rv64gcInstruction (.fop .max true 0 1 2 3)), (0xA23120D3, .rv64gcInstruction (.fcmp 2 true 1 2 3))].all (reads true) = true := by decide +kernel

theorem test_words_director_3 : [
    (0xE00110D3, .rv64gcInstruction (.fclass false 1 2)), (0xC23110D3, .rv64gcInstruction (.fcvtToInt true 3 1 1 2)),
    (0xD01100D3, .rv64gcInstruction (.fcvtFromInt false 1 0 1 2)), (0x401100D3, .rv64gcInstruction (.fcvtFF false 0 1 2)),
    (0xE20100D3, .rv64gcInstruction (.fmvToX true 1 2)), (0xF00100D3, .rv64gcInstruction (.fmvFromX false 1 2)),
    (0x100F, .rv64gcInstruction (.fenceI 0 0 0)), (0x2188, .rv64gcInstruction (.cfld 2 3 0)),
    (0xA188, .rv64gcInstruction (.cfsd 2 3 0)), (0x2502, .rv64gcInstruction (.cfldsp 10 0)),
    (0xA02A, .rv64gcInstruction (.cfsdsp 10 0))].all (reads true) = true := by decide +kernel


set_option synthInstance.maxSize 4000

/-! ### Small states -/

/-- The first byte of a hart's own bank. -/
def bnk : Nat := Claims.bankBase

/-- A live allocation of a table. -/
def al (b l g : Nat) : Alloc := { st := .live, base := b, len := l, gen := BitVec.ofNat 16 g }

/-- A granule with bytes f + 1 to f + 32. -/
def gr (t : Nat) (p : Bool) (f : Nat) : Gran :=
  { data := (List.range 32).map fun i => (i, BitVec.ofNat 8 (f + i + 1)), tag := BitVec.ofNat 16 t, poison := p }

/-- A granule that holds four words. -/
def gw (t : Nat) (ws : List Nat) : Gran :=
  { data := ((List.range ws.length).flatMap fun k =>
      (List.range 8).map fun i => (8 * k + i, BitVec.ofNat 8 (ws.getD k 0 / 256 ^ i))).filter (·.2 != 0)
    tag := BitVec.ofNat 16 t, poison := false }

/-- x registers live under generation 3, and v registers of a format. -/
def xs (l : List (Nat × Nat)) : KMap XReg := l.map fun p => (p.1, { val := BitVec.ofNat 64 p.2, gen := 3 })
def vs (l : List (Nat × Nat × Nat)) : KMap VReg :=
  l.map fun p => (p.1, { val := BitVec.ofNat 512 p.2.2, gen := 3, fmt := BitVec.ofNat 4 p.2.1 })

/-- Hart 5 in cue mode, its turn: an allocation of generation 3 at the start of its bank, global memory mapped at
0x400000 to 0x10000. -/
def base : State :=
  { (State.reset.setCore 1 { alloc := [(0, al 0 512 3)], gran := [(0, gr 3 false 10), (1, gr 3 false 20), (2, gr 3 true 30)] }).setHart 5
      { house := false, rgen := 3, pc := 0x1000, cueptr := BitVec.ofNat 64 (bnk + 4096), resume := some (0x700, 3) } with
    cur := .hart 5
    parts := [(0, { clusters := [0], root := 0x1000, ranges := [(0x10000, 0x10000)], svcs := [7], queues := [9] })]
    clusters := [(0, { utlb := [⟨0x1000, 0x400000, 12, 0x10000, true, true, true, true, true⟩] })]
    mem := (List.range 64).map fun i => (0x10000 + i, BitVec.ofNat 8 (i + 7)) }

/-- The base state with x registers, and with a change to hart 5. -/
def wx (l : List (Nat × Nat)) : State := base.setHart 5 { base.hart 5 with x := xs l }
def wh (f : Hart → Hart) (s : State := base) : State := s.setHart 5 (f (s.hart 5))

/-- Director core 0 on its turn. -/
def dbase (user : Bool := false) (l : List (Nat × Nat) := []) : State :=
  { State.reset.setDir 0 { (State.reset.dir 0) with
      user := user, pc := 0x1000, x := l.map fun p => (p.1, BitVec.ofNat 64 p.2) } with cur := .dir 0 }

/-- The instruction's step from a state gives a next state of which something holds. -/
def runs (i : Instr) (s : State) (p : State → Bool) : Bool :=
  match exec i s with
  | .next t => p t
  | _ => false

/-- A call that succeeds, or takes a trap, has a value and a state. -/
theorem ok_of {ε α : Type} {m : Except ε α × State} (p : α → Bool)
    (h : (match m.1 with | .ok a => p a | .error _ => false) = true) : ∃ a t, m = (.ok a, t) ∧ p a = true := by
  obtain ⟨r, t⟩ := m
  cases r with
  | error e => simp at h
  | ok a => exact ⟨a, t, rfl, h⟩

theorem ok2_of {ε α : Type} {m : Except ε α × State} (p : α → State → Bool)
    (h : (match m.1 with | .ok a => p a m.2 | .error _ => false) = true) : ∃ a t, m = (.ok a, t) ∧ p a t = true := by
  obtain ⟨r, t⟩ := m
  cases r with
  | error e => simp at h
  | ok a => exact ⟨a, t, rfl, h⟩

theorem error_of {ε α : Type} {m : Except ε α × State} (p : ε → Bool)
    (h : (match m.1 with | .ok _ => false | .error e => p e) = true) : ∃ e t, m = (.error e, t) ∧ p e = true := by
  obtain ⟨r, t⟩ := m
  cases r with
  | ok a => simp at h
  | error e => exact ⟨e, t, rfl, h⟩


/-! ### Ill-formed terms: one for each check of `Instr.wf` -/

def illScalar : List Instr := [
  .rv64iAlu .sub 1 2 (.imm 3), .rv64iAlu .subw 1 2 (.imm 3), .rv64iAlu .sll 1 2 (.imm 64), .rv64iAlu .srl 1 2 (.imm 64), .rv64iAlu .sra 1 2 (.imm 64),
  .rv64iAlu .sllw 1 2 (.imm 32), .rv64iAlu .srlw 1 2 (.imm 32), .rv64iAlu .sraw 1 2 (.imm 32),
  .zcaInstruction (.addi4spn 1 0), .zcaInstruction (.addiw 0 1), .zcaInstruction (.addi16sp 0), .zcaInstruction (.lui 2 1), .zcaInstruction (.lui 1 0),
  .zcaInstruction (.lwsp 0 1), .zcaInstruction (.ldsp 0 1), .zcaInstruction (.jr 0), .zcaInstruction (.mv 1 0), .zcaInstruction (.jalr 0), .zcaInstruction (.add 1 0),
  .illegalInstruction 0, .lpSetup 0 1 2, .lpSetupi 0 1 2, .killX 5 4, .killV 5 4, .chorusForm 1 0, .genRd 1 2 2,
  .amoAdd true true 6 1 2 3, .amoSwap true true 6 1 2 3, .amoCas true true 6 1 2 3, .amoMin true true 6 1 2 3, .amoMax true true 6 1 2 3, .amoMinu true true 6 1 2 3,
  .amoMaxu true true 6 1 2 3, .amoAnd true true 6 1 2 3, .amoOr true true 6 1 2 3, .amoXor true true 6 1 2 3, .amoAddb true true 7 1 2 3,
  .qPushX 3 1, .qPushV 3 1, .publish 6, .refresh 6, .msgSendRel 6 1 2,
  .rv64gcInstruction (.fma true true true 5 1 2 3 4), .rv64gcInstruction (.fop .add true 6 1 2 3), .rv64gcInstruction (.fop .sqrt true 0 1 2 3),
  .rv64gcInstruction (.fop .sgnj true 1 1 2 3), .rv64gcInstruction (.fcmp 3 true 1 2 3), .rv64gcInstruction (.fcvtToInt true 0 5 1 2),
  .rv64gcInstruction (.fcvtFromInt true 0 5 1 2), .rv64gcInstruction (.fcvtFF true 5 1 2)]

def illVector : List Instr := [
  .vaddFp {} 0 1 2 3, .vsubFp {} 7 1 2 3, .vmulFp { rm := 5 } 1 1 2 3, .vfma { rm := 6 } 1 1 2 3 4, .vfms {} 9 1 2 3 4, .vdiv {} 5 1 2 3, .vsqrt {} 5 1 2,
  .vminFp { rm := 1 } 1 1 2 3, .vmaxFp { sat := true } 1 1 2 3, .vmaxFp { fo := true } 1 1 2 3, .vcmpFp {} 8 0 1 2 3, .vcmpFp {} 1 0 0 2 3,
  .vlmul { fi := true } 1 2 3, .vldot { rm := 1 } 0 1 2 3, .vldot {} 1 1 3 4, .vldot {} 1 1 4 3, .vldot {} 1 4 4 6, .vldot {} 1 4 6 4, .vgumbel { rm := 5 } 1 2 3 4,
  .vaddInt {} { code := 1 } 1 2 3, .vsubInt { fi := true } { code := 9 } 1 2 3, .vmulInt { fo := true } { code := 9 } 1 2 3, .vminInt { sat := true } { code := 9 } 1 2 3,
  .vmaxInt { rm := 1 } { code := 9 } 1 2 3, .vsll {} 1 1 2 3, .vsrl { sat := true } 9 1 2 3, .vsra {} 13 1 2 3, .vand {} 1 1 2 3, .vor {} 7 1 2 3, .vxor { rm := 1 } 0 1 2 3,
  .vcmpInt {} { code := 9 } 0 0 2 3, .vcmpInt {} { code := 9 } 6 1 2 3, .vsel {} 14 1 2 3 4, .vmlog { m := 1 } 0 1 2 3, .vmlog {} 0 0 2 3, .vmpop { m := 1 } 1 2,
  .vcvt {} { code := 7 } { code := 9 } 1 2 0, .vcvt {} { code := 9 } { code := 7 } 1 2 0, .vcvt {} { code := 8 } { code := 1 } 1 2 0,
  .vcvt {} { code := 1, uns := true } { code := 2 } 1 2 0, .vcvt {} { code := 2 } { code := 1, uns := true } 1 2 0, .vcvt {} { code := 1 } { code := 2 } 1 2 2,
  .vtag { m := 1 } 1 1 2, .vtag {} 14 1 2, .vpackt { rm := 1 } 1 8, .vpackt {} 1 9, .vpackt {} 9 8, .vunpackt { sat := true } 8 1, .vunpackt {} 9 1, .vunpackt {} 8 9,
  .vosplit {} 7 1 1 2 0, .vosplit {} 5 5 1 2 0, .vosplit {} 2 3 1 2 0, .vosplit {} 3 2 1 2 3, .vosplit { rm := 1 } 3 2 1 2 0,
  .vrcp {} 5 1 2, .vrsqrt { sat := true } 1 1 2, .vexp2 {} 0 1 2, .vlog2 { rm := 5 } 1 1 2, .vredsum {} { code := 5 } 1 2, .vredsum {} { code := 1, uns := true } 1 2,
  .vredsum { sat := true } { code := 1 } 1 2, .vredmax {} { code := 7 } 1 2, .vredmin { rm := 1 } { code := 1 } 1 2, .vargmax {} { code := 1, uns := true } 1 2 3,
  .vperm {} 14 1 2 3, .vslide { fi := true } 1 1 2 3, .vbcast { rm := 1 } 1 1 2 3, .vins { m := 1 } 1 1 2 3, .vext {} 15 1 2 3]

def illEngines : List Instr := [
  .vld {} { code := 14 } 1 2 0, .vst { fi := true } { code := 1 } 1 2 0, .vldDiag {} { code := 1, uns := true } 1 2, .vstDiag { rm := 1 } { code := 1 } 1 2,
  .vlds { sat := true } { code := 1 } 1 2 3, .vsts {} { code := 15 } 1 2 3, .vldx { fo := true } { code := 1 } 1 2 3, .vstx {} { code := 0, uns := true } 1 2 3, .tdecl { m := 1 } 1 2 3,
  .mxMma { m := 1 } true true 1 2 3 4 5, .mxMmsp { rm := 1 } true true 1 2 3 4 5, .mxZero { sat := true } 1 2, .mxLd {} true 1 1 2, .mxLd { fi := true } true 0 1 2, .mxSt {} 2 2 1,
  .mxSt { fo := true } 0 1 2, .mxCfg { m := 1 } 1, .mxTask { m := 1 } 1 2, .slCfg { m := 1 } 1, .slCfgClose { rm := 1 }, .slRun { m := 1 } 1, .slPassCount { m := 1 } 1 2,
  .slPassDecide { m := 1 } 1 2, .slGet { m := 1 } 0 1, .slMask {} 3 1 2 3, .slMask { m := 1 } 0 1 2 3, .phase { la := 1 } 0 0 0 1 2, .phase {} 0 6 0 1 2,
  .netRedMaxi {} 6 0 1 2, .netRedSum { m := 1 } 0 0 1 2, .netRedSumv {} 7 0 1 2, .netRedAnd {} 6 0 1 2, .netRedOr { rm := 1 } 0 0 1 2,
  .doorbell 0, .reset, .copy1d 0 0 0, .ixdbCont, .playLaunch 0 [] 0 0 0]

/-- Every term that breaks one check is ill-formed. -/
theorem test_illFormedScalar : (illScalar.all fun i => !i.wf) = true := by decide +kernel
theorem test_illFormedVector : (illVector.all fun i => !i.wf) = true := by decide +kernel
theorem test_illFormedEngines : (illEngines.all fun i => !i.wf) = true := by decide +kernel

/-- In edition 1 the fields la, fi and fo are free (R54). -/
theorem test_editionOneFields : (Instr.vmlog { ed1 := true, la := 3, fi := true, fo := true } 0 1 2 3).wf = true := by decide +kernel

/-! ### Single steps, with results worked out by hand from the rules -/

/-- A register of hart 5 after the instruction, from registers given. -/
def xAfter (i : Instr) (l : List (Nat × Nat)) (r v : Nat) : Bool :=
  runs i (wx l) fun t => (t.hart 5).xVal (BitVec.ofNat 5 r) == BitVec.ofNat 64 v && (t.hart 5).pc == 0x1004 && (t.hart 5).instret == 1

/-- R123: a sum wraps, and its source may be its destination. -/
theorem test_add_wraps : xAfter (.rv64iAlu .add 5 5 (.reg 6)) [(5, 2 ^ 64 - 1), (6, 3)] 5 2 = true := by decide +kernel
theorem test_sub_order : xAfter (.rv64iAlu .sub 5 6 (.reg 5)) [(5, 7), (6, 3)] 5 (2 ^ 64 - 4) = true := by decide +kernel
/-- A word operation sign-extends its 32-bit result; an arithmetic shift keeps the sign. -/
theorem test_addw_extends : xAfter (.rv64iAlu .addw 5 6 (.imm 1)) [(6, 0x7FFFFFFF)] 5 0xFFFFFFFF80000000 = true := by decide +kernel
theorem test_sraw : xAfter (.rv64iAlu .sraw 5 6 (.imm 4)) [(6, 0x80000000)] 5 0xFFFFFFFFF8000000 = true := by decide +kernel
theorem test_sltu_immediate : xAfter (.rv64iAlu .sltu 5 6 (.imm 0xFFF)) [(6, 5)] 5 1 = true := by decide +kernel
/-- Writes of x0 are dropped. -/
theorem test_x0 : xAfter (.rv64iAlu .add 0 6 (.imm 1)) [(6, 5)] 0 0 = true := by decide +kernel
theorem test_lui_extends : xAfter (.lui 5 0x80000) [] 5 0xFFFFFFFF80000000 = true := by decide +kernel
theorem test_auipc : xAfter (.auipc 5 0xFFFFF) [] 5 0 = true := by decide +kernel
theorem test_mulhsu : xAfter (.mul .mulhsu 5 6 7) [(6, 2 ^ 64 - 1), (7, 2)] 5 (2 ^ 64 - 1) = true := by decide +kernel
/-- Division by zero gives all ones, its remainder the dividend; the overflowing quotient is the dividend. -/
theorem test_div_by_zero : xAfter (.div .div 5 6 7) [(6, 9), (7, 0)] 5 (2 ^ 64 - 1) = true ∧ xAfter (.div .remu 5 6 7) [(6, 9), (7, 0)] 5 9 = true := by decide +kernel
theorem test_div_overflow : xAfter (.div .div 5 6 7) [(6, 2 ^ 63), (7, 2 ^ 64 - 1)] 5 (2 ^ 63) = true := by decide +kernel
/-- A register of an older generation reads as zero, and under gmode.reg its use traps as stale (R267, R287). -/
theorem test_stale_zero : runs (.rv64iAlu .add 5 6 (.imm 1)) (wh fun h => { h with x := [(6, { val := 9, gen := 2 })] }) (fun t => (t.hart 5).xVal 5 == 1) = true := by decide +kernel
theorem test_stale_trap : runs (.rv64iAlu .add 5 6 (.imm 1)) (wh fun h => { h with gmode := 1, x := [(6, { val := 9, gen := 2 })] }) (fun t => (t.hart 5).tcause == 0x03 &&
    (t.hart 5).tval == 6 && (t.hart 5).tepc == 0x1000 && (t.hart 5).trapped) = true := by decide +kernel

/-- A taken branch, one that falls through, and the link of a jump. -/
theorem test_branch : runs (.branch .blt 5 6 0xFFE) (wx [(5, 2 ^ 64 - 1), (6, 0)]) (fun t => (t.hart 5).pc == 0xFFC) = true ∧
    runs (.branch .bltu 5 6 0xFFE) (wx [(5, 2 ^ 64 - 1), (6, 0)]) (fun t => (t.hart 5).pc == 0x1004) = true := by decide +kernel
theorem test_jalr : runs (.jalr 5 5 0xFFF) (wx [(5, 0x2002)]) (fun t => (t.hart 5).pc == 0x2000 && (t.hart 5).xVal 5 == 0x1004) = true := by decide +kernel
/-- A compressed instruction is two bytes long. -/
theorem test_compressed_length : runs (.zcaInstruction (.addiw 5 0x3F)) (wx [(5, 0)]) (fun t => (t.hart 5).pc == 0x1002 && (t.hart 5).xVal 5 == BitVec.ofNat 64 (2 ^ 64 - 1)) = true := by
  decide +kernel

/-- Bytes of the own bank and of global memory, lowest first; a signed byte extends. -/
theorem test_load_own : xAfter (.scalarLoad .lw 5 6 4) [(6, bnk)] 5 0x1211100F = true := by decide +kernel
theorem test_load_global : xAfter (.scalarLoad .lhu 5 6 2) [(6, 0x400000)] 5 0x0A09 = true := by decide +kernel
theorem test_load_signed : runs (.scalarLoad .lb 5 6 0) ({ wx [(6, 0x400000)] with mem := [(0x10000, 0x80)] }) (fun t => (t.hart 5).xVal 5 == 0xFFFFFFFFFFFFFF80) = true := by decide +kernel
/-- A poisoned load gives a poisoned register; a misaligned one traps. -/
theorem test_load_poison : runs (.scalarLoad .ld 5 6 0) (wx [(6, bnk + 64)]) (fun t => (KMap.get {} (t.hart 5).x 5).poison) = true := by decide +kernel
theorem test_load_misaligned : runs (.scalarLoad .ld 5 6 4) (wx [(6, bnk)]) (fun t => (t.hart 5).tcause == 0x05 && (t.hart 5).tval == BitVec.ofNat 64 (bnk + 4)) = true := by decide +kernel
/-- A store writes its bytes and no other. -/
theorem test_store_own : runs (.scalarStore .sh 5 6 2) (wx [(5, 0xABCDEF), (6, bnk)]) (fun t => (List.range 6).map (fun i => KMap.get 0 (Claims.bankGran t 1 0).data i) ==
    [11, 12, 0xEF, 0xCD, 15, 16]) = true := by decide +kernel

/-- Set 1 armed from two registers; a call of the environment; a return from it. -/
theorem test_lpSetup : runs (.lpSetup 1 5 10) (wx [(5, 7)]) (fun t => (t.hart 5).lp1 == { lps := 0x1004, lpe := 0x1014, lpc := 7 } && (t.hart 5).pc == 0x1004) = true := by decide +kernel
theorem test_ecall : runs .ecall (wh fun h => { h with tvec := 0x9000 }) (fun t => (t.hart 5).tcause == 0x0F && (t.hart 5).tepc == 0x1000 && (t.hart 5).pc == 0x9000) = true := by decide +kernel
theorem test_kill : runs (.killX 5 6) (wx [(5, 1), (6, 2), (7, 3)]) (fun t => !(t.hart 5).xLive 5 && !(t.hart 5).xLive 6 && (t.hart 5).xLive 7) = true := by decide +kernel

/-- Hart 5 with vector registers: 16 lanes of one 32-bit value. -/
def lanes (v : Nat) : Nat := ((List.range 16).map fun i => v * 2 ^ (32 * i)).sum
def vAfter (i : Instr) (l : List (Nat × Nat × Nat)) (f v : Nat) : Bool :=
  runs i (wh fun h => { h with v := vs l }) fun t => (t.hart 5).vVal 3 == BitVec.ofNat 512 v && (t.hart 5).vFmt 3 == f
/-- 1.0 + 2.0 = 3.0; 1 + 2 ^ -24 rounds to even; 3 × 5 + 1 in one rounding. -/
theorem test_vadd : vAfter (.vaddFp {} 2 3 1 2) [(1, 2, lanes 0x3F800000), (2, 2, lanes 0x40000000)] 2 (lanes 0x40400000) = true := by decide +kernel
theorem test_vadd_rounds : vAfter (.vaddFp {} 2 3 1 2) [(1, 2, lanes 0x3F800000), (2, 2, lanes 0x33800000)] 2 (lanes 0x3F800000) = true := by decide +kernel
theorem test_vfma : vAfter (.vfma {} 2 3 1 2 4) [(1, 2, lanes 0x40400000), (2, 2, lanes 0x40A00000), (4, 2, lanes 0x3F800000)] 2 (lanes 0x41800000) = true := by decide +kernel
/-- A saturating sum of 32-bit integers. -/
theorem test_vadd_saturates : vAfter (.vaddInt { sat := true } { code := 10 } 3 1 2) [(1, 10, lanes 0x7FFFFFFF), (2, 10, lanes 1)] 10 (lanes 0x7FFFFFFF) = true := by decide +kernel
/-- A format the operand does not have traps (R287). -/
theorem test_vadd_format : runs (.vaddFp {} 2 3 1 2) (wh fun h => { h with v := vs [(1, 3, 0), (2, 2, 0)] }) (fun t => (t.hart 5).tcause == 0x02) = true := by decide +kernel

/-- An atomic sum returns what it replaced; a kick sets its queue's bit; a fence only moves on. -/
theorem test_amoAdd : runs (.amoAdd true true 2 5 6 7) (wx [(6, bnk), (7, 1)]) (fun t => (t.hart 5).xVal 5 == 0x1211100F0E0D0C0B && KMap.get 0 (Claims.bankGran t 1 0).data 0 == 0x0C) = true := by
  decide +kernel
theorem test_fence : runs (.fence 0 15 15 0 0) base (fun t => (t.hart 5).pc == 0x1004) = true := by decide +kernel

/-- A director core's environment call, and a load that misses its alignment. -/
theorem test_director_ecall : runs .ecall (dbase true) (fun t => (t.dir 0).scause == 8 && (t.dir 0).sepc == 0x1000 && !(t.dir 0).user) = true := by decide +kernel
theorem test_director_add : runs (.rv64iAlu .add 5 6 (.imm 0xFFF)) (dbase false [(6, 0)]) (fun t => (t.dir 0).getX 5 == BitVec.ofNat 64 (2 ^ 64 - 1)) = true := by decide +kernel
/-! ### The hypotheses of the statements are met -/

theorem witness_integerAndJumpsOnHart :
    let s := wx [(31, 2 ^ 63), (6, 7)]
    let h := s.hart 5
    Free s 5 ∧ h.xReads 31 ∧ h.xReads 0 ∧ Claims.srcReads h (.reg 6) ∧ Claims.srcReads h (.imm 0xFFF) ∧ h.xUse 31 ∧ h.xUse 0 := by
  unfold Free Claims.srcReads Hart.xUse Hart.xReads
  decide +kernel

theorem witness_integerOnDirector : FreeDir (dbase true [(31, 9)]) 0 := by unfold FreeDir; decide +kernel

/-- Set 1 ends here with iterations left; set 1 does not and set 0 does; neither. -/
theorem witness_nextPc :
    let l (e c : Word) : LoopSet := { lps := 0x800, lpe := e, lpc := c }
    Claims.backs (l 0x1004 2) 1 0x1004 none = true ∧
    (Claims.backs (l 0x1004 1) 1 0x1004 none = false ∧ Claims.backs (l 0x1004 5) 0 0x1004 none = true) ∧
    (Claims.backs (l 0x1004 2) 1 0x1004 (some 1) = false ∧ Claims.backs (l 0x1008 5) 0 0x1004 none = false) := by
  decide +kernel

theorem witness_loopSets :
    let s := wx [(4, 0), (5, 2 ^ 64 - 1)]
    Free s 5 ∧ (s.hart 5).xUse 4 ∧ (s.hart 5).xUse 5 ∧ (s.hart 5).xUse 0 := by
  unfold Free Hart.xUse Hart.xReads; decide +kernel

theorem witness_deadMarking :
    let s := wh (fun h => { h with dmask := 0xFFFFFFFFFFFFFFFE, x := xs [(1, 1), (31, 0x2001)] })
    Free s 5 ∧ (s.hart 5).xUse 31 ∧ (s.hart 5).xUse 0 := by
  unfold Free Hart.xUse Hart.xReads; decide +kernel

/-- A CSR for all, one for house mode in house mode and in cue mode, a read-only one, and both kinds of form. -/
theorem witness_csrOnHart :
    let s := wx [(9, 2 ^ 64 - 1)]
    let k := wh (fun h => { h with house := true }) s
    (Free s 5 ∧ Free k 5 ∧ (s.hart 5).xUse 9 ∧ (k.hart 5).house = true ∧ (s.hart 5).house = false) ∧
    ((Claims.hartCsr 0x800).map (fun r => (r.own, r.put.isSome)) = some (false, true) ∧
      (Claims.hartCsr 0x844).map (fun r => (r.own, r.put.isSome)) = some (true, true) ∧
      (Claims.hartCsr 0x806).map (fun r => (r.own, r.put.isSome)) = some (true, true) ∧
      (Claims.hartCsr 0xCC0).map (fun r => (r.own, r.put.isSome)) = some (false, false)) ∧
    (Claims.CsrForm.w 0).writes = true ∧ (Claims.CsrForm.s 0).writes = false ∧ (Claims.CsrForm.ci 0).writes = false ∧
    (Claims.CsrForm.si 1).writes = true ∧ (Claims.CsrForm.s 9).reg = some 9 := by
  unfold Free Hart.xUse Hart.xReads; decide +kernel

/-- A stream CSR that binds, one that names x0, and the registers another stream holds. -/
theorem witness_streamCsrs :
    let k := wh fun h => { h with house := true, streams := [(1, { ctl := 7 })] }
    Free k 5 ∧ (k.hart 5).house = true ∧ (KMap.get {} (k.hart 5).streams 3).act = false ∧
    ((0x80000007 : Word).getLsbD 31 = true ∧ Claims.bindable (k.hart 5) 3 0x80000007) ∧
    ¬ ((0x80000000 : Word).getLsbD 31 = true ∧ Claims.bindable (k.hart 5) 3 0x80000000) ∧
    ¬ ((7 : Word).getLsbD 31 = true ∧ Claims.bindable (k.hart 5) 3 7) := by
  refine ⟨by unfold Free; decide +kernel, ?_⟩
  unfold Claims.bindable; dsimp only; and_intros <;> decide +kernel

theorem witness_csrOnDirector :
    (FreeDir (dbase false) 0 ∧ FreeDir (dbase true) 0 ∧ ((dbase false).dir 0).user = false ∧ ((dbase true).dir 0).user = true) ∧
    (List.map (fun c => (Claims.dirCsr 0 c).map fun r => (r.own, r.put.isSome)) [0x140, 0x5C0, 0xCC1, 0xDC0, 0x5D0, 0x5D3, 0x5D4, 0x5DB, 0x5DC]) =
      [some (true, true), some (true, true), some (false, false), some (true, false), some (true, true), some (true, true),
        some (true, true), some (true, true), none] := by
  unfold FreeDir; decide +kernel

theorem witness_compressedForms :
    let s := wx [(8, 0), (15, 5), (31, 0x3000)]
    Free s 5 ∧ (s.hart 5).xUse (Claims.x8 0) ∧ (s.hart 5).xUse (Claims.x8 7) ∧ (s.hart 5).xUse 31 ∧
    (s.hart 5).xReads 31 ∧
    Claims.zcaAlu (.mv 1 31) = some (.add, 1, 0, .inl 31) ∧ Claims.zcaAlu (.addi16sp 0x3F) = some (.add, 2, 2, .inr (-16)) ∧
    ((ZcaOp.mv 1 31).hint = false ∧ (ZcaOp.addi16sp 0x3F).hint = false ∧ (ZcaOp.addi 5 0).hint = true ∧ (ZcaOp.li 0 5).hint = true) ∧
    FreeDir (dbase true) 0 := by
  unfold Free FreeDir Hart.xUse Hart.xReads; dsimp only; and_intros <;> decide +kernel

theorem witness_systemForms :
    let g := { base with dbg := { base.dbg with attached := true, part := 0, plays := [0] } }
    (Free base 5 ∧ base.debugged 5 = false) ∧ (Free g 5 ∧ g.debugged 5 = true ∧ (g.hart 5).lp0.lpc = 0 ∧ (g.hart 5).lp1.lpc = 0) ∧
    ((Instr.icInv 10).wf = true ∧ (Instr.icInv 10).onCompute = false) ∧
    ((Instr.tret).wf = true ∧ (Instr.tret).onDirector = false) ∧
    FreeDir (dbase true) 0 ∧ FreeDir (dbase false) 0 ∧ (dbase false).dbg.attached = false := by
  unfold Free FreeDir; decide +kernel

/-- A trap in cue mode with a cue, and with none and nothing pushed; a trap in house mode. -/
theorem witness_trapsAreTaken :
    let s := wh fun h => { h with cueptr := 0 }
    ((base.hart 5).house = false ∧ (base.hart 5).pending = [] ∧ 255 < 256 ∧ 2 ^ 64 - 1 < 2 ^ 64) ∧
    ((s.hart 5).house = false ∧ (s.hart 5).pending = [] ∧ (s.hart 5).cueptr = 0 ∧ (s.hart 5).role = .solo ∧
      (s.hart 5).q0 = [] ∧ (s.hart 5).q1 = [] ∧ (s.hart 5).q2 = [] ∧ s.watched 5 = false ∧ (s.hart 5).run = .active ∧ (s.hart 5).streams = [] ∧
      (s.cluster (hartCluster 5)).jobs = []) ∧
    ((wh fun h => { h with house := true }).hart 5).house = true := by
  decide +kernel

/-- The record at the start of the second granule of the bank: state and save as given. -/
def recAt (s : State) (st sv : Nat) : State :=
  s.setCore 1 { s.core 1 with gran := [(2, gw 3 [0x3000, 0, st * 2 ^ 32 + sv * 2 ^ 44, 0]), (3, gw 3 [1, 2, 3, 4])] }

/-- tret in cue mode, with no cue, with a record that is not a running full save and with one that is. -/
theorem witness_returnsAndExceptions :
    let k (q g : Nat) := wh fun h => { h with house := true, cueptr := BitVec.ofNat 64 q, rgen := BitVec.ofNat 8 g }
    let ok (s : State) (p : Vec → Bool) : Prop := ∃ bs t, hwRead 5 (s.hart 5).cueptr.toNat 64 s = (.ok bs, t) ∧ p (vecOf (PBytes.bytes bs)) = true
    (Free base 5 ∧ (base.hart 5).house = false) ∧
    (Free (k 0 3) 5 ∧ ((k 0 3).hart 5).house = true ∧ ((k 0 3).hart 5).cueptr = 0) ∧
    (((k (bnk + 64) 255).hart 5).cueptr ≠ 0 ∧
      ok (recAt (k (bnk + 64) 255) 1 0) (fun r => r.extractLsb' 160 4 != 1 || r.extractLsb' 172 2 != 2) ∧
      ok (recAt (k (bnk + 64) 255) 1 2) (fun r => r.extractLsb' 160 4 == 1 && r.extractLsb' 172 2 == 2)) ∧
    (9 < 2 ^ 63) := by
  refine ⟨?_, ?_, ⟨?_, ok_of _ ?_, ok_of _ ?_⟩, by decide⟩
  · unfold Free; decide +kernel
  · unfold Free; decide +kernel
  all_goals decide +kernel

/-- An aligned access that succeeds and one that is refused, misaligned bases, a poisoned base, a datum not live and one
poisoned, and Zca forms. -/
theorem witness_scalarMemoryOnHart :
    let s := (wh (fun h => { h with x := xs [(8, bnk), (9, bnk + 16384), (2, bnk + 8), (5, bnk + 1), (6, 77)] ++
      [(7, { val := 8, gen := 3, poison := true })] }))
    let h := s.hart 5
    (Free s 5 ∧ h.xUse 8 ∧ h.xUse 9 ∧ h.xUse 2 ∧ h.xUse 5 ∧ h.xUse 6 ∧ h.xReads 7 ∧ h.xPois 7 = true) ∧
    (let g := (wh (fun h => { h with gmode := 1 }) s).hart 5; g.xReads 8 ∧ ¬ g.xReads 20) ∧
    (Claims.addr (h.xVal 8) 0xFFF % 8 ≠ 0 ∧ Claims.addr (h.xVal 5) 0 % 2 ≠ 0 ∧ Claims.addr (h.xVal 8) 8 % 8 = 0) ∧
    (∃ bs t, hartLoad 5 (Claims.addr (h.xVal 8) 8) 8 s = (.ok bs, t) ∧ (bs.length == 8) = true) ∧
    (∃ e t, hartLoad 5 (Claims.addr (h.xVal 9) 0) 8 s = (.error e, t) ∧ (e == .trap 0x06 (bnk + 16384)) = true) ∧
    (∃ u t, hartWrite 5 (Claims.addr (h.xVal 8) 8) (Claims.bytes 8 (h.xVal 6).toNat) s = (.ok u, t) ∧ true = true) ∧
    (∃ e t, hartWrite 5 (Claims.addr (h.xVal 9) 0) (Claims.bytes 8 (h.xVal 6).toNat) s = (.error e, t) ∧ (e == .trap 0x06 (bnk + 16384)) = true) ∧
    (Claims.zcaLoad (.ldsp 31 0) = some (.ld, 31, 2, 0) ∧ Claims.zcaStore (.sw 0 7 1) = some (.sw, 8, 15, 4)) ∧
    (∃ bs t, hartLoad 5 (h.xVal 2 + 0).toNat 8 s = (.ok bs, t) ∧ true = true) := by
  refine ⟨?_, ?_, ?_, ok_of _ ?_, error_of _ ?_, ok_of (fun _ => true) ?_, error_of _ ?_, ?_, ok_of (fun _ => true) ?_⟩
  · unfold Free Hart.xUse Hart.xReads; and_intros <;> decide +kernel
  · unfold Hart.xReads; dsimp only; and_intros <;> decide +kernel
  all_goals decide +kernel

theorem witness_scalarMemoryOnDirector :
    let s := dbase false [(5, 0x10000), (6, 2 ^ 60)]
    let c := s.dir 0
    let k := s.setDir 0 { c with satp := 10 <<< 60 }
    FreeDir s 0 ∧ FreeDir k 0 ∧ Claims.addr (c.getX 5) 0 % 8 = 0 ∧ Claims.addr (c.getX 5) 1 % 2 ≠ 0 ∧
    (∃ bs t, dirLoad 0 (Claims.addr (c.getX 5) 0) 8 s = (.ok bs, t) ∧ true = true) ∧
    (∃ e t, dirLoad 0 (Claims.addr (c.getX 6) 0) 8 k = (.error e, t) ∧ (match e with | .exc 13 _ => true | _ => false) = true) ∧
    (∃ u t, dirWrite 0 (Claims.addr (c.getX 5) 0) (Claims.bytes 8 0) s = (.ok u, t) ∧ true = true) ∧
    (∃ e t, dirWrite 0 (Claims.addr (c.getX 6) 0) (Claims.bytes 8 0) k = (.error e, t) ∧ (match e with | .exc 15 _ => true | _ => false) = true) := by
  refine ⟨by unfold FreeDir; decide +kernel, by unfold FreeDir; decide +kernel, ?_, ?_, ok_of (fun _ => true) ?_, error_of _ ?_, ok_of (fun _ => true) ?_, error_of _ ?_⟩
  all_goals decide +kernel

/-- The coverage of a range, as a list of granules. -/
def coveredB (s : State) (core o len : Nat) (g : BitVec 16) : Bool :=
  (List.range ((o + len - 1) / 32 + 1)).all fun i => decide (i < o / 32) ||
    (covering (s.core core).alloc (32 * i)).map (fun e => e.2.gen) == some g

theorem covered_of {s : State} {core o len : Nat} {g : BitVec 16} (h : coveredB s core o len g = true) :
    Claims.covered s core o len g := by
  intro i h1 h2
  have := List.all_eq_true.mp h i (List.mem_range.mpr (by omega))
  simpa [Nat.not_lt.mpr h1] using this

/-- Loads and stores that cross a granule; the first and the last byte of the bank; unallocated, sealed and stale ones. -/
theorem witness_ownBankAccess :
    let t := wh fun h => { h with gmode := 2 }
    let q := base.setCore 1 { base.core 1 with alloc := [(0, { al 0 512 3 with sealed := true })] }
    let e := base.setCore 1 { base.core 1 with alloc := [(0, al 0x1FFE0 1 3)] }
    (Claims.covered base 1 28 8 3 ∧ (∀ e ∈ (base.core 1).psb, e.loc % 2 = 0) ∧ (base.hart 5).gmode.getLsbD 1 = false) ∧
    (Claims.covered e 1 0x1FFFF 1 3 ∧ 0x1FFFF + 1 ≤ 2 ^ 17) ∧
    (covering (base.core 1).alloc (16384 / 32 * 32) = none ∧ 16384 + 8 ≤ 2 ^ 17) ∧
    (Claims.covered t 1 96 8 3 ∧ (t.hart 5).house = false ∧ (t.hart 5).gmode.getLsbD 1 = true ∧ (Claims.bankGran t 1 3).tag ≠ 3) ∧
    (Claims.covered q 1 0 8 3 ∧ ((covering (q.core 1).alloc 0).map (·.2.sealed)) = some true) ∧
    (((covering (base.core 1).alloc 0).map (·.2.sealed)) = some false ∧ ((covering (base.core 1).alloc 32).map (·.2.sealed)) = some false) := by
  refine ⟨⟨covered_of ?_, ?_, ?_⟩, ⟨covered_of ?_, ?_⟩, ⟨?_, ?_⟩, ⟨covered_of ?_, ?_, ?_, ?_⟩, ⟨covered_of ?_, ?_⟩, ⟨?_, ?_⟩⟩
  all_goals decide +kernel

/-- The mapping of an address, computed. -/
def mapsB (s : State) (n va : Nat) (k : Acc) (pa : Nat) : Bool :=
  decide (va < 2 ^ 56) && match s.partOfCluster (hartCluster n) with
    | none => false
    | some q =>
      match (s.cluster (hartCluster n)).utlb.find? (fun e => e.root == q.2.root && decide (e.vbase ≤ va % 2 ^ 57 ∧ va % 2 ^ 57 < e.vbase + 2 ^ e.size)) with
      | none => false
      | some e => (match k with | .read => e.r | .write => e.w && e.dirty | .fetch => e.x) && pa == e.pbase + (va % 2 ^ 57 - e.vbase) &&
          q.2.ranges.any fun r => decide (r.1 ≤ pa ∧ pa < r.1 + r.2)

theorem maps_of {s : State} {n va pa : Nat} {k : Acc} (h : mapsB s n va k pa = true) : Claims.maps s n va k pa := by
  unfold mapsB at h
  simp only [Bool.and_eq_true, decide_eq_true_eq] at h
  refine ⟨.inl h.1, ?_⟩
  obtain ⟨-, h⟩ := h
  split at h
  case h_1 => simp at h
  case h_2 q hq =>
    split at h
    case h_1 => simp at h
    case h_2 e he =>
      simp only [Bool.and_eq_true, beq_iff_eq, List.any_eq_true, decide_eq_true_eq] at h
      refine ⟨q.1, q.2, e, hq, he, ?_, h.1.2, h.2⟩
      cases k <;> simpa [Claims.may] using h.1.1

/-- An address that the micro-TLB maps without the permission, computed. -/
def deniesB (s : State) (n va : Nat) (k : Acc) : Bool :=
  decide (va < 2 ^ 56) && match s.partOfCluster (hartCluster n) with
    | none => false
    | some q =>
      match (s.cluster (hartCluster n)).utlb.find? (fun e => Claims.hit e q.2.root va) with
      | none => false
      | some e => !(match k with | .read => e.r | .write => e.w && e.dirty | .fetch => e.x) ||
          !q.2.ranges.any fun r => decide (r.1 ≤ e.pbase + (va % 2 ^ 57 - e.vbase) ∧ e.pbase + (va % 2 ^ 57 - e.vbase) < r.1 + r.2)

theorem denies_of {s : State} {n va : Nat} {k : Acc} (h : deniesB s n va k = true) : Claims.denies s n va k := by
  unfold deniesB at h
  simp only [Bool.and_eq_true, decide_eq_true_eq] at h
  refine ⟨.inl h.1, ?_⟩
  obtain ⟨-, h⟩ := h
  split at h
  case h_1 => simp at h
  case h_2 q hq =>
    split at h
    case h_1 => simp at h
    case h_2 e he =>
      refine ⟨q.1, q.2, e, hq, he, ?_⟩
      simp only [Bool.or_eq_true, Bool.not_eq_true'] at h
      refine h.imp (fun h => ?_) (fun h => ?_)
      · cases k <;> simpa [Claims.may] using h
      · rintro ⟨r, hr, h1, h2⟩
        rw [List.any_eq_false] at h
        exact absurd h2 (by have := h r hr; simp only [decide_eq_true_eq] at this; omega)

/-- The base state whose partition owns nothing, and one whose page may not be written. -/
def poor : State := { base with parts := [(0, { KMap.get {} base.parts 0 with ranges := [] })] }
def ro : State := { base with clusters := [(0, { utlb := [⟨0x1000, 0x400000, 12, 0x10000, true, false, true, true, true⟩] })] }

/-- A mapped load, in the last bytes of a granule; one in a row of no memory; one of a hart of no partition; a mapped store,
read back by another hart of the core; a page that may not be written, and memory of no range. -/
theorem witness_globalAccess :
    (Claims.maps base 5 0x40001C .read 0x1001C ∧ 0x1001C % 32 = 0x40001C % 32 ∧ 0x40001C % 32 + 4 ≤ 32 ∧
      (∀ e ∈ (base.core 1).psb, e.loc ≠ 2 * (0x1001C / 32)) ∧ (∀ r ∈ base.log, r.loc ≠ 2 * (0x1001C / 32)) ∧ (0x1001C / 64, true) ∉ (base.core 1).cache) ∧
    (2 ^ 56 ≤ 2 ^ 64 - 2 ^ 56 - 8 ∧ 2 ^ 64 - 2 ^ 56 - 8 < 2 ^ 64 - 2 ^ 56) ∧
    (2 ^ 56 - 8 < 2 ^ 56 ∧ State.reset.partOfCluster (hartCluster 5) = none) ∧
    (Claims.maps base 5 0x400FE0 .write 0x10FE0 ∧ (∀ r ∈ base.sealTable, ¬ (r.1 ≤ 0x10FE0 ∧ 0x10FE0 < r.1 + r.2.1)) ∧
      (base.core 1).psb.length < 512 ∧ (∀ e ∈ (base.core 1).psb, e.loc = 2 * (0x10FE0 / 32) → e.gen = 0)) ∧
    Claims.maps base 6 0x400FE0 .read 0x10FE0 ∧ Claims.denies ro 5 0x400000 .write ∧ Claims.denies poor 5 0x400000 .read := by
  refine ⟨⟨maps_of ?_, ?_⟩, ?_, ?_, ⟨maps_of ?_, ?_⟩, maps_of ?_, denies_of ?_, denies_of ?_⟩
  all_goals decide +kernel

theorem witness_memoryCanonical : Memory.wf base.mem = true ∧ base.mem ≠ [] := by decide +kernel

/-- A state with v registers: v1 to v4 of a format, v5 of another, v6 not live. -/
def vst (k : Nat) (gm : BitVec 2 := 0) : State :=
  wh fun h => { h with
    v := vs [(1, k, 0x3F8000003C003C00), (2, k, 1), (3, k, 0), (4, k, 2 ^ 511), (5, if k = 13 then 9 else 13, 7)] ++ [(6, { gen := 2 })]
    m := [(1, { val := 5, gen := 3 })], x := xs [(7, 9), (8, 2 ^ 64 - 1)], gmode := gm }

/-- Unmasked and masked, each format of the class, a field and a dynamic rounding mode, and one vrm does not hold. -/
theorem witness_vectorFloat :
    (∀ k ∈ [1, 2, 3, 4, 5, 6], let h := (vst k).hart 5
      Free (vst k) 5 ∧ Claims.reads h { m := 1 } [(1, [k]), (2, [k]), (4, [k]), (3, [k])] []) ∧
    (Claims.rounding ((vst 1).hart 5) { rm := 4 }).isSome = true ∧ (Claims.rounding ((vst 1).hart 5) { rm := 7 }).isSome = true ∧
    Claims.rounding ((wh fun h => { h with vrm := 5 }).hart 5) { rm := 7 } = none := by
  unfold Free Claims.reads Hart.vUse Hart.vReads Hart.mReads Hart.xReads; dsimp only; and_intros <;> decide +kernel

theorem witness_vectorInteger :
    ∀ k ∈ [9, 10, 11, 12], let h := (vst k).hart 5
      Free (vst k) 5 ∧ Claims.reads h { m := 0 } [(1, [k]), (2, [k])] [] ∧ Claims.reads h { m := 1 } [(1, [k]), (2, [k]), (3, [k])] [] ∧
      Claims.reads h { m := 1 } [(1, List.range 16), (5, List.range 16), (6, List.range 16)] [] ∧
      Claims.reads ((wh fun h => { h with v := vs [(7, 14, 3), (8, 15, 5)] }).hart 5) {} [(7, List.range 16), (8, List.range 16)] [] := by
  unfold Free Claims.reads Hart.vUse Hart.vReads Hart.mReads Hart.xReads; dsimp only; decide +kernel

theorem witness_vectorCompareSelect :
    ∀ k ∈ [1, 6, 7, 9, 12, 13], let h := (vst k).hart 5
      Free (vst k) 5 ∧ Claims.reads h { m := 1 } [(1, [k]), (4, [k])] [] ∧ (Claims.mreg 1 = 0 ∨ h.mReads (Claims.mreg 7)) ∧
      h.mReads (Claims.mreg 0) ∧ Claims.reads h { m := 0 } [(1, [k]), (3, [k])] [] := by
  unfold Free Claims.reads Hart.vUse Hart.vReads Hart.mReads Hart.xReads; dsimp only; decide +kernel

theorem witness_vectorLogForms :
    let h := (vst 7).hart 5
    let g := (wh (fun h => { h with v := KMap.set {} h.v 31 { val := 2 ^ 63, fmt := 9, gen := 3 } }) (vst 7)).hart 5
    Free (vst 7) 5 ∧ (Claims.rounding h { rm := 1 }).isSome = true ∧ Claims.reads h { m := 1 } [(1, [7]), (2, [7]), (3, [7])] [] ∧
    Claims.reads g { m := 1 } [(1, [7]), (2, [7]), (3, [7]), (4, [7]), (31, [9])] [] ∧
    Claims.reads ((vst 2).hart 5) { m := 1 } [(1, [2]), (2, [2])] [7, 8] := by
  unfold Free Claims.reads Hart.vUse Hart.vReads Hart.mReads Hart.xReads; dsimp only; and_intros <;> decide +kernel

/-- A first source that is not live, one of another format; the second; a mask that is not live; the destination. -/
theorem witness_vectorChecks :
    let s := vst 2 1
    let h := s.hart 5
    Free s 5 ∧ (Claims.rounding h {}).isSome = true ∧ ¬ h.vReads 6 ∧ (h.vReads 5 ∧ h.vFmt 5 ≠ 0 ∧ h.vFmt 5 ≠ 2) ∧
    h.vUse 1 [2] ∧ h.vUse 2 [2] ∧ ¬ h.mReads (Claims.mreg 2) ∧ h.mReads (Claims.mreg 1) := by
  unfold Free Hart.vUse Hart.vReads Hart.mReads; dsimp only; and_intros <;> decide +kernel

/-- A conversion that fills its register and one that leaves elements, an outlier split at the first and the last part, a
tag change, and ternary groups masked and unmasked. -/
theorem witness_vectorConversions :
    let h := (vst 2).hart 5
    let g := (wh fun h => { h with v := vs [(8, 12, 1), (9, 12, 255), (10, 12, 0), (11, 12, 0), (12, 12, 0), (2, 8, 242)], m := [(1, { gen := 3 })] }).hart 5
    Free (vst 2) 5 ∧ (Claims.rounding h { rm := 2 }).isSome = true ∧
    ((Instr.vcvt {} { code := 3 } { code := 2 } 4 1 0).wf = true ∧ (Instr.vcvt {} { code := 3 } { code := 2 } 4 1 1).wf = true ∧
      Claims.reads h {} [(1, [2])] [] ∧ Claims.reads ((vst 3).hart 5) {} [(6, [2]), (1, [3])] []) ∧
    h.vReads 6 ∧
    ((Instr.vosplit {} 3 2 4 1 0).wf = true ∧ (Instr.vosplit {} 3 2 4 1 2).wf = true ∧ Claims.reads h {} [(1, [2])] []) ∧
    (Claims.reads g { m := 1 } ((List.range 5).map (fun k => (Claims.member 8 k, [12])) ++ [(2, [8])]) [] ∧
      Claims.reads g { m := 1 } ((2, [8]) :: (List.range 5).map (fun k => (Claims.member 8 k, [12]))) []) := by
  unfold Free Claims.reads Hart.vUse Hart.vReads Hart.mReads Hart.xReads; dsimp only; and_intros <;> decide +kernel

/-- Every format of a reduction, unmasked, masked, and with no active lane; the last lane is the best. -/
theorem witness_vectorReduce :
    (∀ k ∈ [1, 2, 3, 4, 5, 6, 9, 10, 11, 12], let h := (vst k).hart 5
      Free (vst k) 5 ∧ Claims.reads h { m := 1 } [(1, [k]), (2, [k])] [] ∧ (Claims.isFp k = true ∨ (9 ≤ k ∧ k ≤ 12))) ∧
    (let h := (wh fun h => { h with m := [(2, { val := 0, gen := 3 }), (3, { val := 0x80, gen := 3 })] }).hart 5;
      (∀ j, j < Claims.count 9 → Claims.on h { m := 2 } j = false) ∧ Claims.on h { m := 3 } 7 = true ∧
      (∀ i, i < Claims.count 9 → Claims.on h { m := 3 } i = true → 7 ≤ i)) ∧
    Claims.reads ((vst 9).hart 5) { m := 1 } [(1, [9]), (6, [13])] [7] ∧ (Claims.rounding ((vst 3).hart 5) {}).isSome = true := by
  unfold Free Claims.reads Hart.vUse Hart.vReads Hart.mReads Hart.xReads; dsimp only; and_intros <;> decide +kernel

/-- Lane numbers inside, at, and past the last lane. -/
theorem witness_vectorMove :
    let s := wh (fun h => { h with x := xs [(7, 63), (8, 64), (9, 2 ^ 64 - 1), (10, 3), (11, 4)] }) (vst 12)
    let h := s.hart 5
    Free s 5 ∧ Claims.reads h { m := 1 } [(1, [12]), (2, [12]), (3, [12])] [7] ∧ Claims.reads h {} [(1, [12])] [7, 8] ∧
    ((h.xVal 7).toNat < 512 / Claims.width 12 ∧ 512 / Claims.width 12 ≤ (h.xVal 8).toNat ∧ Claims.count 12 = 64) ∧
    ((h.xVal 10).toNat < 512 / Claims.width 13 ∧ 512 / Claims.width 13 ≤ (h.xVal 11).toNat ∧ (13 : BitVec 4).toNat ≤ 13) := by
  unfold Free Claims.reads Hart.vUse Hart.vReads Hart.mReads Hart.xReads; dsimp only; and_intros <;> decide +kernel

/-- The checks of a lane, computed. -/
def laneFineB (s : State) (n sz : Nat) (store : Bool) (a : Nat) : Bool :=
  a % sz == 0 && decide (bnk ≤ a) && decide (a < bnk + 2 ^ 17) &&
    match covering (s.core (n / 4)).alloc ((a - bnk) / 32 * 32) with
    | some e => if store then !e.2.sealed
        else !(s.hart n).gmode.getLsbD 1 || (s.hart n).house || (Claims.bankGran s (n / 4) ((a - bnk) / 32)).tag == e.2.gen
    | none => false

theorem laneFine_of {s : State} {n sz : Nat} {store : Bool} {a : Nat} (h : laneFineB s n sz store a = true) :
    Claims.laneFine s n sz store a := by
  unfold laneFineB at h
  simp only [Bool.and_eq_true, beq_iff_eq, decide_eq_true_eq] at h
  obtain ⟨⟨⟨h1, h2⟩, h3⟩, h4⟩ := h
  refine ⟨h1, h2, h3, ?_⟩
  split at h4
  case h_1 e he =>
    refine ⟨e, he, ?_⟩
    cases store with
    | true => simpa using h4
    | false => simpa [or_assoc, bnk] using h4
  case h_2 => simp at h4

/-- Every active lane passes. -/
def lanesFineB (s : State) (n k : Nat) (o : LOpts) (store : Bool) (A : Nat → Option Nat) : Bool :=
  (List.range (Claims.count k)).all fun j => !Claims.on (s.hart n) o j ||
    match A j with | some a => laneFineB s n (Claims.width k / 8) store a | none => true

theorem lanes_of {s : State} {n k : Nat} {o : LOpts} {store : Bool} {A : Nat → Option Nat} (h : lanesFineB s n k o store A = true) :
    ∀ j a, (decide (j < Claims.count k) && Claims.on (s.hart n) o j) = true → A j = some a →
      Claims.laneFine s n (Claims.width k / 8) store a := by
  intro j a hj ha
  simp only [Bool.and_eq_true, decide_eq_true_eq] at hj
  have := List.all_eq_true.mp h j (List.mem_range.mpr hj.1)
  rw [hj.2, ha] at this
  exact laneFine_of (by simpa using this)

/-- Vector accesses of the own bank: x1 the base, x2 past the allocation, x3 a stride of -8, x7 misaligned, x8 poisoned, and
v3 too. -/
def vmst : State :=
  wh fun h => { h with
    x := xs [(1, bnk + 64), (2, bnk + 16384), (3, 2 ^ 64 - 8), (7, bnk + 4)] ++ [(8, { val := 1, gen := 3, poison := true })]
    v := vs [(1, 9, 5), (2, 9, 3)] ++ [(3, { fmt := 9, gen := 3, poison := true })]
    m := [(1, { val := 0x81, gen := 3 })] }

theorem witness_vectorMemory :
    let h := vmst.hart 5
    let fine (st : Bool) (A : Nat → Option Nat) : Prop := ∀ j a, (decide (j < Claims.count 9) && Claims.on h { m := 1 } j) = true →
      A j = some a → Claims.laneFine vmst 5 (Claims.width 9 / 8) st a
    (Free vmst 5 ∧ h.xReads 1 ∧ h.xReads 2 ∧ h.xReads 8 ∧ h.xPois 1 = false ∧ h.xPois 8 = true ∧ h.vPois 2 = false ∧ h.vPois 3 = true ∧
      Claims.reads h { m := 1 } [(1, [9]), (2, [9])] [3] ∧ Claims.reads h {} [(3, [9])] [] ∧ h.xPois 3 = false ∧
      Claims.reads h {} [(2, [9])] [8] ∧ Claims.reads h {} [(3, [Claims.indexTag 9]), (2, [9])] [] ∧ (∀ e ∈ (vmst.core 1).psb, e.loc % 2 = 0) ∧
      (optsOf (.vst { m := 1 } { code := 9 } 1 1 31)).window = 0) ∧
    (fine false (Claims.unitAt h 9 1 31) ∧ fine false (Claims.strideAt h 1 3) ∧ fine false (Claims.indexAt h 9 1 2)) ∧
    (fine true (Claims.unitAt h 9 1 31) ∧ fine true (Claims.strideAt h 1 3) ∧ fine true (Claims.indexAt h 9 1 2)) ∧
    (Claims.unitAt h 9 7 0 0 = some (bnk + 4) ∧ (bnk + 4) % 8 ≠ 0) ∧
    (Claims.unitAt h 9 2 0 0 = some (bnk + 16384) ∧ (bnk + 16384) % 8 = 0 ∧ bnk + 16384 < bnk + 2 ^ 17 ∧
      covering (vmst.core 1).alloc (16384 / 32 * 32) = none) := by
  refine ⟨?_, ⟨lanes_of ?_, lanes_of ?_, lanes_of ?_⟩, ⟨lanes_of ?_, lanes_of ?_, lanes_of ?_⟩, ?_, ?_⟩
  · unfold Free Claims.reads Hart.vUse Hart.vReads Hart.mReads Hart.xReads; dsimp only; and_intros <;> decide +kernel
  all_goals decide +kernel

/-- Tiles: tile 3 declared at 64, two rows of sixteen words. -/
def tst : State :=
  (wh (fun h => { h with
    x := xs [(1, 3 + 2 ^ 16), (2, 3 + 2 ^ 16 * 2), (3, 63), (4, 64), (5, 2 + 2 ^ 16 * 16 + 2 ^ 32 * 2), (6, 0), (7, 2 ^ 34), (10, 8192), (11, 16320)]
    v := vs [(1, 2, 5)] })
  (base.setCore 1 { base.core 1 with tiles := [(3, some ⟨64, 2, 16, 4⟩)] }))

theorem witness_tiles :
    let h := tst.hart 5
    (Free tst 5 ∧ h.xUse 1 ∧ h.xUse 3 ∧ h.xUse 5 ∧ Claims.reads h {} [] [] ∧ Claims.reads h {} [(1, [2])] [] ∧ h.vPois 1 = false) ∧
    ((Claims.tileAt tst 5 2 (h.xVal 1)).isSome = true ∧ (Claims.tileAt tst 5 2 (h.xVal 2)).isNone = true ∧
      lanesFineB tst 5 2 {} false ((Claims.tileAt tst 5 2 (h.xVal 1)).getD fun _ => none) = true ∧
      lanesFineB tst 5 2 {} true ((Claims.tileAt tst 5 2 (h.xVal 1)).getD fun _ => none) = true) ∧
    ((h.xVal 3).toNat < 64 ∧ Claims.fld (h.xVal 5) 34 30 = 0 ∧ Claims.fld (h.xVal 5) 0 16 = 2 ∧ Claims.fld (h.xVal 5) 16 16 * 4 % 64 = 0 ∧
      (h.xVal 10).toNat % 64 = 0 ∧
      (∃ a ∈ (tst.core 1).alloc, a.2.st = .live ∧ a.2.base ≤ 8192 ∧ 8192 + 128 ≤ a.2.base + 32 * a.2.len) ∧
      (∀ q ∈ (tst.core 1).tiles, q.1 ≠ 63 → ∀ t ∈ q.2, t.base + t.rows * t.cols * t.esz ≤ 8192 ∨ 8192 + 128 ≤ t.base)) ∧
    (Claims.fld (h.xVal 6) 0 16 = 0 ∧ Claims.fld (h.xVal 6) 34 30 = 0) ∧
    (64 ≤ (h.xVal 4).toNat ∧ Claims.fld (h.xVal 7) 34 30 ≠ 0) ∧
    (∀ a ∈ (tst.core 1).alloc, a.2.st = .live → ¬ (a.2.base ≤ (h.xVal 11).toNat ∧ (h.xVal 11).toNat + 128 ≤ a.2.base + 32 * a.2.len)) ∧
    ∃ q ∈ (tst.core 1).tiles, q.1 ≠ 63 ∧ ∃ t ∈ q.2, t.base < 128 + 128 ∧ 128 < t.base + t.rows * t.cols * t.esz := by
  refine ⟨?_, ?_, ?_, ?_, ?_, ?_, ?_⟩
  · unfold Free Claims.reads Hart.xUse Hart.vUse Hart.vReads Hart.mReads Hart.xReads; dsimp only; and_intros <;> decide +kernel
  all_goals decide +kernel

/-- A play of the base partition, with two acts. -/
def play4 : Play :=
  { part := 0, acts := [{ entry := 0, latency := false, depth := 1, down := [] }, { entry := 0, latency := false, depth := 0, down := [] }]
    clusters := [0], entry := 2 }

/-- Hart 5 runs a cue of play 4. -/
def cst (f : Hart → Hart := id) : State :=
  { wh (fun h => f { h with curPlay := 4, x := xs [(5, bnk + 4096), (6, 0x2000), (7, 2 ^ 15), (8, 0), (9, 15), (10, 16), (11, bnk + 4092), (12, bnk + 4160)] })
      (base.setCore 1 { base.core 1 with gran := [(128, gw 3 [0x2000, 0, 0, 0])] }) with
    plays := [(4, play4)], cycle := 10 }

/-- A hart that can leave its cue, a requested vacate, and the house code. -/
theorem witness_leavingCues :
    (Free (cst) 5 ∧ Claims.canLeave cst 5 ∧ (cst.hart 5).xReads 7 ∧ (cst.hart 5).vacate = none) ∧
    (let s := cst fun h => { h with vacate := some 9 };
      Claims.canLeave s 5 ∧ (s.hart 5).depmask = 0 ∧ (∃ c, (s.hart 5).vacate = some c ∧ c < s.cycle.toNat)) ∧
    (cst.liveMap? 4 ((cst.hart 5).xVal 7).toNat = none ∧
      (let s := { cst with plays := [(4, { play4 with lives := [(2 ^ 15, some 7)] })] };
        s.liveMap? (s.hart 5).curPlay (((s.hart 5).xVal 7).toNat % 2 ^ 16) ≠ none)) ∧
    ((cst.cluster (hartCluster 5)).sess = none ∧ (cst.hart 5).net = none ∧ cst.plays.find? (fun e => e.1 == (cst.hart 5).curPlay) = some (4, play4)) ∧
    (let s := cst fun h => { h with house := true }; Free s 5 ∧ (s.hart 5).house = true) := by
  unfold Free Claims.canLeave Hart.xReads; dsimp only; and_intros <;> first | decide +kernel | exact ⟨9, by decide +kernel⟩

/-- No one joins; two harts of the core group do; a leader of two members. -/
theorem witness_chorus :
    let s := wh id (([1, 9, 13].foldl (fun (s : State) m => s.setHart m { rgen := 9, waiting := true, pc := 0x800 }) base))
    let l := (s.setHart 5 { s.hart 5 with role := .leader 0 4 [1, 9] })
    (Free base 5 ∧ Claims.joiners base 5 8 = []) ∧ (Free s 5 ∧ Claims.joiners s 5 4 = [1, 9, 13] ∧ Claims.joiners s 5 1 = []) ∧
    Claims.leads l 5 0 4 [1, 9] ∧
    (let d := wh fun h => { h with role := .draining 1 0 4 [1, 5] }; d.cur = .hart 5 ∧ (d.hart 5).run = .active ∧
      (d.hart 5).role = .draining 1 0 4 [1, 5] ∧ (d.hart 5).pending = [] ∧ (d.hart 5).streams = []) := by
  unfold Free Claims.leads; dsimp only; and_intros <;> decide +kernel

def faultyB (v : Vec) : Bool :=
  let f := Claims.vfld v
  f 224 32 != 0 || f 164 8 != 0 || decide (3 < f 160 4) || f 172 2 == 3 || decide (6 < f 220 4) || f 0 1 == 1 || f 64 64 % 64 != 0

theorem faulty_iff (v : Vec) : Claims.faulty v ↔ faultyB v = true := by simp [faultyB, Claims.faulty, or_assoc]

def liveB (s : State) (p : Nat) : Bool :=
  match s.plays.find? (fun e => e.1 == p) with | some e => !e.2.ended && e.2.error.isNone | none => false

theorem live_iff (s : State) (p : Nat) : Claims.liveIn s p ↔ liveB s p = true := by
  unfold liveB Claims.liveIn
  split
  case h_1 e he =>
    obtain ⟨q, x⟩ := e
    rw [he]
    constructor
    · rintro ⟨q', x', h, h1, h2⟩
      cases h
      simp [h1, h2]
    · intro h
      simp only [Bool.and_eq_true, Bool.not_eq_true', Option.isNone_iff_eq_none] at h
      exact ⟨q, x, rfl, h.1, h.2⟩
  case h_2 he => simp [he]

theorem record_of {s : State} {n a : Nat} (p : Vec → State → Bool)
    (h : (match (hartLoad n a 64 s).1 with
      | .ok bs => bs.all (fun b => !b.2) && p (BitVec.ofNat 512 (Claims.number (bs.map (·.1)))) (hartLoad n a 64 s).2
      | .error _ => false) = true) : ∃ v t, Claims.record s n a v t ∧ p v t = true := by
  generalize hm : hartLoad n a 64 s = m at h
  obtain ⟨r, t⟩ := m
  cases r with
  | error e => simp at h
  | ok bs =>
    simp only [Bool.and_eq_true, List.all_eq_true] at h
    exact ⟨_, t, ⟨bs, hm, fun b hb => by simpa using h.1 b hb, rfl⟩, h.2⟩

/-- A 64-byte record in granules 130 and 131, and x5 at it. -/
def rst (r : List Nat) (house : Bool := true) (pools : List Word := []) : State :=
  let s := cst fun h => { h with house := house, x := KMap.set {} h.x 5 { val := BitVec.ofNat 64 (bnk + 130 * 32), gen := 3 } }
  let s := s.setCore 1 { s.core 1 with gran := [(130, gw 3 (r.take 4)), (131, gw 3 (r.drop 4))] }
  s.setSlice 0 { s.slice 0 with pools := [(4, pools)] }

/-- A faulty record, one that is not ready, one of a play that is not live, and a fresh one of a live play. -/
theorem witness_cueResume :
    let r (sap p st : Nat) := rst [0x3000, sap, p + 2 ^ 16 + 2 ^ 32 * st, 0, 1, 2, 3, 4]
    let rd (s : State) (p : Vec → State → Bool) : Prop := ∃ v t, Claims.record s 5 (bnk + 130 * 32) v t ∧ p v t = true
    (Free (cst) 5 ∧ (cst.hart 5).xUse 5 ∧ (cst.hart 5).house = false) ∧ (((r 0 4 0).hart 5).house = true) ∧
    rd (r (bnk + 641) 4 0) (fun v _ => faultyB v) ∧ rd (r (bnk + 640) 4 1) (fun v _ => Claims.vfld v 160 4 != 0) ∧
    rd (r (bnk + 640) 5 0) (fun v t => !faultyB v && Claims.vfld v 160 4 == 0 && !liveB t (Claims.vfld v 128 16)) ∧
    rd (r (bnk + 640) 4 0) (fun v t => !faultyB v && Claims.vfld v 160 4 == 0 && liveB t (Claims.vfld v 128 16) &&
      Claims.vfld v 175 1 == 0 && Claims.vfld v 172 2 == 0) := by
  refine ⟨?_, ?_, record_of _ ?_, record_of _ ?_, record_of _ ?_, record_of _ ?_⟩
  · unfold Free Hart.xUse Hart.xReads; and_intros <;> decide +kernel
  all_goals decide +kernel

/-- A word that differs, one that is equal, a misaligned address; a template that breaks a condition, a queue number past the
last, a full queue, an empty pool and one with an area. -/
theorem witness_cueWaitAndSpawn :
    let w (o : Nat) : Nat := Claims.number ((List.range 8).map fun k => (Claims.seen (Claims.bankGran cst 1 (o / 32)) 3 (o % 32 + k)).1)
    let t (r : List Nat) (pools : List Word) (p : Vec → State → Bool) : Prop :=
      ∃ v u, Claims.record (rst r false pools) 5 (bnk + 130 * 32) v u ∧ p v u = true
    (Free cst 5 ∧ Claims.canLeave cst 5 ∧ (∀ r ∈ [5, 6, 8, 9, 10, 11, 12], (cst.hart 5).xUse r) ∧ Claims.covered cst 1 4096 8 3 ∧
      Claims.covered cst 1 4092 8 3 ∧ 4092 % 8 ≠ 0 ∧ (cst.hart 5).gmode.getLsbD 1 = false ∧ (cst.core 1).watch.length < 64) ∧
    (w 4096 = ((cst.hart 5).xVal 6).toNat ∧ w 4096 ≠ ((cst.hart 5).xVal 8).toNat ∧ ((cst.hart 5).xVal 5).toNat = Claims.bankBase + 4096 ∧
      ((cst.hart 5).xVal 11).toNat = Claims.bankBase + 4092) ∧
    (16 ≤ ((cst.hart 5).xVal 10).toNat ∧ play4.acts.length ≤ ((cst.hart 5).xVal 9).toNat) ∧
    (∃ e u, hartLoad 5 (bnk + 16384) 64 cst = (.error e, u) ∧ (e == .trap 0x06 (bnk + 16384)) = true) ∧
    (play4.acts[0]?.map (fun a => (a.depth, a.latency)) = some (1, false) ∧ play4.acts[1]?.map (·.depth) = some 0 ∧ (cst.hart 5).curPlay < 2 ^ 16) ∧
    t [0x11, 0, 0, 0, 1, 2, 3, 4] [] (fun v _ => Claims.vfld v 0 1 == 1) ∧
    t [0x10, 0, 0, 0, 1, 2, 3, 4] [] (fun v u => Claims.vfld v 64 192 == 0 && Claims.vfld v 0 1 == 0 && (KMap.get [] (u.slice 0).pools 4).isEmpty) ∧
    t [0x10, 0, 0, 0, 1, 2, 3, 4] [0x8000, 0x9000] (fun v u => Claims.vfld v 64 192 == 0 && Claims.vfld v 0 1 == 0 &&
      KMap.get [] (u.slice 0).pools 4 == [0x8000, 0x9000] && liveB u 4 && (KMap.get {} (u.slice (hartSlice 5)).acts 64 : ActQ).queue.isEmpty) := by
  refine ⟨⟨?_, ?_, ?_, covered_of ?_, covered_of ?_, ?_, ?_, ?_⟩, ?_, ?_, error_of _ ?_, ?_, record_of _ ?_, record_of _ ?_, record_of _ ?_⟩
  · unfold Free; decide +kernel
  · unfold Claims.canLeave; decide +kernel
  · unfold Hart.xUse Hart.xReads; decide +kernel
  all_goals decide +kernel

/-- A result of x, of v, an open window and a closed one, at the last hart. -/
theorem witness_lookaheadCompletes :
    let p (w : Nat) : Pending := { window := w, xs := [(31, { val := 7, poison := true })] }
    let s := (State.reset.setHart 49151 { State.reset.hart 49151 with pending := [p 15, p 0] })
    ((s.hart 49151).pending[0]? = some (p 15) ∧ (p 15).window ≠ 0) ∧
    (49151 < Config.harts ∧ (s.hart 49151).pending[1]? = some (p 0) ∧ (p 0).net = none ∧ (p 0).accs = [] ∧ (p 0).engs = [] ∧ (p 0).closes = false ∧ (p 0).stores = [] ∧
      (p 0).events = 0 ∧ (∀ q ∈ (s.hart 49151).streams, q.2.act = false)) ∧
    (optsOf (.vmpop { la := 15 } 4 0)).window ≠ 0 := by
  decide +kernel

theorem witness_eventsAndParking :
    let s := wh fun h => { h with venab := 4, fpsup := 9 }
    5 < Config.harts ∧ (s.hart 5).run = .active ∧ (s.hart 5).role = .solo ∧ (3 : BitVec 5) &&& (s.hart 5).venab = 0 ∧
      (6 : BitVec 5) &&& (s.hart 5).venab ≠ 0 := by
  decide +kernel

/-- Bank 1 with live, forensic and reserved entries, an accumulator allocation, and the generation counter at its end. -/
def ast (l : List (Nat × Nat)) (dbg : Nat := 0) (k : Nat := 65535) : State :=
  wh (fun h => { h with x := xs l })
    { base.setCore 1 { base.core 1 with
        alloc := [(0, al 0 8 3), (2, al 4096 128 20), (5, { al 8192 4 5 with forensic := true }), (15, al 0x1FF00 8 2)]
        tiles := [(3, some ⟨64, 2, 16, 4⟩)] } with
      clusters := [(0, { kgen := BitVec.ofNat 16 k, accAlloc := [(0, al 0 64 21)] })]
      parts := [(0, { clusters := [0], root := 0x1000, ranges := [], dbg := BitVec.ofNat _ dbg })] }

/-- The limits, a clash, a full table, no forensic permission, and a free place: scratchpad and accumulators. -/
theorem witness_allocation :
    let x (l : List (Nat × Nat)) (r : Nat) : Nat := (((ast l).hart 5).xVal (BitVec.ofNat 5 r)).toNat
    let limits (b l : Nat) : Prop := b % 32 = 0 ∧ Claims.fld (BitVec.ofNat 64 l) 0 18 % 32 = 0 ∧ 32 ≤ Claims.fld (BitVec.ofNat 64 l) 0 18 ∧
      Claims.fld (BitVec.ofNat 64 l) 0 18 ≤ 131072 ∧ b + Claims.fld (BitVec.ofNat 64 l) 0 18 ≤ 0x20000 ∧ Claims.fld (BitVec.ofNat 64 l) 18 45 = 0
    let full := ast [] |> fun s => s.setCore 1 { s.core 1 with alloc := (List.range 16).map fun i => (i, al (32 * i) 1 (100 + i)) }
    (Free (ast [(5, 256), (6, 64)]) 5 ∧ ((ast [(5, 256), (6, 64)]).hart 5).xUse 5 ∧ ((ast [(5, 256), (6, 64)]).hart 5).xUse 6 ∧ x [(5, 256)] 5 = 256) ∧
    (¬ limits 1 32 ∧ ¬ limits 0x1FFE0 64 ∧ limits 0x1FFE0 32 ∧ limits 0 131072 ∧ limits 224 (2 ^ 63 + 64)) ∧
    (Claims.fld (BitVec.ofNat 64 (2 ^ 63 + 64)) 63 1 = 1 ∧ ¬ Claims.forensicIn (ast []) 0 ∧ Claims.forensicIn (ast [] 1) 0) ∧
    (∃ e ∈ Claims.table (ast []) 0 1, e.2.st ≠ .free ∧ e.2.base < 224 + 64 ∧ 224 < e.2.base + 32 * e.2.len) ∧
    (∀ j, j < 16 → (KMap.get {} (Claims.table full 0 1) j).st ≠ .free) ∧
    ((¬ ∃ e ∈ Claims.table (ast []) 0 1, e.2.st ≠ .free ∧ e.2.base < 256 + 64 ∧ 256 < e.2.base + 32 * e.2.len) ∧
      (KMap.get {} (Claims.table (ast []) 0 1) 1).st = .free ∧ (∀ l, l < 1 → (KMap.get {} (Claims.table (ast []) 0 1) l).st ≠ .free) ∧
      Claims.nextIs (ast []) 0 1 ∧ (∀ r ∈ ((ast []).cluster 0).reuse, r.gen ≠ 1) ∧ ((false = true) ↔ Claims.fld (64 : Word) 63 1 = 1)) ∧
    (1 ≤ Claims.fld (256 : Word) 0 9 ∧ Claims.fld (256 : Word) 0 9 ≤ 256 ∧ 0 + Claims.fld (256 : Word) 0 9 ≤ 256 ∧ Claims.fld (256 : Word) 9 54 = 0 ∧
      ¬ (255 + Claims.fld (2 : Word) 0 9 ≤ 256)) := by
  refine ⟨?_, ?_, ⟨?_, ?_, ?_⟩, ?_, ?_, ⟨?_, ?_, ?_, ⟨1, ?_, ?_, ?_, ?_, ?_⟩, ?_, ?_⟩, ?_⟩
  · unfold Free Hart.xUse Hart.xReads; (try dsimp only); and_intros <;> decide +kernel
  · decide +kernel
  · decide +kernel
  · rintro ⟨q, p, h, hp⟩
    have e : (ast []).partOfCluster 0 = some (0, { clusters := [0], root := 0x1000, ranges := [], dbg := 0 }) := by decide +kernel
    rw [e] at h
    cases h
    exact absurd hp (by decide)
  · exact ⟨0, { clusters := [0], root := 0x1000, ranges := [], dbg := 1 }, by decide +kernel, by decide⟩
  all_goals first | decide +kernel | (unfold Claims.heldIn; decide +kernel) | (intro j h1 h2; omega)

/-- Handles: of no entry, of a live, a forensic and the reserved entry; and what gen.rd is asked. -/
theorem witness_freeAndInspect :
    let h (j : Nat) : Word := Claims.handleOf 1 j (KMap.get {} (Claims.table (ast []) 0 1) j)
    let s := ast [(5, (h 2).toNat), (6, bnk + 0x1FFFF), (7, 0x1FFFF)]
    (Free s 5 ∧ (s.hart 5).xUse 5 ∧ (s.hart 5).xUse 6 ∧ (s.hart 5).xUse 0) ∧
    (∀ u j a, ¬ Claims.names (ast []) 0 0 u j a) ∧
    (∀ j ∈ [2, 5, 15], Claims.names (ast []) 0 (h j) 1 j (KMap.get {} (Claims.table (ast []) 0 1) j)) ∧
    ((KMap.get {} (Claims.table (ast []) 0 1) 5).forensic = true ∧ ((ast []).hart 5).house = false) ∧
    (((s.hart 5).xVal 6).toNat = Claims.bankBase + 0x1FFFF ∧ 0x1FFFF < 2 ^ 17 ∧ ((s.hart 5).xVal 7).toNat < 0x20000 ∧ ((s.hart 5).xVal 0).toNat < 2 ^ 56) := by
  refine ⟨?_, ?_, ?_, ?_, ?_⟩
  · unfold Free Hart.xUse Hart.xReads; (try dsimp only); and_intros <;> decide +kernel
  · rintro u j a ⟨h1, h2, h3, h4, h5, h6, -⟩
    have e1 : Claims.fld 0 43 1 = 0 := by decide
    have e2 : Claims.fld 0 37 4 = 0 := by decide
    have e3 : Claims.fld 0 44 4 = 0 := by decide
    have hu : u = 0 := by
      by_cases h : u = 16
      · rw [e1, if_pos h] at h3; omega
      · rw [e2, if_neg h] at h4; exact h4.symm
    rw [e3] at h2
    subst hu h2 h5
    exact absurd h6 (by decide +kernel)
  · unfold Claims.names; decide +kernel
  all_goals decide +kernel

/-- An atomic on a bank word, a poisoned one, a stale one, a memory word; a misaligned address; poisoned registers. -/
theorem witness_atomics :
    let s := wh fun h => { h with x := xs [(5, bnk + 24), (6, 2 ^ 63), (9, 7), (8, bnk + 4), (11, 0x400FF8)] ++ [(10, { val := 1, gen := 3, poison := true })] }
    let h := s.hart 5
    (Free s 5 ∧ h.xReads 5 ∧ h.xReads 6 ∧ h.xReads 9 ∧ h.xReads 10 ∧ h.xPois 10 = true ∧ h.xPois 5 = false ∧ h.xPois 6 = false ∧ h.xPois 9 = false ∧
      (h.xVal 8).toNat % 8 ≠ 0) ∧
    ((h.xVal 5).toNat = Claims.bankBase + 24 ∧ (h.xVal 5).toNat % 8 = 0 ∧ covering (s.core 1).alloc (24 / 32 * 32) = some (0, al 0 512 3) ∧
      h.gmode.getLsbD 1 = false ∧ (Claims.bankGran s 1 0).tag = 3 ∧ (Claims.bankGran s 1 0).poison = false) ∧
    ((Claims.bankGran s 1 2).tag = 3 ∧ (Claims.bankGran s 1 2).poison = true ∧ (Claims.bankGran s 1 3).tag ≠ 3) ∧
    (Claims.maps s 5 (h.xVal 11).toNat .write 0x10FF8 ∧ 0x10FF8 % 32 = (h.xVal 11).toNat % 32 ∧ KMap.get false s.memPoison (0x10FF8 / 64) = false ∧
      ∀ r ∈ s.sealTable, ¬ (r.1 ≤ 0x10FF8 ∧ 0x10FF8 < r.1 + r.2.1)) := by
  refine ⟨?_, ?_, ?_, maps_of ?_, ?_⟩
  · unfold Free Hart.xReads; and_intros <;> decide +kernel
  all_goals decide +kernel

/-- The bytes of a descriptor: base, strides, counts and control word. -/
def desc (b si so ic oc ctl : Nat) : List Byte :=
  leBytes 8 b ++ leBytes 4 si ++ leBytes 4 so ++ leBytes 4 ic ++ leBytes 4 oc ++ leBytes 4 ctl ++ leBytes 4 0

/-- A descriptor at the start of the bank. -/
def dst (d : List Byte) : State :=
  let s := wx [(5, bnk), (6, bnk + 16)]
  s.setCore 1 { s.core 1 with gran := [(0, { data := (List.range 32).filterMap fun i => if d.getD i 0 == 0 then none else some (i, d.getD i 0), tag := 3 })] }

/-- Hart 5 with stream 3 bound to x7. -/
def pst (b cnt pos ctl : Nat) : State :=
  wh fun h => { h with streams := [(3, { base := BitVec.ofNat 64 b, stra := 8, strb := 0, cnt := BitVec.ofNat 64 cnt, pos := BitVec.ofNat 64 pos, ctl := BitVec.ofNat 64 (2 ^ 31 + 7 + ctl) })] }

theorem witness_streamsBoundAndRead :
    let fine (bs : List Byte) : Prop := ∃ cs t, hartLoad 5 bnk 32 (dst bs) = (.ok cs, t) ∧ (cs.map (·.1) == bs && cs.all (fun b => !b.2)) = true
    let str (s : State) : Stream := KMap.get {} (s.hart 5).streams 3
    let going (s : State) : Prop := s.cur = .hart 5 ∧ 5 < Config.harts ∧ (s.hart 5).run = .active ∧ (s.hart 5).role = .solo ∧ (s.hart 5).pending = [] ∧
      (s.hart 5).streams = [(3, str s)] ∧ Claims.fld (str s).ctl 31 1 = 1 ∧ Claims.fld (str s).ctl 0 5 = 7 ∧ Claims.fld (str s).ctl 5 2 = 0
    (Free (dst []) 5 ∧ ((dst []).hart 5).xUse 5 ∧ ((dst []).hart 5).xUse 6 ∧ (((dst []).hart 5).xVal 6).toNat % 32 ≠ 0) ∧
    (fine (desc bnk 8 0 4 1 0x307) ∧ Claims.descFine (desc bnk 8 0 4 1 0x307) ∧ Claims.fld (Claims.streamOf (desc bnk 8 0 4 1 0x307)).ctl 12 1 = 0) ∧
    (fine (desc bnk 8 0 4 1 0x300) ∧ ¬ Claims.descFine (desc bnk 8 0 4 1 0x300)) ∧
    (going (pst bnk (2 ^ 32 + 2) 1 0x300) ∧
      (let t := str (pst bnk (2 ^ 32 + 2) 1 0x300); Claims.streaming (pst bnk (2 ^ 32 + 2) 1 0x300) 5 3 7 t ∧ Claims.elemAddr t % Claims.elemSize t = 0 ∧
        Claims.fld t.pos 0 32 + 1 = Claims.fld t.cnt 0 32 ∧ t.last = none ∧ t.pin = none ∧ (3 : BitVec 2).toNat = 3) ∧
      (∃ bs u, hartLoad 5 (bnk + 8) 8 (pst bnk (2 ^ 32 + 2) 1 0x300) = (.ok bs, u) ∧ (bs.length == 8) = true) ∧
      (∃ bs u, hartLoad 5 (bnk + 64) 8 (pst (bnk + 64) (2 ^ 32 + 2) 0 0x300) = (.ok bs, u) ∧ (bs.any (·.2)) = true) ∧
      Claims.elemAddr (str (pst (bnk + 64) (2 ^ 32 + 2) 0 0x300)) = bnk + 64 ∧
      ∃ e u, hartLoad 5 (bnk + 16384) 8 (pst (bnk + 16384) (2 ^ 32 + 2) 0 0x300) = (.error e, u) ∧ (e == .trap 0x06 (bnk + 16384)) = true) ∧
    (let t := str (pst bnk (2 ^ 32 + 3) 1 0x300); Claims.fld t.pos 0 32 + 1 < Claims.fld t.cnt 0 32) ∧
    (let t := str (pst (bnk + 4) (2 ^ 32 + 2) 0 0x300); Claims.elemAddr t % Claims.elemSize t ≠ 0) ∧
    (going (pst bnk 0 0 0x800) ∧ (str (pst bnk 0 0 0x800)).cnt = 0 ∧ Claims.fld (str (pst bnk 0 0 0x800)).ctl 11 1 = 1 ∧
      going (pst bnk 0 0 0) ∧ Claims.fld (str (pst bnk 0 0 0)).ctl 11 1 = 0) := by
  refine ⟨?_, ⟨ok_of _ ?_, ?_, ?_⟩, ⟨ok_of _ ?_, ?_⟩, ⟨?_, ?_, ok_of _ ?_, ok_of (fun (bs : List (Byte × Bool)) => bs.any (·.2)) ?_, ?_, error_of _ ?_⟩, ?_, ?_, ?_⟩
  · unfold Free Hart.xUse Hart.xReads; (try dsimp only); and_intros <;> decide +kernel
  all_goals first | decide +kernel | (unfold Claims.descFine; dsimp only; decide +kernel) | (unfold Claims.streaming; (try dsimp only); and_intros <;> decide +kernel)

/-- Bad regions, a whole allocation sealed and not, a region that is none, and a page of memory not sealed and sealed. -/
theorem witness_sealing :
    let s (sl : Bool) : State := wh (fun h => { h with x := xs [(5, bnk + 4096), (6, 4096), (7, 2 ^ 36 + 4096), (8, bnk), (9, 0x400000)] })
      { base.setCore 1 { base.core 1 with alloc := [(0, { al 4096 128 3 with sealed := sl })] } with sealTable := if sl then [(0x10000, 4096, false)] else [], seals := if sl then [[(0x10000, 4096)]] else [] }
    let exact (o : Nat) (e : Nat × Alloc) : Bool := e.2.st == .live && e.2.base == o && 32 * e.2.len == 4096
    let h := (s false).hart 5
    (Free (s false) 5 ∧ h.xUse 5 ∧ h.xUse 6 ∧ h.xUse 7 ∧ 2 ^ 36 < (h.xVal 7).toNat ∧ ((h.xVal 6).toNat % 4096 = 0 ∧ (h.xVal 6).toNat ≠ 0)) ∧
    ((h.xVal 5).toNat = Claims.bankBase + 4096 ∧ 4096 + 4096 ≤ 2 ^ 17 ∧ ((s false).core 1).alloc.find? (exact 4096) = some (0, al 4096 128 3) ∧
      (((s true).core 1).alloc.find? (exact 4096)).map (·.2.sealed) = some true ∧ ((s false).core 1).alloc.find? (exact 0) = none) ∧
    ((h.xVal 9).toNat % 4096 = 0 ∧ Claims.maps (s false) 5 (h.xVal 9).toNat .read 0x10000 ∧ (s false).part = none ∧
      (s false).sealTable.any (fun e => e.1 < 0x10000 + 4096 && 0x10000 < e.1 + e.2.1) = false ∧
      (s true).sealTable.any (fun e => e.1 < 0x10000 + 4096 && 0x10000 < e.1 + e.2.1) = true ∧ [(0x10000, 4096)] ∈ (s true).seals ∧
      [(0x10000, 4096)] ∉ (s false).seals ∧ ((s false).sealTable.filter fun e => !e.2.2).length < 960 ∧
      ∀ q ∈ (s false).harts, q.1 ≠ 5 → ∀ x ∈ q.2.pending, x.stores = []) := by
  refine ⟨?_, ?_, ?_, maps_of ?_, ?_⟩
  · unfold Free Hart.xUse Hart.xReads; (try dsimp only); and_intros <;> decide +kernel
  all_goals decide +kernel

/-- A message entry. -/
def ent (k p : Nat) : Entry := { payload := BitVec.ofNat 512 (p * 0x1111111111), side := Claims.side k 0 0 p }

/-- Hart m with k inbox entries and r ring entries. -/
def fill (s : State) (m k r sz : Nat) : State :=
  s.setHart m { s.hart m with inbox := (List.range k).map (ent 1), ring := (List.range r).map (ent 1), ringSize := sz }

theorem samePart_of {s : State} {m : Nat} (h1 : s.partOfCluster (hartCluster 5) = some (0, KMap.get {} base.parts 0))
    (h2 : s.partOfCluster (hartCluster m) = some (0, KMap.get {} base.parts 0)) : Claims.samePart s 5 m := ⟨0, _, _, h1, h2⟩

/-- The granules of a slot lie in allocations that stores may write. -/
def slotB (s : State) (n o len : Nat) : Bool :=
  decide (o + len ≤ 2 ^ 17) && (List.range ((o + len - 1) / 32 + 1)).all fun g => decide (g < o / 32) ||
    match covering (s.core (n / 4)).alloc (32 * g) with | some e => !e.2.sealed | none => false

theorem ownSlot_of {s : State} {n o len : Nat} (h : slotB s n o len = true) : Claims.ownSlot s n o len := by
  unfold slotB at h
  simp only [Bool.and_eq_true, decide_eq_true_eq] at h
  refine ⟨h.1, fun g h1 h2 => ?_⟩
  have := List.all_eq_true.mp h.2 g (List.mem_range.mpr (by omega))
  simp only [Nat.not_lt.mpr h1, decide_false, Bool.false_or] at this
  split at this
  case h_1 e he => exact ⟨e, he, by simpa using this⟩
  case h_2 => simp at this

/-- The base state with the operands of the messages. -/
def mst : State := wx [(5, bnk), (6, 7), (7, 2000), (8, bnk + 8), (9, bnk + 128), (10, Config.harts), (11, bnk + 32), (12, 1)]

/-- Receivers: none such, of another partition, with room, with a full inbox, with a full ring. -/
theorem witness_messages_send :
    let h := mst.hart 5
    (Free mst 5 ∧ (∀ r ∈ [5, 6, 7, 8, 9, 10, 11], h.xUse r)) ∧
    ((h.xVal 6).toNat < Config.harts ∧ (h.xVal 5).toNat % 64 = 0 ∧ (h.xVal 8).toNat % 64 ≠ 0 ∧ mst.part = none) ∧
    Claims.samePart mst 5 7 ∧ (700 < Config.harts ∧ ¬ Claims.samePart mst 5 700) ∧
    (∃ bs t, hartLoad 5 bnk 64 mst = (.ok bs, t) ∧ (bs.all (fun b => !b.2) && t == mst) = true) ∧
    (∃ bs t, hartLoad 5 bnk 64 (mst.release (.hart 5) 5) = (.ok bs, t) ∧
      (bs.all (fun b => !b.2) && decide ((t.box 7).inbox.length < 16 ∧ (t.box 7).ring = [])) = true) ∧
    Claims.inboxTakes mst 7 ∧ Claims.ringTakes (fill mst 7 16 0 256) 7 ∧ Claims.boxFull (fill mst 7 16 0 16) 7 ∧ ¬ Claims.onTheWay mst 5 7 ∧
    Claims.onTheWay { mst with transit := [⟨5, 7, ent 1 1⟩] } 5 7 := by
  refine ⟨⟨?_, ?_⟩, ?_, samePart_of ?_ ?_, ⟨?_, ?_⟩, ok2_of (fun (bs : List (Byte × Bool)) t => bs.all (fun b => !b.2) && t == mst) ?_,
    ok2_of (fun (bs : List (Byte × Bool)) t => bs.all (fun b => !b.2) && decide ((t.box 7).inbox.length < 16 ∧ (t.box 7).ring = [])) ?_, ?_, ?_, ?_, ?_, ⟨_, List.mem_singleton_self _, rfl, rfl⟩⟩
  · unfold Free; decide +kernel
  · unfold Hart.xUse Hart.xReads; decide +kernel
  case refine_7 =>
    rintro ⟨q, p, p', -, h⟩
    exact absurd h (by rw [show mst.partOfCluster (hartCluster 700) = none by decide +kernel]; simp)
  case refine_10 => unfold Claims.inboxTakes; decide +kernel
  case refine_11 => unfold Claims.ringTakes Claims.inboxTakes; decide +kernel
  case refine_12 => unfold Claims.boxFull Claims.inboxTakes; decide +kernel
  case refine_13 =>
    rintro ⟨q, h, -⟩
    rw [show mst.transit = [] by decide +kernel] at h
    exact absurd h (by simp)
  all_goals decide +kernel

/-- A receiver that depends on the register, one that does not, and none. -/
theorem witness_messages_put :
    let a := mst.setHart 7 { mst.hart 7 with house := false, depmask := 0x80000000, rgen := 8 }
    (Config.harts ≤ ((mst.hart 5).xVal 10).toNat) ∧ ((mst.hart 7).house = true ∧ (mst.hart 7).run = .active ∧ (∀ q ∈ (mst.hart 7).streams, q.2.act = false)) ∧
    ((a.hart 7).house = false ∧ (31 : Reg) ≠ 0 ∧ (a.hart 7).depmask.getLsbD (31 : Reg).toNat = true ∧ (∀ q ∈ (a.hart 7).streams, q.2.act = false)) ∧
    Claims.samePart a 5 7 := by
  refine ⟨?_, ?_, ?_, samePart_of ?_ ?_⟩
  all_goals decide +kernel

/-- An inbox whose second entry is wanted, in cue mode and in house mode, and one without. -/
theorem witness_messages_receive :
    let h := mst.hart 5
    let rcv (house : Bool) (l : List Entry) : Hart := { h with house := house, inbox := l }
    (h.xVal 9).toNat = Claims.bankBase + 128 ∧ Claims.ownSlot mst 5 128 64 ∧ (h.xVal 11).toNat = Claims.bankBase + 32 ∧ h.ring = [] ∧
    ((rcv false [ent 5 1, ent 1 2]).inbox = [ent 5 1] ++ ent 1 2 :: [] ∧ Claims.fld (ent 5 1).side 60 4 = 5 ∧ Claims.fld (ent 1 2).side 60 4 = 1) ∧
    ((rcv true [ent 3 1, ent 5 2]).inbox = [ent 3 1] ++ ent 5 2 :: [] ∧ Claims.fld (ent 3 1).side 60 4 = 3) ∧
    (Claims.canLeave mst 5 ∧ (mst.core 1).watch = [] ∧ h.inbox = []) := by
  refine ⟨?_, ownSlot_of ?_, ?_, ?_, ?_, ?_, ⟨by unfold Claims.canLeave; decide +kernel, ?_, ?_⟩⟩
  all_goals decide +kernel

theorem witness_messages_delivery :
    let m : State := { mst with transit := [⟨4, 7, ent 1 1⟩, ⟨4, 7, ent 1 2⟩, ⟨5, 7, ent 1 3⟩] }
    m.transit[2]? = some ⟨5, 7, ent 1 3⟩ ∧ (ent 1 3).wake = false ∧ Claims.inboxTakes m 7 ∧
      ∀ u ∈ m.transit.take 2, ¬ (u.sender = 5 ∧ u.receiver = 7) := by
  unfold Claims.inboxTakes; decide +kernel

/-- A push to another die and to the own one, poisoned; a head that is expected and one that is not. -/
theorem witness_queues_dies :
    let s := wh (fun h => { h with v := [(4, { val := 0x77, gen := 3 }), (5, { gen := 3, poison := true })], x := xs [(5, 1), (6, 3), (7, 4), (8, 0)] })
      { base with dieqs := [(64, { ents := [(0x55, 3)], want := 3, tail := 4 }), (128, { ents := [(0x55, 3)], want := 4 })] }
    let h := s.hart 5
    Free s 5 ∧ s.partOfCluster (hartCluster 5) = some (0, KMap.get {} base.parts 0) ∧ (∀ r ∈ [5, 6, 7, 8], h.xUse r) ∧ h.vReads 4 ∧ h.vReads 5 ∧
    h.vPois 4 = false ∧ h.vPois 5 = true ∧ ((h.xVal 6).toNat < 4 ∧ (h.xVal 6).toNat ≠ 5 / 12288) ∧ (4 ≤ (h.xVal 7).toNat ∧ (h.xVal 8).toNat = 5 / 12288) ∧
    (KMap.get {} s.dieqs 64 : DieQ).ents = (0x55, 3) :: [] ∧ (KMap.get {} s.dieqs 64 : DieQ).want = 3 ∧ (KMap.get {} s.dieqs 128 : DieQ).want ≠ 3 ∧
    (KMap.get {} s.dieqs 48 : DieQ).ents.length < 256 := by
  refine ⟨?_, ?_, ?_, ?_, ?_, ?_⟩
  · unfold Free; decide +kernel
  · decide +kernel
  · unfold Hart.xUse Hart.xReads; decide +kernel
  · unfold Hart.vReads; decide +kernel
  · unfold Hart.vReads; decide +kernel
  · decide +kernel

theorem pinRoom_of {s : State} {n m : Nat} {cue : Word} (h : Claims.cueOf (s.hart n) n = some (m, cue)) (hp : (s.hart m).pins.length < 8) :
    Claims.pinRoom s n := by
  intro k c hk
  rw [h] at hk
  cases hk
  exact hp

/-- A push that leaves a part of a command and one that fills it; results to pop. -/
theorem witness_queues_engines :
    let s (k : Nat) : State := wh fun h => { h with
      x := xs [(5, 77)], v := [(4, { val := 0x77, gen := 3 }), (5, { gen := 3, poison := true })]
      q2 := (List.range k).map (BitVec.ofNat 64), q3 := (List.range 9).map fun i => { val := BitVec.ofNat 64 (i + 100), poison := i == 3 } }
    let h := (s 0).hart 5
    Free (s 0) 5 ∧ h.xUse 5 ∧ h.vReads 4 ∧ h.vReads 5 ∧ (h.vPois 4 = false ∧ h.vPois 5 = true) ∧
    (((s 0).hart 5).q2.length + 1 < 4 ∧ 4 ≤ ((s 3).hart 5).q2.length + 1 ∧ h.pins.length < 8 ∧ h.helper = none) ∧
    (((s 1).hart 5).q2 ≠ [] ∧ h.q2 = [] ∧ ((2 : BitVec 2) ≠ 3)) ∧ (∀ j, j < 8 → 4 ≤ j → Claims.laneAt 64 (h.vVal 4) j = 0) ∧
    (h.q3 = { val := 100 } :: h.q3.drop 1 ∧ h.q3 = h.q3.take 8 ++ h.q3.drop 8 ∧ (h.q3.take 8).length = 8) ∧
    (Claims.pinRoom (s 3) 5 ∧ Claims.fld (77 : Word) 19 1 = 0 ∧ cmdWords 77 ≤ 8 ∧ ((s 0).slice (hartSlice 5)).tasks.length < 64) ∧
    cmdWords 3 = 5 := by
  refine ⟨?_, ?_, ?_, ?_, ?_, ?_, ?_, ?_, ?_, ⟨pinRoom_of (m := 5) (cue := BitVec.ofNat 64 (bnk + 4096)) ?_ ?_, ?_⟩, ?_⟩
  · unfold Free; decide +kernel
  · unfold Hart.xUse Hart.xReads; decide +kernel
  · unfold Hart.vReads; decide +kernel
  · unfold Hart.vReads; decide +kernel
  all_goals first | decide +kernel | (dsimp only; decide +kernel)

/-- A barrier slot in the second granule of the bank, bound to barrier 63: a configuration and the words of its state. -/
def bst (cfg state vote : Nat) : State :=
  let s := wx [(5, bnk + 32), (6, 15), (7, 16), (8, 2 ^ 23), (9, 2 ^ 24 + 3), (10, bnk + 40), (11, 0)]
  s.setCore 1 { s.core 1 with gran := [(1, gw 3 [state, vote, cfg, 5])], bars := [(63, some (BitVec.ofNat 64 (bnk + 32)))] }

/-- Configuration words good and bad, aligned and not; a slot with one arrival to come and with more, one not initialised;
a wait on a past generation and on the present one; the operation of the slot and another. -/
theorem witness_barriers :
    let s (p ini : Nat) : State := bst (2 ^ 24 + 2) (2 ^ 40 * p + 2 ^ 7 * ini) 4
    let h := (s 1 1).hart 5
    let at' (p ini : Nat) : Claims.Slot := Claims.slotAt (s p ini) 5 32
    (Free (s 1 1) 5 ∧ (∀ r ∈ [5, 6, 7, 8, 9, 10, 11], h.xUse r) ∧ (s 1 1).part = none ∧ ((s 1 1).core 1).psb = [] ∧ (s 1 1).log = []) ∧
    ((h.xVal 5).toNat = Claims.bankBase + 32 ∧ 32 % 32 = 0 ∧ (h.xVal 10).toNat = Claims.bankBase + 40 ∧ 40 % 32 ≠ 0) ∧
    Claims.ownSlot (s 1 1) 5 32 32 ∧
    (Claims.fld (h.xVal 8) 23 1 ≠ 0 ∧ Claims.fld (h.xVal 11) 0 20 = 0) ∧
    (Claims.fld (h.xVal 9) 26 38 = 0 ∧ Claims.fld (h.xVal 9) 23 1 = 0 ∧ Claims.fld (h.xVal 9) 0 20 ≠ 0 ∧ Claims.fld (h.xVal 9) 20 3 < 6) ∧
    KMap.get none ((s 1 1).core 1).bars 62 = none ∧ Claims.bound (s 1 1) 5 63 32 ∧
    ((at' 1 1).init = 1 ∧ (at' 1 1).pending = 1 ∧ (at' 2 1).pending = 2 ∧ (at' 1 0).init = 0 ∧ (at' 0 1).pending = 0 ∧ (at' 1 1).inbound = 0 ∧ (at' 1 1).outbound = 0) ∧
    (h.rewait = none ∧ (at' 1 1).gen ≠ (h.xVal 6).toNat % 16 ∧ (at' 1 1).gen = (h.xVal 7).toNat % 16 ∧ ((s 1 1).core 1).watch.length < 64) ∧
    Claims.canLeave (s 1 1) 5 ∧ ((at' 1 1).cfg / 2 ^ 24 % 4 = (1 : BitVec 2).toNat ∧ (at' 1 1).cfg / 2 ^ 24 % 4 ≠ (2 : BitVec 2).toNat ∧ h.house = false) := by
  refine ⟨⟨?_, ?_, ?_⟩, ?_, ownSlot_of ?_, ?_, ?_, ?_, ⟨?_, ?_, ?_, (0, al 0 512 3), ?_, ?_⟩, ?_, ?_, ?_, ?_⟩
  · unfold Free; decide +kernel
  · unfold Hart.xUse Hart.xReads; decide +kernel
  all_goals first | decide +kernel | (unfold Claims.canLeave; decide +kernel)

/-- A phase that issues again on a slot that is there, of another generation, and on one that is gone. -/
theorem witness_barriers_again :
    let s (ini : Nat) : State := bst (2 ^ 24 + 2) (2 ^ 40 + 2 ^ 7 * ini) 4
    let w (ini : Nat) : State := (s ini).setHart 5 { (s ini).hart 5 with rewait := some (3, 16 * 63 + 1) }
    (Free (w 1) 5 ∧ ((w 1).hart 5).xUse 5 ∧ (w 1).part = none ∧ ((w 1).core 1).psb = [] ∧ (w 1).log = []) ∧ Claims.bound (w 1) 5 63 32 ∧
    Claims.bound (w 0) 5 63 32 ∧
    ((w 1).hart 5).rewait = some (3, 16 * (63 : BitVec 6).toNat + 1) ∧
    ((Claims.slotAt (w 1) 5 32).init = 1 ∧ (Claims.slotAt (w 1) 5 32).gen ≠ 1 ∧ (Claims.slotAt (w 0) 5 32).init = 0) := by
  refine ⟨⟨?_, ?_, ?_⟩, ⟨?_, ?_, ?_, (0, al 0 512 3), ?_, ?_⟩, ⟨?_, ?_, ?_, (0, al 0 512 3), ?_, ?_⟩, ?_⟩
  · unfold Free; decide +kernel
  · unfold Hart.xUse Hart.xReads; decide +kernel
  all_goals decide +kernel

/-- A call packet in the fourth granule. -/
def kst (n : Nat) : State :=
  let s := wx [(5, bnk + 96), (6, 9), (7, 255), (8, 256), (9, bnk + 104)]
  s.setCore 1 { s.core 1 with gran := [(3, { data := (List.range 32).filterMap fun i =>
    if n / 256 ^ i % 256 == 0 then none else some (i, BitVec.ofNat 8 (n / 256 ^ i)), tag := 3 })] }

/-- A packet of a service the partition may call, of one it may not, and a bad one; queues of the partition and not. -/
theorem witness_callsAndCombining_calls :
    let h := (kst 7).hart 5
    let reads (n : Nat) : Prop := ∃ bs t, hartLoad 5 (bnk + 96) 32 (kst n) = (.ok bs, t) ∧ (bs.all (fun b => !b.2) && Claims.number (bs.map (·.1)) == n &&
      (t.partOfCluster 0).any (fun q => q.2.svcs == [7]) && decide ((KMap.get {} t.svcs 7 : Svc).calls.length < (KMap.get {} t.svcs 7 : Svc).size)) = true
    (Free (kst 7) 5 ∧ (kst 7).part = none ∧ (∀ r ∈ [5, 6, 7, 8, 9], h.xUse r) ∧ (h.xVal 9).toNat % 32 ≠ 0 ∧ (h.xVal 5).toNat = bnk + 96) ∧
    reads 7 ∧ reads (7 + 2 ^ 100) ∧ reads 8 ∧ reads (2 ^ 18 + 7) ∧
    ((kst 7).partOfCluster (hartCluster 5) = some (0, KMap.get {} base.parts 0) ∧ (h.xVal 6).toNat ∈ (KMap.get {} base.parts 0).queues ∧
      (h.xVal 7).toNat ∉ (KMap.get {} base.parts 0).queues ∧ 255 < (h.xVal 8).toNat) := by
  refine ⟨⟨?_, ?_, ?_, ?_⟩, ok2_of _ ?_, ok2_of _ ?_, ok2_of _ ?_, ok2_of _ ?_, ?_⟩
  · unfold Free; decide +kernel
  · decide +kernel
  · unfold Hart.xUse Hart.xReads; decide +kernel
  all_goals decide +kernel

/-- U-mode, a set not owned, no kick and a kick at the highest place; journal entries good, bad and misaligned. -/
theorem witness_callsAndCombining_director :
    let e (k : Nat) : List Byte := leBytes 4 99 ++ leBytes 2 k ++ leBytes 26 0
    let s (k : Nat) : State := { dbase false [(5, 0), (6, 4), (7, 0x20000), (8, 0x20008), (9, 1)] with
      mem := Memory.setBytes [] 0x20000 (e k), kicks := BitVec.ofNat 256 (2 ^ 63) }
    let c := (s 0).dir 0
    (FreeDir (s 0) 0 ∧ FreeDir (dbase true) 0 ∧ c.user = false ∧ ((dbase true).dir 0).user = true) ∧
    ((3 < (c.getX 6).toNat) ∧ ((s 0).qset 1).owner.toNat ≠ 0 ∧ ((s 0).qset 0).owner.toNat = 0 ∧ (c.getX 5).toNat = 0) ∧
    ((dbase false).kicks.toNat / 2 ^ (64 * 0) % 2 ^ 64 = 0 ∧ (s 0).kicks.getLsbD 63 = true ∧ (∀ l, l < 63 → (s 0).kicks.getLsbD l = false)) ∧
    ((c.getX 8).toNat % 32 ≠ 0 ∧ (c.getX 7).toNat % 32 = 0 ∧ (s 0).part = none ∧ (((s 0).qset 0).jtail - ((s 0).qset 0).jlhead).toNat < 2 ^ ((s 0).qset 0).jsize.toNat) ∧
    (∃ bs t, dirLoad 0 0x20000 32 (s 2) = (.ok bs, t) ∧ (bs == e 2) = true) ∧ (∃ bs t, dirLoad 0 0x20000 32 (s 6) = (.ok bs, t) ∧ (bs == e 6) = true) ∧
    (∃ u t, dirWrite 0 (((s 2).qset 0).jlbase + 0).toNat (Claims.bytes 4 0 ++ (e 2).drop 4) (s 2) = (.ok u, t) ∧ true = true) := by
  refine ⟨?_, ?_, ?_, ?_, ok_of _ ?_, ok_of _ ?_, ok_of (fun _ => true) ?_⟩
  · unfold FreeDir; dsimp only; and_intros <;> decide +kernel
  all_goals decide +kernel

/-- A combine context of the group of the core. -/
def nst (op : Nat) (got : List (Nat × BitVec 1024)) (net : Option Pending := none) (cue : Nat := 0) : State :=
  let s := wh (fun h => { h with cueptr := BitVec.ofNat 64 cue, net := net, x := xs [(5, bnk + 128), (6, 256), (7, bnk + 136)], v := vs [(4, 13, 5)] })
    { base with combine := [(255, some {
        op := op, scope := 2, group := ((Writer.core 1).group 2).getD 0, n := 2, got := got, round := 3
        results := [(4, 3, 1), (5, 3, 7)] })] }
  s.setCore 1 { s.core 1 with gran := (List.range 8).map fun i => (i, gr 3 false 1) }

/-- A wait for round 3, and one that stores 128 bytes back. -/
def wait3 : Pending := { window := 0, netDest := 5, net := some (255, 3), pc := 64 }
def wait3v : Pending := { wait3 with stores := Claims.backStores 5 128 3 (leBytes 128 9) }

theorem resultIs_of {s : State} {c : Combine} {w : Pending} (h1 : (s.hart 5).net = some { w with net := some (255, 3), pc := 64 })
    (h2 : KMap.get none s.combine 255 = some c) (h3 : c.results = [(4, 3, 1), (5, 3, 7)]) : Claims.resultIs s 5 255 3 c 7 w :=
  ⟨⟨64, h1⟩, h2, [(4, 3, 1)], [], h3, by decide⟩

/-- No context, one of another operation, the first and the last contribution of a round, with a cue and without, and a
result to take, also of the form that stores it back. -/
theorem witness_callsAndCombining_combine :
    let o : LOpts := { ed1 := true }
    let c (op : Nat) (g : List (Nat × BitVec 1024)) : Combine := (KMap.get none (nst op g).combine 255).getD { op := 9, scope := 9, group := 9, n := 9 }
    let h := (nst 1 []).hart 5
    (Free (nst 1 []) 5 ∧ o.ed1 = true ∧ h.xUse 5 ∧ h.xUse 6 ∧ h.xUse 7 ∧ h.vUse 4 [13] ∧ h.vPois 4 = false) ∧
    (h.net = none ∧ KMap.get none (nst 1 []).combine 254 = none ∧ ¬ Claims.mayJoin (nst 0 []) 5 1 2 (c 0 []) ∧
      Claims.mayJoin (nst 1 []) 5 1 2 (c 1 [])) ∧
    (Claims.pinRoom (nst 1 []) 5 ∧ Claims.pinRoom (nst 1 [] none 0x40) 5 ∧ Claims.cueOf ((nst 1 []).hart 5) 5 = none ∧
      Claims.cueOf ((nst 1 [] none 0x40).hart 5) 5 = some (5, 0x40) ∧ Claims.pinsOn ((nst 1 [] none 0x40).hart 5) 0x40 = []) ∧
    ((c 1 []).got.length + 1 < 2 ∧ (c 1 [(9, 6)]).got.length + 1 = 2) ∧
    Claims.resultIs (nst 1 [] (some wait3)) 5 255 3 (c 1 []) 7 { window := 0, netDest := 5 } ∧
    Claims.resultIs (nst 2 [] (some wait3v)) 5 255 3 (c 2 []) 7
      { window := 0, netDest := 5, stores := Claims.backStores 5 128 (Claims.genAt (nst 2 []) 1 128) (leBytes 128 9) } ∧
    ((h.xVal 5).toNat = Claims.bankBase + 128 ∧ ((h.xVal 6).toNat % 128 = 0 ∧ (h.xVal 6).toNat < Claims.bankBase) ∧ (h.xVal 7).toNat % 128 ≠ 0 ∧
      Claims.ownSlot (nst 2 []) 5 128 128 ∧ Claims.covered (nst 2 []) 1 128 128 3 ∧ ((nst 2 []).core 1).psb = [] ∧
      Claims.genAt (nst 2 []) 1 128 = 3 ∧ (∀ g, g < 8 → (Claims.bankGran (nst 2 []) 1 g).tag = 3 ∧ (Claims.bankGran (nst 2 []) 1 g).poison = false)) := by
  refine ⟨⟨?_, ?_, ?_, ?_, ?_, ?_, ?_⟩, ?_, ⟨?_, pinRoom_of (m := 5) (cue := 0x40) ?_ ?_, ?_⟩, ?_, resultIs_of ?_ ?_ ?_, resultIs_of ?_ ?_ ?_,
    ?_, ?_, ?_, ownSlot_of ?_, covered_of ?_, ?_, ?_⟩
  · unfold Free; decide +kernel
  · decide +kernel
  · unfold Hart.xUse Hart.xReads; decide +kernel
  · unfold Hart.xUse Hart.xReads; decide +kernel
  · unfold Hart.xUse Hart.xReads; decide +kernel
  · unfold Hart.vUse Hart.vReads; decide +kernel
  case refine_8 => unfold Claims.mayJoin; decide +kernel
  case refine_9 =>
    intro m cue hk
    rw [show Claims.cueOf ((nst 1 []).hart 5) 5 = none by decide +kernel] at hk
    cases hk
  all_goals decide +kernel
/-- Bytes of a number written to the own bank of hart 5 under generation 3. -/
def pb (s : State) (o len v : Nat) : State := (List.range len).foldl (fun s i =>
  let c := s.core 1
  let g : Gran := KMap.get {} c.gran ((o + i) / 32)
  s.setCore 1 { c with gran := KMap.set {} c.gran ((o + i) / 32) { g with
    tag := 3, data := KMap.set 0 g.data ((o + i) % 32) (BitVec.ofNat 8 (v / 256 ^ i)) } }) s

/-- A configuration record: pair, the three strides, output format, both scales 1. -/
def cfgv (pair lda ldb ldc outf : Nat) : Nat :=
  pair + 2 ^ 16 * outf + 2 ^ 64 * lda + 2 ^ 96 * ldb + 2 ^ 128 * ldc + 2 ^ 192 * 0x3F800000 + 2 ^ 224 * 0x3F800000

/-- Hart 5 with a configuration, and a live accumulator allocation of 1,024 granules with generation 5. -/
def ust (cfg : Option Nat) (l : List (Nat × Nat)) : State :=
  let s := base.setCluster 0 { base.cluster 0 with accAlloc := [(0, al 0 1024 5)], acc := (List.range 20).map fun i => (i, gr 5 (i == 1) (i * 3)) }
  wh (fun h => { h with x := xs l, mxcfg := cfg.map (BitVec.ofNat 512), v := vs [(31, 2, 5), (0, 2, 6)] }) s

def dims (m n k : Nat) : Nat := m + 2 ^ 16 * n + 2 ^ 32 * k

theorem accCovered_of {s : State} {cl lo len : Nat} {g : BitVec 16}
    (h : (match covering (s.cluster cl).accAlloc lo with | some e => e.2.gen == g && decide (lo + len ≤ e.2.base + 32 * e.2.len) | none => false) = true) :
    Claims.accCovered s cl lo len g := by
  split at h
  case h_1 e he => exact ⟨e, he, by simpa using h⟩
  case h_2 => simp at h

/-- Configuration records good and bad; tiles whose dims, base or stride break a rule, outside every allocation, and inside one
up to its end; groups of one and of eight registers, and one that wraps past v31. -/
theorem witness_matrixCells :
    let s := ust (some (cfgv 1 4 4 64 0)) [(5, bnk + 128), (6, 0), (7, 32704), (8, 32768), (9, 66), (10, dims 0 2 0), (11, dims 1 16 0), (12, dims 2 17 0), (13, dims 2 1 1)]
    let h := s.hart 5
    let cfg := BitVec.ofNat 512 (cfgv 1 4 4 64 0)
    let reads (v : Nat) : Prop := ∃ r t, Claims.record (pb s 128 64 v) 5 (bnk + 128) r t ∧ (r == BitVec.ofNat 512 v) = true
    (Free s 5 ∧ (∀ r ∈ [5, 6, 7, 8, 9, 10, 11, 12, 13], h.xUse r) ∧ (h.xVal 9).toNat % 64 ≠ 0 ∧ (h.xVal 5).toNat = bnk + 128) ∧
    (reads (cfgv 1 4 4 64 0) ∧ ¬ Claims.badCfg cfg ∧ reads (cfgv 1 4 4 64 7) ∧ Claims.badCfg (BitVec.ofNat 512 (cfgv 1 4 4 64 7))) ∧
    (((ust none []).hart 5).mxcfg = none ∧ h.mxcfg = some cfg ∧ Claims.vfld cfg 128 32 = 64) ∧
    ((Claims.fld (h.xVal 10) 0 16 = 0 ∧ Claims.fld (h.xVal 13) 32 32 ≠ 0) ∧
      (Claims.fld (h.xVal 11) 0 16 = 1 ∧ Claims.fld (h.xVal 11) 16 16 * 4 = 64 ∧ Claims.fld (h.xVal 11) 32 32 = 0) ∧
      (Claims.fld (h.xVal 12) 16 16 * 4 = 68 ∧ (h.xVal 9).toNat % 4 ≠ 0)) ∧
    (covering (s.cluster 0).accAlloc 32768 = none ∧ Claims.accCovered s 0 32704 64 5 ∧ Claims.idle s 5 ∧ h.window (.mxZero {} 7 11) = 0) ∧
    (Claims.accCovered s 0 0 512 5 ∧ Claims.accReads s 5 0 512) ∧
    (Claims.vfld cfg 16 4 = 0 ∧ Claims.vfld (BitVec.ofNat 512 (cfgv 1 4 4 64 6)) 16 4 ≠ 0 ∧ ¬ Claims.badCfg (BitVec.ofNat 512 (cfgv 1 4 4 64 6))) ∧
    ((∀ r, r < 2 ^ (1 : BitVec 2).toNat → h.vUse (Claims.member 31 r) [Claims.accTag 1] ∧ h.vPois (Claims.member 31 r) = false) ∧ h.window (.mxSt {} 1 31 6) = 0) ∧
    (let g := (wh (fun h => { h with v := [(31, { gen := 3, fmt := 2, poison := true }), (0, { gen := 3, fmt := 2 })] }) s).hart 5;
      (∀ r, r < 2 ^ (1 : BitVec 2).toNat → g.vUse (Claims.member 31 r) [Claims.accTag 1]) ∧ g.vPois (Claims.member 31 0) = true) ∧
    Claims.apart (s.cluster 0).accAlloc ∧ Claims.accCovered (ust none [(6, 0)]) 0 0 (64 * 2 ^ (1 : BitVec 2).toNat) 5 := by
  refine ⟨⟨?_, ?_, ?_, ?_⟩, ⟨record_of _ ?_, ?_, record_of _ ?_, ?_⟩, ?_, ?_, ⟨?_, accCovered_of ?_, ?_, ?_⟩, ⟨accCovered_of ?_, .inl ?_⟩, ⟨?_, ?_, ?_⟩, ⟨?_, ?_⟩, ⟨?_, ?_⟩, ?_, accCovered_of ?_⟩
  · unfold Free; decide +kernel
  · unfold Hart.xUse Hart.xReads; decide +kernel
  all_goals first | decide +kernel | (unfold Claims.badCfg; decide +kernel) | (unfold Claims.idle; decide +kernel) | (unfold Hart.vUse Hart.vReads; decide +kernel) |
    (unfold Claims.apart; decide +kernel)

/-- A task record: source and destination, dims, and its configuration at 256. -/
def trec (x : Nat) : Nat :=
  1 + 2 ^ 18 + 2 ^ 23 + 2 ^ 32 * 77 + 2 ^ 64 * (bnk + 8) + 2 ^ 128 * (bnk + 64) + 2 ^ 192 * dims 3 2 7 + 2 ^ 256 * 16 + 2 ^ 320 * (bnk + 256) + x

/-- The checks of mx.mma and mx.mmsp, each broken and kept; the largest k. -/
theorem witness_matrixTaskWork_multiply :
    let l := [(5, bnk + 8), (6, bnk + 64), (7, 16), (8, dims 3 2 7), (9, dims 1 1 (2 ^ 24 + 1)), (10, 2), (11, bnk + 1), (12, 32768), (13, dims 1 1 (2 ^ 24))]
    let s (c : Nat) : State := ust (some c) l
    let h := (s (cfgv 3 8 8 64 0)).hart 5
    let cfg (c : Nat) : Vec := BitVec.ofNat 512 c
    let ranges (sp : Bool) (c : Nat) : Prop := ∃ gens, ((s c).recordRanges 1 (Claims.rows sp (cfg c) (h.xVal 5) (h.xVal 6) (h.xVal 8)) [] : Except (Nat × Nat) _) = .ok gens
    (Free (s (cfgv 3 8 8 64 0)) 5 ∧ (∀ r ∈ [5, 6, 7, 8, 9, 10, 11, 12, 13], h.xUse r)) ∧
    (((ust none l).hart 5).mxcfg = none ∧ h.mxcfg = some (cfg (cfgv 3 8 8 64 0))) ∧
    (Claims.badDims (h.xVal 9) ∧ ¬ Claims.badDims (h.xVal 8) ∧ ¬ Claims.badDims (h.xVal 13)) ∧
    (Claims.vfld (cfg (cfgv 1 8 8 64 0)) 0 8 < 2 ∧ 7 < Claims.vfld (cfg (cfgv 8 8 8 64 0)) 0 8 ∧ Claims.vfld (cfg (cfgv 3 8 8 64 0)) 0 8 = 3 ∧
      Claims.vfld (cfg (cfgv 3 8 8 64 0)) 32 6 = 0) ∧
    ((h.xVal 10).toNat % 4 ≠ 0 ∧ (h.xVal 7).toNat % 4 = 0 ∧ Claims.fld (h.xVal 8) 16 16 * 4 ≤ 64 ∧ 4 < Claims.fld (h.xVal 8) 16 16 * 4) ∧
    ((h.xVal 11).toNat % 2 ≠ 0 ∧ (h.xVal 5).toNat % 2 = 0 ∧ (h.xVal 6).toNat % 2 = 0) ∧
    (covering ((s (cfgv 3 8 8 64 0)).cluster 0).accAlloc 32768 = none ∧ Claims.accCovered (s (cfgv 3 8 8 64 0)) 0 16 (2 * 64 + 8) 5) ∧
    ranges false (cfgv 3 8 8 64 0) ∧ ranges true (cfgv 3 8 8 64 0) ∧
    Claims.taskRoom (s (cfgv 3 8 8 64 0)) 5 ∧ h.window (.mxMma {} true true 9 5 6 7 8) = 0 := by
  have ok {ε α : Type} (r : Except ε α) (h : (match r with | .ok _ => true | .error _ => false) = true) : ∃ a, r = .ok a := by
    cases r with
    | ok a => exact ⟨a, rfl⟩
    | error e => simp at h
  refine ⟨⟨?_, ?_⟩, ?_, ⟨?_, ?_, ?_⟩, ?_, ?_, ?_, ⟨?_, accCovered_of ?_⟩, ok _ ?_, ok _ ?_, ⟨?_, pinRoom_of (m := 5) (cue := BitVec.ofNat 64 (bnk + 4096)) ?_ ?_⟩, ?_⟩
  · unfold Free; decide +kernel
  · unfold Hart.xUse Hart.xReads; decide +kernel
  all_goals first | decide +kernel | (unfold Claims.badDims; decide +kernel)

/-- mx.task: records bad and good, and configurations that break a range and keep them. -/
theorem witness_matrixTaskWork_records :
    let s (x c : Nat) : State := pb (pb (ust none [(5, bnk + 128)]) 128 64 (trec x)) 256 64 c
    let reads (x c : Nat) (p : Vec → State → Bool) : Prop := ∃ r t, Claims.record (s x c) 5 (bnk + 128) r t ∧ p r t = true
    let cfgIs (c : Nat) (t : State) : Bool :=
      let q := t.engRead (.cluster 0) 1 (t.rootOf 0) .now (bnk + 256) 0 64
      q.2.1.isNone && Claims.number (q.1.map (·.1)) == c &&
        match q.2.2.recordRanges 1 (Claims.rows false (BitVec.ofNat 512 c) (BitVec.ofNat 64 (bnk + 8)) (BitVec.ofNat 64 (bnk + 64)) (BitVec.ofNat 64 (dims 3 2 7))) [] with
        | .ok _ => true
        | .error _ => false
    let good := BitVec.ofNat 512 (trec (2 ^ 424 + 2 ^ 416 * 6))
    (Free (s 0 0) 5 ∧ ((s 0 0).hart 5).xUse 5 ∧ Claims.taskRoom (s 0 0) 5 ∧ ((s 0 0).hart 5).window (.mxTask {} 9 5) = 0) ∧
    (reads 1 0 (fun r _ => r == BitVec.ofNat 512 (trec 1)) ∧ Claims.badTask (BitVec.ofNat 512 (trec 1))) ∧
    (reads (2 ^ 424 + 2 ^ 416 * 6) (cfgv 9 8 8 64 0) (fun r t => r == good && cfgIs (cfgv 9 8 8 64 0) t) ∧ ¬ Claims.badTask good ∧
      ¬ Claims.badDims (BitVec.ofNat 64 (Claims.vfld good 192 64)) ∧ Claims.vfld good 17 1 = 0 ∧ Claims.vfld good 19 1 = 0 ∧
      Claims.vfld good 320 64 = bnk + 256) ∧
    (¬ Claims.badCfg (BitVec.ofNat 512 (cfgv 9 8 8 64 0)) ∧ Claims.badCfg (BitVec.ofNat 512 (cfgv 12 8 8 64 0)) ∧
      16 % (4 * Claims.accCells 9) = 0 ∧ 2 * (4 * Claims.accCells 9) ≤ 64 ∧ Claims.accCovered (s 0 0) 0 16 (2 * 64 + 8) 5) := by
  refine ⟨⟨?_, ?_, ⟨?_, pinRoom_of (m := 5) (cue := BitVec.ofNat 64 (bnk + 4096)) ?_ ?_⟩, ?_⟩, ⟨record_of _ ?_, ?_⟩, ⟨record_of _ ?_, ?_, ?_, ?_⟩, ?_, ?_, ?_, ?_, accCovered_of ?_⟩
  · unfold Free; decide +kernel
  · unfold Hart.xUse Hart.xReads; decide +kernel
  all_goals first | decide +kernel | (unfold Claims.badTask; decide +kernel) | (unfold Claims.badDims; decide +kernel) | (unfold Claims.badCfg; decide +kernel)

/-- A task of hart 5 of one FP32 product. -/
def tk : Task :=
  { hart := 5, root := 0x1000, core := 1, cluster := 0, op := 1, a := BitVec.ofNat 64 (bnk + 196), b := BitVec.ofNat 64 (bnk + 232)
    dst := 72, dims := BitVec.ofNat 64 (dims 1 1 1), zero := true, cfg := BitVec.ofNat 512 (cfgv 1 4 4 64 0)
    gens := [(locBank 1 6, 3), (locBank 1 7, 3)], accGen := 5, ticket := 3 }

/-- A task behind one that waits for a token; one that failed, and one on its engine, with and without a signal; one product. -/
theorem witness_matrixTaskWork_runs :
    let q (l : List Task) : State := base.setSlice 0 { base.slice 0 with tasks := l }
    let s := pb (pb ((ust none []).setSlice 0 { base.slice 0 with tasks := [{ tk with engine := some 0 }, tk] }) 196 4 0x40000000) 232 4 0x3F800001
    (Claims.startable (q [{ tk with hart := 6, waits := [(3, 1)] }, tk]) 0 1 tk ∧ (∀ j u, j < 1 → ¬ Claims.startable (q [{ tk with hart := 6, waits := [(3, 1)] }, tk]) 0 j u) ∧
      tk.anywhere = false ∧ 0 < Config.slices ∧ ∀ u ∈ ((q [{ tk with hart := 6, waits := [(3, 1)] }, tk]).slice 0).tasks, u.engine ≠ some 0) ∧
    (let t := { tk with status := 1, addr := 5 }; ((q [t]).slice 0).tasks[0]? = some t ∧ t.engine = none ∧ t.status ≠ 0 ∧ t.dir = none ∧ t.pin = none ∧ t.sig = none ∧ t.cover = []) ∧
    (let t := { tk with engine := some 0, sig := some 255 }; ((q [t]).slice 0).tasks[0]? = some t ∧ t.engine = some 0 ∧ t.sig = some 255) ∧
    (let t := { tk with engine := some 0 }; (s.slice 0).tasks[0]? = some t ∧ t.engine = some 0 ∧ t.status = 0 ∧ t.started = false ∧ t.steps = [] ∧ t.sparse = false ∧
      t.area = false ∧ t.cmpl = false ∧ t.sig = none ∧ s.log = [] ∧ Claims.vfld t.cfg 0 8 = 1 ∧ Claims.vfld t.cfg 32 6 = 0 ∧ Claims.vfld t.cfg 12 1 = 0 ∧
      Claims.vfld t.cfg 8 3 < 5 ∧ t.dims.toNat = 1 + 2 ^ 16 + 2 ^ 32 ∧ t.core < Config.cores ∧ t.a.toNat = Claims.bankBase + 196 ∧ t.b.toNat = Claims.bankBase + 232) ∧
    Claims.operand s tk 196 0x40000000 ∧ Claims.operand s tk 232 0x3F800001 ∧ Claims.accCovered s 0 72 4 5 ∧
    (0x40000000 % 2 ^ 31 / 2 ^ 23 < 255 ∧ 0x40000000 % 2 ^ 31 ≠ 0 ∧ 0x3F800001 % 2 ^ 31 / 2 ^ 23 < 255 ∧ 0x3F800001 % 2 ^ 31 ≠ 0) ∧ tk.pin = none := by
  refine ⟨⟨?_, ?_, ?_, ?_, ?_⟩, ?_, ?_, ?_, ⟨?_, ?_, 3, covered_of ?_, ?_, ?_⟩, ⟨?_, ?_, 3, covered_of ?_, ?_, ?_⟩, accCovered_of ?_, ?_⟩
  · unfold Claims.startable; decide +kernel
  · rintro j u hj ⟨h, -, -, hw, -⟩
    obtain rfl : j = 0 := by omega
    obtain rfl : { tk with hart := 6, waits := [(3, 1)] } = u := Option.some.inj h
    exact absurd (hw (3, 1) (by decide)) (by decide +kernel)
  all_goals decide +kernel

/-- A selection record: format, count, target, weighted or not; columns at 1024 and 2048 of the bank. -/
def selRec (fmt n target wtd : Nat) : Nat :=
  bnk + 1024 + 2 ^ 64 * (if wtd = 1 then bnk + 2048 else 0) + 2 ^ 256 * target + 2 ^ 320 * n + 2 ^ 384 * (fmt + 256 * 2 + 1024 * wtd)

/-- Hart 5 with a selection record at 128, columns, and a session. -/
def sst (v : Nat) (x : Option Session) : State :=
  let s := wx [(5, bnk + 128), (6, bnk + 256), (7, 2 ^ 64 - 1), (8, bnk + 129), (9, bnk + 264)]
  let s := pb (pb (pb s 128 64 v) 1024 32 0x0004000300020001000800070006) 2048 64 0x0102030405
  s.setCluster 0 { s.cluster 0 with sess := x }

/-- A session of four elements of int8, target two, two passes. -/
def sessn (f : Session → Session := id) : Session :=
  f { hart := 5, root := 0x1000, core := 1, rcd := BitVec.ofNat 512 (selRec 12 4 2 0), gens := (List.range 16).map fun i => (locBank 1 (32 + i), 3)
      cand := List.range 4, start := List.range 4, ready := true, rem := 2 }

/-- The bytes an engine sees in the bank. -/
def seesB (s : State) (o len : Nat) : PBytes := (List.range len).map fun k => Claims.seen (Claims.bankGran s 1 ((o + k) / 32)) 3 ((o + k) % 32)

/-- What a pass reads. -/
def passes (s : State) (x : Session) : Prop := ∃ a u, s.selPass x = (.ok a, u) ∧ (a.1.length == 4) = true

theorem passes_of {s : State} {x : Session}
    (h : (match (s.selPass x).1 with | .ok a => a.1.length == 4 | .error _ => false) = true) : passes s x := by
  unfold passes
  generalize s.selPass x = m at h
  obtain ⟨r, t⟩ := m
  cases r with
  | error e => simp at h
  | ok a => exact ⟨a, t, rfl, h⟩

/-- Records bad and good; no session, one done, one that awaits its decide step, one between passes. -/
theorem witness_selectionUnit_run :
    let s := sst (selRec 12 4 2 0) none
    let rd (v : Nat) (p : Vec → State → Bool) : Prop := ∃ r t, Claims.record (sst v none) 5 (bnk + 128) r t ∧ p r t = true
    (Free s 5 ∧ (∀ r ∈ [5, 6, 7, 8], (s.hart 5).xUse r) ∧ ((s.hart 5).xVal 8).toNat % 64 ≠ 0 ∧ ((s.hart 5).xVal 5).toNat = bnk + 128 ∧
      (s.hart 5).pins.length < 8 ∧ (s.hart 5).helper = none) ∧
    (rd (selRec 8 4 2 0) (fun r _ => r == BitVec.ofNat 512 (selRec 8 4 2 0)) ∧ Claims.badSel (BitVec.ofNat 512 (selRec 8 4 2 0))) ∧
    (rd (selRec 12 4 2 0) (fun r t => r == BitVec.ofNat 512 (selRec 12 4 2 0) && (t.cluster 0).sess.isNone && (t.cluster 0).jobs.isEmpty &&
      decide ((t.hart 5).pins.length < 8) && (t.hart 5).helper.isNone && match t.recordRanges 1 (SelRec.ranges r none) [] with | .ok _ => true | .error _ => false) ∧
      ¬ Claims.badSel (BitVec.ofNat 512 (selRec 12 4 2 0)) ∧ Claims.vfld (BitVec.ofNat 512 (selRec 12 4 2 0)) 396 1 = 0 ∧
      Claims.vfld (BitVec.ofNat 512 (selRec 12 4 2 0)) 128 64 = 0 ∧ ¬ Claims.badSel (BitVec.ofNat 512 (selRec 12 1048576 1 1))) ∧
    Claims.unopened s 5 ∧ (Claims.opened (sst 0 (some sessn)) 5 sessn ∧ sessn.pin = none ∧ sessn.done = false ∧ sessn.counted = false ∧
      sessn.passes < Claims.passCount sessn.rcd ∧ 0 < sessn.rem) ∧
    passes (sst 0 (some sessn)) sessn ∧ (s.hart 5).window (.slRun {} 9) = 0 ∧
    (let y := sessn fun x => { x with done := true }; Claims.opened (sst 0 (some y)) 5 y ∧ y.done = true) ∧
    (let y := sessn fun x => { x with counted := true }; Claims.opened (sst 0 (some y)) 5 y ∧ y.done = false ∧ y.counted = true) ∧
    (let y := sessn fun x => { x with hart := 6 }; (∀ x, ((sst 0 (some y)).cluster (hartCluster 5)).sess = some x → x.hart ≠ 5) ∧ ((sst 0 (some y)).cluster 0).sess ≠ none ∧
      ((sst 0 (some y)).cluster 0).jobs = []) ∧
    (let y := sessn fun x => { x with rcd := BitVec.ofNat 512 (selRec 12 4 2 0 - (bnk + 1024) + 0x800000) }; ∃ e u, (sst 0 (some y)).selPass y = (.error e, u) ∧ true = true) := by
  refine ⟨⟨?_, ?_, ?_⟩, ⟨record_of _ ?_, ?_⟩, ⟨record_of _ ?_, ?_, ?_, ?_, ?_⟩, ?_, ⟨?_, ?_⟩, passes_of ?_, ?_, ⟨?_, ?_⟩, ⟨?_, ?_⟩, ⟨?_, ?_⟩, error_of (fun _ => true) ?_⟩
  · unfold Free; decide +kernel
  · unfold Hart.xUse Hart.xReads; decide +kernel
  case refine_20 =>
    intro x h
    rw [show ((sst 0 (some (sessn fun x => { x with hart := 6 }))).cluster (hartCluster 5)).sess = some (sessn fun x => { x with hart := 6 }) by decide +kernel] at h
    cases h
    decide
  case refine_11 => intro x h; exact absurd h (by rw [show ((sst (selRec 12 4 2 0) none).cluster (hartCluster 5)).sess = none by decide +kernel]; simp)
  all_goals first | decide +kernel | (unfold Claims.badSel; decide +kernel) | (unfold Claims.opened; decide +kernel)

/-- Steps of a session with the block of counts in the bank: a local step, blocks that are large enough and that are not, a
mask of a session done, a weighted one; sel 1 at the threshold. -/
theorem witness_selectionUnit_steps :
    let s (x : Session) : State := sst 0 (some x)
    let y := sessn fun x => { x with counted := true, cnts := List.replicate 16 1, wts := List.replicate 16 0, digs := [0, 1, 2, 3] }
    let z := sessn fun x => { x with done := true, passes := 2, pre := 133 }
    let wt := sessn fun x => { x with rcd := BitVec.ofNat 512 (selRec 12 4 2 1) }
    let blk (v : Nat) : State := (s y).setCore 1 { (s y).core 1 with gran := (List.range 4).map fun i => (8 + i, gw 3 [v, v, v, v]) }
    let img := Machine.image { code := 12, uns := false } (Claims.vfld z.rcd 389 2) (decide (Claims.vfld z.rcd 391 1 = 1))
    ((((s y).hart 5).xVal 6).toNat = Claims.bankBase + 256 ∧ 256 % 128 = 0 ∧ (((s y).hart 5).xVal 9).toNat % 128 ≠ 0 ∧ (((s y).hart 5).xVal 7).toNat = 2 ^ 64 - 1) ∧
    Claims.ownSlot (s y) 5 256 256 ∧ Claims.covered (s y) 1 256 256 3 ∧ Claims.ownSlot (s y) 5 256 8 ∧
    (((s y).core 1).psb = [] ∧ (s y).log = [] ∧ (s y).part = none ∧ ((s y).hart 5).window (.slPassCount {} 9 6) = 0 ∧ ((s y).hart 5).window (.slPassDecide {} 9 6) = 0) ∧
    (Claims.opened (s y) 5 y ∧ y.counted = true ∧ y.cnts.length = 16 ∧ y.wts.length = 16 ∧ y.digs.length = y.cand.length ∧ y.cand.Nodup ∧
      y.passes < Claims.passCount y.rcd ∧ 0 < y.rem ∧ y.cnts.getD 15 0 = 1) ∧
    (∀ v, v < 2 → ∀ j, j < 16 → seesB (blk v) (256 + 8 * j) 8 = (leBytes 8 v).map fun b => (b, false)) ∧
    passes (s z) z ∧ (Claims.opened (s z) 5 z ∧ z.done = true ∧ z.pin = none ∧ (∀ j ∈ z.start, j < Claims.vfld z.rcd 320 32) ∧ z.core = 5 / 4 ∧
      z.empty = false ∧ ¬ Claims.badSel z.rcd ∧ img 5 = some (Claims.thresholdOf z)) ∧
    (Claims.opened (s wt) 5 wt ∧ Claims.vfld wt.rcd 394 1 = 1) ∧ passes (s wt) wt := by
  refine ⟨?_, ownSlot_of ?_, covered_of ?_, ownSlot_of ?_, ?_, ⟨?_, ?_⟩, ?_, passes_of ?_, ⟨?_, ?_, ?_, ?_, ?_, ?_, ?_, ?_⟩, ⟨?_, ?_⟩, passes_of ?_⟩
  all_goals first | decide +kernel | (unfold Claims.badSel; decide +kernel) | (unfold Claims.opened; decide +kernel)

/-- Jobs: one that failed, one whose selection is decided, one between passes. -/
theorem witness_selectionUnit_jobs :
    let j : SelJob := { hart := 5, root := 0x1000, core := 1, words := [0x1234567800000001, 0, 0, 0], sess := some sessn }
    let z := sessn fun x => { x with done := true, pre := 133 }
    let s (j : SelJob) : State := let s := sst 0 none; s.setCluster 0 { s.cluster 0 with jobs := [j] }
    (0 < Config.clusters ∧ j.cfg = false ∧ ((s j).cluster 0).sess = none ∧ ((s j).cluster 0).jobs = j :: [] ∧ ((s j).hart j.hart).q3.length ≤ 27) ∧
    (let k := { j with status := 1 }; ((s k).cluster 0).jobs = k :: [] ∧ k.status ≠ 0 ∧ k.status ≠ 8 ∧ k.status < 256 ∧ k.pin = none) ∧ ({ j with status := 8 } : SelJob).status = 8 ∧
    (let k := { j with sess := some z }; ((s k).cluster 0).jobs = k :: [] ∧ k.status = 0 ∧ z.done = true ∧ (k.words.getD 0 0).toNat / 2 ^ 10 % 2 = 0 ∧
      z.pre < 2 ^ Claims.imgBits z.rcd ∧ z.above < 2 ^ 64 ∧ z.eq < 2 ^ 64 ∧ z.wabove < 2 ^ 64 ∧ k.pin = none) ∧
    (j.status = 0 ∧ sessn.done = false ∧ sessn.passes < Claims.passCount sessn.rcd ∧ 0 < sessn.rem) ∧ passes (s j) sessn := by
  refine ⟨?_, ?_, ?_, ?_, ?_, passes_of ?_⟩
  all_goals decide +kernel

/-- A copy command of hart 5 at the head of its engine. -/
def cmd (ws : List Nat) : CopyCmd :=
  { hart := 5, root := 0x1000, words := ws.map (BitVec.ofNat 64), gens := (List.range 20).map fun i => (locBank 1 i, 3) }

def est (c : CopyCmd) : State :=
  let s := base.setCluster 0 { base.cluster 0 with copy := [c] }
  pb s 68 4 9

theorem sees_of {s : State} {c : CopyCmd} {o len : Nat} (h0 : c.core = 1)
    (h : (decide (0 < len ∧ o + len ≤ 2 ^ 17) && coveredB s 1 o len 3 && (List.range len).all fun k =>
      genOf c.gens (locBank 1 ((o + k) / 32)) == some 3) = true) : Claims.engSees s c o len (seesB s o len) := by
  simp only [Bool.and_eq_true, decide_eq_true_eq, List.all_eq_true, List.mem_range, beq_iff_eq] at h
  obtain ⟨⟨⟨h1, h2⟩, h3⟩, h4⟩ := h
  refine ⟨h1, h2, by simp [seesB], 3, ?_, fun k hk => ⟨?_, ?_⟩⟩
  · rw [h0]; exact covered_of h3
  · rw [h0]; exact h4 k hk
  · rw [h0]
    simp [seesB, hk, List.getD_eq_getElem?_getD]

theorem takes_of {s : State} {c : CopyCmd} {o len : Nat} (h0 : c.core = 1)
    (h : (decide (0 < len ∧ o + len ≤ 2 ^ 17) && (List.range len).all fun k =>
      match covering (s.core 1).alloc ((o + k) / 32 * 32) with
      | some e => !e.2.sealed && genOf c.gens (locBank 1 ((o + k) / 32)) == some e.2.gen
      | none => false) = true) : Claims.engTakes s c o len := by
  simp only [Bool.and_eq_true, decide_eq_true_eq, List.all_eq_true, List.mem_range] at h
  refine ⟨h.1.1, h.1.2, fun k hk => ?_⟩
  have := h.2 k hk
  rw [h0]
  split at this
  case h_1 e he => exact ⟨e, he, by simpa using this⟩
  case h_2 => simp at this

/-- Copies of one row and of more, up to the end of a line; a gather of the last index; a fill; bytes into a landing buffer. -/
theorem witness_copyEngineWork_moves :
    let c1 := cmd [1, bnk + 64, bnk + 300, 20]
    let c2 := cmd [2, bnk + 64, bnk + 300, 20 + 2 ^ 32 * 3, 4 + 2 ^ 32 * 8]
    let c6 := { cmd [6, 0, bnk + 64, 7, 2] with block := 64, bad := 4, next := BitVec.ofNat 64 (bnk + 256) }
    let c3 := cmd [3, bnk + 68, bnk, bnk + 300, 12 + 2 ^ 16 * 1]
    let c4 := cmd [4, bnk + 84, 0x1122334455667788, 44]
    let c7 := { cmd [1 + 2 ^ 23, bnk, 0x1F, 20] with started := true, land := (List.range 20).map fun i => (BitVec.ofNat 8 i, false) }
    let head (c : CopyCmd) : Prop := Claims.heads (est c) 0 c ∧ (est c).log = [] ∧ c.status = 0 ∧ c.unit = 0 ∧ c.written = 0 ∧ c.slot = none ∧ ¬ Claims.landing c
    (head c1 ∧ Claims.opOf c1 = 1 ∧ Claims.rowsOf c1 = 1 ∧ Claims.firstRow c1 = (bnk + 64, bnk + 300, 20) ∧ 64 % 64 + 20 ≤ 64 ∧ 300 % 64 + 20 ≤ 64) ∧
    (head c2 ∧ Claims.opOf c2 = 2 ∧ Claims.rowsOf c2 = 3 ∧ Claims.firstRow c2 = (bnk + 64, bnk + 300, 20)) ∧
    (head c6 ∧ Claims.opOf c6 = 6 ∧ Claims.rowsOf c6 = 2 ∧ Claims.firstRow c6 = (bnk + 64, bnk + 448, 64) ∧ 448 % 64 + 64 ≤ 64) ∧
    (Claims.engSees (est c1) c1 64 20 (seesB (est c1) 64 20) ∧ Claims.engTakes (est c1) c1 300 20) ∧
    (Claims.engSees (est c6) c6 64 64 (seesB (est c6) 64 64) ∧ Claims.engTakes (est c6) c6 448 64) ∧
    (head c3 ∧ Claims.opOf c3 = 3 ∧ Claims.engSees (est c3) c3 68 4 (seesB (est c3) 68 4) ∧
      Claims.wordOf c3 2 + Claims.number ((seesB (est c3) 68 4).map (·.1)) * 12 = Claims.bankBase + 108 ∧ Claims.engSees (est c3) c3 108 12 (seesB (est c3) 108 12) ∧
      108 % 64 + 12 ≤ 64 ∧ Claims.engTakes (est c3) c3 300 12) ∧
    (head c4 ∧ Claims.opOf c4 = 4 ∧ 84 % 64 + 44 ≤ 64 ∧ Claims.engTakes (est c4) c4 84 44) ∧
    (((est c7).cluster 0).copy[0]? = some c7 ∧ Claims.landing c7 ∧ c7.started = true ∧ c7.finished = false ∧ 0 < 16) ∧
    (let s : State := (est c1).setCluster 0 { (est c1).cluster 0 with copyHold := true }; (s.cluster 0).copyHold = true ∧ (s.cluster 0).copy[0]? = some c1 ∧ c1.started = false) ∧
    (let z := cmd [1, bnk + 64, bnk + 300, 0]; Claims.heads (est z) 0 z ∧ Claims.opOf z = 1 ∧ Claims.wordOf z 3 % 2 ^ 32 = 0) ∧
    (c1.buf = [] ∧ 0 < c6.bad) := by
  refine ⟨⟨?_, ?_⟩, ⟨?_, ?_⟩, ⟨?_, ?_⟩, ⟨sees_of rfl ?_, takes_of rfl ?_⟩, ⟨sees_of rfl ?_, takes_of rfl ?_⟩,
    ⟨?_, ?_, sees_of rfl ?_, ?_, sees_of rfl ?_, ?_, takes_of rfl ?_⟩, ⟨?_, ?_, ?_, takes_of rfl ?_⟩, ⟨?_, ?_, ?_⟩, ?_, ⟨⟨by decide, ⟨[], by decide +kernel⟩, by decide +kernel, rfl, by decide⟩, by decide +kernel, by decide +kernel⟩, by decide +kernel⟩
  all_goals first
    | decide +kernel
    | (unfold Claims.landing; decide +kernel)
    | exact ⟨⟨by decide, ⟨[], by decide +kernel⟩, by decide +kernel, rfl, by decide⟩, by decide +kernel, rfl, rfl, rfl, rfl, by unfold Claims.landing; decide +kernel⟩

/-- A decompression whose first block stands in stacked memory: its header and data. -/
def zst (head data : List Byte) : State :=
  let s := base.setCluster 0 { utlb := [⟨0x1000, 0x400000, 12, base.hbase, true, true, true, true, true⟩]
                               copy := [{ cmd [5 + 2 ^ 23, 0x400020, 0x13, 5, 0x400000] with started := true, stack := some 0, next := 0x400020 }] }
  { s with parts := [(0, { clusters := [0], root := 0x1000, ranges := [(base.hbase, 0x10000)] })]
           mem := Memory.setBytes (Memory.setBytes [] (base.hbase + 32) head) (base.hbase + 64) data }

def zhead (raw coded crc codec : Nat) : List Byte :=
  leBytes 4 0x4B4C4243 ++ leBytes 4 codec ++ leBytes 4 raw ++ leBytes 4 coded ++ leBytes 4 crc ++ leBytes 12 0

/-- Headers whole and not, checksums right and wrong; completions that post and that do not. -/
theorem witness_copyEngineWork_decompression :
    let c := ((zst [] []).cluster 0).copy.headD (cmd [])
    let seen (head data : List Byte) : Nat × List Byte × Bool :=
      let s := zst head data
      let q := (s.nextBlock c.stack).2.engStack c c.next.toNat
      let must := s.earlierCmds 0 c
      let r := q.2.engRead (.domain (c.stack.getD 0)) c.core c.root .now c.next.toNat 0 32 must
      let v := r.2.2.strays c ((c.next.toNat + 32) % 2 ^ 64) 4
      let b := v.2.engRead (.domain (c.stack.getD 0)) c.core c.root .now ((c.next.toNat + 32) % 2 ^ 64) 0 4 must
      (Claims.number (r.1.map (·.1)), b.1.map (·.1), q.1 == c.stack && q.1.isSome && s.myTurn c && r.2.1.isNone && !v.1 && b.2.1.isNone)
    let data : List Byte := [1, 2, 3, 4]
    (Claims.heads (zst [] []) 0 c ∧ Claims.opOf c = 5 ∧ c.started = true ∧ c.land = [] ∧ c.block + 1 < Claims.wordOf c 3 % 2 ^ 16 ∧ c.bad = 0 ∧ c.status = 0 ∧
      Claims.landing c ∧ c.next.toNat % 32 = 0 ∧ ({ c with started := false } : CopyCmd).started = false ∧ ((zst [] []).unpacking (some 0)).length < 16) ∧
    (let d := { cmd [5, 0x400020, bnk + 16320, 5, 0x400000] with started := true, stack := some 0, next := 0x400020 };
      ¬ Claims.landing d ∧ ((zst [] []).blockFits d 128).isSome = true) ∧
    ((zst [] []).strays c 0x100000000 4).1 = false ∧ ((zst [] []).strays { c with stack := some 1 } 0x400040 4).1 = true ∧
    (Claims.headFine (Claims.number (zhead 4 4 9 0)) ∧ ¬ Claims.headFine (Claims.number (zhead 4 5 9 0)) ∧ Claims.headFine (Claims.number (zhead 4096 6144 9 1)) ∧
      ¬ Claims.headFine (Claims.number (zhead 4097 1 9 1))) ∧
    (seen (zhead 4 4 9 0) data = (Claims.number (zhead 4 4 9 0), data, true) ∧ seen (zhead 4 5 9 0) data = (Claims.number (zhead 4 5 9 0), data, true) ∧
      (crc32c data).toNat ≠ 9 ∧ Claims.number (zhead 4 4 9 0) / 2 ^ 128 % 2 ^ 32 = 9 ∧
      Claims.number (zhead 4 4 (crc32c data).toNat 0) / 2 ^ 128 % 2 ^ 32 = (crc32c data).toNat) ∧
    (let d (x : Nat) := { cmd [1 + x, bnk, bnk, 20] with finished := true, outDone := true };
      ((est (d 0)).cluster 0).copy = d 0 :: [] ∧ (d 0).slot = none ∧ (d 0).dir = none ∧ (d 0).pin = none ∧ (d 0).cover = [] ∧ (d 0).status = 0 ∧
      Claims.wordOf (d 0) 0 / 2 ^ 18 % 2 = 0 ∧ Claims.wordOf (d (2 ^ 18)) 0 / 2 ^ 18 % 2 = 1 ∧ (est (d 0)).transit = [] ∧ Claims.inboxTakes (est (d 0)) 5) := by
  refine ⟨⟨⟨by decide, ⟨[], by decide +kernel⟩, by decide +kernel, by decide +kernel, by decide +kernel⟩, ?_⟩, ⟨?_, ?_⟩, ?_, ?_, ?_, ?_, ?_⟩
  · unfold Claims.landing; decide +kernel
  · unfold Claims.landing; decide +kernel
  · decide +kernel
  · decide +kernel
  · decide +kernel
  · unfold Claims.headFine; decide +kernel
  · decide +kernel
  · unfold Claims.inboxTakes; decide +kernel

/-- Memory from addresses, lengths and values. -/
def mb (l : List (Nat × Nat × Nat)) : KMap Byte := l.foldl (fun m p => Memory.setBytes m p.1 (leBytes p.2.1 p.2.2)) []

/-- Director core 0 with registers and memory. -/
def dst0 (l : List (Nat × Nat)) (m : KMap Byte := []) (user : Bool := false) : State := { dbase user l with mem := m }

/-- A handle, and the header of an object: shape, flags, generation, counts, class and overflow block. -/
def hdl (a g : Nat) : Nat := a + 2 ^ 57 * g
def obj (a shape gen flags refs hold ovf : Nat) : List (Nat × Nat × Nat) :=
  [(a, 4, shape), (a + 4, 2, flags), (a + 6, 2, gen), (a + 8, 4, refs), (a + 12, 4, hold), (a + 24, 8, ovf)]

theorem dirLoads_of {s : State} {d a len : Nat} (p : Nat → State → Bool)
    (h : (match (dirLoad d a len s).1 with | .ok bs => p (Claims.number bs) (dirLoad d a len s).2 | .error _ => false) = true) :
    ∃ v t, Claims.dirLoads s d a len v t ∧ p v t = true := by
  generalize hm : dirLoad d a len s = m at h
  obtain ⟨r, t⟩ := m
  cases r with
  | error e => simp at h
  | ok bs => exact ⟨_, t, ⟨bs, hm, rfl⟩, h⟩

/-- Objects: 0x20000 of generation 5 with an overflow block of capacity 2 at 0x20100; 0x20200 without one. -/
def objs : State :=
  dst0 [(5, hdl 0x20000 5), (6, 77), (7, 2), (8, 0x30000), (9, 0x30004), (10, 8), (11, hdl 0x20000 6), (12, 2 ^ 56 + 0x20000), (13, 2 ^ 55 + 8), (14, 10)]
    (mb (obj 0x20000 77 5 0 1 0 (hdl 0x20100 3) ++ obj 0x20100 1 3 4 1 0 2 ++ [(0x20110, 8, 5), (0x20030, 8, 0xABC), (0x20128, 8, 0xDEF)] ++
      obj 0x20200 1 1 0 1 0 2 ++ [(0x30000 + 8 * 0x44, 8, 0x5001), (0x40000, 4, 0x11223344)]))

/-- A dispatch aligned and not; slots direct, in the overflow block, and past it; handles good, malformed and of another
generation; shapes that match and do not; a place that cannot be read; values of every class. -/
theorem witness_directorObjects :
    let c := objs.dir 0
    let loads (a len v : Nat) : Prop := ∃ x t, Claims.dirLoads objs 0 a len x t ∧ (x == v && t == objs) = true
    let k := objs.setDir 0 { c with satp := 10 <<< 60 }
    FreeDir objs 0 ∧ ((c.getX 7).toNat % 4 ≠ 0 ∧ (c.getX 9).toNat % 8 ≠ 0 ∧ (c.getX 8).toNat % 8 = 0) ∧ loads 0x40000 4 0x11223344 ∧ loads (0x30000 + 8 * 0x44) 8 0x5001 ∧
    (¬ Claims.handle (c.getX 12) ∧ ¬ Claims.handle (c.getX 10) ∧ Claims.handle (c.getX 5) ∧ Claims.place (c.getX 5) = 0x20000 ∧ Claims.handleGeneration (c.getX 5) = 5 ∧
      Claims.handleGeneration (c.getX 11) = 6) ∧
    loads 0x20000 8 (77 + 2 ^ 48 * 5) ∧ (∃ x t, Claims.dirLoads objs 0 0x20000 32 x t ∧ (x / 2 ^ 48 % 128 == 5 && x % 2 ^ 32 == 77) = true) ∧
    loads (0x20000 + 32 + 16) 8 0xABC ∧ loads 0x20018 8 (hdl 0x20100 3) ∧ loads 0x20218 8 2 ∧ Claims.handle (BitVec.ofNat 64 (hdl 0x20100 3)) ∧
    loads 0x20100 8 (1 + 2 ^ 34 + 2 ^ 48 * 3) ∧ loads 0x20110 8 5 ∧ loads (0x20100 + 32 + 8) 8 0xDEF ∧ (10 - 8 ≥ 5 / 2 ∧ 9 - 8 < 5 / 2) ∧
    (∃ u t, dirWrite 0 (0x20000 + 32 + 56) (Claims.bytes 8 1) objs = (.ok u, t) ∧ true = true) ∧
    (∃ e t, dirLoad 0 0x20000 32 k = (.error e, t) ∧ (match e with | .exc 13 _ => true | _ => false) = true) ∧
    (Claims.valueClass 1 0 ∧ Claims.valueClass 2 2 ∧ Claims.valueClass 6 3 ∧ Claims.valueClass 10 4 ∧ Claims.valueClass (2 ^ 37 + 14) 5 ∧ Claims.valueClass 0xFE 6 ∧
      Claims.valueClass (c.getX 5) 1 ∧ Claims.valueClass 0 7) := by
  refine ⟨by unfold FreeDir; decide +kernel, ?_, dirLoads_of _ ?_, dirLoads_of _ ?_, ?_, dirLoads_of _ ?_, dirLoads_of _ ?_, dirLoads_of _ ?_, dirLoads_of _ ?_,
    dirLoads_of _ ?_, ?_, dirLoads_of _ ?_, dirLoads_of _ ?_, dirLoads_of _ ?_, ?_, ok_of (fun _ => true) ?_, error_of _ ?_, ?_⟩
  all_goals first | decide +kernel | (unfold Claims.handle; decide +kernel) | (unfold Claims.valueClass Claims.handle; decide +kernel)

/-- An entry of a cache. -/
def ice : IcEntry := ⟨17, 0x201, 9, 0x55⟩

/-- Director core 0 with a cache set and a pending fill. -/
def cst0 (ways : List (Option IcEntry)) (permit : Bool) : State :=
  let s := dst0 [(5, 2 ^ 32 * 3 + 0x201), (6, 0x99), (7, 0xFE), (8, 0)]
  s.setDir 0 { s.dir 0 with ic := [(Claims.icSetOf 17 0x201, { ways := ways, ctr := 3 })], permit := permit, fillSite := 17, fillShape := 0x201 }

/-- A key present and absent, a fill permitted and not, a free way and none, a reserved result. -/
theorem witness_cachesAndCounts_caches :
    let w (s : State) : List (Option IcEntry) := (KMap.get {} (s.dir 0).ic (Claims.icSetOf 17 0x201)).ways
    let hit := cst0 [none, some ice, none, none] true
    let full := cst0 [some { ice with site := 1 }, some { ice with site := 2 }, some { ice with site := 3 }, some { ice with site := 4 }] true
    FreeDir hit 0 ∧ (some ice ∈ w hit ∧ ice.site = 17 ∧ ice.shape = ((hit.dir 0).getX 5).extractLsb' 0 32) ∧ (w hit).count (some ice) = 1 ∧ (w hit).length = 4 ∧
    (∀ f ∈ (w full).filterMap id, ¬ (f.site = 17 ∧ f.shape = 0x201)) ∧ none ∉ w full ∧
    ((hit.dir 0).permit = true ∧ (hit.dir 0).fillSite = 17 ∧ (hit.dir 0).fillShape = ((hit.dir 0).getX 5).extractLsb' 0 32 ∧ (hit.dir 0).getX 6 ≠ 0xFE ∧
      (hit.dir 0).getX 7 = 0xFE) ∧
    ((w hit)[1]? = some (some ice) ∧ (w hit)[0]? = some none ∧ ((cst0 [] false).dir 0).permit = false) ∧ (∀ e, e < Config.directors → KMap.wf {} (hit.dir e).ic = true) := by
  unfold FreeDir; decide +kernel

/-- A count that goes up, saturated, of a dead object, the last one of an object with storages; a malformed handle. -/
theorem witness_cachesAndCounts_counts :
    let s (refs hold fl : Nat) : State := dst0 [(5, hdl 0x20000 5), (6, 1), (7, 2 ^ 56 + 0x20000), (8, hdl 0x20000 6)] (mb (obj 0x20000 77 5 fl refs hold 2))
    let c := (s 1 0 0).dir 0
    let reads (refs hold fl : Nat) : Prop := ∃ ps t, dirPlaces 0 .write 0x20000 16 (s refs hold fl) = (.ok ps, t) ∧
      (match (dirLoad 0 0x20000 16 t).1 with
        | .ok bs => let h := Claims.number bs; h / 2 ^ 48 % 128 == 5 && h / 2 ^ 64 % 2 ^ 32 == refs && h / 2 ^ 96 % 2 ^ 32 == hold && h / 2 ^ 36 % 2 == 0
        | .error _ => false) = true
    (FreeDir (s 1 0 0) 0 ∧ Claims.fld (c.getX 6) 0 2 ≠ 0 ∧ Claims.fld (c.getX 7) 0 2 = 0 ∧ ¬ Claims.handle (c.getX 7) ∧ Claims.handle (c.getX 5) ∧ Claims.handle (c.getX 8) ∧
      Claims.handleGeneration (c.getX 5) = 5 ∧ Claims.handleGeneration (c.getX 8) = 6 ∧ Claims.place (c.getX 5) = 0x20000) ∧
    reads 0 0 0 ∧ reads 1 0 0 ∧ reads 5 3 0 ∧ reads (2 ^ 32 - 1) 3 0 ∧ reads 1 4 2 ∧
    (∃ u t, dirWrite 0 0x20008 (Claims.bytes 8 2) (s 1 0 0) = (.ok u, t) ∧ true = true) ∧ (∃ u t, dirWrite 0 0x20004 [18] (s 1 4 2) = (.ok u, t) ∧ true = true) := by
  refine ⟨by unfold FreeDir Claims.handle; decide +kernel, ok2_of _ ?_, ok2_of _ ?_, ok2_of _ ?_, ok2_of _ ?_, ok2_of _ ?_, ok_of (fun _ => true) ?_, ok_of (fun _ => true) ?_⟩
  all_goals decide +kernel

/-- Descriptors bad and of a queue packet; tickets of every state; the null ticket. -/
theorem witness_cachesAndCounts_issue :
    let s (l : List Nat) : State := dst0 [(5, 0x20000), (6, 8), (7, 2), (8, 4), (9, (2 ^ 32 * 3 + 4) * 2 + 1), (10, 2 ^ 37 + 1), (11, (2 ^ 32 * 3 + 5) * 2 + 1)]
      (mb (l.mapIdx (fun k v => (0x20000 + 8 * k, 8, v)) ++ [(0x30000, 8, 0xAA)]))
    let reads (l : List Nat) : Prop := ∃ w t, ((List.range 8).mapM (fun k => do pure (Claims.number (← dirLoad 0 (0x20000 + 8 * k) 8))) : Ins (List Nat)) (s l) = (.ok w, t) ∧
      (w == l ++ List.replicate (8 - l.length) 0 && t.part.isNone && decide ((t.dir 0).flight.length < 256 ∧ (t.dir 0).tib.length < 64)) = true
    let g (l : List InFlight) : Dir := { (s []).dir 3 with flight := l, txseq := 5 }
    let c := (s []).dir 0
    FreeDir (s []) 0 ∧ ((c.getX 6).toNat % 64 ≠ 0 ∧ (c.getX 5).toNat % 64 = 0 ∧ (s []).part = none) ∧ reads [0] ∧ reads [3 + 2 ^ 8 * 5] ∧ reads [3, 0, 0, 0, 0, 0x30000, 255] ∧
    (∃ b u, ((List.range 2).mapM (fun k => do pure (BitVec.ofNat 64 (Claims.number (← dirLoad 0 ((0x30000 + 8 * k) % 2 ^ 64) 8)))) : Ins (List Word)) (s [3]) = (.ok b, u) ∧
      (b == [0xAA, 0]) = true) ∧
    (c.getX 7 = 2 ∧ (c.getX 8).toNat % 2 = 0 ∧ 2 ^ 37 ≤ (c.getX 10).toNat ∧ (c.getX 9).toNat = (3 * 2 ^ 32 + 4) * 2 + 1 ∧ (c.getX 11).toNat = (3 * 2 ^ 32 + 5) * 2 + 1 ∧ 3 < Config.directors) ∧
    ((BitVec.ofNat 32 5 - (g []).txseq).toNat < 2 ^ 31 ∧ 2 ^ 31 ≤ (BitVec.ofNat 32 4 - (g []).txseq).toNat ∧ (∀ f ∈ (g []).flight, f.seq ≠ 4)) ∧
    ((g [{ seq := 4, handles := [] }]).flight.find? (fun f => f.seq == 4)).map (·.failed) = some none ∧
    ((g [{ seq := 4, handles := [], failed := some 7 }]).flight.find? (fun f => f.seq == 4)).map (·.failed) = some (some 7) := by
  refine ⟨by unfold FreeDir; decide +kernel, ?_, ok2_of _ ?_, ok2_of _ ?_, ok2_of _ ?_, ok_of _ ?_, ?_⟩
  all_goals decide +kernel

/-- The last hold of an object marked held, with room in the ring and without, and one of two holds; the release of an object
that lies in memory and of one that lies in a cluster, which an allocation names and none does. -/
theorem witness_holdsAndServices_objects :
    let s (hold mark tail : Nat) : State := { State.reset.setDir 15 { State.reset.dir 15 with
        reports := [{ sender := 0x20004, seq := 4, status := 0, payload := 7 }], flight := [{ seq := 4, handles := [BitVec.ofNat 64 (hdl 0x20000 5)] }]
        hrbase := 0x40000, hrtail := BitVec.ofNat 16 tail, hrsize := 4 } with mem := mb (obj 0x20000 77 5 (16 * mark) 1 hold 2) }
    let v : Word := BitVec.ofNat 64 (hdl 0x20000 5)
    let rel (w2 w3 : Nat) : State :=
      let s := dst0 [(17, 0x120), (10, hdl 0x20000 5)] (mb (obj 0x20000 77 5 2 0 0 2 ++ [(0x20030, 8, w2), (0x20038, 8, w3)]))
      { s.setDir 0 { s.dir 0 with trapped := true, scause := 8 } with cores := base.cores }
    let on (s : State) : Nat × Bool := (((s.slotWord 0 (s.dir 0).root v 2).1.getD 0).toNat, (s.named 0 ((s.slotWord 0 (s.dir 0).root v 3).1.getD 0)).isSome)
    let live : Nat := (Claims.handleOf 1 0 (al 0 512 3)).toNat
    (Claims.handle v ∧ (s 1 1 3).log = [] ∧ ((s 1 1 3).dir 15).appends = [] ∧ 0x20000 / 32 ≠ 0x40000 / 32 ∧ 0x40018 % 8 = 0) ∧
    (∀ k ∈ [1, 2], ((s k 1 3).header 15 none v).1.map (fun p => (p.1, p.2 / 2 ^ 96 % 2 ^ 32, p.2 / 2 ^ 36 % 2)) = some (0x20000, k, 1)) ∧
    ((((s 1 1 15).dir 15).hrtail.toNat + 1) % 16 = ((s 1 1 15).dir 15).hrhead.toNat ∧ (((s 1 1 3).dir 15).hrtail.toNat + 1) % 16 ≠ ((s 1 1 3).dir 15).hrhead.toNat) ∧
    (((rel 0 0).header 0 ((rel 0 0).dir 0).root v).1.map fun p => (p.2 / 2 ^ 48 % 128, p.2 / 2 ^ 33 % 2, p.2 / 2 ^ 64 % 2 ^ 64)) = some (5, 1, 0) ∧
    (on (rel 0 0) = (0, false) ∧ on (rel 1024 live) = (1024, true) ∧ on (rel 1024 9) = (1024, false) ∧ 1024 % 2 ^ 10 < Config.clusters) := by
  unfold Claims.handle
  decide +kernel

/-- Reports that free and that fail; ecalls of a trapped thread; a ring with entries that wraps and one without; the handler of
its interrupt just entered. -/
theorem witness_holdsAndServices :
    let rp (st : Nat) : Report := { sender := 0x20004, seq := 4, status := st, payload := 7 }
    let s (st : Nat) : State := State.reset.setDir 15 { State.reset.dir 15 with reports := [rp st], flight := [{ seq := 4, handles := [] }] }
    let tr (a7 a0 : Nat) (m : KMap Byte) : State := let s := dst0 [(17, a7), (10, a0)] m; s.setDir 0 { s.dir 0 with trapped := true, scause := 8 }
    let ring (h t : Nat) : Dir := { (dbase true).dir 0 with hrbase := 0x40000, hrhead := BitVec.ofNat 16 h, hrtail := BitVec.ofNat 16 t, hrsize := 4 }
    (15 < Config.directors ∧ ((s 0).dir 15).reports = rp 0 :: [] ∧ (rp 0).status = 0 ∧ (rp 3).status ≠ 0 ∧
      ((s 3).dir 15).flight.find? (fun e => e.seq == (rp 3).seq) = some { seq := 4, handles := [] } ∧ (s 3).transit = [] ∧ Claims.inboxTakes (s 3) (dirId 15)) ∧
    (let c := (tr 0x121 0x3000 []).dir 0; c.trapped = true ∧ c.run = .active ∧ c.scause = 8 ∧ (c.getX 17).toNat = 0x121 ∧ (c.getX 10).toNat % 4 = 0) ∧
    (((tr 0x120 1 []).dir 0).getX 17 = 0x120 ∧ ¬ Claims.handle (((tr 0x120 1 []).dir 0).getX 10) ∧ Claims.handle (((tr 0x120 (hdl 0x20000 5) []).dir 0).getX 10)) ∧
    (∀ f, f < 2 → let u := tr 0x120 (hdl 0x20000 5) (mb (obj 0x20000 77 5 (2 * f) 0 0 2))
      ((u.header 0 (u.dir 0).root ((u.dir 0).getX 10)).1.map fun p => (p.2 / 2 ^ 48 % 128, p.2 / 2 ^ 33 % 2, p.2 / 2 ^ 64 % 2 ^ 64)) = some (5, f, 0)) ∧
    ((ring 3 3).hrhead = (ring 3 3).hrtail ∧ (ring 15 2).hrhead ≠ (ring 15 2).hrtail ∧ (ring 15 2).user = true ∧ (ring 15 2).hrhead.toNat < 2 ^ (ring 15 2).hrsize.toNat ∧
      (ring 15 2).appends = []) ∧
    ((dbase false).dir 0).user = false ∧ ((dbase false).dir 0).sieBit = false ∧ ((dbase true).dir 0).user = true ∧
    (let c := { (dbase false).dir 0 with stvec := 0x9001, scause := BitVec.ofNat 64 (2 ^ 63 + 16), pc := 0x9040 }; c.user = false ∧ c.scause.toNat = 2 ^ 63 + 16 ∧
      c.pc = (c.stvec &&& ~~~3#64) + (if c.stvec.getLsbD 0 then 64 else 0)) := by
  unfold Claims.inboxTakes Claims.handle
  decide +kernel


/-- Bodies that load and one that cannot be read; a storage that is no handle. -/
theorem witness_cachesAndCounts_bodies :
    let s : State := dst0 [(5, 0x20000)] (mb [(0x20000, 8, 3 + 2 ^ 8), (0x20008, 8, 2), (0x20028, 8, 0x30000), (0x20030, 8, 255), (0x30000, 8, 0xAA)])
    let k := s.setDir 0 { s.dir 0 with satp := 10 <<< 60 }
    (∃ w t, ((List.range 8).mapM (fun k => do pure (Claims.number (← dirLoad 0 (0x20000 + 8 * k) 8))) : Ins (List Nat)) s = (.ok w, t) ∧
      (w == [3 + 2 ^ 8, 2, 0, 0, 0, 0x30000, 255, 0] && t.part.isNone && decide ((t.dir 0).flight.length < 256 ∧ (t.dir 0).tib.length < 64)) = true) ∧
    (∃ b t, loadBodyWords 0 1 0x30000 s = (.ok b, t) ∧ true = true) ∧ (∃ b t, loadBodyWords 0 2 0x30000 s = (.ok b, t) ∧ true = true) ∧
    (∃ b t, loadBodyWords 0 3 0x30000 s = (.ok b, t) ∧ t.part.isNone = true) ∧ (∃ e t, loadBodyWords 0 3 0x30000 k = (.error e, t) ∧ (match e with | .exc 13 _ => true | _ => false) = true) ∧
    ¬ Claims.handle (BitVec.ofNat 64 2) := by
  refine ⟨ok2_of _ ?_, ok_of (fun _ => true) ?_, ok_of (fun _ => true) ?_, ok2_of (fun _ t => t.part.isNone) ?_, error_of _ ?_, by unfold Claims.handle; decide⟩
  all_goals decide +kernel

/-- Director core 0 with its floating-point unit on, floating-point registers, and doublewords at 0x20000. -/
def fst0 (on : Bool := true) (frm : Nat := 1) (user : Bool := false) : State :=
  let s := dst0 [(5, 0x20000), (6, 0xF0F0F0F0F0F0F0F0), (2, 0x20010), (8, 0x20000), (7, 0x20002)]
    (mb [(0x20000, 8, 0x8123456789ABCDEF), (0x20008, 8, 0xFEDCBA9876543210), (0x20018, 8, 5)]) user
  s.setDir 0 { s.dir 0 with
    sstatus := if on then 0x2000 else 0
    frm := BitVec.ofNat 3 frm
    f := [(1, 0x3FF8000000000000), (2, 0xFFFFFFFF40000000), (3, 0x7FF8000000000000)] }

/-- The unit off and on; modes that round and not; numbers and a NaN, and an unboxed single; aligned and misaligned places;
a reservation that matches and none; both modes. -/
theorem witness_directorRv64gc :
    let s := fst0
    let c := s.dir 0
    let loads (a z : Nat) : Prop := ∃ v t, Claims.dirLoads s 0 a z v t ∧ true = true
    let writes (a : Nat) (bs : List Byte) (u : State) : Prop := ∃ x t, dirWrite 0 a bs u = (.ok x, t) ∧ true = true
    let held (z : Nat) : State := s.setDir 0 { c with resv := some (0x20000, z) }
    (FreeDir s 0 ∧ FreeDir (fst0 false) 0 ∧ FreeDir (fst0 true 1 true) 0 ∧ c.fpOn = true ∧ ((fst0 false).dir 0).fpOn = false ∧ c.user = false ∧
      ((fst0 true 1 true).dir 0).user = true) ∧
    (5 ≤ ((fst0 true 5).dir 0).frm.toNat ∧ (∀ rm : BitVec 3, rm ≠ 5 → rm ≠ 6 → ∃ o, Claims.rounds c rm o)) ∧
    (fp64.isNan (Claims.fReg c true 1) = false ∧ fp64.isNan (Claims.fReg c true 3) = true ∧ fp32.isNan (Claims.fReg c false 2) = false ∧
      fp32.isNan (Claims.fReg c false 1) = true) ∧
    (Claims.addr (c.getX 5) 8 % 8 = 0 ∧ Claims.addr (c.getX 5) 2 % 4 ≠ 0 ∧ (c.getX 5).toNat % 8 = 0 ∧ (c.getX 7).toNat % 4 ≠ 0) ∧
    (loads 0x20008 8 ∧ loads 0x20008 4 ∧ loads 0x20000 8 ∧ loads 0x20018 8) ∧
    (writes 0x20008 (Claims.bytes 4 7) s ∧ writes 0x20018 (Claims.bytes 8 7) s ∧ writes 0x20000 (Claims.bytes 8 7) s) ∧
    (∀ z, z = 4 ∨ z = 8 → (∃ ps t, dirPlaces 0 .read 0x20000 z s = (.ok ps, t) ∧ (ps.map (fun p => 32 * locGran p.loc + p.off) == [0x20000] && t == s) = true) ∧
      (∃ ps t, dirPlaces 0 .write 0x20000 z (held z) = (.ok ps, t) ∧ (ps.map (fun p => 32 * locGran p.loc + p.off) == [0x20000] && t == held z) = true) ∧
      ((held z).dir 0).resv = some (0x20000, z) ∧ c.resv = none) := by
  refine ⟨by unfold FreeDir; decide +kernel, ⟨by decide +kernel, ?_⟩, by decide +kernel, by decide +kernel, ⟨dirLoads_of (fun _ _ => true) ?_, dirLoads_of (fun _ _ => true) ?_,
    dirLoads_of (fun _ _ => true) ?_, dirLoads_of (fun _ _ => true) ?_⟩, ⟨ok_of (fun _ => true) ?_, ok_of (fun _ => true) ?_, ok_of (fun _ => true) ?_⟩, ?_⟩
  · have hm : ∀ rm : BitVec 3, rm ≠ 5 → rm ≠ 6 → (Claims.mode (if rm = 7 then ((fst0).dir 0).frm.toNat else rm.toNat)).isSome = true := by decide +kernel
    intro rm h5 h6
    obtain ⟨m, hm⟩ := Option.isSome_iff_exists.mp (hm rm h5 h6)
    exact ⟨_, m, hm, rfl⟩
  all_goals try decide +kernel
  rintro z (rfl | rfl)
  all_goals exact ⟨ok2_of _ (by decide +kernel), ok2_of _ (by decide +kernel), by decide +kernel, by decide +kernel⟩

/-- Plays 1 and 2 of a slice with queues of acts, and harts that wait in the house loop. -/
def crc (id : Nat) (lat : Bool) (play act : Nat) : CueRec :=
  ⟨BitVec.ofNat 512 (id * 2 ^ 256 + 2 ^ 128 * play + 2 ^ 144 * act + if lat then 2 ^ 174 else 0), id⟩
def cact (l : Bool) (d : Nat) (down : List Nat := []) : Act := { entry := 0x1000, latency := l, depth := d, down := down }
def cast0 (acts : KMap ActQ) (idle : List Nat) (rr : Option Nat := none) (cyc : Nat := 100) : State :=
  let p (l : List Act) : Play := { part := 0, acts := l, clusters := [0, 1, 14, 15] }
  let s : State := { State.reset with
    plays := [(1, p [cact false 4 [1], cact true 4, cact false 2]), (2, p [cact true 4, cact false 4])]
    cycle := BitVec.ofNat 64 cyc }
  let s := idle.foldl (fun s n => s.setHart n { waiting := true }) s
  s.setSlice 0 { s.slice 0 with acts := acts, rr := rr }
def cq (l : List CueRec) (b : List CueRec := []) : ActQ := { queue := l, back := b }

/-- Only an act with a queue is cast, and only its head record. -/
theorem cast_key {s : State} {k key : Nat} {c : CueRec} {n : Nat} (h : Claims.castsTo s k key c n) :
    ∃ q, (key, q) ∈ (s.slice k).acts ∧ (q.back.head? = some c ∨ (q.back = [] ∧ q.queue.head? = some c)) := by
  obtain ⟨q, p, hq, -, -, -, hc, -⟩ := h
  exact ⟨q, hq, hc⟩

/-- One hart idle, so every cast goes to it. -/
theorem castsTo_of {s : State} {k key : Nat} {c : CueRec} {n : Nat} (hi : ∀ m, s.idle m = true → m = n)
    (h : ∃ e ∈ (s.slice k).acts, ∃ f ∈ s.plays.find? (fun e => e.1 == key / 16), e.1 = key ∧ f.1 = key / 16 ∧ f.2.ended = false ∧ f.2.error = none ∧
      (e.2.back.head? = some c ∨ (e.2.back = [] ∧ e.2.queue.head? = some c)) ∧ Claims.vfld c.rcd 175 1 ≠ 1 ∧ s.idle n = true ∧ n / 1024 = k ∧ n / 64 ∈ f.2.clusters ∧
      (Claims.reservedFor s k n → (s.slice k).borrow = true)) : Claims.castsTo s k key c n := by
  obtain ⟨⟨x, q⟩, hq, ⟨y, p⟩, hp, rfl, rfl, he, hr, hc, hv, hn, hk, hm, hb⟩ := h
  refine ⟨q, p, hq, hp, he, hr, hc, ?_⟩
  rw [if_neg hv]
  have ht : Claims.canTake s k p n := ⟨hn, hk, hm⟩
  by_cases hx : Claims.reservedFor s k n <;> split
  · exact .inl ⟨⟨ht, hx⟩, fun m hm => (hi m hm.1.1) ▸ Nat.le_refl _⟩
  · exact .inr ⟨fun m hm => (hi m hm.1) ▸ hx, hb hx, ht, fun m hm => (hi m hm.1) ▸ Nat.le_refl _⟩
  · exact .inr ⟨fun m hm => (hi m hm.1) ▸ hx, ht, fun m hm => (hi m hm.1) ▸ Nat.le_refl _⟩
  · exact .inl ⟨⟨ht, hx⟩, fun m hm => (hi m hm.1.1) ▸ Nat.le_refl _⟩

theorem act_iff (s : State) (key : Nat) (P : Play → Act → Prop) :
    (∃ p a, s.plays.find? (fun e => e.1 == key / 16) = some (key / 16, p) ∧ p.acts[key % 16]? = some a ∧ P p a) ↔
      ∃ e ∈ s.plays.find? (fun e => e.1 == key / 16), ∃ a ∈ e.2.acts[key % 16]?, P e.2 a := by
  constructor
  · rintro ⟨p, a, hp, ha, h⟩
    exact ⟨_, hp, a, ha, h⟩
  · rintro ⟨⟨x, p⟩, hp, a, ha, h⟩
    obtain rfl : x = key / 16 := by simpa using List.find?_some hp
    exact ⟨p, a, hp, ha, h⟩

/-- A state with hart 3 alone waiting. -/
theorem idle_alone {s : State} {n : Nat} (h : s.harts = [(n, { waiting := true })]) (m : Nat) (hi : s.idle m = true) : m = n := by
  by_cases hm : m = n
  · exact hm
  · have : s.hart m = {} := by simp [State.hart, h, KMap.get, hm]
    simp [State.idle, this] at hi

/-- No act to cast; a bulk act that waited; latency acts first, next and last round the list; a bulk act with the most
records and room below it, beside one with less. -/
theorem witness_castingUnit_dispatch :
    let aged := cast0 [(16, cq [crc 7 false 1 0]), (18, cq [crc 9 false 1 2])] [3] none 70000
    let lat (rr : Option Nat) := cast0 [(17, cq [crc 8 true 1 1])] [3] rr 100
    let bulk := cast0 [(16, cq [crc 7 false 1 0, crc 7 false 1 0, crc 7 false 1 0]), (18, cq [crc 9 false 1 2] [crc 10 false 1 2])] [3] none 100
    (∀ s ∈ [cast0 [] [], aged, lat none, bulk], KMap.wf {} (s.slice 0).acts = true ∧ KMap.wf {} s.harts = true) ∧
    (∀ key c n, ¬ Claims.castsTo (cast0 [] []) 0 key c n) ∧
    (Claims.castsTo aged 0 16 (crc 7 false 1 0) 3 ∧ Claims.agedAct aged 0 16 7 ∧ ∀ key c n t, Claims.castsTo aged 0 key c n → Claims.agedAct aged 0 key t →
      7 < t ∨ (7 = t ∧ 16 ≤ key)) ∧
    (∀ rr, rr = none ∨ rr = some 16 ∨ rr = some 17 ∨ rr = some 32 → Claims.castsTo (lat rr) 0 17 (crc 8 true 1 1) 3 ∧ Claims.latencyAct (lat rr) 17 ∧
      ∀ key c n, Claims.castsTo (lat rr) 0 key c n → key = 17 ∧ ∀ t, ¬ Claims.agedAct (lat rr) 0 key t) ∧
    (Claims.castsTo bulk 0 16 (crc 7 false 1 0) 3 ∧ ¬ Claims.fullBelow bulk 0 16 ∧ ∀ key c n, Claims.castsTo bulk 0 key c n →
      ¬ Claims.latencyAct bulk key ∧ (∀ t, ¬ Claims.agedAct bulk 0 key t) ∧ (Claims.held bulk 0 key < Claims.held bulk 0 16 ∨ 16 = key)) := by
  have key {s : State} (ks : List Nat) (h : (s.slice 0).acts.map (·.1) = ks) : ∀ key c n, Claims.castsTo s 0 key c n → key ∈ ks := by
    intro key c n hc
    obtain ⟨q, hq, -⟩ := cast_key hc
    exact h ▸ List.mem_map_of_mem (f := (·.1)) hq
  have young {s : State} (h : s.cycle = 100) (k t : Nat) : ¬ Claims.agedAct s 0 k t := by
    rintro ⟨-, -, ht⟩
    rw [h] at ht
    exact absurd ht (by simp; omega)
  intro aged lat bulk
  refine ⟨by decide +kernel, fun k c n h => by simpa using key [] rfl k c n h, ⟨castsTo_of (idle_alone rfl) ?_, ⟨?_, ?_⟩, ?_⟩, ?_, castsTo_of (idle_alone rfl) ?_, ?_, ?_⟩
  · unfold Claims.reservedFor; decide +kernel
  · rw [Claims.latencyAct, act_iff]; decide +kernel
  · exact ⟨⟨cq [crc 7 false 1 0], by decide +kernel, .inr (by decide +kernel)⟩, by decide +kernel⟩
  · rintro k c n t - ⟨-, ⟨q, hq, hw⟩, -⟩
    have hq' : (k, q) ∈ [(16, cq [crc 7 false 1 0]), (18, cq [crc 9 false 1 2])] := hq
    simp only [List.mem_cons, Prod.mk.injEq, List.not_mem_nil, or_false] at hq'
    obtain ⟨rfl, rfl⟩ | ⟨rfl, rfl⟩ := hq' <;> obtain hw | ⟨-, ⟨c, hc, rfl⟩, -⟩ := hw
    · cases hw
    · obtain rfl : c = crc 7 false 1 0 := by simpa [cq] using hc
      exact .inr ⟨rfl, Nat.le_refl _⟩
    · cases hw
    · obtain rfl : c = crc 9 false 1 2 := by simpa [cq] using hc
      exact .inl (by decide)
  · rintro rr (rfl | rfl | rfl | rfl)
    all_goals refine ⟨castsTo_of (idle_alone rfl) (by unfold Claims.reservedFor; decide +kernel), by rw [Claims.latencyAct, act_iff]; decide +kernel, fun k c n h => ⟨?_, young rfl k⟩⟩
    all_goals simpa using key [17] rfl k c n h
  · unfold Claims.reservedFor; decide +kernel
  · rintro ⟨p, a, d, hp, ha, h⟩
    have := (act_iff _ _ (fun p a => ∃ d ∈ a.down, ((p.acts[d]?).map (·.depth)).getD 0 ≤ (KMap.get {} (bulk.slice 0).acts (16 / 16 * 16 + d)).queue.length)).mp ⟨p, a, hp, ha, d, h⟩
    revert this
    decide +kernel
  · intro k c n h
    have hk := key [16, 18] rfl k c n h
    refine ⟨?_, young rfl k, ?_⟩
    · rw [Claims.latencyAct, act_iff]; clear h; revert k; decide +kernel
    · clear h; revert k; decide +kernel

theorem idle_waiting {s : State} {n : Nat} (h : s.idle n = true) : (s.hart n).waiting = true := by
  simp only [State.idle, Bool.and_eq_true] at h
  exact h.1.1.1.1.2

/-- No hart waits where two run cues and the others are as they were at reset. -/
theorem two_idle (n : Nat) : ¬ ((State.reset.setHart 3 { house := false }).setHart 900 { house := false }).idle n = true := by
  have h : (((State.reset.setHart 3 { house := false }).setHart 900 { house := false }).hart n).waiting = false := by
    rw [State.setHart_hart, State.setHart_hart]
    split
    · rfl
    · split <;> rfl
  intro hi
  rw [idle_waiting hi] at h
  exact Bool.noConfusion h

/-- Control words that lower, keep and raise the reserved clusters; harts asked and not; a hart free to vacate and not; a
helper with nothing in flight. -/
theorem witness_castingUnit_control :
    let w (n : Nat) : BitVec 64 := BitVec.ofNat 64 n
    let s := (State.reset.setHart 3 { house := false }).setHart 900 { house := false }
    let t := s.setSlice 0 { s.slice 0 with borrow := false, rsv := 5 }
    let v (h : Hart) : State := { State.reset.setHart 5 { h with house := false, vacate := some 5 } with cycle := 65541 }
    let free (h : Hart) : Prop := h.run = .active ∧ h.depmask = 0 ∧ ∀ p ∈ h.pins, p.cue ≠ h.cueptr
    let x := v { helper := some (1, 0x40), role := .draining 1 0 8 [], resume := some (0x500, 3) }
    (Claims.fld (w 1) 0 5 ≤ 16 ∧ 16 < Claims.fld (w 31) 0 5 ∧ (w 1).extractLsb' 0 5 ≤ (s.slice 0).rsv ∧ (s.slice 0).rsv < (w 5).extractLsb' 0 5) ∧
    (∀ n, s.idle n = true → n / 1024 = 0 → ¬ Claims.reservedFor t 0 n) ∧ Claims.asked t 0 900 ∧ ¬ Claims.asked t 0 3 ∧
    (Claims.timedOut (v {}) 5 ∧ ((v {}).hart 5).house = false ∧ ((v {}).hart 5).helper = none ∧ free ((v {}).hart 5) ∧ ¬ free ((v { depmask := 1 }).hart 5)) ∧
    (Claims.timedOut x 5 ∧ (x.hart 5).helper = some (1, 0x40) ∧ (x.hart 5).pending = [] ∧ (x.hart 5).net = none ∧ (x.hart 5).streams = [] ∧ (x.hart 5).role = .draining 1 0 8 [] ∧ (x.hart 5).run = .active ∧ (x.hart 5).ring = [] ∧ ((v { run := .parked 3 1 }).hart 5).run ≠ .active ∧
      (x.cluster 0).copy = [] ∧ (x.cluster 0).jobs = [] ∧ (x.cluster 0).sess = none ∧ (x.slice 0).tasks = [] ∧ x.transit = [] ∧ Claims.inboxTakes x 1) := by
  refine ⟨by decide +kernel, ?_, by unfold Claims.asked Claims.reservedFor; decide +kernel, by unfold Claims.asked Claims.reservedFor; decide +kernel,
    ⟨⟨5, by decide +kernel⟩, by decide +kernel⟩, ⟨5, by decide +kernel⟩, ?_⟩
  · exact fun n hi => absurd hi (two_idle n)
  · unfold Claims.inboxTakes; decide +kernel

/-- A granule of a live allocation's tag, of another tag, under a forensic-retired entry and outside all; the first and the
last granule; entries retired and not; a parked hart that supervises itself; a hart that trapped twice. -/
theorem witness_sweepersAndHartActs :
    let s : State := State.reset.setCore 19 { alloc := [(0, al 0 2 3), (1, { al 128 1 9 with st := .retired })], gran := [(0, gr 3 true 1), (1, gr 4 true 1), (2, gr 3 true 2), (4, gr 5 true 2)] }
    let p := s.setHart 5 { fpsup := 5, run := .parked 3 1, vflags := 31 }
    let d : State := { s.setHart 5 { run := .halted, trapped := true } with doubleTraps := [5] }
    (1 < Config.clusters ∧ Claims.swept (Claims.table s 1 3) 0 (Claims.bankGran s 19 0) = gr 3 true 1 ∧ Claims.swept (Claims.table s 1 3) 1 (Claims.bankGran s 19 1) = {} ∧
      Claims.swept (Claims.table s 1 3) 2 (Claims.bankGran s 19 2) = {} ∧ Claims.swept (Claims.table s 1 3) 4 (Claims.bankGran s 19 4) = gr 5 true 2) ∧
    ((KMap.get {} (Claims.table s 1 3) 0).st ≠ .retired ∧ (KMap.get {} (Claims.table s 1 3) 1).st = .retired) ∧
    ((p.hart 5).fpsup.toNat = 5 ∧ (p.hart 5).run = .parked 3 1) ∧ 5 ∈ d.doubleTraps ∧ (d.hart 5).curPlay = 0 := by
  decide +kernel

/-- The first part of a pair, and some second part. -/
theorem fst_of {α : Type} {m : α × State} {a : α} (h : m.1 = a) : ∃ u, m = (a, u) := ⟨m.2, by rw [← h]⟩

/-- The scheduler's entries are not given. -/
theorem noEntry {s : State} {d : Nat} (h : s.symbols = none) : Claims.atNoEntry s d := fun y hy => by rw [h] at hy; cases hy

/-- A play-table entry: state, play, set, release scope, queue, position, completion signal, counts and number. -/
def en (st play set rel q pos comp decl acc live num : Nat) : PEntry :=
  { w0 := BitVec.ofNat 64 (st + 8 * play + 2 ^ 19 * set + 2 ^ 21 * rel + 2 ^ 24 * q + 2 ^ 32 * pos)
    w1 := 0x5000
    w2 := BitVec.ofNat 64 comp
    w3 := Claims.counts decl acc live
    w4 := BitVec.ofNat 64 num }

/-- Set 1 owned by director core 4, with a play table and memory, and its queues in partition 0. -/
def pt (l : List (Nat × PEntry)) (m : KMap Byte := []) (hold : Bool := false) : State :=
  let s : State := { State.reset with
    host := { State.reset.host with ready := true }
    ptab := l
    mem := m
    parts := [(0, { clusters := [0], root := 0x1000, ranges := [(0, 2 ^ 50)], queues := [70, 71] })]
    qtable := 0x900000 }
  s.setQset 1 { s.qset 1 with owner := 4, hold := hold }

/-- A page table at 0x1000 whose first entry maps the first 2 ^ 48 bytes to themselves for all accesses. -/
def ident : List (Nat × Nat × Nat) := [(0x1000, 8, 0xDF)]

/-- Seed stores in turn, out of turn, of another state and of another core; entries done and not, with a play and without. -/
theorem witness_playTable_seeds :
    let s (e : PEntry) : State := { pt [(3, e)] (mb [(0x5040, 64, 0x777)]) with plays := [(2, { part := 0, acts := [], clusters := [0] })] }
    let e := en 1 2 1 0 70 5 0 2 1 1 0
    let v (j h : Nat) : BitVec 64 := BitVec.ofNat 64 (j + 2 ^ 16 * h)
    let E := Claims.entryIs (s e) 3
    let done (p k : Nat) : Prop := let E := Claims.entryIs (s (en 1 p 1 0 70 5 0 k 1 0 0)) 3; Claims.eState E = 1 ∧ Claims.fld E.w3 16 16 = Claims.fld E.w3 0 16 ∧ Claims.fld E.w3 32 16 = 0
    (Claims.ownerOf (s e) (Claims.eSet E) = 4 ∧ Claims.eState E = 1 ∧ Claims.fld (v 1 77) 0 16 = Claims.fld E.w3 16 16 ∧ Claims.fld (v 0 77) 0 16 ≠ Claims.fld E.w3 16 16 ∧
      Claims.fld (v 1 77) 16 18 < Config.harts ∧ Config.harts ≤ Claims.fld (v 1 50000) 16 18 ∧ Claims.fld E.w3 16 16 < 65535 ∧ Claims.fld E.w3 32 16 < 65535 ∧ Claims.fld E.w3 48 16 = 0 ∧
      Claims.eState (Claims.entryIs (s (en 2 2 1 0 70 5 0 2 1 1 0)) 3) ≠ 1) ∧
    (∃ pa t, (s e).rootPlace ((s e).dir 4).root false .read ((E.w1.toNat + 64 * 1) % 2 ^ 64) = (some pa, t)) ∧
    (done 0 1 ∧ done 2 1 ∧ ¬ done 2 2 ∧ Claims.ePlay (en 1 0 1 0 70 5 0 1 1 0 0) = 0 ∧ Claims.ePlay (en 1 2 1 0 70 5 0 1 1 0 0) = 2 ∧
      ∃ p, (s e).plays.find? (fun q => q.1 == 2) = some (2, p)) := by
  refine ⟨by decide +kernel, ⟨0x5040, _, rfl⟩, ?_⟩
  refine ⟨by decide +kernel, by decide +kernel, by decide +kernel, by decide +kernel, by decide +kernel, _, rfl⟩

/-- Deliveries with a hold and without, first and behind another, with a signal and a ticket; a hold set and cleared; a
local interrupt taken and not; slots ready and not; two queues that wait for each other. -/
theorem witness_playTable_delivery :
    let two (st : Nat) (hold : Bool) : State := pt [(3, en st 2 1 0 70 5 0x40000008 1 1 0 7), (4, en 2 2 1 0 70 6 0 1 1 0 8)] (mb (ident)) hold
    let e (st : Nat) := Claims.entryIs (two st true)
    let i (u : Bool) : State := let s := two 4 false; (s.setQset 1 { s.qset 1 with jlbase := 0x800000, jtail := 0x1000, jlhead := 0xFFE }).setDir 4 { s.dir 4 with user := u }
    (¬ Claims.waitsFor (two 2 true) (e 2 3) [2] ∧ Claims.waitsFor (two 2 true) (e 2 4) [2] ∧ ¬ Claims.waitsFor (two 3 false) (e 3 3) [2, 3] ∧ Claims.waitsFor (two 3 false) (e 3 4) [2, 3] ∧
      Claims.eState (e 3 3) = 3 ∧ Claims.eState (e 2 4) = 2 ∧ ((two 3 true).qset (Claims.eSet (e 3 3))).hold = true ∧ (e 3 3).w2 ≠ 0 ∧ (e 3 4).w2 = 0) ∧
    (∃ x, (two 3 false).parts.find? (fun p => p.2.queues.contains (Claims.eQueue (e 3 3))) = some (0, x) ∧ ∃ pa u, (two 3 false).partPlace x 0x40000008 .write = (some pa, u)) ∧
    ((∀ x ∈ (two 3 false).dbg.runs, x.1 ≠ Claims.eQueue (e 3 3) * 2 ^ 32 + Claims.ePos (e 3 3)) ∧ 70 * 2 ^ 32 + 5 = Claims.eQueue (e 3 3) * 2 ^ 32 + Claims.ePos (e 3 3)) ∧
    ({ two 3 false with issued := [⟨70, 5, 3, 99⟩] }.issued = [⟨Claims.eQueue (e 3 3), Claims.ePos (e 3 3), 3, 99⟩] ∧ ((two 3 false).dir 4).user = false ∧ (0 : BitVec 64).getLsbD 63 = false ∧
      (∀ q ∈ (two 3 false).ptab, Claims.eSet q.2 = 1 → Claims.eState q.2 = 3 → q.1 = 3) ∧ Claims.eSet (e 3 3) = 1 ∧ (∀ q ∈ (two 2 false).ptab, Claims.eSet q.2 = 1 → Claims.eState q.2 ≠ 3)) ∧
    (((i true).dir (Claims.ownerOf (i true) 1)).run = .active ∧ ((i true).dir (Claims.ownerOf (i true) 1)).user = true ∧ ((i false).dir (Claims.ownerOf (i false) 1)).user = false ∧
      ((i false).dir (Claims.ownerOf (i false) 1)).sieBit = false ∧ (∀ q ∈ (i true).ptab, Claims.eSet q.2 = 1 → Claims.eState q.2 = 4 → q.1 = 3) ∧
      Claims.eState (Claims.entryIs (i true) 3) = 4 ∧ (let x := (i true).qset 1; (x.jtail - x.jlhead).toNat + 2 ≤ 2 ^ x.jsize.toNat ∧ x.jlbase.toNat % 32 = 0 ∧ 1 ≤ x.jsize.toNat) ∧
      ((i true).dir (Claims.ownerOf (i true) 1)).root = none) := by
  unfold Claims.waitsFor
  refine ⟨by decide +kernel, ⟨_, rfl, ?_⟩, by decide +kernel, by decide +kernel, by decide +kernel⟩
  exact ⟨0x40000008, fst_of (by decide +kernel)⟩

/-- A queue's descriptor, and a block of a packet. -/
def qd (q base size st wr rd : Nat) : List (Nat × Nat × Nat) :=
  let a := 0x900000 + 32 * q
  [(a, 8, base), (a + 8, 1, size), (a + 9, 1, st), (a + 16, 4, wr), (a + 20, 4, rd)]
def blk (pa play place seeds cnt wait val comp next : Nat) : List (Nat × Nat × Nat) :=
  [(pa, 8, play), (pa + 8, 8, place), (pa + 16, 8, seeds), (pa + 24, 2, cnt), (pa + 32, 8, wait), (pa + 40, 8, val), (pa + 48, 8, comp), (pa + 56, 8, next)]

/-- Slots ready and not; two queues, each waiting for the other's completion, before and after the timeout. -/
theorem witness_playTable_slots :
    let s (v : Nat) (o : Bool) : State := { pt [(3, en 3 2 1 0 70 5 0 1 1 0 7)] (mb [(0x40000008, 8, v)]) with qslots := [⟨70, [(0x40000008, 5)], o, 0⟩] }
    let ready (s : State) : Prop := ∃ x, s.qslots[0]? = some x ∧ Claims.signalsDown s x.conds ∧ (x.order = true → ¬ Claims.undelivered s x.queue)
    let c : State := { pt [] (mb (qd 70 0xA00000 4 0 3 2 ++ qd 71 0xB00000 4 0 1 0 ++ ident ++
        [(0xA00020, 16, 2 + 2 ^ 64 * 0x40000100), (0xB00000, 16, 2 + 2 ^ 64 * 0x40000200)] ++ blk 0x40000100 0 0 0 0 0x40000010 1 0x40000008 0 ++
        blk 0x40000200 0 0 0 0 0x40000008 1 0x40000010 0 ++ [(0x40000008, 8, 5), (0x40000010, 8, 5)])) with
      qslots := [⟨70, [(0x40000010, 1)], false, 0⟩, ⟨71, [(0x40000008, 1)], false, 0⟩]
      time := 100000000 }
    let x : QSlot := ⟨70, [(0x40000010, 1)], false, 0⟩
    let y : QSlot := ⟨71, [(0x40000008, 1)], false, 0⟩
    let out (s : State) (q : Nat) : State :=
      { Claims.stopped s q 2 (Claims.stgNum s (Claims.qAt s q + 20) 4) 0 with qslots := s.qslots.filter (fun z => z.queue != q), evicted := s.evicted.filter (fun z => z.queue != q) }
    (ready (s 5 false) ∧ ¬ ready (s 6 false) ∧ ¬ ready (s 4 true)) ∧
    (c.qslots.find? (fun z => z.queue == 70) = some x ∧ c.qslots.find? (fun z => z.queue == 71) = some y ∧ c.kept = [] ∧ x.since + c.waitTimeout ≤ c.time.toNat ∧
      ¬ Claims.signalsDown c x.conds ∧ ¬ Claims.signalsDown c y.conds) ∧
    (0x40000010 ∈ c.pendingSignals 71 ∧ 0x40000008 ∈ c.pendingSignals 70) ∧
    (∀ q, q = 70 ∨ q = 71 → ∀ u ∈ [c, out c 70], Claims.stgNum u (Claims.qAt u q + 20) 4 ≠ Claims.stgNum u (Claims.qAt u q + 16) 4) := by
  unfold Claims.signalsDown Claims.undelivered
  refine ⟨⟨⟨_, rfl, by decide +kernel, by decide +kernel⟩, ?_, ?_⟩, by decide +kernel, by decide +kernel, ?_⟩
  · rintro ⟨x, hx, hd, -⟩
    cases hx
    revert hd; decide +kernel
  · rintro ⟨x, hx, -, ho⟩
    cases hx
    revert ho; decide +kernel
  · rintro q (rfl | rfl) <;> decide +kernel

/-- Queue 70 kicked with a packet at its head. -/
def kick0 (l : List (Nat × Nat × Nat)) : State :=
  Claims.kicked (pt [] (mb (qd 70 0xA00000 4 0 3 2 ++ ident ++ l))) 70

theorem look_of {α : Type} {m : Option α × State} (p : α → Bool) (h : (m.1.any p) = true) : ∃ a t, m = (some a, t) ∧ p a = true := by
  obtain ⟨r, t⟩ := m
  cases r with
  | none => simp at h
  | some a => exact ⟨a, t, rfl, by simpa using h⟩

theorem lookNone_of {α : Type} {m : Option α × State} (h : m.1.isNone = true) : ∃ t, m = (none, t) := by
  obtain ⟨r, t⟩ := m
  cases r with
  | none => exact ⟨t, rfl⟩
  | some a => simp at h

/-- Whether a block is bad can be computed. -/
def badBlock_dec (w : Nat) (b : List Byte) : Decidable (Claims.badBlock w b) := by
  delta Claims.badBlock
  exact inferInstance

/-- Packets faulty and not, whose block cannot be read, names what no packet may, waits for nothing, for a signal that is
up, and for an address that does not translate. -/
theorem witness_schedulerThreads_packets :
    let s (w : Nat) (l : List (Nat × Nat × Nat)) : State := kick0 ((0xA00020, 16, w) :: l)
    let part : Partition := { clusters := [0], root := 0x1000, ranges := [(0, 2 ^ 50)], queues := [70, 71] }
    let w := 2 + 2 ^ 8 * 4 + 2 ^ 11 + 2 ^ 64 * 0x40000100
    let b (wait val : Nat) := blk 0x40000100 0 0 0 0 wait val 0x40000008 0
    let c (w : Nat) (l : List (Nat × Nat × Nat)) := Claims.claimed (s w l) 70
    let f (b : List Byte) (o k : Nat) : Nat := Claims.number ((b.drop o).take k)
    Claims.serves (s w []) 70 2 w (0, part) ∧ ¬ Claims.badPacket w ∧ Claims.badPacket 0 ∧ Claims.badPacket (2 + 2 ^ 12) ∧
    (∃ t, (lookBytes part 0x1000050000000 64 : Look (List Byte)) (c w []) = (none, t)) ∧
    (∃ x t, (lookBytes part 0x40000100 64 : Look (List Byte)) (c w (b 0 0)) = (some x, t) ∧ (f x 56 8 == 0 && f x 32 8 == 0 && !@decide _ (badBlock_dec w x)) = true) ∧
    (∃ x t, (lookBytes part 0x40000100 64 : Look (List Byte)) (c 2 (b 4 0)) = (some x, t) ∧ @decide _ (badBlock_dec 2 x) = true) ∧
    (∃ x t, (lookBytes part 0x40000100 64 : Look (List Byte)) (c w (b 0x40000010 4 ++ [(0x40000010, 8, 5)])) = (some x, t) ∧
      (f x 32 8 == 0x40000010 && f x 40 8 == 4 && !@decide _ (badBlock_dec w x)) = true) ∧
    (∃ pa t, (lookPlace part 0x40000010 .read) (c w (b 0x40000010 4 ++ [(0x40000010, 8, 5)])) = (some pa, t) ∧ (pa == 0x40000010) = true) ∧
    Claims.asInt 64 false 4 < Claims.asInt 64 false (Claims.stgNum (c w (b 0x40000010 4 ++ [(0x40000010, 8, 5)])) 0x40000010 8) ∧
    (∃ t, (lookPlace part 0x1000050000010 .read) (c w []) = (none, t)) ∧ (Claims.freeSlot (s w []) 0 ∧ ∀ g, g < 0 → ¬ Claims.freeSlot (s w []) g) ∧
    (let v := { s w [] with evicted := [⟨70, [(0x40000010, 4)], false, 9⟩] };
      v.qslots.length < 128 ∧ (∃ z ∈ v.qslots ++ v.evicted, z.queue = 70 ∧ ∀ y ∈ v.qslots ++ v.evicted, y.queue = 70 → y = z) ∧ ∀ z ∈ (s w []).qslots ++ (s w []).evicted, z.queue ≠ 70) := by
  refine ⟨⟨by decide, by decide +kernel, by decide +kernel, by decide +kernel, by decide +kernel, noEntry (by decide +kernel), by decide +kernel⟩, by unfold Claims.badPacket; decide +kernel, by unfold Claims.badPacket; decide +kernel, by unfold Claims.badPacket; decide +kernel,
    lookNone_of (by decide +kernel), look_of _ ?_, look_of _ ?_, look_of _ ?_, look_of _ ?_, by decide +kernel, lookNone_of (by decide +kernel), ⟨⟨by decide +kernel, by decide +kernel⟩, fun g hg => absurd hg (Nat.not_lt_zero g)⟩, by decide +kernel⟩
  all_goals decide +kernel

/-- Queue 70's head launches a play of two acts and two seeds in cluster 0. -/
def launch0 : State :=
  kick0 ((0xA00020, 16, 1 + 2 ^ 64 * 0x40000100) :: blk 0x40000100 0x40000400 (2 ^ 48 + 1) 0x40000700 2 0 0 0x40000008 0 ++
    [(0x40000400, 4, 1), (0x40000404, 1, 2), (0x40000405, 1, 0), (0x40000418, 8, 0x40000500), (0x40000420, 8, 0x40000600), (0x40000428, 4, 1), (0x40000500, 8, 0x6000), (0x40000508, 2, 1),
      (0x4000050A, 2, 8), (0x4000050C, 4, 0xFFFFFF01), (0x40000510, 8, 0x7000), (0x4000051A, 2, 4), (0x4000051C, 4, 0xFFFFFFFF), (0x40000600, 2, 5), (0x40000610, 16, 0xABC),
      (0x40000700, 8, 0x6000), (0x40000720, 8, 11), (0x40000740, 8, 0x6000), (0x40000760, 8, 12)])
def part70 : Partition := { clusters := [0], root := 0x1000, ranges := [(0, 2 ^ 50)], queues := [70, 71] }

/-- A launch that the host can provide for, and one without an image's place. -/
theorem witness_schedulerThreads_launch :
    let s := launch0
    let w := 1 + 2 ^ 64 * 0x40000100
    Claims.serves s 70 2 w (0, part70) ∧ s.dbg.runs = [] ∧ (s.dir (Claims.ownerOf s (70 / 64))).root = none ∧ Claims.freeSlot s 0 ∧
    ∃ job t, (lookJob part70 w : Look Job) (Claims.claimed s 70) = (some job, t) ∧
      (job.plan.any (fun p => p.2 == [0] && p.1.len == 0 && decide (job.seeds.length + (p.1.acts.map (·.depth)).sum ≤ 14)) && job.conds.isEmpty && !job.order &&
        job.seeds.length == 2) = true := by
  refine ⟨⟨by decide, by decide +kernel, by decide +kernel, by decide +kernel, by decide +kernel, noEntry (by decide +kernel), by decide +kernel⟩, by decide +kernel, by decide +kernel, ⟨by decide +kernel, by decide +kernel⟩, look_of _ ?_⟩
  decide +kernel

/-- A core of one set, and one of none; a heartbeat timed out and not; a standby with a routine and one without. -/
theorem witness_schedulerThreads_takeOver :
    let s := pt []
    let h (t : Nat) : State := { s.setDir 4 { s.dir 4 with run := .halted } with time := BitVec.ofNat 64 t, beats := [(1, (3, 55))] }
    let a := s.setQset 1 { s.qset 1 with alarm := true }
    let d := a.standbyOf 1
    let r := a.setDir d { a.dir d with takeover := [(1, 0x9000)] }
    let y : Symbols := { qtab := 0x900000, ptab := 0x800000, launch := 0x7000, reseed := 0x7100 }
    let call (pc : BitVec 64) (set : Nat) : State := { s.setDir 4 { (s.dir 4).putX 10 (BitVec.ofNat 64 set) with pc := pc } with symbols := some y }
    ((s.dir 4).run ≠ .halted ∧ Claims.ownerOf s 1 = 4 ∧ Claims.ownerOf s 0 ≠ 4 ∧ s.standbyOf 1 ≠ 4 ∧ (∀ m, m < 4 → m ≠ 1 → Claims.ownerOf s m ≠ 4) ∧ s.transit = [] ∧
      Claims.inboxTakes s (dirId (s.standbyOf 1))) ∧
    ((KMap.get (0, 0) (h 10055).beats 1).2 = 55 ∧ 55 + 10000 ≤ (h 10055).time.toNat ∧ (h 10054).time.toNat < 55 + 10000 ∧
      ((h 0).dir (Claims.ownerOf (h 0) 1)).run ≠ .active ∧ (s.dir (Claims.ownerOf s 1)).run = .active) ∧
    ((a.qset 1).alarm = true ∧ (a.dir d).run = .active ∧ d < Config.directors ∧ (a.dir d).takeover = [] ∧ (a.qset 1).jtail = (a.qset 1).jlhead ∧ a.kept = [] ∧ a.ptab = []) ∧
    ((r.qset 1).alarm = true ∧ r.standbyOf 1 = d ∧ (r.dir d).takeover.find? (fun r => r.1 == 1) = some (1, 0x9000) ∧ (r.dir d).run = .active) ∧
    ((call 0x7000 1).symbols = some y ∧ ((call 0x7000 1).dir 4).user = false ∧ ((call 0x7000 1).dir 4).run = .active ∧ y.launch ≠ y.reseed ∧ ((call 0x7000 1).dir 4).pc = y.launch ∧
      ((call 0x7100 1).dir 4).pc = y.reseed ∧ (((call 0x7100 1).dir 4).getX 10).toNat = 1 ∧ Claims.ownerOf (call 0x7100 1) 1 = 4 ∧ Claims.ownerOf (call 0x7100 2) 2 ≠ 4 ∧
      Claims.ePlay (Claims.entryIs (call 0x7100 1) 0) = 0 ∧ (KMap.get [] (call 0x7100 1).targets 0).length ≤ Claims.fld (Claims.entryIs (call 0x7100 1) 0).w3 16 16) := by
  unfold Claims.inboxTakes
  decide +kernel

/-- A partition whose memory one page of the top level maps to itself, with calls to its services. -/
def svc0 (v : Nat) (l : List Call) : State :=
  { base with
    svcs := [(v, { calls := l })]
    mem := mb [(0x1000, 8, 0xDF)]
    parts := [(3, { clusters := [0], root := 0x1000, ranges := [(0, 2 ^ 50)], svcs := [7] })] }
def call0 (svc fl : Nat) (args : List Nat) : BitVec 256 :=
  BitVec.ofNat 256 (svc + 2 ^ 16 * fl + 2 ^ 64 * args.getD 0 0 + 2 ^ 128 * args.getD 1 0 + 2 ^ 192 * args.getD 2 0)

/-- Looks that find something and change nothing, one after another. -/
theorem mapM_look {α β : Type} (f : α → Look β) (s : State) (l : List α) (h : ∀ q ∈ l, ∃ b, f q s = (some b, s)) : ∃ r, (l.mapM f : Look (List β)) s = (some r, s) := by
  induction l with
  | nil => exact ⟨[], rfl⟩
  | cons a l ih =>
    obtain ⟨b, hb⟩ := h a (List.mem_cons_self ..)
    obtain ⟨r, hr⟩ := ih fun q hq => h q (List.mem_cons_of_mem _ hq)
    refine ⟨b :: r, ?_⟩
    rw [List.mapM_cons]
    simp only [bind, OptionT.bind, OptionT.mk, StateT.bind, hb, hr, pure, OptionT.pure, StateT.pure]

/-- With nothing published later than memory, a walk changes nothing. -/
theorem walk_same (l : Nat) : ∀ (s : State) (t v : Nat), s.log = [] → (walk l s t v).2 = s := by
  have rp (s : State) (a : Nat) (h : s.log = []) : (s.readPte a).2 = s := by
    simp [State.readPte, State.engineGran, State.order, h, State.choose]
  induction l with
  | zero =>
    intro s t v h
    have e := rp s (t + 8 * (v / 2 ^ (12 + 9 * 0) % 512)) h
    rw [walk]
    generalize s.readPte (t + 8 * (v / 2 ^ (12 + 9 * 0) % 512)) = q at e ⊢
    obtain ⟨x, s'⟩ := q
    obtain rfl : s' = s := e
    dsimp only
    generalize pteKind 0 v x = k
    rcases k with _ | (_ | _) <;> rfl
  | succ l ih =>
    intro s t v h
    have e := rp s (t + 8 * (v / 2 ^ (12 + 9 * (l + 1)) % 512)) h
    rw [walk]
    generalize s.readPte (t + 8 * (v / 2 ^ (12 + 9 * (l + 1)) % 512)) = q at e ⊢
    obtain ⟨x, s'⟩ := q
    obtain rfl : s' = s := e
    dsimp only
    generalize pteKind (l + 1) v x = k
    rcases k with _ | (_ | t')
    · rfl
    · rfl
    · exact ih s' t' v h

theorem lookPlace_same {s : State} {p : Partition} {va : Nat} {k : Acc} (h : s.log = []) (hs : (s.partPlace p va k).1.isSome = true) :
    ∃ pa, lookPlace p va k s = (some pa, s) := by
  obtain ⟨pa, hpa⟩ := Option.isSome_iff_exists.mp hs
  refine ⟨pa, Prod.ext hpa ?_⟩
  unfold lookPlace State.partPlace
  split
  · rfl
  · exact walk_same 4 s _ _ h

/-- Strong calls first and behind another, and an unordered one, with a reply and without; attestation requests too
short, misaligned and good, with keys left and none. -/
theorem witness_services_calls :
    let s := svc0 7 [⟨call0 7 1 [], 5, 1⟩, ⟨call0 7 3 [], 5, 2⟩, ⟨call0 7 2 [], 5, 3⟩]
    let c (l : List Nat) : Call := ⟨call0 1 3 l, 5, 9⟩
    let a (l : List Nat) := svc0 1 [c l]
    let p : Partition := { clusters := [0], root := 0x1000, ranges := [(0, 2 ^ 50)], svcs := [7] }
    let good := [0x40000100, 0x40000400, 3584]
    let w (l : List Nat) := (c l).packet.toNat
    (Claims.runs s 7 0 ⟨call0 7 1 [], 5, 1⟩ ∧ ¬ Claims.runs s 7 1 ⟨call0 7 3 [], 5, 2⟩ ∧ Claims.runs s 7 2 ⟨call0 7 2 [], 5, 3⟩) ∧
    (∀ l, Claims.runs (a l) 1 0 (c l)) ∧ (∀ l ∈ [good, [0x40000100, 0x40000400, 3583]], (a l).partOfId (c l).caller = some (3, p)) ∧
    (w [0x40000100, 0x40000400, 3583] / 2 ^ 192 % 2 ^ 64 < 3584 ∧ w [0x40000110, 0x40000400, 3584] / 2 ^ 64 % 2 ^ 64 % 32 ≠ 0 ∧
      w [0x40000100, 0x40000420, 3584] / 2 ^ 128 % 2 ^ 64 % 64 ≠ 0 ∧ 3584 ≤ w good / 2 ^ 192 % 2 ^ 64 ∧ w good / 2 ^ 64 % 2 ^ 64 = 0x40000100 ∧ w good / 2 ^ 128 % 2 ^ 64 = 0x40000400) ∧
    (∃ n u, (lookBytes p 0x40000100 32 : Look (List Byte)) (a good) = (some n, u) ∧ (n.length == 32) = true) ∧
    (∃ pl u, lookWrite p 0x40000400 3524 (a good) = (some pl, u) ∧ true = true) ∧ ((a good).flash.leaf < 2 ^ 30 ∧ (a good).meas.length = 4) ∧
    2 ^ 30 ≤ { (a good) with flash := { (a good).flash with leaf := 2 ^ 30 } }.flash.leaf := by
  have one (l : List Nat) : Claims.runs (svc0 1 [⟨call0 1 3 l, 5, 9⟩]) 1 0 ⟨call0 1 3 l, 5, 9⟩ := ⟨rfl, fun _ j d hj => absurd hj (Nat.not_lt_zero j)⟩
  intro s c a p good w
  refine ⟨⟨?_, ?_, ?_⟩, fun l => one l, by decide +kernel, by decide +kernel, look_of _ ?_, ?_, by decide +kernel, by decide +kernel⟩
  · exact ⟨rfl, fun _ j d hj => absurd hj (Nat.not_lt_zero j)⟩
  · rintro ⟨-, h⟩
    exact absurd (h (by decide +kernel) 0 _ (by decide) rfl rfl) (by decide +kernel)
  · exact ⟨rfl, fun h => absurd h (by decide +kernel)⟩
  · decide +kernel
  · have hp : ((pieces 0x40000400 3524).all fun q => ((a good).partPlace p q.1 .write).1.isSome) = true := by decide +kernel
    obtain ⟨pl, h⟩ := mapM_look (fun q => do pure (← lookPlace p q.1 .write, q.2)) (a good) (pieces 0x40000400 3524) fun q hq => by
      obtain ⟨pa, e⟩ := lookPlace_same rfl (List.all_eq_true.mp hp q hq)
      exact ⟨(pa, q.2), by simp only [bind, OptionT.bind, OptionT.mk, StateT.bind, e, pure, OptionT.pure, StateT.pure]⟩
    exact ⟨pl, _, h, rfl⟩

/-- An entry of the fault buffer due and not; a tenant without plays and one with; a change of the map that is fine, and
one that takes another's cluster. -/
theorem witness_services_faults :
    let f (l : List (Nat × Nat × Word)) : FaultEnt := { page := 0x40000000, part := 0, kinds := 1, cues := l, at_ := 0 }
    let s (l : List (Nat × Nat × Word)) (t : Nat) : State := { pt [] with
      faults := [(2, some (f l))]
      plays := [(3, { part := 0, acts := [], clusters := [] })]
      time := BitVec.ofNat 64 t }
    let due (s : State) : Prop := ∃ e ∈ s.faults, e.2.any (fun g => decide (g.at_ + s.faultWindow ≤ s.time.toNat)) = true
    let fine (s : State) (p : Nat) (mask : List Nat) (ranges : List (Nat × Nat)) (queues : List Nat) (dcs : BitVec 16) : Prop :=
      p < 16 ∧ ranges.length ≤ 16 ∧ (∀ r ∈ ranges, r.1 % 2 ^ 21 = 0 ∧ r.2 % 2 ^ 21 = 0) ∧ (∀ c ∈ mask, c < 768) ∧ (∀ q ∈ queues, q < 256) ∧
      (∀ y ∈ s.parts, y.1 ≠ p → (∀ c ∈ y.2.clusters, c ∉ mask) ∧ y.2.dcs &&& dcs = 0 ∧ ∀ q ∈ y.2.queues, q ∉ queues) ∧ ∀ q ∈ s.plays, q.2.part = p → q.2.ended = true
    KMap.get none (s [] 2000).faults 2 = some (f []) ∧ due (s [] 2000) ∧ ¬ due (s [] 1999) ∧ (s [(5, 3, 0x40)] 2000).faultOver = [] ∧
    (∃ x, (s [(5, 3, 0x40)] 2000).plays.find? (fun p => p.1 == 3) = some (3, x) ∧ x.ended = false ∧ x.error = none) ∧
    (∃ x, (s [] 0).parts.find? (fun q => q.1 == 0) = some (0, x)) ∧ (∀ q ∈ (pt []).plays, q.2.part = 0 → q.2.ended = true) ∧
    (fine (s [] 0) 3 [1] [(0, 2 ^ 21)] [9] 2 ∧ ¬ fine (s [] 0) 3 [0] [] [] 0 ∧ fine (pt []) 0 [0, 1] [] [70] 0 ∧ 7 < 1024 ∧
      ∃ a b c d, (pt []).meas = [a, b, c, d]) := by
  refine ⟨by decide +kernel, by decide +kernel, by decide +kernel, by decide +kernel, ⟨_, rfl, rfl, rfl⟩, ⟨_, rfl⟩, by decide +kernel, by decide +kernel, by decide +kernel,
    by decide +kernel, by decide, ?_⟩
  exact ⟨_, _, _, _, rfl⟩

/-- A cap in range and out of it, registers in each state, and a link that can train down and not. -/
theorem witness_hostPort_access :
    let v (n : Nat) : BitVec 64 := BitVec.ofNat 64 n
    let s := State.reset
    (900 ≤ Claims.fld (v 900) 0 16 ∧ Claims.fld (v 1800) 0 16 ≤ 1800 ∧ Claims.fld (v 899) 0 16 < 900 ∧ 1800 < Claims.fld (v 1801) 0 16) ∧
    ((v 3).getLsbD 0 = true ∧ (v 2).getLsbD 0 = false ∧ s.host.mbfree = true ∧ { s with host := { s.host with mbfree := false } }.host.mbfree = false) ∧
    (s.host.dumpKept = false ∧ { s with host := { s.host with dumpKept := true } }.host.dumpKept = true) ∧
    (0x11 % 8 ≠ 0 ∧ 0x20 ∉ [0x10, 0x18, 0x28, 0x40] ∧ 0x20 < 0x100 ∧ 0x200 ≤ 0x200) ∧
    (Claims.wholeLine 0x20000 64 (0x20000 / 64) ∧ ¬ Claims.wholeLine 0x20000 63 (0x20000 / 64)) ∧
    (8 ∈ [1, 2, 4, 8, 16] ∧ 8 ≤ s.host.width ∧ 1 ≤ s.host.rate ∧ 3 ∉ [1, 2, 4, 8, 16]) := by
  unfold Claims.wholeLine
  decide +kernel

/-- Command `c` in the mailbox with its data area's words, and partition 3. -/
def mail0 (c : Nat) (ws : List Nat) (free : Bool := false) : State :=
  { State.reset with
    host := { State.reset.host with mbfree := free, ready := true, cmd := BitVec.ofNat 64 c, data := (ws.mapIdx fun k v => (k, BitVec.ofNat 64 v)).filter (·.2 != 0) }
    parts := [(3, { clusters := [] })] }

/-- Every command, known and unknown, good and bad; a set's owner that runs and one that has halted; keys left and none. -/
theorem witness_hostPort_mailbox :
    let at2 (id buf len : Nat) : State := mail0 2 [id, 0, 0, 0, 0, buf, len]
    let good := at2 3 0x40000 3584
    let up (s : State) : Prop := (s.dir (Claims.ownerOf s (Claims.dataNum s 0 2 / 64))).run = .active
    let z : State := let s := mail0 4 [255]; s.setDir (Claims.ownerOf s 3) { s.dir (Claims.ownerOf s 3) with run := .halted }
    (∀ c, c < 8 → Claims.mail (mail0 c []) c) ∧ (Claims.mail good 2 ∧ Claims.dataNum good 0 4 = 3 ∧ Claims.dataNum good 40 8 = 0x40000 ∧ Claims.dataNum good 48 8 = 3584 ∧
      (∃ p ∈ good.parts, p.1 = 3) ∧ (∀ p ∈ good.parts, p.1 ≠ 4)) ∧
    (Claims.dataNum (at2 3 0x40000 3583) 48 8 < 3584 ∧ Claims.dataNum (at2 3 0x40020 3584) 40 8 % 64 ≠ 0) ∧
    (good.flash.leaf < 2 ^ 30 ∧ good.meas.length = 4 ∧ 2 ^ 30 ≤ { good with flash := { good.flash with leaf := 2 ^ 30 } }.flash.leaf) ∧
    (255 < Claims.dataNum (mail0 4 [256]) 0 2 ∧ Claims.dataNum (mail0 4 [255]) 0 2 ≤ 255 ∧ up (mail0 4 [255]) ∧ ((mail0 4 [255]).qset 3).taking = false ∧ ¬ up z ∧ Claims.mail z 4) ∧ (mail0 4 [] true).host.mbfree = true := by
  unfold Claims.mail
  decide +kernel

/-- Two training records, of which one matches, and one signed for another serial number. -/
theorem witness_powerAndFailure_training :
    let o : Outside := { volt := 1000, serials := [(0, 7)], version := 3, badPattern := [2] }
    let r (serial : Word) (temp : Nat) : TrainRec :=
      let r : TrainRec := { unit := 0, settings := 9, temp := temp, volt := 1010, serial := serial, version := 3 }
      { r with mac := Config.hmac (Claims.recBytes r) }
    Claims.reusable o 30 (r 7 25) ∧ ¬ Claims.reusable o 30 (r 8 25) ∧ ¬ Claims.reusable o 45 (r 7 25) := by
  refine ⟨⟨rfl, ?_⟩, fun h => absurd h.2.1 ?_, fun h => absurd h.2.2.2.2.1 ?_⟩ <;> decide

/-- A start at each line, and one that has halted; images whose signatures hold and one that fails; the places a reset and a
loss of power reach; samples over the limits and under; the clock's steps due and not; failures and none; translations, pages
and lookahead results named and not. -/
theorem witness_powerAndFailure :
    let s : State := { State.reset with host := { State.reset.host with step := 0 }, meas := [1, 2, 3, 4] }
    let c (t m : Nat) (o : Option Nat) : State := { State.reset with clearSince := o, time := BitVec.ofNat 64 t, mhz := m }
    let e : TlbEntry := ⟨0x1000, 0x4000, 12, 0, true, true, true, true, true⟩
    let ch : Chunk := { loc := locMem 5, off := 0, bytes := [1], page := (0x1000, 4) }
    let hot (tj : Nat) : State := { s with host := { s.host with tj := tj } }
    (s.host.step = 0 ∧ s.host.ioError = false ∧ { s with host := { s.host with step := 6 } }.host.step ≠ 0 ∧ s.outside.badImages = [] ∧ 0 < s.flash.wear.length ∧ s.warm = false) ∧
    (Claims.inModule s (s.hbase + 0x7FF0000000) ∧ ¬ Claims.inModule s (s.hbase + 2 ^ 39) ∧ Claims.inModule s s.hbase) ∧
    (s.host.cap < 1801 ∧ 900 ≤ s.host.cap ∧ 95 < 96) ∧
    ((c 1000005 600 (some 5)).clearSince = some 5 ∧ 5 + 1000000 ≤ (c 1000005 600 (some 5)).time.toNat ∧ (c 1000004 600 (some 5)).time.toNat < 5 + 1000000 ∧
      (c 0 1200 none).clearSince = none ∧ 1200 ≤ (c 0 1200 none).mhz ∧ (c 0 600 none).mhz < 1200) ∧ s.meas.length = 4 ∧
    (Claims.fails (hot 106) ∧ ¬ Claims.fails (hot 105) ∧ (hot 106).host.fatal = false) ∧
    (Claims.namedResult none 0x4800 4 { window := 0, stores := [ch] } ∧ ¬ Claims.namedResult none 0x5000 4 { window := 0, stores := [ch] } ∧ ∀ h ∈ s.harts, h.2.pending = []) ∧
    (Claims.named none 0x4800 4 e ∧ Claims.named (some 0x1000) 0x4800 4 e ∧ ¬ Claims.named (some 0x2000) 0x4800 4 e ∧ ¬ Claims.named none 0x5000 4 e) := by
  refine ⟨by decide +kernel, by decide +kernel, by decide +kernel, by decide +kernel, by decide +kernel, ⟨.inl (by decide +kernel), by unfold Claims.fails; decide +kernel, by decide +kernel⟩,
    ⟨.inr ⟨_, List.mem_singleton.mpr rfl, by decide +kernel, fun r h => (by cases h), by decide +kernel⟩, ?_, by decide +kernel⟩,
    ⟨?_, by decide +kernel⟩, ⟨?_, by decide +kernel⟩, ?_, ?_⟩
  · rintro (h | ⟨c, hc, -, -, -, h⟩)
    · exact h rfl
    · obtain rfl := List.mem_singleton.mp hc
      revert h; decide +kernel
  · rintro r ⟨⟩
  · rintro r ⟨⟩; rfl
  · rintro ⟨h, -⟩
    exact absurd (h _ rfl) (by decide +kernel)
  · rintro ⟨-, -, h⟩
    revert h; decide +kernel

/-- The base state with ixdb attached to partition 3 or not, unit `sel` selected, and a partition whose debug word is given. -/
def pdbg (dbg : BitVec 3) : Partition :=
  { clusters := [0, 1, 2], root := 0x1000, pasid := 7, ranges := [(0, 2 ^ 39)], queues := [70], dcs := 1, dbg := dbg }
def dbg0 (att : Bool := true) (sel : Nat := 5) (dbg : BitVec 3 := 7) (l : List (Nat × Nat × Nat) := []) : State :=
  { base with
    parts := [(3, pdbg dbg), (4, { clusters := [9], dcs := 2, dbg := 3, queues := [9] })]
    dbg := { attached := att, part := 3, sel := some sel, breaks := [7], skip := [(6, 0x1000)] }
    mem := mb (ident ++ qd 70 0xA00000 4 0 3 2 ++ l)
    qtable := 0x900000 }

theorem admits_of {s : State} {id : Nat} {x : Partition} {p : Option (Nat × Partition)} (hp : p = some (id, x)) (h : s.dbg.attached = true ∧ s.dbg.part = id) :
    Claims.admits s p s := ⟨id, x, hp, .inl ⟨h.1, h.2, rfl⟩⟩

theorem attaches_of {s : State} {id : Nat} {x : Partition} {p : Option (Nat × Partition)} (hp : p = some (id, x)) (h : s.dbg.attached = false ∧ x.dbg.getLsbD 2 = true) :
    Claims.admits s p { s with dbg := { s.dbg with attached := true, part := id } } := ⟨id, x, hp, .inr ⟨h.1, h.2, rfl⟩⟩

theorem bars_of {s : State} {id : Nat} {x : Partition} {p : Option (Nat × Partition)} (hp : p = some (id, x))
    (h : (s.dbg.attached = true ∧ s.dbg.part ≠ id) ∨ (s.dbg.attached = false ∧ x.dbg.getLsbD 2 = false)) : Claims.bars s p := .inr ⟨id, x, hp, h⟩

/-- ixdb attached and not; a partition it may name and may not; a unit selected; a cue that runs on the hart and another;
threads none; the debug word's bit for takeover set and not. -/
theorem witness_debuggerControls :
    let s := dbg0
    (dbg0 false).dbg.attached = false ∧ s.dbg.attached = true ∧
    (∀ s ∈ [dbg0, dbg0 true 5 5], Claims.admits s (s.partOfCluster 0) s ∧ Claims.admits s (s.partOfDir 0) s) ∧
    (∃ a, Claims.admits (dbg0 false) ((dbg0 false).partOfCluster 0) a) ∧
    (Claims.bars s (s.partOfCluster 9) ∧ Claims.bars s (s.partOfCluster 10) ∧ Claims.bars (dbg0 false) ((dbg0 false).partOfCluster 9) ∧ Claims.bars s (s.partOfDir 1)) ∧
    (Claims.selects s 5 ∧ Claims.selects (dbg0 true 49152) (49152 + 0)) ∧ ((s.hart 5).house = false ∧ (s.hart 5).cueptr ≠ 0) ∧
    (s.dbg.threads = [] ∧ { s with dbg := { s.dbg with threads := [0] } }.dbg.threads = [0] ∧ s.dbg.queue = none ∧ { s with dbg := { s.dbg with queue := some 9 } }.dbg.queue = some 9) ∧
    ((pdbg 7).dbg.getLsbD 1 = true ∧ (pdbg 5).dbg.getLsbD 1 = false ∧ (pdbg 7).root.toNat < 2 ^ 56 ∧ (s.dir 0).run ≠ .halted ∧
      s.parts.find? (fun q => q.1 == 3) = some (3, pdbg 7) ∧ (dbg0 true 5 5).parts.find? (fun q => q.1 == 3) = some (3, pdbg 5)) := by
  refine ⟨rfl, rfl, ?_, ⟨_, attaches_of (x := pdbg 7) (id := 3) (by decide +kernel) (by decide +kernel)⟩, ⟨?_, .inl (by decide +kernel), ?_, ?_⟩, by unfold Claims.selects; decide +kernel,
    by decide +kernel, by decide +kernel, by decide +kernel⟩
  · intro s hs
    rcases List.mem_cons.mp hs with rfl | hs
    · exact ⟨admits_of (x := pdbg 7) (id := 3) (by decide +kernel) (by decide +kernel), admits_of (x := pdbg 7) (id := 3) (by decide +kernel) (by decide +kernel)⟩
    · obtain rfl := List.mem_singleton.mp hs
      exact ⟨admits_of (x := pdbg 5) (id := 3) (by decide +kernel) (by decide +kernel), admits_of (x := pdbg 5) (id := 3) (by decide +kernel) (by decide +kernel)⟩
  · exact bars_of (id := 4) (by rfl) (by decide +kernel)
  · exact bars_of (id := 4) (by rfl) (by decide +kernel)
  · exact bars_of (id := 4) (by rfl) (by decide +kernel)

/-- A run that can be queued, and hart lists that cannot; an address to watch that can be read and one that cannot. -/
theorem witness_debuggerControls_run :
    let s := dbg0 true 5 7 [(0x40000400, 4, 1), (0x40000404, 1, 2), (0x40000418, 8, 0x40000500), (0x40000420, 8, 0x40000600), (0x40000428, 4, 1), (0x40000500, 8, 0x6000), (0x40000508, 2, 1),
      (0x4000050A, 2, 8), (0x4000050C, 4, 0xFFFFFF01), (0x40000510, 8, 0x7000), (0x4000051A, 2, 4), (0x4000051C, 4, 0xFFFFFFFF), (0x40000600, 2, 5), (0x40000610, 16, 0xABC)]
    (s.parts.find? (fun p => p.2.queues.contains 70) = some (3, pdbg 7) ∧ s.parts.find? (fun p => p.1 == 3) = some (3, pdbg 7) ∧
      (∀ n ∈ [5, 70], n / 64 ∈ (pdbg 7).clusters ∧ n < Config.harts) ∧ [5, 70].Nodup ∧ (∀ n ∈ [5, 70], ∀ m ∈ [5, 70], n / 1024 = m / 1024)) ∧
    (¬ [5, 5].Nodup ∧ 600 / 64 ∉ (pdbg 7).clusters) ∧ (Claims.stgWord s 0x8000001000 ∧ ¬ Claims.stgWord s 0x40000000) ∧
    (∃ plan t, (lookPlan (pdbg 7) 0x40000400 : Look Plan) s = (some plan, t) ∧ (plan.acts.head?).isSome = true) ∧
    ((∃ s1, s.partWrite (pdbg 7) 0x40000840 (Claims.bytes 64 0) = some s1) ∧ (∃ s2, s.partWrite (pdbg 7) 0x40000800 (Claims.bytes 64 0) = some s2) ∧
      ∃ s3, s.partWrite (pdbg 7) 0x40000C00 (Claims.bytes 8 1) = some s3) ∧
    ((3 + 2 ^ 32 - Claims.stgNum s (Claims.qAt s 70 + 20) 4) % 2 ^ 32 < 2 ^ Claims.stgNum s (Claims.qAt s 70 + 8) 1) ∧
    ((∃ b, s.dbgBytes none 0x40000600 8 = some b) ∧ Claims.fld (0x40000600 : BitVec 64) 63 1 = 0 ∧ s.dbgBytes none 0x1000050000600 8 = none) := by
  refine ⟨by decide +kernel, by decide +kernel, by unfold Claims.stgWord; decide +kernel, look_of _ (by decide +kernel), ⟨?_, ?_, ?_⟩, by decide +kernel, ?_, by decide +kernel, by decide +kernel⟩
  all_goals exact Option.isSome_iff_exists.mp (by decide +kernel)

/-- A selected hart with no stream; bytes it can read of its bank and of memory; granules current, stale and of no entry,
raw and not; journals empty and of one entry; entries free and of the partition; a granule that a write leaves live. -/
theorem witness_debuggerShows :
    let s := dbg0
    let b := s.setCore 1 { alloc := [(0, al 0 1 3), (1, al 32 1 9), (2, { al 64 1 4 with st := .retired })], gran := [(0, gr 3 false 10), (1, gr 3 false 20), (2, gr 3 true 30)] }
    let x := (s.setQset 1 { s.qset 1 with jlbase := 0x800000 }).journal 1 2 70 5 3 noExtra
    let e : State := { s with ptab := [(3, { w0 := BitVec.ofNat 64 (1 + 2 ^ 24 * 70) })] }
    (Claims.selects s 5 ∧ (s.hart 5).streams = [] ∧ s.log = [] ∧ (s.core (5 / 4)).psb = []) ∧
    ((∃ l, s.dbgBytes (some 5) 0x40000604 8 = some l) ∧ (∃ l, s.dbgBytes (some 5) 0x40000600 64 = some l)) ∧
    ((∃ i, decode false (parcelLen (0x13 % 65536)) 0x13 = .ok i) ∧ ∃ r, decode false (parcelLen (0 % 65536)) 0 = .error r) ∧
    (∃ u, s.partPlace (pdbg 7) 0x40000605 .read = (some 0x40000605, u)) ∧
    ((b.core 1).alloc.find? (fun e => e.2.st == .live && decide (e.2.base ≤ 32 * 0 ∧ 32 * 0 < e.2.base + 32 * e.2.len)) = some (0, al 0 1 3) ∧
      (∀ e ∈ (b.core 1).alloc, e.2.st = .live → ¬ (e.2.base ≤ 32 * 2 ∧ 32 * 2 < e.2.base + 32 * e.2.len)) ∧
      (∃ r ∈ (b.core 1).alloc, r.2.st = .retired ∧ r.2.base ≤ 32 * 2 ∧ 32 * 2 < r.2.base + 32 * r.2.len)) ∧
    ((s.qset 1).jtail = (s.qset 1).jlhead ∧ (x.qset 1).jtail = (x.qset 1).jlhead + 1 ∧ ∃ bs, Claims.journalAt x 1 (x.qset 1).jlhead.toNat bs) ∧
    (Claims.eState (Claims.entryIs e 4) = 0 ∧ ∃ p, e.parts.find? (fun p => p.2.queues.contains (Claims.eQueue (Claims.entryIs e 3))) = some (e.dbg.part, p)) ∧
    (Claims.admits s (s.partOfQueue 70) s ∧ Claims.bars s (s.partOfQueue 9) ∧ Claims.bars s (s.partOfQueue 71)) ∧
    (∃ g, s.coverGen (locBank (5 / 4) 2) = some g) ∧ s.coverGen (locBank (5 / 4) 600) = none := by
  refine ⟨by unfold Claims.selects; decide +kernel, ⟨Option.isSome_iff_exists.mp (by decide +kernel), Option.isSome_iff_exists.mp (by decide +kernel)⟩, ⟨⟨_, rfl⟩, ⟨_, rfl⟩⟩,
    fst_of (by decide +kernel), by decide +kernel, ⟨by decide +kernel, by decide +kernel, _, 0x800000, by decide +kernel, rfl⟩,
    ⟨by decide +kernel, ⟨_, rfl⟩⟩, ⟨admits_of (x := pdbg 7) (id := 3) (by decide +kernel) (by decide +kernel), bars_of (id := 4) (by rfl) (by decide +kernel), .inl (by decide +kernel)⟩,
    Option.isSome_iff_exists.mp (by decide +kernel), by decide +kernel⟩

/-- The base state with hart 5 at sealed code: one 32-bit word at 0x400000. -/
def code0 (w : Nat) (ev : List Turn := []) : State :=
  { wh (fun h => { h with pc := 0x400000 }) with
    mem := leMem 0x10000 w
    sealTable := [(0x10000, 4096, true)]
    agenda := ev }
where leMem (a w : Nat) : KMap Byte := ((List.range 8).map fun i => (a + i, BitVec.ofNat 8 (w / 256 ^ i))).filter (·.2 != 0)

theorem next_of {o : Host.Outcome State Fault Refusal} (p : State → Bool) (h : (match o with | .next t => p t | _ => false) = true) : ∃ t, o = .next t ∧ p t = true := by
  cases o with
  | next t => exact ⟨t, rfl, h⟩
  | fault _ => simp at h
  | refused _ => simp at h

/-- Fetched bytes that decode and that do not, a fetch that faults, on a hart and on a director core; an event. -/
theorem witness_stepRunsDecoded :
    let s := code0 0x00A2908B
    let d : State := { dbase with mem := code0.leMem 0x1000 0x00A28293, sealTable := [(0x1000, 4096, true)] }
    let at_ (s : State) (a : Agent) (pc : Nat) (k w : Nat) : Prop := ∃ t, (Claims.turn s).fetch a pc = (.word k w, t)
    let fails (s : State) (a : Agent) (pc : Nat) (adr c : Nat) : Prop := ((Claims.turn s).fetch a pc).1 = .fault adr c
    let ev : State := { base with agenda := [.event (.doorbell 3)] }
    (Claims.stepsHart s 5 ∧ Claims.stepsHart base 5 ∧ Claims.stepsDir d 0) ∧ at_ s (.hart 5) 0x400000 4 0x00A2908B ∧ at_ (code0 0) (.hart 5) 0x400000 2 0 ∧ fails base (.hart 5) 0x1000 0x1000 0x0D ∧
    at_ d (.dir 0) 0x1000 4 0x00A28293 ∧ fails (dbase.setDir 0 { dbase.dir 0 with satp := 10 <<< 60 }) (.dir 0) 0x1000 0x1000 12 ∧ decode false 4 0x00A2908B = .ok (.lpSetup 1 5 10) ∧ (∃ e, decode false 2 0 = .error e) ∧
    (∃ u, exec (.doorbell 3) base = .next u ∧ encode (.doorbell 3) = .none ∧ ev.agenda = .event (.doorbell 3) :: []) ∧
    (rowOf 0x400000 = 3 ∧ (∀ j, j < 2 → s.translate 0 (0x400000 + 2 * j) .fetch = (some (0x10000 + 2 * j), s)) ∧
      2 * 2 = parcelLen (Claims.number (getBytes s.mem 0x10000 2)) ∧ ∀ j, j < 4 → ∃ e ∈ s.sealTable, e.1 ≤ 0x10000 + j ∧ 0x10000 + j < e.1 + e.2.1) := by
  refine ⟨⟨⟨?_, ?_, ?_, ?_, ?_, ?_, .inl ?_, ?_⟩, ⟨?_, ?_, ?_, ?_, ?_, ?_, .inl ?_, ?_⟩, by unfold Claims.stepsDir; decide +kernel⟩, fst_of ?_, fst_of ?_, ?_, fst_of ?_, ?_, ?_, ⟨_, rfl⟩, ⟨_, rfl, by decide +kernel, rfl⟩, ?_⟩
  all_goals first | rfl | decide +kernel

/-- A step that runs an instruction and one that takes a fault, from memory in its form. -/
theorem witness_stepKeepsMemoryCanonical :
    (Memory.wf (code0 0x00A2908B).mem = true ∧ ∃ t, step (code0 0x00A2908B) = .next t ∧ ((t.hart 5).instret == 1) = true) ∧
      (Memory.wf base.mem = true ∧ ∃ t, step base = .next t ∧ (t.hart 5).trapped = true) := by
  refine ⟨⟨by decide +kernel, next_of (fun t => (t.hart 5).instret == 1) (by decide +kernel)⟩, by decide +kernel, next_of (fun t => (t.hart 5).trapped) (by decide +kernel)⟩

/-- A well-formed instruction of each kind of core, and a word that decodes, of its length. -/
theorem witness_decodeEncodeAgree :
    ((Instr.lpSetup 1 5 10).wf = true ∧ (Instr.lpSetup 1 5 10).onCompute = true ∧ (Instr.bcNext 10 9 18).wf = true ∧ (Instr.bcNext 10 9 18).onDirector = true) ∧
      0x00A2908B < 2 ^ (8 * 4) ∧ parcelLen (0x00A2908B % 65536) = 4 ∧ decode false 4 0x00A2908B = .ok (.lpSetup 1 5 10) ∧
      decode true 4 0x0124857B = .ok (.bcNext 10 9 18) := by
  refine ⟨by decide +kernel, by decide, by decide +kernel, by rfl, by rfl⟩
/-- Director core 0 in U-mode, a thread of the partition: its translation maps 0x400000 to 0x10000, readable and not
writable where `ro`; memory there, one line of it poisoned. -/
def mst0 (ro : Bool := false) (pois : Bool := false) (sealed : Bool := false) : State :=
  { dbase true with
    dirs := [(0, { (dbase true).dir 0 with satp := (8 <<< 60) ||| (2 <<< 60) ||| 1, tlb := [⟨0x1000, 0x400000, 12, 0x10000, true, !ro, true, true, true⟩] })]
    parts := [(0, { clusters := [0], root := 0x1000, dcs := 1, ranges := [(0x10000, 0x10000)] })]
    mem := (List.range 64).map fun i => (0x10000 + i, BitVec.ofNat 8 (i + 7))
    memPoison := if pois then [(0x10000 / 64, true)] else []
    sealTable := if sealed then [(0x10000, 4096, false)] else [] }

/-- The state with a partition that owns nothing. -/
def poorOf (s : State) : State := { s with parts := s.parts.map fun q => (q.1, { q.2 with ranges := [] }) }

theorem part_mst0 : mst0.partOfDir 0 = some (0, { clusters := [0], root := 0x1000, dcs := 1, ranges := [(0x10000, 0x10000)] }) := by decide +kernel

/-- Bare and translated accesses, one refused, one of a poisoned line, one of a sealed region; the tables of Stagehouse. -/
theorem witness_directorMemory :
    let s := mst0
    let y : Symbols := { qtab := 0x900000, ptab := 0x800000, launch := 0x7000, reseed := 0x7100 }
    (Claims.plain s 0 0x40001C ∧ Claims.dirMaps s 0 0x40001C .read 0x1001C ∧ Claims.dirMaps s 0 0x40001C .write 0x1001C ∧ 0x1001C % 32 = 0x40001C % 32 ∧
      0x40001C % 32 + 4 ≤ 32 ∧ s.dirBuf = [] ∧ s.log = []) ∧
    Claims.dirMaps (dbase) 0 0x10000 .read 0x10000 ∧ KMap.get false (mst0 false true).memPoison (0x10000 / 64) = true ∧
    KMap.get false s.memPoison (0x10000 / 64) = false ∧ Claims.dirDenies (mst0 true) 0 0x400000 .write ∧
    Claims.dirDenies (poorOf (mst0)) 0 0x400000 .read ∧
    (∃ r ∈ (mst0 false false true).sealTable, r.1 ≤ 0x10000 ∧ 0x10000 < r.1 + r.2.1) ∧
    ({ dbase with symbols := some y }.symbols = some y ∧ ((dbase).dir 0).user = false ∧ 1023 < 1024 ∧ y.ptab.toNat + 73728 ≤ 2 ^ 64) := by
  refine ⟨⟨?_, .inr ⟨0x1000, ⟨0x1000, 0x400000, 12, 0x10000, true, true, true, true, true⟩, ?_⟩, .inr ⟨0x1000, ⟨0x1000, 0x400000, 12, 0x10000, true, true, true, true, true⟩, ?_⟩, ?_⟩,
    .inl ⟨?_, rfl⟩, ?_, ?_, ⟨0x1000, ⟨0x1000, 0x400000, 12, 0x10000, true, false, true, true, true⟩, ?_⟩,
    ⟨0x1000, ⟨0x1000, 0x400000, 12, 0x10000, true, true, true, true, true⟩, ?_⟩, ?_, ?_⟩
  · intro y h; rw [show mst0.symbols = none by decide +kernel] at h; cases h
  · refine ⟨by decide +kernel, .inl (by decide), by decide +kernel, rfl, by decide +kernel, by decide, fun _ q p h => ?_⟩
    rw [part_mst0] at h
    cases h
    exact ⟨(0x10000, 0x10000), by decide +kernel⟩
  · refine ⟨by decide +kernel, .inl (by decide), by decide +kernel, ⟨rfl, rfl⟩, by decide +kernel, by decide, fun _ q p h => ?_⟩
    rw [part_mst0] at h
    cases h
    exact ⟨(0x10000, 0x10000), by decide +kernel⟩
  · decide +kernel
  · decide +kernel
  · decide +kernel
  · decide +kernel
  · exact ⟨by decide +kernel, .inl (by decide), by decide +kernel, by decide +kernel, .inl fun h => absurd h.1 (by decide)⟩
  · exact ⟨by decide +kernel, .inl (by decide), by decide +kernel, by decide +kernel, .inr ⟨by decide +kernel, .inr ⟨0, _, rfl, by rintro ⟨r, h, -⟩; cases h⟩⟩⟩
  · exact ⟨(0x10000, 4096, false), by decide +kernel⟩
  · decide +kernel

/-- What holds of the default and of every entry holds of every lookup. -/
theorem get_all {α : Type} {d : α} {P : α → Prop} (hd : P d) : ∀ (m : KMap α), (∀ e ∈ m, P e.2) → ∀ n, P (KMap.get d m n)
  | [], _, _ => hd
  | (k, v) :: t, h, n => by
    rw [KMap.get]
    split
    · exact h _ (List.mem_cons_self ..)
    · exact get_all hd t (fun e he => h e (List.mem_cons_of_mem _ he)) n

/-- Tables whose live allocations lie apart, two of them in a bank, and a step. -/
theorem witness_stepKeepsAllocationsApart :
    let s := (code0 0x00A2908B).setCore 1 { alloc := [(0, al 0 2 3), (1, al 128 1 9)] }
    Claims.Apart s ∧ ∃ t, step s = .next t ∧ ((t.hart 5).instret == 1) = true := by
  refine ⟨⟨get_all (P := fun c : Core => Claims.apart c.alloc) ?_ _ ?_, get_all (P := fun k : Cluster => Claims.apart k.accAlloc) ?_ _ ?_⟩,
    next_of (fun t => (t.hart 5).instret == 1) (by decide +kernel)⟩
  all_goals unfold Claims.apart; decide +kernel

/-! ### Further witnesses: clauses at their boundaries -/

/-- An accumulator granule of another generation, where stale reads trap and where they do not. -/
theorem witness_matrixCells_stale :
    let s (gm : BitVec 2) : State := let s := ust (some (cfgv 1 4 4 64 3)) [(5, 0), (6, 1)]
      let s := s.setCluster 0 { s.cluster 0 with acc := (List.range 20).map fun i => (i, gr (if i = 3 then 4 else 5) false i) }
      s.setHart 5 { s.hart 5 with gmode := gm }
    let cfg := BitVec.ofNat 512 (cfgv 1 4 4 64 3)
    (Free (s 2) 5 ∧ ((s 2).hart 5).xUse 5) ∧ Claims.accStale (s 2) 5 0 128 96 ∧ Claims.accFresh (s 0) 5 0 128 ∧ Claims.accFresh (s 2) 5 0 64 ∧
    Claims.accReads (s 2) 5 0 64 ∧ Claims.idle (s 2) 5 ∧ (((s 2).hart 5).mxcfg = some cfg ∧ ¬ Claims.badCfg cfg ∧ Claims.vfld cfg 16 4 ≠ 0) ∧
    (((s 2).hart 5).xVal 6).toNat % 64 ≠ 0 := by
  have fresh {s : State} {len : Nat} (h : ∀ o, o < len → ∀ e ∈ covering (s.cluster 0).accAlloc o, (KMap.get {} (s.cluster 0).acc (o / 32)).tag = e.2.gen) :
      Claims.accFresh s 5 0 len := .inr fun o _ ho e he => h o (by omega) e he
  refine ⟨⟨?_, ?_⟩, ⟨?_, ?_, ?_, ?_, ⟨(0, al 0 1024 5), ?_, ?_⟩, fresh ?_⟩, .inl ?_, fresh ?_, .inr ?_, ?_, ⟨?_, ?_, ?_⟩, ?_⟩
  · unfold Free; decide +kernel
  · unfold Hart.xUse Hart.xReads; decide +kernel
  case refine_12 =>
    rintro o - ho
    refine ⟨(0, al 0 1024 5), ?_, ?_⟩ <;> revert o <;> decide +kernel
  all_goals first | decide +kernel | (unfold Claims.badCfg; decide +kernel) | (unfold Claims.idle; decide +kernel)

/-- hrctl: no append that waits, one with a full ring, one that fits; a size that is written and one that is not. -/
theorem witness_csrOnDirector_ring :
    let s (l : List Word) (hrhead : Nat) : State := let s := dbase false [(5, 2 ^ 32 * 4 + 2 ^ 16 * hrhead)]
      s.setDir 0 { s.dir 0 with appends := l, hrbase := 0x40000, hrsize := 5, hrtail := 15 }
    let f := Claims.CsrForm.w 5
    (FreeDir (s [] 0) 0 ∧ FreeDir (dbase true) 0 ∧ f.writes = true ∧ ((s [] 0).dir 0).appends = [] ∧ ((s [7] 3).dir 0).appends = 7 :: []) ∧
    (∀ h, h = 0 ∨ h = 3 → let c := (s [7] h).dir 0
      let v := f.new (BitVec.ofNat 64 (5 * 2 ^ 32 + 15)) ((f.reg.map c.getX).getD 0)
      Claims.fld v 32 5 = 4 ∧ Claims.fld v 16 16 = h ∧ ((15 + 1) % 2 ^ 4 = Claims.fld v 16 16 ↔ h = 0) ∧ c.hrbase.toNat % 8 = 0 ∧ c.hrtail = 15) ∧
    ((s [7] 3).log = [] ∧ (s [7] 3).dirBuf = []) := by
  unfold FreeDir; dsimp only; and_intros <;> try decide +kernel
  rintro h (rfl | rfl) <;> decide +kernel

/-- sl.pass: a block that is not aligned, one below every window, one in the own bank, with the session in and out of turn. -/
theorem witness_selectionUnit_order :
    let s (f : Session → Session) : State := sst 0 (some (sessn f))
    let on : Session → Session := fun x => { x with counted := true }
    let w (f : Session → Session) : State := let t := s f; t.setHart 5 { t.hart 5 with x := xs [(6, bnk + 256), (8, bnk + 129), (10, 256)] }
    (Free (w on) 5 ∧ Claims.opened (w on) 5 (sessn on) ∧ Claims.opened (w id) 5 (sessn id) ∧ (∀ r ∈ [6, 8, 10], ((w on).hart 5).xUse r)) ∧
    (sessn on).counted = true ∧ (sessn on).done = false ∧ (sessn id).counted = false ∧
    (((w on).hart 5).xVal 8).toNat % 128 ≠ 0 ∧ ((((w on).hart 5).xVal 10).toNat % 128 = 0 ∧ (((w on).hart 5).xVal 10).toNat < Claims.bankBase) ∧
    ((((w on).hart 5).xVal 6).toNat = Claims.bankBase + 256 ∧ Claims.ownSlot (w on) 5 256 128 ∧ Claims.covered (w on) 1 256 128 3 ∧ Claims.ownSlot (w id) 5 256 128 ∧
      Claims.covered (w id) 1 256 128 3) := by
  refine ⟨⟨?_, ?_, ?_, ?_⟩, ?_, ?_, ?_, ?_, ?_, ?_, ownSlot_of ?_, covered_of ?_, ownSlot_of ?_, covered_of ?_⟩
  · unfold Free; decide +kernel
  · unfold Claims.opened; decide +kernel
  · unfold Claims.opened; decide +kernel
  · unfold Hart.xUse Hart.xReads; decide +kernel
  all_goals decide +kernel

/-- A job whose export failed: its selection is decided. -/
theorem witness_selectionUnit_failed :
    let z := sessn fun x => { x with done := true, pre := 133 }
    let j : SelJob := { hart := 5, root := 0x1000, core := 1, words := [0x1234567800000001, 0, 0, 0], sess := some z, status := 3 }
    let s : State := let s := sst 0 none; s.setCluster 0 { s.cluster 0 with jobs := [j] }
    0 < Config.clusters ∧ (s.cluster 0).sess = none ∧ (s.cluster 0).jobs = j :: [] ∧ j.cfg = false ∧ (s.hart 5).q3.length ≤ 27 ∧
    (j.status ≠ 0 ∧ j.status ≠ 8 ∧ j.status < 256 ∧ j.pin = none ∧ j.sess = some z ∧ z.done = true) ∧
    (z.wabove < 2 ^ 64 ∧ z.above < 2 ^ 64 ∧ z.eq < 2 ^ 64 ∧ z.pre < 2 ^ Claims.imgBits z.rcd) := by decide +kernel

/-- A command whose decrement found zero, stopped before that or not. -/
theorem witness_copyEngineWork_under :
    let d (st : Nat) : CopyCmd := { cmd [1, bnk, bnk, 20] with finished := true, outDone := true, under := true, status := st }
    ∀ st, st = 0 ∨ st = 3 → ((est (d st)).cluster 0).copy = d st :: [] ∧ (d st).under = true ∧ (d st).slot = none ∧ (d st).dir = none ∧ (d st).pin = none ∧
      (d st).cover = [] ∧ (est (d st)).transit = [] ∧ Claims.inboxTakes (est (d st)) 5 := by
  unfold Claims.inboxTakes
  rintro d st (rfl | rfl) <;> decide +kernel

/-- A casting unit that runs; a hart that trapped twice with nothing outstanding. -/
theorem witness_sweepersAndHartActs_alone :
    let d : State := { State.reset.setHart 5 { run := .halted, trapped := true } with doubleTraps := [5] }
    State.reset.host.fatal = false ∧ (cast0 [] []).host.fatal = false ∧ (d.hart 5).net = none ∧ (d.hart 5).pending = [] ∧ (∀ p ∈ (d.hart 5).streams, p.2.pin = none) ∧
    Claims.unopened d 5 := by
  refine ⟨by decide, by decide +kernel, by decide +kernel, by decide +kernel, by decide +kernel, ?_⟩
  have hs : (({ State.reset.setHart 5 { run := .halted, trapped := true } with doubleTraps := [5] } : State).cluster 0).sess = none := by decide +kernel
  exact fun x h => absurd (hs ▸ h : none = some x) (by simp)

/-- A play in error with engine work accepted for it, and one without; a hold that falls with a state-3 entry of a run of ixdb. -/
theorem witness_playTable_work :
    let x : Play := { part := 0, acts := [], clusters := [0], error := some 7, pool := (0x10000, 3072) }
    let c : CopyCmd := { cmd [1, bnk, bnk, 20] with pin := some (5, 0x10040) }
    let s (l : List CopyCmd) : State := { pt [(3, en 1 2 1 0 70 5 0 1 1 0 0)] with plays := [(2, x)], clusters := [(0, { copy := l })] }
    (∀ l, l = [] ∨ l = [c] → (s l).plays.find? (fun q => q.1 == 2) = some (2, x) ∧ x.error ≠ none) ∧ Claims.working (s [c]) 2 x ∧ ¬ Claims.working (s []) 2 x ∧
    ({ s [] with dbg := { runs := [(70 * 2 ^ 32 + 5, [5])] } } : State).dbg.runs = [(Claims.eQueue (en 3 2 1 0 70 5 8 1 1 0 0) * 2 ^ 32 + Claims.ePos (en 3 2 1 0 70 5 8 1 1 0 0), [5])] := by
  refine ⟨by rintro l (rfl | rfl) <;> decide +kernel, .inl ⟨(0, { copy := _ }), List.mem_singleton.mpr rfl, .inl ⟨_, List.mem_singleton.mpr rfl, 5, 0x10040, rfl, by decide +kernel⟩⟩, ?_, by decide +kernel⟩
  rintro (⟨k, hk, h⟩ | ⟨k, hk, -⟩)
  · obtain rfl := List.mem_singleton.mp hk
    rcases h with ⟨_, h, -⟩ | ⟨_, h, -⟩ <;> cases h
  · cases hk

/-- Two queues that wait for each other: not noticed, noticed and not due, due. -/
theorem witness_playTable_cycle :
    let x : QSlot := ⟨70, [(0x40000010, 1)], false, 0⟩
    let y : QSlot := ⟨71, [(0x40000008, 1)], false, 0⟩
    let c (l : List (List Nat × Nat)) (t : Nat) : State := { pt [] (mb (qd 70 0xA00000 4 0 3 2 ++ qd 71 0xB00000 4 0 1 0 ++ ident ++
        [(0xA00020, 16, 2 + 2 ^ 64 * 0x40000100), (0xB00000, 16, 2 + 2 ^ 64 * 0x40000200)] ++ blk 0x40000100 0 0 0 0 0x40000010 1 0x40000008 0 ++
        blk 0x40000200 0 0 0 0 0x40000008 1 0x40000010 0 ++ [(0x40000008, 8, 5), (0x40000010, 8, 5)])) with
      qslots := [x, y], time := BitVec.ofNat 64 t, cycles := l }
    Claims.waitOnEach (c [] 0) 70 71 ∧ (∀ k ∈ (c [] 0).cycles, k.1 ≠ [70, 71]) ∧
    (∀ t, t = 100000006 ∨ t = 100000007 → Claims.waitOnEach (c [([70, 71], 7)] t) 70 71 ∧ (c [([70, 71], 7)] t).cycles = [([70, 71], 7)] ∧ (c [([70, 71], 7)] t).kept = [] ∧
      (7 + (c [] 0).waitTimeout ≤ (c [] t).time.toNat ↔ t = 100000007)) ∧
    (100000 ≤ 1000000000 ∧ ¬ 100000 ≤ 99999 ∧ 200 ≤ 20000 ∧ ¬ 200 ≤ 199) := by
  refine ⟨⟨⟨70, [(0x40000010, 1)], false, 0⟩, ⟨71, [(0x40000008, 1)], false, 0⟩, ?_⟩, by decide +kernel, ?_, by decide⟩
  · unfold Claims.signalsDown Claims.undelivered; decide +kernel
  · rintro t (rfl | rfl) <;> refine ⟨⟨⟨70, [(0x40000010, 1)], false, 0⟩, ⟨71, [(0x40000008, 1)], false, 0⟩, ?_⟩, by decide +kernel⟩ <;>
      (unfold Claims.signalsDown Claims.undelivered; decide +kernel)

/-- A launch whose pool lies in the partition's memory, and one whose pool does not. -/
theorem witness_schedulerThreads_pool :
    let t := ((lookJob part70 (1 + 2 ^ 64 * 0x40000100) : Look Job) (Claims.claimed launch0 70)).2
    let room := 3072 * (14 * (([0].map (· / 16)).eraseDups).length)
    (0x40010000 + room ≤ 2 ^ 64 ∧ (∀ i, i < 12 → (t.partPlace part70 (0x40010000 + 4096 * i) .write).1.isSome = true) ∧ room ≤ 4096 * 12 ∧ t.plays = []) ∧
    (¬ 2 ^ 64 - 64 + room ≤ 2 ^ 64) := by decide +kernel

/-- stg.launch of a wait-only packet that is ready, with room in the journal and none; a set that the core does not own;
stg.reseed of an entry of another core's set; a routine that runs. -/
theorem witness_schedulerThreads_calls :
    let y : Symbols := { qtab := 0x900000, ptab := 0x800000, launch := 0x7000, reseed := 0x7100 }
    let call (pc : Nat) (l : List (Nat × Nat)) (full : Bool) : State :=
      let s := pt [(0, en 0 0 0 0 0 0 0 0 0 0 0)] (mb (ident ++ blk 0x40000100 0 0 0 0 0 0 0x40000008 0 ++ [(0x40000300, 16, 2 + 2 ^ 64 * 0x40000100)]))
      let s := s.setQset 1 { s.qset 1 with jtail := if full then (s.qset 1).jlhead + BitVec.ofNat 32 (2 ^ (s.qset 1).jsize.toNat) else (s.qset 1).jlhead }
      { s.setDir 4 { s.dir 4 with x := l.map (fun p => (p.1, BitVec.ofNat 64 p.2)), pc := BitVec.ofNat 64 pc } with symbols := some y, targets := [(0, [5])] }
    let r := [(10, 1), (11, 70), (12, 5), (13, 0x40000300)]
    let ok (full : Bool) : Prop := ∃ b u, dirLoad 4 (((call 0x7000 r full).dir 4).getX 13).toNat 16 (call 0x7000 r full) = (.ok b, u) ∧
      ((u.parts.find? (fun p => p.2.queues.contains 70)).any (fun p => p.1 == 0 && p.2 == part70) && u.kept.isEmpty &&
        (let (j, v) := (lookJob part70 (Claims.number b % 2 ^ 128) : Look Job) u
        j.any (fun j => j.plan.isNone && !j.order && j.conds.isEmpty) && v.kept.isEmpty && !(v.qset 1).taking && Claims.eState (Claims.entryIs v 0) == 0 &&
          (if full then (((v.qset 1).jtail - (v.qset 1).jlhead).toNat == 2 ^ (v.qset 1).jsize.toNat)
           else decide (((v.qset 1).jtail - (v.qset 1).jlhead).toNat + 2 ≤ 2 ^ (v.qset 1).jsize.toNat)))) = true
    (∀ f, let s := call 0x7000 r f; s.symbols = some y ∧ (s.dir 4).user = false ∧ (s.dir 4).run = .active ∧ s.host.fatal = false ∧ (s.dir 4).pc = y.launch ∧
      ((s.dir 4).getX 10).toNat = 1 ∧ ((s.dir 4).getX 11).toNat = 70 ∧ ((s.dir 4).getX 12).toNat % 2 ^ 32 = 5 ∧ Claims.ownerOf s 1 = 4) ∧ ok true ∧ ok false ∧
    (let s := call 0x7000 [(10, 2)] false; ¬ (((s.dir 4).getX 10).toNat < 4 ∧ Claims.ownerOf s ((s.dir 4).getX 10).toNat = 4)) ∧
    (let s := call 0x7100 [] false; (s.dir 4).pc = y.reseed ∧ KMap.get [] s.targets 0 ≠ [] ∧ Claims.ownerOf s (Claims.eSet (Claims.entryIs s 0)) ≠ 4) := by
  refine ⟨by decide +kernel, ok2_of _ ?_, ok2_of _ ?_, by decide +kernel, by decide +kernel⟩ <;> decide +kernel

def rout : Routine :=
  { set := 1, failed := 4, ctx := { pc := 0x8000, x := [(5, 9)], f := [] }, user := true, frm := 1, fflags := 0, sstatus := 0x2000, sepc := 0, scause := 0, stval := 0
    sscratch := 0, sie := 0, satp := 0, scounteren := 0, senvcfg := 0, sip := 2, stvec := 0x100, fillSite := 17, fillShape := 0x201, trapped := false, resv := none }

theorem witness_schedulerThreads_routine :
    let s := pt []
    let d := s.standbyOf 1
    let r := s.setDir d { s.dir d with routine := some (rout, 0x9000) }
    (s.dir d).routine = none ∧ d < Config.directors ∧ (r.dir d).routine = some (rout, 0x9000) ∧ r.standbyOf 1 = d ∧ Claims.ownerOf s (70 / 64) = 4 ∧
    ((s.setDir 4 { s.dir 4 with routine := some (rout, 0x9000) }).dir 4).routine = some (rout, 0x9000) := by decide +kernel

/-- A partition that loses a core; a mailbox that is not served; a module that has failed. -/
theorem witness_services_cores :
    let p : Partition := { clusters := [0], root := 0x1000, ranges := [], queues := [], dcs := 16 }
    let s : State := { pt [] with parts := [(0, p)] }
    s.parts.find? (fun q => q.1 == 0) = some (0, p) ∧ p.dcs.getLsbD 4 = true ∧ (0 : BitVec 16).getLsbD 4 = false ∧ 4 < Config.directors ∧ s.plays = [] ∧
    (let m := mail0 1 []; { m with host := { m.host with ready := false } }.host.ready = false) ∧
    ({ State.reset with host := { State.reset.host with fatal := true } } : State).host.fatal = true := by decide +kernel

/-- Words of Stagehouse's memory and of a partition's; a stack provided, taken and not; a thread that call started; registers
bound to write streams; formats of an element. -/
theorem witness_debugger_more :
    let s := dbg0
    let q : State := { s with dbg := { s.dbg with threads := [0], queue := some 9 } }
    let b (c : Nat) : Hart := { s.hart 5 with streams := [(2, { ctl := BitVec.ofNat 64 (2 ^ 31 + 2 ^ 6 + c) })] }
    (Claims.stgWord s 0x8000000000 ∧ ¬ Claims.stgWord s 0x7FFFFFFFF8 ∧ ¬ Claims.stgWord s 0 ∧ ¬ Claims.stgWord s 0x8000000004) ∧
    ((∀ k ∈ s.threadStacks, k.1 = 0 → k.2.2 = true) ∧
      ({ s with threadStacks := [(0, 0x50000, true), (0, 0x60000, false)] }.threadStacks.find? (fun k => k.1 == 0 && !k.2.2) = some (0, 0x60000, false))) ∧
    (q.dbg.attached = true ∧ q.dbg.threads = [0] ∧ 0 < Config.directors ∧ q.dbg.queue = some 9 ∧ 9 ∉ (pdbg 7).queues) ∧
    (((b (2 ^ 5 + 2 ^ 16 * 13 + 4)).boundWrite true 4).map (fun p => (p.1, p.2.fmt, p.2.last.isNone)) = some (2, 13, true) ∧
      ((b 4).boundWrite false 4).map (fun p => (p.1, p.2.last.isNone)) = some (2, true)) ∧
    (∀ f : BitVec 5, f = 25 ∨ f = 9 → let k := f.toNat % 16; 1 ≤ k ∧ k ≤ 12 ∧ k ≠ 7 ∧ k ≠ 8) ∧ (∃ l, dbg0.dbgBytes (some 5) 0x40000604 (Claims.width 9 / 8) = some l) ∧
    (7 ∈ dbg0.dbg.breaks ∧ 8 ∉ dbg0.dbg.breaks ∧ (5, (dbg0.hart 5).pc) ∉ dbg0.dbg.skip) := by
  unfold Claims.stgWord
  refine ⟨by decide +kernel, by decide +kernel, by decide +kernel, by decide +kernel, by rintro f (rfl | rfl) <;> decide, Option.isSome_iff_exists.mp (by decide +kernel), by decide +kernel⟩

end Sys2Proof.Tests
end

section
/-!
The scalar control instructions (R129 to R137): targets, the R forms of custom-0, the loop sets and dead marking.
-/

namespace Sys2Proof.Machine

open Sys2Proof.Safety

theorem Free.solo {s : State} {n : Nat} (f : Free s n) : (s.hart n).role = .solo := f.2.2.2.1

/-! ### Choices -/

theorem ite_of_iff {α : Type} {p q : Prop} [Decidable p] [Decidable q] (h : p ↔ q) (a b : α) :
    (if p then a else b) = if q then a else b :=
  ite_congr (propext h) (fun _ => rfl) fun _ => rfl

theorem ite_ite_of_iff_or {α : Type} {p q r : Prop} [Decidable p] [Decidable q] [Decidable r] (h : r ↔ q ∨ p) (a b : α) :
    (if p then a else if q then a else b) = if r then a else b := by
  by_cases hp : p
  · rw [if_pos hp, if_pos (h.mpr (.inr hp))]
  · rw [if_neg hp, ite_of_iff (h.trans (or_iff_left hp))]

/-! ### Targets (R129) -/

theorem sxHalf_eq_half {k : Nat} (v : BitVec k) : sxHalf v = Claims.half v := by
  unfold sxHalf Claims.half
  rw [BitVec.shiftLeft_eq_mul_twoPow, BitVec.ofInt_mul]
  rfl

/-- Clearing bit 0 with a mask. -/
theorem and_not_one_eq_even (w : Word) : w &&& ~~~1#64 = Claims.even w := by
  have h : w &&& ~~~1#64 = (w >>> 1) <<< 1 := by
    ext i hi
    rcases i with _ | i
    · simp
    · simp only [BitVec.getElem_and, BitVec.getElem_not, BitVec.getElem_one, BitVec.getElem_shiftLeft]
      simp [BitVec.getLsbD_eq_getElem hi, Nat.add_comm 1 i]
  rw [h]
  apply BitVec.eq_of_toNat_eq
  simp [Claims.even, Nat.shiftRight_eq_div_pow, Nat.shiftLeft_eq]

theorem loopEnd_eq (pc : Word) (imm : BitVec 12) : loopEnd pc imm = Claims.loopEnd pc imm := by
  simp [loopEnd, Claims.loopEnd, BitVec.ofNat_add]

/-! ### The R forms of custom-0 (R46, R79) -/

theorem R32.ofNat_c0 (f7 : BitVec 7) (rd a b : Reg) :
    R32.ofNat (0x0B + 2 ^ 7 * rd.toNat + 2 ^ 15 * a.toNat + 2 ^ 20 * b.toNat + 2 ^ 25 * f7.toNat) = ⟨0x0B, rd, 0, a, b, f7⟩ := by
  have hrd := rd.isLt
  have ha := a.isLt
  have hb := b.isLt
  have hf := f7.isLt
  simp only [R32.ofNat, R32.mk.injEq]
  refine ⟨?_, ?_, ?_, ?_, ?_, ?_⟩ <;> apply BitVec.eq_of_toNat_eq <;> simp <;> omega

theorem decode_c0 (f7 : BitVec 7) (rd a b : Reg) :
    decode false 4 (0x0B + 2 ^ 7 * rd.toNat + 2 ^ 15 * a.toNat + 2 ^ 20 * b.toNat + 2 ^ 25 * f7.toNat) =
      accept false (c0 f7 rd a b) (candC0 ⟨0x0B, rd, 0, a, b, f7⟩) := by
  simp only [decode, R32.ofNat_c0]
  rfl

/-- What a compute core makes of a candidate it has: the candidate, or a reserved encoding. -/
theorem accept_compute {c : Code} {i : Instr} (ci : i.onCompute = true) :
    accept false c (some i) = if i.wf = true ∧ encode i = c then .ok i else .error .reserved := by
  simp [accept, ci]

theorem c0_inj {f7 : BitVec 7} {rd rd' a b a' b' : Reg} :
    c0 f7 rd a b = c0 f7 rd' a' b' ↔ rd = rd' ∧ a = a' ∧ b = b' := by
  simp [c0]

theorem decode_killX (rd a b : Reg) :
    decode false 4 (0x0B + 2 ^ 7 * rd.toNat + 2 ^ 15 * a.toNat + 2 ^ 20 * b.toNat + 2 ^ 25 * 2) =
      if rd = 0 ∧ a.toNat ≤ b.toNat then .ok (.killX a b) else .error .reserved := by
  refine (decode_c0 2 rd a b).trans ((accept_compute rfl).trans (ite_of_iff ?_ _ _))
  constructor
  · intro ⟨hw, (he : c0 2 0 a b = c0 2 rd a b)⟩
    exact ⟨(c0_inj.mp he).1.symm, of_decide_eq_true hw⟩
  · intro ⟨h0, hle⟩
    exact ⟨decide_eq_true hle, c0_inj.mpr ⟨h0.symm, rfl, rfl⟩⟩

theorem decode_killV (rd a b : Reg) :
    decode false 4 (0x0B + 2 ^ 7 * rd.toNat + 2 ^ 15 * a.toNat + 2 ^ 20 * b.toNat + 2 ^ 25 * 3) =
      if rd = 0 ∧ a.toNat ≤ b.toNat then .ok (.killV a b) else .error .reserved := by
  refine (decode_c0 3 rd a b).trans ((accept_compute rfl).trans (ite_of_iff ?_ _ _))
  constructor
  · intro ⟨hw, (he : c0 3 0 a b = c0 3 rd a b)⟩
    exact ⟨(c0_inj.mp he).1.symm, of_decide_eq_true hw⟩
  · intro ⟨h0, hle⟩
    exact ⟨decide_eq_true hle, c0_inj.mpr ⟨h0.symm, rfl, rfl⟩⟩

/-- The set number is bit 0 of rd, and the other bits of rd are reserved (R132). -/
theorem decode_lpOff (rd : Reg) :
    decode false 4 (0x0200000B + 2 ^ 7 * rd.toNat) =
      if rd.toNat < 2 then .ok (.lpOff (BitVec.ofNat 1 rd.toNat)) else .error .reserved := by
  have hset : bitAt rd 0 = BitVec.ofNat 1 rd.toNat := by
    apply BitVec.eq_of_toNat_eq
    simp [bitAt]
  have hrd : (0 : BitVec 4) ++ bitAt rd 0 = rd ↔ rd.toNat < 2 := by
    revert rd
    decide
  have hword : 0x0200000B + 2 ^ 7 * rd.toNat =
      0x0B + 2 ^ 7 * rd.toNat + 2 ^ 15 * (0 : Reg).toNat + 2 ^ 20 * (0 : Reg).toNat + 2 ^ 25 * (1 : BitVec 7).toNat := by
    simp
    omega
  rw [hword, ← hset]
  refine (decode_c0 1 rd 0 0).trans ((accept_compute rfl).trans (ite_of_iff ?_ _ _))
  constructor
  · intro ⟨_, (he : c0 1 ((0 : BitVec 4) ++ bitAt rd 0) 0 0 = c0 1 rd 0 0)⟩
    exact hrd.mp (c0_inj.mp he).1
  · intro hlt
    exact ⟨rfl, c0_inj.mpr ⟨hrd.mpr hlt, rfl, rfl⟩⟩

/-! ### The evaluation of the loop sets (R133) -/

theorem ends_iff {l : LoopSet} {k : Nat} {next : Word} {skip : Option Nat} :
    Claims.ends l k next skip = true ↔ skip ≠ some k ∧ l.lpc ≠ 0 ∧ next = l.lpe := by
  simp only [Claims.ends, Bool.and_eq_true, bne_iff_ne, beq_iff_eq]
  exact and_comm

/-- What the evaluation of one set finds: the instruction does not end at it, ends its last iteration, or ends an iteration
with more to come. -/
theorem loopSet_cases (l : LoopSet) (k : Nat) (next : Word) (skip : Option Nat) :
    (¬ Claims.ends l k next skip = true ∧ ¬ Claims.backs l k next skip = true ∧ Claims.counted l k next skip = l) ∨
    (Claims.ends l k next skip = true ∧ l.lpc = 1 ∧ ¬ Claims.backs l k next skip = true ∧
      Claims.counted l k next skip = { l with lpc := 0 }) ∨
    (Claims.ends l k next skip = true ∧ l.lpc ≠ 1 ∧ Claims.backs l k next skip = true ∧
      Claims.counted l k next skip = { l with lpc := l.lpc - 1 }) := by
  by_cases he : Claims.ends l k next skip = true
  · by_cases h1 : l.lpc = 1
    · exact .inr (.inl ⟨he, h1, by simp [Claims.backs, h1], by simp [Claims.counted, he, h1]⟩)
    · have h0 : l.lpc ≠ 0 := (ends_iff.mp he).2.1
      have hlt : 1 < l.lpc.toNat := by bv_omega
      exact .inr (.inr ⟨he, h1, by simp [Claims.backs, he, hlt], by simp [Claims.counted, he]⟩)
  · exact .inl ⟨he, by simp [Claims.backs, he], by simp [Claims.counted, he]⟩

/-- Set 1 before set 0: set 0 is looked at only where set 1 does not loop back. -/
theorem Hart.evalLoops_eq (h : Hart) (len : Nat) (skip : Option Nat) {next : Word} (hn : h.pc + BitVec.ofNat 64 len = next) :
    h.evalLoops len skip =
      if Claims.backs h.lp1 1 next skip = true then { h with lp1 := Claims.counted h.lp1 1 next skip, pc := h.lp1.lps }
      else { h with
        lp0 := Claims.counted h.lp0 0 next skip
        lp1 := Claims.counted h.lp1 1 next skip
        pc := if Claims.backs h.lp0 0 next skip = true then h.lp0.lps else next } := by
  simp only [Hart.evalLoops, hn, ← ends_iff]
  obtain ⟨e1, b1, c1⟩ | ⟨e1, o1, b1, c1⟩ | ⟨e1, o1, b1, c1⟩ := loopSet_cases h.lp1 1 next skip
  · obtain ⟨e0, b0, c0⟩ | ⟨e0, o0, b0, c0⟩ | ⟨e0, o0, b0, c0⟩ := loopSet_cases h.lp0 0 next skip
    · simp only [if_neg e1, if_neg b1, c1, if_neg e0, if_neg b0, c0]
    · simp only [if_neg e1, if_neg b1, c1, if_pos e0, if_pos o0, if_neg b0, c0]
    · simp only [if_neg e1, if_neg b1, c1, if_pos e0, if_neg o0, if_pos b0, c0]
  · obtain ⟨e0, b0, c0⟩ | ⟨e0, o0, b0, c0⟩ | ⟨e0, o0, b0, c0⟩ := loopSet_cases h.lp0 0 next skip
    · simp only [if_pos e1, if_pos o1, if_neg b1, c1, if_neg e0, if_neg b0, c0]
    · simp only [if_pos e1, if_pos o1, if_neg b1, c1, if_pos e0, if_pos o0, if_neg b0, c0]
    · simp only [if_pos e1, if_pos o1, if_neg b1, c1, if_pos e0, if_neg o0, if_pos b0, c0]
  · simp only [if_pos e1, if_neg o1, if_pos b1, c1]

theorem nextPc : Claims.NextPc := by
  intro h i next after
  refine ⟨fun t => rfl, fun skip => ⟨fun h1 => ?_, fun h1 h0 => ?_, fun h1 h0 => ?_⟩⟩ <;>
    simp [Hart.retire, Hart.evalLoops_eq _ _ _ rfl, next, after, *]

/-! ### Arming a loop set and taking it off (R131, R132) -/

/-- A choice between the sets may ask for set 1 first or for set 0. -/
theorem ite_set_one {α : Type} (k : BitVec 1) (a b : α) : (if k = 1#1 then a else b) = if k = 0#1 then b else a := by
  rcases BitVec.eq_zero_or_eq_one k with rfl | rfl <;> rfl

theorem arm_run (s : State) (n : Nat) (k : BitVec 1) (count fin : Word) :
    arm n k count fin s = (.ok (Claims.afterArm k count fin), Claims.armed s n k count fin) := by
  simp [arm, Claims.afterArm, Claims.armed, Hart.setLoop, ite_set_one]

/-- A change of loop sets alone leaves the hart's place in a chorus. -/
theorem armed_role (s : State) (n : Nat) (k : BitVec 1) (count fin : Word) :
    ((Claims.armed s n k count fin).hart n).role = (s.hart n).role := by
  unfold Claims.armed
  split <;> simp

/-- An arming instruction of a free hart, from the count and the end its body has worked out. -/
theorem compute_arms {s : State} {n : Nat} {i : Instr} {body : Nat → Ins Ctl} {k : BitVec 1} {count fin : Word} (f : Free s n)
    (ci : i.onCompute = true) (e : body n s = arm n k count fin s) :
    runCompute i body s = .next ((Claims.armed s n k count fin).done n i (Claims.afterArm k count fin)) :=
  compute_done f ci (e.trans (arm_run s n k count fin)) ((armed_role s n k count fin).trans (Free.solo f))

theorem exec_lpOff {s : State} {n : Nat} (f : Free s n) (k : BitVec 1) :
    exec (.lpOff k) s = .next ((s.setHart n (if k = 0 then { s.hart n with lp0 := { (s.hart n).lp0 with lpc := 0 } }
      else { s.hart n with lp1 := { (s.hart n).lp1 with lpc := 0 } })).done n (.lpOff k) (.seq none)) := by
  refine compute_done f rfl (by simp [ite_set_one]) ?_
  split <;> simpa using Free.solo f

theorem loopSets : Claims.LoopSets := by
  intro s n k f h
  have u : h.Unbound := Free.unbound f
  refine ⟨fun rc re hc he => ?_, fun rc imm hc => ?_, fun cnt imm => ?_, exec_lpOff f k, decode_lpOff⟩
  · exact compute_arms f rfl (by simp [useX2_run u hc he, ← and_not_one_eq_even, h])
  · exact compute_arms f rfl (by simp [useX_run u hc, loopEnd_eq, h])
  · exact compute_arms f rfl (by simp [loopEnd_eq, h])

/-- Settles O40: the evaluation of the sets follows `loopSet_cases`, set 1 first; each arming form is `arm` of a count and an
end. -/
theorem loopsAndNextPc : Obligations.LoopsAndNextPc := ⟨nextPc, loopSets⟩

/-! ### Marking registers dead (R135) -/

/-- The x registers after `q` is marked; x0 and registers of the other files leave them. -/
def markX (m : KMap XReg) : RegId → KMap XReg
  | .x r => if r = 0 then m else KMap.set {} m r.toNat {}
  | _ => m

/-- The v registers after `q` is marked. -/
def markV (m : KMap VReg) : RegId → KMap VReg
  | .v r => KMap.set {} m r.toNat {}
  | _ => m

/-- Marking changes x and v registers and nothing else. -/
theorem Hart.kill_eq (rs : List RegId) : ∀ h : Hart, h.kill rs = { h with x := rs.foldl markX h.x, v := rs.foldl markV h.v } := by
  induction rs with
  | nil => exact fun h => rfl
  | cons q rs ih =>
    intro h
    have step : h.kill (q :: rs) = Hart.kill { h with x := markX h.x q, v := markV h.v q } rs := by
      rw [Hart.kill, List.foldl_cons, Hart.kill]
      congr 1
      cases q with
      | x r => by_cases h0 : r = 0 <;> simp only [if_pos, if_neg, h0, not_false_eq_true, markX, markV, Hart.killX]
      | v r => simp only [markX, markV, Hart.killV]
      | m r => simp only [markX, markV]
    rw [step, ih]
    simp only [List.foldl_cons]

theorem Hart.kill_frame (h : Hart) (rs : List RegId) : h.kill rs = { h with x := (h.kill rs).x, v := (h.kill rs).v } := by
  rw [Hart.kill_eq]

theorem get_markX (m : KMap XReg) (q : RegId) (r : Nat) :
    KMap.get {} (markX m q) r = if r ≠ 0 ∧ ∃ a : Reg, q = .x a ∧ a.toNat = r then {} else KMap.get {} m r := by
  cases q with
  | x a =>
    have hx : (∃ b : Reg, RegId.x a = .x b ∧ b.toNat = r) ↔ r = a.toNat := by simp [eq_comm]
    rw [ite_of_iff (and_congr_right fun _ => hx)]
    by_cases h0 : a = 0
    · subst h0
      have hr : ¬ (r ≠ 0 ∧ r = (0 : Reg).toNat) := fun ⟨hr, e⟩ => hr e
      rw [if_neg hr, markX, if_pos rfl]
    · have ha : r = a.toNat → r ≠ 0 := fun e hr => h0 (BitVec.eq_of_toNat_eq (e.symm.trans hr))
      rw [markX, if_neg h0, KMap.get_set, ite_of_iff (and_iff_right_of_imp ha)]
  | v a => simp [markX]
  | m a => simp [markX]

theorem get_markV (m : KMap VReg) (q : RegId) (r : Nat) :
    KMap.get {} (markV m q) r = if ∃ a : Reg, q = .v a ∧ a.toNat = r then {} else KMap.get {} m r := by
  cases q with
  | x a => simp [markV]
  | v a => rw [markV, KMap.get_set]; exact ite_of_iff (by simp [eq_comm]) _ _
  | m a => simp [markV]

/-- An x register reads dead after the marking if the list names it and it is not x0, and else as before. -/
theorem get_foldl_markX (rs : List RegId) (r : Nat) : ∀ m : KMap XReg, KMap.get {} (rs.foldl markX m) r =
    if r ≠ 0 ∧ ∃ a : Reg, .x a ∈ rs ∧ a.toNat = r then {} else KMap.get {} m r := by
  induction rs with
  | nil => simp
  | cons q rs ih =>
    intro m
    rw [List.foldl_cons, ih, get_markX]
    apply ite_ite_of_iff_or
    simp only [List.mem_cons, or_and_right, exists_or, and_or_left, @eq_comm _ q]

theorem get_foldl_markV (rs : List RegId) (r : Nat) : ∀ m : KMap VReg, KMap.get {} (rs.foldl markV m) r =
    if ∃ a : Reg, .v a ∈ rs ∧ a.toNat = r then {} else KMap.get {} m r := by
  induction rs with
  | nil => simp
  | cons q rs ih =>
    intro m
    rw [List.foldl_cons, ih, get_markV]
    apply ite_ite_of_iff_or
    simp only [List.mem_cons, or_and_right, exists_or, @eq_comm _ q]

theorem foldl_eq_of_fixed {α β : Type} {f : α → β → α} {a : α} {l : List β} (h : ∀ b ∈ l, f a b = a) : l.foldl f a = a := by
  induction l with
  | nil => rfl
  | cons b l ih => rw [List.foldl_cons, h b List.mem_cons_self, ih fun c hc => h c (List.mem_cons_of_mem _ hc)]

theorem foldl_markX_of_none {rs : List RegId} (h : ∀ a, .x a ∉ rs) (m : KMap XReg) : rs.foldl markX m = m :=
  foldl_eq_of_fixed fun q hq => match q with
    | .x a => absurd hq (h a)
    | .v _ | .m _ => rfl

theorem foldl_markV_of_none {rs : List RegId} (h : ∀ a, .v a ∉ rs) (m : KMap VReg) : rs.foldl markV m = m :=
  foldl_eq_of_fixed fun q hq => match q with
    | .v a => absurd hq (h a)
    | .x _ | .m _ => rfl

theorem Hart.kill_frame_x {rs : List RegId} (hv : ∀ a, .v a ∉ rs) (h : Hart) : h.kill rs = { h with x := (h.kill rs).x } := by
  simp only [Hart.kill_eq, foldl_markV_of_none hv]

theorem Hart.kill_frame_v {rs : List RegId} (hx : ∀ a, .x a ∉ rs) (h : Hart) : h.kill rs = { h with v := (h.kill rs).v } := by
  simp only [Hart.kill_eq, foldl_markX_of_none hx]

theorem Hart.kill_streams (h : Hart) (rs : List RegId) : (h.kill rs).streams = h.streams := by rw [Hart.kill_eq]
theorem Hart.kill_role (h : Hart) (rs : List RegId) : (h.kill rs).role = h.role := by rw [Hart.kill_eq]

/-- Between `h` and `h'` the x registers of `p` became dead, x0 never, and the others stayed (R135). -/
def MarksX (h h' : Hart) (p : Nat → Prop) : Prop := ∀ r,
  (p r → r ≠ 0 → Claims.deadX (KMap.get {} h'.x r)) ∧ (¬ p r ∨ r = 0 → KMap.get {} h'.x r = KMap.get {} h.x r)

/-- The same of the v registers. -/
def MarksV (h h' : Hart) (p : Nat → Prop) : Prop := ∀ r,
  (p r → Claims.deadV (KMap.get {} h'.v r)) ∧ (¬ p r → KMap.get {} h'.v r = KMap.get {} h.v r)

theorem Hart.kill_marksX (h : Hart) {rs : List RegId} {p : Nat → Prop} (hp : ∀ r, (∃ a : Reg, .x a ∈ rs ∧ a.toNat = r) ↔ p r) :
    MarksX h (h.kill rs) p := by
  intro r
  simp only [Hart.kill_eq, get_foldl_markX]
  refine ⟨fun h1 h0 => ?_, fun h1 => if_neg fun ⟨h0, h2⟩ => h1.elim (· ((hp r).mp h2)) h0⟩
  rw [if_pos ⟨h0, (hp r).mpr h1⟩]
  exact ⟨rfl, rfl⟩

theorem Hart.kill_marksV (h : Hart) {rs : List RegId} {p : Nat → Prop} (hp : ∀ r, (∃ a : Reg, .v a ∈ rs ∧ a.toNat = r) ↔ p r) :
    MarksV h (h.kill rs) p := by
  intro r
  simp only [Hart.kill_eq, get_foldl_markV]
  refine ⟨fun h1 => ?_, fun h1 => if_neg (mt (hp r).mp h1)⟩
  rw [if_pos ((hp r).mpr h1)]
  exact ⟨rfl, rfl, rfl⟩

/-! ### The registers a form marks (R136, R137) -/

/-- Ranging over the register numbers and over the registers is the same. -/
theorem exists_reg_iff {p : Nat → Prop} {r : Nat} :
    (∃ q : Reg, (∃ k, k < 32 ∧ p k ∧ BitVec.ofNat 5 k = q) ∧ q.toNat = r) ↔ r < 32 ∧ p r := by
  constructor
  · rintro ⟨_, ⟨k, hk, hp, rfl⟩, rfl⟩
    rw [BitVec.toNat_ofNat, Nat.mod_eq_of_lt hk]
    exact ⟨hk, hp⟩
  · rintro ⟨hr, hp⟩
    exact ⟨BitVec.ofNat 5 r, ⟨r, hr, hp, rfl⟩, by rw [BitVec.toNat_ofNat, Nat.mod_eq_of_lt hr]⟩

theorem between_iff (a b : Reg) (r : Nat) : r < 32 ∧ a.toNat ≤ r ∧ r ≤ b.toNat ↔ a.toNat ≤ r ∧ r ≤ b.toNat := by
  have := b.isLt
  omega

theorem marked_killX_x (a b : Reg) (m : Word) (r : Nat) :
    (∃ q : Reg, .x q ∈ marked (.killX a b) m ∧ q.toNat = r) ↔ a.toNat ≤ r ∧ r ≤ b.toNat := by
  rw [← between_iff]
  simp only [marked, List.mem_map, List.mem_filterMap, List.mem_range, Option.ite_none_right_eq_some, Option.some.injEq,
    RegId.x.injEq, exists_eq_right]
  exact exists_reg_iff

theorem marked_killX_v (a b q : Reg) (m : Word) : .v q ∉ marked (.killX a b) m := by simp [marked]

theorem marked_killV_v (a b : Reg) (m : Word) (r : Nat) :
    (∃ q : Reg, .v q ∈ marked (.killV a b) m ∧ q.toNat = r) ↔ a.toNat ≤ r ∧ r ≤ b.toNat := by
  rw [← between_iff]
  simp only [marked, List.mem_map, List.mem_filterMap, List.mem_range, Option.ite_none_right_eq_some, Option.some.injEq,
    RegId.v.injEq, exists_eq_right]
  exact exists_reg_iff

theorem marked_killV_x (a b q : Reg) (m : Word) : .x q ∉ marked (.killV a b) m := by simp [marked]

theorem marked_jalD_x (rd : Reg) (off : BitVec 17) (m : Word) (r : Nat) :
    (∃ q : Reg, .x q ∈ marked (.jalD rd off) m ∧ q.toNat = r) ↔ r < 32 ∧ m.getLsbD r = true := by
  simp only [marked, List.mem_append, List.mem_filterMap, List.mem_range, Option.ite_none_right_eq_some, Option.some.injEq,
    RegId.x.injEq, reduceCtorEq, and_false, exists_const, or_false]
  exact exists_reg_iff

theorem marked_jalD_v (rd : Reg) (off : BitVec 17) (m : Word) (r : Nat) :
    (∃ q : Reg, .v q ∈ marked (.jalD rd off) m ∧ q.toNat = r) ↔ r < 32 ∧ m.getLsbD (32 + r) = true := by
  simp only [marked, List.mem_append, List.mem_filterMap, List.mem_range, Option.ite_none_right_eq_some, Option.some.injEq,
    RegId.v.injEq, reduceCtorEq, and_false, exists_const, false_or]
  exact exists_reg_iff

/-! ### The forms that mark (R136, R137) -/

/-- A form whose body marks the registers of a list and goes on. -/
theorem compute_kills {s : State} {n : Nat} {i : Instr} {body : Nat → Ins Ctl} {rs : List RegId} (f : Free s n)
    (ci : i.onCompute = true) (e : body n s = (.ok (.seq none), s.setHart n ((s.hart n).kill rs))) :
    runCompute i body s = .next ((s.setHart n ((s.hart n).kill rs)).done n i (.seq none)) :=
  compute_done f ci e (by simpa [Hart.kill_role] using Free.solo f)

/-- The hart with the registers that dmask names marked. -/
def Hart.killMasked (h : Hart) : Hart := h.kill (marked (.jalD 0 0) h.dmask)

theorem linkDead_run {s : State} {n : Nat} (u : (s.hart n).Unbound) (rd : Reg) (t : Word) : linkDead n rd t s =
    (.ok (.jump t), (s.setHart n (s.hart n).killMasked).setX n rd ((s.hart n).pc + 4) false) := by
  have u' : ((s.setHart n (s.hart n).killMasked).hart n).Unbound := by
    simpa [Hart.Unbound, Hart.killMasked, Hart.kill_streams] using u
  have e : (s.hart n).kill (marked (.jalD rd 0#17) (s.hart n).dmask) = (s.hart n).killMasked := rfl
  simp [linkDead, e, writeX_run u']

/-- A jump with dead marking: the marking, then the link, then the jump. -/
theorem compute_links {s : State} {n : Nat} {i : Instr} {body : Nat → Ins Ctl} {rd : Reg} {t : Word} (f : Free s n)
    (ci : i.onCompute = true) (e : body n s = linkDead n rd t s) :
    runCompute i body s =
      .next (((s.setHart n (s.hart n).killMasked).setX n rd ((s.hart n).pc + 4) false).done n i (.jump t)) := by
  apply compute_done f ci (e.trans (linkDead_run (Free.unbound f) rd t))
  rw [rolesKept_setX]
  simpa [Hart.killMasked, Hart.kill_role] using Free.solo f

/-- Settles O2: each form is the marking of a list of registers (`Hart.kill_marksX`, `Hart.kill_marksV`), and the list of
each form holds exactly the registers it names. -/
theorem deadMarking : Obligations.DeadMarking := by
  intro s n f h xs vs byMask
  have u : h.Unbound := Free.unbound f
  have hmask : byMask h.killMasked :=
    ⟨h.kill_marksX (marked_jalD_x 0 0 h.dmask), h.kill_marksV (marked_jalD_v 0 0 h.dmask), h.kill_frame _⟩
  refine ⟨fun a b => ?_, fun a b => ?_, fun rd off => ?_, fun rd rs1 off h1 => ?_, fun rd a b =>
    ⟨decode_killX rd a b, decode_killV rd a b⟩⟩
  · exact ⟨h.kill (marked (.killX a b) 0), compute_kills f rfl (by simp), h.kill_marksX (marked_killX_x a b 0),
      h.kill_frame_x fun q => marked_killX_v a b q 0⟩
  · exact ⟨h.kill (marked (.killV a b) 0), compute_kills f rfl (by simp), h.kill_marksV (marked_killV_v a b 0),
      h.kill_frame_v fun q => marked_killV_x a b q 0⟩
  · exact ⟨h.killMasked, hmask, compute_links f rfl (by simp [sxHalf_eq_half, h])⟩
  · exact ⟨h.killMasked, hmask, compute_links f rfl (by simp [useX_run u h1, ← and_not_one_eq_even, h]; rfl)⟩

end Sys2Proof.Machine
end

section
/-!
What the instructions of a director core are built from (R373 to R400): bytes and numbers, the core's registers, exceptions
and waits, and what loads leave of the director cores.
-/

namespace Sys2Proof.Machine

open Sys2Proof.Safety

/-! ### Numbers and their bytes -/

theorem leNat_eq_number (l : List Byte) : leNat l = Claims.number l := by
  induction l with
  | nil => rfl
  | cons b t ih => rw [leNat, Claims.number, ih]

theorem leBytes_eq_bytes (k : Nat) : ∀ v, leBytes k v = Claims.bytes k v := by
  induction k with
  | zero => exact fun _ => rfl
  | succ k ih =>
    intro v
    rw [leBytes, ih, Claims.bytes, Claims.bytes, List.range_succ_eq_map, List.map_cons, List.map_map, Nat.pow_zero, Nat.div_one]
    congr 2
    funext i
    rw [Function.comp_apply, Nat.succ_eq_add_one, Nat.pow_succ', Nat.div_div_eq_div_mul]

/-! ### Actions of a director core -/

theorem excIf_run (b : Bool) (c v : Nat) (s : State) : excIf b c v s = if b then (.error (.exc c v), s) else (.ok (), s) := by
  cases b <;> rfl
theorem excIf_run_of {b : Bool} (h : b = true) (c v : Nat) (s : State) : excIf b c v s = (.error (.exc c v), s) := by
  rw [h]; rfl
theorem excIf_run_not {b : Bool} (h : b = false) (c v : Nat) (s : State) : excIf b c v s = (.ok (), s) := by
  rw [h]; rfl
@[simp] theorem dGet_run (d : Nat) (r : Reg) (s : State) : dGet d r s = (.ok ((s.dir d).getX r), s) := rfl
@[simp] theorem dPut_run (d : Nat) (r : Reg) (v : Word) (s : State) : dPut d r v s = (.ok (), s.setDirX d r v) := rfl
@[simp] theorem refreshAt_run (a : Agent) (k : Nat) (s : State) : refreshAt a k s = (.ok (), s.refresh a k) := rfl

theorem tryCatch_run {α : Type} (x : Ins α) (f : Stop → Ins α) (s : State) :
    (tryCatch x f : Ins α) s = match (x s).1 with
      | .ok a => (.ok a, (x s).2)
      | .error e => f e (x s).2 := by
  show (ExceptT.tryCatch x f : Ins α) s = _
  unfold ExceptT.tryCatch ExceptT.mk
  show (StateT.bind x _ : StateM State _) s = _
  unfold StateT.bind
  rcases h : x s with ⟨a | a, t⟩ <;> rfl

/-- A load of a number. -/
theorem dLoad_run {s t : State} {d a len v : Nat} (h : Claims.dirLoads s d a len v t) : dLoad d a len s = (.ok v, t) := by
  obtain ⟨bs, e, rfl⟩ := h
  simp [dLoad, e, leNat_eq_number]

theorem dLoad_error {s t : State} {d a len : Nat} {e : Stop} (h : dirLoad d a len s = (.error e, t)) :
    dLoad d a len s = (.error e, t) := by
  simp [dLoad, h]

/-- An instruction that ends in an exception: it is taken with the pc of the instruction (R376). -/
theorem director_exc {s t : State} {d : Nat} {i : Instr} {body : Nat → Ins Ctl} {c v : Nat} (f : FreeDir s d)
    (ci : i.onDirector = true) (e : body d s = (.error (.exc c v), t)) :
    runDirector i body s = .next (t.takeExc d c v (s.dir d).pc) := by
  rw [runDirector_dir f, runDir_exc ci e]

/-- An instruction that waits leaves the state. -/
theorem director_stall {s t : State} {d : Nat} {i : Instr} {body : Nat → Ins Ctl} (f : FreeDir s d)
    (ci : i.onDirector = true) (e : body d s = (.error .stall, t)) : runDirector i body s = .next s := by
  rw [runDirector_dir f]
  simp [runDir, ci, e]

/-! ### What loads leave of the director cores -/

/-- A director core without what loads move: its translations and its view. -/
def Dir.apart (c : Dir) : Dir := { c with tlb := [], view := [] }

/-- Every director core is as it was, less what loads move. -/
def DirsKept (s t : State) : Prop := ∀ e, (t.dir e).apart = (s.dir e).apart

theorem DirsKept.refl (s : State) : DirsKept s s := fun _ => rfl
theorem DirsKept.trans {s t u : State} (a : DirsKept s t) (b : DirsKept t u) : DirsKept s u := fun e => (b e).trans (a e)
theorem DirsKept.of_dirs {s t : State} (h : t.dirs = s.dirs) : DirsKept s t := fun e => by simp [State.dir, h]
theorem DirsKept.of_setDir {s : State} {d : Nat} {c : Dir} (h : c.apart = (s.dir d).apart) : DirsKept s (s.setDir d c) := by
  intro e
  rw [State.setDir_dir]
  split
  · next k => rw [k, h]
  · rfl

section
variable {s t : State} (k : DirsKept s t) (d : Nat)
include k
theorem DirsKept.x : (t.dir d).x = (s.dir d).x := by
  have e := congrArg Dir.x (k d)
  exact e
theorem DirsKept.pc : (t.dir d).pc = (s.dir d).pc := by
  have e := congrArg Dir.pc (k d)
  exact e
theorem DirsKept.user : (t.dir d).user = (s.dir d).user := by
  have e := congrArg Dir.user (k d)
  exact e
theorem DirsKept.sepc : (t.dir d).sepc = (s.dir d).sepc := by
  have e := congrArg Dir.sepc (k d)
  exact e
theorem DirsKept.getX (r : Reg) : (t.dir d).getX r = (s.dir d).getX r := by rw [Dir.getX, k.x, Dir.getX]
end

theorem choose_dirs (s : State) (n : Nat) : (s.choose n).2.dirs = s.dirs := by unfold State.choose; split <;> rfl

theorem engineGran_dirs (s : State) (w : Writer) (loc : Nat) : (s.engineGran w loc).2.dirs = s.dirs := by
  unfold State.engineGran; exact choose_dirs _ _

theorem readPte_dirs (s : State) (pa : Nat) : (s.readPte pa).2.dirs = s.dirs := by
  have e := engineGran_dirs s .host (locMem (pa / 32))
  unfold State.readPte
  exact e

theorem walk_dirs (l : Nat) : ∀ (s : State) (t v : Nat), (walk l s t v).2.dirs = s.dirs := by
  induction l with
  | zero =>
    intro s t v
    have e := readPte_dirs s (t + 8 * (v / 2 ^ (12 + 9 * 0) % 512))
    unfold walk
    dsimp only
    split <;> exact e
  | succ l ih =>
    intro s t v
    have e := readPte_dirs s (t + 8 * (v / 2 ^ (12 + 9 * (l + 1)) % 512))
    unfold walk
    dsimp only
    split
    · exact e
    · rw [ih, e]
    · exact e

theorem tlbPut_dirs (s : State) (t : List TlbEntry) (c : Nat) (e : TlbEntry) : (s.tlbPut t c e).2.dirs = s.dirs := by
  unfold State.tlbPut
  split
  · rfl
  · exact choose_dirs _ _

theorem dirTranslate_kept (s : State) (d va : Nat) (k : Acc) : DirsKept s (s.dirTranslate d va k).2 := by
  unfold State.dirTranslate
  dsimp only
  split
  · exact DirsKept.refl s
  · split
    · exact DirsKept.refl s
    · next root _ =>
      have hw := walk_dirs 4 s root.toNat (va57 va)
      split
      · exact DirsKept.refl s
      · split
        · exact DirsKept.refl s
        · split
          · exact .of_dirs hw
          · split
            · exact DirsKept.trans (.of_dirs ((tlbPut_dirs _ _ _ _).trans hw)) (.of_setDir rfl)
            · exact .of_dirs hw

theorem loadGran_dirs_kept (s : State) (d loc : Nat) : DirsKept s (s.loadGran (.dir d) loc).2 := by
  unfold State.loadGran
  dsimp only
  split
  · exact DirsKept.refl s
  · exact DirsKept.trans (.of_dirs (choose_dirs _ _)) (.of_setDir rfl)

theorem Ins.Keeps.of_run {R : State → State → Prop} {α : Type} {x : Ins α} {s t : State} {r : Except Stop α} (h : Ins.Keeps R x)
    (e : x s = (r, t)) : R s t := by
  have k := h s
  rwa [e] at k

theorem DirsKept.bind {α β : Type} {x : Ins α} {f : α → Ins β} (hx : Ins.Keeps DirsKept x)
    (hf : ∀ a, Ins.Keeps DirsKept (f a)) : Ins.Keeps DirsKept (x >>= f) :=
  Ins.Keeps.bind (R := DirsKept) (fun _ _ _ a b => DirsKept.trans a b) hx hf

theorem DirsKept.mapM {α β : Type} {f : α → Ins β} (hf : ∀ a, Ins.Keeps DirsKept (f a)) (l : List α) :
    Ins.Keeps DirsKept (l.mapM f) :=
  Ins.Keeps.mapM (R := DirsKept) DirsKept.refl (fun _ _ _ a b => DirsKept.trans a b) hf l

theorem dirPlace_kept (d : Nat) (k : Acc) (p : Nat × Nat) : Ins.Keeps DirsKept (dirPlace d k p) := by
  unfold dirPlace
  refine DirsKept.bind (fun s => dirTranslate_kept s d p.1 k) fun r => ?_
  cases r with
  | some pa => exact fun s => DirsKept.refl s
  | none => exact fun s => DirsKept.refl s

theorem dirPlaces_kept (d : Nat) (k : Acc) (a len : Nat) : Ins.Keeps DirsKept (dirPlaces d k a len) := by
  unfold dirPlaces
  refine DirsKept.bind (DirsKept.mapM (dirPlace_kept d k) _) fun ps => ?_
  dsimp only
  split
  · refine DirsKept.bind DirsKept.refl fun s => ?_
    split
    · exact DirsKept.refl
    · exact DirsKept.refl
  · exact DirsKept.refl

theorem dirMemLoad_kept (d a len : Nat) : Ins.Keeps DirsKept (dirMemLoad d a len) := by
  unfold dirMemLoad
  refine DirsKept.bind (dirPlaces_kept d .read a len) fun ps => ?_
  refine DirsKept.bind (DirsKept.mapM (fun p => ?_) ps) fun bs => DirsKept.refl
  refine DirsKept.bind (fun s => loadGran_dirs_kept s d p.loc) fun g => ?_
  dsimp only
  split
  · exact DirsKept.refl
  · exact DirsKept.refl

/-- A load leaves every director core as it was, less translations and views. -/
theorem dirLoad_kept (d a len : Nat) : Ins.Keeps DirsKept (dirLoad d a len) := by
  unfold dirLoad
  refine DirsKept.bind DirsKept.refl fun r => ?_
  cases r with
  | some o => exact DirsKept.refl
  | none => exact dirMemLoad_kept d a len

theorem dirLoads_kept {s t : State} {d a len v : Nat} (h : Claims.dirLoads s d a len v t) : DirsKept s t := by
  obtain ⟨bs, e, -⟩ := h
  exact (dirLoad_kept d a len).of_run e

end Sys2Proof.Machine
end

section
/-!
Dispatch, object access and guards of a director core (R377 to R386).
-/

namespace Sys2Proof.Machine

open Sys2Proof.Safety

/-! ### Values and handles (R377, R378) -/

theorem getLsbD_eq_fld (v : Word) (i : Nat) : v.getLsbD i = decide (Claims.fld v i 1 = 1) := by
  rw [BitVec.getLsbD, Nat.testBit_eq_decide_div_mod_eq, Claims.fld, Nat.pow_one]

theorem handleAddr_eq_place (v : Word) : handleAddr v = Claims.place v := Nat.mul_comm _ _

theorem fld_zero_of_ne_one {v : Word} {i : Nat} : ¬ Claims.fld v i 1 = 1 ↔ Claims.fld v i 1 = 0 := by
  unfold Claims.fld
  omega

/-- A word is well-formed as a handle exactly where it is one: bit 56 is clear, so the address of 54 bits is that of 53. -/
theorem wellFormed_iff (v : Word) : wellFormed v = true ↔ Claims.handle v := by
  have key : Claims.fld v 56 1 = 0 → (Claims.place v ≠ 0 ↔ Claims.fld v 3 53 ≠ 0) := by
    unfold Claims.place Claims.fld
    omega
  simp only [wellFormed, Bool.and_eq_true, beq_iff_eq, bne_iff_ne, Bool.not_eq_true', getLsbD_eq_fld, decide_eq_false_iff_not,
    fld_zero_of_ne_one, handleAddr_eq_place]
  constructor
  · rintro ⟨⟨⟨h0, h56⟩, h3⟩, ha⟩
    exact ⟨h56, h0, h3, (key h56).mp ha⟩
  · rintro ⟨h56, h0, h3, ha⟩
    exact ⟨⟨⟨h0, h56⟩, h3⟩, (key h56).mpr ha⟩

theorem wellFormed_eq_false {v : Word} (h : ¬ Claims.handle v) : wellFormed v = false :=
  Bool.eq_false_iff.mpr (mt (wellFormed_iff v).mp h)

theorem marnorNone_not_handle : ¬ Claims.handle marnorNone := fun h => absurd h.2.1 (by decide)

theorem classOf_eq {v : Word} {k : Nat} (h : Claims.valueClass v k) : classOf v = k := by
  simp only [classOf, getLsbD_eq_fld, decide_eq_true_eq]
  unfold Claims.valueClass at h
  split at h
  · next h0 => rw [if_pos h0, h]
  · next h0 =>
    rw [if_neg h0]
    split at h
    · next h1 => rw [if_pos h1, h]; rfl
    · next h1 =>
      rw [if_neg h1]
      split
      · next hh => exact (h.1 ((wellFormed_iff v).mp hh)).symm
      · next hh => exact (h.2 (mt (wellFormed_iff v).mpr hh)).symm

/-! ### Dispatch (R382) -/

theorem clearLow64_ofNat (x : Nat) : execBcNext.clearLow64 (BitVec.ofNat 64 x) = BitVec.ofNat 64 (x / 2 * 2) := by
  rw [execBcNext.clearLow64, and_not_one_eq_even, Claims.even]
  apply BitVec.eq_of_toNat_eq
  simp only [BitVec.toNat_ofNat]
  omega

theorem exec_bcNext_misaligned {s : State} {d : Nat} (f : FreeDir s d) (rd rs1 rs2 : Reg)
    (h : ((s.dir d).getX rs1).toNat % 4 ≠ 0) :
    exec (.bcNext rd rs1 rs2) s = .next (s.takeExc d 4 ((s.dir d).getX rs1).toNat (s.dir d).pc) :=
  director_exc f rfl (by simp [excIf_run_of (bne_iff_ne.mpr h)])

theorem exec_bcNext_table_misaligned {s : State} {d : Nat} (f : FreeDir s d) (rd rs1 rs2 : Reg)
    (h : ((s.dir d).getX rs1).toNat % 4 = 0) (h' : ((s.dir d).getX rs2).toNat % 8 ≠ 0) :
    exec (.bcNext rd rs1 rs2) s = .next (s.takeExc d 4 ((s.dir d).getX rs2).toNat (s.dir d).pc) :=
  director_exc f rfl (by simp [excIf_run_not (bne_eq_false_iff_eq.mpr h), excIf_run_of (bne_iff_ne.mpr h')])

theorem exec_bcNext_dispatches {s u z : State} {d w x : Nat} (f : FreeDir s d) (rd rs1 rs2 : Reg)
    (h : ((s.dir d).getX rs1).toNat % 4 = 0) (h' : ((s.dir d).getX rs2).toNat % 8 = 0)
    (hw : Claims.dirLoads s d ((s.dir d).getX rs1).toNat 4 w u)
    (hx : Claims.dirLoads u d ((((s.dir d).getX rs2).toNat + 8 * (w % 256)) % 2 ^ 64) 8 x z) :
    exec (.bcNext rd rs1 rs2) s =
      .next ((z.setDirX d rd (BitVec.ofNat 64 w)).doneDir d (.bcNext rd rs1 rs2) (.jump (BitVec.ofNat 64 (x / 2 * 2)))) := by
  have hx : dLoad d (addrAdd ((s.dir d).getX rs2).toNat (8 * (w % 256))) 8 u = (.ok x, z) := dLoad_run hx
  exact director_done f rfl (by simp [excIf_run_not (bne_eq_false_iff_eq.mpr h), excIf_run_not (bne_eq_false_iff_eq.mpr h'),
    dLoad_run hw, hx, clearLow64_ofNat])

/-! ### Object access (R383) -/

theorem checkHandle_malformed {v : Word} (h : ¬ Claims.handle v) (d : Nat) (s : State) :
    checkHandle d v s = (.error (.exc 25 v.toNat), s) := by
  simp [checkHandle, wellFormed_eq_false h, excIf_run_of]

theorem checkHandle_stale {v : Word} {s t : State} {d h : Nat} (hv : Claims.handle v)
    (hh : Claims.dirLoads s d (Claims.place v) 8 h t) (hg : h / 2 ^ 48 % 128 ≠ Claims.handleGeneration v) :
    checkHandle d v s = (.error (.exc 24 v.toNat), t) := by
  have hg : (Header.gen h != handleGen v) = true := bne_iff_ne.mpr hg
  simp [checkHandle, (wellFormed_iff v).mpr hv, excIf_run_not, handleAddr_eq_place, dLoad_run hh, excIf_run_of hg]

theorem checkHandle_live {v : Word} {s t : State} {d h : Nat} (hv : Claims.handle v)
    (hh : Claims.dirLoads s d (Claims.place v) 8 h t) (hg : h / 2 ^ 48 % 128 = Claims.handleGeneration v) :
    checkHandle d v s = (.ok h, t) := by
  have hg : (Header.gen h != handleGen v) = false := bne_eq_false_iff_eq.mpr hg
  simp [checkHandle, (wellFormed_iff v).mpr hv, excIf_run_not, handleAddr_eq_place, dLoad_run hh, hg]

theorem ne_marnorNone {v : Word} (h : Claims.handle v) : (v == marnorNone) = false :=
  beq_eq_false_iff_ne.mpr fun e => marnorNone_not_handle (e ▸ h)

/-- The capacity that a small integer stands for (R383). -/
theorem toInt_shiftRight_one {n : Nat} (h : n < 2 ^ 63) : (BitVec.ofNat 64 n).toInt >>> (1 : Nat) = (n : Int) / 2 := by
  have e : (BitVec.ofNat 64 n).toInt = n := by
    rw [BitVec.toInt_eq_toNat_of_lt] <;> rw [BitVec.toNat_ofNat] <;> omega
  rw [e, Int.shiftRight_eq_div_pow]
  rfl

section
variable {v : Word} {s t u : State} {d slot h : Nat}

theorem slotAddr_error {e : Stop} (hc : checkHandle d v s = (.error e, t)) : slotAddr d v slot s = (.error e, t) := by
  simp [slotAddr, hc]

variable (hc : checkHandle d v s = (.ok h, t))
include hc

theorem slotAddr_direct (hs : slot < 8) : slotAddr d v slot s = (.ok (Claims.place v + 32 + 8 * slot), t) := by
  simp [slotAddr, hc, hs, handleAddr_eq_place]

theorem slotAddr_no_overflow (hs : 8 ≤ slot) (ho : Claims.dirLoads t d (Claims.place v + 24) 8 2 u) :
    slotAddr d v slot s = (.error (.exc 26 slot), u) := by
  simp [slotAddr, hc, Nat.not_lt.mpr hs, handleAddr_eq_place, dLoad_run ho, excIf_run_of, marnorNone]

variable {o k cap : Nat} {u1 u2 : State} (hs : 8 ≤ slot) (ho : Claims.dirLoads t d (Claims.place v + 24) 8 o u)
  (hk : checkHandle d (BitVec.ofNat 64 o) u = (.ok k, u1)) (ho' : Claims.handle (BitVec.ofNat 64 o))
  (hcap : Claims.dirLoads u1 d (Claims.place (BitVec.ofNat 64 o) + 16) 8 cap u2) (h63 : cap < 2 ^ 63)
include hs ho hk ho' hcap h63

theorem slotAddr_overflow : slotAddr d v slot s =
    if cap / 2 ≤ slot - 8 then (.error (.exc 26 slot), u2)
    else (.ok (Claims.place (BitVec.ofNat 64 o) + 32 + 8 * (slot - 8)), u2) := by
  have hiff : (cap : Int) / 2 ≤ (slot : Int) - 8 ↔ cap / 2 ≤ slot - 8 := by omega
  by_cases hle : cap / 2 ≤ slot - 8 <;>
    simp [slotAddr, hc, Nat.not_lt.mpr hs, handleAddr_eq_place, dLoad_run ho, ne_marnorNone ho', excIf_run_not, hk, dLoad_run hcap,
      toInt_shiftRight_one h63, excIf_run, hiff, hle]
end

theorem checkHandle_kept (d : Nat) (v : Word) : Ins.Keeps DirsKept (checkHandle d v) := by
  have hx : ∀ b c w, Ins.Keeps DirsKept (excIf b c w) := fun b _ _ s => by cases b <;> exact DirsKept.refl s
  unfold checkHandle
  exact DirsKept.bind (hx _ _ _) fun _ => DirsKept.bind (DirsKept.bind (dirLoad_kept d _ _) fun _ => DirsKept.refl) fun h =>
    DirsKept.bind (hx _ _ _) fun _ => DirsKept.refl

theorem checkHandle_ok_kept {d h : Nat} {v : Word} {s t : State} (hc : checkHandle d v s = (.ok h, t)) : DirsKept s t :=
  (checkHandle_kept d v).of_run hc

section
variable {s t u : State} {d a : Nat} (f : FreeDir s d) {rd xh : Reg} {slot : BitVec 12}
include f

/-- Both object forms take the exception that finding the slot takes. -/
theorem exec_ob_exc {k v : Nat} (e : slotAddr d ((s.dir d).getX xh) slot.toNat s = (.error (.exc k v), t)) :
    exec (.obLd rd xh slot) s = .next (t.takeExc d k v (s.dir d).pc) ∧
      exec (.obSt rd xh slot) s = .next (t.takeExc d k v (s.dir d).pc) :=
  ⟨director_exc f rfl (by simp [e]), director_exc f rfl (by simp [e])⟩

/-- Both object forms reach the slot that is found; ob.st stores what its register held before the loads. -/
theorem exec_ob_slot (e : slotAddr d ((s.dir d).getX xh) slot.toNat s = (.ok a, t)) (k : DirsKept s t) :
    (∀ x u, Claims.dirLoads t d a 8 x u →
      exec (.obLd rd xh slot) s = .next ((u.setDirX d rd (BitVec.ofNat 64 x)).doneDir d (.obLd rd xh slot) (.seq none))) ∧
    (∀ u, dirWrite d a (Claims.bytes 8 ((s.dir d).getX rd).toNat) t = (.ok (), u) →
      exec (.obSt rd xh slot) s = .next (u.doneDir d (.obSt rd xh slot) (.seq none))) :=
  ⟨fun x u hx => director_done f rfl (by simp [e, dLoad_run hx]),
    fun u hw => director_done f rfl (by simp [e, k.getX, wordBytes, leBytes_eq_bytes, hw])⟩
end

/-! ### Guards (R385, R386) -/

theorem add_sxHalf_eq_guardTo (pc : Word) (off : BitVec 12) : pc + sxHalf off = Claims.guardTo pc off := by
  rw [sxHalf_eq_half, Claims.half, Claims.guardTo, BitVec.ofInt_add, BitVec.ofInt_toInt, Int.mul_comm]

/-- Where a guard goes. -/
def guardNext (pc : Word) (off : BitVec 12) (passes : Bool) : Ctl :=
  if passes then .seq none else .jump (Claims.guardTo pc off)

theorem guardBody_run (d : Nat) (off : BitVec 12) (passes : Bool) (s : State) :
    guardBody d off passes s = (.ok (guardNext (s.dir d).pc off passes), s) := by
  cases passes <;> simp [guardBody, guardNext, add_sxHalf_eq_guardTo]

section
variable {s t : State} {d : Nat} (f : FreeDir s d) {xv xs : Reg} {off : BitVec 12}
include f

theorem exec_gdTag {k : Nat} (hk : Claims.valueClass ((s.dir d).getX xv) k) :
    exec (.gdTag xv xs off) s =
      .next (s.doneDir d (.gdTag xv xs off) (guardNext (s.dir d).pc off (((s.dir d).getX xs).getLsbD k))) :=
  director_done f rfl (by simp [classOf_eq hk, guardBody_run])

theorem exec_gdShape_malformed (hv : ¬ Claims.handle ((s.dir d).getX xv)) :
    exec (.gdShape xv xs off) s = .next (s.doneDir d (.gdShape xv xs off) (guardNext (s.dir d).pc off false)) :=
  director_done f rfl (by simp [wellFormed_eq_false hv, guardBody_run])

theorem exec_gdShape_fault {e : Stop} (hv : Claims.handle ((s.dir d).getX xv))
    (he : dirLoad d (Claims.place ((s.dir d).getX xv)) 32 s = (.error e, t)) :
    exec (.gdShape xv xs off) s = .next (t.doneDir d (.gdShape xv xs off) (guardNext (t.dir d).pc off false)) :=
  director_done f rfl (by
    simp [(wellFormed_iff _).mpr hv, tryCatch_run, handleAddr_eq_place, dLoad_error he, guardBody_run])

theorem exec_gdShape_read {h : Nat} (hv : Claims.handle ((s.dir d).getX xv))
    (hh : Claims.dirLoads s d (Claims.place ((s.dir d).getX xv)) 32 h t) :
    exec (.gdShape xv xs off) s = .next (t.doneDir d (.gdShape xv xs off) (guardNext (t.dir d).pc off
      (decide (h / 2 ^ 48 % 128 = Claims.handleGeneration ((s.dir d).getX xv) ∧ h % 2 ^ 32 = Claims.fld ((s.dir d).getX xs) 0 32)))) := by
  have hp : (Header.gen h == handleGen ((s.dir d).getX xv) && Header.shape h == bits ((s.dir d).getX xs).toNat 0 32) =
      decide (h / 2 ^ 48 % 128 = Claims.handleGeneration ((s.dir d).getX xv) ∧ h % 2 ^ 32 = Claims.fld ((s.dir d).getX xs) 0 32) := by
    rw [Bool.decide_and, Header.shape, bits, Nat.pow_zero, Nat.div_one]
    rfl
  exact director_done f rfl (by
    simp [(wellFormed_iff _).mpr hv, tryCatch_run, handleAddr_eq_place, dLoad_run hh, guardBody_run, hp])
end

/-- Settles O25: dispatch by its two loads, object access by the cases of `slotAddr`, guards by `guardNext`. -/
theorem directorObjects : Obligations.DirectorObjects := by
  intro s d f c
  refine ⟨fun rd rs1 rs2 => ⟨exec_bcNext_misaligned f rd rs1 rs2, exec_bcNext_table_misaligned f rd rs1 rs2,
      fun hp ht w u x v hw hx => exec_bcNext_dispatches f rd rs1 rs2 hp ht hw hx⟩,
    fun rd xh slot => ⟨fun hv => exec_ob_exc f (slotAddr_error (checkHandle_malformed hv d s)), fun hv h t hh =>
      ⟨fun hg => exec_ob_exc f (slotAddr_error (checkHandle_stale hv hh hg)), fun hg => ?_⟩⟩,
    fun xv xs off => ⟨exec_gdShape_malformed f, fun hv h t hh => ⟨fun hp => ?_, fun hp => ?_⟩, fun hv e t he => ?_⟩,
    fun xv xm off k hk => ⟨fun hp => ?_, fun hp => ?_⟩⟩
  · have hc := checkHandle_live hv hh hg
    refine ⟨fun hs => exec_ob_slot f (slotAddr_direct hc hs) (checkHandle_ok_kept hc), fun hs o u ho =>
      ⟨fun h2 => exec_ob_exc f (slotAddr_no_overflow hc hs (h2 ▸ ho)), fun _ g hg ho' k u1 hk hkg cap u2 hcap h63 => ?_⟩⟩
    subst hg
    have hk := checkHandle_live ho' hk hkg
    have hslot := slotAddr_overflow hc hs ho hk ho' hcap h63
    exact ⟨fun hle => exec_ob_exc f (hslot.trans (if_pos hle)), fun hlt =>
      exec_ob_slot f (hslot.trans (if_neg (Nat.not_le.mpr hlt)))
        ((((checkHandle_ok_kept hc).trans (dirLoads_kept ho)).trans (checkHandle_ok_kept hk)).trans (dirLoads_kept hcap))⟩
  · rw [exec_gdShape_read f hv hh, decide_eq_true hp]; rfl
  · rw [exec_gdShape_read f hv hh, decide_eq_false hp, (dirLoads_kept hh).pc]; rfl
  · have k : DirsKept s t := (dirLoad_kept d _ 32).of_run he
    refine ⟨_, exec_gdShape_fault f hv he, ?_⟩
    simp [State.doneDir, guardNext, Dir.retire, k.pc, k.user, k.sepc, c]
  · rw [exec_gdTag f hk, hp]; rfl
  · rw [exec_gdTag f hk, hp]; rfl

end Sys2Proof.Machine
end

section
/-!
The inline caches of a director core (R387 to R390).
-/

namespace Sys2Proof.Machine

open Sys2Proof.Safety

/-! ### Sets and their entries (R387) -/

theorem icIndex_eq (site : BitVec 12) (shape : BitVec 32) : icIndex site shape = Claims.icSetOf site shape.toNat := by
  have h : shape.toNat / 16777216 % 256 % 4096 = shape.toNat / 16777216 % 256 := Nat.mod_eq_of_lt (by omega)
  simp [icIndex, Claims.icSetOf, Nat.shiftRight_eq_div_pow, h]

theorem icMatch_iff {site : BitVec 12} {shape : BitVec 32} {e : Option IcEntry} :
    icMatch site shape e = true ↔ ∃ f, e = some f ∧ f.site = site ∧ f.shape = shape := by
  cases e <;> simp [icMatch]

/-- The set of the store that a key goes to. -/
def Dir.icSet (c : Dir) (site : BitVec 12) (shape : BitVec 32) : IcSet := KMap.get {} c.ic (Claims.icSetOf site shape.toNat)

theorem Dir.icFind_hit {c : Dir} {site : BitVec 12} {shape : BitVec 32} {e : IcEntry} (he : some e ∈ (c.icSet site shape).ways)
    (hs : e.site = site) (hp : e.shape = shape)
    (only : ∀ f, some f ∈ (c.icSet site shape).ways → f.site = site → f.shape = shape → f = e) : c.icFind site shape = some e := by
  rw [Dir.icFind, icIndex_eq]
  change ((c.icSet site shape).ways.find? (icMatch site shape)).join = some e
  cases hf : (c.icSet site shape).ways.find? (icMatch site shape) with
  | none => exact absurd (icMatch_iff.mpr ⟨e, rfl, hs, hp⟩) (List.find?_eq_none.mp hf _ he)
  | some o =>
    obtain ⟨f, rfl, fs, fp⟩ := icMatch_iff.mp (List.find?_some hf)
    rw [only f (List.mem_of_find?_eq_some hf) fs fp]
    rfl

theorem Dir.icFind_miss {c : Dir} {site : BitVec 12} {shape : BitVec 32}
    (no : ∀ f, some f ∈ (c.icSet site shape).ways → ¬ (f.site = site ∧ f.shape = shape)) : c.icFind site shape = none := by
  have hf : (c.icSet site shape).ways.find? (icMatch site shape) = none := List.find?_eq_none.mpr fun o ho hm => by
    obtain ⟨f, rfl, hk⟩ := icMatch_iff.mp hm
    exact no f ho hk
  rw [Dir.icFind, icIndex_eq]
  exact congrArg Option.join hf

theorem exec_icLd_hit {s : State} {d : Nat} (f : FreeDir s d) (rd xk : Reg) (site : BitVec 12) {e : IcEntry}
    (h : (s.dir d).icFind site (((s.dir d).getX xk).extractLsb' 0 32) = some e) :
    exec (.icLd rd xk site) s = .next ((s.setDirX d rd e.result).doneDir d (.icLd rd xk site) (.seq none)) :=
  director_done f rfl (by simp [h])

theorem exec_icLd_miss {s : State} {d : Nat} (f : FreeDir s d) (rd xk : Reg) (site : BitVec 12)
    (h : (s.dir d).icFind site (((s.dir d).getX xk).extractLsb' 0 32) = none) :
    exec (.icLd rd xk site) s = .next (((s.setDir d { s.dir d with
      permit := true, fillSite := site, fillShape := ((s.dir d).getX xk).extractLsb' 0 32 }).setDirX d rd 0xFE).doneDir d
        (.icLd rd xk site) (.seq none)) :=
  director_done f rfl (by simp [h, missWord])

/-! ### Filling a set (R389) -/

/-- The first element of a list that passes. -/
theorem findIdx?_eq_some_of_first {α : Type} {p : α → Bool} {l : List α} {w : Nat} {a : α} (hw : l[w]? = some a) (hp : p a = true)
    (first : ∀ v, v < w → ∀ b, l[v]? = some b → p b = false) : l.findIdx? p = some w := by
  obtain ⟨hl, rfl⟩ := List.getElem?_eq_some_iff.mp hw
  exact List.findIdx?_eq_some_iff_getElem.mpr ⟨hl, hp, fun v hv =>
    Bool.eq_false_iff.mp (first v hv _ (List.getElem?_eq_getElem (Nat.lt_trans hv hl)))⟩

/-- Way `w` of the set holds an entry with the key. -/
def IcSet.hasKey (t : IcSet) (site : BitVec 12) (shape : BitVec 32) (w : Nat) : Prop :=
  ∃ f, t.ways[w]? = some (some f) ∧ f.site = site ∧ f.shape = shape

section
variable {t : IcSet} {e : IcEntry}

theorem IcSet.fill_key {w : Nat} (hw : t.hasKey e.site e.shape w) (first : ∀ v, v < w → ¬ t.hasKey e.site e.shape v) :
    t.fill e = { t with ways := t.ways.set w (some e) } := by
  obtain ⟨f, hf, hk⟩ := hw
  have hi : t.ways.findIdx? (icMatch e.site e.shape) = some w :=
    findIdx?_eq_some_of_first hf (icMatch_iff.mpr ⟨f, rfl, hk⟩) fun v hv o ho => Bool.eq_false_iff.mpr fun hm => by
      obtain ⟨g, rfl, hg⟩ := icMatch_iff.mp hm
      exact first v hv ⟨g, ho, hg⟩
  rw [IcSet.fill, hi]

theorem IcSet.findIdx?_of_no_key (no : ∀ w, ¬ t.hasKey e.site e.shape w) : t.ways.findIdx? (icMatch e.site e.shape) = none :=
  List.findIdx?_eq_none_iff.mpr fun o ho => Bool.eq_false_iff.mpr fun hm => by
    obtain ⟨g, rfl, hg⟩ := icMatch_iff.mp hm
    obtain ⟨w, hw⟩ := List.mem_iff_getElem?.mp ho
    exact no w ⟨g, hw, hg⟩

theorem IcSet.fill_invalid {w : Nat} (no : ∀ w, ¬ t.hasKey e.site e.shape w) (hw : t.ways[w]? = some none)
    (first : ∀ v, v < w → t.ways[v]? ≠ some none) : t.fill e = { t with ways := t.ways.set w (some e) } := by
  have hi : t.ways.findIdx? (·.isNone) = some w := findIdx?_eq_some_of_first hw rfl fun v hv o ho =>
    Bool.eq_false_iff.mpr fun hn => first v hv (ho.trans (congrArg some (Option.isNone_iff_eq_none.mp hn)))
  rw [IcSet.fill, IcSet.findIdx?_of_no_key no]
  simp only [hi]

theorem IcSet.fill_replaced (no : ∀ w, ¬ t.hasKey e.site e.shape w) (full : none ∉ t.ways) :
    t.fill e = { ways := t.ways.set t.ctr.toNat (some e), ctr := t.ctr + 1 } := by
  have hi : t.ways.findIdx? (·.isNone) = none := List.findIdx?_eq_none_iff.mpr fun o ho =>
    Bool.eq_false_iff.mpr fun hn => full (Option.isNone_iff_eq_none.mp hn ▸ ho)
  rw [IcSet.fill, IcSet.findIdx?_of_no_key no]
  simp only [hi]
end

/-- The pending fill is permitted for the key of the entry. -/
def Dir.fills (c : Dir) (e : IcEntry) : Prop := c.permit = true ∧ c.fillSite = e.site ∧ c.fillShape = e.shape

/-- The store after ic.st: filled where the pending fill permits it. -/
def Dir.icAfter (c : Dir) (e : IcEntry) : KMap IcSet :=
  if (c.permit && c.fillSite == e.site && c.fillShape == e.shape) = true then (c.icFill e).ic else c.ic

theorem Dir.ite_icFill (c : Dir) (e : IcEntry) :
    (if (c.permit && c.fillSite == e.site && c.fillShape == e.shape) = true then c.icFill e else c) = { c with ic := c.icAfter e } := by
  rw [Dir.icAfter]
  split <;> rfl

theorem Dir.get_icAfter {c : Dir} {e : IcEntry} (h : c.fills e) (q : Nat) :
    KMap.get {} (c.icAfter e) q =
      if q = Claims.icSetOf e.site e.shape.toNat then (c.icSet e.site e.shape).fill e else KMap.get {} c.ic q := by
  obtain ⟨hp, hs, hsh⟩ := h
  rw [Dir.icAfter, if_pos (by simp [hp, hs, hsh]), Dir.icFill, icIndex_eq]
  exact KMap.get_set ..

theorem Dir.icAfter_of_not_fills {c : Dir} {e : IcEntry} (h : ¬ c.fills e) : c.icAfter e = c.ic := by
  rw [Dir.icAfter, if_neg fun hb => h ?_]
  simpa [Dir.fills, and_assoc] using hb

/-- The entry that ic.st fills with. -/
def Dir.icEntry (c : Dir) (xr xk : Reg) (site : BitVec 12) : IcEntry :=
  ⟨site, (c.getX xk).extractLsb' 0 32, (c.getX xk).extractLsb' 32 32, c.getX xr⟩

theorem exec_icSt_missWord {s : State} {d : Nat} (f : FreeDir s d) (xr xk : Reg) (site : BitVec 12)
    (h : (s.dir d).getX xr = 0xFE) : exec (.icSt xr xk site) s = .next (s.takeExc d 25 0xFE (s.dir d).pc) :=
  director_exc f rfl (by simp [h, missWord, excIf_run_of])

theorem exec_icSt {s : State} {d : Nat} (f : FreeDir s d) (xr xk : Reg) (site : BitVec 12) (h : (s.dir d).getX xr ≠ 0xFE) :
    exec (.icSt xr xk site) s = .next ((s.setDir d { s.dir d with
      permit := false, fillSite := 0, fillShape := 0, ic := (s.dir d).icAfter ((s.dir d).icEntry xr xk site) }).doneDir d
        (.icSt xr xk site) (.seq none)) := by
  refine director_done f rfl ?_
  have hm : ((s.dir d).getX xr == missWord) = false := beq_eq_false_iff_ne.mpr h
  simp only [Ins.bind_run, dGet_run, excIf_run_not hm, setDirOf_run, Ins.pure_run]
  exact congrArg (fun c : Dir => (Except.ok (Ctl.seq none), s.setDir d { c with permit := false, fillSite := 0, fillShape := 0 }))
    (Dir.ite_icFill (s.dir d) ((s.dir d).icEntry xr xk site))

/-- The fields of a 32-bit word (R46). -/
theorem R32.ofNat_fields (op : BitVec 7) (rd : Reg) (f3 : BitVec 3) (a b : Reg) (f7 : BitVec 7) :
    R32.ofNat (op.toNat + 2 ^ 7 * rd.toNat + 2 ^ 12 * f3.toNat + 2 ^ 15 * a.toNat + 2 ^ 20 * b.toNat + 2 ^ 25 * f7.toNat) =
      ⟨op, rd, f3, a, b, f7⟩ := by
  have hop := op.isLt
  have hrd := rd.isLt
  have hf3 := f3.isLt
  have ha := a.isLt
  have hb := b.isLt
  have hf := f7.isLt
  simp only [R32.ofNat, R32.mk.injEq]
  refine ⟨?_, ?_, ?_, ?_, ?_, ?_⟩ <;> apply BitVec.eq_of_toNat_eq <;> simp <;> omega

theorem immS_encS (op : BitVec 7) (f3 : BitVec 3) (a b : Reg) (i : BitVec 12) : immS (encS op f3 a b i) = i := by
  change i.extractLsb' 5 7 ++ i.extractLsb' 0 5 = i
  exact (BitVec.extractLsb'_append_extractLsb'_eq_extractLsb' (len₁ := 5) rfl).trans BitVec.extractLsb'_eq_self

/-- What a director core makes of a candidate it has: the candidate, or a reserved encoding. -/
theorem accept_director {c : Code} {i : Instr} (di : i.onDirector = true) :
    accept true c (some i) = if i.wf = true ∧ encode i = c then .ok i else .error .reserved := by
  simp [accept, di]

theorem decode_icSt (xr xk : Reg) (site : BitVec 12) :
    decode true 4 (0x7B + 2 ^ 7 * (site.toNat % 32) + 2 ^ 12 * 2 + 2 ^ 15 * xk.toNat + 2 ^ 20 * xr.toNat + 2 ^ 25 * (site.toNat / 32)) =
      .ok (.icSt xr xk site) := by
  have hlo : (site.extractLsb' 0 5).toNat = site.toNat % 32 := by simp
  have hhi : (site.extractLsb' 5 7).toNat = site.toNat / 32 := by
    have := site.isLt
    simp [Nat.shiftRight_eq_div_pow]
    omega
  have hw := R32.ofNat_fields 0x7B (site.extractLsb' 0 5) 2 xk xr (site.extractLsb' 5 7)
  rw [hlo, hhi] at hw
  have hc : cand32 (encS 0x7B 2 xk xr site) = some (.icSt xr xk site) :=
    congrArg (fun i => some (Instr.icSt xr xk i)) (immS_encS _ _ _ _ _)
  calc decode true 4 _
      = accept true (encode (.icSt xr xk site)) (cand32 (encS 0x7B 2 xk xr site)) :=
        congrArg (fun r => accept true (.w32 r) (cand32 r)) hw
    _ = .ok (.icSt xr xk site) := by rw [hc, accept_director rfl, if_pos ⟨rfl, rfl⟩]

/-! ### Invalidation (R390) -/

/-- What an invalidation leaves of an entry: nothing where its class is the one named, or where every class is. -/
def icKeep (cls : BitVec 32) (e : Option IcEntry) : Option IcEntry :=
  match e with
  | some f => if cls = 0 ∨ f.cls = cls then none else some f
  | none => none

/-- What an invalidation leaves of a set. -/
def IcSet.inv (cls : BitVec 32) (t : IcSet) : IcSet := { t with ways := t.ways.map (icKeep cls) }

theorem Dir.icInv_ic (c : Dir) (cls : BitVec 32) :
    (c.icInv cls).ic = (c.ic.map fun p => (p.1, p.2.inv cls)).filter fun p => p.2 != {} := rfl

theorem KMap.get_of_lt {α : Type} [DecidableEq α] (d : α) {n : Nat} :
    ∀ {m : KMap α} {b : Nat}, KMap.wfFrom d b m = true → n < b → KMap.get d m n = d
  | [], _, _, _ => rfl
  | (k, v) :: t, b, w, h => by
    simp only [KMap.wfFrom, Bool.and_eq_true, decide_eq_true_eq] at w
    rw [KMap.get, if_neg (by omega), KMap.get_of_lt d w.2 (by omega)]

/-- A read of a map in canonical form whose values have been changed, and the defaults among them dropped. -/
theorem KMap.get_map_filter {α : Type} [DecidableEq α] {d : α} {g : α → α} (hg : g d = d) (n : Nat) :
    ∀ {m : KMap α} {b : Nat}, KMap.wfFrom d b m = true →
      KMap.get d ((m.map fun p => (p.1, g p.2)).filter fun p => p.2 != d) n = g (KMap.get d m n)
  | [], _, _ => hg.symm
  | (k, v) :: t, b, w => by
    simp only [KMap.wfFrom, Bool.and_eq_true, decide_eq_true_eq] at w
    have ih := KMap.get_map_filter hg n w.2
    rw [List.map_cons, List.filter_cons]
    by_cases hn : n = k
    · have ht : KMap.get d t n = d := KMap.get_of_lt d w.2 (by omega)
      by_cases hv : g v = d
      · rw [if_neg (by simp [hv]), ih, ht, KMap.get, if_pos hn, hg, hv]
      · rw [if_pos (by simp [hv]), KMap.get, if_pos hn, KMap.get, if_pos hn]
    · by_cases hv : g v = d
      · rw [if_neg (by simp [hv]), ih, KMap.get, if_neg hn]
      · rw [if_pos (by simp [hv]), KMap.get, if_neg hn, KMap.get, if_neg hn, ih]

theorem Dir.icInv_way {c : Dir} (w : KMap.wf {} c.ic = true) (cls : BitVec 32) (q k : Nat) :
    (KMap.get {} (c.icInv cls).ic q).ways.getD k none = icKeep cls ((KMap.get {} c.ic q).ways.getD k none) := by
  rw [Dir.icInv_ic, KMap.get_map_filter (g := IcSet.inv cls) rfl q w]
  change ((KMap.get {} c.ic q).ways.map (icKeep cls)).getD k none = _
  rw [List.getD_eq_getElem?_getD, List.getElem?_map, List.getD_eq_getElem?_getD]
  exact Option.getD_map (icKeep cls) none _

/-- A change made to each of the first director cores. -/
theorem State.foldl_setDir_dir (g : Dir → Dir) (s : State) (n : Nat) :
    ∀ k, ((List.range n).foldl (fun s d => s.setDir d (g (s.dir d))) s).dir k = if k < n then g (s.dir k) else s.dir k := by
  induction n with
  | zero => exact fun _ => rfl
  | succ n ih =>
    intro k
    rw [List.range_succ, List.foldl_append, List.foldl_cons, List.foldl_nil, State.setDir_dir]
    by_cases hk : k = n
    · rw [if_pos hk, ih, if_neg (Nat.lt_irrefl n), if_pos (by omega), hk]
    · rw [if_neg hk, ih]
      exact ite_of_iff (by omega) _ _

theorem exec_icInv {s : State} {d : Nat} (f : FreeDir s d) (xc : Reg) :
    exec (.icInv xc) s = .next ((s.icInv (((s.dir d).getX xc).extractLsb' 0 32)).doneDir d (.icInv xc) (.seq none)) :=
  director_done f rfl (by simp)

theorem State.icInv_dir (s : State) (cls : BitVec 32) {e : Nat} (he : e < Config.directors) :
    (s.icInv cls).dir e = (s.dir e).icInv cls := by
  rw [State.icInv, State.foldl_setDir_dir fun c => c.icInv cls, if_pos he]

/-- The completion of an instruction changes its own core, and there leaves the caches. -/
theorem State.doneDir_dir (s : State) (d e : Nat) (i : Instr) (c : Ctl) :
    (s.doneDir d i c).dir e = if e = d then (s.dir d).retire i c else s.dir e := State.setDir_dir ..

theorem Dir.retire_permit (c : Dir) (i : Instr) (k : Ctl) : (c.retire i k).permit = c.permit := by cases k <;> rfl
theorem Dir.retire_ic (c : Dir) (i : Instr) (k : Ctl) : (c.retire i k).ic = c.ic := by cases k <;> rfl

theorem State.doneDir_permit (s : State) (d e : Nat) (i : Instr) (c : Ctl) : ((s.doneDir d i c).dir e).permit = (s.dir e).permit := by
  rw [State.doneDir_dir]
  split
  · next h => rw [Dir.retire_permit, h]
  · rfl

theorem State.doneDir_ic (s : State) (d e : Nat) (i : Instr) (c : Ctl) : ((s.doneDir d i c).dir e).ic = (s.dir e).ic := by
  rw [State.doneDir_dir]
  split
  · next h => rw [Dir.retire_ic, h]
  · rfl

theorem inlineCaches : Claims.InlineCaches := by
  intro s d f c
  refine ⟨fun rd xk site => ⟨fun e he hs hp only => exec_icLd_hit f rd xk site (Dir.icFind_hit he hs hp only),
      fun no => exec_icLd_miss f rd xk site (Dir.icFind_miss no)⟩,
    fun xr xk site => ⟨exec_icSt_missWord f xr xk site, fun hm => ⟨_, exec_icSt f xr xk site hm, ?_⟩⟩,
    decode_icSt, fun xc w => ⟨_, exec_icInv f xc, ?_⟩⟩
  · rw [State.doneDir_dir, if_pos rfl, State.setDir_dir_self]
    refine ⟨rfl, rfl, rfl, rfl, rfl, fun hn => ?_, fun hf => ?_⟩
    · exact Dir.icAfter_of_not_fills (e := c.icEntry xr xk site) hn
    have hget := Dir.get_icAfter (e := c.icEntry xr xk site) hf
    have hset : KMap.get {} (c.icAfter (c.icEntry xr xk site)) (Claims.icSetOf site ((c.getX xk).extractLsb' 0 32).toNat) =
        (KMap.get {} c.ic (Claims.icSetOf site ((c.getX xk).extractLsb' 0 32).toNat)).fill (c.icEntry xr xk site) :=
      (hget _).trans (if_pos rfl)
    rw [Dir.retire_ic]
    dsimp only
    rw [hset]
    refine ⟨fun w hw first => ?_, fun no w hw first => ?_, fun no full => ?_, fun q hq => (hget q).trans (if_neg hq)⟩
    · rw [IcSet.fill_key (e := c.icEntry xr xk site) hw first]; exact ⟨rfl, rfl⟩
    · rw [IcSet.fill_invalid (e := c.icEntry xr xk site) no hw first]; exact ⟨rfl, rfl⟩
    · rw [IcSet.fill_replaced (e := c.icEntry xr xk site) no full]; exact ⟨rfl, rfl⟩
  · have hd := s.icInv_dir ((c.getX xc).extractLsb' 0 32) f.2
    rw [State.doneDir_dir, if_pos rfl, hd]
    refine ⟨rfl, rfl, fun e he => ⟨?_, fun q k => ?_⟩⟩
    · rw [State.doneDir_permit, State.icInv_dir _ _ he]; rfl
    · rw [State.doneDir_ic, State.icInv_dir _ _ he, Dir.icInv_way (w e he)]
      rfl

end Sys2Proof.Machine
end

section
/-!
Reference counts of a director core (R392).
-/

namespace Sys2Proof.Machine

open Sys2Proof.Safety

/-! ### The values that name objects -/

theorem notHandle_eq (v : Word) : notHandle v = decide (Claims.fld v 0 2 ≠ 0) := by
  rw [notHandle, getLsbD_eq_fld, getLsbD_eq_fld, ← Bool.decide_or]
  exact decide_eq_decide.mpr (by unfold Claims.fld; omega)

theorem notHandle_of_handle {v : Word} (h : Claims.handle v) : notHandle v = false := by
  rw [notHandle_eq]
  exact decide_eq_false (Decidable.not_not.mpr h.2.1)

/-! ### Fields of a header (R379) -/

theorem Header.setRefs_eq (h x : Nat) : Header.setRefs h x = h % 2 ^ 64 + x % 2 ^ 32 * 2 ^ 64 + h / 2 ^ 96 * 2 ^ 96 := rfl
theorem Header.setHeld_eq (h : Nat) : Header.setHeld h true = h % 2 ^ 36 + 2 ^ 36 + h / 2 ^ 37 * 2 ^ 37 := rfl

section
variable (h : Nat) (x : Nat)

theorem Header.hold_setRefs : Header.hold (Header.setRefs h x) = Header.hold h := by
  rw [Header.setRefs_eq, Header.hold, Header.hold, bits, bits]
  omega
theorem Header.flags_setRefs : bits (Header.setRefs h x) 32 8 = bits h 32 8 := by
  rw [Header.setRefs_eq, bits, bits]
  omega
theorem Header.gen_setRefs : bits (Header.setRefs h x) 48 16 = bits h 48 16 := by
  rw [Header.setRefs_eq, bits, bits]
  omega

variable {x} (hx : x < 2 ^ 32)
include hx

theorem Header.refs_setRefs : Header.refs (Header.setRefs h x) = x := by
  rw [Header.setRefs_eq, Header.refs, bits]
  omega
theorem Header.word1_setRefs : Header.word1 (Header.setRefs h x) = x + 2 ^ 32 * Header.hold h := by
  rw [Header.setRefs_eq, Header.word1, Header.hold, bits, bits]
  omega

/-- A changed count is stored in header word 1. -/
theorem headerWrites_setRefs (a : Nat) (ne : Header.refs h ≠ x) :
    headerWrites a h (Header.setRefs h x) = [(a + 8, Claims.bytes 8 (x + 2 ^ 32 * Header.hold h))] := by
  have h1 : bits (Header.setRefs h x) 64 64 = x + 2 ^ 32 * Header.hold h := Header.word1_setRefs h hx
  have hw : bits h 64 64 ≠ x + 2 ^ 32 * Header.hold h := by
    rw [Header.refs, bits] at ne
    rw [Header.hold, bits, bits]
    omega
  rw [headerWrites, Header.flags_setRefs h x, Header.gen_setRefs h x, h1, if_pos rfl, if_pos rfl, if_neg hw, leBytes_eq_bytes]
  rfl
end

theorem headerWrites_self (a : Nat) (h : Header) : headerWrites a h h = [] := by simp [headerWrites]

theorem Header.word1_last (h : Nat) : Header.word1 (Header.setHeld (Header.setRefs h 0) true) = 2 ^ 32 * Header.hold h := by
  rw [Header.setHeld_eq, Header.setRefs_eq, Header.word1, Header.hold, bits, bits]
  omega

/-- The last reference of an object with holds: the mark in the flags, and then header word 1. -/
theorem headerWrites_last (a h : Nat) (hr : Header.refs h = 1) (hm : h / 2 ^ 36 % 2 = 0) :
    headerWrites a h (Header.setHeld (Header.setRefs h 0) true) =
      [(a + 4, [BitVec.ofNat 8 (h / 2 ^ 32 % 256 + 16)]), (a + 8, Claims.bytes 8 (2 ^ 32 * Header.hold h))] := by
  have hf : bits (Header.setHeld (Header.setRefs h 0) true) 32 8 = h / 2 ^ 32 % 256 + 16 := by
    rw [Header.setHeld_eq, Header.setRefs_eq, bits]
    omega
  have hg : bits (Header.setHeld (Header.setRefs h 0) true) 48 16 = bits h 48 16 := by
    rw [Header.setHeld_eq, Header.setRefs_eq, bits, bits]
    omega
  have hw := Header.word1_last h
  rw [Header.word1] at hw
  have nf : bits h 32 8 ≠ h / 2 ^ 32 % 256 + 16 := by
    rw [bits]
    omega
  have nw : bits h 64 64 ≠ 2 ^ 32 * Header.hold h := by
    rw [Header.refs, bits] at hr
    rw [Header.hold, bits, bits]
    omega
  rw [headerWrites, hf, hg, hw, if_neg nf, if_pos rfl, if_neg nw, leBytes_eq_bytes]
  rfl

/-! ### rc.inc and rc.dec (R392) -/

/-- The header after the action, for a mortal object. -/
def rcChange (inc : Bool) (h : Header) : Header :=
  if inc then h.setRefs (h.refs + 1)
  else
    let h := h.setRefs (h.refs - 1)
    if h.refs = 0 ∧ h.hold ≠ 0 then h.setHeld true else h

/-- The instruction of either action. -/
abbrev rcInstr (inc : Bool) (rd xh : Reg) : Instr := if inc then .rcInc rd xh else .rcDec rd xh

theorem rcChange_true : rcChange true = fun h => h.setRefs (h.refs + 1) := funext fun _ => if_pos rfl
theorem rcChange_false : rcChange false = fun h =>
    let h := h.setRefs (h.refs - 1)
    if h.refs = 0 ∧ h.hold ≠ 0 then h.setHeld true else h := funext fun _ => if_neg Bool.false_ne_true

theorem exec_rcInstr (inc : Bool) (rd xh : Reg) (s : State) :
    exec (rcInstr inc rd xh) s = runDirector (rcInstr inc rd xh) (fun d => rcBody d rd xh (rcChange inc)) s := by
  cases inc with
  | true => rw [rcInstr, if_pos rfl, rcChange_true]; rfl
  | false => rw [rcInstr, if_neg Bool.false_ne_true, rcChange_false]; rfl

theorem rcInstr_onDirector (inc : Bool) (rd xh : Reg) : (rcInstr inc rd xh).onDirector = true := by cases inc <;> rfl

/-- An action that leaves references, or no holds, changes the count alone. -/
theorem rcChange_mortal {inc : Bool} {h : Header} (hl : inc = true ∨ h.refs ≠ 0 ∧ (h.refs ≠ 1 ∨ h.hold = 0)) :
    rcChange inc h = h.setRefs (if inc then h.refs + 1 else h.refs - 1) := by
  cases inc with
  | true => rw [rcChange_true, if_pos rfl]
  | false =>
    obtain ⟨h0, hl⟩ := hl.resolve_left Bool.false_ne_true
    have hlt : h.refs < 2 ^ 32 := Nat.mod_lt _ (by decide)
    have hx : h.refs - 1 < 2 ^ 32 := by omega
    have no : ¬ ((h.setRefs (h.refs - 1)).refs = 0 ∧ (h.setRefs (h.refs - 1)).hold ≠ 0) := by
      rw [Header.refs_setRefs h hx, Header.hold_setRefs]
      omega
    rw [rcChange_false, if_neg Bool.false_ne_true]
    exact if_neg no

theorem rcChange_last {h : Header} (h1 : h.refs = 1) (hh : h.hold ≠ 0) : rcChange false h = (h.setRefs 0).setHeld true := by
  have hr : (h.setRefs 0).refs = 0 ∧ (h.setRefs 0).hold ≠ 0 := ⟨Header.refs_setRefs h (by decide), by rwa [Header.hold_setRefs]⟩
  rw [rcChange_false]
  dsimp only
  rw [h1]
  exact if_pos hr

theorem atomicHeader_run {s t u : State} {d a h : Nat} {ps : List Place} (hp : dirPlaces d .write a 16 s = (.ok ps, t))
    (hh : Claims.dirLoads t d a 16 h u) : atomicHeader d a s = (.ok h, u) := by
  simp [atomicHeader, hp, dLoad_run hh]

/-- A sequence of stores, one after the other. -/
theorem dirWrites_cons {d a : Nat} {bs : List Byte} {l : List (Nat × List Byte)} {s t : State} (hw : dirWrite d a bs s = (.ok (), t)) :
    ((a, bs) :: l).forM (fun w => dirWrite d w.1 w.2) s = l.forM (fun w => dirWrite d w.1 w.2) t := by
  change (dirWrite d a bs >>= fun _ => l.forM fun w => dirWrite d w.1 w.2) s = _
  rw [Ins.bind_run, hw]

section
variable {d a h : Nat} {u u1 u2 : State}

theorem writeHeader_self : writeHeader d a h h u = (.ok (), u) := by
  rw [writeHeader, headerWrites_self]
  rfl

theorem writeHeader_setRefs {x : Nat} (hx : x < 2 ^ 32) (ne : Header.refs h ≠ x)
    (hw : dirWrite d (a + 8) (Claims.bytes 8 (x + 2 ^ 32 * Header.hold h)) u = (.ok (), u1)) :
    writeHeader d a h (Header.setRefs h x) u = (.ok (), u1) := by
  rw [writeHeader, headerWrites_setRefs h hx a ne, dirWrites_cons hw]
  rfl

theorem writeHeader_last (hr : Header.refs h = 1) (hm : h / 2 ^ 36 % 2 = 0)
    (hw1 : dirWrite d (a + 4) [BitVec.ofNat 8 (h / 2 ^ 32 % 256 + 16)] u = (.ok (), u1))
    (hw2 : dirWrite d (a + 8) (Claims.bytes 8 (2 ^ 32 * Header.hold h)) u1 = (.ok (), u2)) :
    writeHeader d a h (Header.setHeld (Header.setRefs h 0) true) u = (.ok (), u2) := by
  rw [writeHeader, headerWrites_last a h hr hm, dirWrites_cons hw1, dirWrites_cons hw2]
  rfl
end

/-- The word that a word of 64 bits keeps of a number. -/
theorem ofNat_word1 (h : Nat) : BitVec.ofNat 64 (Header.word1 h) = BitVec.ofNat 64 (h / 2 ^ 64) :=
  BitVec.eq_of_toNat_eq (by simp [Header.word1, bits])

section
variable {s t u : State} {d h : Nat} {v : Word} {ps : List Place} (hv : Claims.handle v)
  (hp : dirPlaces d .write (Claims.place v) 16 s = (.ok ps, t)) (hh : Claims.dirLoads t d (Claims.place v) 16 h u)
include hv hp hh

/-- The action on a handle: the checks of its object, the stores of the fields that change, and the register. -/
theorem rcBody_handle (rd xh : Reg) (hx : (s.dir d).getX xh = v) (change : Header → Header) : rcBody d rd xh change s =
    if Header.gen h ≠ handleGen v then (.error (.exc 24 v.toNat), u)
    else if Header.refs h = 0 then (.error (.exc 27 v.toNat), u)
    else (do
      let h' := if Header.refs h = 0xFFFFFFFF then h else change h
      writeHeader d (Claims.place v) h h'
      dPut d rd (BitVec.ofNat 64 (Header.word1 h'))
      pure .seq : Ins Ctl) u := by
  by_cases c1 : Header.gen h = handleGen v <;> by_cases c2 : Header.refs h = 0 <;>
    simp [rcBody, hx, notHandle_of_handle hv, (wellFormed_iff v).mpr hv, excIf_run_not, handleAddr_eq_place, atomicHeader_run hp hh,
      excIf_run, c1, c2]
end

section
variable {s : State} {d : Nat} (f : FreeDir s d) (inc : Bool) (rd : Reg) {xh : Reg}
include f

theorem exec_rc_not_handle (h : Claims.fld ((s.dir d).getX xh) 0 2 ≠ 0) : exec (rcInstr inc rd xh) s =
    .next ((s.setDirX d rd (BitVec.allOnes 64)).doneDir d (rcInstr inc rd xh) (.seq none)) := by
  rw [exec_rcInstr]
  exact director_done f (rcInstr_onDirector inc rd xh) (by simp [rcBody, notHandle_eq, h])

theorem exec_rc_malformed (h : Claims.fld ((s.dir d).getX xh) 0 2 = 0) (hv : ¬ Claims.handle ((s.dir d).getX xh)) :
    exec (rcInstr inc rd xh) s = .next (s.takeExc d 25 ((s.dir d).getX xh).toNat (s.dir d).pc) := by
  rw [exec_rcInstr]
  exact director_exc f (rcInstr_onDirector inc rd xh) (by simp [rcBody, notHandle_eq, h, wellFormed_eq_false hv, excIf_run_of])

variable (hv : Claims.handle ((s.dir d).getX xh)) {ps : List Place} {t u u1 u2 : State} {h : Nat}
  (hp : dirPlaces d .write (Claims.place ((s.dir d).getX xh)) 16 s = (.ok ps, t))
  (hh : Claims.dirLoads t d (Claims.place ((s.dir d).getX xh)) 16 h u)
include hv hp hh

theorem exec_rc_stale (hg : h / 2 ^ 48 % 128 ≠ Claims.handleGeneration ((s.dir d).getX xh)) :
    exec (rcInstr inc rd xh) s = .next (u.takeExc d 24 ((s.dir d).getX xh).toNat (s.dir d).pc) := by
  rw [exec_rcInstr]
  exact director_exc f (rcInstr_onDirector inc rd xh) ((rcBody_handle hv hp hh rd xh rfl _).trans (if_pos hg))

variable (hg : h / 2 ^ 48 % 128 = Claims.handleGeneration ((s.dir d).getX xh))
include hg

theorem exec_rc_dead (h0 : h / 2 ^ 64 % 2 ^ 32 = 0) :
    exec (rcInstr inc rd xh) s = .next (u.takeExc d 27 ((s.dir d).getX xh).toNat (s.dir d).pc) := by
  rw [exec_rcInstr]
  exact director_exc f (rcInstr_onDirector inc rd xh)
    ((rcBody_handle hv hp hh rd xh rfl _).trans ((if_neg (Decidable.not_not.mpr hg)).trans (if_pos h0)))

/-- A live object: the fields that change are stored, and then the register is written. -/
theorem exec_rc_live {h' : Header} (h0 : Header.refs h ≠ 0) (he : (if Header.refs h = 0xFFFFFFFF then h else rcChange inc h) = h')
    (hw : writeHeader d (Claims.place ((s.dir d).getX xh)) h h' u = (.ok (), u1)) : exec (rcInstr inc rd xh) s =
      .next ((u1.setDirX d rd (BitVec.ofNat 64 h'.word1)).doneDir d (rcInstr inc rd xh) (.seq none)) := by
  have e := (rcBody_handle hv hp hh rd xh rfl (rcChange inc)).trans ((if_neg (Decidable.not_not.mpr hg)).trans (if_neg h0))
  rw [exec_rcInstr]
  exact director_done f (rcInstr_onDirector inc rd xh) (e.trans (by simp [he, hw]))

theorem exec_rc_immortal (hm : Header.refs h = 2 ^ 32 - 1) : exec (rcInstr inc rd xh) s =
    .next ((u.setDirX d rd (BitVec.ofNat 64 (h / 2 ^ 64))).doneDir d (rcInstr inc rd xh) (.seq none)) := by
  have h0 : Header.refs h ≠ 0 := by omega
  rw [← ofNat_word1]
  exact exec_rc_live f inc rd hv hp hh hg h0 (if_pos hm) writeHeader_self

theorem exec_rc_counts (h0 : Header.refs h ≠ 0) (hm : Header.refs h ≠ 2 ^ 32 - 1)
    (hl : inc = true ∨ Header.refs h ≠ 1 ∨ Header.hold h = 0)
    (hw : dirWrite d (Claims.place ((s.dir d).getX xh) + 8)
      (Claims.bytes 8 ((if inc then Header.refs h + 1 else Header.refs h - 1) + 2 ^ 32 * Header.hold h)) u = (.ok (), u1)) :
    exec (rcInstr inc rd xh) s = .next ((u1.setDirX d rd (BitVec.ofNat 64
      ((if inc then Header.refs h + 1 else Header.refs h - 1) + 2 ^ 32 * Header.hold h))).doneDir d (rcInstr inc rd xh) (.seq none)) := by
  have hlt : Header.refs h < 2 ^ 32 := Nat.mod_lt _ (by decide)
  have hx : (if inc then Header.refs h + 1 else Header.refs h - 1) < 2 ^ 32 := by split <;> omega
  have ne : Header.refs h ≠ if inc then Header.refs h + 1 else Header.refs h - 1 := by split <;> omega
  rw [← Header.word1_setRefs h hx]
  exact exec_rc_live f inc rd hv hp hh hg h0 ((if_neg hm).trans (rcChange_mortal (hl.imp_right fun hl => ⟨h0, hl⟩)))
    (writeHeader_setRefs hx ne hw)

theorem exec_rc_last (hi : inc = false) (h1 : Header.refs h = 1) (hn : Header.hold h ≠ 0) (hm : h / 2 ^ 36 % 2 = 0)
    (hw1 : dirWrite d (Claims.place ((s.dir d).getX xh) + 4) [BitVec.ofNat 8 (h / 2 ^ 32 % 256 + 16)] u = (.ok (), u1))
    (hw2 : dirWrite d (Claims.place ((s.dir d).getX xh) + 8) (Claims.bytes 8 (2 ^ 32 * Header.hold h)) u1 = (.ok (), u2)) :
    exec (rcInstr inc rd xh) s =
      .next ((u2.setDirX d rd (BitVec.ofNat 64 (2 ^ 32 * Header.hold h))).doneDir d (rcInstr inc rd xh) (.seq none)) := by
  subst hi
  have h0 : Header.refs h ≠ 0 := by omega
  have hm' : Header.refs h ≠ 0xFFFFFFFF := by omega
  rw [← Header.word1_last]
  exact exec_rc_live f false rd hv hp hh hg h0 ((if_neg hm').trans (rcChange_last h1 hn)) (writeHeader_last h1 hm hw1 hw2)
end

end Sys2Proof.Machine
end

section
/-!
Tensor issue of a director core, and the wait for it (R394 to R400).
-/

namespace Sys2Proof.Machine

open Sys2Proof.Safety

/-! ### Issue descriptors (R394) -/

theorem dLoad_eq (d a len : Nat) : dLoad d a len = (do pure (Claims.number (← dirLoad d a len)) : Ins Nat) := by
  unfold dLoad
  simp only [leNat_eq_number]

theorem bits_zero_eight (h : Nat) : bits h 0 8 = h % 256 := by
  unfold bits
  omega

/-- The eight words of a descriptor as the loads of core `d` give them, and the state after. -/
def descriptorAt (s : State) (d a : Nat) (w : List Nat) (t : State) : Prop :=
  ((List.range 8).mapM (fun k => do pure (Claims.number (← dirLoad d (a + 8 * k) 8))) : Ins (List Nat)) s = (.ok w, t)

theorem descriptorAt.run {s t : State} {d a : Nat} {w : List Nat} (h : descriptorAt s d a w t) :
    ((List.range 8).mapM fun k => dLoad d (a + 8 * k) 8) s = (.ok w, t) := by
  simp only [dLoad_eq]
  exact h

/-- What is wrong with a faulty descriptor. -/
theorem issueFaulty_iff {w : List Nat} {h k : Nat} (hh : w.getD 0 0 = h) (hk : h % 2 ^ 8 = k) :
    issueFaulty w = true ↔ k = 0 ∨ 3 < k ∨ 4 < h / 2 ^ 8 % 2 ^ 3 ∨ 767 < h / 2 ^ 16 % 2 ^ 10 ∨ h / 2 ^ 11 % 2 ^ 5 ≠ 0 ∨
      h / 2 ^ 26 % 2 ^ 38 ≠ 0 ∨ (∃ j, j < 4 ∧ h / 2 ^ 8 % 2 ^ 3 ≤ j ∧ w.getD (1 + j) 0 ≠ 0) ∨
      w.getD 5 0 % (if k = 1 then 8 else 64) ≠ 0 ∨ (if k = 3 then 255 < w.getD 6 0 else w.getD 6 0 ≠ 0) ∨ w.getD 7 0 ≠ 0 ∨
      (k = 3 ∧ h / 2 ^ 16 % 2 ^ 10 ≠ 0) := by
  have hb : bits h 0 8 = k := by rw [bits, Nat.pow_zero, Nat.div_one, hk]
  unfold issueFaulty
  simp only [hh, hb]
  simp only [Bool.or_eq_true, Bool.and_eq_true, beq_iff_eq, bne_iff_ne, decide_eq_true_eq, List.any_eq_true, List.mem_range,
    Bool.ite_eq_true_distrib, or_assoc]
  rfl

theorem issueFaulty_of {w : List Nat} {h k : Nat} (hh : w.getD 0 0 = h) (hk : h % 256 = k)
    (bad : k = 0 ∨ 3 < k ∨ 4 < h / 2 ^ 8 % 8 ∨ h / 2 ^ 11 % 2 ^ 5 ≠ 0 ∨ 767 < h / 2 ^ 16 % 2 ^ 10 ∨ h / 2 ^ 26 % 2 ^ 38 ≠ 0 ∨
      w.getD 7 0 ≠ 0 ∨ (k ≠ 3 ∧ w.getD 6 0 ≠ 0) ∨ (k = 3 ∧ (255 < w.getD 6 0 ∨ h / 2 ^ 16 % 2 ^ 10 ≠ 0)) ∨
      (k ≠ 1 ∧ w.getD 5 0 % 64 ≠ 0) ∨ w.getD 5 0 % 8 ≠ 0) : issueFaulty w = true := by
  rw [issueFaulty_iff hh hk]
  by_cases h1 : k = 1
  · rw [if_pos h1, if_neg (by omega)]
    omega
  · rw [if_neg h1]
    by_cases h3 : k = 3
    · rw [if_pos h3]
      omega
    · rw [if_neg h3]
      omega

/-- A queue packet whose fields are in range is not faulty. -/
theorem issueFaulty_packet {w : List Nat} {n : Nat} (hh : w.getD 0 0 = 3 + 2 ^ 8 * n) (hn : n ≤ 4)
    (hs : ∀ j, n < j → j < 5 → w.getD j 0 = 0) (h5 : w.getD 5 0 % 64 = 0) (h6 : w.getD 6 0 ≤ 255) (h7 : w.getD 7 0 = 0) :
    issueFaulty w = false := by
  have hk : (3 + 2 ^ 8 * n) % 2 ^ 8 = 3 := by omega
  have hs : ¬ ∃ j, j < 4 ∧ (3 + 2 ^ 8 * n) / 2 ^ 8 % 2 ^ 3 ≤ j ∧ w.getD (1 + j) 0 ≠ 0 := fun ⟨j, h4, hj, h0⟩ =>
    h0 (hs (1 + j) (by omega) (by omega))
  rw [Bool.eq_false_iff, Ne, issueFaulty_iff hh hk]
  rw [if_neg (by decide), if_pos rfl]
  simp only [hs, false_or]
  omega

/-- The storages that a queue packet names. -/
theorem packet_handles {w : List Nat} {n : Nat} (hh : w.getD 0 0 = 3 + 2 ^ 8 * n) (hn : n ≤ 4) :
    (List.range (bits (w.getD 0 0) 8 3)).map (fun j => BitVec.ofNat 64 (w.getD (1 + j) 0)) =
      (List.range n).map fun j => BitVec.ofNat 64 (w.getD (1 + j) 0) := by
  have hb : bits (w.getD 0 0) 8 3 = n := by
    rw [hh, bits]
    omega
  rw [hb]

/-! ### tx.issue (R396, R397) -/

/-- What an instruction does depends on the run of its body alone. -/
theorem runDir_congr {d : Nat} {i : Instr} {x y : Nat → Ins Ctl} {s : State} (h : x d s = y d s) : runDir d i x s = runDir d i y s := by
  simp only [runDir, Ins.bind_run, h]


theorem publishEntry_dirs (s : State) (w : Writer) (k : Nat) (e : SbEntry) : (s.publishEntry w k e).dirs = s.dirs := by
  unfold State.publishEntry
  dsimp only
  split
  · rfl
  · split <;> rfl

theorem publishEntries_dirs (w : Writer) (k : Nat) (l : List SbEntry) :
    ∀ s : State, (l.foldl (fun s e => s.publishEntry w k e) s).dirs = s.dirs := by
  induction l with
  | nil => exact fun _ => rfl
  | cons e l ih => exact fun s => (ih _).trans (publishEntry_dirs s w k e)

theorem release_dirs (s : State) (d k : Nat) : (s.release (.dir d) k).dirs = s.dirs := publishEntries_dirs _ _ _ _

theorem release_dir (s : State) (d k e : Nat) : (s.release (.dir d) k).dir e = s.dir e := by
  rw [State.dir, release_dirs, State.dir]

/-- The holds of a value that is no handle cannot be taken. -/
theorem takeHolds_malformed {v : Word} (h : ¬ Claims.handle v) (d : Nat) (root : Option Word) (l : List Word) (s : State) :
    takeHolds d root [] (v :: l) s = (.error (.exc 28 v.toNat), s) := by
  simp [takeHolds, takeHold, wellFormed_eq_false h, tryCatch_run, State.holdDrops]

section
variable {s t u : State} {d : Nat} (f : FreeDir s d) {rd xs : Reg}
include f

theorem exec_txIssue_misaligned (h : ((s.dir d).getX xs).toNat % 64 ≠ 0) :
    exec (.txIssue rd xs) s = .next (s.takeExc d 4 ((s.dir d).getX xs).toNat (s.dir d).pc) :=
  director_exc f rfl (by simp [excIf_run_of (bne_iff_ne.mpr h)])

variable {w : List Nat} (ha : ((s.dir d).getX xs).toNat % 64 = 0)
  (hw : descriptorAt s d ((s.dir d).getX xs).toNat w t)
include ha hw

theorem exec_txIssue_no_kind (hk : ¬ (1 ≤ w.getD 0 0 % 256 ∧ w.getD 0 0 % 256 ≤ 3)) (hf : issueFaulty w = true) :
    exec (.txIssue rd xs) s = .next (t.takeExc d 28 ((s.dir d).getX xs).toNat (s.dir d).pc) := by
  refine director_exc f rfl ?_
  simp only [Ins.bind_run, dGet_run, excIf_run_not (bne_eq_false_iff_eq.mpr ha), hw.run, bits_zero_eight, if_neg hk, Ins.pure_run,
    excIf_run_of hf]

variable (hk : 1 ≤ w.getD 0 0 % 256 ∧ w.getD 0 0 % 256 ≤ 3)
include hk

theorem exec_txIssue_body_exc {k v : Nat} (hb : loadBodyWords d (w.getD 0 0 % 256) (w.getD 5 0) t = (.error (.exc k v), u)) :
    exec (.txIssue rd xs) s = .next (u.takeExc d k v (s.dir d).pc) := by
  refine director_exc f rfl ?_
  simp only [Ins.bind_run, dGet_run, excIf_run_not (bne_eq_false_iff_eq.mpr ha), hw.run, bits_zero_eight, if_pos hk, hb]

variable {b : List Word} (hb : loadBodyWords d (w.getD 0 0 % 256) (w.getD 5 0) t = (.ok b, u))
include hb

theorem exec_txIssue_faulty (hf : issueFaulty w = true) :
    exec (.txIssue rd xs) s = .next (u.takeExc d 28 ((s.dir d).getX xs).toNat (s.dir d).pc) := by
  refine director_exc f rfl ?_
  simp only [Ins.bind_run, dGet_run, excIf_run_not (bne_eq_false_iff_eq.mpr ha), hw.run, bits_zero_eight, if_pos hk, hb,
    excIf_run_of hf]
end

/-! ### Queue packets (R394, R397) -/

theorem room_iff {c : Dir} : ¬ (flightSize ≤ c.flight.length ∨ tibSize ≤ c.tib.length) ↔ c.flight.length < 256 ∧ c.tib.length < 64 := by
  rw [flightSize, tibSize]
  omega

/-- The core after it has issued a queue packet: the next ticket is the next number, and the packet is in flight and in the
issue buffer. -/
def Dir.issued (c : Dir) (hs : List Word) (root : Option Word) (q : Nat) (b : List Word) (part : Word) : Dir :=
  { c with
    txseq := c.txseq + 1
    flight := c.flight ++ [{ seq := c.txseq.toNat, handles := hs, root := root }]
    tib := c.tib ++ [{ kind := 3, dst := q, seq := c.txseq.toNat, words := b, root := part }] }

/-- The end of the issue of a queue packet: its holds, a release, and the tables (R396). -/
def issuePacket (d : Nat) (hs : List Word) (root : Option Word) (q : Nat) (b : List Word) : Ins Ctl := do
  takeHolds d root [] hs
  Ins.upd fun s => s.release (.dir d) 4
  let part ← Ins.get fun s => s.partOfDir d
  setDirOf d fun c => c.issued hs root q b ((part.map (·.2.root)).getD 0)
  pure .seq

section
variable {s t u : State} {d : Nat} (f : FreeDir s d) {rd xs : Reg} {w : List Nat} {b : List Word}
  (ha : ((s.dir d).getX xs).toNat % 64 = 0)
  (hw : descriptorAt s d ((s.dir d).getX xs).toNat w t)
  (h3 : w.getD 0 0 % 256 = 3) (hb : loadBodyWords d 3 (w.getD 5 0) t = (.ok b, u)) (hf : issueFaulty w = false) (hp : u.part = none)
  (hr : (u.dir d).flight.length < 256) (hq : (u.dir d).tib.length < 64) {hs : List Word}
  (he : (List.range (bits (w.getD 0 0) 8 3)).map (fun j => BitVec.ofNat 64 (w.getD (1 + j) 0)) = hs)
include f ha hw h3 hb hf hp hr hq he

/-- A queue packet with room: the ticket is in rd before the holds are taken, so that a hold that fails leaves it (R38, R396). -/
theorem exec_txIssue_packet : exec (.txIssue rd xs) s =
    runDirector (.txIssue rd xs) (fun d _ => issuePacket d hs (u.dir d).root (w.getD 6 0) b
      (u.setDirX d rd (ticketWord d (u.dir d).txseq))) s := by
  change runDirector _ _ s = _
  rw [runDirector_dir f, runDirector_dir f]
  congr 1
  apply runDir_congr
  simp only [Ins.bind_run, dGet_run, excIf_run_not (bne_eq_false_iff_eq.mpr ha), hw.run, bits_zero_eight, h3,
    if_pos (show 1 ≤ 3 ∧ 3 ≤ 3 by decide), hb, excIf_run_not hf,
    excIf_run_not (show (3 == 2 && !(b.getD 0 0).getLsbD 19) = false from rfl),
    dirOf_run, if_neg (room_iff.mpr ⟨hr, hq⟩), Ins.get_run, hp, Option.isSome_none, if_neg Bool.false_ne_true, dPut_run, he, issuePacket]
  rfl

theorem exec_txIssue_hold_fails {v : Nat} {r : State}
    (ht : takeHolds d (u.dir d).root [] hs (u.setDirX d rd (ticketWord d (u.dir d).txseq)) = (.error (.exc 28 v), r)) :
    exec (.txIssue rd xs) s = .next (r.takeExc d 28 v (s.dir d).pc) := by
  rw [exec_txIssue_packet f ha hw h3 hb hf hp hr hq he]
  exact director_exc f rfl (by simp only [issuePacket, Ins.bind_run, ht])

theorem exec_txIssue_issues {r : State}
    (ht : takeHolds d (u.dir d).root [] hs (u.setDirX d rd (ticketWord d (u.dir d).txseq)) = (.ok (), r)) :
    let z := r.release (.dir d) 4
    exec (.txIssue rd xs) s = .next ((z.setDir d ((z.dir d).issued hs (u.dir d).root (w.getD 6 0) b
      (((z.partOfDir d).map (·.2.root)).getD 0))).doneDir d (.txIssue rd xs) .seq) := by
  rw [exec_txIssue_packet f ha hw h3 hb hf hp hr hq he]
  exact director_done f rfl (by simp only [issuePacket, Ins.bind_run, ht, Ins.upd_run, Ins.get_run, setDirOf_run, Ins.pure_run])
end

/-! ### What a packet leaves of its core -/

theorem Dir.putX_eq (c : Dir) (r : Reg) (v : Word) : c.putX r v = { c with x := (c.putX r v).x } := by
  unfold Dir.putX
  split <;> rfl

theorem Dir.getX_putX (c : Dir) (r : Reg) (v : Word) : (c.putX r v).getX r = if r = 0 then 0 else v := by
  unfold Dir.putX Dir.getX
  split
  · rfl
  · simp

theorem ticketWord_toNat {d : Nat} (hd : d < Config.directors) (q : BitVec 32) :
    (ticketWord d q).toNat = (d * 2 ^ 32 + q.toNat) * 2 + 1 := by
  have hd : d < 16 := hd
  have hq := q.isLt
  rw [ticketWord, BitVec.toNat_ofNat]
  omega

/-- The core after a packet without storages (R396, R397). -/
theorem issued_fields {u r : State} {d q : Nat} {rd xs : Reg} {b : List Word} {part : Word} (hd : d < Config.directors)
    (e : r.dir d = ((u.dir d).putX rd (ticketWord d (u.dir d).txseq)).issued [] (u.dir d).root q b part) :
    let z := (r.doneDir d (.txIssue rd xs) .seq).dir d
    z.txseq = (u.dir d).txseq + 1 ∧
    z.flight = (u.dir d).flight ++ [{ seq := (u.dir d).txseq.toNat, handles := [], root := (u.dir d).root }] ∧
    (∃ root, z.tib = (u.dir d).tib ++ [{ kind := 3, dst := q, seq := (u.dir d).txseq.toNat, words := b, root := root }]) ∧
    (z.getX rd).toNat = (if rd = 0 then 0 else (d * 2 ^ 32 + (u.dir d).txseq.toNat) * 2 + 1) ∧ z.instret = (u.dir d).instret + 1 := by
  have hx : (((u.dir d).putX rd (ticketWord d (u.dir d).txseq)).getX rd).toNat =
      if rd = 0 then 0 else (d * 2 ^ 32 + (u.dir d).txseq.toNat) * 2 + 1 := by
    rw [Dir.getX_putX, apply_ite BitVec.toNat, ticketWord_toNat hd]
    rfl
  intro z
  have hz : z = (((u.dir d).putX rd (ticketWord d (u.dir d).txseq)).issued [] (u.dir d).root q b part).retire (.txIssue rd xs) .seq := by
    rw [← e]
    exact (State.doneDir_dir ..).trans (if_pos rfl)
  refine ⟨?_, ?_, ⟨part, ?_⟩, (congrArg (fun c : Dir => (c.getX rd).toNat) hz).trans hx, ?_⟩ <;> rw [hz, Dir.putX_eq] <;> rfl

/-! ### tx.wait (R400) -/

section
variable {s : State} {d : Nat} (f : FreeDir s d) (rd : Reg) {xt : Reg}
include f

theorem exec_txWait_none (hv : (s.dir d).getX xt = 2) : exec (.txWait rd xt) s =
    .next (((s.refresh (.dir d) 4).setDirX d rd 0).doneDir d (.txWait rd xt) (.seq none)) :=
  director_done f rfl (by simp [hv, marnorNone])

/-- A word that is no ticket: even, or of more than 36 bits above the lowest. -/
theorem exec_txWait_malformed (hv : (s.dir d).getX xt ≠ 2)
    (h : ((s.dir d).getX xt).toNat % 2 = 0 ∨ 2 ^ 37 ≤ ((s.dir d).getX xt).toNat) :
    exec (.txWait rd xt) s = .next (s.takeExc d 25 ((s.dir d).getX xt).toNat (s.dir d).pc) := by
  generalize hx : (s.dir d).getX xt = v at hv h
  have hb : (!v.getLsbD 0 || bits (v.toNat / 2) 36 28 != 0 || v.getLsbD 63) = true := by
    have hlt := v.isLt
    simp only [getLsbD_eq_fld, Bool.or_eq_true, Bool.not_eq_true', decide_eq_false_iff_not, bne_iff_ne]
    unfold Claims.fld bits
    omega
  exact director_exc f rfl (by simp only [Ins.bind_run, dGet_run, hx, Ins.ite_run, marnorNone, if_neg hv, excIf_run_of hb])

variable {e q : Nat} (he : e < Config.directors) (hq : q < 2 ^ 32) (hv : ((s.dir d).getX xt).toNat = (e * 2 ^ 32 + q) * 2 + 1)

include he hq hv in
omit f in
/-- The parts of a ticket: its core and its number. -/
theorem ticket_parts :
    (s.dir d).getX xt ≠ marnorNone ∧ (!((s.dir d).getX xt).getLsbD 0 || bits (((s.dir d).getX xt).toNat / 2) 36 28 != 0 ||
      ((s.dir d).getX xt).getLsbD 63) = false ∧
    bits (((s.dir d).getX xt).toNat / 2) 32 4 = e ∧ bits (((s.dir d).getX xt).toNat / 2) 0 32 = q := by
  have he : e < 16 := he
  generalize (s.dir d).getX xt = v at hv
  refine ⟨fun h2 => ?_, ?_, ?_, ?_⟩
  · have h2 : v.toNat = 2 := congrArg BitVec.toNat h2
    omega
  · simp only [getLsbD_eq_fld, Bool.or_eq_false_iff, Bool.not_eq_false', decide_eq_true_eq, decide_eq_false_iff_not, bne_eq_false_iff_eq]
    unfold Claims.fld bits
    omega
  · rw [bits]
    omega
  · rw [bits]
    omega

include he hq hv

theorem exec_txWait_future (h : (BitVec.ofNat 32 q - (s.dir e).txseq).toNat < 2 ^ 31) :
    exec (.txWait rd xt) s = .next ((s.setDirX d rd (BitVec.allOnes 64)).doneDir d (.txWait rd xt) (.seq none)) := by
  obtain ⟨h2, hb, h32, h0⟩ := ticket_parts he hq hv
  exact director_done f rfl (by
    simp only [Ins.bind_run, dGet_run, Ins.ite_run, if_neg h2, excIf_run_not hb, h32, h0, dirOf_run, if_pos h, dPut_run, Ins.pure_run])

variable (h : 2 ^ 31 ≤ (BitVec.ofNat 32 q - (s.dir e).txseq).toNat)
include h

theorem exec_txWait_done (hf : ∀ g ∈ (s.dir e).flight, g.seq ≠ q) : exec (.txWait rd xt) s =
    .next (((s.refresh (.dir d) 4).setDirX d rd 0).doneDir d (.txWait rd xt) (.seq none)) := by
  obtain ⟨h2, hb, h32, h0⟩ := ticket_parts he hq hv
  have hn : (s.dir e).flight.find? (fun g => g.seq == q) = none :=
    List.find?_eq_none.mpr fun g hg => mt beq_iff_eq.mp (hf g hg)
  exact director_done f rfl (by
    simp only [Ins.bind_run, dGet_run, Ins.ite_run, if_neg h2, excIf_run_not hb, h32, h0, dirOf_run, if_neg (Nat.not_lt.mpr h), hn,
      refreshAt_run, dPut_run, Ins.pure_run])

variable {g : InFlight} (hg : (s.dir e).flight.find? (fun g => g.seq == q) = some g)
include hg

theorem exec_txWait_waits (hn : g.failed = none) : exec (.txWait rd xt) s = .next s := by
  obtain ⟨h2, hb, h32, h0⟩ := ticket_parts he hq hv
  exact director_stall (t := s) f rfl (by
    simp only [Ins.bind_run, dGet_run, Ins.ite_run, if_neg h2, excIf_run_not hb, h32, h0, dirOf_run, if_neg (Nat.not_lt.mpr h), hg, hn,
      Ins.stop_run])

theorem exec_txWait_failed {st : Nat} (hs : g.failed = some st) :
    let r := s.refresh (.dir d) 4
    exec (.txWait rd xt) s = .next (((r.setDir e { r.dir e with flight := (r.dir e).flight.filter fun g => g.seq != q }).setDirX d rd
      (BitVec.ofNat 64 st)).doneDir d (.txWait rd xt) (.seq none)) := by
  obtain ⟨h2, hb, h32, h0⟩ := ticket_parts he hq hv
  exact director_done f rfl (by
    simp only [Ins.bind_run, dGet_run, Ins.ite_run, if_neg h2, excIf_run_not hb, h32, h0, dirOf_run, if_neg (Nat.not_lt.mpr h), hg, hs,
      refreshAt_run, setDirOf_run, dPut_run, Ins.pure_run])
end

/-! ### The statement -/

theorem loadBodyWords_packet (d a : Nat) : loadBodyWords d 3 a =
    ((List.range 2).mapM (fun k => do pure (BitVec.ofNat 64 (Claims.number (← dirLoad d ((a + 8 * k) % 2 ^ 64) 8)))) :
      Ins (List Word)) := by
  unfold loadBodyWords
  simp only [dLoad_eq, addrAdd, pure_bind, bind_assoc]

theorem directorCounts : Claims.DirectorCounts := by
  intro s d f c
  refine ⟨fun rd xh inc => ⟨exec_rc_not_handle f inc rd, exec_rc_malformed f inc rd, fun hv ps t h u hp hh =>
      ⟨exec_rc_stale f inc rd hv hp hh, fun hg => ⟨exec_rc_dead f inc rd hv hp hh hg, exec_rc_immortal f inc rd hv hp hh hg,
        fun h0 hm hl u1 hw => exec_rc_counts f inc rd hv hp hh hg h0 hm hl hw,
        fun hi h1 hn hm u1 u2 hw1 hw2 => exec_rc_last f inc rd hv hp hh hg hi h1 hn hm hw1 hw2⟩⟩⟩,
    fun rd xs => ⟨exec_txIssue_misaligned f, fun ha w t hw _ => ?_⟩, fun rd xt _ => ⟨exec_txWait_none f rd,
    exec_txWait_malformed f rd, fun e q he hq hv => ⟨exec_txWait_future f rd he hq hv, fun h => ⟨exec_txWait_done f rd he hq hv h,
      fun g hg => ⟨exec_txWait_waits f rd he hq hv h hg, fun st hs => exec_txWait_failed f rd he hq hv h hg hs⟩⟩⟩⟩⟩
  intro h kind
  refine ⟨fun bad => ⟨fun hk => ?_, fun h1 h3 r u hb => ⟨fun b hr => ?_, fun k v hr => ?_⟩⟩,
    fun hh hs h6 h7 h5 hv h1 b u hb hp hr hq => ?_, fun hh hs h6 h7 h5 b u hb hp hr hq => ?_⟩
  · exact exec_txIssue_no_kind f ha hw (by omega) (issueFaulty_of rfl rfl bad)
  · exact exec_txIssue_faulty f ha hw ⟨h1, h3⟩ (hb.trans (congrArg (·, u) hr)) (issueFaulty_of rfl rfl bad)
  · exact exec_txIssue_body_exc f ha hw ⟨h1, h3⟩ (hb.trans (congrArg (·, u) hr))
  · have hf : issueFaulty w = false := issueFaulty_packet (n := 1) hh (by decide) hs h5 h6 h7
    have e := exec_txIssue_hold_fails f (rd := rd) ha hw (congrArg (· % 256) hh) hb hf hp hr hq (packet_handles (n := 1) hh (by decide))
      (takeHolds_malformed hv d _ [] _)
    rwa [BitVec.toNat_ofNat, Nat.mod_eq_of_lt h1] at e
  · have hf : issueFaulty w = false := issueFaulty_packet (n := 0) hh (by decide) hs h5 h6 h7
    have hb : loadBodyWords d 3 (w.getD 5 0) t = (.ok b, u) := (congrFun (loadBodyWords_packet d _) t).trans hb
    refine ⟨_, exec_txIssue_issues f ha hw (congrArg (· % 256) hh) hb hf hp hr hq (packet_handles (n := 0) hh (by decide)) rfl, ?_⟩
    apply issued_fields f.2
    rw [State.setDir_dir_self, release_dir]
    exact congrArg (fun c : Dir => c.issued [] _ _ b _) (State.setDir_dir_self ..)

/-- Settles O54: the caches by `inlineCaches`, the counts, tensor issue and its wait by `directorCounts`. -/
theorem cachesAndCounts : Obligations.CachesAndCounts := ⟨inlineCaches, directorCounts⟩

end Sys2Proof.Machine
end
